-- ==== Sys2Proof/Word.lean ====
section
/-! DEFINITION. The word types of the Gleov 4144 and their plainest arithmetic (R4, R36; 00, 02).
A bit vector is used where the manual shifts, masks or stores bits; counts and identifiers are natural numbers. -/

namespace Sys2Proof

/-- A byte of memory. -/
abbrev Byte := BitVec 8
/-- A 32-bit lane register word. -/
abbrev W32 := BitVec 32
/-- A 64-bit scalar word. -/
abbrev W64 := BitVec 64
/-- A thread mask: bit t belongs to thread t (R36). -/
abbrev Mask := BitVec 128

/-- A sparse table in rising key order: register files, per-unit state and tables of the device. -/
abbrev Tab (α : Type) := List (Nat × α)

/-- Bit field [lo + n − 1 : lo] of a number. -/
def bits (x lo n : Nat) : Nat := x / 2 ^ lo % 2 ^ n

/-- Sign extension to 64 bits (R47, R86: SignExtend64). -/
abbrev sx64 {n : Nat} (x : BitVec n) : W64 := x.signExtend 64
/-- Zero extension to 64 bits (R86: ZeroExtend64). -/
abbrev zx64 {n : Nat} (x : BitVec n) : W64 := x.setWidth 64

/-- The little-endian value of a list of bytes (R4). -/
def leNat : List Byte → Nat
  | [] => 0
  | b :: bs => b.toNat + 256 * leNat bs

/-- The n little-endian bytes of a value (R4). -/
def leBytes : Nat → Nat → List Byte
  | 0, _ => []
  | n + 1, x => BitVec.ofNat 8 x :: leBytes n (x / 256)

end Sys2Proof
end

