-- ==== Sys2Proof/Syntax.lean ====
section
/-! DEFINITION. The instructions and events of the Gleov 4144: one constructor of `Instr` per row of
spec/opcode_table.json (R45–R71 for encoded instructions; the rest are the part's steps and events, spec/95).
Operand fields keep the widths of the encodings; an event carries what selects it or arrives with it. -/

namespace Sys2Proof

/-- The fields of a 96-bit lane instruction (R56–R64, R68). `ord` and `sp` are the order and space bits of class 0xB
and 0 elsewhere; `rnd` is the rounding field, or the scope code in the memory and atomic classes (R60). -/
structure LaneF where
  vd : BitVec 8
  va : BitVec 8
  vb : BitVec 8
  vc : BitVec 8
  la : BitVec 4
  rnd : BitVec 3
  sat : BitVec 1
  mr : BitVec 3
  ms : BitVec 1
  bsel : BitVec 2
  csel : BitVec 2
  ty : BitVec 4
  w2 : BitVec 32
  ord : BitVec 2
  sp : BitVec 1
  deriving DecidableEq, Repr

/-- What selects an event or arrives with it: the event constructors of `Instr` carry no operands of their own, an
event reads its operands from the state (State.ev). A host command finds its argument words ARG0–ARG3 in a, b, c, d. -/
structure EvArgs where
  a : Nat := 0
  b : Nat := 0
  c : Nat := 0
  d : Nat := 0
  flag : Bool := false
  data : List Byte := []
  deriving DecidableEq, Repr

/-- One constructor per row of spec/opcode_table.json, in its order, but that the rows without operands stand last. -/
inductive Instr where
  /-- ADD (R89): Stoker register add: sd := sa + sb modulo 2^64. -/
  | add (sd sa sb : BitVec 6)
  /-- SUB (R89): Stoker register subtract: sd := sa - sb modulo 2^64. -/
  | sub (sd sa sb : BitVec 6)
  /-- AND (R89): Stoker bitwise AND of two scalar registers. -/
  | and (sd sa sb : BitVec 6)
  /-- OR (R89): Stoker bitwise OR of two scalar registers. -/
  | or (sd sa sb : BitVec 6)
  /-- XOR (R89): Stoker bitwise XOR of two scalar registers. -/
  | xor (sd sa sb : BitVec 6)
  /-- ANDN (R89): Stoker sa AND NOT sb. -/
  | andn (sd sa sb : BitVec 6)
  /-- SHL (R90): Stoker left shift by an unsigned register amount, 0 at 64 or more. -/
  | shl (sd sa sb : BitVec 6)
  /-- SHR_N64 (R90): Stoker logical right shift by a register amount. -/
  | shrN64 (sd sa sb : BitVec 6)
  /-- SHR_I64 (R90): Stoker arithmetic right shift by a register amount. -/
  | shrI64 (sd sa sb : BitVec 6)
  /-- MUL (R89): Stoker multiply giving the low 64 bits of the product. -/
  | mul (sd sa sb : BitVec 6)
  /-- MULH_I64 (R89): Stoker signed multiply giving bits 127:64 of the product. -/
  | mulhI64 (sd sa sb : BitVec 6)
  /-- MULH_N64 (R89): Stoker unsigned multiply giving bits 127:64 of the product. -/
  | mulhN64 (sd sa sb : BitVec 6)
  /-- DIV_I64 (R91): Stoker signed division truncating toward zero; a zero divisor gives -1 and never traps. -/
  | divI64 (sd sa sb : BitVec 6)
  /-- DIV_N64 (R91): Stoker unsigned division; a zero divisor gives 2^64-1. -/
  | divN64 (sd sa sb : BitVec 6)
  /-- REM_I64 (R91): Stoker signed remainder; a zero divisor gives the dividend. -/
  | remI64 (sd sa sb : BitVec 6)
  /-- REM_N64 (R91): Stoker unsigned remainder; a zero divisor gives the dividend. -/
  | remN64 (sd sa sb : BitVec 6)
  /-- MIN_I64 (R89): Stoker signed minimum of two registers. -/
  | minI64 (sd sa sb : BitVec 6)
  /-- MIN_N64 (R89): Stoker unsigned minimum of two registers. -/
  | minN64 (sd sa sb : BitVec 6)
  /-- MAX_I64 (R89): Stoker signed maximum of two registers. -/
  | maxI64 (sd sa sb : BitVec 6)
  /-- MAX_N64 (R89): Stoker unsigned maximum of two registers. -/
  | maxN64 (sd sa sb : BitVec 6)
  /-- POPC (R92): Stoker count of the one bits of sa. -/
  | popc (sd sa : BitVec 6)
  /-- CLZ (R92): Stoker count of leading zero bits, 64 for zero. -/
  | clz (sd sa : BitVec 6)
  /-- CTZ (R92): Stoker count of trailing zero bits, 64 for zero. -/
  | ctz (sd sa : BitVec 6)
  /-- BSWAP (R92): Stoker reversal of the eight bytes of sa. -/
  | bswap (sd sa : BitVec 6)
  /-- ADD_IMM (R89): Stoker add of a sign-extended immediate, or a slit literal. -/
  | addImm (sd sa : BitVec 6) (imm : BitVec 13)
  /-- AND_IMM (R89): Stoker AND with an immediate. -/
  | andImm (sd sa : BitVec 6) (imm : BitVec 13)
  /-- OR_IMM (R89): Stoker OR with an immediate. -/
  | orImm (sd sa : BitVec 6) (imm : BitVec 13)
  /-- XOR_IMM (R89): Stoker XOR with an immediate. -/
  | xorImm (sd sa : BitVec 6) (imm : BitVec 13)
  /-- SHL_IMM (R90): Stoker left shift by an immediate amount. -/
  | shlImm (sd sa : BitVec 6) (imm : BitVec 13)
  /-- SHR_N64_IMM (R90): Stoker logical right shift by an immediate amount. -/
  | shrN64Imm (sd sa : BitVec 6) (imm : BitVec 13)
  /-- SHR_I64_IMM (R90): Stoker arithmetic right shift by an immediate amount. -/
  | shrI64Imm (sd sa : BitVec 6) (imm : BitVec 13)
  /-- MUL_IMM (R89): Stoker multiply by an immediate, low 64 bits. -/
  | mulImm (sd sa : BitVec 6) (imm : BitVec 13)
  /-- MIN_I64_IMM (R89): Stoker signed minimum with an immediate. -/
  | minI64Imm (sd sa : BitVec 6) (imm : BitVec 13)
  /-- MIN_N64_IMM (R89): Stoker unsigned minimum with a sign-extended immediate. -/
  | minN64Imm (sd sa : BitVec 6) (imm : BitVec 13)
  /-- MAX_I64_IMM (R89): Stoker signed maximum with an immediate. -/
  | maxI64Imm (sd sa : BitVec 6) (imm : BitVec 13)
  /-- MAX_N64_IMM (R89): Stoker unsigned maximum with a sign-extended immediate. -/
  | maxN64Imm (sd sa : BitVec 6) (imm : BitVec 13)
  /-- CMP (R93): Stoker register compare writing one condition bit. -/
  | cmp (cn : BitVec 3) (sa sb : BitVec 6) (ty : BitVec 1) (cc : BitVec 3)
  /-- CMP_I64_IMM (R93): Stoker signed compare with an immediate writing one condition bit. -/
  | cmpI64Imm (cc cn : BitVec 3) (sa : BitVec 6) (imm : BitVec 13)
  /-- CMP_N64_IMM (R93): Stoker unsigned compare with an immediate writing one condition bit. -/
  | cmpN64Imm (cc cn : BitVec 3) (sa : BitVec 6) (imm : BitVec 13)
  /-- CSEL (R94): Stoker select of sa or sb by a condition bit. -/
  | csel (sd sa sb : BitVec 6) (cn : BitVec 3)
  /-- BR (R95): Stoker unconditional PC-relative branch. -/
  | br (off : BitVec 25)
  /-- CALL (R95): Stoker call writing PC+4 to s63 and branching. -/
  | call (off : BitVec 25)
  /-- JR (R95): Stoker jump to the address in sa. -/
  | jr (sa : BitVec 6)
  /-- BZ (R95): Stoker branch when sa is zero. -/
  | bz (sa : BitVec 6) (off : BitVec 19)
  /-- BNZ (R95): Stoker branch when sa is nonzero. -/
  | bnz (sa : BitVec 6) (off : BitVec 19)
  /-- BC (R95): Stoker branch when condition bit cN is 1. -/
  | bc (cn : BitVec 3) (off : BitVec 19)
  /-- BNC (R95): Stoker branch when condition bit cN is 0. -/
  | bnc (cn : BitVec 3) (off : BitVec 19)
  /-- LD_N8 (R99): Stoker zero-extending byte load. -/
  | ldN8 (sd sa : BitVec 6) (imm : BitVec 13)
  /-- LD_I8 (R99): Stoker sign-extending byte load. -/
  | ldI8 (sd sa : BitVec 6) (imm : BitVec 13)
  /-- LD_N16 (R99): Stoker zero-extending halfword load. -/
  | ldN16 (sd sa : BitVec 6) (imm : BitVec 13)
  /-- LD_I16 (R99): Stoker sign-extending halfword load. -/
  | ldI16 (sd sa : BitVec 6) (imm : BitVec 13)
  /-- LD_N32 (R99): Stoker zero-extending word load. -/
  | ldN32 (sd sa : BitVec 6) (imm : BitVec 13)
  /-- LD_I32 (R99): Stoker sign-extending word load. -/
  | ldI32 (sd sa : BitVec 6) (imm : BitVec 13)
  /-- LD_B64 (R99): Stoker doubleword load. -/
  | ldB64 (sd sa : BitVec 6) (imm : BitVec 13)
  /-- ST_B8 (R99): Stoker byte store. -/
  | stB8 (sd sa : BitVec 6) (imm : BitVec 13)
  /-- ST_B16 (R99): Stoker halfword store. -/
  | stB16 (sd sa : BitVec 6) (imm : BitVec 13)
  /-- ST_B32 (R99): Stoker word store. -/
  | stB32 (sd sa : BitVec 6) (imm : BitVec 13)
  /-- ST_B64 (R99): Stoker doubleword store; a partial-block store in a codec region. -/
  | stB64 (sd sa : BitVec 6) (imm : BitVec 13)
  /-- LD_ACQ (R100): Stoker acquiring load at a scope. -/
  | ldAcq (sd sa : BitVec 6) (scope : BitVec 3) (sz : BitVec 2)
  /-- ST_REL (R100): Stoker releasing store at a scope. -/
  | stRel (sd sa : BitVec 6) (scope : BitVec 3) (sz : BitVec 2)
  /-- FENCE (R101): Stoker acquire, release or full fence at a scope. -/
  | fence (k : BitVec 2) (scope : BitVec 3)
  /-- AADD (R102): Stoker relaxed atomic add at the home slice. -/
  | aadd (w : BitVec 1) (sd sa sb : BitVec 6)
  /-- AADD_AR (R102): Stoker acquire-release atomic add at a scope. -/
  | aaddAr (w : BitVec 1) (sd sa sb : BitVec 6) (scope : BitVec 3)
  /-- AAND (R102): Stoker relaxed atomic AND. -/
  | aand (w : BitVec 1) (sd sa sb : BitVec 6)
  /-- AAND_AR (R102): Stoker acquire-release atomic AND. -/
  | aandAr (w : BitVec 1) (sd sa sb : BitVec 6) (scope : BitVec 3)
  /-- AOR (R102): Stoker relaxed atomic OR. -/
  | aor (w : BitVec 1) (sd sa sb : BitVec 6)
  /-- AOR_AR (R102): Stoker acquire-release atomic OR. -/
  | aorAr (w : BitVec 1) (sd sa sb : BitVec 6) (scope : BitVec 3)
  /-- AXOR (R102): Stoker relaxed atomic XOR. -/
  | axor (w : BitVec 1) (sd sa sb : BitVec 6)
  /-- AXOR_AR (R102): Stoker acquire-release atomic XOR. -/
  | axorAr (w : BitVec 1) (sd sa sb : BitVec 6) (scope : BitVec 3)
  /-- AMIN_I (R102): Stoker relaxed signed atomic minimum. -/
  | aminI (w : BitVec 1) (sd sa sb : BitVec 6)
  /-- AMIN_I_AR (R102): Stoker acquire-release signed atomic minimum. -/
  | aminIAr (w : BitVec 1) (sd sa sb : BitVec 6) (scope : BitVec 3)
  /-- AMIN_N (R102): Stoker relaxed unsigned atomic minimum. -/
  | aminN (w : BitVec 1) (sd sa sb : BitVec 6)
  /-- AMIN_N_AR (R102): Stoker acquire-release unsigned atomic minimum. -/
  | aminNAr (w : BitVec 1) (sd sa sb : BitVec 6) (scope : BitVec 3)
  /-- AMAX_I (R102): Stoker relaxed signed atomic maximum. -/
  | amaxI (w : BitVec 1) (sd sa sb : BitVec 6)
  /-- AMAX_I_AR (R102): Stoker acquire-release signed atomic maximum. -/
  | amaxIAr (w : BitVec 1) (sd sa sb : BitVec 6) (scope : BitVec 3)
  /-- AMAX_N (R102): Stoker relaxed unsigned atomic maximum. -/
  | amaxN (w : BitVec 1) (sd sa sb : BitVec 6)
  /-- AMAX_N_AR (R102): Stoker acquire-release unsigned atomic maximum. -/
  | amaxNAr (w : BitVec 1) (sd sa sb : BitVec 6) (scope : BitVec 3)
  /-- AXCHG (R102): Stoker relaxed atomic exchange. -/
  | axchg (w : BitVec 1) (sd sa sb : BitVec 6)
  /-- AXCHG_AR (R102): Stoker acquire-release atomic exchange. -/
  | axchgAr (w : BitVec 1) (sd sa sb : BitVec 6) (scope : BitVec 3)
  /-- ACAS (R102): Stoker relaxed compare-and-swap with the comparand in sd. -/
  | acas (w : BitVec 1) (sd sa sb : BitVec 6)
  /-- ACAS_AR (R102): Stoker acquire-release compare-and-swap. -/
  | acasAr (w : BitVec 1) (sd sa sb : BitVec 6) (scope : BitVec 3)
  /-- XLT (R103): Fills translation register bN from one page walk over a span, never faulting. -/
  | xlt (bn : BitVec 4) (sa sb : BitVec 6)
  /-- XINV (R105): Returns translation register bN to its reset values. -/
  | xinv (bn : BitVec 4)
  /-- XRD (R105): Reads word k of the stoker's translation register bN. -/
  | xrd (sd : BitVec 6) (bn : BitVec 4) (k : BitVec 2)
  /-- LRUN (R106): Enqueues a lane block with a register snapshot, first retiring the oldest if two are in flight. -/
  | lrun (idx : BitVec 25)
  /-- VSET (R188): Binds view register wN to a descriptor, copying its matrix into a view matrix store entry. -/
  | vset (wn : BitVec 3) (sa : BitVec 6)
  /-- VDROP (R189): Unbinds view register wN and lets go of its entry. -/
  | vdrop (wn : BitVec 3)
  /-- VQRY (R190): Reads the state word or a descriptor word of the stoker's view register. -/
  | vqry (sd : BitVec 6) (wn k : BitVec 3)
  /-- MMA (R340): Team member arrival at a matrix multiply-accumulate; the last equal arrival registers the operation. -/
  | mma (sa : BitVec 6)
  /-- ACCZ (R348): Registers a matrix-engine operation clearing accumulator units. -/
  | accz (sa sb : BitVec 6)
  /-- ACCLD (R348): Registers a matrix-engine load of global bytes into accumulator units. -/
  | accld (sd sa sb : BitVec 6)
  /-- ACCST (R348): Registers a matrix-engine store of accumulator units to global memory, rounded to a format. -/
  | accst (sd sa sb : BitVec 6) (fmt : BitVec 2)
  /-- CPY (R353): Starts a linear copy under a tag from a 32-byte descriptor. -/
  | cpy (sa : BitVec 6) (tag : BitVec 4)
  /-- CPY2D (R353): Starts a strided two-dimensional copy under a tag. -/
  | cpy2d (sa : BitVec 6) (tag : BitVec 4)
  /-- CPYG (R353): Starts an indexed gather copy under a tag. -/
  | cpyg (sa : BitVec 6) (tag : BitVec 4)
  /-- CPWAIT (R361): Waits for the tagged copy and earlier matrix operations, then acquires their accesses. -/
  | cpwait (tag : BitVec 4)
  /-- CPSTAT (R363): Reads the state, fault cause and progress of a copy tag. -/
  | cpstat (sd : BitVec 6) (tag : BitVec 4)
  /-- CPCONT (R362): Retires blocks and yields the group until the tag's work completes, then resumes at the label. -/
  | cpcont (tag : BitVec 4) (off : BitVec 21)
  /-- SRD (R113): Reads a special register into a scalar register. -/
  | srd (sd : BitVec 6) (num : BitVec 7)
  /-- MSET (R114): Writes MODE from sa, keeping CHK. -/
  | mset (sa : BitVec 6)
  /-- LAUNCH (R115): Starts a child grid from a 256-byte launch record. -/
  | launch (sa : BitVec 6)
  /-- FRZ (R297): Raises the freeze count of every page of a range and returns a ticket. -/
  | frz (sd sa sb : BitVec 6)
  /-- THAW (R297): Lowers the freeze count of every page of a range and returns a ticket. -/
  | thaw (sd sa sb : BitVec 6)
  /-- TKWT (R298): Waits until the freeze or thaw named by a ticket has completed. -/
  | tkwt (sa : BitVec 6)
  /-- CDCTR (R289): Reads one error counter of a codec region entry. -/
  | cdctr (sd sa : BitVec 6) (k : BitVec 3)
  /-- CDCLR (R290): Clears the five counters of a codec region entry indivisibly. -/
  | cdclr (sa : BitVec 6)
  /-- TRAP (R117): Raises the software trap with code k. -/
  | trap (k : BitVec 7)
  /-- PTAKE (R119): Takes a 64 KiB frame from the die's frame pool. -/
  | ptake (sd : BitVec 6)
  /-- PMAP (R120): Zero-fills a taken frame and installs it for a first-touch page, or returns it if already present. -/
  | pmap (sa sb : BitVec 6)
  /-- SWRD (R122): Reads an 8-byte word of the state window. -/
  | swrd (sd sa : BitVec 6)
  /-- SLIT (R48): Marker and literal words supplying a 64-bit immediate to the following SI instruction, trapping if misplaced. -/
  | slit (v : BitVec 64) (op : BitVec 7) (sd sa : BitVec 6)
  /-- LANE_ADD (R147): Lane integer add, optionally saturating. -/
  | laneAdd (f : LaneF)
  /-- LANE_SUB (R147): Lane integer subtract, optionally saturating. -/
  | laneSub (f : LaneF)
  /-- LANE_MUL (R147): Lane integer multiply, low bits. -/
  | laneMul (f : LaneF)
  /-- LANE_MULH (R147): Lane integer multiply, high bits. -/
  | laneMulh (f : LaneF)
  /-- LANE_MAD (R147): Lane integer multiply-add, optionally saturating. -/
  | laneMad (f : LaneF)
  /-- LANE_MIN (R147): Lane integer minimum. -/
  | laneMin (f : LaneF)
  /-- LANE_MAX (R147): Lane integer maximum. -/
  | laneMax (f : LaneF)
  /-- LANE_ABS (R147): Lane integer absolute value. -/
  | laneAbs (f : LaneF)
  /-- LANE_NEG (R147): Lane integer negation. -/
  | laneNeg (f : LaneF)
  /-- LANE_AND (R147): Lane bitwise AND. -/
  | laneAnd (f : LaneF)
  /-- LANE_OR (R147): Lane bitwise OR. -/
  | laneOr (f : LaneF)
  /-- LANE_XOR (R147): Lane bitwise XOR. -/
  | laneXor (f : LaneF)
  /-- LANE_NOT (R147): Lane bitwise NOT. -/
  | laneNot (f : LaneF)
  /-- LANE_SHL (R148): Lane left shift. -/
  | laneShl (f : LaneF)
  /-- LANE_SHR (R148): Lane logical or arithmetic right shift. -/
  | laneShr (f : LaneF)
  /-- LANE_POPC (R147): Lane population count. -/
  | lanePopc (f : LaneF)
  /-- LANE_CLZ (R147): Lane count of leading zeros. -/
  | laneClz (f : LaneF)
  /-- LANE_BFE (R148): Lane bit-field extract. -/
  | laneBfe (f : LaneF)
  /-- LANE_BFI (R148): Lane bit-field insert. -/
  | laneBfi (f : LaneF)
  /-- LANE_SEL (R149): Lane select by a mask register. -/
  | laneSel (f : LaneF)
  /-- LANE_MOV (R149): Lane move of the B source. -/
  | laneMov (f : LaneF)
  /-- LANE_CMP (R149): Lane integer compare writing a mask register. -/
  | laneCmp (f : LaneF)
  /-- LANE_DIV (R147): Lane integer division, long latency, never trapping. -/
  | laneDiv (f : LaneF)
  /-- LANE_REM (R147): Lane integer remainder, long latency. -/
  | laneRem (f : LaneF)
  /-- LANE_BSWAP (R147): Lane byte reversal. -/
  | laneBswap (f : LaneF)
  /-- LANE_BREV (R147): Lane bit reversal. -/
  | laneBrev (f : LaneF)
  /-- LANE_ADD_F32 (R150): FP32 add rounded by EffDir. -/
  | laneAddF32 (f : LaneF)
  /-- LANE_SUB_F32 (R150): FP32 subtract. -/
  | laneSubF32 (f : LaneF)
  /-- LANE_MUL_F32 (R150): FP32 multiply. -/
  | laneMulF32 (f : LaneF)
  /-- LANE_FMA_F32 (R150): FP32 fused multiply-add, one rounding. -/
  | laneFmaF32 (f : LaneF)
  /-- LANE_MIN_F32 (R126): FP32 minimumNumber. -/
  | laneMinF32 (f : LaneF)
  /-- LANE_MAX_F32 (R126): FP32 maximumNumber. -/
  | laneMaxF32 (f : LaneF)
  /-- LANE_ABS_F32 (R150): FP32 sign clear. -/
  | laneAbsF32 (f : LaneF)
  /-- LANE_NEG_F32 (R150): FP32 sign inversion. -/
  | laneNegF32 (f : LaneF)
  /-- LANE_CMP_F32 (R151): FP32 compare writing a mask register. -/
  | laneCmpF32 (f : LaneF)
  /-- LANE_RINT_F32 (R150): FP32 round to integral value. -/
  | laneRintF32 (f : LaneF)
  /-- LANE_COPYSIGN_F32 (R150): FP32 copy of B's sign onto A. -/
  | laneCopysignF32 (f : LaneF)
  /-- LANE_ADD_PACKED (R150): Packed FP16/BF16 add on each half. -/
  | laneAddPacked (f : LaneF)
  /-- LANE_SUB_PACKED (R150): Packed FP16/BF16 subtract. -/
  | laneSubPacked (f : LaneF)
  /-- LANE_MUL_PACKED (R150): Packed FP16/BF16 multiply. -/
  | laneMulPacked (f : LaneF)
  /-- LANE_FMA_PACKED (R150): Packed FP16/BF16 fused multiply-add. -/
  | laneFmaPacked (f : LaneF)
  /-- LANE_MIN_PACKED (R126): Packed FP16/BF16 minimumNumber. -/
  | laneMinPacked (f : LaneF)
  /-- LANE_MAX_PACKED (R126): Packed FP16/BF16 maximumNumber. -/
  | laneMaxPacked (f : LaneF)
  /-- LANE_ABS_PACKED (R150): Packed FP16/BF16 sign clear. -/
  | laneAbsPacked (f : LaneF)
  /-- LANE_NEG_PACKED (R150): Packed FP16/BF16 sign inversion. -/
  | laneNegPacked (f : LaneF)
  /-- LANE_CMP_PACKED (R151): Packed compare, mask bit set only when both halves hold. -/
  | laneCmpPacked (f : LaneF)
  /-- LANE_RINT_PACKED (R150): Packed round to integral value. -/
  | laneRintPacked (f : LaneF)
  /-- LANE_COPYSIGN_PACKED (R150): Packed copysign on each half. -/
  | laneCopysignPacked (f : LaneF)
  /-- LANE_ADD_F64 (R150): FP64 add. -/
  | laneAddF64 (f : LaneF)
  /-- LANE_SUB_F64 (R150): FP64 subtract. -/
  | laneSubF64 (f : LaneF)
  /-- LANE_MUL_F64 (R150): FP64 multiply. -/
  | laneMulF64 (f : LaneF)
  /-- LANE_FMA_F64 (R150): FP64 fused multiply-add. -/
  | laneFmaF64 (f : LaneF)
  /-- LANE_MIN_F64 (R126): FP64 minimumNumber. -/
  | laneMinF64 (f : LaneF)
  /-- LANE_MAX_F64 (R126): FP64 maximumNumber. -/
  | laneMaxF64 (f : LaneF)
  /-- LANE_ABS_F64 (R150): FP64 sign clear. -/
  | laneAbsF64 (f : LaneF)
  /-- LANE_NEG_F64 (R150): FP64 sign inversion. -/
  | laneNegF64 (f : LaneF)
  /-- LANE_CMP_F64 (R151): FP64 compare writing a mask register. -/
  | laneCmpF64 (f : LaneF)
  /-- LANE_RINT_F64 (R150): FP64 round to integral value. -/
  | laneRintF64 (f : LaneF)
  /-- LANE_COPYSIGN_F64 (R150): FP64 copysign. -/
  | laneCopysignF64 (f : LaneF)
  /-- LANE_DIV_F64 (R150): FP64 correctly rounded divide, long latency. -/
  | laneDivF64 (f : LaneF)
  /-- LANE_SQRT_F64 (R150): FP64 correctly rounded square root, long latency. -/
  | laneSqrtF64 (f : LaneF)
  /-- CVT (R152): Converts one value between any two of the sixteen types. -/
  | cvt (f : LaneF)
  /-- PACK (R153): Narrows two source registers into one of half-width elements. -/
  | pack (f : LaneF)
  /-- QPACK (R154): Narrows four source registers into one register. -/
  | qpack (f : LaneF)
  /-- UNPACK (R155): Extracts and converts one packed element chosen per thread. -/
  | unpack (f : LaneF)
  /-- DP8X4 (R156): Dot product of four 8-bit elements added to C in tree order. -/
  | dp8x4 (f : LaneF)
  /-- DP4X8 (R156): Dot product of eight 4-bit elements added to C. -/
  | dp4x8 (f : LaneF)
  /-- DP16X2 (R156): Dot product of two 16-bit elements added to C. -/
  | dp16x2 (f : LaneF)
  /-- RCP (R157): Approximate reciprocal. -/
  | rcp (f : LaneF)
  /-- RSQRT (R157): Approximate reciprocal square root. -/
  | rsqrt (f : LaneF)
  /-- LANE_SQRT (R157): Correctly rounded FP32/FP16 square root. -/
  | laneSqrt (f : LaneF)
  /-- EXP2 (R157): Approximate base-2 exponential. -/
  | exp2 (f : LaneF)
  /-- LOG2 (R157): Approximate base-2 logarithm. -/
  | log2 (f : LaneF)
  /-- SIN (R157): Approximate sine of radians. -/
  | sin (f : LaneF)
  /-- COS (R157): Approximate cosine of radians. -/
  | cos (f : LaneF)
  /-- TANH (R157): Approximate hyperbolic tangent. -/
  | tanh (f : LaneF)
  /-- LANE_DIV_F32 (R157): Correctly rounded FP32 divide, long latency. -/
  | laneDivF32 (f : LaneF)
  /-- SHFL_IDX (R159): Delivers each thread the value of an indexed acting thread. -/
  | shflIdx (f : LaneF)
  /-- SHFL_UP (R159): Delivers the value of thread t minus delta. -/
  | shflUp (f : LaneF)
  /-- SHFL_DOWN (R159): Delivers the value of thread t plus delta. -/
  | shflDown (f : LaneF)
  /-- SHFL_XOR (R159): Delivers the value of thread t XOR a mask. -/
  | shflXor (f : LaneF)
  /-- SCAN_ADD (R160): Inclusive prefix sum over acting threads. -/
  | scanAdd (f : LaneF)
  /-- SCAN_MIN (R160): Inclusive prefix minimum. -/
  | scanMin (f : LaneF)
  /-- SCAN_MAX (R160): Inclusive prefix maximum. -/
  | scanMax (f : LaneF)
  /-- XSCAN_ADD (R160): Exclusive prefix sum over acting threads. -/
  | xscanAdd (f : LaneF)
  /-- RED_ADD (R161): Sum over acting threads written to each, FP32 in a fixed tree. -/
  | redAdd (f : LaneF)
  /-- RED_MIN (R161): Minimum over acting threads. -/
  | redMin (f : LaneF)
  /-- RED_MAX (R161): Maximum over acting threads. -/
  | redMax (f : LaneF)
  /-- RED_AND (R161): AND over acting threads. -/
  | redAnd (f : LaneF)
  /-- RED_OR (R161): OR over acting threads. -/
  | redOr (f : LaneF)
  /-- VRED_ADD (R162): Sum over acting threads written to a pending scalar copy. -/
  | vredAdd (f : LaneF)
  /-- VRED_MIN (R162): Minimum to a pending scalar copy. -/
  | vredMin (f : LaneF)
  /-- VRED_MAX (R162): Maximum to a pending scalar copy. -/
  | vredMax (f : LaneF)
  /-- VANY (R162): Pending condition bit set when any acting thread's value is nonzero. -/
  | vany (f : LaneF)
  /-- VALL (R162): Pending condition bit set when every acting thread's value is nonzero. -/
  | vall (f : LaneF)
  /-- RFL (R162): Pending scalar copy of the lowest acting thread's value. -/
  | rfl (f : LaneF)
  /-- LD_GLOBAL (R163): Lane global load through a translation register, after the checks of R164. -/
  | ldGlobal (f : LaneF)
  /-- ST_GLOBAL (R163): Lane global store, optionally releasing. -/
  | stGlobal (f : LaneF)
  /-- LD_B128_GLOBAL (R163): Lane 16-byte global load into a register quad. -/
  | ldB128Global (f : LaneF)
  /-- ST_B128_GLOBAL (R163): Lane 16-byte global store from a register quad. -/
  | stB128Global (f : LaneF)
  /-- LD_SCRATCH (R163): Lane scratchpad load. -/
  | ldScratch (f : LaneF)
  /-- ST_SCRATCH (R163): Lane scratchpad store. -/
  | stScratch (f : LaneF)
  /-- LD_B128_SCRATCH (R163): Lane 16-byte scratchpad load. -/
  | ldB128Scratch (f : LaneF)
  /-- ST_B128_SCRATCH (R163): Lane 16-byte scratchpad store. -/
  | stB128Scratch (f : LaneF)
  /-- LD_PRIVATE (R217): Lane private load at an untranslated per-thread offset. -/
  | ldPrivate (f : LaneF)
  /-- ST_PRIVATE (R217): Lane private store. -/
  | stPrivate (f : LaneF)
  /-- LD_B128_PRIVATE (R217): Lane 16-byte private load. -/
  | ldB128Private (f : LaneF)
  /-- ST_B128_PRIVATE (R217): Lane 16-byte private store. -/
  | stB128Private (f : LaneF)
  /-- LANE_AADD (R169): Lane atomic add, integer or float, global or scratchpad. -/
  | laneAadd (f : LaneF)
  /-- LANE_AMIN (R169): Lane atomic minimum. -/
  | laneAmin (f : LaneF)
  /-- LANE_AMAX (R169): Lane atomic maximum. -/
  | laneAmax (f : LaneF)
  /-- LANE_AAND (R169): Lane atomic AND. -/
  | laneAand (f : LaneF)
  /-- LANE_AOR (R169): Lane atomic OR. -/
  | laneAor (f : LaneF)
  /-- LANE_AXOR (R169): Lane atomic XOR. -/
  | laneAxor (f : LaneF)
  /-- LANE_AXCHG (R169): Lane atomic exchange. -/
  | laneAxchg (f : LaneF)
  /-- LANE_ACAS (R169): Lane compare-and-swap with the comparand in vd. -/
  | laneAcas (f : LaneF)
  /-- AMAXABS (R170): Folds a magnitude into an FP32 scale word by maximumNumber. -/
  | amaxabs (f : LaneF)
  /-- LDV (R191): Loads one element of a projected row through a view, projecting on a miss. -/
  | ldv (f : LaneF)
  /-- BRA (R172): Lane branch that may divide the split. -/
  | bra (f : LaneF)
  /-- JOIN (R174): Split waits at a join and merges with waiting splits whose join masks are covered. -/
  | join (f : LaneF)
  /-- LPAUSE (R177): Waits for the split's results, demotes the group and counts toward rotation. -/
  | lpause (f : LaneF)
  /-- LSTOP (R176): Split waits at lstop; the block stops when every thread has reached one. -/
  | lstop (f : LaneF)
  /-- MAND (R178): Mask AND. -/
  | mand (f : LaneF)
  /-- MOR (R178): Mask OR. -/
  | mor (f : LaneF)
  /-- MXOR (R178): Mask XOR. -/
  | mxor (f : LaneF)
  /-- MANDN (R178): Mask AND NOT. -/
  | mandn (f : LaneF)
  /-- MTOV (R178): Copies the 32-bit word of a mask covering the thread's pass into a lane register. -/
  | mtov (f : LaneF)
  /-- VTOM (R178): Sets mask bits where a lane value is nonzero. -/
  | vtom (f : LaneF)
  /-- EXIT (R97): Ends the group's stoker; the group retires after its blocks, accesses and engine work finish. -/
  | exit
  /-- LWAIT (R107): Retires the oldest block once stopped and its accesses performed, landing pending scalars. -/
  | lwait
  /-- LKILL (R108): Discards every lane block in flight, youngest first, landing nothing. -/
  | lkill
  /-- WGBAR (R109): Workgroup barrier arrival; waits until every group of the workgroup arrives. -/
  | wgbar
  /-- GBAR (R110): Grid barrier arrival in a co-resident grid at device scope. -/
  | gbar
  /-- SPAUSE (R111): Demotes the group for the next 16 issue opportunities. -/
  | spause
  /-- YIELD (R112): Retires blocks and saves the group if its context's damper is raised. -/
  | yield
  /-- CWAIT (R116): Waits until every child grid of the group has retired. -/
  | cwait
  /-- TRET (R118): Ends a supervisor handler, restores the frame and reissues or skips the faulting instruction. -/
  | tret
  /-- AHARV (R121): Writes back gathered dirty and accessed bits of the context on all dies. -/
  | aharv
  /-- LONG_LATENCY_RESULT (R143): A long-latency lane or stoker result (load data, divide, cross-lane) is written when it returns. -/
  | longLatencyResult
  /-- ESCALATION (R203): A group's lane pass-over count reaches 64 and the group becomes escalated. -/
  | escalation
  /-- STOKER_ESCALATION (R205): A group's stoker pass-over count reaches 64. -/
  | stokerEscalation
  /-- DEMOTION_END (R204): Sixteen issue opportunities pass and a paused group is no longer demoted. -/
  | demotionEnd
  /-- SPLIT_ROTATION (R209): A split's rotation count reaches 64; it is swapped with the oldest ready spilled split. -/
  | splitRotation
  /-- TRAP_TAKE (R263): The group stops at its next boundary and the trap goes to the handler or the coalescer. -/
  | trapTake
  /-- COALESCER_DELIVERY (R260): An open trap record's 256 ns expire and it is closed and delivered. -/
  | coalescerDelivery
  /-- FAULT_QUEUE_WRITE (R261): A closed record is written at TAIL when the ring has room and TAIL advances. -/
  | faultQueueWrite
  /-- PAGE_WALK (R237): A translation walk returns with a translation, an absent page, or an illegal access. -/
  | pageWalk
  /-- AD_WRITEBACK (R242): A gathered A or D bit is written back by an atomic OR, at the latest 1 ms after gathering. -/
  | adWriteback
  /-- HOME_READ_REQUEST (R230): A read reaches a home slice and is served with a lease, or waits on a pending write. -/
  | homeReadRequest
  /-- HOME_WRITE_ARRIVAL (R230): A write or atomic arrives at its home slice and waits for the latest lease expiry. -/
  | homeWriteArrival
  /-- WRITE_PERFORMED (R230): A pending write is performed at its home and waiting reads are served. -/
  | writePerformed
  /-- LEASE_EXPIRY (R230): A leased copy reaches its expiry and is dropped without a message. -/
  | leaseExpiry
  /-- HOME_ATOMIC (R232): A global atomic executes indivisibly at the home slice once no lease is live. -/
  | homeAtomic
  /-- LEND_LINE (R233): After four consecutive atomics the home lends a line to a hearth once its leases expire. -/
  | lendLine
  /-- LINE_RECALL (R233): The home recalls a lent line from the borrowing L1. -/
  | lineRecall
  /-- LINE_RETURN (R233): The borrowing hearth returns a lent line to its home. -/
  | lineReturn
  /-- PROJECTION_COMPLETE (R192): The projection unit finishes a row and installs it as a view line. -/
  | projectionComplete
  /-- VIEW_MATRIX_COPY_DONE (R188): A vset's matrix copy into the view matrix store completes. -/
  | viewMatrixCopyDone
  /-- SCRATCHPAD_REFILL (R224): A not-resident scratchpad page is refilled from its backing on first access. -/
  | scratchpadRefill
  /-- REMOTE_READ (R308): A die reads a line homed on another die through its bridge as a remote copy. -/
  | remoteRead
  /-- INVALIDATION (R310): A sharer die receives an invalidation, drops its remote copy and kills derived view lines. -/
  | invalidation
  /-- INVALIDATION_ACK (R310): A sharer die's acknowledgement reaches the home after its sub-leases expire. -/
  | invalidationAck
  /-- LINK_DEATH (R311): No flit or acknowledgement for 1 µs; the link is declared dead and the die fenced. -/
  | linkDeath
  /-- SHARER_ACK_TIMEOUT (R311): A sharer has not acknowledged for 2 µs; the home treats it as fenced and completes the write. -/
  | sharerAckTimeout
  /-- FLIT_CRC_FAIL (R316): A received flit fails its CRC and is repeated; after 8 repeats the link dies. -/
  | flitCrcFail
  /-- DIRECTORY_ECC_ERROR (R312): A directory entry's uncorrectable error invalidates all sharers and rebuilds it. -/
  | directoryEccError
  /-- SOFT_ERROR (R318): An SRAM soft error is corrected and counted, or handled by structure if uncorrectable. -/
  | softError
  /-- L2_EVICTION (R314): A line leaving L2 is encoded in its smallest exact form and written to HBM. -/
  | l2Eviction
  /-- HOST_SNOOP (R322): A host snoop arrives at the home slice, which stops granting leases. -/
  | hostSnoop
  /-- SNOOP_ANSWER (R322): After the latest lease expires the home answers the snoop and drops or shares the half. -/
  | snoopAnswer
  /-- HOST_MEMORY_REQUEST (R320): A host CXL.mem request arrives at a home slice; writes to frozen homes are refused. -/
  | hostMemoryRequest
  /-- FABRIC_REQUEST (R323): A remote load, store or atomic from another module is performed at its home slice. -/
  | fabricRequest
  /-- REMOTE_TIMEOUT (R325): A remote access has no response for 10 µs; the destination is poisoned and a record queued. -/
  | remoteTimeout
  /-- TIME_ALIGN (R324): A device-time alignment message keeps device time in step across the fabric. -/
  | timeAlign
  /-- FREEZE_REQUEST (R298): A freeze request writes FST and shoots down the page in a module of the domain. -/
  | freezeRequest
  /-- FREEZE_COMPLETE (R298): Every page of a freeze has completed; DONE is set and the home marks it frozen. -/
  | freezeComplete
  /-- DROP_REPLICAS (R302): A die invalidates every copy of a page's generation and acknowledges. -/
  | dropReplicas
  /-- DROP_REPLICAS_ACK (R302): An acknowledgement reaches the coordinator; the last one completes the page's thaw. -/
  | dropReplicasAck
  /-- THAW_TIMEOUT (R306): A module fails to acknowledge drop-replicas within FRTO and the page becomes thaw-failed. -/
  | thawTimeout
  /-- FREEZE_SHOOTDOWN_TIMEOUT (R306): A module fails to acknowledge a freeze shootdown within FRTO; its writes are refused. -/
  | freezeShootdownTimeout
  /-- REPLICA_FETCH (R294): A frozen line is fetched into a same-numbered slice of the reader's die as a replica. -/
  | replicaFetch
  /-- COPY_UNIT (R357): The copy engine completes one 128-byte unit, or stops the copy on a fault. -/
  | copyUnit
  /-- MMA_KSTEP (R344): The matrix engine completes one K-step of a registered mma. -/
  | mmaKstep
  /-- ACC_UNIT (R348): An accz, accld or accst completes one 1 KiB accumulator unit. -/
  | accUnit
  /-- LAUNCH_RECORD (R372): The dispatcher parses a sealed launch record, accepting or refusing it and advancing PROG. -/
  | launchRecord
  /-- QUEUE_SEAL_WRITE (R369): A host write of a slot's expected seal starts the dispatcher's read of the record. -/
  | queueSealWrite
  /-- WORKGROUP_PLACEMENT (R374): A waiting workgroup is placed on a hearth once its whole footprint fits. -/
  | workgroupPlacement
  /-- GRID_RETIRE (R27): A grid retires after its groups and children retire; DONE advances and waiters wake. -/
  | gridRetire
  /-- FORCED_SAVE (R377): The damper deadline expires and every running pre-emptible group is saved at its next boundary. -/
  | forcedSave
  /-- RESTORE_WORKGROUP (R380): A saved workgroup returns to its slots, re-registers engine work and locks, and resumes. -/
  | restoreWorkgroup
  /-- GROUP_TIMER_TRAP (R382): A group's %gtime reaches GTIMER and it takes the run-time timer trap. -/
  | groupTimerTrap
  /-- DEADLINE_ALARM (R382): Device time reaches the context's alarm; each group takes the alarm at its next boundary. -/
  | deadlineAlarm
  /-- SHOOTDOWN (R240): Host command 0x01 removes translations and marks registers stale for a context range. -/
  | shootdown
  /-- RESUME_GROUP (R331): Host command 0x02 resumes a group suspended on an escalated trap, optionally skipping. -/
  | resumeGroup
  /-- END_GROUP (R331): Host command 0x03 discards a group's blocks and retires it as exit does. -/
  | endGroup
  /-- LIFT_FENCE (R331): Host command 0x04 ends a die-to-die link fence. -/
  | liftFence
  /-- REPAIR_FREEZE (R307): Host command 0x05 repairs a thaw-failed page or lifts a refusal. -/
  | repairFreeze
  /-- POOL_ADD (R244): Host command 0x06 adds frames written at the ring's tail to COUNT. -/
  | poolAdd
  /-- RECORDED_MODE_RECORD (R332): Host command 0x07 with ARG3[0]=0 puts a context in recorded mode. -/
  | recordedModeRecord
  /-- RECORDED_MODE_REPLAY (R334): Host command 0x07 with ARG3[0]=1 replays a recorded log. -/
  | recordedModeReplay
  /-- TRACE_RECORD (R333): A 32-byte trace record is appended, or the context stalls when the ring is full. -/
  | traceRecord
  /-- IMAGE_UPDATE (R331): Host command 0x08 writes a new firmware image to flash. -/
  | imageUpdate
  /-- ATTEST (R327): Host command 0x09 writes a signed attestation report for a nonce. -/
  | attest
  /-- RAISE_DAMPER (R377): Host command 0x0A raises the context's damper and arms its deadline. -/
  | raiseDamper
  /-- QUEUE_MAKE_RESIDENT (R370): Host command 0x0B with ARG3[0]=1 makes a queue resident on a die. -/
  | queueMakeResident
  /-- QUEUE_SWITCH_OUT (R370): Host command 0x0B with ARG3[0]=0 switches a queue out, writing back PROG, DONE and ERR. -/
  | queueSwitchOut
  /-- RESTORE_CONTEXT (R380): Host command 0x0C restores a saved context. -/
  | restoreContext
  /-- SET_ALARM (R382): Host command 0x0D sets or cancels the context's deadline alarm. -/
  | setAlarm
  /-- LOAD_CONTEXT (R367): Host command 0x0E creates a context from its 256-byte descriptor. -/
  | loadContext
  /-- END_CONTEXT (R383): Host command 0x0F ends a context, its groups, engine work, freezes and translations. -/
  | endContext
  /-- COMMAND_BUSY_WRITE (R330): A CMD write while STATUS is 1 is ignored and sets STATUS to 3. -/
  | commandBusyWrite
  /-- RECORDED_HEAD_WRITE (R335): A host write of the trace ring HEAD clears STALLED once room or records are available. -/
  | recordedHeadWrite
  /-- FAULT_QUEUE_HEAD_WRITE (R261): A host write of the fault queue HEAD frees room so held records are delivered. -/
  | faultQueueHeadWrite
  /-- STATE_WINDOW_WRITE (R329): A host write to another state-window word is applied where permitted or ignored. -/
  | stateWindowWrite
  /-- BOOT (R326): At reset the boot ROM verifies and runs the firmware image, or enters recovery. -/
  | boot
  /-- COOLANT_CONFIRM (R6): Management firmware confirms coolant flow and lets arithmetic units run and launches start. -/
  | coolantConfirm
  /-- THERMAL_STOP (R7): Coolant or die temperature leaves range; firmware stops the module and raises the device error interrupt. -/
  | thermalStop
  /-- STOKER_ILLEGAL_INSTRUCTION (R55): The stoker issues a word with an unassigned opcode or fn, a nonzero reserved field or an
  out-of-range code, such as the guard word 0xFC000000, and raises the precise illegal-instruction trap. -/
  | stokerIllegalInstruction
  /-- LANE_ILLEGAL_INSTRUCTION (R70): A lane split issues a word of class 0xE or 0xF, or one that breaks a check of R70, and raises the
  precise illegal-instruction trap before any pass. -/
  | laneIllegalInstruction
  /-- FETCH_PAGE_FAULT (R84): An instruction fetch finds its code page absent, unmapped, malformed or without RD and raises a precise
  escalated page fault at the unfetched instruction. -/
  | fetchPageFault
  /-- PORT_UP (R328): A Benud port starts to carry traffic again, sets PSTAT UP and records CHANGE, and rejoins the hash of live ports. -/
  | portUp
  /-- HOST_LINK_TRAINING (R320): The host link trains: at ×16 or a degraded ×8, and as a CXL Type 2 device at 64 GT/s when the host offers
  CXL 3.x, otherwise in plain PCIe mode. -/
  | hostLinkTraining
  deriving DecidableEq, Repr

end Sys2Proof
end

