-- ==== Sys2Proof/Machine/Legal.lean ====
section
/-! DEFINITION. Which encodings are instructions: the static checks of R55 for the stoker and of R70 for the lanes,
and the operand signature of every lane instruction (R66–R68). -/

namespace Sys2Proof.Machine

/-- What a lane destination field names (R65, R67). -/
inductive LDst where
  | none | v | quad | m | s | c
  deriving DecidableEq, Repr

/-- What the va field holds (R67). `one` is a single register whatever the type; `cvtSrc` has the source type's width. -/
inductive LA where
  | none | src | one | quad | cvtSrc | idx | mreg
  deriving DecidableEq, Repr

/-- What the vb field holds (R67). -/
inductive LB where
  | none | src | one | desc | mreg
  deriving DecidableEq, Repr

/-- What the vc field holds (R67). -/
inductive LC where
  | none | src | cc | mreg | srcTy | data | quad | wreg
  deriving DecidableEq, Repr

/-- What the rounding field may hold (R60, R68). -/
inductive LR where
  | zero | round | f32round | scope | atom
  deriving DecidableEq, Repr

/-- The signature of a lane instruction: class, operation, operands, legal types, rounding use, long latency (R66, R67). -/
structure LaneSig where
  cls : Nat
  op : Nat
  dst : LDst
  a : LA
  b : LB
  c : LC
  tys : List Nat
  rnd : LR
  lng : Bool
  deriving DecidableEq, Repr

/-- The signature and fields of a lane instruction; none for the stoker and for events. -/
def laneSig : Instr → Option (LaneSig × LaneF)
  | .laneAdd f => some (⟨0, 0, .v, .src, .src, .none, [4, 5, 6, 7], .zero, false⟩, f)
  | .laneSub f => some (⟨0, 1, .v, .src, .src, .none, [4, 5, 6, 7], .zero, false⟩, f)
  | .laneMul f => some (⟨0, 2, .v, .src, .src, .none, [4, 5, 6, 7], .zero, false⟩, f)
  | .laneMulh f => some (⟨0, 3, .v, .src, .src, .none, [4, 5, 6, 7], .zero, false⟩, f)
  | .laneMad f => some (⟨0, 4, .v, .src, .src, .src, [4, 5, 6, 7], .zero, false⟩, f)
  | .laneMin f => some (⟨0, 5, .v, .src, .src, .none, [4, 5, 6, 7], .zero, false⟩, f)
  | .laneMax f => some (⟨0, 6, .v, .src, .src, .none, [4, 5, 6, 7], .zero, false⟩, f)
  | .laneAbs f => some (⟨0, 7, .v, .src, .none, .none, [4, 5, 6, 7], .zero, false⟩, f)
  | .laneNeg f => some (⟨0, 8, .v, .src, .none, .none, [4, 5, 6, 7], .zero, false⟩, f)
  | .laneAnd f => some (⟨0, 9, .v, .src, .src, .none, [4, 5, 6, 7], .zero, false⟩, f)
  | .laneOr f => some (⟨0, 10, .v, .src, .src, .none, [4, 5, 6, 7], .zero, false⟩, f)
  | .laneXor f => some (⟨0, 11, .v, .src, .src, .none, [4, 5, 6, 7], .zero, false⟩, f)
  | .laneNot f => some (⟨0, 12, .v, .src, .none, .none, [4, 5, 6, 7], .zero, false⟩, f)
  | .laneShl f => some (⟨0, 13, .v, .src, .src, .none, [4, 5, 6, 7], .zero, false⟩, f)
  | .laneShr f => some (⟨0, 14, .v, .src, .src, .none, [4, 5, 6, 7], .zero, false⟩, f)
  | .lanePopc f => some (⟨0, 15, .v, .src, .none, .none, [4, 5, 6, 7], .zero, false⟩, f)
  | .laneClz f => some (⟨0, 16, .v, .src, .none, .none, [4, 5, 6, 7], .zero, false⟩, f)
  | .laneBfe f => some (⟨0, 17, .v, .src, .src, .src, [4, 5, 6, 7], .zero, false⟩, f)
  | .laneBfi f => some (⟨0, 18, .v, .src, .src, .src, [4, 5, 6, 7], .zero, false⟩, f)
  | .laneSel f => some (⟨0, 19, .v, .src, .src, .mreg, [4, 5, 6, 7], .zero, false⟩, f)
  | .laneMov f => some (⟨0, 20, .v, .none, .src, .none, [4, 5, 6, 7], .zero, false⟩, f)
  | .laneCmp f => some (⟨0, 21, .m, .src, .src, .cc, [4, 5, 6, 7], .zero, false⟩, f)
  | .laneDiv f => some (⟨0, 22, .v, .src, .src, .none, [4, 5, 6, 7], .zero, true⟩, f)
  | .laneRem f => some (⟨0, 23, .v, .src, .src, .none, [4, 5, 6, 7], .zero, true⟩, f)
  | .laneBswap f => some (⟨0, 24, .v, .src, .none, .none, [4, 5, 6, 7], .zero, false⟩, f)
  | .laneBrev f => some (⟨0, 25, .v, .src, .none, .none, [4, 5, 6, 7], .zero, false⟩, f)
  | .laneAddF32 f => some (⟨1, 0, .v, .src, .src, .none, [10], .round, false⟩, f)
  | .laneSubF32 f => some (⟨1, 1, .v, .src, .src, .none, [10], .round, false⟩, f)
  | .laneMulF32 f => some (⟨1, 2, .v, .src, .src, .none, [10], .round, false⟩, f)
  | .laneFmaF32 f => some (⟨1, 3, .v, .src, .src, .src, [10], .round, false⟩, f)
  | .laneMinF32 f => some (⟨1, 4, .v, .src, .src, .none, [10], .round, false⟩, f)
  | .laneMaxF32 f => some (⟨1, 5, .v, .src, .src, .none, [10], .round, false⟩, f)
  | .laneAbsF32 f => some (⟨1, 6, .v, .src, .none, .none, [10], .round, false⟩, f)
  | .laneNegF32 f => some (⟨1, 7, .v, .src, .none, .none, [10], .round, false⟩, f)
  | .laneCmpF32 f => some (⟨1, 8, .m, .src, .src, .cc, [10], .round, false⟩, f)
  | .laneRintF32 f => some (⟨1, 9, .v, .src, .none, .none, [10], .round, false⟩, f)
  | .laneCopysignF32 f => some (⟨1, 10, .v, .src, .src, .none, [10], .round, false⟩, f)
  | .laneAddPacked f => some (⟨2, 0, .v, .src, .src, .none, [8, 9], .round, false⟩, f)
  | .laneSubPacked f => some (⟨2, 1, .v, .src, .src, .none, [8, 9], .round, false⟩, f)
  | .laneMulPacked f => some (⟨2, 2, .v, .src, .src, .none, [8, 9], .round, false⟩, f)
  | .laneFmaPacked f => some (⟨2, 3, .v, .src, .src, .src, [8, 9], .round, false⟩, f)
  | .laneMinPacked f => some (⟨2, 4, .v, .src, .src, .none, [8, 9], .round, false⟩, f)
  | .laneMaxPacked f => some (⟨2, 5, .v, .src, .src, .none, [8, 9], .round, false⟩, f)
  | .laneAbsPacked f => some (⟨2, 6, .v, .src, .none, .none, [8, 9], .round, false⟩, f)
  | .laneNegPacked f => some (⟨2, 7, .v, .src, .none, .none, [8, 9], .round, false⟩, f)
  | .laneCmpPacked f => some (⟨2, 8, .m, .src, .src, .cc, [8, 9], .round, false⟩, f)
  | .laneRintPacked f => some (⟨2, 9, .v, .src, .none, .none, [8, 9], .round, false⟩, f)
  | .laneCopysignPacked f => some (⟨2, 10, .v, .src, .src, .none, [8, 9], .round, false⟩, f)
  | .laneAddF64 f => some (⟨3, 0, .v, .src, .src, .none, [11], .round, false⟩, f)
  | .laneSubF64 f => some (⟨3, 1, .v, .src, .src, .none, [11], .round, false⟩, f)
  | .laneMulF64 f => some (⟨3, 2, .v, .src, .src, .none, [11], .round, false⟩, f)
  | .laneFmaF64 f => some (⟨3, 3, .v, .src, .src, .src, [11], .round, false⟩, f)
  | .laneMinF64 f => some (⟨3, 4, .v, .src, .src, .none, [11], .round, false⟩, f)
  | .laneMaxF64 f => some (⟨3, 5, .v, .src, .src, .none, [11], .round, false⟩, f)
  | .laneAbsF64 f => some (⟨3, 6, .v, .src, .none, .none, [11], .round, false⟩, f)
  | .laneNegF64 f => some (⟨3, 7, .v, .src, .none, .none, [11], .round, false⟩, f)
  | .laneCmpF64 f => some (⟨3, 8, .m, .src, .src, .cc, [11], .round, false⟩, f)
  | .laneRintF64 f => some (⟨3, 9, .v, .src, .none, .none, [11], .round, false⟩, f)
  | .laneCopysignF64 f => some (⟨3, 10, .v, .src, .src, .none, [11], .round, false⟩, f)
  | .laneDivF64 f => some (⟨3, 11, .v, .src, .src, .none, [11], .round, true⟩, f)
  | .laneSqrtF64 f => some (⟨3, 12, .v, .src, .none, .none, [11], .round, true⟩, f)
  | .cvt f => some (⟨4, 0, .v, .cvtSrc, .none, .srcTy, [0, 1, 2, 3, 4, 5, 6, 7, 8, 9, 10, 11, 12, 13, 14, 15], .round, false⟩, f)
  | .pack f => some (⟨4, 1, .v, .one, .src, .none, [0, 1, 2, 3, 8, 9, 12, 13, 14, 15], .round, false⟩, f)
  | .qpack f => some (⟨4, 2, .v, .quad, .none, .srcTy, [0, 1, 12, 13, 14, 15], .round, false⟩, f)
  | .unpack f => some (⟨4, 3, .v, .one, .one, .srcTy, [0, 1, 2, 3, 4, 5, 6, 7, 8, 9, 10, 11, 12, 13, 14, 15], .round, false⟩, f)
  | .dp8x4 f => some (⟨5, 0, .v, .src, .src, .src, [0, 1, 12, 13], .zero, false⟩, f)
  | .dp4x8 f => some (⟨5, 1, .v, .src, .src, .src, [14, 15], .zero, false⟩, f)
  | .dp16x2 f => some (⟨5, 2, .v, .src, .src, .src, [8, 9], .zero, false⟩, f)
  | .rcp f => some (⟨6, 0, .v, .src, .none, .none, [8, 10], .round, true⟩, f)
  | .rsqrt f => some (⟨6, 1, .v, .src, .none, .none, [8, 10], .round, true⟩, f)
  | .laneSqrt f => some (⟨6, 2, .v, .src, .none, .none, [8, 10], .round, true⟩, f)
  | .exp2 f => some (⟨6, 3, .v, .src, .none, .none, [8, 10], .round, true⟩, f)
  | .log2 f => some (⟨6, 4, .v, .src, .none, .none, [8, 10], .round, true⟩, f)
  | .sin f => some (⟨6, 5, .v, .src, .none, .none, [8, 10], .round, true⟩, f)
  | .cos f => some (⟨6, 6, .v, .src, .none, .none, [8, 10], .round, true⟩, f)
  | .tanh f => some (⟨6, 7, .v, .src, .none, .none, [8, 10], .round, true⟩, f)
  | .laneDivF32 f => some (⟨6, 8, .v, .src, .src, .none, [10], .round, true⟩, f)
  | .shflIdx f => some (⟨7, 0, .v, .src, .one, .none, [5, 7], .zero, true⟩, f)
  | .shflUp f => some (⟨7, 1, .v, .src, .one, .none, [5, 7], .zero, true⟩, f)
  | .shflDown f => some (⟨7, 2, .v, .src, .one, .none, [5, 7], .zero, true⟩, f)
  | .shflXor f => some (⟨7, 3, .v, .src, .one, .none, [5, 7], .zero, true⟩, f)
  | .scanAdd f => some (⟨7, 4, .v, .src, .none, .none, [4, 5, 6, 7, 10], .f32round, true⟩, f)
  | .scanMin f => some (⟨7, 5, .v, .src, .none, .none, [4, 5, 6, 7, 10], .f32round, true⟩, f)
  | .scanMax f => some (⟨7, 6, .v, .src, .none, .none, [4, 5, 6, 7, 10], .f32round, true⟩, f)
  | .xscanAdd f => some (⟨7, 7, .v, .src, .none, .none, [4, 5, 6, 7, 10], .f32round, true⟩, f)
  | .redAdd f => some (⟨7, 8, .v, .src, .none, .none, [4, 5, 6, 7, 10], .f32round, true⟩, f)
  | .redMin f => some (⟨7, 9, .v, .src, .none, .none, [4, 5, 6, 7, 10], .f32round, true⟩, f)
  | .redMax f => some (⟨7, 10, .v, .src, .none, .none, [4, 5, 6, 7, 10], .f32round, true⟩, f)
  | .redAnd f => some (⟨7, 11, .v, .src, .none, .none, [5, 7], .zero, true⟩, f)
  | .redOr f => some (⟨7, 12, .v, .src, .none, .none, [5, 7], .zero, true⟩, f)
  | .vredAdd f => some (⟨7, 13, .s, .src, .none, .none, [4, 5, 6, 7, 10], .f32round, true⟩, f)
  | .vredMin f => some (⟨7, 14, .s, .src, .none, .none, [4, 5, 6, 7, 10], .f32round, true⟩, f)
  | .vredMax f => some (⟨7, 15, .s, .src, .none, .none, [4, 5, 6, 7, 10], .f32round, true⟩, f)
  | .vany f => some (⟨7, 16, .c, .src, .none, .none, [0], .zero, true⟩, f)
  | .vall f => some (⟨7, 17, .c, .src, .none, .none, [0], .zero, true⟩, f)
  | .rfl f => some (⟨7, 18, .s, .src, .none, .none, [5, 7], .zero, true⟩, f)
  | .ldGlobal f => some (⟨8, 0, .v, .idx, .desc, .none, [0, 1, 2, 3, 4, 5, 6, 7], .scope, true⟩, f)
  | .stGlobal f => some (⟨8, 1, .none, .idx, .desc, .data, [0, 1, 2, 3, 4, 5, 6, 7], .scope, false⟩, f)
  | .ldB128Global f => some (⟨8, 2, .quad, .idx, .desc, .none, [0], .scope, true⟩, f)
  | .stB128Global f => some (⟨8, 3, .none, .idx, .desc, .quad, [0], .scope, false⟩, f)
  | .ldScratch f => some (⟨9, 0, .v, .idx, .desc, .none, [0, 1, 2, 3, 4, 5, 6, 7], .scope, true⟩, f)
  | .stScratch f => some (⟨9, 1, .none, .idx, .desc, .data, [0, 1, 2, 3, 4, 5, 6, 7], .scope, false⟩, f)
  | .ldB128Scratch f => some (⟨9, 2, .quad, .idx, .desc, .none, [0], .scope, true⟩, f)
  | .stB128Scratch f => some (⟨9, 3, .none, .idx, .desc, .quad, [0], .scope, false⟩, f)
  | .ldPrivate f => some (⟨10, 0, .v, .idx, .desc, .none, [0, 1, 2, 3, 4, 5, 6, 7], .scope, true⟩, f)
  | .stPrivate f => some (⟨10, 1, .none, .idx, .desc, .data, [0, 1, 2, 3, 4, 5, 6, 7], .scope, false⟩, f)
  | .ldB128Private f => some (⟨10, 2, .quad, .idx, .desc, .none, [0], .scope, true⟩, f)
  | .stB128Private f => some (⟨10, 3, .none, .idx, .desc, .quad, [0], .scope, false⟩, f)
  | .laneAadd f => some (⟨11, 0, .v, .idx, .desc, .data, [4, 5, 6, 7, 10, 11], .atom, true⟩, f)
  | .laneAmin f => some (⟨11, 1, .v, .idx, .desc, .data, [4, 5, 6, 7, 10], .atom, true⟩, f)
  | .laneAmax f => some (⟨11, 2, .v, .idx, .desc, .data, [4, 5, 6, 7, 10], .atom, true⟩, f)
  | .laneAand f => some (⟨11, 3, .v, .idx, .desc, .data, [5, 7], .atom, true⟩, f)
  | .laneAor f => some (⟨11, 4, .v, .idx, .desc, .data, [5, 7], .atom, true⟩, f)
  | .laneAxor f => some (⟨11, 5, .v, .idx, .desc, .data, [5, 7], .atom, true⟩, f)
  | .laneAxchg f => some (⟨11, 6, .v, .idx, .desc, .data, [5, 7], .atom, true⟩, f)
  | .laneAcas f => some (⟨11, 7, .v, .idx, .desc, .data, [5, 7], .atom, true⟩, f)
  | .amaxabs f => some (⟨11, 8, .v, .idx, .desc, .data, [10], .atom, true⟩, f)
  | .ldv f => some (⟨12, 0, .v, .one, .src, .wreg, [0], .zero, true⟩, f)
  | .bra f => some (⟨13, 0, .none, .none, .none, .none, [0], .zero, false⟩, f)
  | .join f => some (⟨13, 1, .none, .mreg, .none, .none, [0], .zero, false⟩, f)
  | .lpause f => some (⟨13, 2, .none, .none, .none, .none, [0], .zero, false⟩, f)
  | .lstop f => some (⟨13, 3, .none, .none, .none, .none, [0], .zero, false⟩, f)
  | .mand f => some (⟨13, 4, .m, .mreg, .mreg, .none, [0], .zero, false⟩, f)
  | .mor f => some (⟨13, 5, .m, .mreg, .mreg, .none, [0], .zero, false⟩, f)
  | .mxor f => some (⟨13, 6, .m, .mreg, .mreg, .none, [0], .zero, false⟩, f)
  | .mandn f => some (⟨13, 7, .m, .mreg, .mreg, .none, [0], .zero, false⟩, f)
  | .mtov f => some (⟨13, 8, .v, .mreg, .none, .none, [0], .zero, false⟩, f)
  | .vtom f => some (⟨13, 9, .m, .src, .none, .none, [0], .zero, false⟩, f)
  | _ => none

/-- Whether a type code of R59 has 64 bits. -/
def tyIs64 (t : Nat) : Bool := t == 6 || t == 7 || t == 11

/-- Registers a value of type t takes in a lane register file (R36). -/
def tyRegs (t : Nat) : Nat := if tyIs64 t then 2 else 1

/-- Width in bits of a type code (R59). -/
def tyBits (t : Nat) : Nat :=
  match t with
  | 0 | 1 | 12 | 13 => 8
  | 2 | 3 | 8 | 9 => 16
  | 4 | 5 | 10 => 32
  | 6 | 7 | 11 => 64
  | _ => 4

/-- The lane registers an instruction names, each with the number of registers it covers (R65, R70, R159). -/
def laneRegs (g : LaneSig) (f : LaneF) : List (Nat × Nat) :=
  let t := f.ty.toNat
  (match g.dst with
    | .v => [(f.vd.toNat, tyRegs t)] | .quad => [(f.vd.toNat, 4)] | _ => []) ++
  (match g.a with
    | .src => [(f.va.toNat, tyRegs t)] | .one => [(f.va.toNat, 1)] | .quad => [(f.va.toNat, 4)]
    | .cvtSrc => [(f.va.toNat, tyRegs (f.vc.toNat % 16))]
    | .idx => if f.vb.getLsbD 6 then [(f.va.toNat, 1)] else [] | _ => []) ++
  (if f.bsel = 0 then match g.b with
    | .src => [(f.vb.toNat, tyRegs t)] | .one => [(f.vb.toNat, 1)] | _ => [] else []) ++
  (if f.csel = 0 then match g.c with
    | .src | .data => [(f.vc.toNat, tyRegs t)] | .quad => [(f.vc.toNat, 4)] | _ => [] else [])

/-- A named register is aligned to the registers it covers and is not v255 (R37, R65). A pair or quad that covers v255 without naming it is
no register either: the manual does not say so (DESIGN CHOICE, log 72). -/
def regOk (r : Nat × Nat) : Bool := r.1 % r.2 == 0 && r.1 + r.2 ≤ 255

/-- A select and its field: register, scalar with its two high bits 0, immediate with field 0, or special (R57, R69). -/
def selOk (sel : BitVec 2) (v : BitVec 8) : Bool :=
  match sel.toNat with
  | 0 => true
  | 1 => v.toNat < 64
  | 2 => v == 0
  | _ => v.toNat ≤ 0x11

/-- The destination field's unused bits are 0 (R65, R67). -/
def dstOk (g : LaneSig) (f : LaneF) : Bool :=
  match g.dst with
  | .none => f.vd == 0
  | .v | .quad => true
  | .m | .c => f.vd.toNat < 8
  | .s => f.vd.toNat < 64

/-- The va field's unused bits are 0; without an index va is 0 (R64, R65, R67). -/
def aOk (g : LaneSig) (f : LaneF) : Bool :=
  match g.a with
  | .none => f.va == 0
  | .src | .one | .quad | .cvtSrc => true
  | .idx => f.vb.getLsbD 6 || f.va == 0
  | .mreg => f.va.toNat < 8

/-- The vb field and its select (R57, R64, R67). Only a global operand names a translation register. -/
def bOk (g : LaneSig) (f : LaneF) : Bool :=
  match g.b with
  | .none => f.vb == 0 && f.bsel == 0
  | .src | .one => selOk f.bsel f.vb
  | .mreg => f.vb.toNat < 8 && f.bsel == 0
  | .desc => f.bsel == 0 && !f.vb.getLsbD 7 && (f.vb.getLsbD 6 || f.vb.toNat / 16 % 4 == 0) &&
      (g.cls == 8 || (g.cls == 11 && f.sp == 0) || f.vb.toNat % 16 == 0)

/-- The vc field and its select (R57, R64, R67). Compare codes 6 and 7 are for floating classes only. -/
def cOk (g : LaneSig) (f : LaneF) : Bool :=
  match g.c with
  | .none => f.vc == 0 && f.csel == 0
  | .src => selOk f.csel f.vc
  | .cc => f.csel == 0 && f.vc.toNat < (if g.cls == 0 then 6 else 8)
  | .mreg | .wreg => f.csel == 0 && f.vc.toNat < 8
  | .srcTy => f.csel == 0 && f.vc.toNat < 16
  | .data => f.csel.toNat ≤ 1 && selOk f.csel f.vc
  | .quad => f.csel == 0

/-- The rounding field (R60) with the ordered flag and order bits that decide a scope (R61, R68). -/
def rndOk (g : LaneSig) (f : LaneF) : Bool :=
  match g.rnd with
  | .zero => f.rnd == 0
  | .round => f.rnd.toNat ≤ 5
  | .f32round => f.rnd.toNat ≤ 5 && (f.ty == 10 || f.rnd == 0)
  | .scope => f.rnd.toNat ≤ 5 && (f.sat == 1 || f.rnd == 0)
  | .atom => f.rnd.toNat ≤ 5 && (f.ord != 0 || f.rnd == 0)

/-- The saturate bit (R61). -/
def satOk (g : LaneSig) (f : LaneF) : Bool :=
  f.sat == 0 || g.cls == 4 || g.rnd == .scope ||
    (g.cls == 0 && (g.op == 0 || g.op == 1 || g.op == 4) && (f.ty == 4 || f.ty == 5))

/-- Word 2 is used only by an immediate, a memory offset or a branch offset, which is a multiple of 12 (R57, R67). -/
def w2Ok (g : LaneSig) (f : LaneF) : Bool :=
  if g.b == .desc then true
  else if g.cls == 13 && g.op == 0 then f.w2.toInt % 12 == 0
  else f.bsel == 2 || f.csel == 2 || f.w2 == 0

/-- The pairs `pack`, `qpack` and `unpack` permit (R153–R155); every pair is legal for `cvt` (R152). -/
def cvtPairOk (g : LaneSig) (f : LaneF) : Bool :=
  let st := f.vc.toNat
  if g.cls == 4 && g.op == 2 then
    match f.ty.toNat with
    | 12 | 13 => st == 10
    | 0 | 1 => st == 10 || st == 4 || st == 5
    | _ => st == 8 || st == 9
  else if g.cls == 4 && g.op == 3 then tyBits st < 32
  else true

/-- `join`, `lpause` and `lstop` carry no mask prefix (R62). -/
def prefixOk (g : LaneSig) (f : LaneF) : Bool :=
  !(g.cls == 13 && (g.op == 1 || g.op == 2 || g.op == 3)) || (f.mr == 0 && f.ms == 0)

/-- The checks of R70 that the word alone decides; the register limit of the kernel is `withinVregs`. -/
def laneLegal (g : LaneSig) (f : LaneF) : Bool :=
  g.tys.contains f.ty.toNat && dstOk g f && aOk g f && bOk g f && cOk g f && rndOk g f && satOk g f && w2Ok g f &&
  !(f.bsel == 2 && f.csel == 2) && (g.lng || f.la == 0) && (g.cls == 11 || (f.ord == 0 && f.sp == 0)) &&
  (laneRegs g f).all regOk && cvtPairOk g f && prefixOk g f

/-- The register limit of R70: every register named lies below ⌈`.vregs` / 8⌉ × 8. -/
def withinVregs (g : LaneSig) (f : LaneF) (vregs : Nat) : Bool :=
  (laneRegs g f).all fun r => r.1 + r.2 ≤ (vregs + 7) / 8 * 8

/-- Opcodes of the SI format, which a `slit` may prefix (R45, R48, R49). -/
def isSI (op : Nat) : Bool :=
  (4 ≤ op && op ≤ 17) || (0x20 ≤ op && op ≤ 0x26) || (0x28 ≤ op && op ≤ 0x2B)

/-- The stoker codes that must lie in their stated ranges (R51–R53, R55, R69, R105, R289, R348). -/
def stokerLegal : Instr → Bool
  | .cmp _ _ _ _ cc => cc.toNat ≤ 5
  | .cmpI64Imm cc _ _ _ | .cmpN64Imm cc _ _ _ => cc.toNat ≤ 5
  | .ldAcq _ _ sc sz | .stRel _ _ sc sz => sc.toNat ≤ 5 && sz.toNat ≤ 1
  | .fence k sc => k != 0 && sc.toNat ≤ 5
  | .aaddAr _ _ _ _ sc | .aandAr _ _ _ _ sc | .aorAr _ _ _ _ sc | .axorAr _ _ _ _ sc | .aminIAr _ _ _ _ sc
  | .aminNAr _ _ _ _ sc | .amaxIAr _ _ _ _ sc | .amaxNAr _ _ _ _ sc | .axchgAr _ _ _ _ sc
  | .acasAr _ _ _ _ sc => sc.toNat ≤ 5
  | .xrd _ _ k => k.toNat ≤ 2
  | .accst _ _ _ fmt => fmt.toNat ≤ 2
  | .srd _ n => 1 ≤ n.toNat && n.toNat ≤ 0x11
  | .cdctr _ _ k => k.toNat ≤ 4
  | .slit _ op sd _ => isSI op.toNat && (!(op == 16 || op == 17) || sd.toNat / 8 ≤ 5)
  | _ => true

/-- Whether an instruction has a legal encoding (R55, R70). Events have none and are not concerned. -/
def legal (i : Instr) : Bool :=
  match laneSig i with
  | some (g, f) => laneLegal g f
  | none => stokerLegal i

end Sys2Proof.Machine
end

