-- ==== Sys2Proof/WellFormed.lean ====
section
/-! DEFINITION. Well-formed instructions: those whose fields the encodings of R45–R70 permit. The checks themselves
stand in Sys2Proof/Machine/Legal.lean. -/

namespace Sys2Proof

/-- An instruction is well formed when no check of R55 or R70 that its word alone decides refuses it. -/
def Instr.wf (i : Instr) : Bool := Machine.legal i

end Sys2Proof
end

