-- ==== Sys2Proof/Decode.lean ====
section
/-! DEFINITION. Decoding and encoding (R45–R71; 03). `candidate` reads the fields an opcode places; `decode` accepts it
only when it is well formed and encodes back to the very words read, so that no reserved bit is dropped. The
encoder follows in the same file. -/

namespace Sys2Proof

/-- Why words are no instruction (R48, R55, R70). -/
inductive DecodeErr where
  | unassigned     -- an unassigned opcode, function or class code
  | reservedBits   -- a nonzero reserved field or bit
  | badCode        -- a field outside its stated values
  | misplacedSlit  -- a marker that no SI instruction follows
  deriving DecidableEq, Repr

/-- The n-bit field of a word from bit lo up. -/
abbrev fld (w lo n : Nat) : BitVec n := BitVec.ofNat n (w / 2 ^ lo)

/-- The register operation of opcode 0x00 that fn selects (R50). -/
def candidateAlu (w : Nat) : Option Instr :=
  let sd := fld w 19 6
  let sa := fld w 13 6
  let sb := fld w 7 6
  match bits w 0 7 with
  | 0 => some (.add sd sa sb)
  | 1 => some (.sub sd sa sb)
  | 2 => some (.and sd sa sb)
  | 3 => some (.or sd sa sb)
  | 4 => some (.xor sd sa sb)
  | 5 => some (.andn sd sa sb)
  | 6 => some (.shl sd sa sb)
  | 7 => some (.shrN64 sd sa sb)
  | 8 => some (.shrI64 sd sa sb)
  | 9 => some (.mul sd sa sb)
  | 10 => some (.mulhI64 sd sa sb)
  | 11 => some (.mulhN64 sd sa sb)
  | 12 => some (.divI64 sd sa sb)
  | 13 => some (.divN64 sd sa sb)
  | 14 => some (.remI64 sd sa sb)
  | 15 => some (.remN64 sd sa sb)
  | 16 => some (.minI64 sd sa sb)
  | 17 => some (.minN64 sd sa sb)
  | 18 => some (.maxI64 sd sa sb)
  | 19 => some (.maxN64 sd sa sb)
  | 20 => some (.popc sd sa)
  | 21 => some (.clz sd sa)
  | 22 => some (.ctz sd sa)
  | 23 => some (.bswap sd sa)
  | _ => none

/-- The atomic of opcodes 0x30–0x33 (R53): `ar` tells the ordered forms. -/
def candidateAtomic (ar : Bool) (w : Nat) : Option Instr :=
  let wd := fld w 25 1
  let sd := fld w 19 6
  let sa := fld w 13 6
  let sb := fld w 7 6
  let sc := fld w 0 3
  match bits w 3 4 with
  | 0 => some (if ar then .aaddAr wd sd sa sb sc else .aadd wd sd sa sb)
  | 1 => some (if ar then .aandAr wd sd sa sb sc else .aand wd sd sa sb)
  | 2 => some (if ar then .aorAr wd sd sa sb sc else .aor wd sd sa sb)
  | 3 => some (if ar then .axorAr wd sd sa sb sc else .axor wd sd sa sb)
  | 4 => some (if ar then .aminIAr wd sd sa sb sc else .aminI wd sd sa sb)
  | 5 => some (if ar then .aminNAr wd sd sa sb sc else .aminN wd sd sa sb)
  | 6 => some (if ar then .amaxIAr wd sd sa sb sc else .amaxI wd sd sa sb)
  | 7 => some (if ar then .amaxNAr wd sd sa sb sc else .amaxN wd sd sa sb)
  | 8 => some (if ar then .axchgAr wd sd sa sb sc else .axchg wd sd sa sb)
  | 9 => some (if ar then .acasAr wd sd sa sb sc else .acas wd sd sa sb)
  | _ => none

/-- The instruction a stoker word's opcode and fields name, reserved bits not yet looked at (R49–R53). -/
def candidateStoker (w : Nat) : Option Instr :=
  match bits w 25 7 with
  | 0x00 => candidateAlu w
  | 0x1 => some (.cmp (fld w 19 3) (fld w 13 6) (fld w 7 6) (fld w 3 1) (fld w 0 3))
  | 0x2 => some (.csel (fld w 19 6) (fld w 13 6) (fld w 7 6) (fld w 0 3))
  | 0x4 => some (.addImm (fld w 19 6) (fld w 13 6) (fld w 0 13))
  | 0x5 => some (.andImm (fld w 19 6) (fld w 13 6) (fld w 0 13))
  | 0x6 => some (.orImm (fld w 19 6) (fld w 13 6) (fld w 0 13))
  | 0x7 => some (.xorImm (fld w 19 6) (fld w 13 6) (fld w 0 13))
  | 0x8 => some (.shlImm (fld w 19 6) (fld w 13 6) (fld w 0 13))
  | 0x9 => some (.shrN64Imm (fld w 19 6) (fld w 13 6) (fld w 0 13))
  | 0xa => some (.shrI64Imm (fld w 19 6) (fld w 13 6) (fld w 0 13))
  | 0xb => some (.mulImm (fld w 19 6) (fld w 13 6) (fld w 0 13))
  | 0xc => some (.minI64Imm (fld w 19 6) (fld w 13 6) (fld w 0 13))
  | 0xd => some (.minN64Imm (fld w 19 6) (fld w 13 6) (fld w 0 13))
  | 0xe => some (.maxI64Imm (fld w 19 6) (fld w 13 6) (fld w 0 13))
  | 0xf => some (.maxN64Imm (fld w 19 6) (fld w 13 6) (fld w 0 13))
  | 0x10 => some (.cmpI64Imm (fld w 22 3) (fld w 19 3) (fld w 13 6) (fld w 0 13))
  | 0x11 => some (.cmpN64Imm (fld w 22 3) (fld w 19 3) (fld w 13 6) (fld w 0 13))
  | 0x18 => some (.br (fld w 0 25))
  | 0x19 => some (.call (fld w 0 25))
  | 0x1a => some (.jr (fld w 13 6))
  | 0x1b => some (.bz (fld w 19 6) (fld w 0 19))
  | 0x1c => some (.bnz (fld w 19 6) (fld w 0 19))
  | 0x1d => some (.bc (fld w 19 3) (fld w 0 19))
  | 0x1e => some (.bnc (fld w 19 3) (fld w 0 19))
  | 0x1f => some (.exit)
  | 0x20 => some (.ldN8 (fld w 19 6) (fld w 13 6) (fld w 0 13))
  | 0x21 => some (.ldI8 (fld w 19 6) (fld w 13 6) (fld w 0 13))
  | 0x22 => some (.ldN16 (fld w 19 6) (fld w 13 6) (fld w 0 13))
  | 0x23 => some (.ldI16 (fld w 19 6) (fld w 13 6) (fld w 0 13))
  | 0x24 => some (.ldN32 (fld w 19 6) (fld w 13 6) (fld w 0 13))
  | 0x25 => some (.ldI32 (fld w 19 6) (fld w 13 6) (fld w 0 13))
  | 0x26 => some (.ldB64 (fld w 19 6) (fld w 13 6) (fld w 0 13))
  | 0x28 => some (.stB8 (fld w 19 6) (fld w 13 6) (fld w 0 13))
  | 0x29 => some (.stB16 (fld w 19 6) (fld w 13 6) (fld w 0 13))
  | 0x2a => some (.stB32 (fld w 19 6) (fld w 13 6) (fld w 0 13))
  | 0x2b => some (.stB64 (fld w 19 6) (fld w 13 6) (fld w 0 13))
  | 0x2c => some (.ldAcq (fld w 19 6) (fld w 13 6) (fld w 10 3) (fld w 8 2))
  | 0x2d => some (.stRel (fld w 19 6) (fld w 13 6) (fld w 10 3) (fld w 8 2))
  | 0x2e => some (.fence (fld w 3 2) (fld w 0 3))
  | 0x30 | 0x31 => candidateAtomic false w
  | 0x32 | 0x33 => candidateAtomic true w
  | 0x38 => some (.xlt (fld w 19 4) (fld w 13 6) (fld w 7 6))
  | 0x39 => some (.xinv (fld w 19 4))
  | 0x3a => some (.xrd (fld w 19 6) (fld w 13 4) (fld w 0 2))
  | 0x40 => some (.lrun (fld w 0 25))
  | 0x41 => some (.lwait)
  | 0x42 => some (.lkill)
  | 0x48 => some (.vset (fld w 19 3) (fld w 13 6))
  | 0x49 => some (.vdrop (fld w 19 3))
  | 0x4a => some (.vqry (fld w 19 6) (fld w 13 3) (fld w 0 3))
  | 0x50 => some (.mma (fld w 13 6))
  | 0x51 => some (.accz (fld w 13 6) (fld w 7 6))
  | 0x52 => some (.accld (fld w 19 6) (fld w 13 6) (fld w 7 6))
  | 0x53 => some (.accst (fld w 19 6) (fld w 13 6) (fld w 7 6) (fld w 0 2))
  | 0x58 => some (.cpy (fld w 13 6) (fld w 0 4))
  | 0x59 => some (.cpy2d (fld w 13 6) (fld w 0 4))
  | 0x5a => some (.cpyg (fld w 13 6) (fld w 0 4))
  | 0x5b => some (.cpwait (fld w 0 4))
  | 0x5c => some (.cpstat (fld w 19 6) (fld w 0 4))
  | 0x5d => some (.cpcont (fld w 21 4) (fld w 0 21))
  | 0x60 => some (.wgbar)
  | 0x61 => some (.gbar)
  | 0x62 => some (.spause)
  | 0x63 => some (.yield)
  | 0x64 => some (.srd (fld w 19 6) (fld w 0 7))
  | 0x65 => some (.mset (fld w 13 6))
  | 0x66 => some (.launch (fld w 13 6))
  | 0x67 => some (.cwait)
  | 0x68 => some (.frz (fld w 19 6) (fld w 13 6) (fld w 7 6))
  | 0x69 => some (.thaw (fld w 19 6) (fld w 13 6) (fld w 7 6))
  | 0x6a => some (.tkwt (fld w 13 6))
  | 0x6b => some (.cdctr (fld w 19 6) (fld w 13 6) (fld w 0 3))
  | 0x6c => some (.cdclr (fld w 13 6))
  | 0x70 => some (.trap (fld w 0 7))
  | 0x71 => some (.tret)
  | 0x72 => some (.ptake (fld w 19 6))
  | 0x73 => some (.pmap (fld w 13 6) (fld w 7 6))
  | 0x74 => some (.aharv)
  | 0x75 => some (.swrd (fld w 19 6) (fld w 13 6))
  | _ => none

/-- The lane constructor of a class and operation code (R66–R68). -/
def laneCtor (cls op : Nat) : Option (LaneF → Instr) :=
  match cls, op with
  | 0, 0 => some .laneAdd
  | 0, 1 => some .laneSub
  | 0, 2 => some .laneMul
  | 0, 3 => some .laneMulh
  | 0, 4 => some .laneMad
  | 0, 5 => some .laneMin
  | 0, 6 => some .laneMax
  | 0, 7 => some .laneAbs
  | 0, 8 => some .laneNeg
  | 0, 9 => some .laneAnd
  | 0, 10 => some .laneOr
  | 0, 11 => some .laneXor
  | 0, 12 => some .laneNot
  | 0, 13 => some .laneShl
  | 0, 14 => some .laneShr
  | 0, 15 => some .lanePopc
  | 0, 16 => some .laneClz
  | 0, 17 => some .laneBfe
  | 0, 18 => some .laneBfi
  | 0, 19 => some .laneSel
  | 0, 20 => some .laneMov
  | 0, 21 => some .laneCmp
  | 0, 22 => some .laneDiv
  | 0, 23 => some .laneRem
  | 0, 24 => some .laneBswap
  | 0, 25 => some .laneBrev
  | 1, 0 => some .laneAddF32
  | 1, 1 => some .laneSubF32
  | 1, 2 => some .laneMulF32
  | 1, 3 => some .laneFmaF32
  | 1, 4 => some .laneMinF32
  | 1, 5 => some .laneMaxF32
  | 1, 6 => some .laneAbsF32
  | 1, 7 => some .laneNegF32
  | 1, 8 => some .laneCmpF32
  | 1, 9 => some .laneRintF32
  | 1, 10 => some .laneCopysignF32
  | 2, 0 => some .laneAddPacked
  | 2, 1 => some .laneSubPacked
  | 2, 2 => some .laneMulPacked
  | 2, 3 => some .laneFmaPacked
  | 2, 4 => some .laneMinPacked
  | 2, 5 => some .laneMaxPacked
  | 2, 6 => some .laneAbsPacked
  | 2, 7 => some .laneNegPacked
  | 2, 8 => some .laneCmpPacked
  | 2, 9 => some .laneRintPacked
  | 2, 10 => some .laneCopysignPacked
  | 3, 0 => some .laneAddF64
  | 3, 1 => some .laneSubF64
  | 3, 2 => some .laneMulF64
  | 3, 3 => some .laneFmaF64
  | 3, 4 => some .laneMinF64
  | 3, 5 => some .laneMaxF64
  | 3, 6 => some .laneAbsF64
  | 3, 7 => some .laneNegF64
  | 3, 8 => some .laneCmpF64
  | 3, 9 => some .laneRintF64
  | 3, 10 => some .laneCopysignF64
  | 3, 11 => some .laneDivF64
  | 3, 12 => some .laneSqrtF64
  | 4, 0 => some .cvt
  | 4, 1 => some .pack
  | 4, 2 => some .qpack
  | 4, 3 => some .unpack
  | 5, 0 => some .dp8x4
  | 5, 1 => some .dp4x8
  | 5, 2 => some .dp16x2
  | 6, 0 => some .rcp
  | 6, 1 => some .rsqrt
  | 6, 2 => some .laneSqrt
  | 6, 3 => some .exp2
  | 6, 4 => some .log2
  | 6, 5 => some .sin
  | 6, 6 => some .cos
  | 6, 7 => some .tanh
  | 6, 8 => some .laneDivF32
  | 7, 0 => some .shflIdx
  | 7, 1 => some .shflUp
  | 7, 2 => some .shflDown
  | 7, 3 => some .shflXor
  | 7, 4 => some .scanAdd
  | 7, 5 => some .scanMin
  | 7, 6 => some .scanMax
  | 7, 7 => some .xscanAdd
  | 7, 8 => some .redAdd
  | 7, 9 => some .redMin
  | 7, 10 => some .redMax
  | 7, 11 => some .redAnd
  | 7, 12 => some .redOr
  | 7, 13 => some .vredAdd
  | 7, 14 => some .vredMin
  | 7, 15 => some .vredMax
  | 7, 16 => some .vany
  | 7, 17 => some .vall
  | 7, 18 => some .rfl
  | 8, 0 => some .ldGlobal
  | 8, 1 => some .stGlobal
  | 8, 2 => some .ldB128Global
  | 8, 3 => some .stB128Global
  | 9, 0 => some .ldScratch
  | 9, 1 => some .stScratch
  | 9, 2 => some .ldB128Scratch
  | 9, 3 => some .stB128Scratch
  | 10, 0 => some .ldPrivate
  | 10, 1 => some .stPrivate
  | 10, 2 => some .ldB128Private
  | 10, 3 => some .stB128Private
  | 11, 0 => some .laneAadd
  | 11, 1 => some .laneAmin
  | 11, 2 => some .laneAmax
  | 11, 3 => some .laneAand
  | 11, 4 => some .laneAor
  | 11, 5 => some .laneAxor
  | 11, 6 => some .laneAxchg
  | 11, 7 => some .laneAcas
  | 11, 8 => some .amaxabs
  | 12, 0 => some .ldv
  | 13, 0 => some .bra
  | 13, 1 => some .join
  | 13, 2 => some .lpause
  | 13, 3 => some .lstop
  | 13, 4 => some .mand
  | 13, 5 => some .mor
  | 13, 6 => some .mxor
  | 13, 7 => some .mandn
  | 13, 8 => some .mtov
  | 13, 9 => some .vtom
  | _, _ => none

/-- The fields of a lane instruction in its three words (R56, R68). -/
def laneFields (w0 w1 w2 : Nat) : LaneF :=
  let atom := bits w0 28 4 == 11
  { vd := fld w0 12 8, va := fld w0 4 8, vb := fld w1 24 8, vc := fld w1 16 8, la := fld w0 0 4, rnd := fld w1 13 3,
    sat := fld w1 12 1, mr := fld w1 9 3, ms := fld w1 8 1, bsel := fld w1 6 2, csel := fld w1 4 2, ty := fld w1 0 4,
    w2 := fld w2 0 32, ord := if atom then fld w0 26 2 else 0, sp := if atom then fld w0 25 1 else 0 }

/-- The instruction a lane word triple names, legality not yet looked at. -/
def candidateLane (w0 w1 w2 : Nat) : Option Instr :=
  let cls := bits w0 28 4
  (laneCtor cls (if cls == 11 then bits w0 20 5 else bits w0 20 8)).map fun k => k (laneFields w0 w1 w2)

/-- A stoker word: opcode in bits 31–25, fields at their low bits, and a constant of bits 6–0 (R45). -/
def encF (op fn : Nat) (fs : List (Nat × Nat)) : Nat :=
  fs.foldr (fun p acc => p.1 * 2 ^ p.2 + acc) (op * 2 ^ 25 + fn)

/-- The 32-bit word of a stoker instruction that is no `slit` (R45, R49–R53). -/
def encodeStoker : Instr → Option Nat
  | .add sd sa sb => some (encF 0x0 0 [(sd.toNat, 19), (sa.toNat, 13), (sb.toNat, 7)])
  | .sub sd sa sb => some (encF 0x0 1 [(sd.toNat, 19), (sa.toNat, 13), (sb.toNat, 7)])
  | .and sd sa sb => some (encF 0x0 2 [(sd.toNat, 19), (sa.toNat, 13), (sb.toNat, 7)])
  | .or sd sa sb => some (encF 0x0 3 [(sd.toNat, 19), (sa.toNat, 13), (sb.toNat, 7)])
  | .xor sd sa sb => some (encF 0x0 4 [(sd.toNat, 19), (sa.toNat, 13), (sb.toNat, 7)])
  | .andn sd sa sb => some (encF 0x0 5 [(sd.toNat, 19), (sa.toNat, 13), (sb.toNat, 7)])
  | .shl sd sa sb => some (encF 0x0 6 [(sd.toNat, 19), (sa.toNat, 13), (sb.toNat, 7)])
  | .shrN64 sd sa sb => some (encF 0x0 7 [(sd.toNat, 19), (sa.toNat, 13), (sb.toNat, 7)])
  | .shrI64 sd sa sb => some (encF 0x0 8 [(sd.toNat, 19), (sa.toNat, 13), (sb.toNat, 7)])
  | .mul sd sa sb => some (encF 0x0 9 [(sd.toNat, 19), (sa.toNat, 13), (sb.toNat, 7)])
  | .mulhI64 sd sa sb => some (encF 0x0 10 [(sd.toNat, 19), (sa.toNat, 13), (sb.toNat, 7)])
  | .mulhN64 sd sa sb => some (encF 0x0 11 [(sd.toNat, 19), (sa.toNat, 13), (sb.toNat, 7)])
  | .divI64 sd sa sb => some (encF 0x0 12 [(sd.toNat, 19), (sa.toNat, 13), (sb.toNat, 7)])
  | .divN64 sd sa sb => some (encF 0x0 13 [(sd.toNat, 19), (sa.toNat, 13), (sb.toNat, 7)])
  | .remI64 sd sa sb => some (encF 0x0 14 [(sd.toNat, 19), (sa.toNat, 13), (sb.toNat, 7)])
  | .remN64 sd sa sb => some (encF 0x0 15 [(sd.toNat, 19), (sa.toNat, 13), (sb.toNat, 7)])
  | .minI64 sd sa sb => some (encF 0x0 16 [(sd.toNat, 19), (sa.toNat, 13), (sb.toNat, 7)])
  | .minN64 sd sa sb => some (encF 0x0 17 [(sd.toNat, 19), (sa.toNat, 13), (sb.toNat, 7)])
  | .maxI64 sd sa sb => some (encF 0x0 18 [(sd.toNat, 19), (sa.toNat, 13), (sb.toNat, 7)])
  | .maxN64 sd sa sb => some (encF 0x0 19 [(sd.toNat, 19), (sa.toNat, 13), (sb.toNat, 7)])
  | .popc sd sa => some (encF 0x0 20 [(sd.toNat, 19), (sa.toNat, 13)])
  | .clz sd sa => some (encF 0x0 21 [(sd.toNat, 19), (sa.toNat, 13)])
  | .ctz sd sa => some (encF 0x0 22 [(sd.toNat, 19), (sa.toNat, 13)])
  | .bswap sd sa => some (encF 0x0 23 [(sd.toNat, 19), (sa.toNat, 13)])
  | .cmp cn sa sb ty cc => some (encF 0x1 0 [(cn.toNat, 19), (sa.toNat, 13), (sb.toNat, 7), (ty.toNat, 3), (cc.toNat, 0)])
  | .csel sd sa sb cn => some (encF 0x2 0 [(sd.toNat, 19), (sa.toNat, 13), (sb.toNat, 7), (cn.toNat, 0)])
  | .addImm sd sa imm => some (encF 0x4 0 [(sd.toNat, 19), (sa.toNat, 13), (imm.toNat, 0)])
  | .andImm sd sa imm => some (encF 0x5 0 [(sd.toNat, 19), (sa.toNat, 13), (imm.toNat, 0)])
  | .orImm sd sa imm => some (encF 0x6 0 [(sd.toNat, 19), (sa.toNat, 13), (imm.toNat, 0)])
  | .xorImm sd sa imm => some (encF 0x7 0 [(sd.toNat, 19), (sa.toNat, 13), (imm.toNat, 0)])
  | .shlImm sd sa imm => some (encF 0x8 0 [(sd.toNat, 19), (sa.toNat, 13), (imm.toNat, 0)])
  | .shrN64Imm sd sa imm => some (encF 0x9 0 [(sd.toNat, 19), (sa.toNat, 13), (imm.toNat, 0)])
  | .shrI64Imm sd sa imm => some (encF 0xa 0 [(sd.toNat, 19), (sa.toNat, 13), (imm.toNat, 0)])
  | .mulImm sd sa imm => some (encF 0xb 0 [(sd.toNat, 19), (sa.toNat, 13), (imm.toNat, 0)])
  | .minI64Imm sd sa imm => some (encF 0xc 0 [(sd.toNat, 19), (sa.toNat, 13), (imm.toNat, 0)])
  | .minN64Imm sd sa imm => some (encF 0xd 0 [(sd.toNat, 19), (sa.toNat, 13), (imm.toNat, 0)])
  | .maxI64Imm sd sa imm => some (encF 0xe 0 [(sd.toNat, 19), (sa.toNat, 13), (imm.toNat, 0)])
  | .maxN64Imm sd sa imm => some (encF 0xf 0 [(sd.toNat, 19), (sa.toNat, 13), (imm.toNat, 0)])
  | .ldN8 sd sa imm => some (encF 0x20 0 [(sd.toNat, 19), (sa.toNat, 13), (imm.toNat, 0)])
  | .ldI8 sd sa imm => some (encF 0x21 0 [(sd.toNat, 19), (sa.toNat, 13), (imm.toNat, 0)])
  | .ldN16 sd sa imm => some (encF 0x22 0 [(sd.toNat, 19), (sa.toNat, 13), (imm.toNat, 0)])
  | .ldI16 sd sa imm => some (encF 0x23 0 [(sd.toNat, 19), (sa.toNat, 13), (imm.toNat, 0)])
  | .ldN32 sd sa imm => some (encF 0x24 0 [(sd.toNat, 19), (sa.toNat, 13), (imm.toNat, 0)])
  | .ldI32 sd sa imm => some (encF 0x25 0 [(sd.toNat, 19), (sa.toNat, 13), (imm.toNat, 0)])
  | .ldB64 sd sa imm => some (encF 0x26 0 [(sd.toNat, 19), (sa.toNat, 13), (imm.toNat, 0)])
  | .stB8 sd sa imm => some (encF 0x28 0 [(sd.toNat, 19), (sa.toNat, 13), (imm.toNat, 0)])
  | .stB16 sd sa imm => some (encF 0x29 0 [(sd.toNat, 19), (sa.toNat, 13), (imm.toNat, 0)])
  | .stB32 sd sa imm => some (encF 0x2a 0 [(sd.toNat, 19), (sa.toNat, 13), (imm.toNat, 0)])
  | .stB64 sd sa imm => some (encF 0x2b 0 [(sd.toNat, 19), (sa.toNat, 13), (imm.toNat, 0)])
  | .cmpI64Imm cc cn sa imm => some (encF 0x10 0 [(cc.toNat, 22), (cn.toNat, 19), (sa.toNat, 13), (imm.toNat, 0)])
  | .cmpN64Imm cc cn sa imm => some (encF 0x11 0 [(cc.toNat, 22), (cn.toNat, 19), (sa.toNat, 13), (imm.toNat, 0)])
  | .br off => some (encF 0x18 0 [(off.toNat, 0)])
  | .call off => some (encF 0x19 0 [(off.toNat, 0)])
  | .jr sa => some (encF 0x1a 0 [(sa.toNat, 13)])
  | .bz sa off => some (encF 0x1b 0 [(sa.toNat, 19), (off.toNat, 0)])
  | .bnz sa off => some (encF 0x1c 0 [(sa.toNat, 19), (off.toNat, 0)])
  | .bc cn off => some (encF 0x1d 0 [(cn.toNat, 19), (off.toNat, 0)])
  | .bnc cn off => some (encF 0x1e 0 [(cn.toNat, 19), (off.toNat, 0)])
  | .exit => some (encF 0x1f 0 [])
  | .ldAcq sd sa scope sz => some (encF 0x2c 0 [(sd.toNat, 19), (sa.toNat, 13), (scope.toNat, 10), (sz.toNat, 8)])
  | .stRel sd sa scope sz => some (encF 0x2d 0 [(sd.toNat, 19), (sa.toNat, 13), (scope.toNat, 10), (sz.toNat, 8)])
  | .fence k scope => some (encF 0x2e 0 [(k.toNat, 3), (scope.toNat, 0)])
  | .aadd w sd sa sb => some (encF 0x30 0 [(w.toNat, 25), (sd.toNat, 19), (sa.toNat, 13), (sb.toNat, 7)])
  | .aaddAr w sd sa sb scope => some (encF 0x32 0 [(w.toNat, 25), (sd.toNat, 19), (sa.toNat, 13), (sb.toNat, 7), (scope.toNat, 0)])
  | .aand w sd sa sb => some (encF 0x30 8 [(w.toNat, 25), (sd.toNat, 19), (sa.toNat, 13), (sb.toNat, 7)])
  | .aandAr w sd sa sb scope => some (encF 0x32 8 [(w.toNat, 25), (sd.toNat, 19), (sa.toNat, 13), (sb.toNat, 7), (scope.toNat, 0)])
  | .aor w sd sa sb => some (encF 0x30 16 [(w.toNat, 25), (sd.toNat, 19), (sa.toNat, 13), (sb.toNat, 7)])
  | .aorAr w sd sa sb scope => some (encF 0x32 16 [(w.toNat, 25), (sd.toNat, 19), (sa.toNat, 13), (sb.toNat, 7), (scope.toNat, 0)])
  | .axor w sd sa sb => some (encF 0x30 24 [(w.toNat, 25), (sd.toNat, 19), (sa.toNat, 13), (sb.toNat, 7)])
  | .axorAr w sd sa sb scope => some (encF 0x32 24 [(w.toNat, 25), (sd.toNat, 19), (sa.toNat, 13), (sb.toNat, 7), (scope.toNat, 0)])
  | .aminI w sd sa sb => some (encF 0x30 32 [(w.toNat, 25), (sd.toNat, 19), (sa.toNat, 13), (sb.toNat, 7)])
  | .aminIAr w sd sa sb scope => some (encF 0x32 32 [(w.toNat, 25), (sd.toNat, 19), (sa.toNat, 13), (sb.toNat, 7), (scope.toNat, 0)])
  | .aminN w sd sa sb => some (encF 0x30 40 [(w.toNat, 25), (sd.toNat, 19), (sa.toNat, 13), (sb.toNat, 7)])
  | .aminNAr w sd sa sb scope => some (encF 0x32 40 [(w.toNat, 25), (sd.toNat, 19), (sa.toNat, 13), (sb.toNat, 7), (scope.toNat, 0)])
  | .amaxI w sd sa sb => some (encF 0x30 48 [(w.toNat, 25), (sd.toNat, 19), (sa.toNat, 13), (sb.toNat, 7)])
  | .amaxIAr w sd sa sb scope => some (encF 0x32 48 [(w.toNat, 25), (sd.toNat, 19), (sa.toNat, 13), (sb.toNat, 7), (scope.toNat, 0)])
  | .amaxN w sd sa sb => some (encF 0x30 56 [(w.toNat, 25), (sd.toNat, 19), (sa.toNat, 13), (sb.toNat, 7)])
  | .amaxNAr w sd sa sb scope => some (encF 0x32 56 [(w.toNat, 25), (sd.toNat, 19), (sa.toNat, 13), (sb.toNat, 7), (scope.toNat, 0)])
  | .axchg w sd sa sb => some (encF 0x30 64 [(w.toNat, 25), (sd.toNat, 19), (sa.toNat, 13), (sb.toNat, 7)])
  | .axchgAr w sd sa sb scope => some (encF 0x32 64 [(w.toNat, 25), (sd.toNat, 19), (sa.toNat, 13), (sb.toNat, 7), (scope.toNat, 0)])
  | .acas w sd sa sb => some (encF 0x30 72 [(w.toNat, 25), (sd.toNat, 19), (sa.toNat, 13), (sb.toNat, 7)])
  | .acasAr w sd sa sb scope => some (encF 0x32 72 [(w.toNat, 25), (sd.toNat, 19), (sa.toNat, 13), (sb.toNat, 7), (scope.toNat, 0)])
  | .xlt bn sa sb => some (encF 0x38 0 [(bn.toNat, 19), (sa.toNat, 13), (sb.toNat, 7)])
  | .xinv bn => some (encF 0x39 0 [(bn.toNat, 19)])
  | .xrd sd bn k => some (encF 0x3a 0 [(sd.toNat, 19), (bn.toNat, 13), (k.toNat, 0)])
  | .lrun idx => some (encF 0x40 0 [(idx.toNat, 0)])
  | .lwait => some (encF 0x41 0 [])
  | .lkill => some (encF 0x42 0 [])
  | .vset wn sa => some (encF 0x48 0 [(wn.toNat, 19), (sa.toNat, 13)])
  | .vdrop wn => some (encF 0x49 0 [(wn.toNat, 19)])
  | .vqry sd wn k => some (encF 0x4a 0 [(sd.toNat, 19), (wn.toNat, 13), (k.toNat, 0)])
  | .mma sa => some (encF 0x50 0 [(sa.toNat, 13)])
  | .accz sa sb => some (encF 0x51 0 [(sa.toNat, 13), (sb.toNat, 7)])
  | .accld sd sa sb => some (encF 0x52 0 [(sd.toNat, 19), (sa.toNat, 13), (sb.toNat, 7)])
  | .accst sd sa sb fmt => some (encF 0x53 0 [(sd.toNat, 19), (sa.toNat, 13), (sb.toNat, 7), (fmt.toNat, 0)])
  | .cpy sa tag => some (encF 0x58 0 [(sa.toNat, 13), (tag.toNat, 0)])
  | .cpy2d sa tag => some (encF 0x59 0 [(sa.toNat, 13), (tag.toNat, 0)])
  | .cpyg sa tag => some (encF 0x5a 0 [(sa.toNat, 13), (tag.toNat, 0)])
  | .cpwait tag => some (encF 0x5b 0 [(tag.toNat, 0)])
  | .cpstat sd tag => some (encF 0x5c 0 [(sd.toNat, 19), (tag.toNat, 0)])
  | .cpcont tag off => some (encF 0x5d 0 [(tag.toNat, 21), (off.toNat, 0)])
  | .wgbar => some (encF 0x60 0 [])
  | .gbar => some (encF 0x61 0 [])
  | .spause => some (encF 0x62 0 [])
  | .yield => some (encF 0x63 0 [])
  | .srd sd num => some (encF 0x64 0 [(sd.toNat, 19), (num.toNat, 0)])
  | .mset sa => some (encF 0x65 0 [(sa.toNat, 13)])
  | .launch sa => some (encF 0x66 0 [(sa.toNat, 13)])
  | .cwait => some (encF 0x67 0 [])
  | .frz sd sa sb => some (encF 0x68 0 [(sd.toNat, 19), (sa.toNat, 13), (sb.toNat, 7)])
  | .thaw sd sa sb => some (encF 0x69 0 [(sd.toNat, 19), (sa.toNat, 13), (sb.toNat, 7)])
  | .tkwt sa => some (encF 0x6a 0 [(sa.toNat, 13)])
  | .cdctr sd sa k => some (encF 0x6b 0 [(sd.toNat, 19), (sa.toNat, 13), (k.toNat, 0)])
  | .cdclr sa => some (encF 0x6c 0 [(sa.toNat, 13)])
  | .trap k => some (encF 0x70 0 [(k.toNat, 0)])
  | .tret => some (encF 0x71 0 [])
  | .ptake sd => some (encF 0x72 0 [(sd.toNat, 19)])
  | .pmap sa sb => some (encF 0x73 0 [(sa.toNat, 13), (sb.toNat, 7)])
  | .aharv => some (encF 0x74 0 [])
  | .swrd sd sa => some (encF 0x75 0 [(sd.toNat, 19), (sa.toNat, 13)])
  | _ => none

/-- The three words of a lane instruction (R56). -/
def encodeLane (g : Machine.LaneSig) (f : LaneF) : List Nat :=
  [g.cls * 2 ^ 28 + (g.op + f.ord.toNat * 2 ^ 6 + f.sp.toNat * 2 ^ 5) * 2 ^ 20 + f.vd.toNat * 2 ^ 12 +
      f.va.toNat * 2 ^ 4 + f.la.toNat,
    f.vb.toNat * 2 ^ 24 + f.vc.toNat * 2 ^ 16 + f.rnd.toNat * 2 ^ 13 + f.sat.toNat * 2 ^ 12 + f.mr.toNat * 2 ^ 9 +
      f.ms.toNat * 2 ^ 8 + f.bsel.toNat * 2 ^ 6 + f.csel.toNat * 2 ^ 4 + f.ty.toNat,
    f.w2.toNat]

/-- The words of an instruction: three for a lane instruction and for a `slit` with its SI instruction (R48), one for
any other stoker instruction, none for an event. -/
def encode (i : Instr) : List Nat :=
  match Machine.laneSig i with
  | some (g, f) => encodeLane g f
  | none =>
    match i with
    | .slit v op sd sa =>
      [0x7F * 2 ^ 25 + v.toNat / 2 ^ 45, v.toNat / 2 ^ 13 % 2 ^ 32,
        op.toNat * 2 ^ 25 + sd.toNat * 2 ^ 19 + sa.toNat * 2 ^ 13 + v.toNat % 2 ^ 13]
    | i => (encodeStoker i).toList

/-- A candidate is the instruction of its words when it is well formed and encodes back to them (R55, R70). -/
def accept (ws : List Nat) (c : Option Instr) : Except DecodeErr Instr :=
  match c with
  | none => .error .unassigned
  | some i => if encode i = ws then (if i.wf then .ok i else .error .badCode) else .error .reservedBits

/-- The stoker instruction that starts with word w0; w1 and w2 are the words after it, used by a `slit` (R48). -/
def decodeStoker (w0 w1 w2 : Nat) : Except DecodeErr Instr :=
  if bits w0 25 7 = 0x7F then
    if Machine.isSI (bits w2 25 7) then
      accept [w0, w1, w2] (some (.slit (BitVec.ofNat 64 (w0 % 2 ^ 19 * 2 ^ 45 + w1 * 2 ^ 13 + w2 % 2 ^ 13))
        (fld w2 25 7) (fld w2 19 6) (fld w2 13 6)))
    else .error .misplacedSlit
  else accept [w0] (candidateStoker w0)

/-- The lane instruction of three words (R56, R70). -/
def decodeLane (w0 w1 w2 : Nat) : Except DecodeErr Instr := accept [w0, w1, w2] (candidateLane w0 w1 w2)

/-- The k-th little-endian 32-bit word of instruction bytes (R45, R56). -/
def wordAt (bs : List Byte) (k : Nat) : Nat := leNat ((bs.drop (4 * k)).take 4)

/-- Decode the bytes at a stream's fetch address: `lane` tells which stream fetched them (R84). -/
def decodeBytes (lane : Bool) (bs : List Byte) : Except DecodeErr Instr :=
  if lane then decodeLane (wordAt bs 0) (wordAt bs 1) (wordAt bs 2)
  else decodeStoker (wordAt bs 0) (wordAt bs 1) (wordAt bs 2)

/-- The twelve bytes of an instruction whose bits, first word lowest, are w. -/
def tableBytes (nbits w : Nat) : List Byte := leBytes 12 (w % 2 ^ nbits)

/-- The instruction read from a table row's bits: up to 32 bits are a stoker word, more are a lane instruction (or the
three words of a `slit`, which no lane class can be: bits 31–25 of its first word are all ones). -/
def decodeTableWord (nbits w : Nat) : Option Instr :=
  let lane := nbits > 32 && bits w 25 7 != 0x7F
  match decodeBytes lane (tableBytes nbits w) with
  | .ok i => some i
  | .error _ => none

/-- Bytes an instruction takes in its stream (R45, R48, R56). -/
def Instr.size (i : Instr) : Nat := 4 * (encode i).length

end Sys2Proof
end

