-- ==== Sys2Proof/Machine/Bits.lean ====
section
/-! DEFINITION. Bit operations of both streams at a width w: counts, reversals, shifts, division, bit fields
(R90–R92, R147, R148). -/

namespace Sys2Proof.Machine

/-- Number of one bits among the low w. -/
def popcount (w x : Nat) : Nat := ((List.range w).filter x.testBit).length

/-- Zero bits above the highest one bit among the low w; w when there is none. -/
def clzN (w x : Nat) : Nat := let y := x % 2 ^ w; if y = 0 then w else w - 1 - Nat.log2 y

/-- Zero bits below the lowest one bit among the low w; w when there is none. -/
def ctzN (w x : Nat) : Nat := ((List.range w).find? x.testBit).getD w

/-- Bytes of a w-bit value in reverse order. -/
def bswapN (w x : Nat) : Nat := leNat (leBytes (w / 8) x).reverse

/-- Bits of a w-bit value in reverse order. -/
def brevN (w x : Nat) : Nat := (List.range w).foldl (fun a i => 2 * a + bits x i 1) 0

/-- The shifts of R90 and R148 by an unsigned amount. -/
def shlN (w x n : Nat) : Nat := if w ≤ n then 0 else x * 2 ^ n % 2 ^ w
def shrN (w x n : Nat) : Nat := if w ≤ n then 0 else x % 2 ^ w / 2 ^ n
def sarN (w x n : Nat) : Nat :=
  let neg := x.testBit (w - 1)
  if w ≤ n then (if neg then 2 ^ w - 1 else 0)
  else x % 2 ^ w / 2 ^ n + (if neg then (2 ^ n - 1) * 2 ^ (w - n) else 0)

/-- Quotient of R91 at width w, truncated toward zero; all ones for a zero divisor. -/
def divN (w : Nat) (signed : Bool) (x y : Nat) : Nat :=
  if y % 2 ^ w = 0 then 2 ^ w - 1
  else if signed then
    let f := fun (z : Nat) => if z.testBit (w - 1) then (true, 2 ^ w - z % 2 ^ w) else (false, z % 2 ^ w)
    let q := (f x).2 / (f y).2
    if (f x).1 = (f y).1 then q % 2 ^ w else (2 ^ w - q) % 2 ^ w
  else x % 2 ^ w / (y % 2 ^ w)

/-- Remainder of R91 at width w, with the sign of the dividend; the dividend for a zero divisor. -/
def remN (w : Nat) (signed : Bool) (x y : Nat) : Nat :=
  if y % 2 ^ w = 0 then x % 2 ^ w
  else if signed then
    let f := fun (z : Nat) => if z.testBit (w - 1) then (true, 2 ^ w - z % 2 ^ w) else (false, z % 2 ^ w)
    let m := (f x).2 % (f y).2
    if (f x).1 then (2 ^ w - m) % 2 ^ w else m
  else x % 2 ^ w % (y % 2 ^ w)

/-- The length of a bit field at p, cut at the width (R148). -/
def fieldLen (w p n : Nat) : Nat := if w ≤ p then 0 else min n (w - p)

/-- `bfe` (R148). -/
def bfeN (w : Nat) (signed : Bool) (x p n : Nat) : Nat :=
  let n := fieldLen w p n
  let y := x / 2 ^ p % 2 ^ n
  if n = 0 then 0 else if signed && y.testBit (n - 1) then 2 ^ w - 2 ^ n + y else y

/-- `bfi` (R148). -/
def bfiN (w x b p n : Nat) : Nat :=
  let n := fieldLen w p n
  let old := x / 2 ^ p % 2 ^ n
  if n = 0 then x % 2 ^ w else x % 2 ^ w - old * 2 ^ p + b % 2 ^ n * 2 ^ p

end Sys2Proof.Machine
end

