-- ==== Sys2Proof/Config.lean ====
section
/-! DEFINITION. What an implementation fixes and the free values: opaque constants without a body, so that nothing in
Lean can evaluate them or prove a value of them. Each is named in a row of the assumption log. -/

namespace Sys2Proof.Config

/-- A fresh unspecified 64-bit value, applied to the state's counter `free` (R102, R144, R317). -/
opaque freeBits : Nat → W64
/-- An unspecified byte of a scratchpad at placement (R200): placement stamp and offset. -/
opaque scratchByte : Nat → Nat → Byte
/-- An unspecified byte of a private area at group start (R218): stamp and flat offset. -/
opaque privateByte : Nat → Nat → Byte
/-- An unspecified byte of accumulator memory at placement (R339): stamp and byte offset. -/
opaque accByte : Nat → Nat → Byte
/-- A byte of a handler frame in memory, whose layout the manual does not give (R265): stamp and offset. -/
opaque frameByte : Nat → Nat → Byte
/-- A byte of a saved context's state moved to its SAVEBACK, whose layout the manual does not give (R379): stamp and offset. -/
opaque saveByte : Nat → Nat → Byte
/-- A byte of a poisoned granule or codec block, whose value is lost (R286, R317): stamp and address. -/
opaque poisonByte : Nat → Nat → Byte
/-- An unspecified byte of a copy whose source and destination overlap unseen (R355, R359): stamp and place. -/
opaque overlapByte : Nat → Nat → Byte
/-- Which of the two allowed words a lookahead violation or a dropped load leaves (R108, R144): stamp, thread, register. -/
opaque oldOrNew : Nat → Nat → Nat → Bool
/-- A class 0x6 result within the bound of R140: operation code, type code, operand bits after flushing. -/
opaque approx : Nat → Nat → Nat → Nat
/-- Whether a timed-out store or atomic was performed at its target (R325). -/
opaque timedOutPerformed : Nat → Bool
/-- An unstated choice of what leaves a full set, directory, filter or walk cache (R238, R309): clock and number of candidates; the
caller reduces it modulo that number. -/
opaque victim : Nat → Nat → Nat

/-- An unstated choice among candidates (R374): stamp and number of candidates; the caller reduces it modulo that number. -/
opaque choice : Nat → Nat → Nat

/-- The transit of a write or atomic to its home, in clocks, by its identifier (R384). -/
opaque transit : Nat → Nat

/-- The fixed latency of a path in recorded mode, in clocks (R332): the hearth it leads from, and its home slice, or 96 and the module. -/
opaque pathTransit : Nat → Nat → Nat

/-- The hash that spreads lines of other modules over the live ports (R323); the caller reduces it modulo their number. -/
opaque portHash : Nat → Nat

/-- The flits of a message on the Benud link (R324, R328): clock and direction. -/
opaque flits : Nat → Nat → Nat

/-- What the quotient bit of a number adds to the latency of a division (R85, R143): kind of division, bit. -/
opaque divStep : Nat → Nat → Nat

/-- The part's stepping (R328). -/
opaque stepping : BitVec 8
/-- The serial number fixed at manufacture (R328). -/
opaque serial : W64
/-- The public-key digest fused into the device (R326). -/
opaque fusedDigest : BitVec 512
/-- The fused anti-rollback counter (R326). -/
opaque antiRollback : BitVec 32
/-- The digest of the device's identity public key (R327). -/
opaque idKeyDigest : BitVec 512
/-- The module's number in its Benud domain (R225, R328). -/
opaque moduleNumber : BitVec 10
/-- Whether the module belongs to a domain (R328). -/
opaque inDomain : Bool
/-- The switch plane of a Benud port (R323, R328). -/
opaque portPlane : Nat → BitVec 8
/-- SHA3-512 (FIPS 202; R326, R327). -/
opaque sha3 : List Byte → BitVec 512
/-- FIPS 204 ML-DSA-87 verification: key, signature, message (R326). -/
opaque mlDsaVerify : List Byte → List Byte → List Byte → Bool
/-- FIPS 204 ML-DSA-87 signature with the device's identity key (R327). -/
opaque mlDsaSign : List Byte → List Byte

end Sys2Proof.Config
end

