-- ==== Sys2Proof/Machine/Number.lean ====
section
/-! DEFINITION. Number formats, exact values, rounding and the order of sums (R123–R141; 05). A value is NaN, an infinity
or an exact rational (−1)^neg × m / d × 2^e; every rounded result is one call of `roundTo`. -/

namespace Sys2Proof.Machine

/-- What the all-ones exponent means (R124). -/
inductive FKind where
  | ieee | e4m3 | e2m1
  deriving DecidableEq, Repr

/-- A floating format: exponent width, fraction width, bias (R123). -/
structure Fmt where
  eb : Nat
  fb : Nat
  bias : Nat
  kind : FKind
  deriving DecidableEq, Repr

def f64 : Fmt := ⟨11, 52, 1023, .ieee⟩
def f32 : Fmt := ⟨8, 23, 127, .ieee⟩
def f16 : Fmt := ⟨5, 10, 15, .ieee⟩
def bf16 : Fmt := ⟨8, 7, 127, .ieee⟩
def e5m2 : Fmt := ⟨5, 2, 15, .ieee⟩
def e4m3 : Fmt := ⟨4, 3, 7, .e4m3⟩
def e2m1 : Fmt := ⟨2, 1, 1, .e2m1⟩

/-- The floating format of a type code of R59. -/
def fmtOf (t : Nat) : Option Fmt :=
  match t with
  | 8 => some f16
  | 9 => some bf16
  | 10 => some f32
  | 11 => some f64
  | 12 => some e4m3
  | 13 => some e5m2
  | 14 => some e2m1
  | _ => none

/-- An exact value. -/
inductive Num where
  | nan
  | inf (neg : Bool)
  | fin (neg : Bool) (m d : Nat) (e : Int)
  deriving DecidableEq, Repr

/-- Positive zero. -/
def Num.zero : Num := .fin false 0 1 0

/-- An integer as a value; zero is +0. -/
def Num.ofInt (i : Int) : Num := .fin (i < 0) i.natAbs 1 0

/-- The sign bit of a value; NaN has none. -/
def Num.neg? : Num → Bool
  | .nan => false
  | .inf n => n
  | .fin n _ _ _ => n

/-- The value with its sign inverted. -/
def Num.flip : Num → Num
  | .nan => .nan
  | .inf n => .inf !n
  | .fin n m d e => .fin (!n) m d e

/-- Whether a value is a zero. -/
def Num.isZero : Num → Bool
  | .fin _ m _ _ => m == 0
  | _ => false

/-- The greatest finite magnitude's code without sign (R124). -/
def Fmt.maxMag (f : Fmt) : Nat :=
  match f.kind with
  | .ieee => (2 ^ f.eb - 1) * 2 ^ f.fb - 1
  | .e4m3 => 0x7E
  | .e2m1 => 7

/-- The sign bit's weight. -/
def Fmt.signBit (f : Fmt) : Nat := 2 ^ (f.eb + f.fb)

/-- The canonical NaN (R124, R125); `.e2m1` has none and gives +0 (R129). -/
def Fmt.canonNaN (f : Fmt) : Nat :=
  match f.kind with
  | .ieee => (2 ^ f.eb - 1) * 2 ^ f.fb + 2 ^ (f.fb - 1)
  | .e4m3 => 0x7F
  | .e2m1 => 0

/-- The code of an infinity of an IEEE-like format, sign left out. -/
def Fmt.infMag (f : Fmt) : Nat := (2 ^ f.eb - 1) * 2 ^ f.fb

/-- The value a code stands for (R123, R124). -/
def Fmt.decode (f : Fmt) (x : Nat) : Num :=
  let neg := x / f.signBit % 2 == 1
  let mag := x % f.signBit
  let e := mag / 2 ^ f.fb
  let fr := mag % 2 ^ f.fb
  if f.kind == .ieee && e == 2 ^ f.eb - 1 then (if fr == 0 then .inf neg else .nan)
  else if f.kind == .e4m3 && mag == 0x7F then .nan
  else if e == 0 then .fin neg fr 1 (1 - (f.bias : Int) - (f.fb : Int))
  else .fin neg (2 ^ f.fb + fr) 1 ((e : Int) - (f.bias : Int) - (f.fb : Int))

/-- Whether a code is a nonzero subnormal. -/
def Fmt.isSub (f : Fmt) (x : Nat) : Bool :=
  let mag := x % f.signBit
  mag != 0 && mag < 2 ^ f.fb

/-- A code whose subnormal is read or written as a zero of its sign (R133). -/
def Fmt.flush (f : Fmt) (on : Bool) (x : Nat) : Nat := if on && f.isSub x then x / f.signBit * f.signBit else x

/-- m / d × 2^sh as quotient and remainder over a denominator. -/
def scaled (m d : Nat) (sh : Int) : Nat × Nat × Nat :=
  let n := if 0 ≤ sh then m * 2 ^ sh.toNat else m
  let q := if 0 ≤ sh then d else d * 2 ^ (-sh).toNat
  (n / q, n % q, q)

/-- ⌊log2 (m / d)⌋ for a positive m. -/
def ilog2 (m d : Nat) : Int :=
  let l : Int := (Nat.log2 m : Int) - (Nat.log2 d : Int)
  let below := if 0 ≤ l then m < d * 2 ^ l.toNat else m * 2 ^ (-l).toNat < d
  if below then l - 1 else l

/-- The rounding directions of R129: 1 RNE, 2 RTZ, 3 RUP, 4 RDN, 5 RNA. Whether the magnitude n + r/q is rounded up. -/
def roundsUp (dir : Nat) (neg : Bool) (n r q : Nat) : Bool :=
  match dir with
  | 1 => q < 2 * r || (q == 2 * r && n % 2 == 1)
  | 3 => r != 0 && !neg
  | 4 => r != 0 && neg
  | 5 => q ≤ 2 * r
  | _ => false

/-- Overflow (R129): the code a value beyond the finite range takes. -/
def Fmt.overflow (f : Fmt) (neg : Bool) (dir : Nat) (sat isInf : Bool) : Nat :=
  let sg := if neg then f.signBit else 0
  let growing := dir == 1 || dir == 5 || (dir == 3 && !neg) || (dir == 4 && neg)
  match f.kind with
  | .ieee => if sat then sg + f.maxMag else if isInf || growing then sg + f.infMag else sg + f.maxMag
  | .e4m3 => if sat then sg + f.maxMag else if isInf || growing then sg + 0x7F else sg + f.maxMag
  | .e2m1 => sg + f.maxMag

/-- RoundTo(fmt, x, dir, sat) of R129, as the code in the format. A value that rounds to zero keeps its sign (PRESUMED, log 71). -/
def roundTo (f : Fmt) (x : Num) (dir : Nat) (sat : Bool) : Nat :=
  match x with
  | .nan => f.canonNaN
  | .inf neg => f.overflow neg dir sat true
  | .fin neg m d e =>
    let sg := if neg then f.signBit else 0
    if m = 0 then sg
    else
      let minE : Int := 1 - (f.bias : Int)
      let ex := max (ilog2 m d + e) minE
      let qe := ex - (f.fb : Int)
      let (n, r, q) := scaled m d (e - qe)
      let n' := if roundsUp dir neg n r q then n + 1 else n
      let mag := (ex - minE).toNat * 2 ^ f.fb + n'
      if f.maxMag < mag then f.overflow neg dir sat false else sg + mag

/-- A rounded value read back as an exact one. -/
def Fmt.round (f : Fmt) (x : Num) (dir : Nat) : Num := f.decode (roundTo f x dir false)

/-- Exact sum; an exact zero of operands of opposite signs is +0 but under RDN (R129). ∞ − ∞ is NaN (R131). -/
def Num.add (a b : Num) (dir : Nat) : Num :=
  match a, b with
  | .nan, _ | _, .nan => .nan
  | .inf p, .inf q => if p = q then .inf p else .nan
  | .inf p, _ => .inf p
  | _, .inf q => .inf q
  | .fin p m d e, .fin q n k g =>
    let lo := min e g
    let x : Int := (m * k * 2 ^ (e - lo).toNat : Nat)
    let y : Int := (n * d * 2 ^ (g - lo).toNat : Nat)
    let z := (if p then -x else x) + (if q then -y else y)
    if z = 0 then .fin (if p = q then p else dir == 4) 0 1 0
    else .fin (z < 0) z.natAbs (d * k) lo

/-- Exact product; 0 × ∞ is NaN (R131). A zero has the sign of the operands' signs (PRESUMED, log 71). -/
def Num.mul (a b : Num) : Num :=
  match a, b with
  | .nan, _ | _, .nan => .nan
  | .inf p, .inf q => .inf (p != q)
  | .inf p, .fin q m _ _ | .fin q m _ _, .inf p => if m = 0 then .nan else .inf (p != q)
  | .fin p m d e, .fin q n k g => .fin (p != q) (m * n) (d * k) (e + g)

/-- Exact quotient; 0 / 0 and ∞ / ∞ are NaN, nonzero over zero is ∞ (R131). A zero has the sign of the operands' signs (PRESUMED,
log 71). -/
def Num.div (a b : Num) : Num :=
  match a, b with
  | .nan, _ | _, .nan => .nan
  | .inf _, .inf _ => .nan
  | .inf p, .fin q _ _ _ => .inf (p != q)
  | .fin p _ _ _, .inf q => .fin (p != q) 0 1 0
  | .fin p m d e, .fin q n k g =>
    if n = 0 then (if m = 0 then .nan else .inf (p != q)) else .fin (p != q) (m * k) (d * n) (e - g)

/-- Newton's step toward ⌊√n⌋, from above, with fuel. -/
def isqrtFrom (n : Nat) : Nat → Nat → Nat
  | 0, x => x
  | k + 1, x => let y := (x + n / x) / 2; if y < x then isqrtFrom n k y else x

/-- ⌊√n⌋. -/
def isqrt (n : Nat) : Nat := if n = 0 then 0 else isqrtFrom n (Nat.log2 n + 2) (2 ^ (Nat.log2 n / 2 + 1))

/-- Square root, exact enough that every direction rounds it as the true root: 80 bits after the point and a sticky bit.
√ of a number below −0 is NaN, √−0 is −0 (R131). -/
def Num.sqrt : Num → Num
  | .nan => .nan
  | .inf neg => if neg then .nan else .inf false
  | .fin neg m d e =>
    if m = 0 then .fin neg 0 1 0
    else if neg then .nan
    else
      let m' := if e % 2 = 0 then m else 2 * m
      let e' := if e % 2 = 0 then e else e - 1
      let n := m' * d * 2 ^ 160
      let r := isqrt n
      .fin false (2 * r + (if r * r = n then 0 else 1)) (d * 2 ^ 81) (e' / 2)

/-- Compare two values that are not NaN; −0 equals +0. -/
def Num.lt (a b : Num) : Bool :=
  match a, b with
  | .nan, _ | _, .nan => false
  | .inf p, .inf q => p && !q
  | .inf p, _ => p
  | _, .inf q => !q
  | .fin p m d e, .fin q n k g =>
    let lo := min e g
    let x : Int := (m * k * 2 ^ (e - lo).toNat : Nat)
    let y : Int := (n * d * 2 ^ (g - lo).toNat : Nat)
    decide ((if p then -x else x) < (if q then -y else y))

/-- Whether neither value is below the other; NaN equals nothing. -/
def Num.eq (a b : Num) : Bool := a != .nan && b != .nan && !a.lt b && !b.lt a

/-- The integer a value rounds to by a direction; NaN gives 0 (R132), an infinity is passed on by the caller. -/
def Num.toIntDir (x : Num) (dir : Nat) : Int :=
  match x with
  | .fin neg m d e =>
    let (n, r, q) := scaled m d e
    let n' : Int := ((if roundsUp dir neg n r q then n + 1 else n : Nat) : Int)
    if neg then -n' else n'
  | _ => 0

/-- A value converted to an integer range with saturation (R132). -/
def Num.toRange (x : Num) (dir : Nat) (lo hi : Int) : Int :=
  match x with
  | .nan => 0
  | .inf neg => if neg then lo else hi
  | x => max lo (min hi (x.toIntDir dir))

/-- minimumNumber and maximumNumber of IEEE 754-2019 on codes (R126): the other operand beside one NaN, the canonical NaN
for two, −0 below +0. -/
def Fmt.minMax (f : Fmt) (isMax : Bool) (x y : Nat) : Nat :=
  let a := f.decode x
  let b := f.decode y
  if a = .nan then (if b = .nan then f.canonNaN else y)
  else if b = .nan then x
  else
    let xLess := a.lt b || (a.isZero && b.isZero && a.neg? && !b.neg?)
    let yLess := b.lt a || (a.isZero && b.isZero && b.neg? && !a.neg?)
    if isMax then (if xLess then y else x) else (if yLess then y else x)

/-- The relation of a floating compare (R151): 0 eq, 1 ne, 2 lt, 3 le, 4 gt, 5 ge, 6 un, 7 ord. -/
def Num.rel (cc : Nat) (a b : Num) : Bool :=
  let un := a == .nan || b == .nan
  match cc with
  | 0 => a.eq b
  | 1 => !a.eq b
  | 2 => a.lt b
  | 3 => !un && !b.lt a
  | 4 => b.lt a
  | 5 => !un && !a.lt b
  | 6 => un
  | _ => !un

/-- One level of the tree of sums (R137): neighbours added with one RNE rounding each. -/
def sumPairs (f : Fmt) : List Num → List Num
  | a :: b :: r => f.round (a.add b 1) 1 :: sumPairs f r
  | l => l

/-- TreeSum32 of R137 in format f; the number of leaves is a power of two and bounds the levels. -/
def treeSum (f : Fmt) : Nat → List Num → Num
  | _, [] => .zero
  | _, [x] => x
  | 0, x :: _ => x
  | k + 1, l => treeSum f k (sumPairs f l)

/-- BlockDot of R137: exact leaves, the tree, one rounding with the scale product. -/
def blockDot (f : Fmt) (a b : List Num) (sa sb : Num) : Num :=
  let s := treeSum f a.length (List.zipWith Num.mul a b)
  f.round (s.mul (sa.mul sb)) 1

/-- One step of DotAccumulate (R137). -/
def accumulate (f : Fmt) (acc : Num) (a b : List Num) (sa sb : Num) : Num :=
  f.round (acc.add (blockDot f a b sa sb) 1) 1

/-- A list cut into consecutive pieces of n; n is at least 1. -/
def chunksFrom {α : Type} (n : Nat) : Nat → List α → List (List α)
  | 0, _ => []
  | k + 1, l => if l.isEmpty then [] else l.take n :: chunksFrom n k (l.drop n)

/-- A list cut into consecutive pieces of n. -/
def chunks {α : Type} (n : Nat) (l : List α) : List (List α) := chunksFrom n l.length l

/-- A list brought to length n with a filler. -/
def padTo {α : Type} (n : Nat) (x : α) (l : List α) : List α := l ++ List.replicate (n - l.length) x

/-- The projection of one column (R139, R192): blocks of 32, missing leaves +0, accumulator from +0, both scales 1. -/
def projectColumn (lat col : List Num) : Num :=
  (List.zip (chunks 32 lat) (chunks 32 col)).foldl
    (fun acc p => accumulate f32 acc (padTo 32 .zero p.1) (padTo 32 .zero p.2) (.ofInt 1) (.ofInt 1)) .zero

/-- The value of an `.e8m0` scale (R135). -/
def e8m0 (x : Nat) : Num := if x = 255 then .nan else .fin false 1 1 ((x : Int) - 127)

/-- A signed number of w bits read from its low bits. -/
def sintOf (w x : Nat) : Int := let y := x % 2 ^ w; if y < 2 ^ (w - 1) then y else (y : Int) - 2 ^ w

/-- An integer wrapped to w bits. -/
def wrap (w : Nat) (i : Int) : Nat := (i % (2 ^ w : Int)).toNat

end Sys2Proof.Machine
end

