-- ==== Sys2Proof/Machine/Codec.lean ====
section
/-! DEFINITION. The FP64 block code (R270, R277–R281, R288; 15, 16): a block is a number of 4 × rate bits. -/

namespace Sys2Proof.Machine

/-- Bits per value of a RATE code (R273). -/
def codecRate (r : Nat) : Nat :=
  match r with
  | 0 => 16
  | 1 => 24
  | 2 => 32
  | _ => 48

/-- W0 of R270. -/
def codecW0 (r : Nat) : Nat :=
  match r with
  | 0 => 21
  | 1 => 29
  | 2 => 37
  | _ => 53

/-- W1 of R270. -/
def codecW1 (r : Nat) : Nat :=
  match r with
  | 0 => 10
  | 1 => 18
  | 2 => 26
  | _ => 42

/-- The class of a value (R277): 0 finite, 1 +∞, 2 −∞, 3 NaN. -/
def codecCls (x : Nat) : Nat :=
  match f64.decode x with
  | .fin _ _ _ _ => 0
  | .inf neg => if neg then 2 else 1
  | .nan => 3

/-- MODE of a block of four values (R277). -/
def codecMode (v : List Nat) : Nat :=
  if v.any fun x => codecCls x != 0 then 2 else if v.all fun x => (f64.decode x).isZero then 0 else 1

/-- ASR(x, 1): the floor of half (R278). -/
def asr1 (x : Int) : Int := x / 2

/-- Q of R278: rounded to nearest even and clamped to a signed width. -/
def codecQ (x : Int) (k w : Nat) : Int :=
  let r := (Num.fin (x < 0) x.natAbs 1 (-(k : Int))).toIntDir 1
  min (max r (-(2 ^ (w - 1) : Int))) (2 ^ (w - 1) - 1)

/-- E of a block: the greatest biased exponent of its finite values, subnormals and zeros taken as 1 (R278). -/
def codecE (v : List Nat) : Nat :=
  v.foldl (fun e x => if codecCls x = 0 then max e (bits x 52 11) else e) 1

/-- q[j] of R278. -/
def codecInt (e x : Nat) : Int :=
  match f64.decode x with
  | .fin neg m d g => (Num.fin neg m d (g + 1083 - (e : Int))).toIntDir 1
  | _ => 0

/-- Encode of R278. -/
def codecEncode (r : Nat) (v : List Nat) : Nat :=
  let mode := codecMode v
  if mode = 0 then 0
  else
    let e := codecE v
    let q0 := codecInt e (v.getD 0 0)
    let q1 := codecInt e (v.getD 1 0)
    let q2 := codecInt e (v.getD 2 0)
    let q3 := codecInt e (v.getD 3 0)
    let d0 := q0 - q1
    let s0 := q1 + asr1 d0
    let d1 := q2 - q3
    let s1 := q3 + asr1 d1
    let d := s0 - s1
    let s := s1 + asr1 d
    let w0 := codecW0 r - (if mode = 2 then 2 else 0)
    let w1 := codecW1 r - (if mode = 2 then 2 else 0)
    let cls := if mode = 2 then (v.foldr (fun x acc => codecCls x + 4 * acc) 0) else 0
    let at0 := if mode = 2 then 21 else 13
    mode + e * 2 ^ 2 + cls * 2 ^ 13 + wrap w0 (codecQ s (62 - w0) w0) * 2 ^ at0 +
      wrap w1 (codecQ d (63 - w1) w1) * 2 ^ (at0 + w0) + wrap w1 (codecQ d0 (63 - w1) w1) * 2 ^ (at0 + w0 + w1) +
      wrap w1 (codecQ d1 (63 - w1) w1) * 2 ^ (at0 + w0 + 2 * w1)

/-- The decoded value of place j from its integer (R279): by class in a special block, else rounded with saturation. -/
def codecVal (b j : Nat) (q : Int) : Nat :=
  match (if b % 4 = 2 then bits b (13 + 2 * j) 2 else 0) with
  | 0 => roundTo f64 (Num.fin (decide (q < 0)) q.natAbs 1 ((bits b 2 11 : Int) - 1083)) 1 true
  | 1 => f64.infMag
  | 2 => f64.signBit + f64.infMag
  | _ => f64.canonNaN

/-- Decode of R279: four codes, or none when the block is a marker or malformed and its values are poisoned. -/
def codecDecode (r b : Nat) : Option (List Nat) :=
  let mode := b % 4
  let e := bits b 2 11
  if mode = 0 then some [0, 0, 0, 0]
  else if mode = 3 || e = 0 || e = 2047 then none
  else
    let w0 := codecW0 r - (if mode = 2 then 2 else 0)
    let w1 := codecW1 r - (if mode = 2 then 2 else 0)
    let at0 := if mode = 2 then 21 else 13
    let s := sintOf w0 (b / 2 ^ at0) * 2 ^ (62 - w0)
    let d := sintOf w1 (b / 2 ^ (at0 + w0)) * 2 ^ (63 - w1)
    let d0 := sintOf w1 (b / 2 ^ (at0 + w0 + w1)) * 2 ^ (63 - w1)
    let d1 := sintOf w1 (b / 2 ^ (at0 + w0 + 2 * w1)) * 2 ^ (63 - w1)
    let s1 := s - asr1 d
    let s0 := d + s1
    let q1 := s0 - asr1 d0
    let q0 := d0 + q1
    let q3 := s1 - asr1 d1
    let q2 := d1 + q3
    some [codecVal b 0 q0, codecVal b 1 q1, codecVal b 2 q2, codecVal b 3 q3]

/-- NaN inputs made canonical, for the comparison of R283. -/
def canonVal (x : Nat) : Nat := if codecCls x = 3 then f64.canonNaN else x

/-- The block's greatest exact error over finite inputs (R288). -/
def codecErr (inp out : List Nat) : Num :=
  (List.zip inp out).foldl (fun m p =>
    if codecCls p.1 = 0 then
      let d := ((f64.decode p.2).add (f64.decode p.1).flip 1)
      let a := if d.neg? then d.flip else d
      if m.lt a then a else m
    else m) .zero

/-- e(m) of R288 for a positive error. -/
def codecErrExp (m : Num) : Nat :=
  match m with
  | .fin _ a d e => (max (ilog2 a d + e + 1023) 1).toNat
  | _ => 1

/-- ESUM of R288. -/
def codecErrSum (esum : Nat) (m : Num) : Nat :=
  roundTo f32 ((f32.decode esum).add (f32.decode (roundTo f32 m 1 true)) 1) 1 true

end Sys2Proof.Machine
end

