-- ==== Sys2Proof/Machine/State.lean ====
section
/-! DEFINITION. The state of the device as plain data, and its reset. The rules named are those of spec/. -/

namespace Sys2Proof.Machine

/-- Why the model stops where no stream is issuing: the model's own reasons, the device has none (every trap of R257 is a
next state). -/
inductive Fault where
  /-- A stoker or lane instruction is executed while no such stream is issuing. Raised by every instruction's meaning;
  safe: the device issues instructions only from a resident group. -/
  | noStream
  deriving DecidableEq, Repr

/-- Why the model refuses. -/
inductive Refusal where
  /-- The instruction has no meaning in the model. Raised only by an arm of `exec`; safe. -/
  | notModelled (mnemonic : String)
  deriving DecidableEq, Repr

/-- A scalar register with its poison tag (R36, R37). -/
structure SReg where
  val : W64 := 0
  pz : Bool := false
  deriving DecidableEq, Repr

/-- A lane register of one thread with its poison tag (R36, R37). -/
structure LReg where
  val : W32 := 0
  pz : Bool := false
  deriving DecidableEq, Repr

/-- A translation register (R39); the reserved bits of its three words read 0. -/
structure TReg where
  base : W64 := 0
  frame : BitVec 52 := 0
  creg : BitVec 5 := 0
  limit : BitVec 32 := 0
  valid : Bool := false
  stale : Bool := false
  rd : Bool := false
  wr : Bool := false
  codec : Bool := false
  frozen : Bool := false
  cmpr : Bool := false
  pgsz : BitVec 2 := 0
  deriving DecidableEq, Repr

/-- A view register: the state word of R40 and the 64-byte descriptor of R183. -/
structure VwReg where
  bound : Bool := false
  slot : BitVec 8 := 0
  gen : BitVec 32 := 0
  desc : BitVec 512 := 0
  deriving DecidableEq, Repr

/-- A `vset` whose copy of the matrix is under way (R188): the register's new value, the clock the copy ends at, and the descriptor's
address and the stoker PC it was issued with, from which a save issues it again (R198). -/
structure VCopy where
  w : VwReg
  ready : Nat
  addr : W64
  pc : W64
  deriving DecidableEq, Repr

/-- A block's snapshot (R31). -/
structure Snap where
  s : Tab SReg := []
  c : BitVec 8 := 0
  b : Tab TReg := []
  w : Tab VwReg := []
  mode : BitVec 32 := 1
  deriving DecidableEq, Repr

/-- A pending scalar or condition copy of a block (R33). -/
inductive PendW where
  | scalar (n : Nat) (v : SReg)
  | cond (n : Nat) (v : Bool)
  deriving DecidableEq, Repr

/-- The states of a block in flight (R29). -/
inductive BlockSt where
  | queued | executing | stopped
  deriving DecidableEq, Repr

/-- A block in flight: the identifier the model gives it, first lane instruction, state, snapshot, pending copies in program order
(R29–R33). -/
structure Block where
  id : Nat
  start : Nat
  st : BlockSt
  snap : Snap
  pend : List PendW := []
  deriving DecidableEq, Repr

/-- The state of a split (R42, R43). -/
inductive SplitSt where
  | ready | atJoin | rotated | atLstop
  deriving DecidableEq, Repr

/-- The spaces an access may reach (R222). -/
inductive Space where
  | glob | scratch | priv | acc
  deriving DecidableEq, Repr

/-- One register's part of an outstanding load: where its bytes lie, for the reissue of R179. `off` is a physical address
(global), a decoded offset (codec) or an offset, `va` the virtual address of the part; `creg` is set for a codec region. -/
structure LoadReq where
  t : Nat
  r : Nat
  va : W64 := 0
  space : Space
  off : Nat
  size : Nat
  signed : Bool := false
  creg : Option Nat := none
  deriving DecidableEq, Repr

/-- One register of a thread that an outstanding result will write; `none` while the value has not come. -/
structure OutV where
  t : Nat
  r : Nat
  val : Option LReg
  deriving DecidableEq, Repr

/-- An outstanding long-latency result of a split (R143–R145): instructions of its window left, registers, load parts, and
the clock from which it may be written. A result written to its registers at issue (lookahead 0) or to a pending copy lists
no register here and only holds back what follows it (R16). -/
structure Out where
  id : Nat
  left : Nat
  ready : Nat := 0
  vals : List OutV
  reqs : List LoadReq := []
  /-- of an acquire load: the split's later accesses wait for it (R167) -/
  acq : Bool := false
  /-- the lane PC of its instruction, and whether a save discarded it: it is issued again first (R179) -/
  pc : BitVec 32 := 0
  again : Bool := false
  /-- the token, column and view of a discarded `ldv` are re-derived from these (thread, register, token, column, view) -/
  ldvs : List (Nat × Nat × Nat × Nat × Nat) := []
  /-- the latent bytes of an `ldv`: physical address and count of each piece of its rows (R191) -/
  span : List (Nat × Nat) := []
  deriving DecidableEq, Repr

/-- A split (R42): lane PC as a byte offset into `.lcode`, threads, state, J of R174, rotation count of R209, its
outstanding results, the model's mark that its next instruction waits, the identifier below which a waiting release
waits for the group's accesses, and the clocks from which short-latency results may be read, by lane register or 256 plus
mask register (R143). -/
structure Split where
  pc : BitVec 32
  mask : Mask
  st : SplitSt := .ready
  j : Mask := 0
  rot : Nat := 0
  outs : List Out := []
  waiting : Bool := false
  bound : Option Nat := none
  busy : Tab Nat := []
  deriving DecidableEq, Repr

/-- A kernel as its 64-byte entry gives it (R79), with the image base its sections lie from (R83). -/
structure Kern where
  ib : W64 := 0
  width : Nat := 32
  vregs : Nat := 1
  team : Nat := 0
  preempt : Bool := false
  checked : Bool := false
  acc : Nat := 0
  scratch : Nat := 0
  priv : Nat := 0
  sstack : Nat := 0
  scoff : W64 := 0
  scwords : Nat := 0
  lcinsts : Nat := 0
  lcoff : W64 := 0
  deriving DecidableEq, Repr

/-- A trap as raised (R257–R259): what its record and the handler's entry registers need. -/
structure Trap where
  code : Nat
  addr : W64 := 0
  malf : Bool := false
  wr : Bool := false
  at_ : Bool := false
  ldv : Bool := false
  pool : Bool := false
  size : Nat := 0
  stoker : Bool := true
  tmask : Mask := 0
  pc : BitVec 32 := 0
  slot : Nat := 0
  /-- s3 of R265: the absent level-0 entry, or the number of a software trap -/
  s3 : W64 := 0
  /-- bytes of the faulting instruction, for skipping it (R267) -/
  len : Nat := 4
  /-- the device time it was raised at, once it has been (R259) -/
  time : Option Nat := none
  deriving DecidableEq, Repr

/-- A stoker instruction that a save took back though its PC has passed: a `vset` with its register and descriptor's address (R198), or
a load with its register, signedness, address, bytes and whether it is an acquire (R88); each with the stoker PC it stands at. -/
inductive Redo where
  | vset (w : Nat) (addr pc : W64)
  | load (n : Nat) (signed : Bool) (va pc : W64) (size : Nat) (acq : Bool)
  deriving DecidableEq, Repr

/-- The group's handler frame (R265). The manual gives the frame's place and not its byte layout; the saved values are
kept here. `bound` is the model's: the handler's accesses follow those with a lower identifier (R266). -/
structure HFrame where
  s : Tab SReg
  c : BitVec 8
  b : Tab TReg
  mode : BitVec 32
  spc : W64
  m1 : Mask
  v : Tab LReg
  blocks : List Block
  slot0 : Option Split
  slot1 : Option Split
  spilled : List (Nat × Split)
  last : Nat
  kern : Kern
  cause : Trap
  sPend : List Nat := []
  /-- what the interrupted stoker still has to issue again (R88, R198) -/
  redo : List Redo := []
  bound : Nat := 0
  deriving DecidableEq, Repr

/-- The state of a copy tag (R363). -/
structure TagSt where
  state : Nat := 0
  fcause : Nat := 0
  done : Nat := 0
  deriving DecidableEq, Repr

/-- A dependence edge (R373). -/
structure Edge where
  q : Nat
  rec_ : Nat
  regions : List (Nat × Nat)
  deriving DecidableEq, Repr

/-- A grid (R25, R371). `parent` is the workgroup and group index that launched it, `pgrid` their grid. `cleaned` tells that
the regions its edges carry have been cleaned (R373). -/
structure Grid where
  ctx : Nat
  q : Nat := 0
  rec_ : Nat := 0
  parent : Option (Nat × Nat) := none
  pgrid : Option Nat := none
  cleaned : Bool := false
  depth : Nat := 0
  kern : Kern
  gx : Nat
  gy : Nat
  gz : Nat
  ngrp : Nat
  cores : Bool := false
  irq : Bool := false
  vspace : Nat := 0
  gtimer : Nat := 0
  args : List W64 := []
  edges : List Edge := []
  prio : Nat := 0
  latency : Bool := false
  next : Nat := 0
  live : Nat := 0
  deriving DecidableEq, Repr

/-- A resident or saved group (R36, R42, R329). `key` of the group table is hearth × 128 + group slot. `sReady` gives the clock
from which a scalar register (64 for MODE) may be read, `sNext` the clock from which the stoker may issue (R85, R95), and
`wBusy` the `vset` of a view register whose copy is under way (R188). -/
structure Group where
  ctx : Nat
  wg : Nat
  gidx : Nat
  kern : Kern
  width : Nat
  s : Tab SReg := []
  c : BitVec 8 := 0
  b : Tab TReg := []
  w : Tab VwReg := []
  v : Tab LReg := []
  m : Tab Mask := []
  mode : BitVec 32 := 1
  spc : W64 := 0
  blocks : List Block := []
  slot0 : Option Split := none
  slot1 : Option Split := none
  spilled : List (Nat × Split) := []
  last : Nat := 1
  hnd : Option HFrame := none
  susp : Option Trap := none
  yielded : Option (Nat × W64) := none
  pendTraps : List Trap := []
  /-- a trap raised whose taking waits for the results in flight (R263) -/
  raised : Option Trap := none
  /-- the child of a `launch` whose record has been read and that waits (R115) -/
  launching : Option Grid := none
  /-- the copy descriptor or operand record that a waiting `cpy`, `cpy2d`, `cpyg` or `mma` has read (R336, R337) -/
  got : Option (List Byte) := none
  lpass : Nat := 0
  spass : Nat := 0
  lesc : Option Nat := none
  sesc : Option Nat := none
  ldem : Nat := 0
  sdem : Nat := 0
  lsince : Nat := 0
  ssince : Nat := 0
  lastL : Option Nat := none
  lastS : Option Nat := none
  laneBusy : Nat := 0
  gtime : Nat := 0
  timerTaken : Bool := false
  saved : Bool := false
  wgbars : Nat := 0
  gbars : Nat := 0
  arrived : Option Bool := none
  frames : List (BitVec 52 × Bool) := []
  tags : Tab TagSt := []
  sPend : List Nat := []
  wBusy : Tab VCopy := []
  /-- what the stoker issues again before its next instruction, in order (R88, R198) -/
  redo : List Redo := []
  sReady : Tab Nat := []
  sNext : Nat := 0
  /-- private bytes that L1 holds, by flat offset x: byte PB + x of R217; poisoned granules of 32 bytes of the same offsets; and the
  lines of 128 bytes whose backing holds the group's bytes (R219) -/
  priv : Tab Byte := []
  privPz : List Nat := []
  privBack : List Nat := []
  /-- engine operations that have stopped, whose writes may still be on their way (R253, R255) -/
  spent : List Nat := []
  /-- PB of R217 -/
  pb : Nat := 0
  stamp : Nat := 0
  sWait : Bool := false
  deriving DecidableEq, Repr

/-- A scratchpad page of a workgroup (R223, R224): its slot while resident, and the slot its backing page is numbered by. -/
structure SpPage where
  resident : Bool := true
  written : Bool := false
  slot : Nat := 0
  back : Nat := 0
  deriving DecidableEq, Repr

/-- A team's arrivals at `mma` (R340): the record of the first member, and the members that wait with their record's
address. -/
structure TeamArr where
  record : List Byte
  members : List (Nat × W64)
  deriving DecidableEq, Repr

/-- A placed workgroup (R25, R374). -/
structure Wg where
  grid : Nat
  ctx : Nat
  ix : Nat
  iy : Nat
  iz : Nat
  hearth : Nat
  slots : List Nat
  retired : List Nat := []
  scratch : Nat := 0
  sp : Tab Byte := []
  spPz : List Nat := []
  pages : Tab SpPage := []
  accUnits : Nat := 0
  acc : Tab Byte := []
  accPz : List Nat := []
  teams : Tab TeamArr := []
  vquota : Nat := 2
  stamp : Nat := 0
  deriving DecidableEq, Repr

/-- An outstanding freeze or thaw (R298): number, kind, pages not yet complete with the generation they wait for. -/
structure FrzOp where
  seq : Nat
  thaw : Bool
  pages : List (W64 × Nat)
  deriving DecidableEq, Repr

/-- A page whose freeze or thaw is in progress (R298, R302): its context, address, size and generation; the coordinator's die; the
identifier below which the accesses of its shootdown here lie (R240); the generation of a thaw that waits for the freeze; the modules whose
shootdown acknowledgement is missing; the module and die pairs whose drop-replicas acknowledgement is missing, and the dies of this module
that have dropped theirs; and the time the request was sent. -/
structure FrzPage where
  ctx : Nat
  va : W64
  size : Nat
  gen : Nat
  coord : Nat := 0
  bound : Nat := 0
  thawing : Bool := false
  thawPend : Option Nat := none
  mods : List Nat := []
  acks : List (Nat × Nat) := []
  dropped : List Nat := []
  sent : Nat := 0
  /-- the dies whose `thaw` and whose `frz` follow on what is in progress: they coordinate those (R296) -/
  nextThaw : Nat := 0
  nextFrz : Nat := 0
  deriving DecidableEq, Repr

/-- A home's mark on a page (R298, R303, R306): frozen or marking, whether the page thaws, generation, and the modules whose writes
are refused. `pa` is the page's frame, none for a codec page, whose leaf names no frame (R274); `back` is then the range of its
groups' backing. -/
structure Mark where
  ctx : Nat
  va : W64
  size : Nat
  pa : Option Nat
  back : Nat × Nat := (0, 0)
  frozen : Bool
  thawing : Bool := false
  gen : Nat
  refuse : List Nat := []
  deriving DecidableEq, Repr

/-- A context (R367) with its damper, hold, alarm and counters (R377, R380, R382, R293). -/
structure Ctx where
  ptroot : Nat := 0
  spback : Nat := 0
  privback : Nat := 0
  saveback : Nat := 0
  backsize : Nat := 0
  hmask : BitVec 32 := 0
  frto : Nat := 0
  priv : Bool := false
  hentry : W64 := 0
  hframe : Nat := 0
  codectab : Nat := 0
  frztab : Nat := 0
  frzn : Nat := 1
  lease : List Nat := [256, 256, 256, 256]
  domain : Nat := 0
  hset : BitVec 144 := 0
  damper : Bool := false
  deadline : Option Nat := none
  hold : Bool := false
  restoring : Bool := false
  alarm : Option Nat := none
  run : Nat := 0
  seq : Nat := 0
  ops : List FrzOp := []
  ending : Bool := false
  ended : Bool := false
  /-- the clock in which a group of it last retired or was saved by `yield`: one of its resident clocks (R41, R342) -/
  left : Option Nat := none
  deriving DecidableEq, Repr

/-- Where the old value of an atomic goes, or the value of a load that gets no response (R102, R169, R325): to a register, or to the reader
(log 57) whose instruction, fetch or projection waits for it; `code` is set for a fetch. -/
inductive Dst where
  | none
  | scalar (n : Nat) (signed : Bool)
  | lane (out t r : Nat)
  | reader (who : Nat × Nat) (code : Bool)
  deriving DecidableEq, Repr

/-- One thread's part of an atomic on a codec region (R284): byte offset, addend, destination. -/
structure CodecAdd where
  off : Nat
  x : W64
  dst : Dst
  deriving DecidableEq, Repr

/-- What a write or atomic at a home does (R228, R232, R283). `op` is the operation code of R68. -/
inductive PKind where
  | store (pa : Nat) (data : List Byte) (pz : Bool)
  | atomic (pa w op ty : Nat) (x cmp : W64) (dst : Dst)
  | codecStore (ctx creg : Nat) (writes : List (Nat × Byte × Bool))
  | codecAdd (ctx creg : Nat) (adds : List CodecAdd)
  /-- a load of another module that gets no response in time (R325): its destination, bytes and stoker PC -/
  | lost (dst : Dst) (w : Nat) (pc : W64)
  deriving DecidableEq, Repr

/-- A write or atomic not yet performed (R228, R230): the storing group, the home line, whether it has
arrived and its place in arrival order, the block it belongs to (0 for the stoker), and whether later accesses are ordered after
it (an ordered atomic). The list of them keeps the order of issue. -/
structure Pend where
  id : Nat
  key : Nat
  ctx : Nat
  owner : Option (Nat × Nat)
  arrived : Bool
  arr : Nat := 0
  issued : Nat
  va : W64
  blk : Nat
  acq : Bool
  /-- its page has lossless compression (R314) -/
  cmpr : Bool := false
  kind : PKind
  /-- the clock at which the codec's step on its block ends, once it has begun (R292) -/
  ready : Option Nat := none
  /-- the hearth it was issued in, from which its path leads (R332) -/
  hearth : Nat := 0
  deriving DecidableEq, Repr

/-- A read that waits at a home (R230): the hearth, the lease length and its page's compression, and the reader that is to
have the value as it is served (log 57). -/
structure Wait where
  h : Nat
  len : Nat
  cmpr : Bool := false
  who : Option (Nat × Nat) := none
  deriving DecidableEq, Repr

/-- The lease record of a home line (R230) with its predictor and lending state (R233). -/
structure Home where
  exp : Nat := 0
  waiting : List Wait := []
  pred : Option (Nat × Nat) := none
  lent : Option Nat := none
  lendTo : Option Nat := none
  recalled : Bool := false
  /-- some lease was granted to the context in recorded mode: its expiry is counted in run time (R332) -/
  rt : Bool := false
  deriving DecidableEq, Repr

/-- The kinds of L1 line (R227, R329). -/
inductive L1Kind where
  | leased | priv | codec | view | lent
  deriving DecidableEq, Repr

/-- An L1 line's tag (R329); the value of every line but a view row is its home's (log 10). `exp = none` is no lease limit.
`fgen` is the freeze generation of a frozen copy (R301). A view row takes one line for each 128 bytes, numbered by `key`;
`deps` are its latent lines (R193). -/
structure L1Line where
  kind : L1Kind
  key : Nat
  exp : Option Nat := none
  dirty : Bool := false
  pz : BitVec 4 := 0
  fgen : Option Nat := none
  slot : Nat := 0
  gen : Nat := 0
  token : Nat := 0
  row : List Byte := []
  deps : List Nat := []
  /-- granted to the context in recorded mode: its expiry is counted in run time (R332) -/
  rt : Bool := false
  deriving DecidableEq, Repr

/-- A line served to a reader that waited for it (R230): its 128 bytes, the poison of its four 32-byte parts, and the copy it was
given. -/
structure Served where
  who : Nat × Nat
  key : Nat
  bytes : List Byte
  pz : BitVec 4
  copy : Option L1Line
  /-- no response came in time, and the reader goes on with poison (R325) -/
  lost : Bool := false
  deriving DecidableEq, Repr

/-- A translation-cache entry (R238): where it is held (a hearth, or a die's last level), tag, and leaf content. -/
structure Tlb where
  last : Bool
  unit : Nat
  ctx : Nat
  va : W64
  leaf : W64
  pgsz : Nat
  leafPa : Nat
  ga : Option Nat := none
  gd : Option Nat := none
  /-- D has been gathered and written back since the fill (R242) -/
  dd : Bool := false
  deriving DecidableEq, Repr

/-- A line present in L2 (R224, R229). `place` is the die and slice that hold it where they are not its address's own: those of
its codec group (R275). -/
structure L2Line where
  dirty : Bool := false
  cmpr : Bool := false
  retained : Bool := false
  place : Option (Nat × Nat) := none
  deriving DecidableEq, Repr

/-- An invalidation sent to a sharer die (R310, R311). -/
structure Inval where
  die : Nat
  key : Nat
  sent : Nat
  dropped : Bool := false
  ackAt : Nat := 0
  deriving DecidableEq, Repr

/-- A view matrix store entry (R184, R329). Whether it is held is computed from its holders (R185). -/
structure VEnt where
  ctx : Nat := 0
  gen : Nat := 0
  pz : Bool := false
  fclean : Bool := false
  units : Nat := 0
  matrix : Nat := 0
  /-- of a restored entry: the slot and generation it was saved from (R199) -/
  origin : Option (Nat × Nat) := none
  len : Nat := 0
  width : Nat := 0
  mfmt : Nat := 0
  bytes : List Byte := []
  /-- the virtual pages of its matrix at the fill, whose drop-replicas messages clear the frozen-clean mark (R188) -/
  pages : List W64 := []
  deriving DecidableEq, Repr

/-- An `ldv` that waits for a row: its group's name, the outstanding result, and the threads, registers and columns that read the
row (R181, R191). -/
structure LdvWait where
  who : Nat × Nat
  out : Nat
  elems : List (Nat × Nat × Nat)
  deriving DecidableEq, Repr

/-- A projection (R191–R193): the view it is of with its matrix, the token, the context and group that missed; the pieces of the
latent row still to be read (physical address, bytes, lease length, compression), what has been read with its poison, the latent
lines and the earliest expiry; whether the row may be installed, whether it still waits for a range-lock entry, the `ldv` instructions
that wait for it, and the clock at which it is formed once its last line has come. -/
structure Proj where
  id : Nat
  hearth : Nat
  ctx : Nat
  owner : Nat × Nat
  slot : Nat
  gen : Nat
  token : Nat
  desc : BitVec 512
  left : List (Nat × Nat × Nat × Bool)
  lat : List Byte := []
  pz : Bool := false
  deps : List Nat := []
  exp : Option Nat := none
  install : Bool := true
  /-- a latent line it has read died under it (R195): it is not installed, and no further lookup joins it -/
  stale : Bool := false
  /-- its source range is registered in the range-lock table (R192) -/
  locked : Bool := false
  /-- its expiry is counted in run time (R332) -/
  rt : Bool := false
  waiters : List LdvWait
  /-- the clock at which the last of its latent lines comes -/
  late : Nat := 0
  ready : Nat := 0
  deriving DecidableEq, Repr

/-- A range-lock table entry (R364). `op` names the operation that holds it. -/
structure Lock where
  base : Nat
  len : Nat
  gslot : Nat
  dst : Bool
  space : Space
  kind : Nat
  ctx : Nat
  wg : Nat
  gidx : Nat
  op : Nat
  deriving DecidableEq, Repr

/-- A copy in flight (R336, R341, R353). -/
structure Copy where
  id : Nat
  hearth : Nat
  ctx : Nat
  wg : Nat
  gidx : Nat
  gslot : Nat
  tag : Nat
  kind : Nat
  addr : W64
  desc : List Byte
  done : Nat := 0
  /-- the indexes of a gather's next unit that have been read, in order (R358) -/
  got : List Nat := []
  /-- the clock from which the model tries the next unit -/
  next : Nat := 0
  /-- the clock at which the last line it has read comes (R292, R314) -/
  late : Nat := 0
  deriving DecidableEq, Repr

/-- The operations of the matrix engine (R344, R348). -/
inductive MatKind where
  | mma | accz | accld | accst
  deriving DecidableEq, Repr

/-- A registered matrix-engine operation (R340, R351, R352): for `mma` the record, else the three operands. -/
structure MatOp where
  id : Nat
  hearth : Nat
  ctx : Nat
  wg : Nat
  members : List Nat
  gslot : Nat
  kind : MatKind
  record : List Byte := []
  addr : W64 := 0
  d : W64 := 0
  u : Nat := 0
  n : Nat := 0
  fmt : Nat := 0
  kdone : Nat := 0
  pz : Bool := false
  /-- the clock from which the model tries the next step -/
  next : Nat := 0
  /-- the clock at which the last line it has read comes (R292, R314) -/
  late : Nat := 0
  /-- its first step has started: `next` is the clock at which the step under way ends -/
  going : Bool := false
  deriving DecidableEq, Repr

/-- A trap record in a coalescer (R259, R260) with its continuation records (R262). -/
structure Rec where
  hearth : Nat
  ctx : Nat
  cause : BitVec 16
  addr : W64
  time : Nat
  gslots : BitVec 128
  tmask : Mask
  lpc : BitVec 32
  size : Nat
  stoker : Bool
  opened : Nat
  closed : Bool := false
  cont : List (List Byte) := []
  low : Nat := 0
  held : Bool := false
  headDone : Bool := false
  /-- it waits in a save record, not in a coalescer (R269) -/
  kept : Bool := false
  /-- the write of its next 64 bytes to the ring is on its way (R261) -/
  sent : Bool := false
  deriving DecidableEq, Repr

/-- A die's fault queue words (R261). -/
structure FaultQ where
  base : W64 := 0
  size : W64 := 0
  head : W64 := 0
  tail : W64 := 0
  deriving DecidableEq, Repr

/-- A die's frame pool words (R244) with the pool-low latch and the frames held while the ring is full. -/
structure Pool where
  ringbase : W64 := 0
  ringsize : W64 := 0
  head : W64 := 0
  count : W64 := 0
  lowmark : W64 := 0
  low : Bool := false
  held : List (BitVec 52) := []
  deriving DecidableEq, Repr

/-- A queue the device knows (R368, R370): `die` is where it is resident, `place` which of the die's 64 places it has. -/
structure Queue where
  die : Option Nat
  place : Nat := 0
  desc : Nat
  ctx : Nat
  prio : Nat
  latency : Bool
  irq : Bool
  vec : Nat
  window : Nat
  nslot : Nat
  prog : Nat
  done : Nat
  err : Nat
  fin : List Nat := []
  sealed : Bool := false
  /-- its context has ended since it was last resident: an edge to it is satisfied (R383) -/
  outlived : Bool := false
  deriving DecidableEq, Repr

/-- A saved workgroup (R352, R377–R380). `crecs` are the records of its copies (R341), in their order. -/
structure Saved where
  wgid : Nat
  wg : Wg
  groups : List (Nat × Group)
  copies : List Copy
  crecs : List (List Byte) := []
  mats : List MatOp
  locks : List Lock
  views : List (Nat × VEnt)
  recs : List Rec
  moved : Bool := false
  /-- it is placed again, its groups still stopped; its engine operations and locks are still to be registered (R380) -/
  back : Bool := false
  deriving DecidableEq, Repr

/-- A die-to-die link end (R311, R316): flits repeated, failures of the flit under way, and whether it is dead. -/
structure Link where
  repeats : Nat := 0
  run : Nat := 0
  dead : Bool := false
  deriving DecidableEq, Repr

/-- A Benud port (R328). -/
structure Port where
  up : Bool := false
  dead : Bool := false
  lanes : Nat := 0
  repeat_ : Nat := 0
  tx : Nat := 0
  rx : Nat := 0
  deaths : Nat := 0
  change : Nat := 0
  run : Nat := 0
  deriving DecidableEq, Repr

/-- The CXL states of a 64-byte half of a host line (R321). -/
inductive Half where
  | i | s | e | m
  deriving DecidableEq, Repr

/-- A host snoop waiting for its answer (R322): half, invalidate, and the data the host writes after the answer from an offset of the
half on. -/
structure Snoop where
  half : Nat
  inv : Bool
  data : Option (List Byte)
  off : Nat := 0
  deriving DecidableEq, Repr

/-- A logged event (R300, R306, R311, R312, R318, R325): kind, unit, device time; the address, the writer (0 the host, else module + 1)
and the freeze generation where the event has them. -/
structure LogE where
  kind : Nat
  unit : Nat
  time : Nat
  addr : Nat := 0
  src : Nat := 0
  gen : Nat := 0
  deriving DecidableEq, Repr

/-- The command area, and the command that runs with its subject and the operands it was started with (R330). -/
structure Cmd where
  cmd : W64 := 0
  args : List W64 := []
  status : W64 := 0
  run : Option (Nat × Nat) := none
  held : List Nat := []
  deriving DecidableEq, Repr

/-- The recorded-mode registers (R335). `hold` tells that a replay's context is held before an event whose record has not been placed;
`pend` are trace records not yet appended. -/
structure Recd where
  ctx : Nat := 0
  active : Bool := false
  armed : Bool := false
  replay : Bool := false
  stalled : Bool := false
  hold : Bool := false
  mismatch : Bool := false
  tbase : Nat := 0
  tsize : Nat := 0
  tail : Nat := 0
  head : Nat := 0
  count : Nat := 0
  /-- the write of the oldest record of `pend` to the ring is on its way (R333) -/
  sent : Bool := false
  pend : List (List Byte) := []
  deriving DecidableEq, Repr

/-- The stream that is issuing: group key and PC slot, or the stoker. -/
inductive Stream where
  | stoker (g : Nat)
  | lane (g slot : Nat)
  deriving DecidableEq, Repr

/-- The whole machine. -/
structure State where
  clk : Nat := 0
  timeBase : Nat := 0
  free : Nat := 0
  agenda : List (Nat × Instr × EvArgs) := []
  ev : EvArgs := ⟨0, 0, 0, 0, false, []⟩
  cursor : Nat := 0
  cur : Option Stream := none
  booted : Bool := false
  recovery : Bool := false
  coolant : Bool := false
  stopped : Bool := false
  flash : Tab Byte := []
  svn : BitVec 32 := 0
  measure : BitVec 512 := 0
  linkLanes : Nat := 0
  cxl : Bool := false
  mem : List Host.Cell := []
  poison : List Nat := []
  cells : Tab (BitVec 4) := []
  l2 : Tab L2Line := []
  /-- the metadata lines a slice (24 × die + slice) caches, most recently used first (R313) -/
  metas : Tab (List Nat) := []
  homes : Tab Home := []
  pend : List Pend := []
  served : List Served := []
  sectors : Tab Nat := []
  /-- the frozen sector copies, by number, with their generation (R301) -/
  fsectors : Tab Nat := []
  remotes : Tab Nat := []
  dropexp : Tab Nat := []
  dirs : Tab (BitVec 4) := []
  filters : Tab (BitVec 4) := []
  invals : List Inval := []
  l1 : Tab (List L1Line) := []
  tlb : List Tlb := []
  walkc : List Tlb := []
  replicas : Tab Nat := []
  /-- granules lost in a copy that L2 holds (R318): 4 × the copy's number, plus 0 for a sector copy, 1 for a remote copy, 2 for a replica -/
  copyPz : Tab (BitVec 4) := []
  marks : List Mark := []
  halves : Tab Half := []
  snoops : List Snoop := []
  ctxs : Tab Ctx := []
  grids : Tab Grid := []
  wgs : Tab Wg := []
  groups : Tab Group := []
  saved : List Saved := []
  nextId : Nat := 1
  busy : Tab Nat := []
  vstore : Tab VEnt := []
  projs : List Proj := []
  locks : Tab Lock := []
  copies : List Copy := []
  mats : List MatOp := []
  /-- for a hearth's copy engine: the clock it last served, the units served in it, and the copy served last (R357) -/
  cpTurn : Tab (Nat × Nat × Nat) := []
  /-- the clock from which the encoder (3 × u), the merge unit (3 × u + 1) and the decoder (3 × u + 2) of the codec of slice
  u = 24 × die + slice are free (R292) -/
  codecFree : Tab Nat := []
  /-- the clock from which the L1 port of a partition (4 × hearth + partition) is free for a line request (R220) -/
  l1Port : Tab Nat := []
  recs : List Rec := []
  faultq : Tab FaultQ := []
  pools : Tab Pool := []
  queues : Tab Queue := []
  bar2 : Tab Byte := []
  frz : List FrzPage := []
  links : Tab Link := []
  fences : List (Nat × Nat) := []
  rebuild : List (Nat × Bool) := []
  ports : Tab Port := []
  rtimeout : Nat := 0
  refused : Nat := 0
  counters : Tab Nat := []
  log : List LogE := []
  irqs : List Nat := []
  cmd : Cmd := {}
  recd : Recd := {}
  deriving DecidableEq, Repr

/-- The machine right after reset: nothing booted, nothing loaded, every table empty. Device time, identity words and
queue words whose reset the manual does not give are 0 (log 5). -/
def State.reset : State := {}

end Sys2Proof.Machine
end

