-- ==== Sys2Proof/Machine/Tab.lean ====
section
/-! DEFINITION. Sparse tables in rising key order and the memory of cells: reading, writing, the canonical form
(R4, R36, R225). An unlisted byte of memory reads 0 (log 1) and is never listed with that value. -/

namespace Sys2Proof.Machine

/-- The entry at a key. -/
def tabGet {α : Type} : Tab α → Nat → Option α
  | [], _ => none
  | (k, v) :: r, n => if k = n then some v else tabGet r n

/-- The table with an entry written, in rising key order. -/
def tabSet {α : Type} : Tab α → Nat → α → Tab α
  | [], n, x => [(n, x)]
  | (k, v) :: r, n, x =>
    if n < k then (n, x) :: (k, v) :: r else if n = k then (n, x) :: r else (k, v) :: tabSet r n x

/-- The table without the entry at a key. -/
def tabDel {α : Type} (t : Tab α) (n : Nat) : Tab α := t.filter fun p => p.1 != n

/-- The entry at a key, or a default. -/
def tabD {α : Type} (t : Tab α) (n : Nat) (d : α) : α := (tabGet t n).getD d

/-- The table with one entry changed, if it is there. -/
def tabMod {α : Type} (t : Tab α) (n : Nat) (f : α → α) : Tab α :=
  match tabGet t n with
  | some x => tabSet t n (f x)
  | none => t

/-- The entries of a table. -/
def tabVals {α : Type} (t : Tab α) : List α := t.map (·.2)

/-- A number added to a list that keeps each once. -/
def addOnce (l : List Nat) (n : Nat) : List Nat := if l.contains n then l else l ++ [n]

/-- The least number of a list, or a bound. -/
def listMin (l : List Nat) (d : Nat) : Nat := l.foldl min d

/-- The greatest number of a list, or 0. -/
def listMax (l : List Nat) : Nat := l.foldl max 0

/-- Pair each element of a list with its place, from 0. -/
def enumFrom {α : Type} : Nat → List α → List (Nat × α)
  | _, [] => []
  | n, x :: r => (n, x) :: enumFrom (n + 1) r

/-- The table with consecutive entries written from a key up. -/
def tabPut {α : Type} (t : Tab α) (n : Nat) (l : List α) : Tab α :=
  t.filter (fun p => p.1 < n) ++ (enumFrom n l ++ t.filter (fun p => n + l.length ≤ p.1))

/-- The entries of a table from a key up to another. -/
def tabCut {α : Type} (t : Tab α) (lo hi : Nat) : Tab α := t.filter fun p => lo ≤ p.1 && p.1 < hi

/-- Memory is in canonical form: addresses strictly rising, and no cell holds the byte an unlisted address reads as. -/
def Memory.wf : List Host.Cell → Bool
  | [] => true
  | [(_, b)] => b != 0
  | (a, b) :: (a', b') :: r => b != 0 && a < a' && Memory.wf ((a', b') :: r)

/-- The byte at an address; an unlisted address reads 0 (log 1). -/
def memGet : List Host.Cell → Nat → Byte
  | [], _ => 0
  | (k, v) :: r, a => if k = a then v else memGet r a

/-- A byte written: the value an unlisted address reads as removes the cell. -/
def memSet : List Host.Cell → Nat → Byte → List Host.Cell
  | [], a, b => if b = 0 then [] else [(a, b)]
  | (k, v) :: r, a, b =>
    if a < k then (if b = 0 then (k, v) :: r else (a, b) :: (k, v) :: r)
    else if a = k then (if b = 0 then r else (a, b) :: r)
    else (k, v) :: memSet r a b

/-- Consecutive bytes written from an address up. -/
def memSetBytes : List Host.Cell → Nat → List Byte → List Host.Cell
  | m, _, [] => m
  | m, a, b :: bs => memSetBytes (memSet m a b) (a + 1) bs

/-- n consecutive bytes read from an address up. -/
def memGetBytes (m : List Host.Cell) : Nat → Nat → List Byte
  | _, 0 => []
  | a, n + 1 => memGet m a :: memGetBytes m (a + 1) n

/-- The bytes of a 52-bit physical range. -/
def State.peek (s : State) (pa n : Nat) : List Byte := memGetBytes s.mem pa n

/-- The little-endian number of n bytes of physical memory (R4). -/
def State.peekNat (s : State) (pa n : Nat) : Nat := leNat (s.peek pa n)

/-- Some byte of a physical range lies in a poisoned granule (R317). -/
def State.poisoned (s : State) (pa n : Nat) : Bool :=
  s.poison.any fun g => pa < 32 * g + 32 && 32 * g < pa + n

/-- The granules of 32 bytes a range touches. -/
def granules (pa n : Nat) : List Nat :=
  if n = 0 then [] else (List.range ((pa + n - 1) / 32 - pa / 32 + 1)).map (· + pa / 32)

/-- Physical bytes written (R317): an unpoisoned write that covers a granule heals it; a poisoned write marks every
granule it touches and the bytes there are lost. -/
def State.poke (s : State) (pa : Nat) (data : List Byte) (pz : Bool) : State :=
  let gs := granules pa data.length
  if pz then
    { s with
      poison := gs.foldl addOnce s.poison,
      mem := gs.foldl (fun m g => memSetBytes m (32 * g) (List.replicate 32 0)) s.mem }
  else
    { s with
      mem := memSetBytes s.mem pa data,
      poison := s.poison.filter fun g => !(pa ≤ 32 * g && 32 * g + 32 ≤ pa + data.length) }

/-- A number written as n little-endian bytes (R4). -/
def State.pokeNat (s : State) (pa n x : Nat) : State := s.poke pa (leBytes n x) false

end Sys2Proof.Machine
end

