-- ==== Sys2Proof/Machine/Translate.lean ====
section
/-! DEFINITION. Addresses, page tables, walks and translation caches (R98, R103, R225, R234–R242, R274; 04, 12, 16). -/

namespace Sys2Proof.Machine

/-- Device time in ns: the clock runs at 5 clocks for every 2 ns (R3, R7). -/
def State.now (s : State) : Nat := s.timeBase + s.clk * 2 / 5

/-- The die of a hearth number 0–143. -/
def dieOf (h : Nat) : Nat := h / 36

/-- Canonical form: bits [63:57] equal bit 56 (R98 step 3). -/
def canonical (va : W64) : Bool := va == (va.setWidth 57).signExtend 64

/-- A frame R225 forbids: the reserved region, this module's region with PA[49:40] nonzero, or this module by number. -/
def frameForbidden (pa : Nat) : Bool :=
  match bits pa 50 2 with
  | 0 => bits pa 40 10 != 0
  | 1 => false
  | 2 => true
  | _ => bits pa 40 10 == Config.moduleNumber.toNat

/-- The fields of a codec region table entry (R273). -/
structure Region where
  valid : Bool
  rate : Nat
  vbase : Nat
  npages : Nat
  back : Nat
  ok : Bool
  deriving DecidableEq, Repr

/-- Entry n of a context's codec region table (R273). -/
def State.region (s : State) (c : Ctx) (n : Nat) : Region :=
  let w0 := s.peekNat (c.codectab + 64 * n) 8
  let w1 := s.peekNat (c.codectab + 64 * n + 8) 8
  let w2 := s.peekNat (c.codectab + 64 * n + 16) 8
  { valid := bits w0 0 1 == 1, rate := bits w0 1 2, vbase := bits w0 16 41 * 65536, npages := w1 % 2 ^ 32, back := bits w2 0 52,
    ok := bits w0 3 13 == 0 && bits w0 57 7 == 0 && w1 / 2 ^ 32 == 0 && w1 % 2 ^ 32 != 0 && bits w2 52 12 == 0 &&
      w2 % 128 == 0 && bits w2 50 2 == 0 }

/-- The 57-bit virtual offset of an address. -/
def va57 (va : W64) : Nat := va.toNat % 2 ^ 57

/-- Page size in bytes by PGSZ (R39). -/
def pageBytes (pgsz : Nat) : Nat :=
  match pgsz with
  | 0 => 65536
  | 1 => 65536 * 32
  | _ => 65536 * 1024

/-- What a walk finds (R237). -/
inductive WalkRes where
  | found (leaf : W64) (leafPa pgsz : Nat)
  | absent (entry : W64) (pa : Nat)
  | unmapped
  | malformed
  deriving DecidableEq, Repr

/-- A well-formed leaf of page size pgsz for the page of va (R236, R237, R274). -/
def leafOk (s : State) (c : Ctx) (e va pgsz : Nat) : Bool :=
  let frame := bits e 28 36
  bits e 19 9 == 0 && bits e 6 1 == 0 && frame % (pageBytes pgsz / 65536) == 0 && !frameForbidden (frame * 65536) &&
  (bits e 7 1 == 0 ||
    (let r := s.region c (bits e 12 5)
     let p := va / pageBytes pgsz * pageBytes pgsz
     r.valid && r.ok && frame == 0 && r.vbase ≤ p && p + pageBytes pgsz ≤ r.vbase + r.npages * 65536))

/-! ### The device's own writes (R230, R310, R314) -/

/-- The numbers the model gives as context to accesses that belong to none: to the host's and another module's, and to the device's own, of a
die's fault queue, of the trace ring, of a command, and of the DONE words. -/
def noCtx : Nat := 1024
def ownFaults (d : Nat) : Nat := 1025 + d
def ownTrace : Nat := 1029
def ownCommand : Nat := 1030
def ownDone : Nat := 1031

/-- The pieces of a range that lie in one line each. -/
def linePieces (pa : Nat) : Nat → List Byte → List (Nat × List Byte)
  | 0, _ => []
  | fuel + 1, b =>
    if b.isEmpty then []
    else
      let n := 128 - pa % 128
      (pa, b.take n) :: linePieces (pa + n) fuel (b.drop n)

/-- Bytes written by the device itself; a line it writes in HBM is raw (R314). -/
def State.pokeRaw (s : State) (pa : Nat) (data : List Byte) : State :=
  { s.poke pa data false with
    cells := s.cells.filter fun (p : Nat × BitVec 4) => !(pa / 128 ≤ p.1 && 128 * p.1 < pa + data.length) }

/-- A word of n bytes written so. -/
def State.pokeWord (s : State) (pa n x : Nat) : State := s.pokeRaw pa (leBytes n x)

/-- No copy of a line is out and nothing waits at its home: what the device writes there is performed at once (R230, R310, R322). -/
def State.lineQuiet (s : State) (pa : Nat) : Bool :=
  let key := 2 * (pa / 128 * 128)
  let x := tabD s.homes key {}
  bits pa 50 2 == 3 || (x.exp ≤ s.now && x.lent.isNone && x.waiting.isEmpty && tabD s.dirs (pa / 512) 0 == 0 &&
    (!s.pend.any fun p => p.key == key) && (!s.invals.any fun i => i.key == key) &&
    !(bits pa 50 2 == 1 && s.snoops.any fun n => n.half / 2 == pa % 2 ^ 50 / 128))

/-- A write or atomic of the device's own sent to its home, where it waits its turn like any agent's (R230, R310). -/
def State.sendOwn (s : State) (n h pa : Nat) (kind : PKind) : State :=
  let p : Pend :=
    { id := s.nextId, key := 2 * (pa / 128 * 128), ctx := n, owner := none, arrived := false, issued := s.clk, va := 0, blk := 0,
      acq := false, kind := kind, hearth := h }
  { s with nextId := s.nextId + 1, pend := s.pend ++ [p] }

/-- Bytes the device itself writes, line by line: at once where no copy of the line of HBM is out, else at its home. -/
def State.storeOwn (s : State) (n pa : Nat) (data : List Byte) : State :=
  (linePieces pa (data.length + 1) data).foldl (fun s p =>
    if bits p.1 50 2 = 0 && s.lineQuiet p.1 then s.pokeRaw p.1 p.2 else s.sendOwn n 0 p.1 (.store p.1 p.2 false)) s

/-- Writes of the device's own are on their way. -/
def State.ownBusy (s : State) (n : Nat) : Bool := s.pend.any fun p => p.ctx == n

/-! ### Walks (R234–R238, R311) -/

/-- The walk from a level's table down (R234, R235, R237): index bits, level and the next table's alignment per level. -/
def walkFrom (s : State) (c : Ctx) (va : Nat) : List (Nat × Nat × Nat) → Nat → Nat → WalkRes
  | [], _, _ => .malformed
  | (lo, n, align) :: rest, lvl, table =>
    let pa := table + 8 * bits va lo n
    let e := s.peekNat pa 8
    if bits e 0 1 = 0 then (if lvl = 0 && bits e 6 1 == 1 then .absent (BitVec.ofNat 64 e) pa else .unmapped)
    else if bits e 1 1 = 1 then
      if lvl ≥ 3 then .malformed
      else if leafOk s c e va lvl then .found (BitVec.ofNat 64 e) pa lvl else .malformed
    else if lvl = 0 || bits e 2 6 != 0 || bits e 52 12 != 0 || (bits e 8 44 * 256) % align != 0 then .malformed
    else walkFrom s c va rest (lvl - 1) (bits e 8 44 * 256)

/-- The levels of R234 from level 4 down: lowest index bit, index width, alignment of the next table. -/
def walkLevels : List (Nat × Nat × Nat) := [(46, 11, 16384), (35, 11, 4096), (26, 9, 256), (21, 5, 256), (16, 5, 1)]

/-- Walk(V) from the context's root (R234, R237). -/
def State.walk (s : State) (c : Ctx) (va : W64) : WalkRes := walkFrom s c (va57 va) walkLevels 4 c.ptroot

/-- The addresses of the entries a walk reads from a level's table down. -/
def walkPas (s : State) (va : Nat) : List (Nat × Nat × Nat) → Nat → Nat → List Nat
  | [], _, _ => []
  | (lo, n, _) :: rest, lvl, table =>
    let pa := table + 8 * bits va lo n
    let e := s.peekNat pa 8
    pa :: (if e % 4 = 1 && lvl != 0 then walkPas s va rest (lvl - 1) (bits e 8 44 * 256) else [])

/-- A die is fenced from the home of an address of this module's HBM (R311). -/
def State.cutOff (s : State) (d pa : Nat) : Bool :=
  let e := bits pa 38 2
  bits pa 50 2 == 0 && d != e && (s.fences.contains (d, e) || s.fences.contains (e, d))

/-- The lowest index bit of a level. -/
def levelLo (lvl : Nat) : Nat := (walkLevels.getD (4 - lvl) (0, 0, 0)).1

/-- The walk cache's pointer of a level over an address (R238): the next table, one level down. -/
def State.cachedPtr (s : State) (d ctx va lvl : Nat) : Option Nat :=
  (s.walkc.find? fun e => e.unit == d && e.ctx == ctx && e.pgsz == lvl && e.va.toNat == va / 2 ^ levelLo lvl).map (·.leafPa)

/-- A die's walk: from the lowest level whose pointer its walk cache holds, else from the root (R234, R237, R238); one that must read an
entry across a dead link is an illegal access (R311). -/
def State.walkDie (s : State) (d ctx : Nat) (c : Ctx) (va : W64) : WalkRes :=
  let from_ := fun (ls : List (Nat × Nat × Nat)) lvl table =>
    if (walkPas s (va57 va) ls lvl table).any (s.cutOff d) then .unmapped else walkFrom s c (va57 va) ls lvl table
  match [1, 2, 3, 4].findSome? fun lvl => (s.cachedPtr d ctx (va57 va) lvl).map (lvl, ·) with
  | some (lvl, table) => from_ (walkLevels.drop (5 - lvl)) (lvl - 1) table
  | none => from_ walkLevels 4 c.ptroot

/-- The pointer entries of a walk from a level's table down, each as its level and the next table. -/
def walkPtrs (s : State) (va : Nat) : List (Nat × Nat × Nat) → Nat → Nat → List (Nat × Nat)
  | [], _, _ => []
  | (lo, n, _) :: rest, lvl, table =>
    let e := s.peekNat (table + 8 * bits va lo n) 8
    if lvl != 0 && e % 4 == 1 then (lvl, bits e 8 44 * 256) :: walkPtrs s va rest (lvl - 1) (bits e 8 44 * 256) else []

/-- The candidate that leaves, where the manual states no replacement (R238, R309, log 13). -/
def victimOf {α : Type} (clk : Nat) (l : List α) : Option α := (l.drop (Config.victim clk l.length % l.length)).head?

/-- The pointers of a successful walk kept in the die's walk cache of 1,024 entries, from which one leaves when it is full (R238). -/
def State.fillWalk (s : State) (d ctx : Nat) (c : Ctx) (va : W64) : State :=
  (walkPtrs s (va57 va) walkLevels 4 c.ptroot).foldl (fun s p =>
    if (s.cachedPtr d ctx (va57 va) p.1).isSome then s
    else
      let mine := s.walkc.filter (·.unit == d)
      let old := if 1024 ≤ mine.length then victimOf s.clk mine else none
      let e : Tlb :=
        { last := true, unit := d, ctx := ctx, va := BitVec.ofNat 64 (va57 va / 2 ^ levelLo p.1), leaf := 0, pgsz := p.1,
          leafPa := p.2 }
      { s with walkc := (s.walkc.filter fun x => some x != old) ++ [e] }) s

/-- A translated address: physical address, or decoded offset with the region in `creg` (R274), and the page's fields. -/
structure Tr where
  pa : Nat
  creg : Option Nat := none
  rd : Bool
  wr : Bool
  fst : Nat
  lcls : Nat
  cmpr : Bool
  frzr : Bool
  pgsz : Nat
  page : W64
  left : Nat
  leafPa : Nat
  deriving DecidableEq, Repr

/-- The translation a leaf gives an address (R236, R274). -/
def trOf (s : State) (c : Ctx) (leaf : W64) (leafPa pgsz : Nat) (va : W64) : Tr :=
  let e := leaf.toNat
  let v := va57 va
  let off := v % pageBytes pgsz
  let codec := bits e 7 1 == 1
  { pa := if codec then v - (s.region c (bits e 12 5)).vbase else bits e 28 36 * 65536 + off,
    creg := if codec then some (bits e 12 5) else none,
    rd := bits e 2 1 == 1, wr := bits e 3 1 == 1, fst := bits e 17 2, lcls := bits e 10 2,
    cmpr := bits e 9 1 == 1 && !codec, frzr := bits e 8 1 == 1, pgsz := pgsz,
    page := va - BitVec.ofNat 64 off, left := pageBytes pgsz - off, leafPa := leafPa }

/-- Whether a cached translation covers an address of a context (R238). -/
def Tlb.covers (e : Tlb) (ctx : Nat) (va : W64) : Bool :=
  e.ctx == ctx && e.va == va - BitVec.ofNat 64 (va57 va % pageBytes e.pgsz)

/-- An entry with gathered bits, if it is still a present leaf with the same frame (R242). -/
def orBits (x y leaf : Nat) : Option Nat := if x % 4 == 3 && bits x 28 36 == bits leaf 28 36 then some (x ||| y) else none

/-- The code the model gives an atomic that writes gathered bits back; no instruction has it. -/
def opGathered : Nat := 9

/-- A gathered A or D bit written back by an atomic OR at the entry's home: at once where no copy of the line is out (R242). -/
def State.writeBackAD (s : State) (e : Tlb) : State :=
  let y := (if e.ga.isSome then 16 else 0) ||| (if e.gd.isSome then 32 else 0)
  if y = 0 then s
  else if s.lineQuiet e.leafPa then
    match orBits (s.peekNat e.leafPa 8) y e.leaf.toNat with
    | some x => s.pokeRaw e.leafPa (leBytes 8 x)
    | none => s
  else
    s.sendOwn e.ctx (if e.last then 36 * e.unit else e.unit) e.leafPa (.atomic e.leafPa 8 opGathered 7 (BitVec.ofNat 64 y) e.leaf .none)

/-- Gathered bits of a context are still on their way to its page tables (R121, R242). -/
def State.gathering (s : State) (ctx : Nat) : Bool := s.pend.any fun p => p.ctx == ctx && p.owner.isNone && p.blk == 0

/-- The set an entry falls in: low bits of the page number at its own size (PRESUMED, log 13). -/
def Tlb.set (e : Tlb) : Nat := va57 e.va / pageBytes e.pgsz % (if e.last then 1024 else 64)

/-- Fill a translation cache; a full set first loses an entry, whose gathered bits are written back (R238, R242). -/
def State.tlbFill (s : State) (e : Tlb) : State :=
  let same := s.tlb.filter fun x => x.last == e.last && x.unit == e.unit && x.set == e.set
  if same.length < (if e.last then 12 else 8) then { s with tlb := s.tlb ++ [e] }
  else
    match victimOf s.clk same with
    | none => { s with tlb := s.tlb ++ [e] }
    | some v => { s.writeBackAD v with tlb := s.tlb.filter (· != v) ++ [e] }

/-- What a translation through a hearth's TLB gives. -/
inductive TrRes where
  | ok (t : Tr)
  | absent (entry : W64)
  | illegal (malf : Bool)
  deriving DecidableEq, Repr

/-- Translation for a hearth (R238): its first-level TLB, the die's last level, then a walk that fills both and gathers A
(R242). The address is canonical. -/
def State.translate (s : State) (h ctx : Nat) (va : W64) : State × TrRes :=
  let c := tabD s.ctxs ctx {}
  match s.tlb.find? fun e => !e.last && e.unit == h && e.covers ctx va with
  | some e => (s, .ok (trOf s c e.leaf e.leafPa e.pgsz va))
  | none =>
    match s.tlb.find? fun e => e.last && e.unit == dieOf h && e.covers ctx va with
    | some e =>
      (s.tlbFill { e with last := false, unit := h, ga := none, gd := none, dd := false }, .ok (trOf s c e.leaf e.leafPa e.pgsz va))
    | none =>
      match s.walkDie (dieOf h) ctx c va with
      | .found leaf pa pgsz =>
        let s := s.fillWalk (dieOf h) ctx c va
        let base := va - BitVec.ofNat 64 (va57 va % pageBytes pgsz)
        let e : Tlb :=
          { last := true, unit := dieOf h, ctx := ctx, va := base, leaf := leaf, pgsz := pgsz, leafPa := pa,
            ga := some s.now }
        ((s.tlbFill e).tlbFill { e with last := false, unit := h, ga := none }, .ok (trOf s c leaf pa pgsz va))
      | .absent e _ => (s, .absent e)
      | .unmapped => (s, .illegal false)
      | .malformed => (s, .illegal true)

/-- The first write that an entry permits to its page gathers D, once for each fill of it (R104, R242). -/
def State.gatherD (s : State) (h ctx : Nat) (va : W64) : State :=
  let s := (s.translate h ctx va).1
  { s with
    tlb := s.tlb.map fun e =>
      if !e.last && e.unit == h && e.covers ctx va && e.gd.isNone && !e.dd then { e with gd := some s.now } else e }

/-- The lease length of a class in a context (R230, R367). -/
def leaseLen (c : Ctx) (lcls : Nat) : Nat := c.lease.getD lcls 256

/-- A die reads a byte through a page's translation, or an entry of its walk, across a dead link (R311). -/
def State.farByte (s : State) (d : Nat) (c : Ctx) (va : W64) (pa : Nat) : Bool :=
  !s.fences.isEmpty && (s.cutOff d pa || (walkPas s (va57 va) walkLevels 4 c.ptroot).any (s.cutOff d))

/-- Untranslated bytes of a virtual range of a context, as far as pages with RD allow (R265, R371): page by page, none where
some byte cannot be read from die d. Used by the device's own reads of kernel entries. -/
def State.vread (s : State) (d : Nat) (c : Ctx) (va : W64) : Nat → Option (List Byte)
  | 0 => some []
  | n + 1 =>
    if canonical va then
      match s.walk c va with
      | .found leaf pa pgsz =>
        let t := trOf s c leaf pa pgsz va
        if t.rd && t.creg.isNone && !s.farByte d c va t.pa then (s.vread d c (va + 1) n).map (memGet s.mem t.pa :: ·) else none
      | _ => none
    else none

/-- The header of an image at a base (R78): NKERN and KOFF of a linked image. -/
def State.imageHeader (s : State) (d : Nat) (c : Ctx) (ib : W64) : Option (Nat × Nat) :=
  match s.vread d c ib 64 with
  | some b =>
    if leNat (b.take 4) == 0x314F5856 && leNat ((b.drop 4).take 2) == 1 && leNat ((b.drop 6).take 2) == 1 then
      some (leNat ((b.drop 8).take 4), leNat ((b.drop 24).take 8))
    else none
  | none => none

/-- The image base a kernel entry address belongs to: the nearest 64 KiB boundary at or below it with a linked image's
header whose kernel table names the address; the code mapping holds the whole file, so a boundary that cannot be read ends
the search (R83; DESIGN CHOICE, log 11). -/
def State.findImage (s : State) (d : Nat) (c : Ctx) (kaddr : W64) : Nat → W64 → Option W64
  | 0, _ => none
  | fuel + 1, ib =>
    match s.imageHeader d c ib with
    | some (nk, koff) =>
      let off := (kaddr - ib).toNat
      if koff ≤ off && (off - koff) % 64 == 0 && (off - koff) / 64 < nk then some ib else none
    | none => if ib = 0 || (s.vread d c ib 64).isNone then none else s.findImage d c kaddr fuel (ib - 65536)

/-- The kernel entry at an address of a context (R79, R83): none unless it belongs to an image and is well formed. -/
def State.kernelAt (s : State) (d : Nat) (c : Ctx) (kaddr : W64) : Option Kern :=
  match s.findImage d c kaddr (kaddr.toNat / 65536 + 1) (kaddr - BitVec.ofNat 64 (kaddr.toNat % 65536)), s.vread d c kaddr 64 with
  | some ib, some b =>
    let n := fun o k => leNat ((b.drop o).take k)
    let k : Kern :=
      { ib := ib, width := n 4 1, vregs := n 5 1, team := n 6 1, preempt := n 7 1 % 2 == 1,
        checked := n 7 1 / 2 % 2 == 1, acc := n 8 4, scratch := n 12 4, priv := n 16 4, sstack := n 20 4,
        scoff := BitVec.ofNat 64 (n 24 8), scwords := n 32 4, lcinsts := n 36 4, lcoff := BitVec.ofNat 64 (n 40 8) }
    if (k.width == 32 || k.width == 64 || k.width == 128) && k.vregs ≠ 0 && (k.team == 0 || (2 ≤ k.team && k.team ≤ 8)) &&
      n 7 1 < 4 && k.acc ≤ 2048 && k.scratch ≤ 524288 && k.priv ≤ 65536 && k.priv % 4 == 0 && k.sstack ≤ 1024 &&
      (b.drop 48).all (· == 0) then some k else none
  | _, _ => none

end Sys2Proof.Machine
end

