-- ==== Sys2Proof/Machine/Ops.lean ====
section
/-! DEFINITION. The named operations over groups, registers, splits, blocks, the frame pool and the trap coalescer, and
TAKING AN EXCEPTION (`takeTrap`) with the return from one (`returnTrap`) (R29–R44, R119, R244, R257–R267). -/

namespace Sys2Proof.Machine

/-- The result of executing an instruction. -/
abbrev Res := Host.Outcome State Fault Refusal

/-! ### Groups -/

/-- A group of the table by hearth × 128 + slot. -/
def State.grp (s : State) (k : Nat) : Option Group := tabGet s.groups k

/-- The state with a group replaced. -/
def State.setG (s : State) (k : Nat) (g : Group) : State := { s with groups := tabSet s.groups k g }

/-- The state with a resident group changed. -/
def State.modG (s : State) (k : Nat) (f : Group → Group) : State := { s with groups := tabMod s.groups k f }

/-- A group as what an instruction has read so far left it: a private line of it may have gone to its backing (R219). -/
def State.fresh (s : State) (k : Nat) (g : Group) : Group := (s.grp k).getD g

/-- The kernel a group was placed with, its handler's apart (R265, R266). -/
def Group.base (g : Group) : Kern :=
  match g.hnd with
  | some f => f.kern
  | none => g.kern

/-- The bytes of a group's private area that are in use: its threads' bytes and its split stack (R43, R217). -/
def Group.areaBytes (g : Group) : Nat := g.width * g.base.priv + 48 * g.base.sstack

/-- The hearth number 0–143 of a group key. -/
def hearthOf (k : Nat) : Nat := k / 128

/-- The partition number 0–3 of a group key (R21). -/
def partOf (k : Nat) : Nat := k % 128 / 32

/-- All threads of a width (R36: m0). -/
def fullMask (width : Nat) : Mask := BitVec.ofNat 128 (2 ^ width - 1)

/-- Scalar register n; s0 reads 0 (R36). -/
def Group.sGet (g : Group) (n : Nat) : SReg := if n = 0 then {} else tabD g.s n {}

/-- WriteS: scalar register n written; a write to s0 is discarded (R36, R86). -/
def Group.sSet (g : Group) (n : Nat) (x : SReg) : Group := if n = 0 then g else { g with s := tabSet g.s n x }

/-- Condition bit n. -/
def Group.cGet (g : Group) (n : Nat) : Bool := g.c.getLsbD n

/-- A bit vector with one bit written. -/
def setBit {w : Nat} (x : BitVec w) (n : Nat) (b : Bool) : BitVec w :=
  if b then x ||| BitVec.ofNat w (2 ^ n) else x &&& ~~~(BitVec.ofNat w (2 ^ n))

/-- Condition bit n written. -/
def Group.cSet (g : Group) (n : Nat) (b : Bool) : Group := { g with c := setBit g.c n b }

/-- Lane register r of thread t. -/
def Group.vGet (g : Group) (t r : Nat) : LReg := tabD g.v (t * 256 + r) {}

/-- Lane register r of thread t written. -/
def Group.vSet (g : Group) (t r : Nat) (x : LReg) : Group := { g with v := tabSet g.v (t * 256 + r) x }

/-- Mask register n; m0 reads all ones (R36). -/
def Group.mGet (g : Group) (n : Nat) : Mask := if n = 0 then fullMask g.width else tabD g.m n 0

/-- Mask register n written; a write to m0 is discarded (R36). -/
def Group.mSet (g : Group) (n : Nat) (x : Mask) : Group := if n = 0 then g else { g with m := tabSet g.m n x }

/-- The stoker PC advanced past an instruction. -/
def Group.adv (g : Group) (len : Nat) : Group := { g with spc := g.spc + BitVec.ofNat 64 len }

/-- The split in a PC slot. -/
def Group.split (g : Group) (slot : Nat) : Option Split := if slot = 0 then g.slot0 else g.slot1

/-- A PC slot written. -/
def Group.setSplit (g : Group) (slot : Nat) (x : Option Split) : Group :=
  if slot = 0 then { g with slot0 := x } else { g with slot1 := x }

/-- Group name by workgroup and index, which survives a save. -/
def Group.name (g : Group) : Nat × Nat := (g.wg, g.gidx)

/-- The key of a resident group by its name. -/
def State.keyOf (s : State) (n : Nat × Nat) : Option Nat := (s.groups.find? fun p => p.2.name == n).map (·.1)

/-- The executing block: the oldest that is not stopped (R29). -/
def Group.execBlock (g : Group) : Option Block := g.blocks.find? (·.st == .executing)

/-- The executing block changed. -/
def Group.modExec (g : Group) (f : Block → Block) : Group :=
  { g with blocks := g.blocks.map fun b => if b.st == .executing then f b else b }

/-- Interrupt vectors raised to the host, in order (R319). -/
def State.irq (s : State) (v : Nat) : State := { s with irqs := s.irqs ++ [v] }

/-- An event logged with its device time (R300, R306, R318). -/
def State.logE (s : State) (kind unit : Nat) (addr src gen : Nat := 0) : State :=
  { s with log := s.log ++ [⟨kind, unit, s.now, addr, src, gen⟩] }

/-- The device error interrupt (R319, vector 0) with its log entry. -/
def State.devError (s : State) (kind unit : Nat) (addr src gen : Nat := 0) : State := (s.logE kind unit addr src gen).irq 0

/-- A saturating counter of the state window raised by one (R318, R328). -/
def State.count (s : State) (n : Nat) : State :=
  { s with counters := tabSet s.counters n (min (tabD s.counters n 0 + 1) (2 ^ 64 - 1)) }

/-- The running command completes (R330). -/
def State.cmdDone (s : State) : State := { s with cmd := { s.cmd with status := 0, run := none } }

/-- The running command is refused (R330, R331). -/
def State.cmdRefuse (s : State) : State := { s with cmd := { s.cmd with status := 2, run := none } }

/-- The running command completes if it is this one on this subject. -/
def State.cmdEnd (s : State) (code subject : Nat) : State := if s.cmd.run = some (code, subject) then s.cmdDone else s

/-- A fresh stamp for free values (log 6). -/
def State.stamp (s : State) : State := { s with free := s.free + 1 }

/-- A fresh identifier. -/
def State.newId (s : State) : State := { s with nextId := s.nextId + 1 }

/-- A demotion counter in the clock of a pause: 18, or 19 where an earlier demotion is still in force (R204). -/
def pauseDem (n : Nat) : Nat := if 2 ≤ n && n != 18 then 19 else 18

/-- A pause (R111, R177, R204): from the next clock on the group is demoted for 16 issue opportunities of each kind. From
then on a counter is one more than the opportunities left; at 1 it has run out. -/
def Group.demote (g : Group) : Group := { g with sdem := pauseDem g.sdem, ldem := pauseDem g.ldem }

/-! ### Results in flight -/

/-- The values of an outstanding result that have come are written to their registers (R143). -/
def Group.writeOut (g : Group) (o : Out) : Group :=
  o.vals.foldl (fun g v => match v.val with
    | some x => g.vSet v.t v.r x
    | none => g) g

/-- Whether every value of an outstanding result has come. -/
def Out.complete (o : Out) : Bool := o.vals.all (·.val.isSome)

/-- An outstanding result has come. -/
def Out.arrived (o : Out) (clk : Nat) : Bool := o.complete && o.ready ≤ clk

/-- Whether an outstanding result is a load's (R108, R163, R191). -/
def Out.isLoad (o : Out) : Bool := !o.reqs.isEmpty || !o.ldvs.isEmpty

/-- A split's complete results written and dropped; the others stay outstanding. -/
def Group.landSplit (g : Group) (slot : Nat) : Group :=
  match g.split slot with
  | some sp =>
    let g := (sp.outs.filter (·.complete)).foldl Group.writeOut g
    g.setSplit slot (some { sp with outs := sp.outs.filter (!·.complete) })
  | none => g

/-- A split's complete results dropped, once written. -/
def Split.landed (sp : Split) : Split := { sp with outs := sp.outs.filter (!·.complete) }

/-- The results in flight of every split written as far as they have come (R263). -/
def Group.landAll (g : Group) : Group :=
  let g := (g.landSplit 0).landSplit 1
  let done := g.spilled.foldr (fun p acc => (p.2.outs.filter (·.complete)) ++ acc) []
  { done.foldl Group.writeOut g with spilled := g.spilled.map fun p => (p.1, p.2.landed) }

/-- A value brought to an outstanding result in a list of splits' results. -/
def fillOut (id t r : Nat) (x : LReg) (o : Out) : Out :=
  if o.id = id then { o with vals := o.vals.map fun v => if v.t = t && v.r = r then { v with val := some x } else v } else o

/-- The outstanding results of a split changed. -/
def Split.mapOuts (sp : Split) (f : Out → Out) : Split := { sp with outs := sp.outs.map f }

/-- The outstanding results of a group changed wherever its splits stand, the handler frame included. -/
def Group.mapOuts (g : Group) (f : Out → Out) : Group :=
  let many := fun (l : List (Nat × Split)) => l.map fun p => (p.1, p.2.mapOuts f)
  { g with
    slot0 := g.slot0.map (·.mapOuts f), slot1 := g.slot1.map (·.mapOuts f), spilled := many g.spilled,
    hnd := g.hnd.map fun h => { h with slot0 := h.slot0.map (·.mapOuts f), slot1 := h.slot1.map (·.mapOuts f), spilled := many h.spilled } }

/-- A value brought to an outstanding result of a group. -/
def Group.fill (g : Group) (id t r : Nat) (x : LReg) : Group := g.mapOuts (fillOut id t r x)

/-- An outstanding load or `ldv` given up, to be issued again first of all (R179). -/
def Out.retry (o : Out) : Out := { o with again := true, vals := o.vals.map fun v => { v with val := none } }

/-- The first occurrence of a number removed. -/
def removeOne (l : List Nat) (n : Nat) : List Nat :=
  match l with
  | [] => []
  | x :: r => if x = n then r else x :: removeOne r n

/-- A scalar result brought to its register; one issued before a handler was entered goes to the frame when the frame keeps
that register (R102, R263, R265). -/
def Group.deliverS (g : Group) (n : Nat) (x : SReg) : Group :=
  match g.hnd with
  | some f =>
    if f.sPend.contains n then
      if 1 ≤ n && n ≤ 15 then { g with hnd := some { f with s := tabSet f.s n x, sPend := removeOne f.sPend n } }
      else { g.sSet n x with hnd := some { f with sPend := removeOne f.sPend n } }
    else { g.sSet n x with sPend := removeOne g.sPend n }
  | none => { g.sSet n x with sPend := removeOne g.sPend n }

/-! ### Memory accesses of a group still to be performed -/

/-- The group has a write or atomic not yet performed (R97). -/
def State.pending (s : State) (n : Nat × Nat) : Bool := s.pend.any (·.owner == some n)

/-- Whether a pending access is an atomic. -/
def Pend.isAtomic (p : Pend) : Bool :=
  match p.kind with
  | .atomic _ _ _ _ _ _ _ | .codecAdd _ _ _ => true
  | _ => false

/-- Whether a destination is a register. -/
def Dst.isReg (d : Dst) : Bool :=
  match d with
  | .scalar _ _ | .lane _ _ _ => true
  | _ => false

/-- Whether a pending access will bring a result to a register. -/
def Pend.brings (p : Pend) : Bool :=
  match p.kind with
  | .atomic _ _ _ _ _ _ d | .lost d _ _ => d.isReg
  | .codecAdd _ _ adds => adds.any (·.dst.isReg)
  | _ => false

/-- The group has a result in flight: an atomic, or a load of another module, that has not come (R86, R263). -/
def State.inFlight (s : State) (n : Nat × Nat) : Bool := s.pend.any fun p => p.owner == some n && p.brings

/-- A split has an `ldv` outstanding some row of which has not come (R181). -/
def Split.awaits (sp : Split) : Bool := sp.outs.any fun o => !o.ldvs.isEmpty && !o.complete && !o.again

/-- Some split of the group has. -/
def Group.awaits (g : Group) : Bool := g.slot0.any Split.awaits || g.slot1.any Split.awaits || g.spilled.any fun p => p.2.awaits

/-- Whether a pending access is a load that gets no response (R325). -/
def Pend.isLost (p : Pend) : Bool :=
  match p.kind with
  | .lost _ _ _ => true
  | _ => false

/-- The place of a pending access: this module's memory, or the host's or another module's. -/
def Pend.outside (p : Pend) : Bool := bits (p.key / 2) 50 2 == 1 || bits (p.key / 2) 50 2 == 3

/-- The scopes of R61. -/
def scopeWg : Nat := 1
def scopeDev : Nat := 4
def scopeSys : Nat := 5

/-- A release at a scope waits for an earlier access: none at group scope, those to host memory and other modules at system scope
only, a load that is still out at every other (R100, R245). -/
def Pend.heldBy (p : Pend) (scope : Nat) : Bool := scope != 0 && (scopeSys ≤ scope || p.isLost || !p.outside)

/-- The stoker has an access not yet performed that a release at a scope waits for; the accesses of a retired block all are (R30,
R100, R245). -/
def State.stokerPending (s : State) (n : Nat × Nat) (scope : Nat) : Bool :=
  s.pend.any fun p => p.owner == some n && p.blk == 0 && p.heldBy scope

/-- The stoker has an atomic or a load whose value has not come: a later acquire fence waits for it (R101, R246). -/
def State.stokerReading (s : State) (n : Nat × Nat) : Bool :=
  s.pend.any fun p => p.owner == some n && p.blk == 0 && (p.isAtomic || p.isLost)

/-- A block of the group has an access not yet performed (R30). -/
def State.blockPending (s : State) (n : Nat × Nat) (blk : Nat) : Bool := s.pend.any fun p => p.owner == some n && p.blk == blk

/-- The group has an access with an identifier below a bound not yet performed that a release of a block at a scope waits for: its
stoker's, that block's, or an older block's (R35, R167, R245). -/
def State.pendingBelow (s : State) (n : Nat × Nat) (blk bound scope : Nat) : Bool :=
  s.pend.any fun p => p.owner == some n && p.blk ≤ blk && p.id < bound && p.heldBy scope

/-! ### Blocks -/

/-- Pending copies written to the stoker's registers in the block's program order (R33). -/
def Group.landPend (g : Group) (l : List PendW) : Group :=
  l.foldl (fun g p => match p with
    | .scalar n v => g.sSet n v
    | .cond n v => g.cSet n v) g

/-- The oldest block retired and its copies landed, once it is stopped and its accesses are performed (R30, R33); none
while `lwait` must wait. -/
def State.retireOldest (s : State) (g : Group) : Option Group :=
  match g.blocks with
  | [] => some g
  | b :: rest =>
    if b.st == .stopped && !s.blockPending g.name b.id then some ({ g with blocks := rest }.landPend b.pend) else none

/-- Every block retired in turn, oldest first (R97, R112); none while one must be waited for. -/
def State.retireAll (s : State) (g : Group) : Option Group :=
  match s.retireOldest g with
  | none => none
  | some g =>
    match s.retireOldest g with
    | none => none
    | some g => s.retireOldest g

/-- The snapshot an `lrun` takes (R31). -/
def Group.snap (g : Group) : Snap := { s := g.s, c := g.c, b := g.b, w := g.w, mode := g.mode }

/-- A block starts executing with one split of the given threads at its label (R29). -/
def Group.startBlock (g : Group) (b : Block) (mask : Mask) : Group :=
  { g with slot0 := some { pc := BitVec.ofNat 32 (12 * b.start), mask := mask }, slot1 := none, spilled := [] }

/-- A block enqueued; it executes at once when no block is executing (R29). -/
def Group.enqueue (g : Group) (id idx : Nat) (mask : Mask) : Group :=
  let b : Block := { id := id, start := idx, st := .queued, snap := g.snap }
  if g.execBlock.isNone then { g with blocks := g.blocks ++ [{ b with st := .executing }] }.startBlock b mask
  else { g with blocks := g.blocks ++ [b] }

/-- A block's state changed from one value to another. -/
def Block.become (a b : BlockSt) (x : Block) : Block := if x.st = a then { x with st := b } else x

/-- The executing block stops (R29, R176) and a queued block starts executing. -/
def Group.stopBlock (g : Group) : Group :=
  let g : Group :=
    { g with blocks := g.blocks.map (Block.become .executing .stopped), slot0 := none, slot1 := none, spilled := [] }
  match g.blocks.find? (·.st == .queued) with
  | some b => { g with blocks := g.blocks.map (Block.become .queued .executing) }.startBlock b (fullMask g.width)
  | none => g

/-! ### The frame pool (R244) -/

/-- Pool words of a die. -/
def State.pool (s : State) (d : Nat) : Pool := tabD s.pools d {}

/-- The pool-low latch after a change of COUNT: armed again above the mark, raised once below it (R244). -/
def State.setPool (s : State) (d : Nat) (p : Pool) : State :=
  if p.count.toNat < p.lowmark.toNat && !p.low then { s with pools := tabSet s.pools d { p with low := true } }.irq (5 + d)
  else { s with pools := tabSet s.pools d (if p.lowmark.toNat < p.count.toNat then { p with low := false } else p) }

/-- The frame at HEAD of a die's ring, if there is one. -/
def State.poolFrame (s : State) (d : Nat) : Option (BitVec 52) :=
  let p := s.pool d
  if p.count = 0 then none else some (BitVec.ofNat 52 (s.peekNat (p.ringbase.toNat + 8 * p.head.toNat) 8))

/-- A frame taken from HEAD: HEAD advances modulo RINGSIZE and COUNT falls by one; a frame held back is then written. -/
def State.poolTake (s : State) (d : Nat) : State :=
  let p := s.pool d
  let p' := { p with head := BitVec.ofNat 64 ((p.head.toNat + 1) % max p.ringsize.toNat 1), count := p.count - 1 }
  match p'.held with
  | [] => s.setPool d p'
  | f :: r =>
    let hd := (p'.head.toNat + p'.ringsize.toNat - 1) % max p'.ringsize.toNat 1
    (s.pokeRaw (p'.ringbase.toNat + 8 * hd) (leBytes 8 f.toNat)).setPool d
      { p' with head := BitVec.ofNat 64 hd, count := p'.count + 1, held := r }

/-- A frame returned: written to the entry before HEAD, HEAD moves back and COUNT rises; held by the die when full. -/
def State.poolReturn (s : State) (d : Nat) (f : BitVec 52) : State :=
  let p := s.pool d
  if p.count = p.ringsize then s.setPool d { p with held := p.held ++ [f] }
  else
    let hd := (p.head.toNat + p.ringsize.toNat - 1) % max p.ringsize.toNat 1
    (s.pokeRaw (p.ringbase.toNat + 8 * hd) (leBytes 8 f.toNat)).setPool d
      { p with head := BitVec.ofNat 64 hd, count := p.count + 1 }

/-- The frames a group took return to the pool; `handler` limits it to those its handler took (R118, R119). -/
def State.returnFrames (s : State) (k : Nat) (g : Group) (handler : Bool) : State :=
  g.frames.foldl (fun s f => if f.2 || !handler then s.poolReturn (dieOf (hearthOf k)) f.1 else s) s

/-! ### The trap coalescer and the fault queue (R258–R262) -/

/-- The cause word of R258. -/
def causeWord (t : Trap) (inh noh cont : Bool) : BitVec 16 :=
  let b := fun (x : Bool) n => if x then 2 ^ n else 0
  BitVec.ofNat 16 (t.code + b t.malf 8 + b t.wr 9 + b t.at_ 10 + b inh 11 + b t.ldv 12 + b noh 13 + b t.pool 14 + b cont 15)

/-- The 48 bytes of a split-stack entry (R43); `rec` forms of R262 reuse its fields. -/
def SplitSt.code : SplitSt → Nat
  | .ready => 0
  | .atJoin => 1
  | .rotated => 2
  | .atLstop => 3

/-- A split in the 48-byte form of R43. -/
def Split.entry (sp : Split) : List Byte :=
  leBytes 4 sp.pc.toNat ++ leBytes 4 sp.st.code ++ leBytes 16 sp.mask.toNat ++
    leBytes 16 (if sp.st == .atJoin then sp.j.toNat else 0) ++ leBytes 8 0

/-- A continuation record (R262). -/
def contRecord (cause : BitVec 16) (h ctx i : Nat) (sp : Split) : List Byte :=
  leBytes 2 cause.toNat ++ leBytes 1 (dieOf h) ++ leBytes 1 (h % 36) ++ leBytes 4 ctx ++ leBytes 1 i ++ leBytes 1 sp.st.code ++
    leBytes 2 0 ++ leBytes 4 sp.pc.toNat ++ leBytes 16 sp.mask.toNat ++
    leBytes 16 (if sp.st == .atJoin then sp.j.toNat else 0) ++ leBytes 16 0

/-- The split table in the order of R262: resident splits, then spilled splits oldest first. -/
def Group.table (g : Group) : List Split := g.slot0.toList ++ g.slot1.toList ++ g.spilled.map (·.2)

/-- The 64 bytes of a trap record (R259). -/
def Rec.bytes (r : Rec) : List Byte :=
  leBytes 2 r.cause.toNat ++ leBytes 1 (dieOf r.hearth) ++ leBytes 1 (r.hearth % 36) ++ leBytes 4 r.ctx ++
    leBytes 8 r.addr.toNat ++ leBytes 8 r.time ++ leBytes 16 r.gslots.toNat ++ leBytes 16 r.tmask.toNat ++
    leBytes 4 r.lpc.toNat ++ leBytes 1 r.size ++ leBytes 1 (if r.stoker then 1 else 0) ++ leBytes 2 0

/-- Codes whose records are never merged (R260). -/
def neverMerged (code : Nat) : Bool := code == 0x0E || code == 0x0F || code == 0x16 || code == 0x17

/-- A trap delivered to the queue reaches its hearth's coalescer (R260): it merges into an open record with the same
context, cause word and 64 KiB page, or opens one; with 16 in use the oldest open one is closed to be delivered first, and the
new one is held until one of the 16 is written. -/
def State.coalesce (s : State) (k ctx : Nat) (cause : BitVec 16) (t : Trap) (cont : List (List Byte)) : State :=
  let h := hearthOf k
  let slot := k % 128
  let hit := fun (r : Rec) => r.hearth == h && !r.closed && !r.held && r.ctx == ctx && r.cause == cause &&
    r.addr.toNat / 65536 == t.addr.toNat / 65536 && !neverMerged t.code
  if s.recs.any hit then
    { s with
      recs := s.recs.map fun r =>
        if hit r then
          let r' := { r with gslots := setBit r.gslots slot true }
          if slot < r.low then
            { r' with addr := t.addr, tmask := t.tmask, lpc := t.pc, size := t.size, stoker := t.stoker, low := slot }
          else r'
        else r }
  else
    let mine := s.recs.filter fun r => r.hearth == h && !r.held && !r.kept
    let full := decide (16 ≤ mine.length)
    let r : Rec :=
      { hearth := h, ctx := ctx, cause := cause, addr := t.addr, time := t.time.getD s.now, gslots := setBit 0 slot true,
        tmask := t.tmask, lpc := t.pc, size := t.size, stoker := t.stoker, opened := s.now, cont := cont, low := slot, held := full }
    match (if full then mine.find? (!·.closed) else none) with
    | some old => { s with recs := s.recs.map (fun x => if x == old then { x with closed := true } else x) ++ [r] }
    | none => { s with recs := s.recs ++ [r] }

/-- The fault queue words of a die. -/
def State.fq (s : State) (d : Nat) : FaultQ := tabD s.faultq d {}

/-- The ring has room for a record (R261). -/
def FaultQ.room (q : FaultQ) : Bool := 128 ≤ q.size.toNat && (q.tail.toNat + 64) % q.size.toNat != q.head.toNat

/-! ### Readers (R181, R230) -/

/-- The reader of the instruction or event under way: the stoker or a split of a group that issues, an engine's operation, or a
projection (log 57). -/
def State.reader (s : State) : Nat × Nat :=
  match s.cur with
  | some (.stoker k) => (0, k)
  | some (.lane k slot) => (1 + slot, k)
  | none => (3, s.ev.a)

/-- The kind of reader a projection is. -/
def readerProj : Nat := 4

/-- A load that gets no response loses the reader that waits for it. -/
def Pend.forget (p : Pend) (f : Nat × Nat → Bool) : Pend :=
  match p.kind with
  | .lost (.reader who _) w pc => if f who then { p with kind := .lost .none w pc } else p
  | _ => p

/-- What was served to readers is used up, and their waiting reads have no reader any more: the instruction has completed, has
trapped or is given up. -/
def State.forgetAll (s : State) (f : Nat × Nat → Bool) : State :=
  { s with
    served := s.served.filter fun x => !f x.who,
    pend := s.pend.map (·.forget f),
    homes := s.homes.map fun p =>
      (p.1, { p.2 with waiting := p.2.waiting.map fun w => if w.who.any f then { w with who := none } else w }) }

/-- A reader's instruction has ended. -/
def State.forget (s : State) (who : Nat × Nat) : State := s.forgetAll (· == who)

/-- The instructions a group waits in are given up: they issue again from the start or not at all (R108, R198, R263). -/
def State.forgetGroup (s : State) (k : Nat) : State := s.forgetAll fun x => x.1 < 3 && x.2 == k

/-! ### Taking a trap and returning from one -/

/-- Delivery of a cause (R257): some true is always the handler, some false always the queue, none by HMASK. -/
def fixedDelivery (code : Nat) : Option Bool :=
  match code with
  | 0x04 | 0x05 => some true
  | 0x06 | 0x0C | 0x0D | 0x0E | 0x0F | 0x16 | 0x17 | 0x18 => some false
  | _ => none

/-- Whether a cause runs the context's supervisor handler (R257). -/
def toHandler (c : Ctx) (code : Nat) : Bool := (fixedDelivery code).getD (c.hmask.getLsbD code)

/-- The handler kernel HENTRY names, if it is usable from die d (R265, R266). -/
def State.handlerKern (s : State) (d : Nat) (c : Ctx) : Option Kern :=
  match s.kernelAt d c c.hentry with
  | some k =>
    if k.width == 32 && k.vregs ≤ 8 && k.team == 0 && k.scratch == 0 && k.priv == 0 && k.sstack == 0 then some k else none
  | none => none

/-- Codes taken between two instructions, after which the group resumes past the point they were taken (R265, R267). -/
def resumesAfter (code : Nat) : Bool := code == 0x04 || code == 0x14 || code == 0x15

/-- MODE at its reset values, CHK kept (R38, R265). -/
def resetMode (mode : BitVec 32) : BitVec 32 := 1 ||| (mode &&& 0x200)

/-- The access bits of s2 at handler entry (R243, R265). -/
def accessBits (t : Trap) : W64 :=
  BitVec.ofNat 64 ((if t.wr then 1 else 0) + (if t.at_ then 2 else 0) + (if t.stoker && (t.size != 0 || t.code == 0x05) then 4 else 0) +
    (if t.ldv then 8 else 0))

/-- Handler entry (R265): the frame is saved, the resident splits leave their slots, MODE is reset, the entry registers are
written and the stoker starts at the handler kernel. -/
def Group.enterHandler (g : Group) (kern : Kern) (t : Trap) (bound : Nat) : Group :=
  let f : HFrame :=
    { s := g.s.filter fun p => p.1 ≤ 15, c := g.c, b := g.b.filter fun p => p.1 ≤ 3, mode := g.mode, spc := g.spc,
      m1 := g.mGet 1, v := g.v.filter fun p => p.1 % 256 ≤ 7, blocks := g.blocks, slot0 := g.slot0, slot1 := g.slot1,
      spilled := g.spilled, last := g.last, kern := g.kern, cause := t, sPend := g.sPend, redo := g.redo,
      bound := bound }
  let put := fun (g : Group) n x => g.sSet n ⟨x, false⟩
  let g := { g with hnd := some f, blocks := [], slot0 := none, slot1 := none, spilled := [], mode := resetMode g.mode,
                    kern := kern, spc := 0, sPend := [], redo := [] }
  let g := put (put (put g 1 t.addr) 2 (accessBits t)) 3 t.s3
  put (put (put (put g 4 (zx64 (causeWord t false false false))) 5 (if resumesAfter t.code then f.spc else zx64 t.pc)) 6 0) 7
    (if t.stoker then 1 else 0)

/-- The 8 KiB of a group's handler frame at HFRAME written (R265); the manual gives no layout, so their bytes are free (log 18). -/
def State.writeFrame (s : State) (c : Ctx) (k : Nat) : State :=
  s.stamp.pokeRaw (c.hframe + 8192 * k) ((List.range 8192).map (Config.frameByte s.free))

/-- The group suspended on an escalated trap, its record handed to the coalescer (R221, R264). -/
def State.escalate (s : State) (k : Nat) (g : Group) (t : Trap) (inh noh : Bool) : State :=
  let cause := causeWord t inh noh false
  let cont := if t.code == 0x0E || t.code == 0x0F then
      (enumFrom 0 g.table).map fun p => contRecord (causeWord t inh noh true) (hearthOf k) g.ctx p.1 p.2
    else []
  (s.setG k { g with susp := some t }).coalesce k g.ctx cause t cont

/-- A group's arrival at `mma` withdrawn (R263, R340): its waiting instruction has not executed. -/
def State.withdraw (s : State) (g : Group) : State :=
  { s with
    wgs := tabMod s.wgs g.wg fun w =>
      { w with
        teams := (w.teams.map fun (p : Nat × TeamArr) =>
          (p.1, { p.2 with members := p.2.members.filter fun (m : Nat × W64) => m.1 != g.gidx })).filter fun (p : Nat × TeamArr) =>
            !p.2.members.isEmpty } }

/-- A waiting group's arrival at a barrier withdrawn: a suspended group has not arrived (R212, R263). -/
def Group.leaveBarrier (g : Group) : Group :=
  match g.arrived with
  | some true => { g with gbars := g.gbars - 1, arrived := none }
  | some false => { g with wgbars := g.wgbars - 1, arrived := none }
  | none => g

/-- The stoker's waiting instruction left unexecuted: it issues again from the start (R88, R263). -/
def Group.giveUp (g : Group) : Group := { g.leaveBarrier with sWait := false, launching := none, got := none }

/-- A trap delivered once the group has stopped and its results in flight are written: to the supervisor handler or, suspended, to
the coalescer. One raised in a handler always escalates (R86), with the code of its cause and INH, an absent page's 0x05 too although R241
lists a fault raised in a handler among the illegal accesses (DESIGN CHOICE, log 80); one the context's handler cannot serve goes to the
queue with NOH (R264, R265). -/
def State.deliverTrap (s : State) (k : Nat) (g : Group) (t : Trap) : State :=
  if g.hnd.isSome then s.escalate k g t true false
  else
    let c := tabD s.ctxs g.ctx {}
    if toHandler c t.code then
      match s.handlerKern (dieOf (hearthOf k)) c with
      | some kern => (s.writeFrame c k).setG k (g.enterHandler kern t s.nextId)
      | none => s.escalate k g t false true
    else s.escalate k g t false false

/-- TAKING A TRAP (R263–R265), the one operation for every cause: the group stops at the boundary, its waiting instructions are left
unexecuted, results in flight are written, and the trap is delivered. While an atomic's result, a load of another module or the row of an
`ldv` has not come, the trap is raised, with the time of it, and the group stops until it has. -/
def takeTrap (s : State) (k : Nat) (g : Group) (t : Trap) : State :=
  let g := { g.giveUp with yielded := none, raised := none }
  let s := (s.forgetGroup k).withdraw g
  if s.inFlight g.name || g.awaits then s.setG k { g with raised := some { t with time := some (t.time.getD s.now) } }
  else s.deliverTrap k g.landAll t

/-- A split's PC moved past an instruction of 12 bytes. -/
def Split.skip (sp : Split) : Split := { sp with pc := sp.pc + 12 }

/-- The load a split was issuing again given up. -/
def Split.skipAgain (sp : Split) : Split :=
  { sp with outs := (sp.outs.filter (·.again)).drop 1 ++ sp.outs.filter (!·.again) }

/-- The faulting instruction skipped (R267): the stoker PC past its word or `slit` unit, what the stoker or the split was issuing again
after a save given up (R88, R179, R198), or the faulting split's lane PC. -/
def Group.skipFault (g : Group) (t : Trap) : Group :=
  if t.stoker && t.len = 0 then { g with redo := g.redo.drop 1 }
  else if t.stoker then g.adv t.len
  else if t.len = 0 then g.setSplit t.slot ((g.split t.slot).map Split.skipAgain)
  else g.setSplit t.slot ((g.split t.slot).map Split.skip)

/-- A table's low entries replaced by saved ones: keys for which `low` holds come from the saved table. -/
def restoreLow {α : Type} (low : Nat → Bool) (saved now : Tab α) : Tab α :=
  saved.foldl (fun t p => tabSet t p.1 p.2) (now.filter fun p => !low p.1)

/-- A split as it enters a PC slot: a rotated one is ready again, and its rotation count starts at 0 (R173, R209). -/
def Split.enter (sp : Split) : Split :=
  { sp with st := if sp.st = .rotated then .ready else sp.st, rot := 0, waiting := false }

/-- The frame of a handler restored (R118, R119, R267): registers, MODE, blocks and splits as they stood at entry. -/
def Group.restoreFrame (g : Group) (f : HFrame) : Group :=
  { g with
    hnd := none, s := restoreLow (· ≤ 15) f.s g.s, c := f.c, b := restoreLow (· ≤ 3) f.b g.b, mode := f.mode, spc := f.spc,
    m := tabSet g.m 1 f.m1, v := restoreLow (· % 256 ≤ 7) f.v g.v, blocks := f.blocks, slot0 := f.slot0.map Split.enter, slot1 := f.slot1.map Split.enter,
    spilled := f.spilled, last := f.last, kern := f.kern, frames := g.frames.filter (!·.2), sPend := g.sPend ++ f.sPend,
    redo := f.redo }

/-- Return from a handler (R118, R267): the frame comes back, and the streams resume at the faulting instruction, or past it
when the handler left S[6][0] = 1 and the cause allows skipping. -/
def Group.returnTrap (g : Group) (f : HFrame) : Group :=
  if (g.sGet 6).val.getLsbD 0 && !resumesAfter f.cause.code then (g.restoreFrame f).skipFault f.cause else g.restoreFrame f

/-- A stoker instruction raises a precise trap (R86): the saved PC names the instruction. -/
def State.trapS (s : State) (k : Nat) (g : Group) (t : Trap) (len : Nat := 4) : State :=
  takeTrap s k g { t with stoker := true, tmask := fullMask g.width, pc := g.spc.setWidth 32, len := len }

/-- A lane instruction raises a precise trap (R71, R259): faulting threads and PC of its split. -/
def State.trapL (s : State) (k slot : Nat) (g : Group) (sp : Split) (t : Trap) (threads : Mask) : State :=
  takeTrap s k g { t with stoker := false, tmask := threads, pc := sp.pc, slot := slot, len := 12 }

/-! ### The issuing stream -/

/-- A stoker instruction acts on the group whose stoker is issuing. -/
def onStoker (s : State) (f : Nat → Group → State) : Res :=
  match s.cur with
  | some (.stoker k) =>
    match s.grp k with
    | some g => .next (f k g)
    | none => .fault .noStream
  | _ => .fault .noStream

/-- A lane instruction acts on the split of the PC slot that is issuing. -/
def onLane (s : State) (f : Nat → Nat → Group → Split → State) : Res :=
  match s.cur with
  | some (.lane k slot) =>
    match s.grp k with
    | some g =>
      match g.split slot with
      | some sp => .next (f k slot g sp)
      | none => .fault .noStream
    | none => .fault .noStream
  | _ => .fault .noStream

/-- A waiting stoker instruction has not executed (R88): it issues again later. -/
def State.waitS (s : State) (k : Nat) : State := s.modG k fun g => { g with sWait := true }

/-- A waiting lane instruction has not issued (R304): it issues again later. -/
def State.waitL (s : State) (k slot : Nat) : State :=
  s.modG k fun g => g.setSplit slot ((g.split slot).map fun sp => { sp with waiting := true })

/-- An event acts on the whole state. -/
def onEvent (s : State) (f : State → State) : Res := .next (f s)

end Sys2Proof.Machine
end

