-- ==== Sys2Proof/Machine/Trace.lean ====
section
/-! DEFINITION. Recorded mode: the run-time clock, the trace ring's records, and what a record run logs and a replay takes from
its log (R41, R332–R335). -/

namespace Sys2Proof.Machine

/-- Whether an address is the host's memory, or another module's (R225). -/
def isHost (pa : Nat) : Bool := bits pa 50 2 == 1
def isOther (pa : Nat) : Bool := bits pa 50 2 == 3

/-- The groups of the context in recorded mode wait on the ring: a full one while it records, in a replay an event whose record has not
been placed yet (R333, R335). -/
def Recd.waits (r : Recd) : Bool := r.active && if r.replay then r.hold else r.stalled

/-- An event of a replay needs a record that the log does not hold yet (R335). -/
def Recd.short (r : Recd) : Recd := { r with stalled := true, hold := true }

/-- A context is in recorded mode (R332). -/
def State.recording (s : State) (ctx : Nat) : Bool := s.recd.active && s.recd.ctx == ctx

/-- Lexicographic order of lists of keys. -/
def rankLt : List Nat → List Nat → Bool
  | a :: r, b :: q => a < b || (a == b && rankLt r q)
  | _, _ => false

/-- The element with the smallest keys, the first of equals. -/
def firstBy {α : Type} (f : α → List Nat) : List α → Option α
  | [] => none
  | x :: r =>
    match firstBy f r with
    | some y => if rankLt (f y) (f x) then some y else some x
    | none => some x

/-- The place of a request at an arbiter: those of the context in recorded mode go in the fixed order of hearth and group slot (R332), and
before those of other contexts, which keep the order they came in (DESIGN CHOICE, log 74). `k` is hearth × 128 + group slot. -/
def State.turn (s : State) (ctx k : Nat) : List Nat := if s.recording ctx then [0, k] else [1]

/-- The run-time clock of a context (R41, R333). -/
def State.runClock (s : State) (ctx : Nat) : Nat := (tabD s.ctxs ctx {}).run + 1

/-- The 32 bytes of a trace record (R333). -/
def traceBytes (ty die clk : Nat) (payload : List Byte) : List Byte :=
  leBytes 1 ty ++ leBytes 1 die ++ leBytes 6 0 ++ leBytes 8 clk ++ (payload ++ List.replicate (16 - payload.length) 0)

/-- A record appended in record mode; it waits in the device until it is written to the ring (R333). -/
def State.trace (s : State) (ctx ty die : Nat) (payload : List Byte) : State :=
  if s.recording ctx && !s.recd.replay then
    { s with recd := { s.recd with pend := s.recd.pend ++ [traceBytes ty die (s.runClock ctx) payload] } }
  else s

/-- The payload of a type 2 record: address and length (R333). -/
def datumHead (pa : Nat) (data : List Byte) : List Byte := leBytes 8 pa ++ leBytes 8 data.length

/-- The further records a datum fills, the last one to its end with zeros (R333). -/
def datumBody (data : List Byte) : List (List Byte) := (chunks 32 data).map fun b => b ++ List.replicate (32 - b.length) 0

/-- An inbound datum recorded: its head, directly followed by its bytes (R333). -/
def State.traceDatum (s : State) (die pa : Nat) (data : List Byte) : State :=
  if s.recd.active && !s.recd.replay then
    let s := s.trace s.recd.ctx 2 die (datumHead pa data)
    { s with recd := { s.recd with pend := s.recd.pend ++ datumBody data } }
  else s

/-- The byte an offset beyond TAIL holds, modulo TSIZE (R335). -/
def State.logByte (s : State) (i : Nat) : Byte := memGet s.mem (s.recd.tbase + (s.recd.tail + i) % max s.recd.tsize 32)

/-- The next record of the log, while one is available (R334, R335). -/
def State.nextRecord (s : State) : Option (List Byte) :=
  if s.recd.tail = s.recd.head then none else some ((List.range 32).map s.logByte)

/-- n records consumed; STALLED is set once TAIL equals HEAD (R335). -/
def State.consumeRecords (s : State) (n : Nat) : State :=
  let tail := (s.recd.tail + 32 * n) % max s.recd.tsize 32
  { s with recd := { s.recd with tail := tail, count := s.recd.count + n, stalled := s.recd.stalled || tail == s.recd.head } }

/-- The records a datum of n bytes takes. -/
def datumRecords (n : Nat) : Nat := 1 + (n + 31) / 32

/-- Whether n records are available (R335). -/
def State.logHolds (s : State) (n : Nat) : Bool :=
  n ≤ (s.recd.head + max s.recd.tsize 32 - s.recd.tail) % max s.recd.tsize 32 / 32

/-- The fields of a record: type, clock, and the two words of its payload. -/
def recType (b : List Byte) : Nat := leNat (b.take 1)
def recClock (b : List Byte) : Nat := leNat ((b.drop 8).take 8)
def recWord (b : List Byte) (i : Nat) : Nat := leNat ((b.drop (16 + 8 * i)).take 8)

/-- A group suspended by the device itself, with no trap of its own: the cause code 0 names none (R334). -/
def Group.halt (g : Group) : Group := if g.susp.isNone then { g with susp := some { code := 0 } } else g

/-- Replay met an event its log does not hold: MISMATCH is set, the context's groups, resident or saved, are suspended and the device
error interrupt is raised (R334). -/
def State.mismatch (s : State) : State :=
  if s.recd.mismatch then s else
  let stop := fun (p : Nat × Group) => if p.2.ctx = s.recd.ctx then (p.1, p.2.halt) else p
  let s : State :=
    { s with groups := s.groups.map stop, saved := s.saved.map fun (v : Saved) => { v with groups := v.groups.map stop } }
  ({ s with recd := { s.recd with mismatch := true } } : State).devError 9 0

/-- A read of `%time` by a group (R41, R333, R334): device time, logged; in replay the logged value of the record for this
group at this clock. None while the log has no record yet. -/
def State.timeRead (s : State) (k ctx : Nat) : State × Option Nat :=
  let who := leBytes 1 (hearthOf k % 36) ++ leBytes 1 (k % 128) ++ leBytes 6 0
  if s.recording ctx && s.recd.replay then
    match s.nextRecord with
    | none => ({ s with recd := s.recd.short }, none)
    | some b =>
      if b.take 24 = (traceBytes 3 (dieOf (hearthOf k)) (s.runClock ctx) who).take 24 then
        (s.consumeRecords 1, some (recWord b 1))
      else (s.mismatch, none)
  else (s.trace ctx 3 (dieOf (hearthOf k)) (who ++ leBytes 8 s.now), some s.now)

/-- A completion of a recorded context's own read of host memory or of another module (R333, R334): logged with its bytes, and in replay
taken from the log. None while the log has no record yet. -/
def State.ownRead (s : State) (h ctx pa : Nat) (data : List Byte) : State × Option (List Byte) :=
  if !s.recording ctx || !(isHost pa || isOther pa) || data.isEmpty then (s, some data)
  else if !s.recd.replay then (s.traceDatum (dieOf h) pa data, some data)
  else
    match s.nextRecord with
    | none => ({ s with recd := s.recd.short }, none)
    | some b =>
      if b != traceBytes 2 (dieOf h) (s.runClock ctx) (datumHead pa data) then (s.mismatch, none)
      else if !s.logHolds (datumRecords data.length) then ({ s with recd := s.recd.short }, none)
      else (s.consumeRecords (datumRecords data.length), some ((List.range data.length).map fun i => s.logByte (32 + i)))

/-- Reads of one instruction logged, or taken from the log (R333, R334): physical address and bytes of each. -/
def State.ownReads (s : State) (h ctx : Nat) : List (Nat × List Byte) → State × Option (List (List Byte))
  | [] => (s, some [])
  | x :: r =>
    match s.ownRead h ctx x.1 x.2 with
    | (s, none) => (s, none)
    | (s, some b) =>
      match s.ownReads h ctx r with
      | (s, some l) => (s, some (b :: l))
      | (s, none) => (s, none)

/-- The records of reads that a step has to make again are taken back. -/
def State.undoTrace (s s0 : State) : State :=
  if s.recd.mismatch then s
  else { s with recd := { s0.recd with stalled := s0.recd.stalled || s.recd.hold, hold := s.recd.hold } }

/-- The log can serve a read of n bytes of a recorded context (R334, R335). -/
def State.logReady (s : State) (ctx pa n : Nat) : Bool :=
  !(s.recording ctx && s.recd.replay && (isHost pa || isOther pa)) || (!s.recd.mismatch && s.logHolds (datumRecords n))

end Sys2Proof.Machine
end

