-- ==== Sys2Proof/Machine/L2.lean ====
section
/-! DEFINITION. Lines and their homes, the sets and ways of L1 and L2, what enters and leaves them, and lossless compression to HBM
(R217–R219, R224–R229, R231, R233, R275, R291, R301, R308, R309, R313–R315, R321). The current value of a line is its home's: an
L1 line is a tag, because no write is performed while a copy may be read (R230, R310; log 10). -/

namespace Sys2Proof.Machine

/-! ### Lines and their homes -/

/-- The key of a physical line: twice its address. -/
def physKey (pa : Nat) : Nat := 2 * (pa / 128 * 128)

/-- The key of a decoded codec line: the group's first backing line and the line's place in the group (R275). -/
def codecKey (r : Region) (off : Nat) : Nat :=
  2 * (r.back + off / 1024 * (16 * codecRate r.rate) + off % 1024 / 128) + 1

/-- Whether a key names a decoded codec line. -/
def isCodecKey (key : Nat) : Bool := key % 2 == 1

/-- The physical address of a line, or of a codec group's first backing line. -/
def keyPa (key : Nat) : Nat := key / 2 / 128 * 128

/-- The home die and slice of a line (R226, R275, R321). -/
def homeOf (key : Nat) : Nat × Nat :=
  let pa := keyPa key
  match bits pa 50 2 with
  | 1 => (pa % 2 ^ 50 / 128 % 4, pa % 2 ^ 50 / 128 / 4 % 24)
  | _ => (bits pa 38 2, bits pa 9 29 % 24)

/-- The 512-byte region of a line, the unit of the directory (R309). -/
def regionOf (key : Nat) : Nat := keyPa key / 512

/-- The line's place in its region. -/
def lineInRegion (key : Nat) : Nat := keyPa key / 128 % 4

/-- The key of the line a translated address lies in. -/
def State.keyOfTr (s : State) (c : Ctx) (t : Tr) : Nat :=
  match t.creg with
  | some n => codecKey (s.region c n) t.pa
  | none => physKey t.pa

/-- A home line's record. -/
def State.home (s : State) (key : Nat) : Home := tabD s.homes key {}

/-- A home line's record changed. -/
def State.modHome (s : State) (key : Nat) (f : Home → Home) : State := { s with homes := tabSet s.homes key (f (s.home key)) }

/-- Whether a home's mark covers a line: of its page's frame, or of the backing of a codec page's groups (R298). -/
def Mark.covers (m : Mark) (key : Nat) : Bool :=
  match m.pa with
  | some p => !isCodecKey key && p ≤ keyPa key && keyPa key < p + m.size
  | none => isCodecKey key && m.back.1 ≤ key / 2 && key / 2 < m.back.1 + m.back.2

/-- Whether a home's mark covers a physical address: of its page's frame, or of a codec page's backing (R298, R300). -/
def Mark.reaches (m : Mark) (pa : Nat) : Bool :=
  match m.pa with
  | some p => p ≤ pa && pa < p + m.size
  | none => m.back.1 ≤ pa && pa < m.back.1 + m.back.2

/-- The mark over a line (R298). -/
def State.markOn (s : State) (key : Nat) : Option Mark := s.marks.find? (·.covers key)

/-- The mark of a frozen page over a physical address (R298, R300). -/
def State.markAt (s : State) (pa : Nat) : Option Mark := s.marks.find? fun m => m.frozen && m.reaches pa

/-- The mark of a context's page (R298). -/
def State.markOf (s : State) (ctx : Nat) (page : W64) : Option Mark := s.marks.find? fun m => m.ctx == ctx && m.va == page

/-- The generation the copies of a line carry while its home holds it frozen (R301); none while the page thaws, when reads take
ordinary leases (R303). -/
def State.frozenGen (s : State) (key : Nat) : Option Nat :=
  (s.markOn key).bind fun m => if m.frozen && !m.thawing then some m.gen else none

/-! ### L1 (R227, R228, R233, R301) -/

/-- The L1 set of a global line's copy, by its key; the index is its line number's low bits (PRESUMED, log 13). -/
def l1SetOf (key : Nat) : Nat := if isCodecKey key then key / 2 % 512 else keyPa key / 128 % 512

/-- The L1 set of a tag. -/
def l1Set (l : L1Line) : Nat :=
  match l.kind with
  | .view => (l.token + 64 * l.slot + l.key) % 512
  | _ => l1SetOf l.key

/-- The lines of a hearth's set, most recently used first. -/
def State.l1Lines (s : State) (h set : Nat) : List L1Line := tabD s.l1 (512 * h + set) []

/-- Every line of a hearth. -/
def State.l1All (s : State) (h : Nat) : List L1Line :=
  (s.l1.filter fun p => p.1 / 512 == h).foldr (fun p acc => p.2 ++ acc) []

/-- A hearth's lines that satisfy a test dropped. -/
def State.l1Drop (s : State) (h : Nat) (f : L1Line → Bool) : State :=
  { s with l1 := s.l1.map fun p => if p.1 / 512 = h then (p.1, p.2.filter fun l => !f l) else p }

/-- A copy that may be read: before its expiry, and of the page's current freeze generation (R230, R301). -/
def L1Line.live (l : L1Line) (now : Nat) (gen : Option Nat) : Bool := l.exp.all (now < ·) && (l.fgen == none || l.fgen == gen)

/-- A copy of a global line that a load may hit. -/
def L1Line.holds (l : L1Line) (key : Nat) : Bool := (l.kind == .leased || l.kind == .codec || l.kind == .lent) && l.key == key

/-- The view lines a hearth derived from a latent line die, and a row being formed from it is neither installed nor joined (R195). -/
def State.killViews (s : State) (h key : Nat) : State :=
  { s.l1Drop h fun l => l.kind == .view && l.deps.contains key with
    projs := s.projs.map fun p => if p.hearth = h && p.deps.contains key then { p with stale := true } else p }

/-- The live copy of a line in a hearth's L1, lent lines included. -/
def State.l1Copy (s : State) (h key : Nat) (gen : Option Nat) : Option L1Line :=
  (s.l1Lines h (l1SetOf key)).find? fun l => l.holds key && l.live s.now gen

/-- A lent line goes back to its home (R233). -/
def State.returnLine (s : State) (key : Nat) : State :=
  match (s.home key).lent with
  | some h =>
    (s.modHome key fun x => { x with lent := none, recalled := false }).l1Drop h fun l => l.kind == .lent && l.key == key
  | none => s

/-! ### Lossless compression (R313, R314) -/

/-- Every element of a list is the first one plus a delta that fits a number of bytes (R313). -/
def deltasFit (size dBytes : Nat) (l : List Nat) : Bool :=
  l.all fun x => (sx64 (BitVec.ofNat (8 * dBytes) (x + 2 ^ (8 * size) - l.headD 0))).toNat % 2 ^ (8 * size) ==
    (x + 2 ^ (8 * size) - l.headD 0) % 2 ^ (8 * size)

/-- The metadata code of a line: the encoding of least stored size, of those the lowest code (R313, R314). -/
def lineCode (b : List Byte) : Nat :=
  let e4 := (chunks 4 b).map leNat
  let e8 := (chunks 8 b).map leNat
  if b.all (· == 0) then 1
  else if e4.all (· == e4.headD 0) then 2
  else if e8.all (· == e8.headD 0) then 3
  else if deltasFit 8 1 e8 then 4
  else if deltasFit 8 2 e8 then 5
  else if deltasFit 4 1 e4 then 6
  else if deltasFit 4 2 e4 then 7
  else 0

/-- Element and delta size of the encodings with a base (R313). -/
def deltaSizes (code : Nat) : Nat × Nat :=
  match code with
  | 4 => (8, 1)
  | 5 => (8, 2)
  | 6 => (4, 1)
  | _ => (4, 2)

/-- The bytes a line occupies under a code (R313). -/
def storedSize (code : Nat) : Nat :=
  match code with
  | 0 => 128
  | 1 => 0
  | 2 | 3 | 4 => 32
  | 5 | 6 => 64
  | _ => 96

/-- The content stored for a line under a code, its last granule filled with zeros (R313). -/
def lineStored (code : Nat) (b : List Byte) : List Byte :=
  let body :=
    match code with
    | 0 => b
    | 1 => []
    | 2 => b.take 4
    | 3 => b.take 8
    | _ =>
      let (n, k) := deltaSizes code
      let e := (chunks n b).map leNat
      b.take n ++ e.foldr (fun x acc => leBytes k (x + 2 ^ (8 * n) - e.headD 0) ++ acc) []
  body ++ List.replicate (storedSize code - body.length) 0

/-- The line a stored content stands for under a code (R313, R314). -/
def lineExpand (code : Nat) (b : List Byte) : List Byte :=
  match code with
  | 0 => b
  | 1 => List.replicate 128 0
  | 2 => (List.replicate 32 (b.take 4)).flatten
  | 3 => (List.replicate 16 (b.take 8)).flatten
  | _ =>
    let (n, k) := deltaSizes code
    let base := leNat (b.take n)
    (chunks k ((b.drop n).take (128 / n * k))).foldr (fun d acc =>
      leBytes n (base + (sx64 (BitVec.ofNat (8 * k) (leNat d))).toNat) ++ acc) []

/-- The region table entry whose backing holds a line, with its context's table (R275, R291, R314). -/
def State.backingOf (s : State) (pa : Nat) : Option Region :=
  s.ctxs.findSome? fun (p : Nat × Ctx) => (List.range 32).findSome? fun n =>
    let r := s.region p.2 n
    if r.valid && r.ok && r.back ≤ pa && pa < r.back + r.npages * 1024 * codecRate r.rate then some r else none

/-- The first backing line of the group whose backing holds an address (R275). -/
def Region.first (r : Region) (pa : Nat) : Nat := r.back + (pa - r.back) / (16 * codecRate r.rate) * (16 * codecRate r.rate)

/-- The die and slice that hold a line as their own: its home, or for a backing line its group's slice (R226, R275). -/
def State.sliceOf (s : State) (pa : Nat) : Nat × Nat := homeOf (physKey (((s.backingOf pa).map (·.first pa)).getD pa))

/-- The metadata line with a line's code used by a slice: it is the most recently used of the slice's 2,048 (R313). -/
def State.touchMeta (s : State) (pa : Nat) (at_ : Nat × Nat) : State :=
  if bits pa 50 2 = 0 then
    let u := 24 * at_.1 + at_.2
    let m := pa / 128 / 256
    { s with metas := tabSet s.metas u (m :: ((tabD s.metas u []).filter (· != m)).take 2047) }
  else s

/-! ### The ways of L2 (R224, R229, R231, R294, R301, R308, R309) -/

/-- What takes a way of an L2 slice: a line of its own, or by its table's number a sector copy, a remote copy or a replica. -/
inductive L2Occ where
  | line (pa : Nat)
  | sector (n : Nat)
  | remote (n : Nat)
  | replica (n : Nat)
  deriving DecidableEq, Repr

/-- The number of a die's sector copy of a line. -/
def sectorNo (key d sec : Nat) : Nat := (4 * key + d) * 3 + sec

/-- The die and slice of a sector copy: slice (home slice mod 8) of its sector (R231). -/
def sectorAt (n : Nat) : Nat × Nat := (n / 3 % 4, 8 * (n % 3) + (homeOf (n / 12)).2 % 8)

/-- The die and slice of a remote copy or a replica: the slice of its die with the number of the slice that holds the line (R291, R294,
R308). -/
def State.farAt (s : State) (n : Nat) : Nat × Nat := (n % 4, (s.sliceOf (keyPa (n / 4))).2)

/-- The set of a slice a line falls in: the manual does not say which (PRESUMED, log 13). -/
def l2Set (pa : Nat) : Nat :=
  if isHost pa then pa % 2 ^ 50 / 128 / 96 % 4096 else (bits pa 9 29 / 24 * 4 + pa / 128 % 4) % 4096

/-- Where a line of L2 stands. -/
def L2Line.at_ (l : L2Line) (pa : Nat) : Nat × Nat := l.place.getD (homeOf (physKey pa))

/-- What stands in a set of a slice. -/
def State.l2In (s : State) (u : Nat × Nat) (set : Nat) : List L2Occ :=
  let far := fun (f : Nat → Nat × Nat) (w : Nat) (n : Nat) => f n == u && l2Set (keyPa (n / w)) == set
  ((s.l2.filter fun (p : Nat × L2Line) => p.2.at_ p.1 == u && l2Set p.1 == set).map fun p => .line p.1) ++
    (((s.sectors.map (·.1) ++ s.fsectors.map (·.1)).filter (far sectorAt 12)).map L2Occ.sector) ++
    (((s.remotes.map (·.1)).filter (far s.farAt 4)).map L2Occ.remote) ++ ((s.replicas.map (·.1)).filter (far s.farAt 4)).map L2Occ.replica

/-- A pre-emptible context runs on a die: a resident group's grid is pre-emptible (R229, R371). -/
def State.reserves (s : State) (d : Nat) : Bool :=
  s.groups.any fun (p : Nat × Group) => dieOf (hearthOf p.1) == d && p.2.base.preempt

/-- The ways of a set that lines outside the save area may take (R229). -/
def State.l2Limit (s : State) (d set : Nat) : Nat := if s.reserves d then (if set % 2 = 0 then 11 else 12) else 16

/-- The sharer bits of a region. -/
def State.sharers (s : State) (region : Nat) : BitVec 4 := tabD s.dirs region 0

/-- The latest expiry a die granted from copies since dropped (R309). -/
def State.dropExp (s : State) (d slice : Nat) : Nat := tabD s.dropexp (24 * d + slice) 0

/-- A die's remote copy of a line taken back, with its bit in the filter (R309, R310). -/
def State.takeBack (s : State) (d key : Nat) : State :=
  let fk := 4 * regionOf key + d
  let f := setBit (tabD s.filters fk 0) (lineInRegion key) false
  if (tabGet s.remotes (4 * key + d)).isSome then
    { s with
      remotes := tabDel s.remotes (4 * key + d), filters := if f = 0 then tabDel s.filters fk else tabSet s.filters fk f }
  else s

/-- A die's remote copy of a line evicted, its sub-leases folded into DROPEXP (R309). -/
def State.dropRemote (s : State) (d key : Nat) : State :=
  match tabGet s.remotes (4 * key + d) with
  | some e =>
    let sl := (homeOf key).2
    { s.takeBack d key with dropexp := tabSet s.dropexp (24 * d + sl) (max e (s.dropExp d sl)) }
  | none => s

/-- A line leaves L2: a lent one is recalled first, a host line's halves are given up, and a line of HBM is stored in its smallest
exact form, raw where R314 says so. -/
def State.lineOut (s : State) (pa : Nat) : State :=
  match tabGet s.l2 pa with
  | none => s
  | some l =>
    let s := (s.returnLine (physKey pa)).touchMeta pa (l.at_ pa)
    let s : State := { s with l2 := tabDel s.l2 pa }
    if isHost pa then
      { s with halves := tabDel (tabDel s.halves (pa % 2 ^ 50 / 64)) (pa % 2 ^ 50 / 64 + 1) }
    else
      let code := if !l.cmpr || (s.backingOf pa).isSome || s.poisoned pa 128 then 0 else lineCode (s.peek pa 128)
      { s with cells := if code = 0 then tabDel s.cells (pa / 128) else tabSet s.cells (pa / 128) (BitVec.ofNat 4 code) }

/-- What takes a way leaves it: copies of a line silently, a remote copy with its sub-leases folded into DROPEXP (R309). -/
def State.l2Drop (s : State) (o : L2Occ) : State :=
  match o with
  | .line pa => s.lineOut pa
  | .sector n => { s with sectors := tabDel s.sectors n, fsectors := tabDel s.fsectors n }
  | .remote n => s.dropRemote (n % 4) (n / 4)
  | .replica n => { s with replicas := tabDel s.replicas n }

/-- A retained line leaves only when no other is there (R224). -/
def State.retains (s : State) (o : L2Occ) : Bool :=
  match o with
  | .line pa => (tabGet s.l2 pa).any (·.retained)
  | _ => false

/-- A set of a slice cut to n ways; which leave the manual does not say (log 13). -/
def State.l2Fit (s : State) (u : Nat × Nat) (set n : Nat) : Nat → State
  | 0 => s
  | fuel + 1 =>
    let all := s.l2In u set
    if all.length ≤ n then s
    else
      let plain := all.filter fun o => !s.retains o
      match victimOf s.clk (if plain.isEmpty then all else plain) with
      | some o => (s.l2Drop o).l2Fit u set n fuel
      | none => s

/-- A way of a set made free for one more line. -/
def State.l2Room (s : State) (u : Nat × Nat) (pa : Nat) : State := s.l2Fit u (l2Set pa) (s.l2Limit u.1 (l2Set pa) - 1) 16

/-- The sets of a die cut to what the reservation of the save area leaves (R229). -/
def State.l2Trim (s : State) (d : Nat) : State :=
  let sets := (s.l2.filterMap fun (p : Nat × L2Line) => if (p.2.at_ p.1).1 = d then some (p.2.at_ p.1, l2Set p.1) else none) ++
    ((s.sectors.map (·.1) ++ s.fsectors.map (·.1)).filterMap fun n =>
      if (sectorAt n).1 = d then some (sectorAt n, l2Set (keyPa (n / 12))) else none) ++
    ((s.remotes.map (·.1) ++ s.replicas.map (·.1)).filterMap fun n =>
      if n % 4 = d then some (s.farAt n, l2Set (keyPa (n / 4))) else none)
  sets.eraseDups.foldl (fun s x => s.l2Fit x.1 x.2 (s.l2Limit d x.2) 16) s

/-- A line of memory brought into a slice: a metadata code that is reserved poisons it whole as it is expanded (R314). -/
def State.bringIn (s : State) (pa : Nat) (l : L2Line) : State :=
  let s := (s.l2Room (l.at_ pa) pa).touchMeta pa (l.at_ pa)
  let s : State := { s with l2 := tabSet s.l2 pa l }
  if 8 ≤ (tabD s.cells (pa / 128) 0).toNat then s.poke pa (List.replicate 128 0) true else s

/-- The halves of a host line that its home slice caches: one it did not hold is read from the host and shared (R321; which of S and
E a read gets is not stated, log 59). -/
def State.cacheHalves (s : State) (pa : Nat) : State :=
  [0, 1].foldl (fun s i =>
    let n := pa / 128 * 2 % 2 ^ 44 + i
    if tabD s.halves n .i = .i then { s with halves := tabSet s.halves n .s } else s) s

/-- A line used at its slice, and brought into it where it is not there; one that another slice holds, since its region's entry has
changed, leaves that one first (R275). `cmpr` is the mark of the page it is reached through
(R314). -/
def State.useLine (s : State) (pa : Nat) (dirty cmpr : Bool) (place : Option (Nat × Nat)) : State :=
  if isOther pa || (isHost pa && !s.cxl) then s
  else
    let s := if isHost pa then s.cacheHalves pa else s
    match tabGet s.l2 pa with
    | some l =>
      let l' := { l with dirty := l.dirty || dirty, cmpr := cmpr }
      if l.place.getD (homeOf (physKey pa)) != place.getD (homeOf (physKey pa)) then
        (s.lineOut pa).bringIn pa { dirty := dirty, cmpr := cmpr, place := place }
      else if l' = l then s
      else { s with l2 := tabSet s.l2 pa l' }
    | none => s.bringIn pa { dirty := dirty, cmpr := cmpr, place := place }

/-- Whether the page a line of HBM is reached through has lossless compression, where the access brings no translation: by the line's mark
while L2 holds it, by its code in HBM, or by a cached translation of its frame (R314). -/
def State.cmprMark (s : State) (key : Nat) : Bool :=
  let pa := keyPa key
  match tabGet s.l2 pa with
  | some l => l.cmpr
  | none => (tabGet s.cells (pa / 128)).isSome || s.tlb.any fun e =>
      let x := e.leaf.toNat
      bits x 9 1 == 1 && bits x 7 1 == 0 && bits x 28 36 * 65536 ≤ pa && pa < bits x 28 36 * 65536 + pageBytes e.pgsz

/-- A home line used; a decoded codec line is none of L2 (R291). -/
def State.touchL2 (s : State) (key : Nat) (dirty cmpr : Bool) : State :=
  if isCodecKey key then s else s.useLine (keyPa key) dirty cmpr none

/-- The lines of a range. -/
def linesOf (pa n : Nat) : List Nat :=
  if n = 0 then [] else (List.range ((pa + n - 1) / 128 - pa / 128 + 1)).map fun i => 128 * (pa / 128 + i)

/-- The backing lines under a range of a codec group's encodings used at the group slice (R275, R291). -/
def State.touchBacking (s : State) (r : Region) (pa n : Nat) (dirty : Bool) : State :=
  (linesOf pa n).foldl (fun s x => s.useLine x dirty false (some (homeOf (physKey (r.first pa))))) s

/-- The keys of the backing lines that hold the four blocks of a decoded line (R275). -/
def State.backingKeys (s : State) (key : Nat) : List Nat :=
  match s.backingOf (keyPa key) with
  | some r => (linesOf (keyPa key + key / 2 % 128 * (2 * codecRate r.rate)) (2 * codecRate r.rate)).map physKey
  | none => []

/-- A line used at its home for a read: a decoded codec line by the backing of its blocks at the group slice (R291). -/
def State.touchHome (s : State) (key : Nat) (cmpr : Bool) : State :=
  if isCodecKey key then
    (s.backingKeys key).foldl (fun s b => s.useLine (keyPa b) false false (some (homeOf key))) s
  else s.touchL2 key false cmpr

/-! ### Private lines (R217–R219) -/

/-- A private byte by flat offset; one never written is unspecified (R218, log 8). -/
def Group.privByte (g : Group) (x : Nat) : Byte :=
  if g.privPz.contains (x / 32) then Config.poisonByte g.stamp x else (tabGet g.priv x).getD (Config.privateByte g.stamp x)

/-- A line of a group's private area leaves L1: its bytes are its backing's. -/
def Group.dropPriv (g : Group) (line : Nat) : Group :=
  { g with
    priv := g.priv.filter fun p => p.1 / 128 != line, privPz := g.privPz.filter fun x => x / 4 != line,
    privBack := addOnce g.privBack line }

/-- A private line written back through L2 to its backing, granule by granule with its poison, as far as the area goes (R219,
R317). -/
def State.writeBackPriv (s : State) (k : Nat) (g : Group) (line : Nat) : State :=
  let x := 128 * line
  let s := s.touchL2 (physKey (g.pb + x)) true false
  let s := (List.range 4).foldl (fun s j =>
    let n := min 32 (g.areaBytes - (x + 32 * j))
    s.poke (g.pb + x + 32 * j) ((List.range n).map fun i => g.privByte (x + 32 * j + i)) (g.privPz.contains (4 * line + j))) s
  s.modG k fun g => g.dropPriv line

/-- The group of a hearth whose private area holds a line. -/
def State.privOwner (s : State) (h key : Nat) : Option (Nat × Group) :=
  s.groups.find? fun (p : Nat × Group) => hearthOf p.1 == h && p.2.pb ≤ keyPa key && keyPa key < p.2.pb + p.2.areaBytes

/-- What an evicted line leaves behind: a lent line returns to its home, a dirty private line is written back (R219, R233). -/
def State.l1Evicted (s : State) (h : Nat) (l : L1Line) : State :=
  match l.kind with
  | .lent => s.modHome l.key fun x => { x with lent := none, recalled := false }
  | .priv =>
    match s.privOwner h l.key with
    | some (k, g) =>
      let line := (keyPa l.key - g.pb) / 128
      if l.dirty then s.writeBackPriv k g line
      else if g.privBack.contains line then s.modG k fun g => g.dropPriv line
      else s.modG k fun g => { g with privPz := g.privPz.filter fun x => x / 4 != line }
    | none => s
  | _ => s

/-- A line installed as the most recently used of its set; a full set of 12 loses its least recently used line first. -/
def State.l1Install (s : State) (h : Nat) (l : L1Line) : State :=
  let k := 512 * h + l1Set l
  let old := (tabD s.l1 k []).filter fun x =>
    !(x.kind == l.kind && x.key == l.key && x.slot == l.slot && x.gen == l.gen && x.token == l.token)
  let s' := { s with l1 := tabSet s.l1 k (l :: old.take 11) }
  match old.drop 11 with
  | [] => s'
  | v :: _ => s'.l1Evicted h v

/-- A line of a set in another form, as the most recently used of its set (R227). -/
def State.l1Renew (s : State) (h : Nat) (l l' : L1Line) : State :=
  let k := 512 * h + l1Set l
  { s with l1 := tabSet s.l1 k (l' :: (tabD s.l1 k []).filter (· != l)) }

/-- A private line read from its backing through L2 (R219). -/
def State.fetchPriv (s : State) (k : Nat) (g : Group) (line : Nat) : State :=
  let pa := g.pb + 128 * line
  let s := s.touchL2 (physKey pa) false false
  let pz := (List.range 4).filter fun j => s.poison.contains (pa / 32 + j)
  s.modG k fun g =>
    { g with
      priv := tabPut g.priv (128 * line) (s.peek pa (min 128 (g.areaBytes - 128 * line))),
      privPz := pz.foldl (fun l j => addOnce l (4 * line + j)) g.privPz }

/-- A private line whose backing holds no byte of the group's yet is brought in from it through L2: its bytes are unspecified, and its
poison is the backing's (R218, R219, R317). -/
def State.openPriv (s : State) (k : Nat) (g : Group) (line : Nat) : State :=
  let pa := g.pb + 128 * line
  let s := s.touchL2 (physKey pa) false false
  let pz := (List.range 4).filter fun j => s.poison.contains (pa / 32 + j)
  s.modG k fun g => { g with privPz := pz.foldl (fun l j => addOnce l (4 * line + j)) g.privPz }

/-- A private line of a group used in its hearth's L1: on a miss it is read from its backing, unless all of it is about
to be written (R219). -/
def State.touchPriv (s : State) (k x : Nat) (dirty : Bool) (whole : Bool := false) : State :=
  match s.grp k with
  | none => s
  | some g =>
    let key := physKey (g.pb + x)
    let h := hearthOf k
    match (s.l1Lines h (l1SetOf key)).find? fun l => l.kind == .priv && l.key == key with
    | some l => s.l1Renew h l { l with dirty := l.dirty || dirty }
    | none =>
      let s := if whole then s else if g.privBack.contains (x / 128) then s.fetchPriv k g (x / 128) else s.openPriv k g (x / 128)
      s.l1Install h { kind := .priv, key := key, dirty := dirty }

end Sys2Proof.Machine
end

