-- ==== Sys2Proof/Machine/Home.lean ====
section
/-! DEFINITION. Home slices: leases, copies on other dies, reads, and writes and atomics at their homes (R228–R233, R271–R288, R294,
R301–R303, R308–R314, R317, R321). -/

namespace Sys2Proof.Machine

/-! ### The Benud link (R323–R325, R328, R332) -/

/-- The ports that carry traffic (R328). -/
def State.livePorts (s : State) : List Nat := (List.range 36).filter fun p => (tabD s.ports p {}).up && !(tabD s.ports p {}).dead

/-- The live port over which the traffic of a line goes; which one the hash picks the manual does not say (R323, R325). -/
def State.portOf (s : State) (key : Nat) : Option Nat :=
  match s.livePorts with
  | [] => none
  | p :: r => ((p :: r).drop (Config.portHash (keyPa key / 128) % (r.length + 1))).head?

/-- A count of flits after one more message of a kind, of a length that the manual does not give (R324, R328). -/
def moreFlits (n clk kind : Nat) : Nat := min (n + Config.flits clk kind) (2 ^ 64 - 1)

/-- A message and its answer pass the line's port, which counts their flits (R324, R328). -/
def State.carry (s : State) (key : Nat) (out : Bool) : State :=
  match s.portOf key with
  | some p =>
    { s with
      ports := tabMod s.ports p fun x =>
        { x with tx := moreFlits x.tx s.clk (if out then 0 else 1), rx := moreFlits x.rx s.clk (if out then 2 else 3) } }
  | none => s

/-- A request that gets no answer passes the line's port (R325, R328). -/
def State.sendOut (s : State) (key : Nat) : State :=
  match s.portOf key with
  | some p => { s with ports := tabMod s.ports p fun x => { x with tx := moreFlits x.tx s.clk 0 } }
  | none => s

/-- Loads of other modules that get no response, sent together; identifiers go on from a number (R325, R328). -/
def State.sendLoads (s : State) (l : List Pend) (next : Nat) : State :=
  if l.isEmpty then s else { l.foldl (fun s p => s.sendOut p.key) s with pend := s.pend ++ l, nextId := next }

/-- The clocks an access takes on its way: one figure for each path in recorded mode (R332), else free (R384). -/
def State.transitOf (s : State) (ctx h key id : Nat) : Nat :=
  if s.recording ctx then
    Config.pathTransit h (if isOther (keyPa key) then 96 + bits (keyPa key) 40 10 else 24 * (homeOf key).1 + (homeOf key).2)
  else Config.transit id

/-- An access to another module gets no response in 10 µs: no port is live, or it is that long on its way (R325). -/
def State.noAnswer (s : State) (ctx h key id : Nat) : Bool :=
  isOther (keyPa key) && ((s.portOf key).isNone || decide (25000 < s.transitOf ctx h key id))

/-! ### Directory and remote copies (R308–R311) -/

/-- Whether a die is fenced from a line's home (R311). -/
def State.fenced (s : State) (d key : Nat) : Bool :=
  let e := (homeOf key).1
  d != e && !isOther (keyPa key) && (s.fences.contains (d, e) || s.fences.contains (e, d))

/-- Invalidations of a line sent to dies (R310). -/
def State.sendInvals (s : State) (key : Nat) (dies : List Nat) : State :=
  { s with invals := s.invals ++ dies.map fun d => { die := d, key := key, sent := s.now } }

/-- The dies of a sharer set. -/
def dieList (b : BitVec 4) : List Nat := [0, 1, 2, 3].filter fun d => b.getLsbD d

/-- The four line keys of a region. -/
def regionKeys (region : Nat) : List Nat := [0, 1, 2, 3].map fun i => 2 * (512 * region + 128 * i)

/-- A directory entry about to be made in a full set first evicts one: its region is invalidated at every sharer (R309). Which one
is not stated, nor which bits of the region give the set (log 13). -/
def State.dirMake (s : State) (key d : Nat) : State :=
  let r := regionOf key
  let mine := s.dirs.filter fun p => homeOf (1024 * p.1) == homeOf key && p.1 / 24 % 1024 == r / 24 % 1024
  let s :=
    if (tabGet s.dirs r).isNone && 16 ≤ mine.length then
      match victimOf s.clk mine with
      | none => s
      | some v =>
        (regionKeys v.1).foldl (fun s k => s.sendInvals k (dieList v.2))
          { s with dirs := tabDel s.dirs v.1, rebuild := if v.2 = 0 then s.rebuild else s.rebuild ++ [(v.1, false)] }
    else s
  { s with dirs := tabSet s.dirs r (setBit (s.sharers r) d true) }

/-- A remote filter entry about to be made in a full set evicts one with its remote copies (R309). -/
def State.filterMake (s : State) (key d : Nat) : State :=
  let fk := 4 * regionOf key + d
  let mine := s.filters.filter fun p => p.1 % 4 == d && p.1 / 4 % 1024 == regionOf key % 1024
  let s :=
    if (tabGet s.filters fk).isNone && 16 ≤ mine.length then
      match victimOf s.clk mine with
      | none => s
      | some v => (regionKeys (v.1 / 4)).foldl (fun s k => s.dropRemote d k) s
    else s
  { s with filters := tabSet s.filters fk (setBit (tabD s.filters fk 0) (lineInRegion key) true) }

/-- The poison of a copy of a number that L2 holds (R318): a sector copy (0), a remote copy (1) or a replica (2). -/
def State.lostParts (s : State) (kind n : Nat) : BitVec 4 := tabD s.copyPz (4 * n + kind) 0

/-- A copy made anew is whole. -/
def State.wholeCopy (s : State) (kind n : Nat) : State := { s with copyPz := tabDel s.copyPz (4 * n + kind) }

/-- One of the four parts of such a copy poisoned, where L2 holds it (R318). -/
def State.loseCopy (s : State) (kind n part : Nat) : State :=
  let held := match kind with
    | 0 => (tabGet s.sectors n).isSome || (tabGet s.fsectors n).isSome
    | 1 => (tabGet s.remotes n).isSome
    | _ => (tabGet s.replicas n).isSome
  if held then { s with copyPz := tabSet s.copyPz (4 * n + kind) (setBit (s.lostParts kind n) part true) } else s

/-- A die takes a remote copy of a line through its bridge (R308, R309); it carries no expiry of its own. -/
def State.takeRemote (s : State) (d key : Nat) : State :=
  if (tabGet s.remotes (4 * key + d)).isSome then s
  else
    let s := (((s.dirMake key d).filterMake key d).l2Room (d, (homeOf key).2) (keyPa key)).wholeCopy 1 (4 * key + d)
    { s with remotes := tabSet s.remotes (4 * key + d) 0 }

/-! ### Reads at the home (R230, R231, R294, R301, R308, R321) -/

/-- The copy of a line that a hearth may keep: its kind, expiry and frozen generation. -/
def leaseOf (key : Nat) (exp gen : Option Nat) : L1Line :=
  { kind := if isCodecKey key then .codec else .leased, key := key, exp := exp, fgen := gen }

/-- Whether a hearth of the home's die reaches a line through its sector's copy (R231); decoded codec lines have none (R291). -/
def throughSector (h key : Nat) : Bool := !isCodecKey key && h % 36 / 12 != (homeOf key).2 / 8

/-- The lines a die replicates for a frozen line: the line itself, or the backing lines of a decoded one (R291, R294). -/
def State.replicaKeys (s : State) (key : Nat) : List Nat := if isCodecKey key then s.backingKeys key else [key]

/-- Whether a die holds the replicas that a frozen line of a generation is read from there (R291, R301). -/
def State.replicated (s : State) (d key g : Nat) : Bool :=
  let l := s.replicaKeys key
  !l.isEmpty && l.all fun b => tabGet s.replicas (4 * b + d) == some g

/-- The poison of a line read from a die's replicas: a decoded line's block is poisoned by any granule of its encoding (R286, R318). -/
def State.replicaPz (s : State) (d key : Nat) : BitVec 4 :=
  if isCodecKey key then
    match s.backingOf (keyPa key) with
    | some r =>
      let n := codecRate r.rate / 2
      let bad := fun i => (granules (keyPa key + key / 2 % 128 * (4 * n) + i * n) n).any fun g =>
        (s.lostParts 2 (4 * physKey (32 * g) + d)).getLsbD (g % 4)
      [0, 1, 2, 3].foldl (fun z i => setBit z i (bad i)) 0
    | none => 0
  else s.lostParts 2 (4 * key + d)

/-- The number of the decoder that serves a hearth's read of a codec line: that of the group slice, or of the reading die's slice of the
same number where the line is read from a replica (R291, R292). -/
def State.decoder (s : State) (h key : Nat) : Nat :=
  let d := if isOther (keyPa key) || (s.frozenGen key).isSome then dieOf h else (homeOf key).1
  3 * (24 * d + (homeOf key).2) + 2

/-- A codec line decoded for a line request, one per clock (R292). -/
def State.takeDecode (s : State) (h key : Nat) : State :=
  if isCodecKey key then
    { s with codecFree := tabSet s.codecFree (s.decoder h key) (max s.clk (tabD s.codecFree (s.decoder h key) 0) + 1) }
  else s

/-- A copy that a hearth's die holds already gives it a lease without the home: a live sector copy (R231), a remote copy (R308), or
a frozen copy of the page's generation (R294, R301). -/
def State.subLease (s : State) (h key len : Nat) (gen : Option Nat) : Option (State × L1Line) :=
  let d := dieOf h
  let n := sectorNo key d (h % 36 / 12)
  let away := d != (homeOf key).1 || isOther (keyPa key)
  match gen with
  | some g =>
    let here := if away then s.replicated d key g else throughSector h key && tabGet s.fsectors n == some g
    let pz := if away then s.replicaPz d key else s.lostParts 0 n
    if here then some (s.takeDecode h key, { leaseOf key none gen with pz := pz }) else none
  | none =>
    if away then
      match tabGet s.remotes (4 * key + d) with
      | some e =>
        some ({ s with remotes := tabSet s.remotes (4 * key + d) (max (s.now + len) e) },
          { leaseOf key (some (s.now + len)) none with pz := s.lostParts 1 (4 * key + d) })
      | none => none
    else if throughSector h key && s.now < tabD s.sectors n 0 then
      some (s, { leaseOf key (some (min (s.now + len) (tabD s.sectors n 0))) none with pz := s.lostParts 0 n })
    else none

/-- A sector copy with its expiry, a frozen one with its generation, and a replica with its generation. -/
def State.addSector (s : State) (n e : Nat) : State := { s.wholeCopy 0 n with sectors := tabSet s.sectors n e }
def State.addFsector (s : State) (n g : Nat) : State := { s.wholeCopy 0 n with fsectors := tabSet s.fsectors n g }
def State.addReplica (s : State) (n g : Nat) : State := { s.wholeCopy 2 n with replicas := tabSet s.replicas n g }

/-- A die takes the replicas that a frozen line is read from, each in a way of its slice with the number of the slice that holds the line
(R229, R291, R294). -/
def State.replicate (s : State) (d key g : Nat) : State :=
  (s.replicaKeys key).foldl (fun s b => (s.l2Room (d, (homeOf key).2) (keyPa b)).addReplica (4 * b + d) g) s

/-- A copy given out by the home under a lease it records, or a frozen copy without limit (R230, R231, R294, R301, R308, R321). The
line is the copy the hearth may keep, none when the read is served uncached (other modules, host lines of another home die or in
plain PCIe mode). -/
def State.grantLine (s : State) (h key len : Nat) (gen : Option Nat) (cmpr : Bool) : State × Option L1Line :=
  let d := dieOf h
  let pa := keyPa key
  let n := sectorNo key d (h % 36 / 12)
  let away := d != (homeOf key).1 || isOther pa
  let s := ((if isOther pa then s.carry key true else s).touchHome key cmpr).takeDecode h key
  let e := s.now + len
  match gen with
  | some g =>
    let s := if away then s.replicate d key g
      else if throughSector h key then (s.l2Room (sectorAt n) pa).addFsector n g
      else s
    (s, some (leaseOf key none gen))
  | none =>
    if isOther pa || (isHost pa && (away || !s.cxl)) then (s, none)
    else if away && !isCodecKey key then
      let s := s.takeRemote d key
      ({ s with remotes := tabSet s.remotes (4 * key + d) (max e (tabD s.remotes (4 * key + d) 0)) }, some (leaseOf key (some e) none))
    else
      let s := if !away && throughSector h key then (s.l2Room (sectorAt n) pa).addSector n e else s
      (s.modHome key fun x => { x with exp := max x.exp e }, some (leaseOf key (some e) none))

/-- Whether a line's region waits for the eviction or the rebuild of its directory entry (R309, R312). -/
def State.rebuilding (s : State) (key : Nat) : Bool := !isCodecKey key && s.rebuild.any (·.1 == regionOf key)

/-- A host snoop of a line waits for its answer (R322). -/
def State.snooped (s : State) (key : Nat) : Bool :=
  isHost (keyPa key) && s.snoops.any fun n => n.half / 2 == keyPa key % 2 ^ 50 / 128

/-- Whether reads of a line must wait at its home: a write, a snoop or an invalidation is pending, or the line is lent to
another hearth (R230, R233, R309, R322). -/
def State.readWaits (s : State) (h key : Nat) : Bool :=
  s.pend.any (fun p => p.key == key && p.arrived) || s.invals.any (·.key == key) || s.rebuilding key ||
    s.snooped key || (s.home key).lent.any (· != h)

/-- The predictor sees an access of a hearth that is no atomic of its own: another agent's ends the count (R233). -/
def State.otherAccess (s : State) (h key : Nat) : State :=
  s.modHome key fun x => { x with pred := x.pred.filter fun p => p.1 = h, lendTo := none }

/-- A copy is the most recently used of its set (R227). -/
def State.l1Use (s : State) (h : Nat) (l : L1Line) : State :=
  if (s.l1Lines h (l1Set l)).head? = some l then s else s.l1Renew h l l

/-- The context of a reader (log 57). -/
def State.readerCtx (s : State) (who : Nat × Nat) : Option Nat :=
  if who.1 = readerProj then (s.projs.find? (·.id == who.2)).map (·.ctx) else (s.grp who.2).map (·.ctx)

/-- A lease granted to the context in recorded mode is counted in run time, at the home and in the copy (R332). -/
def State.inRunTime (s : State) (key : Nat) (who : Nat × Nat) (l : Option L1Line) : State × Option L1Line :=
  if (s.readerCtx who).any s.recording then (s.modHome key fun x => { x with rt := true }, l.map fun l => { l with rt := true })
  else (s, l)

/-- A read takes its place at a line's home, among the writes there (R230). -/
def State.queueRead (s : State) (h key len : Nat) (cmpr : Bool) (who : Nat × Nat) : State :=
  (s.otherAccess h key).modHome key fun x =>
    if x.waiting.any fun w => w.h == h && w.who == some who then x
    else { x with waiting := x.waiting ++ [{ h := h, len := len, cmpr := cmpr, who := some who }] }

/-- The clocks a line request that misses adds as the manual states them: 6 for the codec's decode, and those until the decoder is free;
2 for the expansion of a line that L2 does not hold (R292, R314). -/
def State.missClocks (s : State) (h key : Nat) : Nat :=
  if (s.l1Copy h key (s.frozenGen key)).isSome then 0
  else if isCodecKey key then 6 + (tabD s.codecFree (s.decoder h key) 0 - s.clk)
  else if bits (keyPa key) 50 2 = 0 && (tabGet s.l2 (keyPa key)).isNone then 2
  else 0

/-- A hearth reads a line without its home: from its L1, or a frozen one from its die's replica (R230, R294, R301). -/
def State.localCopy (s : State) (h key : Nat) : Bool :=
  (s.l1Copy h key (s.frozenGen key)).isSome || (s.frozenGen key).any (s.replicated (dieOf h) key)

/-- A read of another module that must reach it gets no response in 10 µs (R301, R325). -/
def State.lostRead (s : State) (ctx h key id : Nat) : Bool := !s.localCopy h key && s.noAnswer ctx h key id

/-- A reader waits for a line from which no response comes in time (R325). -/
def State.readerOut (s : State) (who : Nat × Nat) (key : Nat) : Bool :=
  s.pend.any fun p => p.key == key && match p.kind with
    | .lost (.reader x _) _ _ => x == who
    | _ => false

/-- A read that a reader waits for gets no response in time, and has not timed out yet (R325). -/
def State.noReply (s : State) (h ctx : Nat) (who : Nat × Nat) (key : Nat) : Bool :=
  !(s.served.any fun x => x.who == who && x.key == key) && (s.readerOut who key || s.lostRead ctx h key s.nextId)

/-- Such a read is out until it times out. -/
def State.sendReader (s : State) (h ctx : Nat) (owner : Nat × Nat) (blk : Nat) (who : Nat × Nat) (code : Bool) (va : W64) (key n : Nat) : State :=
  if s.readerOut who key then s
  else
    let p : Pend :=
      { id := s.nextId, key := key, ctx := ctx, owner := some owner, arrived := false, issued := s.clk, va := va, blk := blk, acq := false,
        kind := .lost (.reader who code) n 0, hearth := h }
    { (s.sendOut key).newId with pend := s.pend ++ [p] }

/-- A line that a hearth's L1 has no live copy of: a copy its die holds gives one, else the home grants one, else the read waits there,
in its place among the home's writes, for `who` (R230, R231, R308). The answer is the copy, if the hearth may keep one. -/
def State.fetchLine (s : State) (h key len : Nat) (cmpr : Bool) (who : Nat × Nat) : State × Option (Option L1Line) :=
  match s.subLease h key len (s.frozenGen key) with
  | some (s, l) =>
    let (s, l) := s.inRunTime key who (some l)
    (s, some l)
  | none =>
    if s.readWaits h key then (s.queueRead h key len cmpr who, none)
    else
      let (s, l) := (s.otherAccess h key).grantLine h key len (s.frozenGen key) cmpr
      let (s, l) := s.inRunTime key who l
      (s, some l)

/-- A read request of a hearth: a live copy in its L1 serves it, else one is fetched and installed. The answer is the poison of the
copy it finds; none while it waits. -/
def State.readLine (s : State) (h key len : Nat) (cmpr : Bool) : State × Option (BitVec 4) :=
  match s.l1Copy h key (s.frozenGen key) with
  | some l => (s.l1Use h l, some l.pz)
  | none =>
    match s.fetchLine h key len cmpr s.reader with
    | (s, some (some l)) => (s.l1Install h l, some l.pz)
    | (s, some none) => (s, some 0)
    | (s, none) => (s, none)

/-! ### Codec blocks (R275, R279, R282–R288) -/

/-- The physical address of a block's encoding. -/
def blockPa (r : Region) (i : Nat) : Nat := r.back + i * (codecRate r.rate / 2)

/-- The four values of a block, none when they are poisoned (R279, R286). -/
def State.blockVals (s : State) (r : Region) (i : Nat) : Option (List Nat) :=
  let n := codecRate r.rate / 2
  if s.poisoned (blockPa r i) n then none else codecDecode r.rate (s.peekNat (blockPa r i) n)

/-- The 32 decoded bytes of a block and whether they are poisoned. -/
def State.blockBytes (s : State) (r : Region) (i : Nat) : List Byte × Bool :=
  match s.blockVals r i with
  | some v => (v.foldr (fun x acc => leBytes 8 x ++ acc) [], false)
  | none => ((List.range 32).map (Config.poisonByte s.free), true)

/-- A block lies in the region its entry describes; a translation older than the entry may name one that does not (R276). -/
def Region.holds (r : Region) (i : Nat) : Bool := r.valid && r.ok && i < 2048 * r.npages

/-- n decoded bytes from an offset of a region, within one block (R272); outside the region they are unspecified, and
inside it, after an entry or its backing has been changed while in use, they decode what the entry names now (R276; DESIGN CHOICE, log 58). -/
def State.codecRead (s : State) (r : Region) (off n : Nat) : List Byte × Bool :=
  if r.holds (off / 32) then
    let (b, p) := s.blockBytes r (off / 32)
    ((b.drop (off % 32)).take n, p)
  else ((List.range n).map fun i => Config.poisonByte s.free (off + i), false)

/-- A block's encoding written in the group slice; markers and codes never carry granule poison of their own, and nothing is written
outside the region (R275, R276). -/
def State.setBlock (s : State) (r : Region) (i code : Nat) : State :=
  let n := codecRate r.rate / 2
  if r.holds i then (s.touchBacking r (blockPa r i) n true).pokeNat (blockPa r i) n code else s

/-- The counters of a region's entry after one encode (R288). -/
def State.countEncode (s : State) (c : Ctx) (n : Nat) (partial_ : Bool) (inp out : List Nat) : State :=
  let e := c.codectab + 64 * n
  let up := fun (s : State) o => s.pokeWord (e + o) 8 (min (s.peekNat (e + o) 8 + 1) (2 ^ 64 - 1))
  let s := up s 24
  let s := if partial_ then up s 32 else s
  let m := codecErr inp out
  if m.isZero then s
  else
    let s := up s 40
    let s := s.pokeWord (e + 48) 8 (max (s.peekNat (e + 48) 8 % 2 ^ 11) (codecErrExp m))
    s.pokeWord (e + 56) 8 (codecErrSum (s.peekNat (e + 56) 8 % 2 ^ 32) m)

/-- A block encoded from values and counted (R282, R283, R288). -/
def State.encodeBlock (s : State) (c : Ctx) (n : Nat) (r : Region) (i : Nat) (partial_ : Bool) (v : List Nat) : State :=
  let code := codecEncode r.rate v
  (s.countEncode c n partial_ v ((codecDecode r.rate code).getD [0, 0, 0, 0])).setBlock r i code

/-- The bytes of a write that fall in a block, as places 0–31 with their poison; a later write of the same place wins (R166). -/
def blockWrites (i : Nat) (ws : List (Nat × Byte × Bool)) : Tab (Byte × Bool) :=
  (ws.filter fun w => w.1 / 32 == i).foldl (fun t w => tabSet t (w.1 % 32) w.2) []

/-- Bytes written over a list. -/
def overlay (b : List Byte) (ws : Tab (Byte × Bool)) : List Byte := ws.foldl (fun b w => b.set w.1 w.2.1) b

/-- One block's part of a codec write: whole when it covers all 32 bytes, else a merge with the decoded values; one with a poisoned
value, or a partial write to a poisoned block, leaves the marker (R282, R283, R287). -/
def State.codecWriteBlock (s : State) (c : Ctx) (n : Nat) (r : Region) (ws : List (Nat × Byte × Bool)) (i : Nat) : State :=
  let w := blockWrites i ws
  let vals := fun (b : List Byte) => (chunks 8 b).map leNat
  if !r.holds i then s
  else if w.any (·.2.2) then s.setBlock r i 3
  else if w.length = 32 then s.encodeBlock c n r i false (vals (overlay (List.replicate 32 0) w))
  else
    match s.blockVals r i with
    | none => s.setBlock r i 3
    | some old =>
      let new := vals (overlay (s.blockBytes r i).1 w)
      if new.map canonVal = old then s else s.encodeBlock c n r i true new

/-- A codec write performed block by block (R283). -/
def State.codecWrite (s : State) (ctx n : Nat) (ws : List (Nat × Byte × Bool)) : State :=
  let c := tabD s.ctxs ctx {}
  let r := s.region c n
  ((ws.map (·.1 / 32)).foldl addOnce []).foldl (fun s i => s.codecWriteBlock c n r ws i) s

/-! ### Atomics (R102, R169, R170, R232, R284) -/

/-- The new value of an atomic (R102, R169, R170), none when nothing is written. `op` is the code of R68, or `opGathered`; `ty` the type. -/
def atomicNew (op ty w old x cmp : Nat) : Option Nat :=
  let n := 8 * w
  let signed := ty == 4 || ty == 6
  let lt := fun a b => if signed then decide (sintOf n a < sintOf n b) else decide (a % 2 ^ n < b % 2 ^ n)
  match op with
  | 0 =>
    match fmtOf ty with
    | some f => some (roundTo f ((f.decode old).add (f.decode x) 1) 1 false)
    | none => some ((old + x) % 2 ^ n)
  | 1 =>
    match fmtOf ty with
    | some f => some (f.minMax false old x)
    | none => some (if lt x old then x % 2 ^ n else old)
  | 2 =>
    match fmtOf ty with
    | some f => some (f.minMax true old x)
    | none => some (if lt old x then x % 2 ^ n else old)
  | 3 => some (old &&& (x % 2 ^ n))
  | 4 => some (old ||| (x % 2 ^ n))
  | 5 => some (old ^^^ (x % 2 ^ n))
  | 6 => some (x % 2 ^ n)
  | 7 => if old = cmp % 2 ^ n then some (x % 2 ^ n) else none
  | 9 => orBits old x cmp
  | _ => some (f32.minMax true old (x % 2 ^ 31))

/-- A group found by name, resident or saved, changed. -/
def State.modOwner (s : State) (n : Nat × Nat) (f : Group → Group) : State :=
  match s.keyOf n with
  | some k => s.modG k f
  | none =>
    { s with
      saved := s.saved.map fun v => { v with groups := v.groups.map fun p => if p.2.name == n then (p.1, f p.2) else p } }

/-- The kind of range lock of a projection (R364). -/
def lockProj : Nat := 3

/-- Projections abandoned with their locks (R198, R311); an `ldv` that waits for one is issued again. -/
def State.dropProjs (s : State) (gone : Proj → Bool) : State :=
  let mine := s.projs.filter gone
  let s : State :=
    { s with
      projs := s.projs.filter fun p => !gone p,
      locks := s.locks.filter fun p => !(p.2.kind == lockProj && mine.any fun x => x.id == p.2.op) }
  (mine.foldr (fun p acc => p.waiters ++ acc) []).foldl (fun s w =>
    s.modOwner w.who fun g => g.mapOuts fun o => if o.id = w.out then o.retry else o)
    (s.forgetAll fun x => x.1 == readerProj && mine.any fun p => p.id == x.2)

/-- The old value of an atomic brought to its destination (R102, R169, R377). -/
def State.deliver (s : State) (owner : Option (Nat × Nat)) (d : Dst) (w : Nat) (old : Nat) (pz : Bool) : State :=
  match owner with
  | none => s
  | some nm =>
    match d with
    | .none | .reader _ _ => s
    | .scalar n signed =>
      let v : W64 := if signed then (BitVec.ofNat (8 * w) old).signExtend 64 else BitVec.ofNat 64 old
      s.modOwner nm fun g => g.deliverS n ⟨v, pz⟩
    | .lane out t r =>
      s.modOwner nm fun g => (List.range ((w + 3) / 4)).foldl (fun g i => g.fill out t (r + i) ⟨BitVec.ofNat 32 (old / 2 ^ (32 * i)), pz⟩) g

/-- An atomic performed on physical bytes (R102, R169): on a poisoned granule nothing is written and the destination gets
unspecified bits with the tag set (R317, log 12). -/
def State.doAtomic (s : State) (owner : Option (Nat × Nat)) (pa w op ty : Nat) (x cmp : W64) (d : Dst) : State :=
  if s.poisoned pa w then
    s.stamp.deliver owner d w ((Config.freeBits s.free).toNat % 2 ^ (8 * w)) true
  else
    let old := s.peekNat pa w
    let s' := match atomicNew op ty w old x.toNat cmp.toNat with
      | some new => s.pokeNat pa w new
      | none => s
    s'.deliver owner d w old false

/-- `aadd.f64` on one block: the threads in order, then one encode (R284); a poisoned block is left as it is (R287). -/
def State.codecAddBlock (s : State) (owner : Option (Nat × Nat)) (c : Ctx) (n : Nat) (r : Region) (adds : List CodecAdd)
    (i : Nat) : State :=
  let mine := adds.filter fun a => a.off / 32 == i
  match (if r.holds i then s.blockVals r i else none) with
  | none =>
    mine.foldl (fun s a => s.stamp.deliver owner a.dst 8 (Config.freeBits s.free).toNat true) s
  | some old =>
    let (new, s) := mine.foldl (fun (p : List Nat × State) a =>
      let j := a.off % 32 / 8
      let o := p.1.getD j 0
      (p.1.set j (roundTo f64 ((f64.decode o).add (f64.decode a.x.toNat) 1) 1 false), p.2.deliver owner a.dst 8 o false))
      (old, s)
    if new.map canonVal = old then s else s.encodeBlock c n r i true new

/-- The old value that a recorded context's own atomic brings from host memory or from another module is a read of its own: it is logged, and
a replay takes it from the log in place of the memory's (R333, R334). -/
def State.oldLogged (s : State) (p : Pend) (pa w : Nat) (d : Dst) : State × Option Nat :=
  if d == .none || s.poisoned pa w || !s.recording p.ctx then (s, none)
  else
    match s.ownRead p.hearth p.ctx pa (s.peek pa w) with
    | (s, some b) => (s, some (leNat b))
    | (s, none) => (s, none)

/-- The log can serve the old value that an atomic brings (R334, R335). -/
def State.answerReady (s : State) (p : Pend) : Bool :=
  match p.kind with
  | .atomic pa w _ _ _ _ d => d == .none || s.logReady p.ctx pa w
  | _ => true

/-- The compression of the page an access reaches its line through; that of an agent that brings no translation is the line's (R314). -/
def State.pendCmpr (s : State) (p : Pend) : Bool := if p.owner.isNone && p.blk = 0 then s.cmprMark p.key else p.cmpr

/-- A write or atomic performed at its home (R228, R230, R232, R283). The view lines that a hearth derived from a line its engine writes
die now (R195). -/
def State.perform (s : State) (p : Pend) : State :=
  let s := if p.owner.isNone && p.blk != 0 then s.killViews p.hearth p.key else s
  match p.kind with
  | .store pa data pz => (s.touchL2 p.key true (s.pendCmpr p)).poke pa data pz
  | .atomic pa w op ty x cmp d =>
    let (s, logged) := (s.touchL2 p.key true (s.pendCmpr p)).oldLogged p pa w d
    let s := match logged with
      | some old => (s.doAtomic p.owner pa w op ty x cmp .none).deliver p.owner d w old false
      | none => s.doAtomic p.owner pa w op ty x cmp d
    if p.ctx = noCtx then s.traceDatum (homeOf p.key).1 pa (s.peek pa w) else s
  | .codecStore ctx n ws => s.codecWrite ctx n ws
  | .codecAdd ctx n adds =>
    let c := tabD s.ctxs ctx {}
    let r := s.region c n
    ((adds.map (·.off / 32)).foldl addOnce []).foldl (fun s i => s.codecAddBlock p.owner c n r adds i) s
  | .lost _ _ _ => s

/-! ### Writes on their way (R228, R230, R233) -/

/-- A hearth's copies of a line it writes die at once, unless the line is lent to it (R228). -/
def State.dropCopy (s : State) (h key : Nat) : State := s.l1Drop h fun l => (l.kind == .leased || l.kind == .codec) && l.key == key

/-- So do the view lines derived from it, of a group's store or atomic (R195). -/
def State.dropOwn (s : State) (h key : Nat) : State := (s.dropCopy h key).killViews h key

/-- Whether a line is lent to a hearth (R233). -/
def State.lentTo (s : State) (h key : Nat) : Bool := (s.home key).lent == some h

/-- Whether the page an address lies in has lossless compression (R314). -/
def State.pageCmpr (s : State) (h ctx : Nat) (va : W64) : Bool :=
  match (if canonical va then (s.translate h ctx va).2 else .illegal false) with
  | .ok t => t.cmpr
  | _ => false

/-- The line lent to a hearth written there: it is dirty and the most recently used of its set (R233). -/
def State.writeLent (s : State) (h key : Nat) : State :=
  match (s.l1Lines h (l1SetOf key)).find? fun l => l.kind == .lent && l.key == key with
  | some l => s.l1Renew h l { l with dirty := true }
  | none => s

/-- A write or atomic issued by a hearth: performed at once in a line lent to it, otherwise sent toward the home. Either way the
hearth's view lines derived from the line die, those of an engine's write as it is performed, and every other copy of its L1 (R195,
R228, R233). -/
def State.issueWrite (s : State) (h ctx : Nat) (owner : Option (Nat × Nat)) (va : W64) (key : Nat) (blk : Nat)
    (acq : Bool) (kind : PKind) : State :=
  let p : Pend :=
    { id := s.nextId, key := key, ctx := ctx, owner := owner, arrived := false, issued := s.clk, va := va, blk := blk, acq := acq,
      cmpr := s.pageCmpr h ctx va, kind := kind, hearth := h }
  let s := s.newId
  if s.lentTo h key then ((s.killViews h key).perform p).writeLent h key
  else
    let s := if owner.isSome then s.dropOwn h key else s.dropCopy h key
    { s with pend := s.pend ++ [p] }

/-- The bytes of a range a group's own stores cover, latest last, laid over bytes read (R228). -/
def State.forward (s : State) (owner : Nat × Nat) (pa : Nat) (b : List Byte) : List Byte :=
  s.pend.foldl (fun b p =>
    if p.owner == some owner then
      match p.kind with
      | .store q data wpz =>
        (enumFrom 0 data).foldl (fun b e =>
          if pa ≤ q + e.1 && q + e.1 < pa + b.length then
            b.set (q + e.1 - pa) (if wpz then Config.poisonByte s.free (q + e.1) else e.2)
          else b) b
      | _ => b
    else b) b

/-- Whether a group's own pending stores poison a byte of a range: a poisoned store not covered since (R228, R317). -/
def State.forwardPz (s : State) (owner : Nat × Nat) (pa n : Nat) (pz : Bool) : Bool :=
  s.pend.foldl (fun z p =>
    if p.owner == some owner then
      match p.kind with
      | .store q data wpz =>
        if wpz then z || (granules q data.length).any fun g => pa < 32 * g + 32 && 32 * g < pa + n
        else z && !(q ≤ pa / 32 * 32 && (pa + n + 31) / 32 * 32 ≤ q + data.length)
      | _ => z
    else z) pz

/-- Whether a group's own plain stores on their way cover every byte of a range (R228). -/
def State.ownCovers (s : State) (owner : Nat × Nat) (pa n : Nat) : Bool :=
  let mine := s.pend.filter (·.owner == some owner)
  !mine.isEmpty && (List.range n).all fun i => mine.any fun p =>
    match p.kind with
    | .store q data _ => q ≤ pa + i && pa + i < q + data.length
    | _ => false

/-- Whether a group has an atomic of bytes of a range, or a codec write or atomic of its line, not yet performed: a load of them waits
(R228, R271). -/
def State.ownBlocks (s : State) (owner : Nat × Nat) (key pa n : Nat) : Bool :=
  s.pend.any fun p => p.owner == some owner && p.key == key &&
    match p.kind with
    | .store _ _ _ | .lost _ _ _ => false
    | .atomic q w _ _ _ _ _ => q < pa + n && pa < q + w
    | _ => true

/-- Whether a group has any write of a line not yet performed: an `ldv` miss waits for it (R191). -/
def State.ownWrites (s : State) (owner : Nat × Nat) (key : Nat) : Bool :=
  s.pend.any fun p => p.owner == some owner && p.key == key && !p.isLost

/-- Physical bytes as a read finds them: those of a poisoned granule are lost (R317, log 14). -/
def State.seen (s : State) (pa n : Nat) : List Byte :=
  (enumFrom pa (s.peek pa n)).map fun e => if s.poison.contains (e.1 / 32) then Config.poisonByte s.free e.1 else e.2

/-- Whether a range within a line meets a poisoned part of it. -/
def partPz (pz : BitVec 4) (off n : Nat) : Bool := (granules (off % 128) n).any fun g => pz.getLsbD (g % 4)

/-- The 128 bytes of a line and the poison of their four parts, as the home has them: decoded for a codec line (R275, R286, R317). -/
def State.lineNow (s : State) (key : Nat) : List Byte × BitVec 4 :=
  let pa := keyPa key
  let parts := fun (f : Nat → Bool) => [0, 1, 2, 3].foldl (fun (z : BitVec 4) i => if f i then setBit z i true else z) 0
  if isCodecKey key then
    match s.backingOf pa with
    | some r =>
      let off := (pa - r.back) / (16 * codecRate r.rate) * 1024 + key / 2 % 128 * 128
      ([0, 1, 2, 3].foldr (fun i acc => (s.codecRead r (off + 32 * i) 32).1 ++ acc) [], parts fun i => (s.codecRead r (off + 32 * i) 32).2)
    | none => ((List.range 128).map (Config.poisonByte s.free), 0)
  else (s.seen pa 128, parts fun i => s.poison.contains (pa / 32 + i))

/-- A group's own stores on their way laid over plain bytes read with their poison (R228). -/
def State.overOwn (s : State) (owner : Nat × Nat) (t : Tr) (n : Nat) (x : List Byte × Bool) : List Byte × Bool :=
  if t.creg.isSome then x else (s.forward owner t.pa x.1, s.forwardPz owner t.pa n x.2)

/-- The bytes of a line as a reader finds them at its home or in its copy, part of which a soft error may have poisoned (R318). -/
def State.bytesAt (s : State) (c : Ctx) (t : Tr) (n : Nat) (pz : BitVec 4) : List Byte × Bool :=
  if partPz pz t.pa n then ((List.range n).map fun i => Config.poisonByte s.free (t.pa + i), true)
  else
    match t.creg with
    | some r => s.codecRead (s.region c r) t.pa n
    | none => (s.seen t.pa n, s.poisoned t.pa n)

/-- Bytes read by a group of a hearth at a translated address within one line: none while it must wait. Bytes that its own stores
cover come from its store buffer; a read that has waited gets the line as it was served (R228, R230). The poison flag is R317's; a
poisoned granule keeps no value. -/
def State.readBytes (s : State) (h : Nat) (c : Ctx) (owner : Nat × Nat) (t : Tr) (n : Nat) : State × Option (List Byte × Bool) :=
  let key := s.keyOfTr c t
  if s.ownBlocks owner key t.pa n then (s, none)
  else if t.creg.isNone && s.ownCovers owner t.pa n then (s, some (s.overOwn owner t n (List.replicate n 0, false)))
  else
    match s.served.find? fun x => x.who == s.reader && x.key == key with
    | some x => (s, some (s.overOwn owner t n ((x.bytes.drop (t.pa % 128)).take n, partPz x.pz t.pa n)))
    | none =>
      match s.readLine h key (leaseLen c t.lcls) t.cmpr with
      | (s, none) => (s, none)
      | (s, some pz) => (s, some (s.overOwn owner t n (s.bytesAt c t n pz)))

/-! ### Arrival and performance at the home (R230, R232, R310) -/

/-- The modules of a context's domain, this one among them (R296, R367). -/
def State.inDomain (s : State) (ctx m : Nat) : Bool :=
  m == Config.moduleNumber.toNat || bits (s.peekNat ((tabD s.ctxs ctx {}).domain + m / 8) 1) (m % 8) 1 == 1

/-- Whether a write of the host (none) or of another module is refused at a home: one of the host or of a module outside the domain
while the page is marked frozen, and until repair one of a module that a freeze went on without (R300, R306). -/
def State.refuses (s : State) (pa : Nat) (src : Option Nat) : Bool :=
  s.marks.any fun m => m.reaches pa &&
    match src with
    | some x => (m.frozen && !s.inDomain m.ctx x) || m.refuse.contains x
    | none => m.frozen

/-- A line's sharers are sent an invalidation where none is on its way (R310). -/
def State.invalidate (s : State) (key : Nat) : State :=
  if isCodecKey key then s
  else s.sendInvals key ((dieList (s.sharers (regionOf key))).filter fun d =>
    d != (homeOf key).1 && !s.invals.any fun i => i.die == d && i.key == key)

/-- The copies of lines of memory that the device is about to write are called back: other dies' are invalidated, and a lent line returns
(R233, R310). -/
def State.clearWay (s : State) (pas : List Nat) : State :=
  pas.foldl (fun s pa => (s.modHome (physKey pa) fun x => { x with recalled := x.recalled || x.lent.isSome }).invalidate (physKey pa)) s

/-- Something is still to be called back. -/
def State.mayClear (s : State) (pas : List Nat) : Bool :=
  pas.any fun pa =>
    let key := physKey pa
    ((s.home key).lent.isSome && !(s.home key).recalled) || ((dieList (s.sharers (regionOf key))).any fun d =>
      d != (homeOf key).1 && !s.invals.any fun i => i.die == d && i.key == key)

/-- The backing lines under a codec line's blocks; none for another line. -/
def State.underLines (s : State) (key : Nat) : List Nat := if isCodecKey key then (s.backingKeys key).map keyPa else []

/-- A write arrives at its home: it takes its place in arrival order, and a region with sharers is invalidated there
(R230, R310); so are the backing lines that a codec write encodes into. A write to another module is performed at its target on arrival
(R323). -/
def State.arrive (s : State) (p : Pend) : State :=
  if isOther (keyPa p.key) then (({ s with pend := s.pend.filter (·.id != p.id) } : State).carry p.key true).perform p
  else
    (({ s.newId with
      pend := s.pend.map fun q => if q.id = p.id then { q with arrived := true, arr := s.nextId } else q } : State).invalidate p.key).clearWay (s.underLines p.key)

/-- The first of a line's arrived writes and atomics (R230). -/
def firstArrived (l : List Pend) (key : Nat) : Option Pend :=
  (l.filter fun p => p.key == key && p.arrived).foldl (fun o p => if o.all (p.arr < ·.arr) then some p else o) none

/-- Whether a line's first pending write may be performed now: the latest expiry has passed, every acknowledgement is in
and the line is not lent (R230, R233, R310); for a codec line also those of the backing lines it writes. -/
def State.canPerform (s : State) (key : Nat) : Bool :=
  (s.home key).exp ≤ s.now && !s.invals.any (·.key == key) && !s.rebuilding key && (s.home key).lent.isNone && !s.snooped key &&
    (s.underLines key).all fun pa => (s.home (physKey pa)).exp ≤ s.now && !s.invals.any (·.key == physKey pa)

/-- One waiting read served from the line as it stands, with a fresh lease; its reader has the bytes (R230). A projection's latent
line is not installed (R181). A die fenced from the home gets nothing: its access faults as it is tried again (R311). -/
def State.serveOne (s : State) (key : Nat) (w : Wait) : State :=
  if s.fenced (dieOf w.h) key then s
  else
    let (s, l) := s.grantLine w.h key w.len (s.frozenGen key) w.cmpr
    let (s, l) := match w.who with
      | some who => s.inRunTime key who l
      | none => (s, l)
    let s := match (if w.who.any fun x => x.1 = readerProj then none else l) with
      | some l => s.l1Install w.h l
      | none => s
    match w.who with
    | some who =>
      { s with served := s.served ++ [{ who := who, key := key, bytes := (s.lineNow key).1, pz := (s.lineNow key).2, copy := l }] }
    | none => s

/-- A projection's read waits on at the home while its group's own store to the line is not performed (R191). -/
def State.waitsOn (s : State) (key : Nat) (w : Wait) : Bool :=
  s.projs.any fun p => w.who == some (readerProj, p.id) && s.ownWrites p.owner key

/-- The reads waiting at a home served, each with a fresh lease (R230). -/
def State.serveWaiting (s : State) (key : Nat) : State :=
  let l := (s.home key).waiting
  (l.filter fun w => !s.waitsOn key w).foldl (fun s w => s.serveOne key w) (s.modHome key fun x => { x with waiting := l.filter (s.waitsOn key) })

/-- The host halves the device writes become modified (R321). -/
def State.ownHalf (s : State) (p : Pend) : State :=
  let mark := fun (pa n : Nat) =>
    if isHost pa && s.cxl then
      { s with halves := (List.range ((pa + n - 1) / 64 - pa / 64 + 1)).foldl (fun t i => tabSet t (pa % 2 ^ 50 / 64 + i) .m) s.halves }
    else s
  match p.kind with
  | .store pa data _ => mark pa data.length
  | .atomic pa w _ _ _ _ _ => mark pa w
  | _ => s

/-- The predictor after an atomic of a hearth, or after another agent's access (R233): at four the home means to lend,
when the hearth is of its own die and the line may be lent. -/
def State.predict (s : State) (key : Nat) (h : Option Nat) : State :=
  s.modHome key fun x =>
    match h with
    | none => { x with pred := none, lendTo := none }
    | some h =>
      let n := match x.pred with
        | some (p, n) => if p = h then n + 1 else 1
        | none => 1
      let may := n ≥ 4 && dieOf h == (homeOf key).1 && !isCodecKey key && bits (keyPa key) 50 2 == 0 && (s.markOn key).isNone
      { x with pred := some (h, n), lendTo := if may then some h else none }

/-- The clocks a codec's step takes of its encoder, one for each whole block, and of its merge unit, 16 for each block that is merged or
takes an atomic (R292); none for plain memory. -/
def Pend.codecStep (p : Pend) : Option (Nat × Nat) :=
  match p.kind with
  | .codecStore _ _ ws =>
    let blocks := (ws.map (·.1 / 32)).foldl addOnce []
    let whole := (blocks.filter fun i => (blockWrites i ws).length = 32).length
    some (whole, 16 * (blocks.length - whole))
  | .codecAdd _ _ adds => some (0, 16 * ((adds.map (·.off / 32)).foldl addOnce []).length)
  | _ => none

/-- A codec's steps on a line begin once the slice's units are free, and end when both are done (R292). -/
def State.codecStart (s : State) (p : Pend) (n : Nat × Nat) : State :=
  let (d, sl) := homeOf p.key
  let u := 3 * (24 * d + sl)
  let take := fun (x : State × Nat) (v k : Nat) =>
    if k = 0 then x
    else
      let t := max s.clk (tabD x.1.codecFree v 0) + k
      ({ x.1 with codecFree := tabSet x.1.codecFree v t }, max x.2 t)
  let (s, t) := take (take (s, s.clk) u n.1) (u + 1) n.2
  { s with pend := s.pend.map fun (x : Pend) => if x.id = p.id then { x with ready := some t } else x }

/-- An access is not in the midst of a codec's step. -/
def Pend.steps (p : Pend) (clk : Nat) : Bool := p.ready.all (· ≤ clk)

/-- The reads that wait at a line served once its write is performed: another agent's access ends the predictor's count, and the
copies given out are invalidated for the next write that has arrived (R230, R233, R310). -/
def State.afterPerform (s : State) (key : Nat) (h : Option Nat) : State :=
  let other := (s.home key).waiting.any fun w => some w.h != h
  let s := s.serveWaiting key
  let s := if other then s.predict key none else s
  if s.pend.any fun p => p.key == key && p.arrived then s.invalidate key else s

/-- A line served to a group's readers is what it was before the group's own write; they read it again. -/
def State.forgetOwn (s : State) (p : Pend) : State :=
  match p.owner.bind s.keyOf with
  | some k => { s with served := s.served.filter fun x => !(x.key == p.key && x.who.1 < 3 && x.who.2 == k) }
  | none => s

/-- The first arrived write or atomic of a line performed and the waiting reads served (R230, R232); on a codec region the
step of the codec comes first (R292). -/
def State.performFirst (s : State) (key : Nat) (atomic : Bool) : State :=
  match firstArrived s.pend key with
  | some p =>
    if p.isAtomic == atomic && s.canPerform key && s.answerReady p && p.steps s.clk then
      match (if p.ready.isNone then p.codecStep else none) with
      | some n => s.codecStart p n
      | none =>
      let h := (p.owner.bind s.keyOf).map hearthOf
      let s := { s with pend := s.pend.filter (·.id != p.id) }
      ((((s.perform p).ownHalf p).forgetOwn p).predict key (if atomic then h else none)).afterPerform key h
    else s
  | none => s

/-! ### What the dispatchers read (R322, R369) -/

/-- Bytes the device reads for itself must wait at their home: a write there has arrived, a snoop has not been answered, or its own write of
a DONE word is on its way (R230, R322, R370). -/
def State.readHeld (s : State) (pa n : Nat) : Bool :=
  s.ownBusy ownDone || (linesOf pa n).any fun x => (s.pend.any fun p => p.key == physKey x && p.arrived) || s.snooped (physKey x)

/-- The lines of a range used at their homes by such a read. -/
def State.readLines (s : State) (pa n : Nat) : State := (linesOf pa n).foldl (fun s x => s.touchL2 (physKey x) false (s.cmprMark (physKey x))) s

/-- The place in host memory of a window's slot for a record (R369). -/
def Queue.slotPa (q : Queue) (n : Nat) : Nat := 2 ^ 50 + q.window + 256 * (n % max q.nslot 1)

/-- A dispatcher holds the seal line of its queue's next slot under CXL.cache (R369). -/
def State.holdSeal (s : State) (q : Queue) : State := if s.cxl && q.die.isSome then s.readLines (q.slotPa q.prog + 255) 1 else s

/-- After the host's write of a line, the dispatchers that held it as a seal line read it again (R369). -/
def State.rereadSeal (s : State) (key : Nat) : State :=
  s.queues.foldl (fun s (p : Nat × Queue) => if physKey (p.2.slotPa p.2.prog + 255) = key then s.holdSeal p.2 else s) s

end Sys2Proof.Machine
end

