-- ==== Sys2Proof/Machine/Access.lean ====
section
/-! DEFINITION. The checks of an access (R98, R104, R164, R165, R254, R365) and the four spaces' bytes (R200, R217–R224). -/

namespace Sys2Proof.Machine

/-- What an access needs: permissions, whether it is an atomic, and whether a codec region takes it. -/
structure AccK where
  rd : Bool := false
  wr : Bool := false
  at_ : Bool := false
  ldv : Bool := false
  codecOk : Bool := true
  pcieOk : Bool := true
  deriving DecidableEq, Repr

/-- A plain load. -/
def accLoad : AccK := { rd := true }

/-- A store, with whether codec regions take it (R98 step 6, R168). -/
def accStore (codecOk : Bool) : AccK := { wr := true, codecOk := codecOk }

/-- An atomic: R98 asks write permission; host memory in plain PCIe mode takes only some (R321). -/
def accAtomic (codecOk pcieOk : Bool) : AccK := { wr := true, at_ := true, codecOk := codecOk, pcieOk := pcieOk }

/-- The outcome of an access's checks. -/
inductive Chk where
  | ok (t : Tr)
  | trap (t : Trap)
  | wait
  deriving DecidableEq, Repr

/-- A trap of an access. -/
def accTrap (code : Nat) (a : AccK) (va : W64) (size : Nat) : Trap :=
  { code := code, addr := va, wr := a.wr, at_ := a.at_, ldv := a.ldv, size := size }

/-- Whether n bytes from a base in a space conflict with a registered range (R254, R365). -/
def State.conflict (s : State) (h ctx wg gidx : Nat) (sp : Space) (base n : Nat) (wr : Bool) : Bool :=
  s.locks.any fun p => p.1 / 64 == h && p.2.space == sp &&
    (match sp with
      | .glob => p.2.ctx == ctx
      | .scratch => p.2.wg == wg
      | .priv => p.2.wg == wg && p.2.gidx == gidx
      | .acc => false) &&
    (p.2.dst || wr) && base < p.2.base + p.2.len && p.2.base < base + n

/-- Checks 5 and 6 of R98 and R164 on a translated address, after its permission: frozen, thawing, codec. -/
def chkRegion (a : AccK) (va : W64) (size : Nat) (t : Tr) : Option Chk :=
  if a.wr && (t.fst == 1 || t.fst == 3) then some (.trap (accTrap 0x08 a va size))
  else if a.wr && t.fst == 2 then some .wait
  else if t.creg.isSome && !a.codecOk then some (.trap (accTrap 0x09 a va size))
  else none

/-- The checks of a translated global access from permission on (R98 steps 4–7): illegal access, fence, region, locks. A load issued again
after a save is not checked against the locks, since it was issued before they were registered (R254). -/
def State.chkTr (s : State) (k : Nat) (g : Group) (a : AccK) (va : W64) (size : Nat) (t : Tr) (locked : Bool := true) : Chk :=
  let h := hearthOf k
  let illegal := (a.rd && !t.rd) || (a.wr && !t.wr) ||
    s.fenced (dieOf h) (s.keyOfTr (tabD s.ctxs g.ctx {}) t) || (isHost t.pa && t.creg.isNone && !s.cxl && !a.pcieOk)
  if illegal then .trap (accTrap 0x06 a va size)
  else
    match chkRegion a va size t with
    | some c => c
    | none =>
      if locked && s.conflict h g.ctx g.wg g.gidx .glob (va57 va) size a.wr then .trap (accTrap 0x0A a va size) else .ok t

/-- The checks of a global access through the TLB, canonical form first (R98 steps 3–7). -/
def State.chkTlb (s : State) (k : Nat) (g : Group) (a : AccK) (va : W64) (size : Nat) (locked : Bool := true) : State × Chk :=
  if canonical va then
    match s.translate (hearthOf k) g.ctx va with
    | (s, .ok t) => (s, s.chkTr k g a va size t locked)
    | (s, .absent e) => (s, .trap { accTrap 0x05 a va size with s3 := e })
    | (s, .illegal m) => (s, .trap { accTrap 0x06 a va size with malf := m })
  else (s, .trap (accTrap 0x06 a va size))

/-- The checks of a scalar access in the order of R98: alignment, then those of the TLB. -/
def State.chkScalar (s : State) (k : Nat) (g : Group) (a : AccK) (va : W64) (size : Nat) (locked : Bool := true) : State × Chk :=
  if va.toNat % size != 0 then (s, .trap (accTrap 0x07 a va size)) else s.chkTlb k g a va size locked

/-- Virtual bytes read as stoker loads by pieces that end at multiples of 8 (R98, R188, R336, R337, R371): the bytes with a
poison flag, a trap, or none while a read waits. The first number bounds the pieces, the second counts the bytes. -/
def State.readSpan (s : State) (k : Nat) (g : Group) (va : W64) : Nat → Nat → State × (Option (List Byte × Bool) ⊕ Trap)
  | 0, _ | _, 0 => (s, .inl (some ([], false)))
  | fuel + 1, n + 1 =>
    let m := min (n + 1) (8 - va.toNat % 8)
    match s.chkTlb k g accLoad va m with
    | (s, .trap t) => (s, .inr t)
    | (s, .wait) => (s, .inl none)
    | (s, .ok t) =>
      if t.creg.isNone && s.noReply (hearthOf k) g.ctx s.reader (physKey t.pa) then
        (s.sendReader (hearthOf k) g.ctx g.name 0 s.reader false va (physKey t.pa) m, .inl none)
      else
      match s.readBytes (hearthOf k) (tabD s.ctxs g.ctx {}) g.name t m with
      | (s, none) => (s, .inl none)
      | (s, some (b, p)) =>
      match s.ownRead (hearthOf k) g.ctx t.pa b with
      | (s, none) => (s, .inl none)
      | (s, some b) =>
        match s.readSpan k g (va + BitVec.ofNat 64 m) fuel (n + 1 - m) with
        | (s, .inl (some (r, q))) => (s, .inl (some (b ++ r, p || q)))
        | x => x

/-- n bytes read from an address up as stoker loads. -/
def State.readRange (s : State) (k : Nat) (g : Group) (va : W64) (n : Nat) : State × (Option (List Byte × Bool) ⊕ Trap) :=
  match s.readSpan k g va (n + 1) n with
  | (t, .inl none) => (t.undoTrace s, .inl none)
  | x => x

/-- The record of a waiting engine command, read once at its issue: that which it has read, else n bytes at an address (R336, R337). -/
def State.readOnce (s : State) (k : Nat) (g : Group) (va : W64) (n : Nat) : State × (Option (List Byte) ⊕ Trap) :=
  match g.got with
  | some b => (s, .inl (some b))
  | none =>
    match s.readRange k g va n with
    | (s, .inl x) => (s, .inl (x.map (·.1)))
    | (s, .inr t) => (s, .inr t)

/-- An engine command waits with the record it has read. -/
def State.waitGot (s : State) (k : Nat) (g : Group) (b : List Byte) : State := s.setG k { g with got := some b, sWait := true }

/-! ### Scratchpad (R200, R223, R224) -/

/-- A workgroup of the table. -/
def State.wgOf (s : State) (n : Nat) : Wg := tabD s.wgs n { grid := 0, ctx := 0, ix := 0, iy := 0, iz := 0, hearth := 0, slots := [] }

/-- A workgroup changed. -/
def State.modWg (s : State) (n : Nat) (f : Wg → Wg) : State := { s with wgs := tabMod s.wgs n f }

/-- Bytes of a workgroup's scratchpad: its `.scratch` rounded up to 4 KiB (R222). -/
def Wg.scratchBytes (w : Wg) : Nat := (w.scratch + 4095) / 4096 * 4096

/-- A scratchpad byte; one not written since placement is unspecified, one in a poisoned granule lost (R200, R317, log 8). -/
def Wg.spByte (w : Wg) (off : Nat) : Byte :=
  if w.spPz.contains (off / 32) then Config.poisonByte w.stamp off else (tabGet w.sp off).getD (Config.scratchByte w.stamp off)

/-- n scratchpad bytes from an offset. -/
def Wg.spRead (w : Wg) (off n : Nat) : List Byte := (List.range n).map fun i => w.spByte (off + i)

/-- Whether a range of scratchpad touches a poisoned granule (R317, R318). -/
def Wg.spPoisoned (w : Wg) (off n : Nat) : Bool := (granules off n).any w.spPz.contains

/-- Granule marks after a write: a poisoned write marks, a covering write heals (R317). -/
def granuleMarks (marks : List Nat) (off n : Nat) (pz : Bool) : List Nat :=
  if pz then (granules off n).foldl addOnce marks
  else marks.filter fun g => !(off ≤ 32 * g && 32 * g + 32 ≤ off + n)

/-- The pages of 4 KiB a range touches. -/
def pagesOf (off n : Nat) : List Nat :=
  if n = 0 then [] else (List.range ((off + n - 1) / 4096 - off / 4096 + 1)).map (· + off / 4096)

/-- Scratchpad bytes written; the pages touched count as written since they became resident (R224). -/
def Wg.spWrite (w : Wg) (off : Nat) (data : List Byte) (pz : Bool) : Wg :=
  { w with
    sp := tabPut w.sp off data, spPz := granuleMarks w.spPz off data.length pz,
    pages := (pagesOf off data.length).foldl (fun t p => tabMod t p fun x => { x with written := true }) w.pages }

/-- The first page of a range that is not resident (R224). -/
def Wg.missing (w : Wg) (off n : Nat) : Option Nat :=
  (pagesOf off n).find? fun p => match tabGet w.pages p with
    | some x => !x.resident
    | none => false

/-- The free scratchpad page slots of a hearth (R223). -/
def State.freePages (s : State) (h : Nat) : List Nat :=
  let used := s.wgs.foldr (fun (p : Nat × Wg) acc =>
    if p.2.hearth = h then (p.2.pages.filterMap fun (q : Nat × SpPage) => if q.2.resident then some q.2.slot else none) ++ acc else acc) []
  (List.range 128).filter fun n => !used.contains n

/-- The backing page of a workgroup's scratchpad page by its number (R223; the place in the area is the model's, log 23). -/
def State.backPage (s : State) (w : Wg) (back : Nat) : Nat := (tabD s.ctxs w.ctx {}).spback + 4096 * (w.hearth + 144 * back)

/-- A page that is not resident takes a slot and is read back from its backing through L2 (R224). -/
def State.refill (s : State) (wg page : Nat) : State :=
  let w := s.wgOf wg
  match tabGet w.pages page with
  | some x =>
    if x.resident then s
    else
      let back := s.backPage w x.back
      let s := (List.range 32).foldl (fun s i => s.touchL2 (physKey (back + 128 * i)) false false) s
      let pz := (List.range 128).filter fun i => s.poison.contains (back / 32 + i)
      s.modWg wg fun w =>
        { w with
          pages := tabSet w.pages page { x with resident := true, written := false, slot := (s.freePages w.hearth).headD 0 },
          sp := tabPut w.sp (4096 * page) (s.peek back 4096),
          spPz := (w.spPz.filter fun g => g / 128 != page) ++ pz.map (· + 128 * page) }
  | none => s

/-! ### Private memory (R217–R219) -/

/-- The flat offset of a private byte: PrivAddr(t, o) − PB (R217). -/
def privFlat (width t o : Nat) : Nat := o / 4 * (4 * width) + 4 * t + o % 4

/-- n private bytes of a thread from an offset. -/
def Group.privRead (g : Group) (t o n : Nat) : List Byte := (List.range n).map fun i => g.privByte (privFlat g.width t (o + i))

/-- Whether a thread's private bytes touch a poisoned granule. -/
def Group.privPoisoned (g : Group) (t o n : Nat) : Bool :=
  (List.range n).any fun i => g.privPz.contains (privFlat g.width t (o + i) / 32)

/-- Private bytes written from a flat offset up. -/
def Group.privWriteFlat (g : Group) (x : Nat) (data : List Byte) (pz : Bool) : Group :=
  { g with
    priv := tabPut g.priv x data, privPz := granuleMarks g.privPz x data.length pz }

/-! ### The bytes one instruction writes (R166, R220, R317) -/

/-- Bytes by address, each with its poison, in rising order: where several threads write one byte the highest stays. -/
def byteMap (l : List (Nat × Byte × Bool)) : Tab (Byte × Bool) := l.foldl (fun t x => tabSet t x.1 x.2) []

/-- Rising bytes joined into runs of adjacent addresses of one line, poisoned bytes apart. -/
def runsFrom : Tab (Byte × Bool) → List (Nat × List Byte × Bool)
  | [] => []
  | (a, b, p) :: r =>
    match runsFrom r with
    | (a', bs, p') :: q => if a + 1 = a' && a' % 128 != 0 && p == p' then (a, b :: bs, p) :: q else (a, [b], p) :: (a', bs, p') :: q
    | [] => [(a, [b], p)]

/-- The writes of one instruction: its runs, poisoned ones last, so that a granule they touch stays poisoned. -/
def runsOf (l : List (Nat × Byte × Bool)) : List (Nat × List Byte × Bool) :=
  let r := runsFrom (byteMap l)
  (r.filter fun x => !x.2.2) ++ r.filter fun x => x.2.2

/-- The clocks a private line that misses adds: 2 for the expansion of a backing line that L2 does not hold (R219, R314). -/
def State.privMiss (s : State) (h pa : Nat) : Nat :=
  if (s.l1Lines h (l1SetOf (physKey pa))).any fun l => l.kind == .priv && l.key == physKey pa then 0
  else if (tabGet s.l2 (pa / 128 * 128)).isNone then 2
  else 0

/-- The private lines a thread's access touches, one for each word of it. -/
def State.touchPrivs (s : State) (k : Nat) (g : Group) (t o n : Nat) (dirty : Bool) : State :=
  (List.range ((n + 3) / 4)).foldl (fun s i => s.touchPriv k (privFlat g.width t (o + 4 * i)) dirty) s

/-- A private line at a flat offset that L1 has not got lies across a dead link (R311). -/
def State.privCut (s : State) (k : Nat) (g : Group) (x : Nat) : Bool :=
  let key := physKey (g.pb + x)
  s.cutOff (dieOf (hearthOf k)) (g.pb + x) && !(s.l1Lines (hearthOf k) (l1SetOf key)).any fun l => l.kind == .priv && l.key == key

/-- A scratchpad page of a range that is not resident has its backing across a dead link (R224, R311). -/
def State.pageCut (s : State) (wg off n : Nat) : Bool :=
  let w := s.wgOf wg
  (pagesOf off n).any fun p => (tabGet w.pages p).any fun x => !x.resident && s.cutOff (dieOf w.hearth) (s.backPage w x.back)

/-- A page of scratchpad that an engine is about to write whole takes a slot without its backing being read through L2 (R224). Bytes that a
fault keeps from being written are those the backing holds, unspecified where it lies across a dead link (log 78). -/
def State.openPage (s : State) (wg page : Nat) : State :=
  let w := s.wgOf wg
  match tabGet w.pages page with
  | some x =>
    if x.resident then s
    else
      let back := s.backPage w x.back
      let cut := s.pageCut wg (4096 * page) 1
      let pz := (List.range 128).filter fun i => !cut && s.poison.contains (back / 32 + i)
      let rest := w.sp.filter fun p => p.1 / 4096 != page
      s.modWg wg fun w =>
        { w with
          pages := tabSet w.pages page { x with resident := true, written := false, slot := (s.freePages w.hearth).headD 0 },
          sp := if cut then rest else tabPut rest (4096 * page) (s.peek back 4096),
          spPz := (w.spPz.filter fun g => g / 128 != page) ++ pz.map (· + 128 * page) }
  | none => s

/-- A thread's bytes outside the global space, some of which lie across a dead link and not in the hearth (R311). -/
def State.spaceCut (s : State) (k : Nat) (g : Group) (sp : Space) (t o n : Nat) : Bool :=
  match sp with
  | .scratch => s.pageCut g.wg o n
  | .priv => (List.range ((n + 3) / 4)).any fun i => s.privCut k g (privFlat g.width t (o + 4 * i))
  | _ => false

/-- Runs of private bytes written by a group line by line; a line that is written whole is not read first (R219). -/
def State.privWrite (s : State) (k : Nat) (l : List (Nat × List Byte × Bool)) : State :=
  ((l.map fun r => r.1 / 128).foldl addOnce []).foldl (fun s line =>
    let mine := l.filter fun r => r.1 / 128 == line
    let n := mine.foldl (fun n r => n + r.2.1.length) 0
    (s.touchPriv k (128 * line) true (n = 128)).modG k fun g => mine.foldl (fun g r => g.privWriteFlat r.1 r.2.1 r.2.2) g) s

/-! ### Accumulator memory (R339, R350) -/

/-- An accumulator byte; one not written since placement is unspecified (log 8). -/
def Wg.accByte (w : Wg) (off : Nat) : Byte := (tabGet w.acc off).getD (Config.accByte w.stamp off)

/-- n accumulator bytes. -/
def Wg.accRead (w : Wg) (off n : Nat) : List Byte :=
  let w' := { w with acc := tabCut w.acc off (off + n) }
  (List.range n).map fun i => w'.accByte (off + i)

/-- Accumulator bytes written. -/
def Wg.accWrite (w : Wg) (off : Nat) (data : List Byte) : Wg :=
  { w with acc := tabPut w.acc off data }

end Sys2Proof.Machine
end

