-- ==== Sys2Proof/Machine/Flags.lean ====
section
/-! DEFINITION. Condition bits, mask bits and MODE: the relations of compares, rounding direction, flush and saturation
(R38, R51, R93, R114, R130, R133, R149, R151). -/

namespace Sys2Proof.Machine

/-- Relation(cc, x, y) of R51 and R93 on w-bit integers: 0 eq, 1 ne, 2 lt, 3 le, 4 gt, 5 ge. -/
def intRel (cc : Nat) (signed : Bool) (w x y : Nat) : Bool :=
  let lt := fun a b => if signed then decide (sintOf w a < sintOf w b) else decide (a % 2 ^ w < b % 2 ^ w)
  match cc with
  | 0 => x % 2 ^ w == y % 2 ^ w
  | 1 => x % 2 ^ w != y % 2 ^ w
  | 2 => lt x y
  | 3 => !lt y x
  | 4 => lt y x
  | _ => !lt x y

/-- A new MODE that `mset` takes: no reserved bit set and RND a direction (R38, R114). Bit 9, CHK, is ignored. -/
def modeOk (x : W64) : Bool :=
  x.toNat < 2 ^ 10 && !x.getLsbD 3 && 1 ≤ x.toNat % 8 && x.toNat % 8 ≤ 5

/-- MODE after `mset`: CHK keeps its value (R114). -/
def newMode (old : BitVec 32) (x : W64) : BitVec 32 := (x.setWidth 32 &&& 0x1FF) ||| (old &&& 0x200)

/-- EffDir of R130: the instruction's rounding field, or RND of MODE. -/
def effDir (mode : BitVec 32) (rnd : Nat) : Nat := if rnd = 0 then mode.toNat % 8 else rnd

/-- Whether MODE flushes subnormals of a type (R38, R133). -/
def flushOn (mode : BitVec 32) (ty : Nat) : Bool :=
  match ty with
  | 11 => mode.getLsbD 4
  | 10 => mode.getLsbD 5
  | 8 | 9 => mode.getLsbD 6
  | 12 | 13 | 14 => mode.getLsbD 7
  | _ => false

/-- sat of a conversion (R130, R152): `.sat`, or NSAT when the destination is narrower than the source. -/
def effSat (mode : BitVec 32) (sat : Bool) (dt st : Nat) : Bool := sat || (mode.getLsbD 8 && tyBits dt < tyBits st)

/-- Whether an integer type is signed (R59, R127). -/
def tySigned (ty : Nat) : Bool := ty == 0 || ty == 2 || ty == 4 || ty == 6 || ty == 15

end Sys2Proof.Machine
end

