-- ==== Sys2Proof/Machine/Operands.lean ====
section
/-! DEFINITION. The operand forms of both streams: Op2 of the stoker; Acting, Src, Imm and WriteV of the lanes, special
registers, memory operands, lookahead windows, and how an instruction's results leave it
(R12–R15, R41, R57, R58, R64, R69, R86, R142–R146, R333, R334). -/

namespace Sys2Proof.Machine

/-! ### Traps of operands (R257) -/

/-- The illegal-operand trap with the offending operand value. -/
def trapOperand (v : W64) : Trap := { code := 0x02, addr := v }
/-- The privilege trap. -/
def trapPrivilege : Trap := { code := 0x03 }
/-- The poison-consumed trap; its address is the consumer's, if it is a memory access. -/
def trapPoison (addr : W64) (size : Nat) (wr at_ : Bool := false) : Trap :=
  { code := 0x0B, addr := addr, size := size, wr := wr, at_ := at_ }
/-- The illegal-instruction trap. -/
def trapIllegal : Trap := { code := 0x01 }

/-! ### Special registers -/

/-- A placeholder kernel's grid for a group whose tables do not hold one; no run reaches it. -/
def State.gridOf (s : State) (g : Group) : Grid :=
  tabD s.grids (s.wgOf g.wg).grid { ctx := 0, kern := {}, gx := 0, gy := 0, gz := 0, ngrp := 0 }

/-- The special register of a number of R69, but for `%tid` and `%time` (R41). -/
def State.special (s : State) (k : Nat) (g : Group) (mode : BitVec 32) (n : Nat) : Nat :=
  let w := s.wgOf g.wg
  let gr := s.gridOf g
  match n with
  | 0x01 => g.gidx
  | 0x02 => gr.ngrp
  | 0x03 => g.width
  | 0x04 => g.gidx / max g.base.team 1
  | 0x05 => w.ix
  | 0x06 => w.iy
  | 0x07 => w.iz
  | 0x08 => gr.gx
  | 0x09 => gr.gy
  | 0x0A => gr.gz
  | 0x0B => hearthOf k % 36
  | 0x0C => dieOf (hearthOf k)
  | 0x0D => gr.depth
  | 0x0F => s.runClock g.ctx
  | 0x10 => g.gtime + 1
  | _ => mode.toNat

/-! ### The stoker (R86, R87) -/

/-- A result of the stoker with its tag: WriteS and the PC past the instruction. -/
def Group.result (g : Group) (sd : BitVec 6) (x : W64) (pz : Bool) (len : Nat) : Group := (g.sSet sd.toNat ⟨x, pz⟩).adv len

/-- Op2 of the SI format: the sign-extended imm13 (R86). -/
abbrev imm64 (imm : BitVec 13) : W64 := sx64 imm

/-- An operation on S[sa] and S[sb] (R89, format SR). -/
def aluR (s : State) (sd sa sb : BitVec 6) (f : W64 → W64 → W64) : Res :=
  onStoker s fun k g =>
    let a := g.sGet sa.toNat
    let b := g.sGet sb.toNat
    s.setG k (g.result sd (f a.val b.val) (a.pz || b.pz) 4)

/-- An operation on S[sa] and a literal (R89, format SI); `len` counts a `slit` marker's words. -/
def aluI (s : State) (sd sa : BitVec 6) (y : W64) (len : Nat) (f : W64 → W64 → W64) : Res :=
  onStoker s fun k g =>
    let a := g.sGet sa.toNat
    s.setG k (g.result sd (f a.val y) a.pz len)

/-- A shift by S[sb], whose poisoned count traps (R87, R90). -/
def shiftR (s : State) (sd sa sb : BitVec 6) (f : W64 → W64 → W64) : Res :=
  onStoker s fun k g =>
    let a := g.sGet sa.toNat
    let b := g.sGet sb.toNat
    if b.pz then s.trapS k g (trapPoison 0 0) else s.setG k (g.result sd (f a.val b.val) a.pz 4)

/-! ### The acting threads and the operands of a lane instruction -/

/-- What a lane instruction sees: the group and split that issue it, its fields, its acting threads, its block's snapshot
and the value of `%time`. -/
structure LEnv where
  s : State
  k : Nat
  slot : Nat
  g : Group
  sp : Split
  f : LaneF
  ts : List Nat
  snap : Snap
  time : Nat

/-- The snapshot of the executing block (R31). -/
def Group.snapOf (g : Group) : Snap :=
  match g.execBlock with
  | some b => b.snap
  | none => g.snap

/-- The acting threads in rising order (R15, R142). -/
def actingOf (g : Group) (sp : Split) (f : LaneF) : List Nat :=
  (List.range g.width).filter fun t => sp.mask.getLsbD t && (g.mGet f.mr.toNat).getLsbD t == (f.ms == 0)

/-- A mask of threads. -/
def maskOf (ts : List Nat) : Mask := ts.foldl (fun m t => setBit m t true) 0

/-- Whether an instruction reads `%time` (R69). -/
def readsTime (f : LaneF) : Bool := (f.bsel == 3 && f.vb == 0x0E) || (f.csel == 3 && f.vc == 0x0E)

/-- The value of `%time` for a lane instruction that reads it with some thread acting, else 0; none while a replay waits for
its record (R41, R334). -/
def State.laneTime (s : State) (f : LaneF) (k : Nat) (g : Group) (sp : Split) : State × Option Nat :=
  if readsTime f && !(actingOf g sp f).isEmpty then s.timeRead k g.ctx else (s, some 0)

/-- The environment of a lane instruction, in the state its read of `%time` leaves. -/
def State.laneEnv (s : State) (f : LaneF) (k slot : Nat) (g : Group) (sp : Split) (time : Nat) : LEnv :=
  { s := s, k := k, slot := slot, g := g, sp := sp, f := f, ts := actingOf g sp f, snap := g.snapOf, time := time }

/-- A lane instruction runs with its environment; one that reads `%time` in replay may wait for its record. -/
def laneRun (s : State) (f : LaneF) (body : LEnv → State) : Res :=
  onLane s fun k slot g sp =>
    match s.laneTime f k g sp with
    | (s, some t) => body (s.laneEnv f k slot g sp t)
    | (s, none) => if s.recd.mismatch then s else s.waitL k slot

/-- An operand value with its poison tag. -/
structure Opd where
  x : Nat
  pz : Bool := false
  deriving DecidableEq, Repr

/-- The value an outstanding result of the split would bring to a register, if it has come. -/
def Split.coming (sp : Split) (t r : Nat) : Option LReg :=
  sp.outs.findSome? fun o => o.vals.findSome? fun v => if v.t = t && v.r = r then v.val else none

/-- Lane register r of thread t as a lane instruction reads it: inside a window it may be the old or the new value (R144). -/
def LEnv.reg (e : LEnv) (t r : Nat) : LReg :=
  match e.sp.coming t r with
  | some x => if Config.oldOrNew e.s.free t r then x else e.g.vGet t r
  | none => e.g.vGet t r

/-- A lane register, or the pair from it for 64 bits (R36, R142). -/
def LEnv.reg64 (e : LEnv) (t r : Nat) (w64 : Bool) : Opd :=
  let lo := e.reg t r
  if w64 then
    let hi := e.reg t (r + 1)
    ⟨lo.val.toNat + 2 ^ 32 * hi.val.toNat, lo.pz || hi.pz⟩
  else ⟨lo.val.toNat, lo.pz⟩

/-- Imm(word 2, ty) (R58). A NaN under `.f64` is the canonical one, and word 2 under `.i16` and `.n16` is its 32 bits (the model's choices,
log 70). -/
def immOf (w2 : W32) (ty : Nat) : Nat :=
  match ty with
  | 6 => (sx64 w2).toNat
  | 11 => roundTo f64 (f32.decode w2.toNat) 1 false
  | _ => w2.toNat

/-- A special operand for a thread (R41, R69). -/
def LEnv.special (e : LEnv) (t n : Nat) : Nat :=
  match n with
  | 0x00 => t
  | 0x0E => e.time
  | _ => e.s.special e.k e.g e.snap.mode n

/-- Src(sel, f, t, ty) of R142. -/
def LEnv.src (e : LEnv) (sel : BitVec 2) (f : BitVec 8) (t ty : Nat) : Opd :=
  let w64 := tyIs64 ty
  match sel.toNat with
  | 0 => e.reg64 t f.toNat w64
  | 1 =>
    let x := if f = 0 then {} else tabD e.snap.s f.toNat {}
    ⟨if w64 then x.val.toNat else x.val.toNat % 2 ^ 32, x.pz⟩
  | 2 => ⟨immOf e.f.w2 ty, false⟩
  | _ => ⟨if w64 then e.special t f.toNat else e.special t f.toNat % 2 ^ 32, false⟩

/-- The type code of the instruction. -/
abbrev LEnv.ty (e : LEnv) : Nat := e.f.ty.toNat

/-- A(t), B(t) and C(t) of R142. -/
def LEnv.opA (e : LEnv) (t : Nat) : Opd := e.reg64 t e.f.va.toNat (tyIs64 e.ty)
def LEnv.opB (e : LEnv) (t : Nat) : Opd := e.src e.f.bsel e.f.vb t e.ty
def LEnv.opC (e : LEnv) (t : Nat) : Opd := e.src e.f.csel e.f.vc t e.ty

/-! ### Results of a lane instruction -/

/-- The registers a result of one, two or four words fills, with one tag (R36, R142). -/
def resultRegs (t r words x : Nat) (pz : Bool) : List OutV :=
  (List.range words).map fun i => ⟨t, r + i, some ⟨BitVec.ofNat 32 (x / 2 ^ (32 * i)), pz⟩⟩

/-- An outstanding result no longer writes a register of a thread. -/
def Split.forget (sp : Split) (t r : Nat) : Split :=
  { sp with outs := sp.outs.map fun o => { o with vals := o.vals.filter fun v => !(v.t == t && v.r == r) } }

/-- Whether an outstanding result of the split writes a register of a thread. -/
def Split.owes (sp : Split) (t r : Nat) : Bool := sp.outs.any fun o => o.vals.any fun v => v.t == t && v.r == r

/-- A register of a thread written. Where an outstanding result will write it too, the register ends with either value
(R144): by the choice this write is the last, or the outstanding result is. -/
def Group.regWrite (g : Group) (slot stamp : Nat) (v : OutV) : Group :=
  match v.val with
  | some x =>
    let g := g.vSet v.t v.r x
    match g.split slot with
    | some sp =>
      if sp.owes v.t v.r && Config.oldOrNew stamp v.t (256 + v.r) then g.setSplit slot (some (sp.forget v.t v.r)) else g
    | none => g
  | none => g

/-- A new outstanding result of a split (R144). A register another outstanding result writes ends with either value. -/
def Split.pushOut (sp : Split) (stamp : Nat) (o : Out) : Split :=
  let clash := o.vals.filter fun v => sp.owes v.t v.r
  let sp' := clash.foldl (fun sp v => if Config.oldOrNew stamp v.t (256 + v.r) then sp.forget v.t v.r else sp) sp
  let mine := o.vals.filter fun v => !(sp.owes v.t v.r && !Config.oldOrNew stamp v.t (256 + v.r))
  { sp' with outs := sp'.outs ++ [{ o with vals := mine }] }

/-- A split past an instruction: its PC moves 12 bytes and each window that was open before counts one instruction. -/
def Split.past (sp : Split) (firstNew : Nat) : Split :=
  { sp with
    pc := sp.pc + 12, waiting := false, bound := none,
    outs := sp.outs.map fun o => if o.id < firstNew then { o with left := o.left - 1 } else o }

/-- The instruction completes: the group as it left it, its split past it, and the free-value counter advanced. -/
def LEnv.done (e : LEnv) (s : State) (g : Group) : State :=
  s.stamp.setG e.k (g.setSplit e.slot ((g.split e.slot).map fun sp => sp.past e.s.nextId))

/-- Results written at once (short latency, interlocked; R143). -/
def LEnv.write (e : LEnv) (vs : List OutV) : State :=
  e.done e.s (vs.foldl (fun g v => g.regWrite e.slot e.s.free v) e.g)

/-- A result of a lane instruction that is written when its window has ended and it has come (R16, R144). -/
def LEnv.owe (e : LEnv) (o : Out) : State :=
  e.done e.s.newId (e.g.setSplit e.slot ((e.g.split e.slot).map fun sp =>
    sp.pushOut e.s.free { o with id := e.s.nextId, left := e.f.la.toNat, pc := e.sp.pc }))

/-- Results of a long-latency instruction that reads no memory: written at once without lookahead, since a save completes them (R179),
else outstanding for their window (R16, R144). -/
def LEnv.writeLong (e : LEnv) (vs : List OutV) : State :=
  if e.f.la = 0 then e.write vs else e.owe { id := 0, left := 0, vals := vs }

/-- Mask bits written in the acting threads (R149, R178). -/
def LEnv.writeMask (e : LEnv) (n : Nat) (f : Nat → Bool) : State :=
  e.done e.s (e.g.mSet n (e.ts.foldl (fun m t => setBit m t (f t)) (e.g.mGet n)))

/-- A pending copy of the block (R33, R162); with no acting thread none is made (R142). -/
def LEnv.pend (e : LEnv) (p : PendW) : State :=
  e.done e.s (if e.ts.isEmpty then e.g else e.g.modExec fun b => { b with pend := b.pend ++ [p] })

/-- A precise trap of a lane instruction for a set of threads. -/
def LEnv.trap (e : LEnv) (t : Trap) (threads : Mask) : State := e.s.trapL e.k e.slot e.g e.sp t threads

/-- A trap of the instruction as a whole: every thread of the split (R259). -/
def LEnv.trapAll (e : LEnv) (t : Trap) : State := e.trap t e.sp.mask

/-- The poison check of operands that trap (R146): the acting threads whose tag is set. -/
def LEnv.consuming (e : LEnv) (f : Nat → Bool) : List Nat := e.ts.filter f

/-- The instruction traps when an acting thread would consume poison, else goes on. -/
def LEnv.guard (e : LEnv) (f : Nat → Bool) (go : State) : State :=
  match e.consuming f with
  | [] => go
  | bad => e.trap (trapPoison 0 0) (maskOf bad)

/-- Element-wise results of the acting threads, one result of `words` registers each. -/
def LEnv.map (e : LEnv) (words : Nat) (f : Nat → Opd) : List OutV :=
  e.ts.foldr (fun t acc => let o := f t; resultRegs t e.f.vd.toNat words o.x o.pz ++ acc) []

/-- Registers of a result of the instruction's type. -/
def LEnv.words (e : LEnv) : Nat := tyRegs e.ty

/-- One-, two- and three-source element-wise results: the tag is the OR of the sources' (R146). -/
def LEnv.map1 (e : LEnv) (f : Nat → Nat) : List OutV :=
  e.map e.words fun t => let a := e.opA t; ⟨f a.x, a.pz⟩
def LEnv.map2 (e : LEnv) (f : Nat → Nat → Nat) : List OutV :=
  e.map e.words fun t => let a := e.opA t; let b := e.opB t; ⟨f a.x b.x, a.pz || b.pz⟩
def LEnv.map3 (e : LEnv) (f : Nat → Nat → Nat → Nat) : List OutV :=
  e.map e.words fun t => let a := e.opA t; let b := e.opB t; let c := e.opC t; ⟨f a.x b.x c.x, a.pz || b.pz || c.pz⟩

end Sys2Proof.Machine
end

