-- ==== Sys2Proof/Machine/StokerMem.lean ====
section
/-! DEFINITION. The stoker's loads, stores, ordered forms, fence, atomics and translation registers
(R87, R98–R105, R245–R251, R321). -/

namespace Sys2Proof.Machine

/-! ### Shared operations -/

/-- A load of another module's memory gets no response within 10 µs (R325, log 22). -/
def State.unanswered (s : State) (k : Nat) (g : Group) (t : Tr) : Bool :=
  t.creg.isNone && s.lostRead g.ctx (hearthOf k) (physKey t.pa) s.nextId

/-- The bytes of such a load stay out until it times out (R325); later accesses wait for an acquire (R100). -/
def State.sendLost (s : State) (k : Nat) (g : Group) (n : Nat) (va : W64) (t : Tr) (size : Nat) (signed : Bool) (pc : W64) (acq : Bool) : State :=
  let p : Pend :=
    { id := s.nextId, key := physKey t.pa, ctx := g.ctx, owner := some g.name, arrived := false, issued := s.clk, va := va, blk := 0,
      acq := acq, kind := .lost (if n = 0 then .none else .scalar n signed) size pc, hearth := hearthOf k }
  { s.sendOut (physKey t.pa) with pend := s.pend ++ [p], nextId := s.nextId + 1 }

/-- A load that gets no response leaves its result pending. -/
def State.lostLoad (s : State) (k : Nat) (g : Group) (sd : BitVec 6) (va : W64) (t : Tr) (size : Nat) (signed : Bool) (len : Nat)
    (acq : Bool) : State :=
  (s.setG k ({ g with sPend := if sd = 0 then g.sPend else g.sPend ++ [sd.toNat] }.adv len)).sendLost k g sd.toNat va t size signed g.spc acq

/-- Bytes that a stoker's load reads at a translated address, a recorded context's own reads of host memory and of other modules logged
or taken from its log; none while it waits (R228, R333, R334). -/
def State.stokerRead (s : State) (k : Nat) (g : Group) (t : Tr) (size : Nat) : State × Option (List Byte × Bool) :=
  match s.readBytes (hearthOf k) (tabD s.ctxs g.ctx {}) g.name t size with
  | (s, none) => (s, none)
  | (s, some (b, p)) =>
    match s.ownRead (hearthOf k) g.ctx t.pa b with
    | (s, some b) => (s, some (b, p))
    | (s, none) => (s, none)

/-- A scalar load of `size` bytes (R87, R98, R99): the address's poison, the checks, then the value extended. -/
def loadS (s : State) (sd : BitVec 6) (a : BitVec 6) (off : W64) (size : Nat) (signed : Bool) (len : Nat) (acq : Bool := false) : Res :=
  onStoker s fun k g =>
    let base := g.sGet a.toNat
    let va := base.val + off
    if base.pz then s.trapS k g (trapPoison va size) len
    else
      match s.chkScalar k g accLoad va size with
      | (s, .trap t) => s.trapS k g t len
      | (s, .wait) => s.waitS k
      | (s, .ok t) =>
        if s.unanswered k g t then s.lostLoad k g sd va t size signed len acq
        else
        match s.stokerRead k g t size with
        | (s, none) => s.waitS k
        | (s, some (b, p)) =>
          let x := leNat b
          s.setG k ((s.fresh k g).result sd (if signed then (BitVec.ofNat (8 * size) x).signExtend 64 else BitVec.ofNat 64 x) p len)

/-- A write of a group to a translated address on its way to the home; it gathers the page's D bit (R98, R228, R242). -/
def State.storeAt (s : State) (k : Nat) (g : Group) (va : W64) (t : Tr) (data : List Byte) (pz : Bool) (blk : Nat) : State :=
  let s := s.gatherD (hearthOf k) g.ctx va
  s.issueWrite (hearthOf k) g.ctx (some g.name) va (s.keyOfTr (tabD s.ctxs g.ctx {}) t) blk false
    (match t.creg with
      | some r => .codecStore g.ctx r ((enumFrom t.pa data).map fun x => (x.1, x.2, pz))
      | none => .store t.pa data pz)

/-- A scalar store of the low `size` bytes of S[sd] (R87, R98, R99). At a scope it waits until the earlier accesses of the stoker and
of its retired blocks that the scope covers are performed (R100, R245); a plain store has scope 0. -/
def storeS (s : State) (sd : BitVec 6) (a : BitVec 6) (off : W64) (size scope : Nat) (len : Nat) : Res :=
  onStoker s fun k g =>
    let base := g.sGet a.toNat
    let x := g.sGet sd.toNat
    let va := base.val + off
    if base.pz then s.trapS k g (trapPoison va size true) len
    else
      match s.chkScalar k g (accStore (size == 8)) va size with
      | (s, .trap t) => s.trapS k g t len
      | (s, .wait) => s.waitS k
      | (s, .ok t) =>
        if s.stokerPending g.name scope then s.waitS k
        else (s.setG k (g.adv len)).storeAt k g va t (leBytes size x.val.toNat) x.pz 0

/-- Whether an atomic may reach host memory in plain PCIe mode: `aadd` of integers, `axchg` and `acas` (R321). -/
def pcieAtomic (op ty : Nat) : Bool := (op == 0 && (fmtOf ty).isNone) || op == 6 || op == 7

/-- A scalar atomic (R87, R98, R102). `op` and `ty` are the codes of R68 and R59; with `ar` earlier accesses are performed
first, as far as its scope covers them, and later ones wait for it. -/
def atomicS (s : State) (w : BitVec 1) (sd sa sb : BitVec 6) (op : Nat) (signed : Bool) (ar : Option Nat) : Res :=
  onStoker s fun k g =>
    let base := g.sGet sa.toNat
    let x := g.sGet sb.toNat
    let cmp := g.sGet sd.toNat
    let size := if w = 0 then 4 else 8
    let ty := (if w = 0 then 4 else 6) + (if signed then 0 else 1)
    if base.pz || x.pz || (op == 7 && cmp.pz) then s.trapS k g (trapPoison base.val size true true)
    else
      match s.chkScalar k g (accAtomic false (pcieAtomic op ty)) base.val size with
      | (s, .trap t) => s.trapS k g t
      | (s, .wait) => s.waitS k
      | (s, .ok t) =>
        let ordered := (ar.getD 0) != 0
        if s.stokerPending g.name (ar.getD 0) || (ordered && s.stokerReading g.name) then s.waitS k
        else
          let g' := { g with sPend := if sd = 0 then g.sPend else g.sPend ++ [sd.toNat] }.adv 4
          let s := (s.setG k g').gatherD (hearthOf k) g.ctx base.val
          s.issueWrite (hearthOf k) g.ctx (some g.name) base.val (s.keyOfTr (tabD s.ctxs g.ctx {}) t) 0 ordered
            (.atomic t.pa size op ty x.val cmp.val (if sd = 0 then .none else .scalar sd.toNat (signed && w == 0)))

/-! ### Loads and stores -/

/-- `ldN8` (R99). -/
def execLdN8 (sd sa : BitVec 6) (imm : BitVec 13) (s : State) : Res :=
  loadS s sd sa (imm64 imm) 1 false 4

/-- `ldI8` (R99). -/
def execLdI8 (sd sa : BitVec 6) (imm : BitVec 13) (s : State) : Res :=
  loadS s sd sa (imm64 imm) 1 true 4

/-- `ldN16` (R99). -/
def execLdN16 (sd sa : BitVec 6) (imm : BitVec 13) (s : State) : Res :=
  loadS s sd sa (imm64 imm) 2 false 4

/-- `ldI16` (R99). -/
def execLdI16 (sd sa : BitVec 6) (imm : BitVec 13) (s : State) : Res :=
  loadS s sd sa (imm64 imm) 2 true 4

/-- `ldN32` (R99). -/
def execLdN32 (sd sa : BitVec 6) (imm : BitVec 13) (s : State) : Res :=
  loadS s sd sa (imm64 imm) 4 false 4

/-- `ldI32` (R99). -/
def execLdI32 (sd sa : BitVec 6) (imm : BitVec 13) (s : State) : Res :=
  loadS s sd sa (imm64 imm) 4 true 4

/-- `ldB64` (R99). -/
def execLdB64 (sd sa : BitVec 6) (imm : BitVec 13) (s : State) : Res :=
  loadS s sd sa (imm64 imm) 8 false 4

/-- `stB8` (R99). -/
def execStB8 (sd sa : BitVec 6) (imm : BitVec 13) (s : State) : Res :=
  storeS s sd sa (imm64 imm) 1 0 4

/-- `stB16` (R99). -/
def execStB16 (sd sa : BitVec 6) (imm : BitVec 13) (s : State) : Res :=
  storeS s sd sa (imm64 imm) 2 0 4

/-- `stB32` (R99). -/
def execStB32 (sd sa : BitVec 6) (imm : BitVec 13) (s : State) : Res :=
  storeS s sd sa (imm64 imm) 4 0 4

/-- `stB64` (R99). -/
def execStB64 (sd sa : BitVec 6) (imm : BitVec 13) (s : State) : Res :=
  storeS s sd sa (imm64 imm) 8 0 4

/-- The access size of the ordered forms (R100). -/
def soSize (sz : BitVec 2) : Nat := if sz = 0 then 4 else 8

/-- `ld.acq` (R100): a load; the accesses that follow it are made after it, because the stoker issues in order and a load
reads as it issues; they wait for one of another module that has no answer yet. -/
def execLdAcq (sd sa : BitVec 6) (scope : BitVec 3) (sz : BitVec 2) (s : State) : Res :=
  loadS s sd sa 0 (soSize sz) false 4 (scope != 0)

/-- `st.rel` (R100); group scope orders nothing that another observer sees. -/
def execStRel (sd sa : BitVec 6) (scope : BitVec 3) (sz : BitVec 2) (s : State) : Res :=
  storeS s sd sa 0 (soSize sz) scope.toNat 4

/-- `fence` (R101): a release or full fence waits until the stoker's earlier accesses that its scope covers are performed, an acquire
or full fence until the earlier loads and atomics have read (R246). -/
def execFence (k : BitVec 2) (scope : BitVec 3) (s : State) : Res :=
  onStoker s fun key g =>
    if (2 ≤ k.toNat && s.stokerPending g.name scope.toNat) || (k.getLsbD 0 && scope != 0 && s.stokerReading g.name) then s.waitS key
    else s.setG key (g.adv 4)

/-! ### Atomics -/

/-- `aadd`, relaxed (R102). -/
def execAadd (w : BitVec 1) (sd sa sb : BitVec 6) (s : State) : Res := atomicS s w sd sa sb 0 false none

/-- `aadd.ar` at a scope (R102). -/
def execAaddAr (w : BitVec 1) (sd sa sb : BitVec 6) (scope : BitVec 3) (s : State) : Res :=
  atomicS s w sd sa sb 0 false (some scope.toNat)

/-- `aand`, relaxed (R102). -/
def execAand (w : BitVec 1) (sd sa sb : BitVec 6) (s : State) : Res := atomicS s w sd sa sb 3 false none

/-- `aand.ar` at a scope (R102). -/
def execAandAr (w : BitVec 1) (sd sa sb : BitVec 6) (scope : BitVec 3) (s : State) : Res :=
  atomicS s w sd sa sb 3 false (some scope.toNat)

/-- `aor`, relaxed (R102). -/
def execAor (w : BitVec 1) (sd sa sb : BitVec 6) (s : State) : Res := atomicS s w sd sa sb 4 false none

/-- `aor.ar` at a scope (R102). -/
def execAorAr (w : BitVec 1) (sd sa sb : BitVec 6) (scope : BitVec 3) (s : State) : Res :=
  atomicS s w sd sa sb 4 false (some scope.toNat)

/-- `axor`, relaxed (R102). -/
def execAxor (w : BitVec 1) (sd sa sb : BitVec 6) (s : State) : Res := atomicS s w sd sa sb 5 false none

/-- `axor.ar` at a scope (R102). -/
def execAxorAr (w : BitVec 1) (sd sa sb : BitVec 6) (scope : BitVec 3) (s : State) : Res :=
  atomicS s w sd sa sb 5 false (some scope.toNat)

/-- `aminI`, relaxed (R102). -/
def execAminI (w : BitVec 1) (sd sa sb : BitVec 6) (s : State) : Res := atomicS s w sd sa sb 1 true none

/-- `aminI.ar` at a scope (R102). -/
def execAminIAr (w : BitVec 1) (sd sa sb : BitVec 6) (scope : BitVec 3) (s : State) : Res :=
  atomicS s w sd sa sb 1 true (some scope.toNat)

/-- `aminN`, relaxed (R102). -/
def execAminN (w : BitVec 1) (sd sa sb : BitVec 6) (s : State) : Res := atomicS s w sd sa sb 1 false none

/-- `aminN.ar` at a scope (R102). -/
def execAminNAr (w : BitVec 1) (sd sa sb : BitVec 6) (scope : BitVec 3) (s : State) : Res :=
  atomicS s w sd sa sb 1 false (some scope.toNat)

/-- `amaxI`, relaxed (R102). -/
def execAmaxI (w : BitVec 1) (sd sa sb : BitVec 6) (s : State) : Res := atomicS s w sd sa sb 2 true none

/-- `amaxI.ar` at a scope (R102). -/
def execAmaxIAr (w : BitVec 1) (sd sa sb : BitVec 6) (scope : BitVec 3) (s : State) : Res :=
  atomicS s w sd sa sb 2 true (some scope.toNat)

/-- `amaxN`, relaxed (R102). -/
def execAmaxN (w : BitVec 1) (sd sa sb : BitVec 6) (s : State) : Res := atomicS s w sd sa sb 2 false none

/-- `amaxN.ar` at a scope (R102). -/
def execAmaxNAr (w : BitVec 1) (sd sa sb : BitVec 6) (scope : BitVec 3) (s : State) : Res :=
  atomicS s w sd sa sb 2 false (some scope.toNat)

/-- `axchg`, relaxed (R102). -/
def execAxchg (w : BitVec 1) (sd sa sb : BitVec 6) (s : State) : Res := atomicS s w sd sa sb 6 false none

/-- `axchg.ar` at a scope (R102). -/
def execAxchgAr (w : BitVec 1) (sd sa sb : BitVec 6) (scope : BitVec 3) (s : State) : Res :=
  atomicS s w sd sa sb 6 false (some scope.toNat)

/-- `acas`, relaxed (R102). -/
def execAcas (w : BitVec 1) (sd sa sb : BitVec 6) (s : State) : Res := atomicS s w sd sa sb 7 false none

/-- `acas.ar` at a scope (R102). -/
def execAcasAr (w : BitVec 1) (sd sa sb : BitVec 6) (scope : BitVec 3) (s : State) : Res :=
  atomicS s w sd sa sb 7 false (some scope.toNat)

/-! ### Translation registers -/

/-- Whether a scan of `xlt` may go on from a page to the next (R103). -/
def xltJoins (first : Tr) (len : Nat) (t : Tr) : Bool :=
  t.pgsz == first.pgsz && t.creg == first.creg && t.pa == first.pa + len && t.rd == first.rd && t.wr == first.wr &&
    (t.fst == 1 || t.fst == 3) == (first.fst == 1 || first.fst == 3) && t.cmpr == first.cmpr && t.fst != 2

/-- The scan of R103 over following pages: bytes valid from V, until the span is covered. The first number bounds the pages. The page that
ends the scan has been walked too: it fills the caches and gathers A like any walk's (R242), though `xlt` does not take it (DESIGN CHOICE,
log 79). -/
def State.xltScan (s : State) (h ctx : Nat) (v : W64) (n : Nat) (first : Tr) : Nat → Nat → State × Nat
  | 0, len => (s, len)
  | fuel + 1, len =>
    let va := v + BitVec.ofNat 64 len
    if len < n && canonical va then
      match s.translate h ctx va with
      | (s, .ok t) => if xltJoins first len t then s.xltScan h ctx v n first fuel (len + t.left) else (s, len)
      | (s, _) => (s, len)
    else (s, len)

/-- `xlt` (R103): it never faults on a page; a poisoned operand traps (R87). -/
def execXlt (bn : BitVec 4) (sa sb : BitVec 6) (s : State) : Res :=
  onStoker s fun k g =>
    let a := g.sGet sa.toNat
    let b := g.sGet sb.toNat
    let v := a.val
    if a.pz || b.pz then s.trapS k g (trapPoison 0 0)
    else
      let put := fun (s : State) (r : TReg) => s.setG k ({ g with b := tabSet g.b bn.toNat r }.adv 4)
      let bare : TReg := { base := v, valid := true }
      if canonical v then
        match s.translate (hearthOf k) g.ctx v with
        | (s, .ok t) =>
          if t.fst = 2 then put s bare
          else
            let (s, len) := s.xltScan (hearthOf k) g.ctx v (max b.val.toNat 1) t (b.val.toNat / 65536 + 1) t.left
            put s
              { base := v, frame := BitVec.ofNat 52 t.pa, creg := BitVec.ofNat 5 (t.creg.getD 0),
                limit := BitVec.ofNat 32 (min len (2 ^ 32 - 1)), valid := true, rd := t.rd, wr := t.wr,
                codec := t.creg.isSome, frozen := t.fst == 1 || t.fst == 3, cmpr := t.cmpr, pgsz := BitVec.ofNat 2 t.pgsz }
        | (s, _) => put s bare
      else put s bare

/-- `xinv` (R105): the register returns to its reset values. -/
def execXinv (bn : BitVec 4) (s : State) : Res :=
  onStoker s fun k g => s.setG k ({ g with b := tabSet g.b bn.toNat {} }.adv 4)

/-- A word of a translation register (R39). -/
def TReg.word (r : TReg) (k : Nat) : W64 :=
  let b := fun (x : Bool) n => if x then 2 ^ n else 0
  match k with
  | 0 => r.base
  | 1 => BitVec.ofNat 64 (r.frame.toNat + r.creg.toNat * 2 ^ 52)
  | _ =>
    BitVec.ofNat 64 (r.limit.toNat + b r.valid 32 + b r.stale 33 + b r.rd 34 + b r.wr 35 + b r.codec 36 + b r.frozen 37 +
      b r.cmpr 38 + r.pgsz.toNat * 2 ^ 39)

/-- `xrd` (R105); word 3 does not exist. -/
def execXrd (sd : BitVec 6) (bn : BitVec 4) (k : BitVec 2) (s : State) : Res :=
  onStoker s fun key g =>
    if k = 3 then s.trapS key g trapIllegal
    else s.setG key (g.result sd ((tabD g.b bn.toNat {}).word k.toNat) false 4)

end Sys2Proof.Machine
end

