-- ==== Sys2Proof/Machine/LaneMem.lean ====
section
/-! DEFINITION. Lane loads, stores and atomics, classes 0x8–0xB (R13, R64, R104, R144, R146, R163–R170, R200, R217–R219,
R224, R284, R317). -/

namespace Sys2Proof.Machine

/-! ### Addresses and checks (R13, R64, R104, R164, R165) -/

/-- A thread's access: its address (global) or offset, and its translation. -/
structure LAcc where
  t : Nat
  va : W64
  tr : Option Tr := none

/-- The space of a memory class (R66, R68). -/
def spaceOf (cls : Nat) (sp : BitVec 1) : Space :=
  match cls with
  | 8 => .glob
  | 9 => .scratch
  | 10 => .priv
  | _ => if sp = 0 then .glob else .scratch

/-- The translation register of a global operand, from the block's snapshot (R31, R64). -/
def LEnv.breg (e : LEnv) : TReg := tabD e.snap.b (e.f.vb.toNat % 16) {}

/-- A thread's offset: ZeroExtend64(vX) × k + SignExtend64(imm) (R13). -/
def LEnv.offset (e : LEnv) (t : Nat) : W64 :=
  let x : W64 := if e.f.vb.getLsbD 6 then zx64 (e.reg t e.f.va.toNat).val <<< (e.f.vb.toNat / 16 % 4) else 0
  x + sx64 e.f.w2

/-- A thread's address: the base of bN added in the global space, 0 in the others (R13, R64). -/
def LEnv.addr (e : LEnv) (sp : Space) (t : Nat) : W64 := (if sp = .glob then e.breg.base else 0) + e.offset t

/-- Whether an offset uses the translation held in bN: it is filled, not stale, and the offset lies below LIMIT (R13, R39). -/
def TReg.holds (b : TReg) (off : W64) : Bool := b.valid && !b.stale && off.toNat < b.limit.toNat

/-- The translation bN gives an offset (R104). The lease class and the page of its freeze mark are its page table's. -/
def TReg.tr (b : TReg) (s : State) (c : Ctx) (off : W64) : Tr :=
  let page := b.base + off - BitVec.ofNat 64 (va57 (b.base + off) % pageBytes b.pgsz.toNat)
  { pa := b.frame.toNat + off.toNat, creg := if b.codec then some b.creg.toNat else none, rd := b.rd, wr := b.wr,
    fst := if b.frozen then 1 else 0,
    lcls := (match s.walk c (b.base + off) with
      | .found e _ _ => bits e.toNat 10 2
      | _ => 0),
    cmpr := b.cmpr, frzr := false, pgsz := b.pgsz.toNat, page := page, left := b.limit.toNat - off.toNat, leafPa := 0 }

/-- A failed check: the trap of the lowest-numbered thread that meets it, with all of them (R165). -/
def LEnv.failed (e : LEnv) (s : State) (l : List (Nat × Trap)) (go : State) : State :=
  match l with
  | [] => go
  | (_, t) :: _ => ({ e with s := s } : LEnv).trap t (maskOf (l.map fun (p : Nat × Trap) => p.1))

/-- Check 4 on one thread (R164): bN, or canonical form and the TLB. -/
def LEnv.locate (e : LEnv) (s : State) (a : AccK) (size t : Nat) : State × (LAcc ⊕ Trap) :=
  let off := e.offset t
  let va := e.addr .glob t
  let c := tabD s.ctxs e.g.ctx {}
  if e.breg.holds off then (s, .inl ⟨t, va, some (e.breg.tr s c off)⟩)
  else if canonical va then
    match s.translate (hearthOf e.k) e.g.ctx va with
    | (s, .ok tr) => (s, .inl ⟨t, va, some tr⟩)
    | (s, .absent x) => (s, .inr { accTrap 0x05 a va size with s3 := x })
    | (s, .illegal m) => (s, .inr { accTrap 0x06 a va size with malf := m })
  else (s, .inr (accTrap 0x06 a va size))

/-- Check 4 on every acting thread, in order. -/
def LEnv.locateAll (e : LEnv) (a : AccK) (size : Nat) : List Nat → State → State × List LAcc × List (Nat × Trap)
  | [], s => (s, [], [])
  | t :: r, s =>
    let (s, x) := e.locate s a size t
    let (s, ok, bad) := e.locateAll a size r s
    match x with
    | .inl acc => (s, acc :: ok, bad)
    | .inr tr => (s, ok, (t, tr) :: bad)

/-- Check 5's permission, with host and fence limits (R104, R164, R311, R321). -/
def LEnv.permitted (e : LEnv) (s : State) (a : AccK) (tr : Tr) : Bool :=
  (!a.rd || tr.rd) && (!a.wr || tr.wr) && !s.fenced (dieOf (hearthOf e.k)) (s.keyOfTr (tabD s.ctxs e.g.ctx {}) tr) &&
    !(isHost tr.pa && tr.creg.isNone && !s.cxl && !a.pcieOk)

/-- Checks 5 to 7 of global accesses, then the access (R164, R165): permission, frozen, thawing, codec, locks. -/
def LEnv.checkGlobal (e : LEnv) (a : AccK) (size : Nat) (s : State) (l : List LAcc) (go : State → List LAcc → State) : State :=
  let pick := fun (code : Nat) (f : LAcc → Tr → Bool) => l.filterMap fun x =>
    match x.tr with
    | some tr => if f x tr then some (x.t, accTrap code a x.va size) else none
    | none => none
  e.failed s (pick 0x06 fun _ tr => !e.permitted s a tr) <|
  e.failed s (pick 0x08 fun _ tr => a.wr && (tr.fst == 1 || tr.fst == 3)) <|
  if l.any fun x => a.wr && x.tr.any (·.fst == 2) then s.waitL e.k e.slot
  else
    e.failed s (pick 0x09 fun _ tr => tr.creg.isSome && !a.codecOk) <|
    e.failed s (pick 0x0A fun x _ =>
      s.conflict (hearthOf e.k) e.g.ctx e.g.wg e.g.gidx .glob (va57 x.va) size a.wr) (go s l)

/-- The limit of a space in bytes and the fault beyond it (R164 check 3). -/
def LEnv.limit (e : LEnv) (sp : Space) : Nat × Nat :=
  match sp with
  | .scratch => ((e.s.wgOf e.g.wg).scratchBytes, 0x0C)
  | _ => (e.g.kern.priv, 0x0D)

/-- Whether a thread's bytes of a space other than the global one meet a range lock; private ranges are flat (R356, R365). -/
def LEnv.locked (e : LEnv) (sp : Space) (t size : Nat) (wr : Bool) : Bool :=
  let hit := fun base n => e.s.conflict (hearthOf e.k) e.g.ctx e.g.wg e.g.gidx sp base n wr
  let o := (e.addr sp t).toNat
  match sp with
  | .priv => (List.range ((size + 3) / 4)).any fun i => hit (privFlat e.g.width t (o + 4 * i)) (min size 4)
  | _ => hit o size

/-- Every check of R164 in order over the acting threads, a dead link's among them (R311), then the access. `pz` tells poisoned data that
traps. -/
def LEnv.access (e : LEnv) (sp : Space) (a : AccK) (size : Nat) (pz : Nat → Bool) (go : State → List LAcc → State) : State :=
  let at_ := fun (t : Trap) (f : Nat → Bool) => (e.ts.filter f).map fun i => (i, { t with addr := e.addr sp i })
  let fault := fun code => accTrap code a 0 size
  let idx := e.f.vb.getLsbD 6
  e.failed e.s (at_ (trapPoison 0 size a.wr a.at_) fun t => (idx && (e.reg t e.f.va.toNat).pz) || pz t) <|
  e.failed e.s (at_ (fault 0x07) fun t => (e.addr sp t).toNat % size != 0) <|
  match sp with
  | .glob =>
    let (s, ok, bad) := e.locateAll a size e.ts e.s
    let illegal := bad.filter fun b => b.2.code == 0x06
    e.failed s illegal (e.failed s bad (e.checkGlobal a size s ok go))
  | _ =>
    let (lim, code) := e.limit sp
    e.failed e.s (at_ (fault code) fun t => lim < (e.addr sp t).toNat + size) <|
    e.failed e.s (at_ (fault 0x06) fun t => e.s.spaceCut e.k e.g sp t (e.addr sp t).toNat size) <|
    e.failed e.s (at_ (fault 0x0A) fun t => e.locked sp t size a.wr)
      (go e.s (e.ts.map fun t => ⟨t, e.addr sp t, none⟩))

/-! ### Reading -/

/-- The non-resident scratchpad pages a list of accesses touches brought back (R224). -/
def State.refillFor (s : State) (wg : Nat) (l : List LAcc) (size : Nat) : State :=
  l.foldl (fun s x => (pagesOf x.va.toNat size).foldl (fun s p => s.refill wg p) s) s

/-- One thread's bytes with their poison, none while a global read waits. -/
def LEnv.readOne (e : LEnv) (sp : Space) (size : Nat) (s : State) (x : LAcc) : State × Option (List Byte × Bool) :=
  match sp, x.tr with
  | .glob, some tr => s.readBytes (hearthOf e.k) (tabD s.ctxs e.g.ctx {}) e.g.name tr size
  | .scratch, _ => (s, some ((s.wgOf e.g.wg).spRead x.va.toNat size, (s.wgOf e.g.wg).spPoisoned x.va.toNat size))
  | _, _ =>
    let s := s.touchPrivs e.k e.g x.t x.va.toNat size false
    let g := s.fresh e.k e.g
    (s, some (g.privRead x.t x.va.toNat size, g.privPoisoned x.t x.va.toNat size))

/-- Every thread's bytes; none if one must wait. -/
def LEnv.readAll (e : LEnv) (sp : Space) (size : Nat) : List LAcc → State → State × Option (List (LAcc × List Byte × Bool))
  | [], s => (s, some [])
  | x :: r, s =>
    match e.readOne sp size s x with
    | (s, none) => (s, none)
    | (s, some (b, p)) =>
      match e.readAll sp size r s with
      | (s, some l) => (s, some ((x, b, p) :: l))
      | (s, none) => (s, none)

/-- A loaded value extended to 32 bits by its signedness (R163). -/
def extend (size : Nat) (signed : Bool) (x : Nat) : Nat := if signed && size < 4 then wrap 32 (sintOf (8 * size) x) else x

/-- Whether two ranges overlap. -/
def overlaps (a n b m : Nat) : Bool := a < b + m && b < a + n

/-- The parts of a load as R179 issues them again: one for each register. -/
def loadReqs (sp : Space) (x : LAcc) (r size : Nat) (signed : Bool) : List LoadReq :=
  let off := match x.tr with
    | some tr => tr.pa
    | none => x.va.toNat
  (List.range ((size + 3) / 4)).map fun i =>
    { t := x.t, r := r + i, va := x.va + BitVec.ofNat 64 (4 * i), space := sp, off := off + 4 * i, size := min size 4, signed := signed,
      creg := x.tr.bind (·.creg) }

/-- A part of a load of plain, scratchpad or private bytes read as they stand after the group's own stores (R144). -/
def State.loadPart (s : State) (g : Group) (q : LoadReq) : LReg :=
  let (b, p) := match q.space with
    | .glob => (s.forward g.name q.off (s.seen q.off q.size), s.forwardPz g.name q.off q.size (s.poisoned q.off q.size))
    | .scratch => ((s.wgOf g.wg).spRead q.off q.size, (s.wgOf g.wg).spPoisoned q.off q.size)
    | _ => (g.privRead q.t q.off q.size, g.privPoisoned q.t q.off q.size)
  ⟨BitVec.ofNat 32 (extend q.size q.signed (leNat b)), p⟩

/-- The identifier of the executing block, to which a lane access belongs. -/
def LEnv.blk (e : LEnv) : Nat :=
  match e.g.execBlock with
  | some b => b.id
  | none => 0

/-- The scope an ordered access waits for: none in the private space, and a scratchpad access gives every scope the effect of `.wg`
(R61, R167, R245). -/
def LEnv.scopeIn (e : LEnv) (sp : Space) : Nat :=
  match sp with
  | .glob => e.f.rnd.toNat
  | .scratch => min e.f.rnd.toNat scopeWg
  | _ => 0

/-- The loads of another module that get no response in time stay out (R325): each with an identifier of its own, by its thread. -/
def LEnv.lostLoads (e : LEnv) (s : State) (l : List LAcc) (size : Nat) : List Pend :=
  l.filterMap fun x => x.tr.bind fun tr =>
    if tr.creg.isNone && s.lostRead e.g.ctx (hearthOf e.k) (physKey tr.pa) (s.nextId + 1 + x.t) then
      some { id := s.nextId + 1 + x.t, key := physKey tr.pa, ctx := e.g.ctx, owner := some e.g.name, arrived := false, issued := s.clk,
             va := x.va, blk := e.blk, acq := false, kind := .lost (.lane s.nextId x.t e.f.vd.toNat) size 0,
             hearth := hearthOf e.k }
    else none

/-- Whether a thread's value is among those that do not come. -/
def lostIn (lost : List Pend) (t : Nat) : Bool :=
  lost.any fun p => match p.kind with
    | .lost (.lane _ x _) _ _ => x == t
    | _ => false

/-- The registers of a load once every thread's bytes are read; a value that does not come is missing (R163, R325). -/
def LEnv.loaded (e : LEnv) (lost : List Pend) (vs : List (LAcc × List Byte × Bool)) (size : Nat) (signed : Bool) : List OutV :=
  vs.foldr (fun (v : LAcc × List Byte × Bool) acc =>
    let regs := resultRegs v.1.t e.f.vd.toNat ((size + 3) / 4) (extend size signed (leNat v.2.1)) v.2.2
    (if lostIn lost v.1.t then regs.map fun r => { r with val := none } else regs) ++ acc) []

/-- A recorded context's own reads of host memory and of other modules logged, or taken from its log: one for each thread, and none of
a value that does not come (R333, R334). -/
def LEnv.logReads (e : LEnv) (s : State) (lost : List Pend) (vs : List (LAcc × List Byte × Bool)) :
    State × Option (List (LAcc × List Byte × Bool)) :=
  match s.ownReads (hearthOf e.k) e.g.ctx (vs.map fun v => ((v.1.tr.map (·.pa)).getD 0, if lostIn lost v.1.t then [] else v.2.1)) with
  | (t, none) => (t.undoTrace s, none)
  | (s, some l) => (s, some ((vs.zip l).map fun x => (x.1.1, x.2, x.1.2.2)))

/-- Whether two parts of loads share bytes. -/
def LoadReq.meets (a b : LoadReq) : Bool :=
  a.space == b.space && a.creg == b.creg && (a.space != .priv || a.t == b.t) && overlaps a.off a.size b.off b.size

/-- Whether an outstanding `ldv` reads bytes of a part of a load: latent rows are plain bytes (R191). -/
def Out.reads (o : Out) (q : LoadReq) : Bool :=
  q.space == .glob && q.creg.isNone && o.span.any fun x => overlaps x.1 x.2 q.off q.size

/-- Whether two outstanding results of loads share bytes that they read. -/
def Out.shares (a b : Out) : Bool :=
  a.reqs.any (fun q => b.reads q || b.reqs.any q.meets) || b.reqs.any (fun q => a.reads q) ||
    a.span.any fun x => b.span.any fun y => overlaps x.1 x.2 y.1 y.2

/-- The outstanding results that have come, oldest first, after `old` that have not; a load waits for an older one of bytes it has read
too, so that a save discards both or none (R179, R249). -/
def cameOf (clk : Nat) : List Out → List Out → List Out
  | _, [] => []
  | old, o :: r => if o.arrived clk && !old.any o.shares then o :: cameOf clk old r else cameOf clk (old ++ [o]) r

/-- The parts of a load of all its threads. -/
def LEnv.loadParts (e : LEnv) (sp : Space) (l : List LAcc) (size : Nat) (signed : Bool) : List LoadReq :=
  l.foldr (fun x acc => loadReqs sp x e.f.vd.toNat size signed ++ acc) []

/-- A load of a space (R163–R167). The value is extended, or fills a pair or a quad; it is written when its window has ended and it has
come. With no acting thread there is no result (R142). A load of bytes that an earlier `ldv` of the split is still to read waits for it,
so that the two are read in order (R166, R191, R249). -/
def LEnv.load (e : LEnv) (sp : Space) (size : Nat) (signed : Bool) : State :=
  e.access sp accLoad size (fun _ => false) fun s l =>
    if l.isEmpty then ({ e with s := s } : LEnv).done s e.g
    else if e.sp.outs.any fun o => !o.complete && (e.loadParts sp l size signed).any fun q => o.reads q then s.waitL e.k e.slot
    else
    let s := if sp = .scratch then s.refillFor e.g.wg l size else s
    match e.readAll sp size l s with
    | (s, none) => s.waitL e.k e.slot
    | (s, some vs) =>
      let lost := e.lostLoads s l size
      match e.logReads s lost vs with
      | (s, none) => s.waitL e.k e.slot
      | (s, some vs) =>
      let s' := ({ e with s := s, g := s.fresh e.k e.g } : LEnv).owe
        { id := 0, left := 0, vals := e.loaded lost vs size signed, reqs := e.loadParts sp l size signed,
          acq := e.f.sat == 1 && e.scopeIn sp != 0 }
      s'.sendLoads lost (s'.nextId + 128)

/-! ### Writing -/

/-- A store inside the window of a load (R144): each thread's access whose bytes it overwrites may return the new bytes instead of the
old, as a whole, since an access is never torn (R163). A load of a codec region and an `ldv` keep the old ones: the threads of one load
read one encoding of a block (R272), and of an `ldv` the spec allows either row (DESIGN CHOICE, log 54). -/
def State.rewindow (s : State) (k slot stamp : Nat) (hit : LoadReq → Bool) : State :=
  s.modG k fun g =>
    let fix := fun (o : Out) =>
      let ts := (((o.reqs.filter hit).map (·.t)).foldl addOnce []).filter fun t => Config.oldOrNew stamp t 512
      (o.reqs.filter fun q => ts.contains q.t).foldl (fun o q => fillOut o.id q.t q.r (s.loadPart g q) o) o
    g.setSplit slot ((g.split slot).map fun sp => { sp with outs := sp.outs.map fix })

/-- A store's data in thread t with its poison: the low bytes of C, or the quad at vc (R163). -/
def LEnv.storeData (e : LEnv) (size t : Nat) : List Byte × Bool :=
  if size = 16 then
    let rs := (List.range 4).map fun i => e.reg t (e.f.vc.toNat + i)
    (rs.foldr (fun r acc => leBytes 4 r.val.toNat ++ acc) [], rs.any (·.pz))
  else ((leBytes size (e.opC t).x), (e.opC t).pz)

/-- The bytes of codec writes of one instruction, in thread order, block by block (R168, R282). -/
def codecBlocks (l : List (Nat × Byte × Bool)) : List (Nat × List (Nat × Byte × Bool)) :=
  ((l.map fun x => x.1 / 32).foldl addOnce []).map fun i => (i, l.filter fun x => x.1 / 32 == i)

/-- The virtual address at which a list of runs enters a block: address, translation and length of each. -/
def blockVa (l : List (W64 × Tr × Nat)) (i : Nat) : W64 :=
  match l.find? fun x => x.2.1.pa / 32 ≤ i && 32 * i < x.2.1.pa + x.2.2 with
  | some x => x.1 + BitVec.ofNat 64 (32 * i - x.2.1.pa)
  | none => 0

/-- The bytes a list of accesses stores, in thread order, by the address a function gives. -/
def LEnv.storeBytes (e : LEnv) (l : List LAcc) (size : Nat) (f : LAcc → Nat → Nat) : List (Nat × Byte × Bool) :=
  l.foldr (fun x acc => ((enumFrom 0 (e.storeData size x.t).1).map fun b => (f x b.1, b.2, (e.storeData size x.t).2)) ++ acc) []

/-- The global stores of an instruction sent: plain ones line by line (R220), codec ones block by block. -/
def LEnv.sendStores (e : LEnv) (s : State) (l : List LAcc) (size : Nat) : State :=
  let h := hearthOf e.k
  let c := tabD s.ctxs e.g.ctx {}
  let s := l.foldl (fun s x => s.gatherD h e.g.ctx x.va) s
  let pa := fun (x : LAcc) => (x.tr.map (·.pa)).getD 0
  let plain := l.filter fun x => x.tr.any (·.creg.isNone)
  let s := (runsOf (e.storeBytes plain size fun x i => pa x + i)).foldl (fun s r =>
    let va := (plain.findSome? fun x => if pa x ≤ r.1 && r.1 < pa x + size then some (x.va + BitVec.ofNat 64 (r.1 - pa x)) else none).getD 0
    s.issueWrite h e.g.ctx (some e.g.name) va (physKey r.1) e.blk false (.store r.1 r.2.1 r.2.2)) s
  let cod := l.filterMap fun x => x.tr.bind fun tr => if tr.creg.isSome then some (x, tr) else none
  let regs := (cod.map fun x => x.2.creg.getD 0).foldl addOnce []
  regs.foldl (fun s r =>
    let mine := cod.filter fun x => x.2.creg == some r
    let va := blockVa (mine.map fun x => (x.1.va, x.2, size))
    (codecBlocks (e.storeBytes (mine.map (·.1)) size fun x i => pa x + i)).foldl (fun s b =>
      s.issueWrite h e.g.ctx (some e.g.name) (va b.1) (codecKey (s.region c r) (32 * b.1)) e.blk false
        (.codecStore e.g.ctx r b.2)) s) s

/-- A release waits until the group's earlier accesses that its scope covers are performed, and the split's loads have come, so that no
save reads them anew after it (R167, R179, R245, R248): the bound is taken when it first waits; scope 0 is no release. -/
def LEnv.releasing (e : LEnv) (scope : Nat) (s : State) (go : State) : State :=
  let bound := e.sp.bound.getD s.nextId
  if s.pendingBelow e.g.name e.blk bound scope || (scope != 0 && e.sp.outs.any fun o => o.isLoad && !o.arrived s.clk) then
    (s.modG e.k fun g => g.setSplit e.slot ((g.split e.slot).map fun sp => { sp with bound := some bound })).waitL e.k e.slot
  else go

/-- A store to a space (R163–R168). -/
def LEnv.store (e : LEnv) (sp : Space) (size : Nat) : State :=
  e.access sp (accStore (8 ≤ size)) size (fun _ => false) fun s l =>
    e.releasing (if e.f.sat = 1 then e.scopeIn sp else 0) s <|
      let s' := ({ e with s := s } : LEnv).done s e.g
      let hit := fun (q : LoadReq) => q.space == sp && l.any fun x =>
        match x.tr with
        | some tr => tr.creg.isNone && q.creg.isNone && overlaps q.off q.size tr.pa size
        | none => overlaps q.off q.size x.va.toNat size && (sp != .priv || q.t == x.t)
      let s' := match sp with
        | .glob => e.sendStores s' l size
        | .scratch =>
          (s'.refillFor e.g.wg l size).modWg e.g.wg fun w =>
            (runsOf (e.storeBytes l size fun x i => x.va.toNat + i)).foldl (fun w r => w.spWrite r.1 r.2.1 r.2.2) w
        | _ =>
          s'.privWrite e.k (runsOf (e.storeBytes l size fun x i => privFlat e.g.width x.t (x.va.toNat + i)))
      if e.sp.outs.any fun o => o.reqs.any hit then s'.rewindow e.k e.slot s.free hit else s'

/-! ### Atomics (R169, R170) -/

/-- One thread's atomic on the scratchpad: the old value with its tag (R169, R317). -/
def State.scratchAtomic (s : State) (wg off w op ty x cmp : Nat) : State × Opd :=
  let g := s.wgOf wg
  if g.spPoisoned off w then (s.stamp, ⟨(Config.freeBits s.free).toNat % 2 ^ (8 * w), true⟩)
  else
    let old := leNat (g.spRead off w)
    let s := match atomicNew op ty w old x cmp with
      | some new => s.modWg wg fun g => g.spWrite off (leBytes w new) false
      | none => s
    (s, ⟨old, false⟩)

/-- The comparand of `acas` in thread t: vd as it stands on entry (R169). -/
def LEnv.comparand (e : LEnv) (t : Nat) : Opd := e.reg64 t e.f.vd.toNat (tyIs64 e.ty)

/-- The scratchpad atomics of the acting threads in thread order. -/
def LEnv.scratchAtomics (e : LEnv) (op w : Nat) : List LAcc → State → State × List OutV
  | [], s => (s, [])
  | x :: r, s =>
    let (s, o) := s.scratchAtomic e.g.wg x.va.toNat w op e.ty (e.opC x.t).x (e.comparand x.t).x
    let (s, l) := e.scratchAtomics op w r s
    (s, resultRegs x.t e.f.vd.toNat e.words o.x o.pz ++ l)

/-- The global atomics of an instruction sent in thread order; those on a codec region block by block (R169, R284). -/
def LEnv.sendAtomics (e : LEnv) (s : State) (l : List LAcc) (op w out : Nat) (acq : Bool) : State :=
  let h := hearthOf e.k
  let c := tabD s.ctxs e.g.ctx {}
  let s := l.foldl (fun s x => s.gatherD h e.g.ctx x.va) s
  let plain := l.filterMap fun x => x.tr.bind fun tr => if tr.creg.isNone then some (x, tr) else none
  let cod := l.filterMap fun x => x.tr.bind fun tr => tr.creg.map fun r => (x, tr, r)
  let s := plain.foldl (fun s p =>
    s.issueWrite h e.g.ctx (some e.g.name) p.1.va (physKey p.2.pa) e.blk acq
      (.atomic p.2.pa w op e.ty (BitVec.ofNat 64 (e.opC p.1.t).x) (BitVec.ofNat 64 (e.comparand p.1.t).x)
        (.lane out p.1.t e.f.vd.toNat))) s
  ((cod.map fun p => (p.2.2, p.2.1.pa / 32)).eraseDups).foldl (fun s rb =>
    let mine := cod.filter fun p => p.2.2 == rb.1 && p.2.1.pa / 32 == rb.2
    let va := (mine.head?.map (·.1.va)).getD 0
    s.issueWrite h e.g.ctx (some e.g.name) va (codecKey (s.region c rb.1) (32 * rb.2)) e.blk acq
      (.codecAdd e.g.ctx rb.1 (mine.map fun p =>
        { off := p.2.1.pa, x := BitVec.ofNat 64 (e.opC p.1.t).x, dst := .lane out p.1.t e.f.vd.toNat }))) s

/-- A lane atomic (R169): checks, release, then the scratchpad at once or the home slices. -/
def LEnv.atomic (e : LEnv) (op : Nat) : State :=
  let w := tyBits e.ty / 8
  let sp := spaceOf 11 e.f.sp
  let seen := e.f.rnd != 0
  e.access sp (accAtomic (op == 0 && e.ty == 11) (pcieAtomic op e.ty)) w
    (fun t => (e.opC t).pz || (op == 7 && (e.comparand t).pz)) fun s l =>
    e.releasing (if 2 ≤ e.f.ord.toNat then e.scopeIn sp else 0) s <|
      match sp with
      | .glob =>
        if l.isEmpty then e.done s e.g
        else
          let out := s.nextId
          let o : Out :=
            { id := out, left := e.f.la.toNat,
              vals := l.foldr (fun x acc => (List.range e.words).map (fun i => ⟨x.t, e.f.vd.toNat + i, none⟩) ++ acc) [] }
          let s := ({ e with s := s } : LEnv).done s.newId
            (e.g.setSplit e.slot ((e.g.split e.slot).map fun (p : Split) => p.pushOut s.free o))
          e.sendAtomics s l op w out (e.f.ord.toNat % 2 == 1 && seen)
      | _ =>
        let (s, vs) := e.scratchAtomics op w l (s.refillFor e.g.wg l w)
        ({ e with s := s } : LEnv).writeLong vs

/-! ### The instructions -/

/-- Access size of a type (R59, R163). -/
def tyBytes (ty : Nat) : Nat := tyBits ty / 8

/-- `ld`, global (R163). -/
def execLdGlobal (f : LaneF) (s : State) : Res := laneRun s f fun e => e.load .glob (tyBytes e.ty) (tySigned e.ty)

/-- `st`, global (R163). -/
def execStGlobal (f : LaneF) (s : State) : Res := laneRun s f fun e => e.store .glob (tyBytes e.ty)

/-- `ld.b128`, global (R163). -/
def execLdB128Global (f : LaneF) (s : State) : Res := laneRun s f fun e => e.load .glob 16 false

/-- `st.b128`, global (R163). -/
def execStB128Global (f : LaneF) (s : State) : Res := laneRun s f fun e => e.store .glob 16

/-- `ld`, scratch (R163). -/
def execLdScratch (f : LaneF) (s : State) : Res := laneRun s f fun e => e.load .scratch (tyBytes e.ty) (tySigned e.ty)

/-- `st`, scratch (R163). -/
def execStScratch (f : LaneF) (s : State) : Res := laneRun s f fun e => e.store .scratch (tyBytes e.ty)

/-- `ld.b128`, scratch (R163). -/
def execLdB128Scratch (f : LaneF) (s : State) : Res := laneRun s f fun e => e.load .scratch 16 false

/-- `st.b128`, scratch (R163). -/
def execStB128Scratch (f : LaneF) (s : State) : Res := laneRun s f fun e => e.store .scratch 16

/-- `ld`, private (R163). -/
def execLdPrivate (f : LaneF) (s : State) : Res := laneRun s f fun e => e.load .priv (tyBytes e.ty) (tySigned e.ty)

/-- `st`, private (R163). -/
def execStPrivate (f : LaneF) (s : State) : Res := laneRun s f fun e => e.store .priv (tyBytes e.ty)

/-- `ld.b128`, private (R163). -/
def execLdB128Private (f : LaneF) (s : State) : Res := laneRun s f fun e => e.load .priv 16 false

/-- `st.b128`, private (R163). -/
def execStB128Private (f : LaneF) (s : State) : Res := laneRun s f fun e => e.store .priv 16

/-- `aadd` (R169). -/
def execLaneAadd (f : LaneF) (s : State) : Res := laneRun s f fun e => e.atomic 0

/-- `amin` (R169). -/
def execLaneAmin (f : LaneF) (s : State) : Res := laneRun s f fun e => e.atomic 1

/-- `amax` (R169). -/
def execLaneAmax (f : LaneF) (s : State) : Res := laneRun s f fun e => e.atomic 2

/-- `aand` (R169). -/
def execLaneAand (f : LaneF) (s : State) : Res := laneRun s f fun e => e.atomic 3

/-- `aor` (R169). -/
def execLaneAor (f : LaneF) (s : State) : Res := laneRun s f fun e => e.atomic 4

/-- `axor` (R169). -/
def execLaneAxor (f : LaneF) (s : State) : Res := laneRun s f fun e => e.atomic 5

/-- `axchg` (R169). -/
def execLaneAxchg (f : LaneF) (s : State) : Res := laneRun s f fun e => e.atomic 6

/-- `acas` (R169). -/
def execLaneAcas (f : LaneF) (s : State) : Res := laneRun s f fun e => e.atomic 7

/-- `amaxabs` (R170). -/
def execAmaxabs (f : LaneF) (s : State) : Res := laneRun s f fun e => e.atomic 8

end Sys2Proof.Machine
end

