-- ==== Sys2Proof/Machine/Views.lean ====
section
/-! DEFINITION. Views: the descriptor, the view matrix store, binding, dropping and querying, the projection and `ldv`
(R40, R171, R180–R197). -/

namespace Sys2Proof.Machine

/-! ### The descriptor (R183) -/

/-- The fields of a view descriptor. -/
structure VDesc where
  base : W64
  stride : Nat
  len : Nat
  lfmt : Nat
  mfmt : Nat
  width : Nat
  ofmt : Nat
  matrix : W64
  ok : Bool
  deriving DecidableEq, Repr

/-- The size in bytes of an element of a latent or output format. -/
def fmtSize (ty : Nat) : Nat := tyBits ty / 8

/-- The descriptor in 64 bytes, with whether it keeps the table of R183. -/
def vdesc (x : Nat) : VDesc :=
  let d : VDesc :=
    { base := BitVec.ofNat 64 x, stride := bits x 64 32, len := bits x 96 16, lfmt := bits x 112 8, mfmt := bits x 120 8,
      width := bits x 128 16, ofmt := bits x 144 8, matrix := BitVec.ofNat 64 (bits x 192 64), ok := false }
  let e := fmtSize d.lfmt
  { d with
    ok := [8, 9, 12, 13].contains d.lfmt && [8, 9].contains d.mfmt && [8, 9, 10].contains d.ofmt && canonical d.base &&
      d.base.toNat % e == 0 && d.stride % e == 0 && d.len * e ≤ d.stride && d.len % 4 == 0 && 4 ≤ d.len && d.len ≤ 1024 &&
      d.width % 2 == 0 && 2 ≤ d.width && d.width ≤ 256 && canonical d.matrix && d.matrix.toNat % 2 == 0 &&
      bits x 152 40 == 0 && bits x 256 256 == 0 }

/-- Bytes of one latent row. -/
def VDesc.rowBytes (d : VDesc) : Nat := d.len * fmtSize d.lfmt
/-- Bytes of one projected row. -/
def VDesc.outBytes (d : VDesc) : Nat := d.width * fmtSize d.ofmt
/-- Bytes of the matrix. -/
def VDesc.matBytes (d : VDesc) : Nat := d.len * d.width * 2

/-- The state word of a view register (R40). -/
def VwReg.word (w : VwReg) : W64 :=
  BitVec.ofNat 64 ((if w.bound then 1 else 0) + w.slot.toNat * 2 + w.gen.toNat * 512)

/-! ### The view matrix store (R184–R187) -/

/-- The slots and generations a group's stoker registers and block snapshots name, those of a copy under way and the handler's blocks
included (R185). -/
def Group.viewNames (g : Group) : List (Nat × Nat) :=
  let blocks := g.blocks ++ (match g.hnd with
    | some f => f.blocks
    | none => [])
  let regs := tabVals g.w ++ (tabVals g.wBusy).map (·.w) ++ blocks.foldr (fun b acc => tabVals b.snap.w ++ acc) []
  (regs.filter (·.bound)).map fun w => (w.slot.toNat, w.gen.toNat)

/-- An entry of a hearth's store. -/
def State.vent (s : State) (h slot : Nat) : VEnt := tabD s.vstore (256 * h + slot) {}

/-- The slots held by the groups of a hearth that a test picks (R185). -/
def State.heldSlots (s : State) (h : Nat) (f : Group → Bool) : List Nat :=
  let names := s.groups.foldr (fun (p : Nat × Group) acc => if hearthOf p.1 = h && f p.2 then p.2.viewNames ++ acc else acc) []
  ((names.filter fun n => (s.vent h n.1).gen == n.2).map (·.1)).foldl addOnce []

/-- Units a matrix occupies (R184). -/
def viewUnits (n : Nat) : Nat := max 1 ((n + 8191) / 8192)

/-- The units a workgroup's groups hold, each distinct entry once (R186). -/
def State.viewUse (s : State) (h wg : Nat) : Nat :=
  ((s.heldSlots h fun g => g.wg == wg).map fun n => (s.vent h n).units).foldl (· + ·) 0

/-- The free entry of lowest number (R180). -/
def State.freeSlot (s : State) (h : Nat) : Option Nat :=
  let held := s.heldSlots h fun _ => true
  (List.range 256).find? fun n => !held.contains n

/-- An entry filled anew: its generation rises, past the last one only after its view lines are gone (R180, R187). -/
def State.fillEntry (s : State) (h slot : Nat) (e : VEnt) : State :=
  let gen := (s.vent h slot).gen
  let s := if 2 ^ 32 - 1 ≤ gen then s.l1Drop h fun l => l.kind == .view && l.slot == slot else s
  { s with vstore := tabSet s.vstore (256 * h + slot) { e with gen := if 2 ^ 32 - 1 ≤ gen then 1 else gen + 1 } }

/-! ### `vset`, `vdrop`, `vqry` (R188–R190) -/

/-- The key's MATRIX: a physical address, or a region's offset marked by its number. -/
def matrixKey (t : Tr) : Nat :=
  match t.creg with
  | some r => t.pa + (r + 1) * 2 ^ 52
  | none => t.pa

/-- Whether the freeze of every page of a virtual range has completed (R188: frozen-clean). -/
def State.allFrozen (s : State) (h ctx : Nat) (va : W64) : Nat → Nat → Bool
  | 0, _ => true
  | fuel + 1, n =>
    match (s.translate h ctx va).2 with
    | .ok t => (s.markOf ctx t.page).any (fun m => m.frozen && !m.thawing) && (n ≤ t.left || s.allFrozen h ctx (va + BitVec.ofNat 64 t.left) fuel (n - t.left))
    | _ => false

/-- The pages of a virtual range. -/
def State.pagesFrom (s : State) (h ctx : Nat) (va : W64) : Nat → Nat → List W64
  | 0, _ => []
  | fuel + 1, n =>
    match (s.translate h ctx va).2 with
    | .ok t => t.page :: (if n ≤ t.left then [] else s.pagesFrom h ctx (va + BitVec.ofNat 64 t.left) fuel (n - t.left))
    | _ => []

/-- The value of a view register bound to an entry. -/
def vbound (slot gen desc : Nat) : VwReg :=
  { bound := true, slot := BitVec.ofNat 8 slot, gen := BitVec.ofNat 32 gen, desc := BitVec.ofNat 512 desc }

/-- A `vset` as it is issued, or issued again after a save (R198): the register, the descriptor's address, the stoker PC it stands at,
and what ends it. -/
structure VSet where
  k : Nat
  g : Group
  wn : Nat
  addr : W64
  pc : W64
  again : Bool

/-- The group past the `vset`. -/
def VSet.past (v : VSet) (s : State) : Group :=
  let g := s.fresh v.k v.g
  if v.again then { g with redo := g.redo.drop 1 } else g.adv 4

/-- The `vset` traps; one issued again names its own PC, and skipping it moves no PC (R198, R267). -/
def VSet.trap (v : VSet) (s : State) (t : Trap) : State :=
  if v.again then
    takeTrap s v.k (s.fresh v.k v.g) { t with stoker := true, tmask := fullMask v.g.width, pc := v.pc.setWidth 32, len := 0 }
  else s.trapS v.k (s.fresh v.k v.g) t

/-- Whether a workgroup may hold an entry of more units (R186). -/
def State.inQuota (s : State) (h : Nat) (g : Group) (units : Nat) : Bool := s.viewUse h g.wg + units ≤ (s.wgOf g.wg).vquota

/-- The clock at which the copy into an entry that is under way ends (R188). -/
def State.copyEnds (s : State) (h n : Nat) : Option Nat :=
  s.groups.findSome? fun (p : Nat × Group) =>
    if hearthOf p.1 = h then
      ((tabVals p.2.wBusy).find? fun c => c.w.slot.toNat == n && c.w.gen.toNat == (s.vent h n).gen && s.clk < c.ready).map (·.ready)
    else none

/-- A held entry used; while a copy into it is under way, the `vset` completes as that ends (R188). -/
def VSet.share (v : VSet) (s : State) (x n : Nat) : State :=
  let h := hearthOf v.k
  if !(s.heldSlots h fun g' => g'.wg == v.g.wg).contains n && !s.inQuota h v.g (s.vent h n).units then
    v.trap s { code := 0x13, addr := v.addr }
  else
    let w := vbound n (s.vent h n).gen x
    match s.copyEnds h n with
    | some t => s.setG v.k { v.past s with wBusy := tabSet v.g.wBusy v.wn { w := w, ready := t, addr := v.addr, pc := v.pc } }
    | none => s.setG v.k { v.past s with w := tabSet v.g.w v.wn w }

/-- An entry filled from a matrix; the register is bound as the copy ends (R188). -/
def VSet.fill (v : VSet) (s : State) (x : Nat) (m : List Byte) (pz : Bool) (key : Nat) : State :=
  let h := hearthOf v.k
  let d := vdesc x
  if !s.inQuota h v.g (viewUnits d.matBytes) then v.trap s { code := 0x13, addr := v.addr }
  else
    match s.freeSlot h with
    | none => v.trap s { code := 0x13, addr := v.addr }
    | some n =>
      let s := s.fillEntry h n
        { ctx := v.g.ctx, pz := pz, fclean := s.allFrozen h v.g.ctx d.matrix 16 d.matBytes, units := viewUnits d.matBytes,
          pages := s.pagesFrom h v.g.ctx d.matrix 16 d.matBytes, matrix := key, len := d.len, width := d.width, mfmt := d.mfmt, bytes := m }
      s.setG v.k
        { v.past s with
          wBusy := tabSet v.g.wBusy v.wn
            { w := vbound n (s.vent h n).gen x, ready := s.clk + (d.matBytes + 255) / 256, addr := v.addr, pc := v.pc } }

/-- A held entry of a hearth with the key of a descriptor's matrix that a test picks (R188). -/
def State.heldWith (s : State) (h ctx key : Nat) (d : VDesc) (f : VEnt → Bool) : Option Nat :=
  (s.heldSlots h fun _ => true).find? fun n =>
    let e := s.vent h n
    e.ctx == ctx && e.matrix == key && e.len == d.len && e.width == d.width && e.mfmt == d.mfmt && f e

/-- `vset` once the descriptor is read (R188): a frozen-clean entry with the key counts as equal unread; else the matrix is read. Bytes
that are poisoned are equal to none (DESIGN CHOICE, log 60). -/
def VSet.bind (v : VSet) (s : State) (x : Nat) : State :=
  let h := hearthOf v.k
  let d := vdesc x
  if !d.ok then v.trap s (trapOperand v.addr)
  else
    match s.chkTlb v.k v.g accLoad d.matrix 2 with
    | (s, .trap t) => v.trap s t
    | (s, .wait) => s.waitS v.k
    | (s, .ok t) =>
      let key := matrixKey t
      match s.heldWith h v.g.ctx key d (·.fclean) with
      | some n => v.share s x n
      | none =>
        match s.readRange v.k v.g d.matrix d.matBytes with
        | (s, .inr t) => v.trap s t
        | (s, .inl none) => s.waitS v.k
        | (s, .inl (some (m, pz))) =>
          match s.heldWith h v.g.ctx key d fun e => !pz && !e.pz && e.bytes == m with
          | some n => v.share s x n
          | none => v.fill s x m pz key

/-- `vset` from its descriptor's address (R188). -/
def VSet.run (v : VSet) (s : State) : State :=
  if (tabGet v.g.wBusy v.wn).isSome then s.waitS v.k
  else if v.addr.toNat % 64 != 0 then v.trap s (trapOperand v.addr)
  else
    match s.readRange v.k v.g v.addr 64 with
    | (s, .inr t) => v.trap s t
    | (s, .inl none) => s.waitS v.k
    | (s, .inl (some (b, _))) => v.bind s (leNat b)

/-- `vset` (R188). -/
def execVset (wn : BitVec 3) (sa : BitVec 6) (s : State) : Res :=
  onStoker s fun k g =>
    let a := g.sGet sa.toNat
    if (tabGet g.wBusy wn.toNat).isSome then s.waitS k
    else if a.pz then s.trapS k g (trapPoison a.val 64)
    else ({ k := k, g := g, wn := wn.toNat, addr := a.val, pc := g.spc, again := false } : VSet).run s

/-- `vdrop` (R189). -/
def execVdrop (wn : BitVec 3) (s : State) : Res :=
  onStoker s fun k g =>
    if (tabGet g.wBusy wn.toNat).isSome then s.waitS k else s.setG k ({ g with w := tabSet g.w wn.toNat {} }.adv 4)

/-- `vqry` (R190): the state word, or a word of the descriptor; 0 where the register is unbound. -/
def execVqry (sd : BitVec 6) (wn k : BitVec 3) (s : State) : Res :=
  onStoker s fun key g =>
    if (tabGet g.wBusy wn.toNat).isSome then s.waitS key
    else
      let w := tabD g.w wn.toNat {}
      let x : W64 := if k = 0 then w.word else BitVec.ofNat 64 (bits w.desc.toNat (64 * (k.toNat - 1)) 64)
      s.setG key (g.result sd (if w.bound then x else 0) false 4)

/-- The matrix copy of a view register is done: the register has its new binding, and lets go of the old one (R188): `ev.a` the
group's key, `ev.b` the register. -/
def execViewMatrixCopyDone (s : State) : Res :=
  onEvent s fun s => s.modG s.ev.a fun g =>
    match tabGet g.wBusy s.ev.b with
    | some c => { g with w := tabSet g.w s.ev.b c.w, wBusy := tabDel g.wBusy s.ev.b }
    | none => g

/-! ### View lines (R193–R196) -/

/-- The L1 lines of a live view line with a tag (R181). -/
def State.viewLines (s : State) (h slot gen token : Nat) : Nat → Nat → Option (List L1Line)
  | _, 0 => some []
  | i, n + 1 =>
    match (s.l1Lines h ((token + 64 * slot + i) % 512)).find? fun l =>
      l.kind == .view && l.slot == slot && l.gen == gen && l.token == token && l.key == i && l.live s.now none with
    | some l => (s.viewLines h slot gen token (i + 1) n).map (l :: ·)
    | none => none

/-- The bytes of a view line and whether it is poisoned. -/
def viewRow (l : List L1Line) : List Byte × Bool := (l.foldr (fun x acc => x.row ++ acc) [], l.any (·.pz != 0))

/-- A formed row installed as a view line, one L1 line for each 128 bytes (R193). -/
def State.installRow (s : State) (p : Proj) (row : List Byte) (pz : Bool) : State :=
  (enumFrom 0 (chunks 128 row)).foldl (fun s c =>
    s.l1Install p.hearth
      { kind := .view, key := c.1, exp := p.exp, pz := if pz then 15 else 0, slot := p.slot, gen := p.gen, token := p.token,
        row := c.2, deps := p.deps, rt := p.rt }) s

/-- The row of a token projected through a matrix (R192). -/
def projectRow (d : VDesc) (m : List Byte) (lat : List Byte) : List Byte :=
  let lf := (fmtOf d.lfmt).getD f16
  let mf := (fmtOf d.mfmt).getD f16
  let oform := (fmtOf d.ofmt).getD f32
  let l := (chunks (fmtSize d.lfmt) lat).map fun b => lf.decode (leNat b)
  let rows := chunks d.width ((chunks 2 m).map fun b => mf.decode (leNat b))
  (List.range d.width).foldr (fun c acc =>
    leBytes (fmtSize d.ofmt) (roundTo oform (projectColumn l (rows.map fun r => r.getD c .zero)) 1 false) ++ acc) []

/-- The lines of a virtual row: address and byte count of each piece within one line. -/
def rowPieces (va : W64) : Nat → Nat → List (W64 × Nat)
  | 0, _ | _, 0 => []
  | fuel + 1, n + 1 =>
    let m := min (n + 1) (128 - va.toNat % 128)
    (va, m) :: rowPieces (va + BitVec.ofNat 64 m) fuel (n + 1 - m)

/-- The earlier of two expiries; none is no limit (R193, R196). -/
def minExp (a b : Option Nat) : Option Nat :=
  match a, b with
  | some x, some y => some (min x y)
  | some x, none => some x
  | none, y => y

/-- A piece of a latent row taken from a line with its poison, under the copy's expiry. A row from host memory, from a line that gave
no copy or from a line lent to the hearth is not installed (R193, R194, R196; for a lent line log 61). -/
def Proj.take (p : Proj) (key : Nat) (b : List Byte) (pz : Bool) (copy : Option L1Line) : Proj :=
  { p with
    lat := p.lat ++ b, pz := p.pz || pz, deps := addOnce p.deps key, left := p.left.drop 1,
    exp := minExp p.exp (copy.bind (·.exp)), rt := p.rt || copy.any (·.rt),
    install := p.install && !isHost (keyPa key) && copy.any (·.kind != .lent) }

/-- The virtual address of a projection's next piece. -/
def Proj.vaOf (p : Proj) : W64 :=
  let d := vdesc p.desc.toNat
  d.base + BitVec.ofNat 64 (p.token * d.stride + p.lat.length)

/-- The next piece of a projection's latent row read: from L1 under the lease it has, from the line served to it, else at its home,
without being installed (R181, R191, R193); none while it waits at the home for the group's own store, a pending write or a lent
line, or for another module that does not answer (R325). -/
def State.readLatent (s : State) (p : Proj) (pa n len : Nat) (cmpr : Bool) : State × Option Proj :=
  let h := p.hearth
  let key := physKey pa
  let done := fun (s : State) (b : List Byte) (pz : Bool) (copy : Option L1Line) =>
    match s.ownRead h p.ctx pa b with
    | (s, some b) => (s, some (p.take key b pz copy))
    | (s, none) => (s, none)
  let p := { p with late := max p.late (s.clk + s.missClocks h key) }
  if s.noReply h p.ctx (readerProj, p.id) key then
    (s.sendReader h p.ctx p.owner p.id (readerProj, p.id) false p.vaOf key n, none)
  else if s.ownWrites p.owner key then (s.queueRead h key len cmpr (readerProj, p.id), none)
  else
    let put := fun (s : State) (pz : BitVec 4) (copy : Option L1Line) =>
      let hurt := partPz pz pa n
      done s (if hurt then (List.range n).map fun i => Config.poisonByte s.free (pa + i) else s.seen pa n) (hurt || s.poisoned pa n) copy
    match s.served.find? fun x => x.who == (readerProj, p.id) && x.key == key with
    | some x => done s ((x.bytes.drop (pa % 128)).take n) (partPz x.pz pa n) x.copy
    | none =>
      match s.l1Copy h key (s.frozenGen key) with
      | some l => put (s.l1Use h l) l.pz (some l)
      | none =>
        match s.fetchLine h key len cmpr (readerProj, p.id) with
        | (s, some copy) => put s ((copy.map (·.pz)).getD 0) copy
        | (s, none) => (s, none)

/-- The latent row of a projection read as far as it goes. -/
def State.readRow (s : State) : Nat → Proj → State × Proj
  | 0, p => (s, p)
  | fuel + 1, p =>
    match p.left with
    | [] => (s, p)
    | (pa, n, len, cmpr) :: _ =>
      match s.readLatent p pa n len cmpr with
      | (s, some p) => s.readRow fuel p
      | (s, none) => (s, p)

/-- The next latent line of a projection can be read now, where a replay's log holds it. -/
def State.latentThere (s : State) (p : Proj) : Bool :=
  match p.left with
  | [] => false
  | (pa, _, _, _) :: _ =>
    let key := physKey pa
    !s.readerOut (readerProj, p.id) key && ((s.served.any fun x => x.who == (readerProj, p.id) && x.key == key) ||
      (!s.ownWrites p.owner key && !s.readWaits p.hearth key) || ((s.home key).waiting.all fun w => w.who != some (readerProj, p.id)))

/-- The log can serve the next latent line of a projection (R334, R335). -/
def State.latentLogged (s : State) (p : Proj) : Bool :=
  match p.left with
  | [] => true
  | (pa, n, _, _) :: _ => s.logReady p.ctx pa n

/-- The next latent line of a projection can be read now. -/
def State.latentCome (s : State) (p : Proj) : Bool := s.latentThere p && s.latentLogged p

/-- The pieces of a virtual row at their physical addresses. -/
def State.rowPas (s : State) (h ctx : Nat) (l : List (W64 × Nat)) : List (Nat × Nat × Nat × Bool) :=
  l.filterMap fun x =>
    match (s.translate h ctx x.1).2 with
    | .ok t => some (t.pa, x.2, leaseLen (tabD s.ctxs ctx {}) t.lcls, t.cmpr)
    | _ => none

/-- A free entry of a hearth's range-lock table (R364). -/
def State.freeLock (s : State) (h : Nat) : Option Nat :=
  (List.range 64).find? fun n => (tabGet s.locks (64 * h + n)).isNone

/-- The range locks of an operation released (R364). -/
def State.unlock (s : State) (kind op : Nat) : State := { s with locks := s.locks.filter fun p => !(p.2.kind == kind && p.2.op == op) }

/-- The address of a token's latent row. -/
def VDesc.rowAddr (d : VDesc) (token : Nat) : W64 := d.base + BitVec.ofNat 64 (token * d.stride)

/-- An element of a row as the registers of an `ldv` take it (R182, R191). -/
def VDesc.element (d : VDesc) (t r col : Nat) (row : List Byte × Bool) : List OutV :=
  let n := fmtSize d.ofmt
  resultRegs t r (if d.ofmt = 10 then 2 else 1) (leNat ((row.1.drop (n * col)).take n)) row.2

/-- A row brought to an `ldv` that reads it. -/
def State.deliverRow (s : State) (d : VDesc) (row : List Byte × Bool) (w : LdvWait) : State :=
  s.modOwner w.who fun g =>
    (w.elems.foldr (fun x acc => d.element x.1 x.2.1 x.2.2 row ++ acc) []).foldl (fun g v => g.fill w.out v.t v.r (v.val.getD {})) g

/-- The latent bytes of a projection as they are registered in the range-lock table (R192, R364). -/
def Proj.lock (p : Proj) (k : Nat) : Lock :=
  let d := vdesc p.desc.toNat
  { base := va57 (d.rowAddr p.token), len := d.rowBytes, gslot := k % 128, dst := false, space := .glob, kind := lockProj,
    ctx := p.ctx, wg := p.owner.1, gidx := p.owner.2, op := p.id }

/-- A projection may take a range-lock entry: one is free, and no older miss of the hearth waits for one (R192). -/
def State.mayLock (s : State) (p : Proj) : Bool :=
  (s.freeLock p.hearth).isSome && s.projs.all fun q => q.hearth != p.hearth || q.locked || p.id ≤ q.id

/-- A projection registers its range, once it may, and reads what it can of its latent row. -/
def State.advance (s : State) (p : Proj) : State :=
  let put := fun (s : State) (p' : Proj) => { s with projs := s.projs.map fun q => if q.id = p.id then p' else q }
  if p.locked then
    let (s, p') := s.readRow p.left.length p
    put s p'
  else
    match (if s.mayLock p then s.freeLock p.hearth else none) with
    | some n =>
      let s : State := { s with locks := tabSet s.locks (64 * p.hearth + n) (p.lock ((s.keyOf p.owner).getD 0)) }
      let (s, p') := s.readRow p.left.length { p with locked := true }
      put s p'
    | none => s

/-- The projection unit takes a row whose latent lines have come: it forms one row at a time, in the order they came, and the row is
there 6 clocks and those of the unit later (R192). -/
def State.takeUnit (s : State) (p : Proj) : State :=
  let d := vdesc p.desc.toNat
  let free := listMax ((s.projs.filter fun q => q.hearth == p.hearth).map fun q => q.ready - 6)
  let ready := max s.clk free + (d.len * d.width + 16383) / 16384 + 6
  { s with projs := s.projs.map fun q => if q.id = p.id then { q with ready := ready } else q }

/-- The row of a projection is formed: it is installed unless it may not be (R195, R196), its lock goes, and the `ldv` instructions that
wait for it have the row (R192, R193). -/
def State.formRow (s : State) (p : Proj) : State :=
  let ent := s.vent p.hearth p.slot
  let row := projectRow (vdesc p.desc.toNat) ent.bytes p.lat
  let pz := p.pz || ent.pz
  let s := (s.unlock lockProj p.id).forget (readerProj, p.id)
  let s := if p.install && !p.stale then s.installRow p row pz else s
  p.waiters.foldl (fun s w => s.deliverRow (vdesc p.desc.toNat) (row, pz) w) { s with projs := s.projs.filter (·.id != p.id) }

/-- A projection goes on (R191–R193): `ev.a` its identifier. Latent lines that have come are read, and a row that is formed completes. -/
def execProjectionComplete (s : State) : Res :=
  onEvent s fun s =>
    match s.projs.find? fun p => p.id == s.ev.a with
    | none => s
    | some p =>
      if !p.left.isEmpty then s.advance p
      else if p.ready = 0 then (if p.late ≤ s.clk then s.takeUnit p else s)
      else if p.ready ≤ s.clk then s.formRow p
      else s

/-! ### `ldv` (R191) -/

/-- An `ldv` with its view register and descriptor. -/
structure LdvEnv where
  e : LEnv
  w : VwReg
  d : VDesc

/-- A row's pieces. -/
def LdvEnv.pieces (q : LdvEnv) (token : Nat) : List (W64 × Nat) := rowPieces (q.d.rowAddr token) (q.d.rowBytes + 1) q.d.rowBytes

/-- Checks 3 and 4 of R191 on the pieces of a row: the first trap of each kind (illegal access, absent page, codec region). -/
def State.rowChecks (s : State) (h ctx : Nat) : List (W64 × Nat) → List Trap × List Trap × List Trap → State × List Trap × List Trap × List Trap
  | [], x => (s, x)
  | (va, n) :: r, (ill, abs, cod) =>
    let a : AccK := { rd := true, ldv := true }
    if canonical va then
      match s.translate h ctx va with
      | (s, .ok t) =>
        if !t.rd || s.fenced (dieOf h) (s.keyOfTr (tabD s.ctxs ctx {}) t) then
          s.rowChecks h ctx r (ill ++ [accTrap 0x06 a va n], abs, cod)
        else if t.creg.isSome then s.rowChecks h ctx r (ill, abs, cod ++ [accTrap 0x09 a va n])
        else s.rowChecks h ctx r (ill, abs, cod)
      | (s, .absent x) => s.rowChecks h ctx r (ill, abs ++ [{ accTrap 0x05 a va n with s3 := x }], cod)
      | (s, .illegal m) => s.rowChecks h ctx r (ill ++ [{ accTrap 0x06 a va n with malf := m }], abs, cod)
    else s.rowChecks h ctx r (ill ++ [accTrap 0x06 a va n], abs, cod)

/-- The bytes of a token's latent row: physical address and count of each piece. -/
def LdvEnv.span (q : LdvEnv) (s : State) (token : Nat) : List (Nat × Nat) :=
  (s.rowPas (hearthOf q.e.k) q.e.g.ctx (q.pieces token)).map fun x => (x.1, x.2.1)

/-- What a lookup finds: a live view line, a projection of the tag under way, or neither (R181, R192). -/
inductive RowFound where
  | line (l : List L1Line)
  | proj (id : Nat)
  | nothing
  deriving DecidableEq, Repr

/-- A projection under way that a lookup joins: of its tag, whose latent bytes are those of the leases taken (R192, R195). -/
def LdvEnv.joins (q : LdvEnv) (now token : Nat) (p : Proj) : Bool :=
  p.hearth == hearthOf q.e.k && p.slot == q.w.slot.toNat && p.gen == q.w.gen.toNat && p.token == token && !p.stale && p.exp.all (now < ·)

/-- The lookup of a token. A group whose own store to the row's lines is not performed neither hits nor joins what other groups have
projected: its read is ordered after that store, so it misses and waits for it (R181, R191). -/
def LdvEnv.find (q : LdvEnv) (s : State) (token : Nat) : RowFound :=
  if (q.span s token).any fun x => s.ownWrites q.e.g.name (physKey x.1) then .nothing
  else
    match s.viewLines (hearthOf q.e.k) q.w.slot.toNat q.w.gen.toNat token 0 ((q.d.outBytes + 127) / 128) with
    | some l => .line l
    | none =>
      match s.projs.find? (q.joins s.now token) with
      | some p => .proj p.id
      | none => .nothing

/-- The lookup counts as a hit (R192). -/
def RowFound.hits (x : RowFound) : Bool := x != .nothing

/-- One lookup for a token and what follows: the row of a view line, which is the most recently used of its sets (R227), the wait for a
projection under way, or a projection of its own (R181, R191–R193). -/
def State.lookupRow (s : State) (q : LdvEnv) (token : Nat) (w : LdvWait) : State :=
  let h := hearthOf q.e.k
  match q.find s token with
  | .line l => (l.foldl (fun s x => s.l1Use h x) s).deliverRow q.d (viewRow l) w
  | .proj id => { s with projs := s.projs.map fun p => if p.id = id then { p with waiters := p.waiters ++ [w] } else p }
  | .nothing =>
    let p : Proj :=
      { id := s.nextId, hearth := h, ctx := q.e.g.ctx, owner := q.e.g.name, slot := q.w.slot.toNat, gen := q.w.gen.toNat, token := token,
        desc := q.w.desc, left := s.rowPas h q.e.g.ctx (q.pieces token), waiters := [w] }
    ({ s.newId with projs := s.projs ++ [p] } : State).advance p

/-- The distinct tokens of the acting threads, one lookup for each (R181). -/
def LdvEnv.tokens (q : LdvEnv) (tok : Nat → Nat) : List Nat := (q.e.ts.map tok).foldl addOnce []

/-- The lookups of an `ldv` whose result is outstanding. -/
def State.lookupRows (s : State) (q : LdvEnv) (tok : Nat → Nat) (o : Out) : State :=
  (q.tokens tok).foldl (fun s token =>
    s.lookupRow q token
      { who := q.e.g.name, out := o.id, elems := (o.ldvs.filter fun x => x.2.2.1 == token).map fun x => (x.1, x.2.1, x.2.2.2.1) }) s

/-- An earlier `ldv` of the split is still to read bytes of the row, and this one would read them first: it waits (R166, R249). One of
the same row comes behind it in any case, unless it hits. -/
def LdvEnv.behind (q : LdvEnv) (s : State) (token : Nat) : Bool :=
  let hit := match q.find s token with
    | .line _ => true
    | _ => false
  q.e.sp.outs.any fun o => !o.complete && (o.span.any fun x => (q.span s token).any fun y => overlaps x.1 x.2 y.1 y.2) &&
    (hit || !o.ldvs.any fun x => x.2.2.1 == token && x.2.2.2.2 == q.e.f.vc.toNat % 8)

/-- `ldv` after its checks: the result is outstanding, and one lookup for each token brings its elements or has them projected. -/
def LdvEnv.run (q : LdvEnv) (s : State) (tok col : Nat → Nat) : State :=
  let e := q.e
  let r := e.f.vd.toNat
  if (q.tokens tok).any (q.behind s) then s.waitL e.k e.slot
  else
    let o : Out :=
      { id := s.nextId, left := 0,
        vals := e.ts.foldr (fun t acc => (List.range (if q.d.ofmt = 10 then 2 else 1)).map (fun i => ⟨t, r + i, none⟩) ++ acc) [],
        ldvs := e.ts.map fun t => (t, r, tok t, col t, e.f.vc.toNat % 8),
        span := (q.tokens tok).foldr (fun t acc => q.span s t ++ acc) [] }
    (({ e with s := s } : LEnv).owe o).lookupRows q tok o

/-- The traps of every acting thread's row, by kind: illegal access, absent page, codec region. -/
def LdvEnv.rowTraps (q : LdvEnv) (tok : Nat → Nat) : List Nat → State → State × List (Nat × Trap) × List (Nat × Trap) × List (Nat × Trap)
  | [], s => (s, [], [], [])
  | t :: r, s =>
    let (s, ill, abs, cod) := s.rowChecks (hearthOf q.e.k) q.e.g.ctx (q.pieces (tok t)) ([], [], [])
    let (s, i, a, c) := q.rowTraps tok r s
    let one := fun (l : List Trap) => (l.head?.map fun x => (t, x)).toList
    (s, one ill ++ i, one abs ++ a, one cod ++ c)

/-- Checks 3 to 5 of R191, in the order of R165, then the lookups. SIZE counts the bytes of the faulting piece within its line for a check of
a page, and the row's for a range lock (DESIGN CHOICE, log 80). -/
def LdvEnv.checked (q : LdvEnv) (tok col : Nat → Nat) : State :=
  let e := q.e
  let (s, ill, abs, cod) := q.rowTraps tok e.ts e.s
  let a : AccK := { rd := true, ldv := true }
  e.failed s ill <| e.failed s abs <| e.failed s cod <|
  e.failed s
    ((e.ts.filter fun t => s.conflict (hearthOf e.k) e.g.ctx e.g.wg e.g.gidx .glob (va57 (q.d.rowAddr (tok t))) q.d.rowBytes false).map
      fun t => (t, accTrap 0x0A a (q.d.rowAddr (tok t)) q.d.rowBytes)) (q.run s tok col)

/-- `ldv` (R191). With no acting thread it has no effect (R142). A poisoned token or column is trapped with ADDR and SIZE 0, as of an
instruction that has not addressed memory yet (DESIGN CHOICE, log 80). -/
def execLdv (f : LaneF) (s : State) : Res :=
  laneRun s f fun e =>
    let w := tabD e.snap.w (f.vc.toNat % 8) {}
    let d := vdesc w.desc.toNat
    let q : LdvEnv := ⟨e, w, d⟩
    let tok := fun t => (e.reg t f.va.toNat).val.toNat
    let col := fun t => (e.opB t).x
    let bad := e.ts.filter fun t => (e.reg t f.va.toNat).pz || (e.opB t).pz
    let pair := d.ofmt == 10 && (f.vd.toNat % 2 == 1 || (e.g.kern.vregs + 7) / 8 * 8 ≤ f.vd.toNat + 1)
    let wide := e.ts.filter fun t => d.width ≤ col t
    if e.ts.isEmpty then e.done e.s e.g
    else if !bad.isEmpty then e.trap { trapPoison 0 0 with ldv := true } (maskOf bad)
    else if !w.bound || pair then e.trap { trapOperand 0 with ldv := true } (maskOf e.ts)
    else
      match wide with
      | [] => q.checked tok col
      | t :: _ => e.trap { trapOperand (BitVec.ofNat 64 (col t)) with ldv := true } (maskOf wide)

end Sys2Proof.Machine
end

