-- ==== Sys2Proof/Machine/Timing.lean ====
section
/-! DEFINITION. Dependences and the latencies the manual states in clocks (R16, R22, R85, R95, R143, R190, R191, R201, R220, R238,
R363, R384): when a result may be read, and what an issue notes of it. -/

namespace Sys2Proof.Machine

/-! ### Dependences (R85, R145) -/

/-- The scalar registers a stoker instruction names; a pending result of one of them holds it back (R85). -/
def stokerRegs : Instr → List Nat
  | .add sd sa sb => [sd.toNat, sa.toNat, sb.toNat]
  | .sub sd sa sb => [sd.toNat, sa.toNat, sb.toNat]
  | .and sd sa sb => [sd.toNat, sa.toNat, sb.toNat]
  | .or sd sa sb => [sd.toNat, sa.toNat, sb.toNat]
  | .xor sd sa sb => [sd.toNat, sa.toNat, sb.toNat]
  | .andn sd sa sb => [sd.toNat, sa.toNat, sb.toNat]
  | .shl sd sa sb => [sd.toNat, sa.toNat, sb.toNat]
  | .shrN64 sd sa sb => [sd.toNat, sa.toNat, sb.toNat]
  | .shrI64 sd sa sb => [sd.toNat, sa.toNat, sb.toNat]
  | .mul sd sa sb => [sd.toNat, sa.toNat, sb.toNat]
  | .mulhI64 sd sa sb => [sd.toNat, sa.toNat, sb.toNat]
  | .mulhN64 sd sa sb => [sd.toNat, sa.toNat, sb.toNat]
  | .divI64 sd sa sb => [sd.toNat, sa.toNat, sb.toNat]
  | .divN64 sd sa sb => [sd.toNat, sa.toNat, sb.toNat]
  | .remI64 sd sa sb => [sd.toNat, sa.toNat, sb.toNat]
  | .remN64 sd sa sb => [sd.toNat, sa.toNat, sb.toNat]
  | .minI64 sd sa sb => [sd.toNat, sa.toNat, sb.toNat]
  | .minN64 sd sa sb => [sd.toNat, sa.toNat, sb.toNat]
  | .maxI64 sd sa sb => [sd.toNat, sa.toNat, sb.toNat]
  | .maxN64 sd sa sb => [sd.toNat, sa.toNat, sb.toNat]
  | .popc sd sa => [sd.toNat, sa.toNat]
  | .clz sd sa => [sd.toNat, sa.toNat]
  | .ctz sd sa => [sd.toNat, sa.toNat]
  | .bswap sd sa => [sd.toNat, sa.toNat]
  | .addImm sd sa _ => [sd.toNat, sa.toNat]
  | .andImm sd sa _ => [sd.toNat, sa.toNat]
  | .orImm sd sa _ => [sd.toNat, sa.toNat]
  | .xorImm sd sa _ => [sd.toNat, sa.toNat]
  | .shlImm sd sa _ => [sd.toNat, sa.toNat]
  | .shrN64Imm sd sa _ => [sd.toNat, sa.toNat]
  | .shrI64Imm sd sa _ => [sd.toNat, sa.toNat]
  | .mulImm sd sa _ => [sd.toNat, sa.toNat]
  | .minI64Imm sd sa _ => [sd.toNat, sa.toNat]
  | .minN64Imm sd sa _ => [sd.toNat, sa.toNat]
  | .maxI64Imm sd sa _ => [sd.toNat, sa.toNat]
  | .maxN64Imm sd sa _ => [sd.toNat, sa.toNat]
  | .cmp _ sa sb _ _ => [sa.toNat, sb.toNat]
  | .cmpI64Imm _ _ sa _ => [sa.toNat]
  | .cmpN64Imm _ _ sa _ => [sa.toNat]
  | .csel sd sa sb _ => [sd.toNat, sa.toNat, sb.toNat]
  | .jr sa => [sa.toNat]
  | .bz sa _ => [sa.toNat]
  | .bnz sa _ => [sa.toNat]
  | .ldN8 sd sa _ => [sd.toNat, sa.toNat]
  | .ldI8 sd sa _ => [sd.toNat, sa.toNat]
  | .ldN16 sd sa _ => [sd.toNat, sa.toNat]
  | .ldI16 sd sa _ => [sd.toNat, sa.toNat]
  | .ldN32 sd sa _ => [sd.toNat, sa.toNat]
  | .ldI32 sd sa _ => [sd.toNat, sa.toNat]
  | .ldB64 sd sa _ => [sd.toNat, sa.toNat]
  | .stB8 sd sa _ => [sd.toNat, sa.toNat]
  | .stB16 sd sa _ => [sd.toNat, sa.toNat]
  | .stB32 sd sa _ => [sd.toNat, sa.toNat]
  | .stB64 sd sa _ => [sd.toNat, sa.toNat]
  | .ldAcq sd sa _ _ => [sd.toNat, sa.toNat]
  | .stRel sd sa _ _ => [sd.toNat, sa.toNat]
  | .aadd _ sd sa sb => [sd.toNat, sa.toNat, sb.toNat]
  | .aaddAr _ sd sa sb _ => [sd.toNat, sa.toNat, sb.toNat]
  | .aand _ sd sa sb => [sd.toNat, sa.toNat, sb.toNat]
  | .aandAr _ sd sa sb _ => [sd.toNat, sa.toNat, sb.toNat]
  | .aor _ sd sa sb => [sd.toNat, sa.toNat, sb.toNat]
  | .aorAr _ sd sa sb _ => [sd.toNat, sa.toNat, sb.toNat]
  | .axor _ sd sa sb => [sd.toNat, sa.toNat, sb.toNat]
  | .axorAr _ sd sa sb _ => [sd.toNat, sa.toNat, sb.toNat]
  | .aminI _ sd sa sb => [sd.toNat, sa.toNat, sb.toNat]
  | .aminIAr _ sd sa sb _ => [sd.toNat, sa.toNat, sb.toNat]
  | .aminN _ sd sa sb => [sd.toNat, sa.toNat, sb.toNat]
  | .aminNAr _ sd sa sb _ => [sd.toNat, sa.toNat, sb.toNat]
  | .amaxI _ sd sa sb => [sd.toNat, sa.toNat, sb.toNat]
  | .amaxIAr _ sd sa sb _ => [sd.toNat, sa.toNat, sb.toNat]
  | .amaxN _ sd sa sb => [sd.toNat, sa.toNat, sb.toNat]
  | .amaxNAr _ sd sa sb _ => [sd.toNat, sa.toNat, sb.toNat]
  | .axchg _ sd sa sb => [sd.toNat, sa.toNat, sb.toNat]
  | .axchgAr _ sd sa sb _ => [sd.toNat, sa.toNat, sb.toNat]
  | .acas _ sd sa sb => [sd.toNat, sa.toNat, sb.toNat]
  | .acasAr _ sd sa sb _ => [sd.toNat, sa.toNat, sb.toNat]
  | .xlt _ sa sb => [sa.toNat, sb.toNat]
  | .xrd sd _ _ => [sd.toNat]
  | .vset _ sa => [sa.toNat]
  | .vqry sd _ _ => [sd.toNat]
  | .mma sa => [sa.toNat]
  | .accz sa sb => [sa.toNat, sb.toNat]
  | .accld sd sa sb => [sd.toNat, sa.toNat, sb.toNat]
  | .accst sd sa sb _ => [sd.toNat, sa.toNat, sb.toNat]
  | .cpy sa _ => [sa.toNat]
  | .cpy2d sa _ => [sa.toNat]
  | .cpyg sa _ => [sa.toNat]
  | .cpstat sd _ => [sd.toNat]
  | .srd sd _ => [sd.toNat]
  | .mset sa => [sa.toNat]
  | .launch sa => [sa.toNat]
  | .frz sd sa sb => [sd.toNat, sa.toNat, sb.toNat]
  | .thaw sd sa sb => [sd.toNat, sa.toNat, sb.toNat]
  | .tkwt sa => [sa.toNat]
  | .cdctr sd sa _ => [sd.toNat, sa.toNat]
  | .cdclr sa => [sa.toNat]
  | .ptake sd => [sd.toNat]
  | .pmap sa sb => [sa.toNat, sb.toNat]
  | .swrd sd sa => [sd.toNat, sa.toNat]
  | .slit _ _ sd sa => [sd.toNat, sa.toNat]
  | .call _ => [63]
  | _ => []

/-- Instructions that read or land every scalar register, or leave the stream. -/
def readsAll : Instr → Bool
  | .lrun _ | .lwait | .lkill | .yield | .tret | .exit => true
  | _ => false

/-- The scalar registers with a pending result of an atomic, those of the interrupted program included. -/
def Group.owed (g : Group) : List Nat :=
  g.sPend ++ (match g.hnd with
    | some f => f.sPend
    | none => [])

/-- A stoker instruction waits for a pending scalar result (R85). -/
def Group.depends (g : Group) (i : Instr) : Bool :=
  if readsAll i then !g.sPend.isEmpty else (stokerRegs i).any g.owed.contains

/-! ### Latencies of the stoker (R85, R95) -/

/-- Significant bits of a number. -/
def sigBits (x : Nat) : Nat := if x = 0 then 0 else Nat.log2 x + 1

/-- Significant bits of a quotient. -/
def quotBits (w : Nat) (signed : Bool) (a b : Nat) : Nat :=
  if signed then sigBits (sintOf w (divN w true a b)).natAbs else sigBits (divN w false a b)

/-- The latency of a division between its bounds: it grows with the quotient bits by free steps (R85, R143). -/
def divLat (kind lo hi q : Nat) : Nat := min hi ((List.range q).foldl (fun n i => n + Config.divStep kind i) lo)

/-- Instructions of which every named scalar register is a source. -/
def onlyReads : Instr → Bool
  | .cmp _ _ _ _ _ | .cmpI64Imm _ _ _ _ | .cmpN64Imm _ _ _ _ | .jr _ | .bz _ _ | .bnz _ _
  | .stB8 _ _ _ | .stB16 _ _ _ | .stB32 _ _ _ | .stB64 _ _ _ | .stRel _ _ _ _
  | .xlt _ _ _ | .vset _ _ | .mma _ | .accz _ _ | .accld _ _ _ | .accst _ _ _ _
  | .cpy _ _ | .cpy2d _ _ | .cpyg _ _ | .mset _ | .launch _ | .tkwt _ | .cdclr _ | .pmap _ _ => true
  | _ => false

/-- The scalar registers an instruction reads; MODE counts as 64. -/
def stokerSources (i : Instr) : List Nat :=
  match i with
  | .srd _ n => if n = 0x11 then [64] else []
  | .slit _ op sd sa => if 0x28 ≤ op.toNat then [sd.toNat, sa.toNat] else [sa.toNat]
  | .acas _ _ _ _ | .acasAr _ _ _ _ _ => stokerRegs i
  | .call _ => []
  | _ => if onlyReads i then stokerRegs i else (stokerRegs i).drop 1

/-- The scalar register an instruction writes, or 64 for MODE. -/
def stokerDest (i : Instr) : Option Nat :=
  match i with
  | .mset _ => some 64
  | .slit _ op sd _ => if 0x28 ≤ op.toNat || op = 16 || op = 17 then none else some sd.toNat
  | _ => if onlyReads i then none else (stokerRegs i).head?

/-- The result latency of an instruction (R85, R190, R363). -/
def stokerLat (g : Group) (i : Instr) : Nat :=
  let div := fun signed (a b : BitVec 6) => divLat 0 12 68 (quotBits 64 signed (g.sGet a.toNat).val.toNat (g.sGet b.toNat).val.toNat)
  match i with
  | .mul _ _ _ | .mulhI64 _ _ _ | .mulhN64 _ _ _ | .mulImm _ _ _ => 4
  | .slit _ op _ _ => if op = 0xB then 4 else 1
  | .divI64 _ a b | .remI64 _ a b => div true a b
  | .divN64 _ a b | .remN64 _ a b => div false a b
  | .srd _ _ | .xrd _ _ _ | .vqry _ _ _ | .mset _ | .cpstat _ _ => 2
  | _ => 1

/-- Every register an instruction reads holds its final value; an `lrun` reads them all (R31, R85). -/
def State.stokerTimed (s : State) (g : Group) (i : Instr) : Bool :=
  match i with
  | .lrun _ => g.sReady.all fun p => p.2 ≤ s.clk
  | _ => (stokerSources i).all fun n => tabD g.sReady n 0 ≤ s.clk

/-- Whether an instruction transfers (R95). -/
def Group.takes (g : Group) (i : Instr) : Bool :=
  match i with
  | .br _ | .call _ | .jr _ => true
  | .bz sa _ => (g.sGet sa.toNat).val == 0
  | .bnz sa _ => (g.sGet sa.toNat).val != 0
  | .bc cn _ => g.cGet cn.toNat
  | .bnc cn _ => !g.cGet cn.toNat
  | _ => false

/-- A group that has taken no trap since it was `g`. -/
def Group.goesOn (x g : Group) : Bool := x.susp.isSome == g.susp.isSome && x.hnd.isSome == g.hnd.isSome &&
  x.raised.isSome == g.raised.isSome

/-- The address a stoker load reads. -/
def loadAddr (g : Group) (i : Instr) : Option W64 :=
  let at_ := fun (sa : BitVec 6) (off : W64) => some ((g.sGet sa.toNat).val + off)
  match i with
  | .ldN8 _ sa x | .ldI8 _ sa x | .ldN16 _ sa x | .ldI16 _ sa x | .ldN32 _ sa x | .ldI32 _ sa x | .ldB64 _ sa x => at_ sa (imm64 x)
  | .ldAcq _ sa _ _ => at_ sa 0
  | .slit v op _ sa => if 0x20 ≤ op.toNat && op.toNat ≤ 0x26 then at_ sa v else none
  | _ => none

/-- The clocks that the manual adds to a stoker load's miss, as the state stands before it (R292, R314). -/
def State.stokerMiss (s : State) (k : Nat) (g : Group) (i : Instr) : Nat :=
  match loadAddr g i with
  | some va =>
    if canonical va then
      match (s.translate (hearthOf k) g.ctx va).2 with
      | .ok t => s.missClocks (hearthOf k) (s.keyOfTr (tabD s.ctxs g.ctx {}) t)
      | _ => 0
    else 0
  | none => 0

/-- What the issue of a stoker instruction by `g` at clock `clk` notes: the clock its result may be read at, `miss` later for a load, and
the two clocks of a taken transfer. -/
def Group.timeStoker (x g : Group) (clk miss : Nat) (i : Instr) : Group :=
  let late := x.sReady.filter fun p => clk + 1 < p.2
  let lat := stokerLat g i + miss
  { x with
    sNext := if g.takes i then clk + 2 else x.sNext,
    sReady := match stokerDest i with
      | some d => if d = 0 || lat ≤ 1 then tabDel late d else tabSet late d (clk + lat)
      | none => late }

/-- The same in the state the instruction left, `s0` being the one before it; a trap took it back. -/
def State.timeStoker (s s0 : State) (k : Nat) (g : Group) (i : Instr) : State :=
  s.modG k fun x => if x.goesOn g then x.timeStoker g s.clk (s0.stokerMiss k g i) i else x

/-! ### Passes and latencies of the lanes (R22, R143, R191, R220, R238) -/

/-- The clocks a pass of a lane instruction holds its slot: 4 for FP64 arithmetic, 16 for its `div` and `sqrt` (R143). -/
def passClocks (i : Instr) : Nat :=
  match laneSig i with
  | some (q, _) => if q.cls = 3 then (if 11 ≤ q.op then 16 else 4) else 1
  | none => 1

/-- Passes in which some thread acts (R22). -/
def passesOf (g : Group) (sp : Split) (i : Instr) : Nat :=
  match laneSig i with
  | some (_, f) =>
    let ts := actingOf g sp f
    ((List.range (g.width / 32)).filter fun p => ts.any fun t => t / 32 == p).length
  | none => 1

/-- A list of register ranges, one by one. -/
def eachReg (l : List (Nat × Nat)) : List Nat := l.foldr (fun r acc => (List.range r.2).map (· + r.1) ++ acc) []

/-- The lane registers and, as 256 + n, the mask registers a lane instruction reads. -/
def laneSources (q : LaneSig) (f : LaneF) : List Nat :=
  let dst := if q.cls = 11 && q.op = 7 then q.dst else .none
  eachReg (laneRegs { q with dst := dst } f) ++ (if f.mr = 0 then [] else [256 + f.mr.toNat]) ++
    (if q.a = .mreg then [256 + f.va.toNat % 8] else []) ++ (if q.b = .mreg then [256 + f.vb.toNat % 8] else []) ++
    (if q.c = .mreg then [256 + f.vc.toNat % 8] else [])

/-- The lane registers or the mask register a lane instruction writes; m0 is no destination. -/
def laneDests (q : LaneSig) (f : LaneF) : List Nat :=
  match q.dst with
  | .v => (List.range (tyRegs f.ty.toNat)).map (· + f.vd.toNat)
  | .quad => (List.range 4).map (· + f.vd.toNat)
  | .m => if f.vd = 0 then [] else [256 + f.vd.toNat]
  | _ => []

/-- A control instruction that waits for its split's outstanding results (R144). -/
def settles (q : LaneSig) : Bool := q.cls == 13 && q.op ≤ 3

/-- A lane instruction that reaches memory (R64, R66, R68). -/
def reachesMemory (q : LaneSig) : Bool := 8 ≤ q.cls && q.cls ≤ 12

/-- A lane instruction may issue from a split: its short-latency sources are written, a control instruction has no outstanding result
to wait for, and an access follows no acquire load that is still out (R167, R201). -/
def State.laneTimed (s : State) (sp : Split) (i : Instr) : Bool :=
  match laneSig i with
  | some (q, f) =>
    ((laneSources q f).all fun r => tabD sp.busy r 0 ≤ s.clk) && (!settles q || sp.outs.all fun o => o.arrived s.clk) &&
      (!reachesMemory q || sp.outs.all fun o => !o.acq || o.arrived s.clk)
  | none => true

/-- The translation of a thread's global access, through its register or its TLB (R104). -/
def LEnv.trOfThread (e : LEnv) (t : Nat) : Option Tr :=
  let off := e.offset t
  if e.breg.holds off then some (e.breg.tr e.s (tabD e.s.ctxs e.g.ctx {}) off)
  else
    match (if canonical (e.addr .glob t) then (e.s.translate (hearthOf e.k) e.g.ctx (e.addr .glob t)).2 else .illegal false) with
    | .ok tr => some tr
    | _ => none

/-- The distinct lines the acting threads of an access touch, one request each (R220): by home line, by place in the scratchpad, or by
place in the private area, where a thread's words lie apart (R217). -/
def LEnv.lines (e : LEnv) (sp : Space) (size : Nat) : List Nat :=
  (e.ts.foldr (fun t acc =>
    (match sp with
      | .glob => ((e.trOfThread t).map (e.s.keyOfTr (tabD e.s.ctxs e.g.ctx {}))).toList
      | .priv => (List.range ((size + 3) / 4)).map fun i => (e.g.pb + privFlat e.g.width t ((e.addr sp t).toNat + 4 * i)) / 128
      | _ => [(e.addr sp t).toNat / 128]) ++ acc) []).eraseDups

/-- The pages of a list of addresses that no translation register serves. -/
def LEnv.pagesOf (e : LEnv) (l : List W64) : List Nat :=
  (((l.map fun a => a.toNat / 65536).eraseDups).map fun v =>
    match (e.s.translate (hearthOf e.k) e.g.ctx (BitVec.ofNat 64 (65536 * v))).2 with
    | .ok t => t.page.toNat
    | _ => 65536 * v).eraseDups

/-- TLB lookups of a global access beyond the four that one clock serves (R238). -/
def LEnv.moreLookups (e : LEnv) : Nat :=
  (e.pagesOf ((e.ts.filter fun t => !e.breg.holds (e.offset t)).map (e.addr .glob))).length - 4

/-- A lane instruction's environment as an `ldv`'s. -/
def LEnv.ldvEnv (e : LEnv) : LdvEnv :=
  let w := tabD e.snap.w (e.f.vc.toNat % 8) {}
  ⟨e, w, vdesc w.desc.toNat⟩

/-- The token a thread of an `ldv` names (R191). -/
def LEnv.tok (e : LEnv) (t : Nat) : Nat := (e.reg t e.f.va.toNat).val.toNat

/-- The same for an `ldv`, by the pages of its threads' latent rows (R191, R238). -/
def LEnv.ldvLookups (e : LEnv) : Nat :=
  (e.pagesOf (e.ts.foldr (fun t acc => (e.ldvEnv.pieces (e.tok t)).map (·.1) ++ acc) [])).length - 4

/-- The space of an access and its bytes in each thread, of the classes that make line requests (R220). -/
def LEnv.accesses (e : LEnv) (q : LaneSig) : Option (Space × Nat) :=
  if 8 ≤ q.cls && q.cls ≤ 11 then
    some (spaceOf q.cls e.f.sp, if q.dst = .quad || q.c = .quad then 16 else tyBits e.ty / 8)
  else none

/-- The latency of a lane instruction, counted from its last pass; none where the manual gives none (R143, R191). -/
def LEnv.latency (e : LEnv) (q : LaneSig) : Option Nat :=
  let size := ((e.accesses q).map (·.2)).getD 0
  let more := match e.accesses q with
    | some (sp, size) => (e.lines sp size).length - 1
    | none => 0
  match q.cls with
  | 0 =>
    if q.lng then
      some (listMax (e.ts.map fun t =>
        let n := quotBits (tyBits e.ty) (tySigned e.ty) (e.opA t).x (e.opB t).x
        if tyIs64 e.ty then divLat 2 36 72 n else divLat 1 20 40 n))
    else some 4
  | 3 => some (if q.lng then 48 else 8)
  | 6 => some (if q.op = 8 then 24 else if e.ty = 8 then 12 else 16)
  | 7 => some (if 4 ≤ q.op && q.op ≤ 15 && e.g.width = 128 then 12 else 8)
  | 8 => some (28 + more + e.moreLookups + listMax ((e.lines .glob size).map (e.s.missClocks (hearthOf e.k))))
  | 9 => some (20 + more)
  | 10 => some (28 + more + listMax ((e.lines .priv size).map fun x => e.s.privMiss (hearthOf e.k) (128 * x)))
  | 11 => if spaceOf 11 e.f.sp = .glob then none else some (20 + more)
  | 12 => some ((if (e.ldvEnv.tokens e.tok).any fun t => (e.ldvEnv.find e.s t).hits then 28 else 0) + e.ldvLookups)
  | _ => some 4

/-- A split after an instruction whose result comes at `due`: registers of a short-latency result may not be read before; a
long-latency result is written no earlier, and one without registers outstanding holds back what follows its window (R16). -/
def Split.timed (sp : Split) (firstNew clk due : Nat) (q : LaneSig) (f : LaneF) : Split :=
  if q.lng then
    if sp.outs.any fun o => firstNew ≤ o.id then
      { sp with outs := sp.outs.map fun o => if firstNew ≤ o.id then { o with ready := due } else o }
    else { sp with outs := sp.outs ++ [{ id := 0, left := f.la.toNat, ready := due, vals := [] }] }
  else
    { sp with busy := (laneDests q f).foldl (fun b r => tabSet b r due) (sp.busy.filter fun p => clk + 1 < p.2) }

/-- The line requests of an access at its partition's L1 port, which serves one per clock (R220): the clocks they wait for it, and the
state in which it is busy. -/
def State.takePort (s : State) (k n : Nat) : Nat × State :=
  let start := max s.clk (tabD s.l1Port (k / 32) 0)
  if n = 0 then (0, s) else (start - s.clk, { s with l1Port := tabSet s.l1Port (k / 32) (start + n) })

/-- What the issue of a lane instruction in state `s0` notes in the state the instruction left (R143, R220); with no acting thread, or
taken back by a trap, nothing. -/
def State.timeLane (s s0 : State) (k slot : Nat) (g : Group) (sp : Split) (i : Instr) : State :=
  match laneSig i with
  | some (q, f) =>
    let e := s0.laneEnv f k slot g sp 0
    if e.ts.isEmpty || settles q || !(s.grp k).all fun x => x.goesOn g then s
    else
      let (wait, s) := s.takePort k (match e.accesses q with
        | some (sp, size) => (e.lines sp size).length
        | none => 0)
      match (if q.dst = .none then none else e.latency q) with
      | some lat =>
        let due := s0.clk + (passesOf g sp i - 1) * passClocks i + wait + lat
        s.modG k fun x => x.setSplit slot ((x.split slot).map fun sp => sp.timed s0.nextId s0.clk due q f)
      | none => s
  | none => s

end Sys2Proof.Machine
end

