-- ==== Sys2Proof/Machine/Issue.lean ====
section
/-! DEFINITION. Fair issue: which streams are ready, who takes an issue opportunity, fetching, and what an issue and a clock
leave behind (R3, R22, R23, R41, R84, R85, R95, R143–R145, R201–R210). -/

namespace Sys2Proof.Machine

/-! ### Fetch (R84) -/

/-- What a read of code gives: the word, no page that may be fetched, or a wait for a module that does not answer or for a replay's log. -/
inductive Code where
  | word (w : Nat)
  | fault
  | wait
  deriving DecidableEq, Repr

/-- Four bytes fetched through the TLB; the page may not be readable, or lie across a dead link (R84, R311). From another module the fetch
may get no response (R325), and a recorded context's fetches from there and from the host are its own reads (R333, R334). -/
def State.fetch4 (s : State) (k : Nat) (g : Group) (va : W64) : State × Code :=
  let h := hearthOf k
  if canonical va then
    match s.translate h g.ctx va with
    | (s, .ok t) =>
      if t.rd && !s.fenced (dieOf h) (s.keyOfTr (tabD s.ctxs g.ctx {}) t) then
        match t.creg with
        | some r => (s, .word (leNat (s.codecRead (s.region (tabD s.ctxs g.ctx {}) r) t.pa 4).1))
        | none =>
          if isOther t.pa && (s.readerOut s.reader (physKey t.pa) || s.lostRead g.ctx h (physKey t.pa) s.nextId) then
            (s.sendReader h g.ctx g.name 0 s.reader true va (physKey t.pa) 4, .wait)
          else
            match s.ownRead h g.ctx t.pa (s.peek t.pa 4) with
            | (s, some b) => (s, .word (leNat b))
            | (s, none) => (s, .wait)
      else (s, .fault)
    | (s, _) => (s, .fault)
  else (s, .fault)

/-- What a fetch of several words gives: the words, the address of the first that cannot be fetched, or a wait. -/
inductive Words where
  | ok (l : List Nat)
  | error (va : W64)
  | wait
  deriving DecidableEq, Repr

/-- n words fetched. Where only a later word of an instruction cannot be fetched, its own address is the one named (DESIGN CHOICE, log
73). -/
def State.fetchWords (s : State) (k : Nat) (g : Group) (va : W64) : Nat → State × Words
  | 0 => (s, .ok [])
  | n + 1 =>
    match s.fetch4 k g va with
    | (s, .fault) => (s, .error va)
    | (s, .wait) => (s, .wait)
    | (s, .word w) =>
      match s.fetchWords k g (va + 4) n with
      | (s, .ok l) => (s, .ok (w :: l))
      | x => x

/-- What a fetch gives: an instruction, an illegal encoding, or the address that cannot be fetched; `unit` tells that it is a literal
word of a `slit` whose marker was fetched; or the fetch waits. -/
inductive Fetched where
  | instr (i : Instr)
  | illegal
  | fault (va : W64) (unit : Bool)
  | wait
  deriving DecidableEq, Repr

/-- What a decoded instruction gives. -/
def Fetched.of {ε : Type} : Except ε Instr → Fetched
  | .ok i => .instr i
  | .error _ => .illegal

/-- The stoker instruction at the PC, with its literal words if it is a `slit` (R45, R48, R84). A marker whose literal words cannot be
fetched takes their page fault, whatever its reserved bits hold (DESIGN CHOICE, log 68). -/
def State.fetchStoker (s : State) (k : Nat) (g : Group) : State × Fetched :=
  let va := g.kern.ib + g.kern.scoff + g.spc
  match s.fetchWords k g va 1 with
  | (s, .ok [w0]) =>
    if bits w0 25 7 = 0x7F then
      match s.fetchWords k g (va + 4) 2 with
      | (s, .ok [w1, w2]) => (s, .of (decodeStoker w0 w1 w2))
      | (s, .error a) => (s, .fault a true)
      | (s, .wait) => (s, .wait)
      | (s, .ok _) => (s, .illegal)
    else (s, .of (decodeStoker w0 0 0))
  | (s, .error a) => (s, .fault a false)
  | (s, .wait) => (s, .wait)
  | (s, .ok _) => (s, .illegal)

/-- The lane instruction at a split's PC; one that names a register beyond the kernel's is illegal (R70, R84). -/
def State.fetchLane (s : State) (k : Nat) (g : Group) (sp : Split) : State × Fetched :=
  let va := g.kern.ib + g.kern.lcoff + zx64 sp.pc
  match s.fetchWords k g va 3 with
  | (s, .ok [w0, w1, w2]) =>
    match decodeLane w0 w1 w2 with
    | .ok i =>
      match laneSig i with
      | some (q, f) => if withinVregs q f g.kern.vregs then (s, .instr i) else (s, .illegal)
      | none => (s, .illegal)
    | .error _ => (s, .illegal)
  | (s, .error a) => (s, .fault a false)
  | (s, .wait) => (s, .wait)
  | (s, .ok _) => (s, .illegal)

/-- No line of n words of code waits for the answer to a host snoop (R322). -/
def State.codeFree (s : State) (k : Nat) (g : Group) (va : W64) (n : Nat) : Bool :=
  s.snoops.isEmpty || (List.range n).all fun i =>
    match (s.translate (hearthOf k) g.ctx (va + BitVec.ofNat 64 (4 * i))).2 with
    | .ok t => t.creg.isSome || !s.snooped (physKey t.pa)
    | _ => true

/-! ### Readiness (R85, R201, R205) -/

/-- Nothing of a group may issue: stopped by a trap that waits for the results in flight, suspended by one, yielded at `cpcont`, saved, held
by the recorded mode's full or empty ring, or before coolant flow is confirmed (R6, R201, R263, R264, R335). -/
def State.held (s : State) (g : Group) : Bool :=
  g.raised.isSome || g.susp.isSome || g.yielded.isSome || g.saved || (s.recording g.ctx && s.recd.waits) || s.stopped || !s.coolant

/-- In a handler the group's accesses follow those made before entry (R266); an ordered atomic holds back what follows it
(R102, R169). -/
def State.ordering (s : State) (g : Group) (blk : Nat) : Bool :=
  s.pend.any fun p => p.owner == some g.name && ((p.blk == blk && p.acq) || g.hnd.any fun f => p.id < f.bound)

/-- A load or `ldv` of a split that a save discarded: it issues again before anything else of the split (R179). -/
def Split.redo (sp : Split) : Option Out := sp.outs.find? (·.again)

/-- A resident split may issue: ready, not waiting in its instruction, and with no result whose window has ended, which a discarded
load's does only once it has issued again (R16, R179, R201). -/
def Split.issues (sp : Split) : Bool := sp.st == .ready && !sp.waiting && (sp.redo.isSome || sp.outs.all fun o => 0 < o.left)

/-- A split's next instruction is fetched, has its short-latency sources written, and is no `bra`, `join`, `lpause` or `lstop` that waits for
outstanding results (R201); asked for only while something of the split is under way. -/
def State.splitReady (s : State) (k : Nat) (g : Group) (sp : Split) : Bool :=
  sp.issues && s.codeFree k g (g.kern.ib + g.kern.lcoff + zx64 sp.pc) 3 && (sp.redo.isSome || (sp.outs.isEmpty && sp.busy.all fun p => p.2 ≤ s.clk) ||
    match (s.fetchLane k g sp).2 with
    | .instr i => s.laneTimed sp i
    | _ => true)

/-- The PC slot a group would issue from: with both splits ready the one that did not issue last (R208). After a rotation or a slot yield
neither resident split issued the previous instruction, and the slot goes by its number (DESIGN CHOICE, log 7). -/
def State.laneSlot (s : State) (k : Nat) (g : Group) : Option Nat :=
  let a := g.slot0.any (s.splitReady k g)
  let b := g.slot1.any (s.splitReady k g)
  if a && b then some (1 - g.last) else if a then some 0 else if b then some 1 else none

/-- Ready for lane issue (R201). -/
def State.laneReady (s : State) (k : Nat) (g : Group) : Bool :=
  !s.held g && g.laneBusy ≤ s.clk && (s.laneSlot k g).isSome &&
    match g.execBlock with
    | some b => !s.ordering g b.id
    | none => false

/-- The next stoker instruction may issue under R85; asked for only while a result is under way. -/
def State.stokerFree (s : State) (k : Nat) (g : Group) : Bool :=
  (g.owed.isEmpty && g.sReady.all fun p => p.2 ≤ s.clk) ||
    match (s.fetchStoker k g).2 with
    | .instr i => !g.depends i && s.stokerTimed g i
    | _ => true

/-- Ready for stoker issue (R205). -/
def State.stokerReady (s : State) (k : Nat) (g : Group) : Bool :=
  !s.held g && !g.sWait && g.sNext ≤ s.clk && !s.ordering g 0 && s.codeFree k g (g.kern.ib + g.kern.scoff + g.spc) 3 &&
    (!g.redo.isEmpty || s.stokerFree k g)

/-- The registers a lane instruction names, one by one (R145). -/
def namedRegs (i : Instr) : List Nat :=
  match laneSig i with
  | some (q, f) => (laneRegs q f).foldr (fun r acc => (List.range r.2).map (· + r.1) ++ acc) []
  | none => []

/-- An instruction is an `ldv`, and the register after its destination is one too where its view's output is `.f32` (R171, R191). -/
def isLdv (i : Instr) : Bool := (laneSig i).any fun x => x.1.cls == 12
def Group.pairOf (g : Group) (i : Instr) : List Nat :=
  match laneSig i with
  | some (q, f) =>
    let w := tabD g.snapOf.w (f.vc.toNat % 8) {}
    if q.cls = 12 && w.bound && (vdesc w.desc.toNat).ofmt = 10 then [f.vd.toNat + 1] else []
  | none => []

/-- In checked mode an instruction names a register an outstanding result of its window writes (R145). -/
def Group.violates (g : Group) (sp : Split) (i : Instr) : Bool :=
  g.snapOf.mode.getLsbD 9 && sp.outs.any fun o => o.vals.any fun v => (namedRegs i ++ g.pairOf i).contains v.r

/-! ### Rank (R202) -/

/-- A demotion in force (R204). -/
def demoted (n : Nat) : Bool := 2 ≤ n && n != 18

/-- The keys of R202 for a group, smaller first. The groups of the context in recorded mode go first, by group slot (R332; that they go
before those of other contexts is a DESIGN CHOICE, log 74). -/
def State.rank (s : State) (k : Nat) (g : Group) (esc : Option Nat) (dem since : Nat) : List Nat :=
  if s.recording g.ctx then [0, k % 128]
  else
    match esc with
    | some n => [1, n, 0, 0, 0, k % 128]
    | none =>
      let gr := s.gridOf g
      [2, if demoted dem then 1 else 0, if gr.latency then 0 else 1, 7 - gr.prio, since, k % 128]

/-- The best-ranked candidate. -/
def bestOf : List (List Nat × Nat) → Option (List Nat × Nat)
  | [] => none
  | x :: r =>
    match bestOf r with
    | some y => if rankLt y.1 x.1 then some y else some x
    | none => some x

/-- The groups of a partition (R21), numbered over all hearths. -/
def State.members (s : State) (p : Nat) : List (Nat × Group) := s.groups.filter fun (x : Nat × Group) => x.1 / 32 == p

/-- Whether opportunity j of a partition, stoker ports 0–3 or lane slots 4–11, is free in this clock (R202, R205). -/
def State.slotFree (s : State) (p j : Nat) : Bool := tabD s.busy (12 * p + j) 0 ≤ s.clk

/-- The stream that takes opportunity j of a partition: first the stoker ports, whose trap is taken where both streams of a group have
one of the same clock, then lane slots 0 to 7 (R23, R202, R205, R263). -/
def State.offer (s : State) (p j : Nat) : Option Stream :=
  if !s.slotFree p j then none
  else if j < 4 then
    let c := (s.members p).filter fun (x : Nat × Group) => s.stokerReady x.1 x.2 && x.2.lastS != some s.clk
    (bestOf (c.map fun (x : Nat × Group) => (s.rank x.1 x.2 x.2.sesc x.2.sdem x.2.ssince, x.1))).map fun b => .stoker b.2
  else
    let c := (s.members p).filter fun (x : Nat × Group) => s.laneReady x.1 x.2 && x.2.lastL != some s.clk
    (bestOf (c.map fun (x : Nat × Group) => (s.rank x.1 x.2 x.2.lesc x.2.ldem x.2.lsince, x.1))).bind fun b =>
      (s.grp b.2).bind fun g => (s.laneSlot b.2 g).map fun slot => .lane b.2 slot

/-- The first opportunity of this clock from the cursor on that a stream takes: its place and the stream. -/
def State.nextOffer (s : State) : Option (Nat × Stream) :=
  let parts := (s.groups.map fun (x : Nat × Group) => x.1 / 32).foldl addOnce []
  parts.findSome? fun p => (List.range 12).findSome? fun j =>
    if s.cursor ≤ 12 * p + j then (s.offer p j).map fun st => (12 * p + j, st) else none

/-! ### After an issue (R143, R202–R205) -/

/-- Opportunities counted against a demotion in force (R204). -/
def demStep (n used : Nat) : Nat := if 2 ≤ n && n ≤ 17 then max 1 (n - used) else n

/-- A ready group that an issue opportunity passes over, as it stood before the issue (R203, R205). -/
def State.passedLane (s : State) (k : Nat) : Bool := (s.grp k).any fun g => s.laneReady k g && g.lastL != some s.clk && !demoted g.ldem
def State.passedStoker (s : State) (k : Nat) : Bool := (s.grp k).any fun g => s.stokerReady k g && g.lastS != some s.clk && !demoted g.sdem

/-- A lane issue in place: the slot is held for its clocks, the group's counts start again, and ready groups that were passed over count it
(R143, R202–R204, R208); `s0` is the state before the issue. An instruction with no pass takes no slot clock: it was no opportunity and the
slot is offered again (R22). -/
def State.issuedLane (s s0 : State) (pos k slot clocks : Nat) : State :=
  let took := clocks != 0
  let s : State :=
    if took then { s with cursor := pos + 1, busy := tabSet s.busy pos (s.clk + clocks) } else { s with cursor := pos }
  let dem := fun n => if took then demStep n 1 else n
  { s with
    groups := s.groups.map fun (x : Nat × Group) =>
      if x.1 / 32 = pos / 12 then
        if x.1 = k then
          (x.1, { x.2 with
            lastL := some s.clk, last := slot, lpass := 0, lesc := none, ldem := dem x.2.ldem, lsince := s.clk + 1,
            laneBusy := s.clk + clocks })
        else if took && s0.passedLane x.1 then
          (x.1, { x.2 with lpass := x.2.lpass + 1 })
        else (x.1, { x.2 with ldem := dem x.2.ldem })
      else x }

/-- A stoker issue in place: the port is held for the clock (R204, R205). -/
def State.issuedStoker (s s0 : State) (pos k : Nat) : State :=
  let s : State := { s with cursor := pos + 1, busy := tabSet s.busy pos (s.clk + 1) }
  { s with
    groups := s.groups.map fun (x : Nat × Group) =>
      if x.1 / 32 = pos / 12 then
        if x.1 = k then
          (x.1, { x.2 with lastS := some s.clk, spass := 0, sesc := none, sdem := demStep x.2.sdem 1, ssince := s.clk + 1 })
        else if s0.passedStoker x.1 then
          (x.1, { x.2 with spass := x.2.spass + 1 })
        else (x.1, { x.2 with sdem := demStep x.2.sdem 1 })
      else x }

/-- Whether the stoker of a group waits in its instruction, or its split does: then nothing has issued. -/
def State.stokerWaits (s : State) (k : Nat) : Bool := (s.grp k).any (·.sWait)
def State.laneWaits (s : State) (k slot : Nat) : Bool := (s.grp k).any fun g => (g.split slot).any (·.waiting)

/-- A result followed by what an issue leaves behind. -/
def Res.after (r : Res) (f : State → State) : Res :=
  match r with
  | .next s => .next (f s)
  | .fault x => .fault x
  | .refused x => .refused x

/-! ### The clock (R3, R41, R204, R332) -/

/-- The opportunities of a clock that nobody took counted against a demotion; a pause of this clock starts to count in the next. -/
def demTick (unused n : Nat) : Nat := if 18 ≤ n then 17 else demStep n unused

/-- A group at the end of a clock: it counts a resident clock unless it is saved, or stands still, and its places in the rank where it is
not ready. -/
def Group.tick (g : Group) (clk lfree sfree : Nat) (lready sready still : Bool) : Group :=
  { g with
    gtime := if g.saved || still then g.gtime else g.gtime + 1, ldem := demTick lfree g.ldem, sdem := demTick sfree g.sdem,
    lsince := if lready then g.lsince else clk + 1, ssince := if sready then g.ssince else clk + 1 }

/-- The context in recorded mode stands still while its groups wait on the ring: its run-time clock does not advance (DESIGN CHOICE, log
75). -/
def State.still (s : State) (ctx : Nat) : Bool := s.recording ctx && s.recd.waits

/-- The contexts with a resident group in this clock, but one that stands still (R41, R342). -/
def State.running (s : State) : List Nat :=
  (((s.groups.filterMap fun (x : Nat × Group) => if x.2.saved then none else some x.2.ctx) ++
    s.ctxs.filterMap fun (x : Nat × Ctx) => if x.2.left = some s.clk then some x.1 else none).foldl addOnce []).filter
      fun c => !s.still c

/-- Leases counted in the run time of the context in recorded mode are put off while that stands still (R332): those granted to it, and
what a die holds for them. -/
def State.putOff (s : State) (d : Nat) : State :=
  let late := fun e => if s.now < e then e + d else e
  let rt := fun key => (s.home key).rt
  { s with
    homes := s.homes.map fun (p : Nat × Home) => if p.2.rt then (p.1, { p.2 with exp := late p.2.exp }) else p,
    l1 := s.l1.map fun (p : Nat × List L1Line) => (p.1, p.2.map fun l => if l.rt then { l with exp := l.exp.map late } else l),
    sectors := s.sectors.map fun (p : Nat × Nat) => if rt (p.1 / 12) then (p.1, late p.2) else p,
    remotes := s.remotes.map fun (p : Nat × Nat) => if rt (p.1 / 4) then (p.1, late p.2) else p,
    dropexp := s.dropexp.map fun (p : Nat × Nat) => (p.1, late p.2),
    invals := s.invals.map fun i => if rt i.key then { i with ackAt := late i.ackAt } else i,
    projs := s.projs.map fun p => if p.rt then { p with exp := p.exp.map late } else p }

/-- A split's and a group's clocks of what is under way, each a clock later if it has not passed. -/
def Split.delay (sp : Split) (late : Nat → Nat) : Split := { sp with busy := sp.busy.map fun p => (p.1, late p.2) }
def Group.delay (g : Group) (late : Nat → Nat) : Group :=
  let g := g.mapOuts fun o => { o with ready := late o.ready }
  { g with
    slot0 := g.slot0.map (·.delay late), slot1 := g.slot1.map (·.delay late), laneBusy := late g.laneBusy, sNext := late g.sNext,
    sReady := g.sReady.map fun p => (p.1, late p.2), wBusy := g.wBusy.map fun p => (p.1, { p.2 with ready := late p.2.ready }) }

/-- What is under way for a context that stands still takes a clock more: the latencies of its accesses, instructions and engine
operations, and the slots and ports its groups hold, are counted in its run time (R332). -/
def State.delay (s : State) (ctx : Nat) : State :=
  let late := fun (t : Nat) => if s.clk < t then t + 1 else t
  let here := fun (part : Nat) => s.groups.any fun (x : Nat × Group) => x.1 / 32 == part && x.2.ctx == ctx
  { s with
    groups := s.groups.map fun (x : Nat × Group) => if x.2.ctx = ctx then (x.1, x.2.delay late) else x,
    pend := s.pend.map fun (p : Pend) => if p.ctx = ctx then { p with issued := p.issued + 1, ready := p.ready.map late } else p,
    copies := s.copies.map fun (c : Copy) => if c.ctx = ctx then { c with next := late c.next, late := late c.late } else c,
    mats := s.mats.map fun (m : MatOp) => if m.ctx = ctx then { m with next := late m.next, late := late m.late } else m,
    projs := s.projs.map fun (p : Proj) => if p.ctx = ctx then { p with late := late p.late, ready := late p.ready } else p,
    busy := s.busy.map fun p => if here (p.1 / 12) then (p.1, late p.2) else p,
    l1Port := s.l1Port.map fun p => if here p.1 then (p.1, late p.2) else p }

/-- The clock advances: the resident groups' and running contexts' clocks count one, and the opportunities nobody took are counted. -/
def State.clock (s : State) : State :=
  let t := (s.timeBase + (s.clk + 1) * 2 / 5) - s.now
  let s := if s.recd.active && !s.running.contains s.recd.ctx && t != 0 then s.putOff t else s
  let s := if s.still s.recd.ctx then s.delay s.recd.ctx else s
  let free := fun p lo n => ((List.range n).filter fun j => s.slotFree p (lo + j)).length
  { s with
    clk := s.clk + 1, cursor := 0, cur := none,
    ctxs := s.running.foldl (fun t c => tabMod t c fun x => { x with run := x.run + 1 }) s.ctxs,
    groups := s.groups.map fun (x : Nat × Group) =>
      (x.1, x.2.tick s.clk (free (x.1 / 32) 4 8) (free (x.1 / 32) 0 4) (s.laneReady x.1 x.2) (s.stokerReady x.1 x.2)
        (s.still x.2.ctx)) }

end Sys2Proof.Machine
end

