-- ==== Sys2Proof/Machine/LaneCtl.lean ====
section
/-! DEFINITION. Lane control, splits and masks, class 0xD (R42–R44, R172–R178, R204, R208–R211). -/

namespace Sys2Proof.Machine

/-! ### Splits of a group -/

/-- A spilled split that may be brought in: ready or rotated (R210). -/
def Split.able (sp : Split) : Bool := sp.st == .ready || sp.st == .rotated

/-- The oldest spilled split that may be brought in, with its entry number. -/
def Group.oldestAble (g : Group) : Option (Nat × Split) := g.spilled.find? (·.2.able)

/-- The spilled splits without an entry. -/
def Group.unspill (g : Group) (entry : Nat) : Group := { g with spilled := g.spilled.filter (·.1 != entry) }

/-- An empty PC slot filled by the oldest spilled split that may issue (R173). -/
def Group.fillSlot (g : Group) (slot : Nat) : Group :=
  match g.split slot, g.oldestAble with
  | none, some (n, sp) => (g.unspill n).setSplit slot (some sp.enter)
  | _, _ => g

/-- Both slots filled as far as spilled splits allow. -/
def Group.fillSlots (g : Group) : Group := (g.fillSlot 0).fillSlot 1

/-! ### The split stack (R43) -/

/-- The flat offset of an entry of the group's split stack: it follows the private area (R43, R217). -/
def Group.stackAt (g : Group) (n : Nat) : Nat := g.width * g.base.priv + 48 * n

/-- A split spilled to an entry (R43). -/
def Group.spill (g : Group) (n : Nat) (sp : Split) : Group := { g with spilled := g.spilled ++ [(n, sp)] }

/-- The 48 bytes of an entry as the runs of the lines they lie in. -/
def stackRuns (x : Nat) (b : List Byte) : List (Nat × List Byte × Bool) :=
  [(x, b.take (128 - x % 128), false), (x / 128 * 128 + 128, b.drop (128 - x % 128), false)].filter fun r => !r.2.1.isEmpty

/-- A group put back whose splits have moved: the entries it has brought in are read, and those it has spilled anew are written, among the
group's private bytes (R43, R219). -/
def State.setStack (s : State) (k : Nat) (old g : Group) : State :=
  let s := s.setG k g
  let s := (old.spilled.filter fun p => !g.spilled.contains p).foldl
    (fun s p => (s.touchPriv k (g.stackAt p.1) false).touchPriv k (g.stackAt p.1 + 47) false) s
  s.privWrite k ((g.spilled.filter fun p => !old.spilled.contains p).foldr (fun p acc => stackRuns (g.stackAt p.1) p.2.entry ++ acc) [])

/-- A resident split exchanged with the oldest spilled split that may issue, which vacates its entry for it (R173, R209). -/
def Group.swapOut (g : Group) (slot : Nat) (sp : Split) : Group :=
  match g.oldestAble with
  | some (n, x) =>
    ((g.unspill n).setSplit slot (some x.enter)).spill n sp
  | none => g.setSplit slot (some sp)

/-- The lowest free split-stack entry, none when the stack is full (R43). -/
def Group.freeEntry (g : Group) : Option Nat :=
  (List.range g.kern.sstack).find? fun n => !g.spilled.any (·.1 == n)

/-- One rotation counted, where a spilled split could come in (R209). -/
def Group.countRot (g : Group) (sp : Split) : Split := if g.oldestAble.isSome then { sp with rot := sp.rot + 1 } else sp

/-- The split of a slot rotated out once its count has reached 64 (R209); the step of that name. -/
def Group.rotate (g : Group) (slot : Nat) : Group :=
  match g.split slot with
  | some sp => if 64 ≤ sp.rot && sp.st == .ready && g.oldestAble.isSome then g.swapOut slot { sp with st := .rotated, rot := 0 } else g
  | none => g

/-- Every split waits at a join or an `lstop`, some at a join (R175); called when none can merge or stop. -/
def Group.deadlocked (g : Group) : Bool :=
  g.table.all (fun sp => sp.st == .atJoin || sp.st == .atLstop) && g.table.any (·.st == .atJoin)

/-! ### Waiting for results -/

/-- `bra`, `join`, `lpause` and `lstop` wait for every outstanding result of their split and write them (R144). -/
def LEnv.settled (e : LEnv) (go : Group → Split → State) : State :=
  if e.sp.outs.all fun o => o.arrived e.s.clk then
    let g := e.g.landSplit e.slot
    go g { e.sp with outs := [], waiting := false, bound := none }
  else e.s.waitL e.k e.slot

/-! ### `bra` (R172, R173) -/

/-- A `bra`'s target: its own address plus the signed offset (R67). -/
def LEnv.target (e : LEnv) : W64 := zx64 e.sp.pc + sx64 e.f.w2

/-- The fall-through split placed: in the free slot, or after the split there is spilled; a full stack faults (R43, R173). -/
def LEnv.divide (e : LEnv) (g : Group) (taken fall : Split) : State :=
  let other := 1 - e.slot
  let put := fun (h : Group) => e.s.stamp.setStack e.k g ((h.setSplit e.slot (some taken)).setSplit other (some fall))
  match g.split other with
  | none => put g
  | some x =>
    match g.freeEntry with
    | some n => put (g.spill n { x with rot := 0 })
    | none => ({ e with g := g } : LEnv).trapAll { code := 0x0E }

/-- `bra` (R172). -/
def execBra (f : LaneF) (s : State) : Res :=
  laneRun s f fun e => e.settled fun g sp =>
    let go := maskOf e.ts
    let back := e.target.toNat ≤ sp.pc.toNat
    let taken : Split := if back then g.countRot { sp with pc := e.target.setWidth 32 } else { sp with pc := e.target.setWidth 32 }
    if e.ts.isEmpty then e.s.stamp.setG e.k (g.setSplit e.slot (some { sp with pc := sp.pc + 12 }))
    else if 12 * g.kern.lcinsts ≤ e.target.toNat then ({ e with g := g, sp := sp } : LEnv).trapAll (trapOperand 0)
    else if go = sp.mask then e.s.stamp.setG e.k (g.setSplit e.slot (some taken))
    else
      e.divide g { taken with mask := go }
        { pc := sp.pc + 12, mask := sp.mask &&& ~~~go, busy := sp.busy }

/-! ### `join` (R174, R175) -/

/-- The largest set of splits waiting at a join whose every J lies within the union of its masks. -/
def mergeSet : Nat → List Split → List Split
  | 0, l => l
  | n + 1, l =>
    let u := l.foldl (fun u sp => u ||| sp.mask) (0 : Mask)
    let l' := l.filter fun sp => sp.j &&& ~~~u == 0
    if l'.length = l.length then l else mergeSet n l'

/-- A split that begins to wait in its slot yields it to a spilled split that may issue (R173); the deadlock check of R211
follows. -/
def LEnv.begin (e : LEnv) (g : Group) (sp : Split) : State :=
  let g' := g.swapOut e.slot sp
  if g'.deadlocked then ({ e with g := g', sp := sp } : LEnv).trapAll { code := 0x0F } else e.s.stamp.setStack e.k g g'

/-- The clocks of the short-latency results of several splits. -/
def busyOf (l : List Split) : Tab Nat :=
  l.foldl (fun b x => x.busy.foldl (fun b p => tabSet b p.1 (max p.2 (tabD b p.1 0))) b) []

/-- `join` (R174). -/
def execJoin (f : LaneF) (s : State) : Res :=
  laneRun s f fun e => e.settled fun g sp =>
    let me := { sp with st := .atJoin, j := g.mGet (f.va.toNat % 8) ||| sp.mask }
    let g := g.setSplit e.slot (some me)
    let here := g.table.filter fun x => x.st == .atJoin && x.pc == me.pc
    match mergeSet here.length here with
    | [] => e.begin g me
    | l =>
      let merged : Split := { pc := me.pc + 12, mask := l.foldl (fun u x => u ||| x.mask) (0 : Mask), busy := busyOf l }
      let inSet := fun (x : Split) => l.any fun y => y.mask == x.mask
      let clear := fun (x : Option Split) => x.filter fun y => !inSet y
      let g := { g with slot0 := clear g.slot0, slot1 := clear g.slot1, spilled := g.spilled.filter fun p => !inSet p.2 }
      e.s.stamp.setG e.k (g.setSplit e.slot (some merged)).fillSlots

/-! ### `lpause` and `lstop` (R176, R177) -/

/-- `lpause` (R177): the group is demoted and the rotation counted. -/
def execLpause (f : LaneF) (s : State) : Res :=
  laneRun s f fun e => e.settled fun g sp =>
    e.s.stamp.setG e.k (g.demote.setSplit e.slot (some (g.countRot { sp with pc := sp.pc + 12 })))

/-- `lstop` (R176): the split waits; when every split does, the block stops. -/
def execLstop (f : LaneF) (s : State) : Res :=
  laneRun s f fun e => e.settled fun g sp =>
    let me := { sp with st := .atLstop }
    let g := g.setSplit e.slot (some me)
    if g.table.all fun x => x.st == .atLstop then e.s.stamp.setG e.k g.stopBlock else e.begin g me

/-! ### Masks (R178) -/

/-- A mask operation in the acting threads. -/
def maskOp (s : State) (f : LaneF) (op : Bool → Bool → Bool) : Res :=
  laneRun s f fun e =>
    let a := e.g.mGet (f.va.toNat % 8)
    let b := e.g.mGet (f.vb.toNat % 8)
    e.writeMask (f.vd.toNat % 8) fun t => op (a.getLsbD t) (b.getLsbD t)

/-- `mand` (R178). -/
def execMand (f : LaneF) (s : State) : Res := maskOp s f fun x y => x && y

/-- `mor` (R178). -/
def execMor (f : LaneF) (s : State) : Res := maskOp s f fun x y => x || y

/-- `mxor` (R178). -/
def execMxor (f : LaneF) (s : State) : Res := maskOp s f fun x y => x != y

/-- `mandn` (R178). -/
def execMandn (f : LaneF) (s : State) : Res := maskOp s f fun x y => x && !y

/-- `mtov` (R178): the 32-bit word of mN that covers the thread's pass. -/
def execMtov (f : LaneF) (s : State) : Res :=
  laneRun s f fun e =>
    e.write (e.map 1 fun t => ⟨(e.g.mGet (f.va.toNat % 8)).toNat / 2 ^ (32 * (t / 32)) % 2 ^ 32, false⟩)

/-- `vtom` (R178); a poisoned source traps (R146). -/
def execVtom (f : LaneF) (s : State) : Res :=
  laneRun s f fun e =>
    e.guard (fun t => (e.opA t).pz) (e.writeMask (f.vd.toNat % 8) fun t => (e.opA t).x != 0)

end Sys2Proof.Machine
end

