-- ==== Sys2Proof/Machine/StokerControl.lean ====
section
/-! DEFINITION. The stoker's control flow, lane blocks, pauses, software trap, return from a handler and the frame pool
instructions (R30, R54, R95, R96, R106–R108, R111, R117–R121, R266). -/

namespace Sys2Proof.Machine

/-! ### Branches and jumps (R95) -/

/-- A taken transfer: a target outside `.scode` traps and leaves the PC; otherwise the group continues there. -/
def State.transfer (s : State) (k : Nat) (g g' : Group) (target : W64) : State :=
  if target.toNat % 4 == 0 && target.toNat < 4 * g.kern.scwords then s.setG k { g' with spc := target }
  else s.trapS k g (trapOperand target)

/-- The target of a word offset (R47, R95). -/
def Group.rel {n : Nat} (g : Group) (off : BitVec n) : W64 := g.spc + 4 * sx64 off

/-- `br` (R95). -/
def execBr (off : BitVec 25) (s : State) : Res := onStoker s fun k g => s.transfer k g g (g.rel off)

/-- `call` (R95, R96): s63 takes PC + 4 when the transfer is made. -/
def execCall (off : BitVec 25) (s : State) : Res :=
  onStoker s fun k g => s.transfer k g (g.sSet 63 ⟨g.spc + 4, false⟩) (g.rel off)

/-- `jr` (R95); a poisoned operand traps (R87). -/
def execJr (sa : BitVec 6) (s : State) : Res :=
  onStoker s fun k g =>
    let a := g.sGet sa.toNat
    if a.pz then s.trapS k g (trapPoison 0 0) else s.transfer k g g a.val

/-- A conditional branch on a scalar register (R87, R95). -/
def branchOn (s : State) (sa : BitVec 6) (off : BitVec 19) (onZero : Bool) : Res :=
  onStoker s fun k g =>
    let a := g.sGet sa.toNat
    if a.pz then s.trapS k g (trapPoison 0 0)
    else if (a.val == 0) == onZero then s.transfer k g g (g.rel off) else s.setG k (g.adv 4)

/-- `bz` (R95). -/
def execBz (sa : BitVec 6) (off : BitVec 19) (s : State) : Res := branchOn s sa off true

/-- `bnz` (R95). -/
def execBnz (sa : BitVec 6) (off : BitVec 19) (s : State) : Res := branchOn s sa off false

/-- A conditional branch on a condition bit (R95). -/
def branchC (s : State) (cn : BitVec 3) (off : BitVec 19) (want : Bool) : Res :=
  onStoker s fun k g => if g.cGet cn.toNat == want then s.transfer k g g (g.rel off) else s.setG k (g.adv 4)

/-- `bc` (R95). -/
def execBc (cn : BitVec 3) (off : BitVec 19) (s : State) : Res := branchC s cn off true

/-- `bnc` (R95). -/
def execBnc (cn : BitVec 3) (off : BitVec 19) (s : State) : Res := branchC s cn off false

/-! ### Lane blocks (R30, R106–R108) -/

/-- The entry mask of a handler, and every thread elsewhere (R29, R266). -/
def Group.entryMask (g : Group) : Mask :=
  match g.hnd with
  | some f => if f.cause.stoker || resumesAfter f.cause.code then fullMask g.width else f.cause.tmask
  | none => fullMask g.width

/-- Blocks a group may hold in flight: two, and one in a handler (R29, R266). -/
def Group.blockLimit (g : Group) : Nat := if g.hnd.isSome then 1 else 2

/-- `lrun` (R106): a label outside the kernel traps; a `vset` copy under way is waited for, since the snapshot reads every view
register (R188); with the limit in flight the oldest block is retired first. -/
def execLrun (idx : BitVec 25) (s : State) : Res :=
  onStoker s fun k g =>
    if g.kern.lcinsts ≤ idx.toNat then s.trapS k g (trapOperand (zx64 idx))
    else if !g.wBusy.isEmpty then s.waitS k
    else
      let go := fun (g : Group) => s.newId.setG k ((g.enqueue s.nextId idx.toNat g.entryMask).adv 4)
      if g.blocks.length < g.blockLimit then go g
      else
        match s.retireOldest g with
        | some g => go g
        | none => s.waitS k

/-- `lwait` (R107): waits until the oldest block is stopped and performed, then retires it. -/
def execLwait (s : State) : Res :=
  onStoker s fun k g =>
    match s.retireOldest g with
    | some g => s.setG k (g.adv 4)
    | none => s.waitS k

/-- A split whose block is killed: loads in flight leave the old or the new word in each register by the choice; one for which no
word has come, a load that gets no response, leaves the old one (log 54); other results are written as they come (R108). -/
def Group.killOuts (g : Group) (stamp : Nat) (sp : Split) : Group :=
  (sp.outs.filter Out.isLoad).foldl (fun g o => o.vals.foldl (fun g v =>
    match v.val with
    | some x => if Config.oldOrNew stamp v.t v.r then g.vSet v.t v.r x else g
    | none => g) g) g

/-- A killed split's results that still come. -/
def Split.killed (sp : Split) : Split := { sp with st := .atLstop, outs := sp.outs.filter fun o => !o.isLoad }

/-- Every block stopped with nothing to land: queued blocks go, and the executing one issues nothing more (R108). -/
def Group.kill (g : Group) (stamp : Nat) : Group :=
  let all := g.slot0.toList ++ g.slot1.toList ++ g.spilled.map (·.2)
  let g := all.foldl (fun g sp => g.killOuts stamp sp) g
  { g with
    blocks := (g.blocks.filter (·.st != .queued)).map fun b => { b with st := .stopped, pend := [] },
    slot0 := g.slot0.map Split.killed, slot1 := g.slot1.map Split.killed, spilled := g.spilled.map fun p => (p.1, p.2.killed) }

/-- The splits of a killed block gone, with the results that came written. -/
def Group.clearSplits (g : Group) : Group := { g.landAll with slot0 := none, slot1 := none, spilled := [], blocks := [] }

/-- The loads of a group's blocks that get no response dropped (R108, R325). -/
def State.dropLost (s : State) (n : Nat × Nat) : State :=
  { s with pend := s.pend.filter fun p => !(p.owner == some n && p.blk != 0 && p.isLost) }

/-- `lkill` (R108): the blocks are discarded at once; it completes when their accesses are performed. -/
def execLkill (s : State) : Res :=
  onStoker s fun k g =>
    if g.blocks.isEmpty then s.setG k (g.adv 4)
    else
      let g := g.kill s.free
      let s := (s.dropLost g.name).forgetGroup k
      if g.blocks.any fun b => s.blockPending g.name b.id then (s.stamp.setG k g).waitS k
      else s.stamp.setG k (g.clearSplits.adv 4)

/-! ### Pauses and traps -/

/-- `spause` (R111, R204): the group is demoted for 16 issue opportunities of both kinds. -/
def execSpause (s : State) : Res :=
  onStoker s fun k g => s.setG k (g.adv 4).demote

/-- `trap k` (R117): taken after the instruction, so that a return resumes past it. -/
def execTrap (n : BitVec 7) (s : State) : Res :=
  onStoker s fun k g =>
    takeTrap s k (g.adv 4)
      { code := 0x04, addr := zx64 n, s3 := zx64 n, tmask := fullMask g.width, pc := g.spc.setWidth 32 }

/-- Whether a group may execute the privileged instructions (R54). -/
def State.privileged (s : State) (g : Group) : Bool := g.hnd.isSome || (tabD s.ctxs g.ctx {}).priv

/-- `tret` (R118): the handler's blocks are retired and its accesses performed, its unmapped frames go back to the pool,
and the frame is restored. Outside a handler it is the privilege trap. -/
def execTret (s : State) : Res :=
  onStoker s fun k g =>
    match g.hnd with
    | none => s.trapS k g trapPrivilege
    | some f =>
      match s.retireAll g with
      | none => s.waitS k
      | some g => if s.pending g.name then s.waitS k else (s.returnFrames k g true).setG k (g.returnTrap f)

/-! ### The frame pool and the page table (R119–R121) -/

/-- A handler abandoned for want of a frame (R119): its frames return, the streams stand as at entry, and the fault it
served escalates as an illegal access with POOL set. -/
def State.abandon (s : State) (k : Nat) (g : Group) (f : HFrame) : State :=
  ((s.returnFrames k g true).forgetGroup k).escalate k (g.restoreFrame f) { f.cause with code := 0x06, pool := true } false false

/-- `ptake` (R119); a handler that finds the pool empty is abandoned once its results in flight have come, so that none reaches the
registers as they stood at entry. -/
def execPtake (sd : BitVec 6) (s : State) : Res :=
  onStoker s fun k g =>
    if !s.privileged g then s.trapS k g trapPrivilege
    else if 4 ≤ g.frames.length then s.trapS k g (trapOperand 0)
    else
      match s.poolFrame (dieOf (hearthOf k)), g.hnd with
      | some fr, h =>
        (s.poolTake (dieOf (hearthOf k))).setG k
          ({ g with frames := g.frames ++ [(fr, h.isSome)] }.result sd (zx64 fr) false 4)
      | none, some f => if s.inFlight g.name then s.waitS k else s.abandon k g f
      | none, none => s.trapS k g { code := 0x06, pool := true }

/-- A physical range filled with unpoisoned zeros (R120). -/
def State.zero (s : State) (pa n : Nat) : State :=
  { s with
    mem := s.mem.filter fun c => !(pa ≤ c.1 && c.1 < pa + n),
    poison := s.poison.filter fun g => !(pa ≤ 32 * g && 32 * g + 32 ≤ pa + n),
    cells := s.cells.filter fun (p : Nat × BitVec 4) => !(pa / 128 ≤ p.1 && 128 * p.1 < pa + n) }

/-- A first-touch entry installed: present, a leaf, the frame, and the fields its marking names (R120, R236). -/
def installLeaf (e : Nat) (frame : Nat) : Nat := (e &&& 0x1FE8C) ||| 3 ||| (frame / 65536 * 2 ^ 28)

/-- The entry of a first-touch page made present with a zeroed frame (R120, R358). -/
def State.install (s : State) (entryPa : Nat) (frame : Nat) : State :=
  let e := s.peekNat entryPa 8
  (s.zero frame 65536).pokeRaw entryPa (leBytes 8 (installLeaf e frame))

/-- A frame no longer held by the group. -/
def Group.dropFrame (g : Group) (fr : BitVec 52) : Group :=
  { g with frames := (g.frames.filter (·.1 == fr)).drop 1 ++ g.frames.filter (·.1 != fr) }

/-- The entry of the page an address lies in with its place: the first on the walk that is absent or a leaf, or that of level 0; none
where a table is missing or malformed (R120, R234–R237). -/
def entryFrom (s : State) (va : Nat) : List (Nat × Nat × Nat) → Nat → Nat → Option (Nat × Nat)
  | [], _, _ => none
  | (lo, n, align) :: rest, lvl, table =>
    let pa := table + 8 * bits va lo n
    let e := s.peekNat pa 8
    if lvl = 0 || bits e 0 2 = 3 then some (e, pa)
    else if bits e 0 1 = 0 || bits e 2 6 != 0 || bits e 52 12 != 0 || (bits e 8 44 * 256) % align != 0 then none
    else entryFrom s va rest (lvl - 1) (bits e 8 44 * 256)

/-- An entry of a walk, or a frame, lies across a dead link from a die (R311). -/
def State.walkCut (s : State) (d : Nat) (c : Ctx) (va : W64) (frame : Nat) : Bool :=
  s.cutOff d frame || (walkPas s (va57 va) walkLevels 4 c.ptroot).any (s.cutOff d)

/-- `pmap` (R120). An entry that is present, well formed or not, keeps what it holds and the frame goes back. An entry is installed once no
copy of its line is out (R310). Across a dead link it is an illegal access (R311). An address that is not canonical has no entry; it is
an illegal operand (the model's choice, log 62). -/
def execPmap (sa sb : BitVec 6) (s : State) : Res :=
  onStoker s fun k g =>
    let a := g.sGet sa.toNat
    let b := g.sGet sb.toNat
    if !s.privileged g then s.trapS k g trapPrivilege
    else if a.pz || b.pz then s.trapS k g (trapPoison 0 0)
    else
      let fr : BitVec 52 := b.val.setWidth 52
      if !(g.frames.any (·.1 == fr)) || zx64 fr != b.val then s.trapS k g (trapOperand b.val)
      else if !canonical a.val then s.trapS k g (trapOperand a.val)
      else if s.walkCut (dieOf (hearthOf k)) (tabD s.ctxs g.ctx {}) a.val fr.toNat then s.trapS k g { code := 0x06, addr := a.val }
      else
        match entryFrom s (va57 a.val) walkLevels 4 (tabD s.ctxs g.ctx {}).ptroot with
        | some (e, pa) =>
          if bits e 0 1 = 1 then (s.poolReturn (dieOf (hearthOf k)) fr).setG k ((g.dropFrame fr).adv 4)
          else if bits e 6 1 = 1 && !s.lineQuiet pa then (s.clearWay [pa]).waitS k
          else if bits e 6 1 = 1 then (s.install pa fr.toNat).setG k ((g.dropFrame fr).adv 4)
          else s.trapS k g (trapOperand a.val)
        | none => s.trapS k g (trapOperand a.val)

/-- The gathered bits of a context's translation entries written back (R121, R242). -/
def State.harvest (s : State) (ctx : Nat) : State :=
  let s' := (s.tlb.filter (·.ctx == ctx)).foldl State.writeBackAD s
  { s' with tlb := s.tlb.map fun e => if e.ctx = ctx then { e with ga := none, gd := none, dd := e.dd || e.gd.isSome } else e }

/-- `aharv` (R121): it completes once the bits gathered before it are in the page tables. -/
def execAharv (s : State) : Res :=
  onStoker s fun k g =>
    if !s.privileged g then s.trapS k g trapPrivilege
    else
      let s := s.harvest g.ctx
      if s.gathering g.ctx then s.waitS k else s.setG k (g.adv 4)

end Sys2Proof.Machine
end

