-- ==== Sys2Proof/Machine/Events.lean ====
section
/-! DEFINITION. The events of groups and of a die's fault path: results, escalation, demotion, rotation, taking a pending
trap, illegal and unfetchable instructions, coalescer and fault queue, walks and the write-back of A and D bits
(R55, R70, R71, R84, R143, R203–R205, R209, R242, R260–R264, R269). -/

namespace Sys2Proof.Machine

/-- An event acts on a group of the table, if it is there. -/
def State.onGroup (s : State) (k : Nat) (f : Group → State) : State :=
  match s.grp k with
  | some g => f g
  | none => s

/-! ### Results, escalation, demotion, rotation -/

/-- A split's results that have come and whose window has ended (R144). -/
def Split.ripe (sp : Split) (clk : Nat) : List Out := (cameOf clk [] sp.outs).filter (·.left == 0)

/-- The ripe results of a slot written and dropped (R143, R144). -/
def Group.landRipe (g : Group) (slot clk : Nat) : Group :=
  match g.split slot with
  | some sp => ((sp.ripe clk).foldl Group.writeOut g).setSplit slot (some { sp with outs := sp.outs.filter fun o => !(sp.ripe clk).contains o })
  | none => g

/-- A long-latency result is written (R16, R143, R144): `ev.a` the group, `ev.b` the PC slot. -/
def execLongLatencyResult (s : State) : Res :=
  onEvent s fun s => s.onGroup s.ev.a fun g => if g.saved then s else s.setG s.ev.a (g.landRipe s.ev.b s.clk)

/-- A group is escalated for lane issue (R203): `ev.a` its key. Escalated groups keep their order. -/
def execEscalation (s : State) : Res :=
  onEvent s fun s => s.onGroup s.ev.a fun g =>
    if 64 ≤ g.lpass && g.lesc.isNone then s.newId.setG s.ev.a { g with lesc := some s.nextId } else s

/-- A group is escalated for stoker issue (R205): `ev.a` its key. -/
def execStokerEscalation (s : State) : Res :=
  onEvent s fun s => s.onGroup s.ev.a fun g =>
    if 64 ≤ g.spass && g.sesc.isNone then s.newId.setG s.ev.a { g with sesc := some s.nextId } else s

/-- A demotion that has run out ends (R204): `ev.a` the group. -/
def execDemotionEnd (s : State) : Res :=
  onEvent s fun s => s.onGroup s.ev.a fun g =>
    s.setG s.ev.a { g with ldem := if g.ldem = 1 then 0 else g.ldem, sdem := if g.sdem = 1 then 0 else g.sdem }

/-- A split is rotated (R209): `ev.a` the group, `ev.b` the PC slot. -/
def execSplitRotation (s : State) : Res :=
  onEvent s fun s => s.onGroup s.ev.a fun g => s.setStack s.ev.a g (g.rotate s.ev.b)

/-! ### Traps -/

/-- A group suspended whose record has been handed over already (R264, R325, R349, R360). -/
def State.suspend (s : State) (k : Nat) (g : Group) (t : Trap) : State :=
  let g := { g.landAll.giveUp with yielded := none, susp := some t }
  ((s.forgetGroup k).withdraw g).setG k g

/-- Imprecise causes, whose record their engine or timeout has handed over (R257). -/
def imprecise (code : Nat) : Bool := code == 0x16 || code == 0x17 || code == 0x18

/-- A trap that is raised or pending is taken at the group's boundary (R263, R264, R382): `ev.a` the group. -/
def execTrapTake (s : State) : Res :=
  onEvent s fun s => s.onGroup s.ev.a fun g =>
    if g.saved || g.susp.isSome then s
    else
      match g.raised, g.pendTraps with
      | some t, _ => takeTrap s s.ev.a g t
      | none, [] => s
      | none, t :: r =>
        let g := { g with pendTraps := r }
        if imprecise t.code then s.suspend s.ev.a g t else takeTrap s s.ev.a g { t with pc := g.spc.setWidth 32 }

/-- The bytes of the unit at the stoker PC: 12 behind a `slit` marker, else 4 (R48, R267). -/
def State.unitLen (s : State) (k : Nat) (g : Group) : Nat :=
  match (s.fetch4 k g (g.kern.ib + g.kern.scoff + g.spc)).2 with
  | .word w => if bits w 25 7 = 0x7F then 12 else 4
  | _ => 4

/-- A stoker word that is no instruction (R48, R55). -/
def execStokerIllegalInstruction (s : State) : Res := onStoker s fun k g => s.trapS k g trapIllegal (s.unitLen k g)

/-- A lane word that is no instruction, or names a register beyond the kernel's (R70, R71). -/
def execLaneIllegalInstruction (s : State) : Res := onLane s fun k slot g sp => s.trapL k slot g sp trapIllegal sp.mask

/-- The fetch's entry was malformed (R237). -/
def State.malformed (s : State) (k : Nat) (g : Group) (va : W64) : Bool :=
  canonical va && match (s.translate (hearthOf k) g.ctx va).2 with
    | .illegal m => m
    | _ => false

/-- A page that cannot be fetched (R84): `ev.a` the address; `ev.flag` tells that a `slit` unit's marker was fetched, so that the
unit is skipped whole (R48, R267). The record's SIZE is 4 for the stoker, 12 for a lane instruction. -/
def execFetchPageFault (s : State) : Res :=
  let va := BitVec.ofNat 64 s.ev.a
  let t := fun k g size => ({ code := 0x06, addr := va, size := size, malf := s.malformed k g va } : Trap)
  match s.cur with
  | some (.stoker _) => onStoker s fun k g => s.trapS k g (t k g 4) (if s.ev.flag then 12 else 4)
  | _ => onLane s fun k slot g sp => s.trapL k slot g sp (t k g 12) sp.mask

/-! ### The coalescer and the fault queue (R259–R262, R269) -/

/-- The open records of a hearth that are due are closed (R260): `ev.a` the hearth. -/
def execCoalescerDelivery (s : State) : Res :=
  onEvent s fun s =>
    { s with
      recs := s.recs.map fun r => if r.hearth = s.ev.a && !r.held && r.opened + 256 ≤ s.now then { r with closed := true } else r }

/-- Every record, those that wait in save records first. -/
def State.allRecs (s : State) : List Rec := s.saved.foldr (fun v acc => v.recs ++ acc) [] ++ s.recs

/-- The record a die writes next: one whose write or continuation is under way, else the first closed one, of the context in recorded mode
that of the lowest hearth (R261, R262, R332). -/
def State.nextRec (s : State) (d : Nat) : Option Rec :=
  let mine := s.allRecs.filter fun r => dieOf r.hearth == d && r.closed && !r.held
  match mine.find? fun r => r.headDone || r.sent with
  | some r => some r
  | none => firstBy (fun r => s.turn r.ctx r.hearth) mine

/-- The first occurrence of a record replaced, or taken out. -/
def replaceRec (old : Rec) (new : Option Rec) : List Rec → List Rec
  | [] => []
  | r :: l => if r == old then new.toList ++ l else r :: replaceRec old new l

/-- A record replaced in the save records or the coalescers. -/
def State.setRec (s : State) (old : Rec) (new : Option Rec) : State :=
  if s.recs.contains old then { s with recs := replaceRec old new s.recs }
  else { s with saved := s.saved.map fun v => { v with recs := replaceRec old new v.recs } }

/-- The record a full coalescer held back opens in the place that has become free (R260). -/
def State.openHeld (s : State) (h : Nat) : State :=
  match s.recs.find? fun r => r.hearth == h && r.held with
  | some r => { s with recs := replaceRec r (some { r with held := false, opened := s.now }) s.recs }
  | none => s

/-- The 64 bytes a record's next entry of the ring holds: the record, then its continuation records (R259, R262). -/
def Rec.entry (r : Rec) : List Byte := if r.headDone then r.cont.headD [] else r.bytes

/-- What is left of a record once an entry of it is written. -/
def Rec.past (r : Rec) : Rec := { r with sent := false, headDone := true, cont := if r.headDone then r.cont.drop 1 else r.cont }

/-- TAIL advances past an entry written; the fault interrupt is raised when the ring was empty (R261). -/
def State.advanceTail (s : State) (d : Nat) : State :=
  let q := s.fq d
  let s := { s with faultq := tabSet s.faultq d { q with tail := BitVec.ofNat 64 ((q.tail.toNat + 64) % max q.size.toNat 64) } }
  if q.head = q.tail then s.irq (1 + d) else s

/-- A die's next record may be written, or its write may have been performed. -/
def State.recGoes (s : State) (d : Nat) : Bool :=
  (s.fq d).room && (s.nextRec d).any fun r => !r.sent || !s.ownBusy (ownFaults d)

/-- A closed record, or one of its continuation records, is written to a die's fault queue at TAIL, which advances once the write is
performed (R261, R262): `ev.a` the die. A place in the coalescer is free once a record that stood there is gone. -/
def execFaultQueueWrite (s : State) : Res :=
  onEvent s fun s =>
    let d := s.ev.a
    match s.nextRec d with
    | none => s
    | some r =>
      if !s.recGoes d then s
      else
        let s := if r.sent then s else s.storeOwn (ownFaults d) ((s.fq d).base.toNat + (s.fq d).tail.toNat) r.entry
        if s.ownBusy (ownFaults d) then s.setRec r (some { r with sent := true })
        else
          let s := s.advanceTail d
          if !r.past.cont.isEmpty then s.setRec r (some r.past)
          else if r.kept then s.setRec r none
          else (s.setRec r none).openHeld r.hearth

/-! ### Walks and gathered bits (R237, R238, R242) -/

/-- A walk returns (R237, R238): `ev.a` the hearth, `ev.b` the context, `ev.c` the address. A translation fills the caches. -/
def execPageWalk (s : State) : Res :=
  onEvent s fun s =>
    let va := BitVec.ofNat 64 s.ev.c
    if canonical va then (s.translate s.ev.a s.ev.b va).1 else s

/-- A gathered bit has to be written back so that it is in the page tables before it is 1 ms old (R242): 10 µs before, which is longer than
any lease (the model's margin, log 76). -/
def Tlb.overdue (e : Tlb) (now : Nat) : Bool := (e.ga.any fun t => t + 990000 ≤ now) || e.gd.any fun t => t + 990000 ≤ now

/-- Gathered A and D bits that are due are written back (R242). -/
def execAdWriteback (s : State) : Res :=
  onEvent s fun s =>
    let s' := (s.tlb.filter fun e => e.overdue s.now).foldl State.writeBackAD s
    { s' with tlb := s.tlb.map fun e => if e.overdue s.now then { e with ga := none, gd := none, dd := e.dd || e.gd.isSome } else e }

end Sys2Proof.Machine
end

