-- ==== Sys2Proof/Machine/Engines.lean ====
section
/-! DEFINITION. What the copy engine and the matrix engine share: range locks, the order of operations, translation, and
faults that are not precise (R252–R254, R264, R349, R358–R366). -/

namespace Sys2Proof.Machine

/-! ### Range locks and the order of engine operations (R252, R364) -/

/-- Free entries of a hearth's range-lock table. -/
def State.freeLocks (s : State) (h : Nat) : List Nat := (List.range 64).filter fun n => (tabGet s.locks (64 * h + n)).isNone

/-- Locks entered in free entries of a hearth's table; the caller has seen that there are enough. -/
def State.addLocks (s : State) (h : Nat) (l : List Lock) : State :=
  (List.zip (s.freeLocks h) l).foldl (fun s p => { s with locks := tabSet s.locks (64 * h + p.1) p.2 }) s

/-- The locks an operation holds. -/
def State.locksOf (s : State) (op : Nat) : List Lock := (tabVals s.locks).filter (·.op == op)

/-- Whether two ranges meet where one of them is a destination (R252). -/
def Lock.meets (a b : Lock) : Bool :=
  a.space == b.space && (a.dst || b.dst) && a.base < b.base + b.len && b.base < a.base + a.len &&
    match a.space with
    | .glob => a.ctx == b.ctx
    | .scratch | .acc => a.wg == b.wg
    | .priv => a.wg == b.wg && a.gidx == b.gidx

/-- An operation waits for an earlier one of its hearth whose ranges meet its own (R252). -/
def State.behind (s : State) (h op : Nat) : Bool :=
  let mine := s.locksOf op
  s.locks.any fun p => p.1 / 64 == h && p.2.op < op && p.2.kind != lockProj && mine.any p.2.meets

/-- An operation waits for the accesses of its issuing groups that precede its command (R252, R340). -/
def State.precedes (s : State) (wg : Nat) (members : List Nat) (op : Nat) : Bool :=
  s.pend.any fun p => p.id < op && p.blk == 0 && members.any fun m => p.owner == some (wg, m)

/-- Writes of an operation not yet performed (R253); they belong to no group's store buffer and carry its identifier. -/
def State.writesOf (s : State) (op : Nat) : Bool := s.pend.any fun p => p.owner.isNone && p.blk == op

/-! ### Translation and access by an engine (R349, R358) -/

/-- An engine's translation: an absent first-touch page is mapped from the die's pool as `pmap` does (R120, R358); none for
a page that stays illegal or an empty pool. -/
def State.engineTr (s : State) (h ctx : Nat) (va : W64) : State × Option Tr :=
  if canonical va then
    match s.translate h ctx va with
    | (s, .ok t) => (s, some t)
    | (s, .absent _) =>
      match s.walk (tabD s.ctxs ctx {}) va, s.poolFrame (dieOf h) with
      | .absent _ pa, some fr =>
        if s.walkCut (dieOf h) (tabD s.ctxs ctx {}) va fr.toNat then (s, none)
        else
          match ((s.poolTake (dieOf h)).install pa fr.toNat).translate h ctx va with
          | (s, .ok t) => (s, some t)
          | (s, _) => (s, none)
      | _, _ => (s, none)
    | (s, .illegal _) => (s, none)
  else (s, none)

/-- What a step of an engine meets: its result, a wait, or a fault with FCAUSE (R360). -/
inductive Eng (α : Type) where
  | ok (x : α)
  | wait
  | fault (cause : Nat)

/-- A read of an engine operation that gets no response is out (R325). -/
def State.opLost (s : State) (op : Nat) : Bool := s.pend.any fun p => p.owner.isNone && p.blk == op && p.isLost

/-- A read of another module by an engine operation gets no response in 10 µs: it stays out until it times out (R325). -/
def State.engineLost (s : State) (h ctx op : Nat) (va : W64) (t : Tr) (n : Nat) : State :=
  if s.opLost op then s
  else
    let p : Pend :=
      { id := s.nextId, key := physKey t.pa, ctx := ctx, owner := none, arrived := false, issued := s.clk, va := va, blk := op, acq := false,
        kind := .lost .none n 0, hearth := h }
    { (s.sendOut (physKey t.pa)).newId with pend := s.pend ++ [p] }

/-- A line that an engine's operation reads comes no earlier than a clock: the operation completes no earlier (R292, R314). -/
def State.lateBy (s : State) (op clk : Nat) : State :=
  if clk ≤ s.clk then s
  else
    { s with
      copies := s.copies.map fun (c : Copy) => if c.id = op then { c with late := max c.late clk } else c,
      mats := s.mats.map fun (m : MatOp) => if m.id = op then { m with late := max m.late clk } else m }

/-- Global bytes within 8 read by an engine operation as an access of the issuing group; a recorded context's own reads of host memory
and of other modules are logged, or taken from its log (R333, R334). -/
def State.engineRead (s : State) (h ctx op : Nat) (owner : Nat × Nat) (va : W64) (n : Nat) : State × Eng (List Byte × Bool) :=
  let c := tabD s.ctxs ctx {}
  match s.engineTr h ctx va with
  | (s, none) => (s, .fault 1)
  | (s, some t) =>
    if !t.rd || s.fenced (dieOf h) (s.keyOfTr c t) then (s, .fault 1)
    else if s.opLost op || (t.creg.isNone && s.lostRead ctx h (physKey t.pa) s.nextId) then (s.engineLost h ctx op va t n, .wait)
    else
      let miss := s.missClocks h (s.keyOfTr c t)
      match s.readBytes h c owner t n with
      | (s, none) => (s, .wait)
      | (s, some (b, p)) =>
        match s.ownRead h ctx t.pa b with
        | (s, none) => (s, .wait)
        | (s, some b) => (s.lateBy op (s.clk + miss), .ok (b, p))

/-- The check of an engine's write to a global address (R300, R304, R360). -/
def State.engineWrite (s : State) (h ctx : Nat) (va : W64) : State × Eng Tr :=
  match s.engineTr h ctx va with
  | (s, none) => (s, .fault 1)
  | (s, some t) =>
    if !t.wr || s.fenced (dieOf h) (s.keyOfTr (tabD s.ctxs ctx {}) t) then (s, .fault 1)
    else if t.fst = 1 || t.fst = 3 then (s, .fault 2)
    else if t.fst = 2 then (s, .wait)
    else (s, .ok t)

/-- Bytes of one instruction or unit of an engine sent to memory at a translated address (R228, R253). -/
def State.engineStore (s : State) (h ctx op : Nat) (va : W64) (t : Tr) (data : List Byte) (pz : Bool) : State :=
  (s.gatherD h ctx va).issueWrite h ctx none va (physKey t.pa) op false (.store t.pa data pz)

/-! ### Faults of an engine (R264, R350, R360) -/

/-- A trap of an engine: the record is handed to the coalescer at once. INH tells that the group runs a handler at that moment, and LPC is its
stoker PC then, for no instruction faulted (DESIGN CHOICE, log 80). -/
def State.engineRecord (s : State) (k : Nat) (code : Nat) (addr : W64) (wr : Bool) (at_ : Bool := false) (size : Nat := 0) : State :=
  match s.grp k with
  | some g =>
    let t : Trap :=
      { code := code, addr := addr, wr := wr, at_ := at_, size := size, tmask := fullMask g.width, pc := g.spc.setWidth 32 }
    s.coalesce k g.ctx (causeWord t g.hnd.isSome false false) t []
  | none => s

/-- The issuing group is suspended at its next stoker boundary; its record has been handed over (R264, R349, R360). -/
def State.suspendLater (s : State) (k code : Nat) (addr : W64) (wr : Bool) (at_ : Bool := false) (size : Nat := 0) : State :=
  s.modG k fun g =>
    { g with
      pendTraps := g.pendTraps ++
        [{ code := code, addr := addr, wr := wr, at_ := at_, size := size, tmask := fullMask g.width, pc := g.spc.setWidth 32 }] }

/-- The last record names further group slots (R259): the members of an `mma`. -/
def State.joinLast (s : State) (slots : List Nat) : State :=
  match s.recs.reverse with
  | r :: rest =>
    { s with
      recs := (({ r with gslots := slots.foldl (fun m n => setBit m n true) r.gslots } : Rec) :: rest).reverse }
  | [] => s

/-! ### What a group still waits for (R361, R362) -/

/-- A group has a copy of a tag, or any matrix operation, in flight. -/
def State.outstanding (s : State) (g : Group) (tag : Nat) : Bool :=
  (s.copies.any fun c => c.wg == g.wg && c.gidx == g.gidx && c.tag == tag) ||
    s.mats.any fun m => m.wg == g.wg && m.members.contains g.gidx

/-- Groups yielded at `cpcont` whose work has completed resume at their label (R362). -/
def State.wakeYielded (s : State) : State :=
  { s with
    groups := s.groups.map fun (p : Nat × Group) =>
      match p.2.yielded with
      | some (tag, target) => if s.outstanding p.2 tag then p else (p.1, { p.2 with yielded := none, spc := target })
      | none => p }

/-- `cpwait` (R361). -/
def execCpwait (tag : BitVec 4) (s : State) : Res :=
  onStoker s fun k g => if s.outstanding g tag.toNat then s.waitS k else s.setG k (g.adv 4)

/-- `cpcont` (R362). -/
def execCpcont (tag : BitVec 4) (off : BitVec 21) (s : State) : Res :=
  onStoker s fun k g =>
    let target := g.spc + 4 * sx64 off
    if target.toNat % 4 == 0 && target.toNat < 4 * g.kern.scwords then
      match s.retireAll g with
      | none => s.waitS k
      | some g =>
        if s.outstanding g tag.toNat then s.setG k { g with yielded := some (tag.toNat, target) } else s.setG k { g with spc := target }
    else s.trapS k g (trapOperand target)

/-- `cpstat` (R363). -/
def execCpstat (sd : BitVec 6) (tag : BitVec 4) (s : State) : Res :=
  onStoker s fun k g =>
    let t := tabD g.tags tag.toNat {}
    s.setG k (g.result sd (BitVec.ofNat 64 (t.state + (if t.state = 2 then t.fcause else 0) * 16 + (if t.state = 0 then 0 else t.done) * 2 ^ 32))
      false 4)

end Sys2Proof.Machine
end

