-- ==== Sys2Proof/Machine/Copies.lean ====
section
/-! DEFINITION. The copy engine: `cpy`, `cpy2d`, `cpyg` and one unit of a copy (R336, R341, R353–R360). -/

namespace Sys2Proof.Machine

/-! ### The descriptor (R336, R353) -/

/-- The fields of a copy, of every command. -/
structure CopyF where
  kind : Nat
  src : Nat
  dst : Nat
  len : Nat
  ssp : Nat
  dsp : Nat
  isp : Nat
  top : Nat
  cvt : Nat
  nrows : Nat
  sstride : Nat
  dstride : Nat
  elog : Nat
  wide : Bool
  idx : Nat
  zero : Bool
  deriving DecidableEq, Repr

/-- The fields of 32 descriptor bytes as a command reads them: kind 0 `cpy`, 1 `cpy2d`, 2 `cpyg`. `zero` tells that the
bytes the command leaves 0 are 0. -/
def copyF (kind : Nat) (b : List Byte) : CopyF :=
  let x := leNat b
  { kind := kind, src := bits x 0 64, dst := bits x 64 64, len := bits x 128 32, ssp := bits x 160 2, dsp := bits x 162 2,
    isp := bits x 164 2, top := bits x 166 2, cvt := bits x 168 8, nrows := if kind = 1 then bits x 176 16 else 1,
    sstride := bits x 192 32, dstride := bits x 224 32, elog := bits x 176 3, wide := bits x 179 1 == 1, idx := bits x 192 64,
    zero := match kind with
      | 0 => bits x 176 80 == 0 && bits x 164 4 == 0
      | 1 => bits x 164 4 == 0
      | _ => bits x 180 12 == 0 && bits x 166 2 == 0 && bits x 164 2 ≤ 1 }

/-- The source and destination types of a conversion (R354). -/
def CopyF.st (f : CopyF) : Nat := f.cvt % 16
def CopyF.dt (f : CopyF) : Nat := f.cvt / 16

/-- The pairs of R354. -/
def cvtListed (st dt : Nat) : Bool :=
  match st with
  | 12 | 13 | 14 => dt == 8 || dt == 9 || dt == 10
  | 0 => dt == 8 || dt == 9 || dt == 10 || dt == 4
  | 8 | 9 => dt == 10
  | _ => false

/-- The widening ratio W of R354. -/
def CopyF.w (f : CopyF) : Nat := if f.cvt = 0 then 1 else tyBits f.dt / tyBits f.st
/-- Source bytes that are converted together, and the destination element's size: one where bytes move unchanged. -/
def CopyF.se (f : CopyF) : Nat := if f.cvt = 0 then 1 else max 1 (tyBits f.st / 8)
def CopyF.de (f : CopyF) : Nat := if f.cvt = 0 then 1 else tyBits f.dt / 8

/-- Bytes of the source sequence (R353). -/
def CopyF.total (f : CopyF) : Nat := f.nrows * f.len
/-- Elements of a gather, and the bytes of its index array (R353, R359). -/
def CopyF.elem (f : CopyF) : Nat := 2 ^ f.elog
def CopyF.idxBytes (f : CopyF) : Nat := f.len / f.elem * (if f.wide then 8 else 4)

/-- The bounding source range: base, length and space (R359). -/
def CopyF.srcRange (f : CopyF) : Nat × Nat × Nat :=
  match f.kind with
  | 0 => (f.src, f.len, f.ssp)
  | 1 => (f.src, (f.nrows - 1) * f.sstride + f.len, f.ssp)
  | _ => (f.idx, f.idxBytes, f.isp)

/-- The bounding destination range (R359). -/
def CopyF.dstRange (f : CopyF) : Nat × Nat × Nat :=
  if f.kind = 1 then (f.dst, (f.nrows - 1) * f.dstride + f.w * f.len, f.dsp) else (f.dst, f.w * f.len, f.dsp)

/-- The space of a code of R336. -/
def copySpace (n : Nat) : Space :=
  match n with
  | 0 => .glob
  | 1 => .scratch
  | _ => .priv

/-- A scratchpad or private range lies beyond its space (R355, R356). -/
def beyond (scratch priv : Nat) (r : Nat × Nat × Nat) : Bool :=
  match r.2.2 with
  | 1 => scratch < r.1 + r.2.1
  | 2 => priv < r.1 + r.2.1
  | _ => false

/-- The descriptor check of R336 and R355. -/
def CopyF.descOk (f : CopyF) : Bool := f.zero && f.ssp != 3 && f.dsp != 3 && f.len != 0 && f.len ≤ 2 ^ 31

/-- The size check of R355. -/
def CopyF.sizesOk (f : CopyF) : Bool :=
  match f.kind with
  | 0 => true
  | 1 => f.nrows != 0 && (f.nrows == 1 || f.w * f.len ≤ f.dstride)
  | _ => f.len % f.elem == 0 && !(f.elog == 7 && f.cvt != 0)

/-- The conversion check of R355. -/
def CopyF.cvtOk (f : CopyF) : Bool :=
  f.cvt == 0 || (cvtListed f.st f.dt && f.len % f.se == 0 && f.src % f.se == 0 && f.dst % f.de == 0 &&
    (f.kind != 1 || (f.sstride % f.se == 0 && f.dstride % f.de == 0)))

/-- The ranges of a copy meet within one space (R355); global ranges by virtual address. -/
def CopyF.meets (f : CopyF) : Bool :=
  let (a, n, p) := f.srcRange
  let (b, m, q) := f.dstRange
  p == q && a < b + m && b < a + n

/-- Every check of R355 after the poison check. The conversion's pair is looked at before its widening ratio is used. -/
def CopyF.ok (f : CopyF) (scratch priv : Nat) : Bool :=
  f.descOk && (f.cvt == 0 || cvtListed f.st f.dt) && f.sizesOk && f.cvtOk && !beyond scratch priv f.srcRange &&
    !beyond scratch priv f.dstRange && !f.meets

/-! ### Starting a copy (R355, R357, R359) -/

/-- A range lock of a copy. -/
def copyLock (k : Nat) (g : Group) (op : Nat) (dst : Bool) (r : Nat × Nat × Nat) : Lock :=
  { base := if r.2.2 = 0 then r.1 % 2 ^ 57 else r.1, len := r.2.1, gslot := k % 128, dst := dst, space := copySpace r.2.2,
    kind := 0, ctx := g.ctx, wg := g.wg, gidx := g.gidx, op := op }

/-- A copy starts under a tag with its two locks (R357, R359). -/
def State.startCopy (s : State) (k : Nat) (g : Group) (tag kind : Nat) (addr : W64) (desc : List Byte) : State :=
  let f := copyF kind desc
  let c : Copy :=
    { id := s.nextId, hearth := hearthOf k, ctx := g.ctx, wg := g.wg, gidx := g.gidx, gslot := k % 128, tag := tag, kind := kind,
      addr := addr, desc := desc, next := s.clk + 2 }
  let s' := s.newId.addLocks (hearthOf k) [copyLock k g c.id false f.srcRange, copyLock k g c.id true f.dstRange]
  { s' with copies := s'.copies ++ [c] }.setG k ({ g with tags := tabSet g.tags tag { state := 1 }, got := none }.adv 4)

/-- A copy command (R336, R353, R355, R357). In a handler it is an illegal operand (R266). -/
def copyCmd (s : State) (sa : BitVec 6) (tag : BitVec 4) (kind : Nat) : Res :=
  onStoker s fun k g =>
    let a := g.sGet sa.toNat
    if g.hnd.isSome then s.trapS k g (trapOperand 0)
    else if a.pz then s.trapS k g (trapPoison a.val 32)
    else if a.val.toNat % 32 != 0 then s.trapS k g (trapOperand a.val)
    else
      match s.readOnce k g a.val 32 with
      | (s, .inr t) => s.trapS k (s.fresh k g) t
      | (s, .inl none) => s.waitS k
      | (s, .inl (some b)) =>
        let g := s.fresh k g
        if !(copyF kind b).ok (s.wgOf g.wg).scratchBytes (g.width * g.kern.priv) then s.trapS k g (trapOperand a.val)
        else if (s.copies.any fun c => c.wg == g.wg && c.gidx == g.gidx && c.tag == tag.toNat) ||
            16 ≤ (s.copies.filter fun c => c.hearth == hearthOf k).length || (s.freeLocks (hearthOf k)).length < 2 then
          s.waitGot k g b
        else s.startCopy k g tag.toNat kind a.val b

/-- `cpy` (R353). -/
def execCpy (sa : BitVec 6) (tag : BitVec 4) (s : State) : Res := copyCmd s sa tag 0

/-- `cpy2d` (R353). -/
def execCpy2d (sa : BitVec 6) (tag : BitVec 4) (s : State) : Res := copyCmd s sa tag 1

/-- `cpyg` (R353). -/
def execCpyg (sa : BitVec 6) (tag : BitVec 4) (s : State) : Res := copyCmd s sa tag 2

/-! ### Reading a unit (R353, R356, R358) -/

/-- Bytes of a space read for a copy: within 8 in the global space, and beyond a space's end, 2⁶⁴ for the global one, the fault of R360. -/
def State.copyBytes (s : State) (c : Copy) (sp : Nat) (addr n : Nat) : State × Eng (List Byte × Bool) :=
  match sp with
  | 0 =>
    if 2 ^ 64 < addr + n then (s, .fault 1)
    else s.engineRead c.hearth c.ctx c.id (c.wg, c.gidx) (BitVec.ofNat 64 addr) n
  | 1 =>
    if (s.wgOf c.wg).scratchBytes < addr + n || s.pageCut c.wg addr n then (s, .fault 1)
    else
      let s := (pagesOf addr n).foldl (fun s p => s.refill c.wg p) s
      (s, .ok ((s.wgOf c.wg).spRead addr n, (s.wgOf c.wg).spPoisoned addr n))
  | _ =>
    match s.keyOf (c.wg, c.gidx) with
    | some k =>
      match s.grp k with
      | some g =>
        if g.width * g.base.priv < addr + n || s.privCut k g addr then (s, .fault 1)
        else
          let s := s.touchPriv k addr false
          let g := (s.grp k).getD g
          (s, .ok ((List.range n).map fun i => g.privByte (addr + i), (granules addr n).any g.privPz.contains))
      | none => (s, .wait)
    | none => (s, .wait)

/-- Bytes of a space read in pieces of at most 8 that lie in one aligned 8; the first number bounds the pieces. -/
def State.copySpan (s : State) (c : Copy) (sp : Nat) : Nat → Nat → Nat → State × Eng (List Byte)
  | 0, _, _ | _, _, 0 => (s, .ok [])
  | fuel + 1, addr, n + 1 =>
    let m := min (n + 1) (8 - addr % 8)
    match s.copyBytes c sp addr m with
    | (s, .wait) => (s, .wait)
    | (s, .fault x) => (s, .fault x)
    | (s, .ok (b, _)) =>
      match s.copySpan c sp fuel (addr + m) (n + 1 - m) with
      | (s, .ok r) => (s, .ok (b ++ r))
      | x => x

/-- Bytes of an index (R353). -/
def CopyF.idxSize (f : CopyF) : Nat := if f.wide then 8 else 4

/-- The next indexes of a gather read, each once: those that have been read stay with the copy (R358). -/
def State.copyIndexes (s : State) (c : Copy) (f : CopyF) : Nat → State × Copy × Eng Unit
  | 0 => (s, c, .ok ())
  | n + 1 =>
    match s.copySpan c f.isp 9 (f.idx + (c.done / f.elem + c.got.length) * f.idxSize) f.idxSize with
    | (t, .wait) => (t.undoTrace s, c, .wait)
    | (s, .fault x) => (s, c, .fault x)
    | (s, .ok b) => s.copyIndexes { c with got := c.got ++ [leNat b] } f n

/-- The indexes that a unit of n bytes still needs. -/
def CopyF.needs (f : CopyF) (c : Copy) (n : Nat) : Nat := if f.kind = 2 then n / f.elem - c.got.length else 0

/-- The address of source byte p, a gathered element's through its index (R353, R358). -/
def CopyF.srcAddr (f : CopyF) (c : Copy) (p : Nat) : Nat :=
  match f.kind with
  | 0 => f.src + p
  | 1 => f.src + p / f.len * f.sstride + p % f.len
  | _ => f.src + c.got.getD ((p - c.done) / f.elem) 0 * f.elem + p % f.elem

/-- Bytes that follow source byte p without a gap (R353). -/
def CopyF.run (f : CopyF) (p : Nat) : Nat :=
  match f.kind with
  | 0 => f.len - p
  | 1 => f.len - p % f.len
  | _ => f.elem - p % f.elem

/-- A gathered element lies in its own copy's destination (R359). -/
def CopyF.inOwnDst (f : CopyF) (addr p : Nat) : Bool :=
  let (b, m, q) := f.dstRange
  let e := addr - p % f.elem
  f.kind == 2 && q == f.ssp && e < b + m && b < e + f.elem

/-- Source bytes p to p + n − 1 with their poison, piece by piece; the first number bounds the pieces. -/
def State.copyRead (s : State) (c : Copy) (f : CopyF) : Nat → Nat → Nat → State × Eng (List (Byte × Bool))
  | 0, _, _ | _, _, 0 => (s, .ok [])
  | fuel + 1, p, n + 1 =>
    let a := f.srcAddr c p
    let m := min (n + 1) (min (f.run p) (8 - a % 8))
    match s.copyBytes c f.ssp a m with
    | (s, .wait) => (s, .wait)
    | (s, .fault x) => (s, .fault x)
    | (s, .ok (b, z)) =>
      let b := if f.inOwnDst a p then (List.range m).map fun i => Config.overlapByte s.free (p + i) else b
      match s.copyRead c f fuel (p + m) (n + 1 - m) with
      | (s, .ok r) => (s, .ok (b.map (·, z) ++ r))
      | x => x

/-! ### Converting and writing (R354, R358, R360) -/

/-- The value of a source element (R354). -/
def cvtValue (st x : Nat) : Num :=
  match fmtOf st with
  | some fm => fm.decode x
  | none => .ofInt (sintOf 8 x)

/-- A source element as its destination type; every conversion is exact (R354). -/
def cvtElement (st dt x : Nat) : Nat :=
  match fmtOf dt with
  | some fm => roundTo fm (cvtValue st x) 1 false
  | none => wrap 32 (sintOf 8 x)

/-- Converted bytes of the source bytes of one piece (R128, R354). -/
def CopyF.convert (f : CopyF) (b : List Byte) : List Byte :=
  if f.cvt = 0 then b
  else
    let x := leNat b
    let es := if tyBits f.st = 4 then [x % 16, x / 16] else [x]
    es.foldr (fun x acc => leBytes f.de (cvtElement f.st f.dt x) ++ acc) []

/-- The destination address of the converted source byte p (R353). -/
def CopyF.dstAddr (f : CopyF) (p : Nat) : Nat :=
  if f.kind = 1 then f.dst + p / f.len * f.dstride + f.w * (p % f.len) else f.dst + f.w * p

/-- The bytes a unit writes, with their addresses and poison. -/
def CopyF.writes (f : CopyF) (p : Nat) (b : List (Byte × Bool)) : List (Nat × Byte × Bool) :=
  (enumFrom 0 (chunks f.se b)).foldr (fun x acc =>
    let out := f.convert (x.2.map (·.1))
    let z := x.2.any (·.2)
    (enumFrom (f.dstAddr (p + f.se * x.1)) out).map (fun y => (y.1, y.2, z)) ++ acc) []

/-- Whether every part a copy writes to a codec region is whole values (R291). -/
def CopyF.codecOk (f : CopyF) : Bool :=
  f.dst % 8 == 0 && f.w * f.len % 8 == 0 && (f.kind != 1 || f.nrows == 1 || f.dstride % 8 == 0)

/-- The checks of every run of a unit's global writes, in order (R360). -/
def State.copyChecks (s : State) (c : Copy) (f : CopyF) :
    List (Nat × List Byte × Bool) → State × Eng (List (W64 × Tr × List Byte × Bool))
  | [] => (s, .ok [])
  | (a, b, z) :: r =>
    if 2 ^ 64 ≤ a then (s, .fault 1)
    else
    match s.engineWrite c.hearth c.ctx (BitVec.ofNat 64 a) with
    | (s, .wait) => (s, .wait)
    | (s, .fault x) => (s, .fault x)
    | (s, .ok t) =>
      if t.creg.isSome && !f.codecOk then (s, .fault 3)
      else
        match s.copyChecks c f r with
        | (s, .ok l) => (s, .ok ((BitVec.ofNat 64 a, t, b, z) :: l))
        | x => x

/-- Whether a physical byte is also one of the copy's global source bytes, through another mapping (R355). -/
def State.srcCovers (s : State) (c : Copy) (f : CopyF) (creg : Option Nat) (pa : Nat) : Bool :=
  let (b, n, sp) := f.srcRange
  f.kind != 2 && sp == 0 && (List.range (n / 65536 + 2)).any fun i =>
    let va := (b / 65536 + i) * 65536
    match s.walk (tabD s.ctxs c.ctx {}) (BitVec.ofNat 64 va) with
    | .found leaf lpa pgsz =>
      let t := trOf s (tabD s.ctxs c.ctx {}) leaf lpa pgsz (BitVec.ofNat 64 va)
      t.creg == creg && t.pa ≤ pa && pa < t.pa + 65536 && b ≤ va + (pa - t.pa) && va + (pa - t.pa) < b + n
    | _ => false

/-- A unit's global bytes sent: plain runs as they are, codec bytes block by block (R282, R283, R291). -/
def State.copySend (s : State) (c : Copy) (f : CopyF) (l : List (W64 × Tr × List Byte × Bool)) : State :=
  let cx := tabD s.ctxs c.ctx {}
  let mix := fun (s : State) (x : W64 × Tr × List Byte × Bool) =>
    (enumFrom x.2.1.pa x.2.2.1).map fun e =>
      (e.1, if s.srcCovers c f x.2.1.creg e.1 then Config.overlapByte s.free e.1 else e.2, x.2.2.2)
  let s := l.foldl (fun s x =>
    if x.2.1.creg.isNone then s.engineStore c.hearth c.ctx c.id x.1 x.2.1 ((mix s x).map (·.2.1)) x.2.2.2
    else s.gatherD c.hearth c.ctx x.1) s
  let cod := l.filter fun x => x.2.1.creg.isSome
  let regs := (cod.map fun x => x.2.1.creg.getD 0).foldl addOnce []
  regs.foldl (fun s r =>
    let mine := cod.filter fun x => x.2.1.creg == some r
    let va := blockVa (mine.map fun x => (x.1, x.2.1, x.2.2.1.length))
    (codecBlocks (mine.foldr (fun x acc => mix s x ++ acc) [])).foldl (fun s b =>
      s.issueWrite c.hearth c.ctx none (va b.1) (codecKey (s.region cx r) (32 * b.1)) c.id false (.codecStore c.ctx r b.2)) s) s

/-- A page that the whole of a copy's destination covers, where it is contiguous: the engine writes all 4 KiB of it (R224). -/
def CopyF.covers (f : CopyF) (page : Nat) : Bool :=
  let (b, m, _) := f.dstRange
  (f.kind != 1 || f.nrows == 1 || f.dstride == f.w * f.len) && b ≤ 4096 * page && 4096 * page + 4096 ≤ b + m

/-- A unit's bytes written to their space; none while a page waits, or the fault that stops the copy. -/
def State.copyWrite (s : State) (c : Copy) (f : CopyF) (l : List (Nat × List Byte × Bool)) : State × Eng Unit :=
  match f.dsp with
  | 0 =>
    match s.copyChecks c f l with
    | (s, .ok w) => (s.copySend c f w, .ok ())
    | (s, .wait) => (s, .wait)
    | (s, .fault x) => (s, .fault x)
  | 1 =>
    let pages := ((l.map fun r => pagesOf r.1 r.2.1.length).flatten).foldl addOnce []
    if pages.any fun p => !f.covers p && s.pageCut c.wg (4096 * p) 1 then (s, .fault 1)
    else
    let s := pages.foldl (fun s p => if f.covers p then s.openPage c.wg p else s.refill c.wg p) s
    (s.modWg c.wg fun w => l.foldl (fun w r => w.spWrite r.1 r.2.1 r.2.2) w, .ok ())
  | _ =>
    match s.keyOf (c.wg, c.gidx) with
    | some k =>
      match s.grp k with
      | some g => if l.any fun r => s.privCut k g r.1 then (s, .fault 1) else (s.privWrite k l, .ok ())
      | none => (s, .wait)
    | none => (s, .wait)

/-! ### One unit (R341, R357, R360) -/

/-- A copy changed, and its tag's progress with it (R363); the model tries its next unit at a clock. -/
def State.progress (s : State) (c : Copy) (done next : Nat) (got : List Nat) : State :=
  ({ s with
      copies := s.copies.map fun (x : Copy) => if x.id = c.id then { x with done := done, next := next, got := got } else x } : State).modOwner
    (c.wg, c.gidx) fun g => { g with tags := tabSet g.tags c.tag { state := 1, done := done } }

/-- A copy leaves the engine: its locks go, its tag takes a state, and what waited for it may resume. -/
def State.endCopy (s : State) (c : Copy) (t : TagSt) : State :=
  (({ s.unlock 0 c.id with copies := s.copies.filter (·.id != c.id) } : State).modOwner (c.wg, c.gidx) fun g =>
    { g with tags := tabSet g.tags c.tag t }).wakeYielded

/-- A copy that meets a fault stops (R360); a `cpcont` its group has yielded at is left unexecuted, and issues again on resume. -/
def State.stopCopy (s : State) (c : Copy) (cause : Nat) (dst : Bool) : State :=
  let stopped : TagSt := { state := 2, fcause := cause, done := c.done }
  match s.keyOf (c.wg, c.gidx) with
  | some k =>
    ((((s.engineRecord k 0x17 c.addr dst).modG k fun g => { g with yielded := none }).endCopy c stopped).suspendLater k 0x17 c.addr dst).modG k
      fun g => { g with spent := g.spent ++ [c.id] }
  | none => s.endCopy c stopped

/-- The start of the unit that a copy has sent last (R336). -/
def Copy.lastUnit (c : Copy) : Nat := (c.done - 1) / 128 * 128

/-- A copy whose write gets no response stops at the unit it belongs to, the last one sent: its other writes that are not performed are
given up (R325, R360). -/
def State.stopWrite (s : State) (c : Copy) : State :=
  ({ s with pend := s.pend.filter fun p => p.blk != c.id || p.owner.isSome } : State).stopCopy { c with done := c.lastUnit } 4 true

/-- A write of an operation to another module is out: no later unit is sent until it is performed (R325, R360). -/
def State.awaitsModule (s : State) (op : Nat) : Bool :=
  s.pend.any fun p => p.blk == op && p.owner.isNone && !p.isLost && isOther (keyPa p.key)

/-- A copy tries again at the next clock. -/
def State.holdCopy (s : State) (c : Copy) : State := s.progress c c.done (s.clk + 1) c.got

/-- A unit counted in its hearth's turns (R357). -/
def State.countUnit (s : State) (c : Copy) : State :=
  let t := tabD s.cpTurn c.hearth (0, 0, 0)
  { s with cpTurn := tabSet s.cpTurn c.hearth (s.clk, (if t.1 = s.clk then t.2.1 else 0) + 1, c.id) }

/-- The next unit of a copy, or its completion once every write is performed (R253, R341, R357, R358). -/
def State.copyStep (s : State) (c : Copy) : State :=
  let f := copyF c.kind c.desc
  if f.total ≤ c.done then if s.writesOf c.id || s.clk < c.late then s.holdCopy c else s.endCopy c {}
  else if s.behind c.hearth c.id || s.precedes c.wg [c.gidx] c.id || s.awaitsModule c.id then s.holdCopy c
  else
    let n := min 128 (f.total - c.done)
    match s.copyIndexes c f (f.needs c n) with
    | (s, c, .wait) => s.holdCopy c
    | (s, c, .fault x) => s.stopCopy c x false
    | (s, c, .ok _) =>
      match s.copyRead c f (n + 1) c.done n with
      | (t, .wait) => (t.undoTrace s).holdCopy c
      | (s, .fault x) => s.stopCopy c x false
      | (t, .ok b) =>
        match t.copyWrite c f (runsOf (f.writes c.done b)) with
        | (t, .wait) => (t.undoTrace s).holdCopy c
        | (s, .fault x) => s.stopCopy c x true
        | (s, .ok _) => ((s.stamp.progress c (c.done + n) s.clk []).countUnit c).forget s.reader

/-- The record of a copy in its group's save record (R341). -/
def Copy.record (c : Copy) : List Byte :=
  c.desc.take 22 ++ leBytes 1 c.tag ++ leBytes 1 c.gslot ++ leBytes 4 c.done ++ leBytes 4 0

/-- A copy registered again from its record (R341); what was read for its next unit is discarded. -/
def Copy.returned (c : Copy) (r : List Byte) (clk : Nat) : Copy :=
  { c with
    tag := leNat ((r.drop 22).take 1), gslot := leNat ((r.drop 23).take 1), done := leNat ((r.drop 24).take 4), got := [], next := clk + 2 }

/-- The copy engine completes one unit (R357): `ev.a` names the copy. -/
def execCopyUnit (s : State) : Res :=
  onEvent s fun s =>
    match s.copies.find? (·.id == s.ev.a) with
    | some c => s.copyStep c
    | none => s

end Sys2Proof.Machine
end

