-- ==== Sys2Proof/Machine/Matrix.lean ====
section
/-! DEFINITION. The matrix engine: `mma` with team arrival, the accumulator commands, and their steps
(R134–R139, R337–R340, R343–R352). -/

namespace Sys2Proof.Machine

/-! ### Records (R337, R338) -/

/-- A format record (R338). -/
structure FmtRec where
  ety : Nat
  bl : Nat
  sty : Nat
  soff : Nat
  ok : Bool
  deriving DecidableEq, Repr

/-- The combinations R134 permits. -/
def fmtListed (ety bl sty : Nat) : Bool :=
  match sty with
  | 0 =>
    if ety == 8 || ety == 9 || ety == 11 then bl == 32
    else (ety == 0 || ety == 12 || ety == 13 || ety == 14) && (bl == 16 || bl == 32)
  | 1 => (ety == 0 || ety == 12 || ety == 13 || ety == 14) && (bl == 16 || bl == 32)
  | 2 => ety == 14 && bl == 16
  | _ => false

/-- The format record in 16 bytes. -/
def fmtRec (b : List Byte) : FmtRec :=
  let x := leNat b
  let r : FmtRec := { ety := bits x 0 8, bl := bits x 8 8, sty := bits x 16 8, soff := bits x 32 32, ok := false }
  { r with
    ok := bits x 24 8 == 0 && bits x 64 64 == 0 && fmtListed r.ety r.bl r.sty && (r.sty == 0 || r.soff % 128 == 0) }

/-- The element classes of R343. -/
def mmaClass (ety : Nat) : Nat := if ety = 13 then 12 else ety

/-- An operand record (R337). -/
structure MmaRec where
  aoff : Nat
  boff : Nat
  dunit : Nat
  m : Nat
  n : Nat
  k : Nat
  a : FmtRec
  b : FmtRec
  ok : Bool
  deriving DecidableEq, Repr

/-- The record in 64 bytes, with the checks of R337, R338 and R343. -/
def mmaRec (l : List Byte) : MmaRec :=
  let x := leNat l
  let r : MmaRec :=
    { aoff := bits x 0 32, boff := bits x 32 32, dunit := bits x 64 16, m := if bits x 80 1 = 0 then 128 else 256,
      n := if bits x 81 1 = 0 then 192 else 384, k := bits x 96 32, a := fmtRec ((l.drop 16).take 16),
      b := fmtRec ((l.drop 32).take 16), ok := false }
  { r with
    ok := r.aoff % 1024 == 0 && r.boff % 1024 == 0 && bits x 82 14 == 0 && bits x 384 128 == 0 && r.a.ok && r.b.ok &&
      mmaClass r.a.ety == mmaClass r.b.ety && r.a.bl == r.b.bl }

/-- The accumulator format and its element size (R343, R345). -/
def MmaRec.acc (r : MmaRec) : Fmt := if r.a.ety = 11 then f64 else f32
def MmaRec.accSize (r : MmaRec) : Nat := if r.a.ety = 11 then 8 else 4

/-- Units of D (R345). -/
def MmaRec.units (r : MmaRec) : Nat := r.m * r.n * r.accSize / 1024

/-- Bytes of the tiles and of the scale tiles (R338, R346). -/
def MmaRec.aBytes (r : MmaRec) : Nat := r.m * r.k * tyBits r.a.ety / 8
def MmaRec.bBytes (r : MmaRec) : Nat := r.n * r.k * tyBits r.b.ety / 8
def MmaRec.aScale (r : MmaRec) : Nat := r.k / r.a.bl * r.m
def MmaRec.bScale (r : MmaRec) : Nat := r.k / r.a.bl * r.n

/-- The checks of R346 against the group's kernel and its workgroup. -/
def MmaRec.fits (r : MmaRec) (team sp acc : Nat) : Bool :=
  team != 0 && r.k != 0 && r.k % r.a.bl == 0 && r.k ≤ 16384 && r.aoff + r.aBytes ≤ sp && r.boff + r.bBytes ≤ sp &&
    (r.a.sty == 0 || r.a.soff + r.aScale ≤ sp) && (r.b.sty == 0 || r.b.soff + r.bScale ≤ sp) && r.dunit + r.units ≤ acc

/-! ### Registering an operation (R351, R364) -/

/-- Matrix operations of a hearth, in registration order. -/
def State.matsOf (s : State) (h : Nat) : List MatOp := s.mats.filter (·.hearth == h)

/-- Room for one more operation with a number of locks (R351). -/
def State.matRoom (s : State) (h locks : Nat) : Bool := (s.matsOf h).length < 16 && locks ≤ (s.freeLocks h).length

/-- A lock of a matrix operation. -/
def matLock (k : Nat) (g : Group) (op kind : Nat) (dst : Bool) (sp : Space) (base len : Nat) : Lock :=
  { base := base, len := len, gslot := k % 128, dst := dst, space := sp, kind := kind, ctx := g.ctx, wg := g.wg, gidx := g.gidx,
    op := op }

/-- The ranges an `mma` locks (R364): A, B, the scale tiles present, and D. -/
def MmaRec.locks (r : MmaRec) (k : Nat) (g : Group) (op : Nat) : List Lock :=
  let l := fun (sp : Space) dst base len => matLock k g op 1 dst sp base len
  [l .scratch false r.aoff r.aBytes, l .scratch false r.boff r.bBytes] ++
    (if r.a.sty = 0 then [] else [l .scratch false r.a.soff r.aScale]) ++
    (if r.b.sty = 0 then [] else [l .scratch false r.b.soff r.bScale]) ++ [l .acc true (1024 * r.dunit) (1024 * r.units)]

/-- Group indices of a team of a workgroup (R26). -/
def teamOf (gidx team : Nat) : List Nat := (List.range team).map fun i => gidx / team * team + i

/-- A member of a team has retired (R347). -/
def State.teamGone (s : State) (g : Group) : Bool := (teamOf g.gidx g.kern.team).any (s.wgOf g.wg).retired.contains

/-- The key of the lowest member slot of a team (R364). -/
def State.lowMember (s : State) (wg : Nat) (members : List Nat) (k : Nat) : Nat :=
  listMin ((members.filterMap fun m => s.keyOf (wg, m))) k

/-- The last member has arrived: the operation is registered and every member's `mma` completes (R340). -/
def State.register (s : State) (k : Nat) (g : Group) (addr : W64) (rec_ : List Byte) (others : List Nat) : State :=
  let r := mmaRec rec_
  let members := others ++ [g.gidx]
  let low := s.lowMember g.wg members k
  let op : MatOp :=
    { id := s.nextId, hearth := hearthOf k, ctx := g.ctx, wg := g.wg, members := members, gslot := low % 128, kind := .mma,
      record := rec_, addr := addr, next := s.clk + 1 }
  let s := (s.newId.addLocks (hearthOf k) (r.locks low g op.id)).modWg g.wg fun w =>
    { w with teams := tabDel w.teams (g.gidx / g.kern.team) }
  let s := others.foldl (fun s m => s.modOwner (g.wg, m) fun x => { x with sWait := false }.adv 4) { s with mats := s.mats ++ [op] }
  s.setG k ({ g with got := none }.adv 4)

/-- A member arrives with its record, or waits for room (R340, R347, R351). -/
def State.arriveMma (s : State) (k : Nat) (g : Group) (addr : W64) (rec_ : List Byte) : State :=
  let team := g.gidx / g.kern.team
  let fault := s.trapS k g { code := 0x11, addr := addr }
  let others := match tabGet (s.wgOf g.wg).teams team with
    | some t => t.members.map (·.1)
    | none => []
  let same := match tabGet (s.wgOf g.wg).teams team with
    | some t => t.record == rec_
    | none => true
  if s.teamGone g || !same then fault
  else if others.length + 1 < g.kern.team then
    (s.modWg g.wg fun w =>
      { w with
        teams := tabSet w.teams team
          { record := rec_, members := (match tabGet w.teams team with
              | some t => t.members
              | none => []) ++ [(g.gidx, addr)] } }).waitS k
  else if s.matRoom (hearthOf k) ((mmaRec rec_).locks k g 0).length then s.register k g addr rec_ others
  else s.waitGot k g rec_

/-- Whether a group has arrived at its team's `mma`. -/
def State.arrivedMma (s : State) (g : Group) : Bool :=
  (tabGet (s.wgOf g.wg).teams (g.gidx / max g.kern.team 1)).any fun t => t.members.any fun m => m.1 == g.gidx

/-- `mma` (R337, R340, R346, R347). In a handler it is an illegal operand (R266). -/
def execMma (sa : BitVec 6) (s : State) : Res :=
  onStoker s fun k g =>
    let a := g.sGet sa.toNat
    if g.hnd.isSome then s.trapS k g (trapOperand 0)
    else if s.arrivedMma g then s.waitS k
    else if a.pz then s.trapS k g (trapPoison a.val 64)
    else if a.val.toNat % 64 != 0 then s.trapS k g (trapOperand a.val)
    else
      match s.readOnce k g a.val 64 with
      | (s, .inr t) => s.trapS k (s.fresh k g) t
      | (s, .inl none) => s.waitS k
      | (s, .inl (some b)) =>
        let g := s.fresh k g
        let r := mmaRec b
        if r.ok && r.fits g.kern.team (s.wgOf g.wg).scratchBytes (s.wgOf g.wg).accUnits then s.arriveMma k g a.val b
        else s.trapS k g (trapOperand a.val)

/-- Members that wait at `mma` when another member of their team retires take the team fault (R347). -/
def State.teamFaults (s : State) (g : Group) : State :=
  if g.base.team = 0 then s
  else
    match tabGet (s.wgOf g.wg).teams (g.gidx / g.base.team) with
    | some t =>
      t.members.foldl (fun s m =>
        match s.keyOf (g.wg, m.1) with
        | some k =>
          match s.grp k with
          | some x => s.trapS k x { code := 0x11, addr := m.2 }
          | none => s
        | none => s) s
    | none => s

/-! ### Accumulator commands (R339, R348, R349) -/

/-- The checks of a command's global range page by page, R98 steps 1 to 6 (R349): a trap, or a wait for a thawing page. The
first number bounds the pages. -/
def State.pageChecks (s : State) (k : Nat) (g : Group) (a : AccK) (size : Nat) : Nat → W64 → Nat → State × Option Chk
  | 0, _, _ | _, _, 0 => (s, none)
  | fuel + 1, va, n + 1 =>
    if canonical va then
      match s.translate (hearthOf k) g.ctx va with
      | (s, .absent e) => (s, some (.trap { accTrap 0x05 a va size with s3 := e }))
      | (s, .illegal m) => (s, some (.trap { accTrap 0x06 a va size with malf := m }))
      | (s, .ok t) =>
        if (a.rd && !t.rd) || (a.wr && !t.wr) || s.fenced (dieOf (hearthOf k)) (s.keyOfTr (tabD s.ctxs g.ctx {}) t) then
          (s, some (.trap (accTrap 0x06 a va size)))
        else
          match chkRegion a va size t with
          | some c => (s, some c)
          | none => s.pageChecks k g a size fuel (va + BitVec.ofNat 64 (min (n + 1) t.left)) (n + 1 - min (n + 1) t.left)
    else (s, some (.trap (accTrap 0x06 a va size)))

/-- A command registered as an operation of the matrix engine, or waiting for room (R348, R351). -/
def State.registerAcc (s : State) (k : Nat) (g : Group) (kind : MatKind) (d : W64) (u n fmt bytes : Nat) : State :=
  let wr := kind == .accst
  let units := matLock k g s.nextId 2 (!wr) .acc (1024 * u) (1024 * n)
  let locks := if kind = .accz then [units] else [units, matLock k g s.nextId 2 wr .glob (va57 d) bytes]
  let op : MatOp :=
    { id := s.nextId, hearth := hearthOf k, ctx := g.ctx, wg := g.wg, members := [g.gidx], gslot := k % 128, kind := kind, d := d,
      u := u, n := n, fmt := fmt, next := s.clk + 1 }
  if s.matRoom (hearthOf k) locks.length then
    let s := s.newId.addLocks (hearthOf k) locks
    { s with mats := s.mats ++ [op] }.setG k (g.adv 4)
  else s.waitS k

/-- Bytes of global memory for one unit: whole for `.f32` and `accld`, half for the 16-bit forms (R339). -/
def accUnitBytes (fmt : Nat) : Nat := if fmt = 0 then 1024 else 512

/-- An accumulator command (R339, R348, R349). -/
def accCmd (s : State) (kind : MatKind) (sd sa sb : BitVec 6) (fmt : Nat) : Res :=
  onStoker s fun k g =>
    let u := (g.sGet sa.toNat).val.toNat
    let n := (g.sGet sb.toNat).val.toNat
    let d := if kind = .accz then {} else g.sGet sd.toNat
    let size := if fmt = 0 then 4 else 2
    let bytes := n * accUnitBytes fmt
    let a : AccK := { rd := kind == .accld, wr := kind == .accst, codecOk := kind == .accld }
    if d.pz then s.trapS k g { trapPoison d.val size with wr := a.wr }
    else if n = 0 || (s.wgOf g.wg).accUnits < u + n then
      s.trapS k g (trapOperand (if n = 0 then 0 else (g.sGet sa.toNat).val))
    else if kind = .accz then s.registerAcc k g kind 0 u n 0 0
    else if d.val.toNat % size != 0 then s.trapS k g (accTrap 0x07 a d.val size)
    else
      match s.pageChecks k g a size (bytes + 1) d.val bytes with
      | (s, some (.trap t)) => s.trapS k g t
      | (s, some _) => s.waitS k
      | (s, none) => s.registerAcc k g kind d.val u n fmt bytes

/-- `accz` (R348). -/
def execAccz (sa sb : BitVec 6) (s : State) : Res := accCmd s .accz 0 sa sb 0

/-- `accld` (R348). -/
def execAccld (sd sa sb : BitVec 6) (s : State) : Res := accCmd s .accld sd sa sb 0

/-- `accst` (R348); fmt 3 is an illegal instruction. -/
def execAccst (sd sa sb : BitVec 6) (fmt : BitVec 2) (s : State) : Res :=
  if fmt = 3 then onStoker s fun k g => s.trapS k g trapIllegal else accCmd s .accst sd sa sb fmt.toNat

/-! ### Completion (R253, R350) -/

/-- An operation leaves the engine, and what waited for it may resume. -/
def State.endMat (s : State) (m : MatOp) : State :=
  ({ s with mats := s.mats.filter (·.id != m.id), locks := s.locks.filter fun p => p.2.op != m.id } : State).wakeYielded

/-- An operation changed. -/
def State.putMat (s : State) (m : MatOp) : State :=
  { s with mats := s.mats.map fun (x : MatOp) => if x.id = m.id then { m with late := max m.late x.late } else x }

/-- An operation changed that the model tries again at the next clock. -/
def State.setMat (s : State) (m : MatOp) : State := s.putMat { m with next := s.clk + 1 }

/-- An `mma` that read poison: every unit of D marked, and a record naming the members (R350). -/
def State.matPoison (s : State) (m : MatOp) : State :=
  let r := mmaRec m.record
  let s := s.modWg m.wg fun w => { w with accPz := ((List.range r.units).map (· + r.dunit)).foldl addOnce w.accPz }
  let keys := m.members.filterMap fun i => s.keyOf (m.wg, i)
  (s.engineRecord (128 * m.hearth + m.gslot) 0x16 m.addr false).joinLast (keys.map (· % 128))

/-! ### One K-step of an `mma` (R135–R139, R344) -/

/-- An element's value (R135): `.i8` counts 2^−6 in a scaled operand. A zero element is +0, so its product with a negative one is −0
(DESIGN CHOICE, log 71). -/
def elemValue (f : FmtRec) (x : Nat) : Num :=
  match fmtOf f.ety with
  | some fm => fm.decode x
  | none => if f.sty = 0 then .ofInt (sintOf 8 x) else (Num.ofInt (sintOf 8 x)).mul (.fin false 1 1 (-6))

/-- A scale's value (R135). -/
def scaleValue (sty x : Nat) : Num :=
  match sty with
  | 0 => .ofInt 1
  | 1 => e8m0 x
  | _ => e4m3.decode x

/-- The values of packed elements in the bytes of a row's block (R128, R338). -/
def elemsOf (f : FmtRec) (b : List Byte) : List Num :=
  let x := leNat b
  (List.range f.bl).map fun j => elemValue f (bits x (tyBits f.ety * j) (tyBits f.ety))

/-- The elements of one block of a row of a tile: the tile's offset and its row length in elements (R338). -/
def blockOf (w : Wg) (f : FmtRec) (off k row i : Nat) : List Num :=
  elemsOf f (w.spRead (off + (row * k + i * f.bl) * tyBits f.ety / 8) (f.bl * tyBits f.ety / 8))

/-- The scale of block i of a row (R338). -/
def scaleOf (w : Wg) (f : FmtRec) (rows row i : Nat) : Num :=
  if f.sty = 0 then .ofInt 1 else scaleValue f.sty (leNat (w.spRead (f.soff + i * rows + row) 1))

/-- An element of D after a block of a row of A and of a column of B, each with its scale (R344). -/
def MmaRec.step (r : MmaRec) (d : List Byte) (a b : List Num × Num) : Nat :=
  roundTo r.acc ((r.acc.decode (leNat d)).add (blockDot r.acc a.1 b.1 a.2 b.2) 1) 1 false

/-- Whether block i reads poison in A, B, their scales or D (R350). -/
def MmaRec.reads (r : MmaRec) (w : Wg) (i : Nat) : Bool :=
  let rowPz := fun (f : FmtRec) off row =>
    w.spPoisoned (off + (row * r.k + i * f.bl) * tyBits f.ety / 8) (f.bl * tyBits f.ety / 8)
  ((List.range r.m).any fun m => rowPz r.a r.aoff m) || ((List.range r.n).any fun n => rowPz r.b r.boff n) ||
    (r.a.sty != 0 && w.spPoisoned (r.a.soff + i * r.m) r.m) || (r.b.sty != 0 && w.spPoisoned (r.b.soff + i * r.n) r.n) ||
    (List.range r.units).any fun u => w.accPz.contains (r.dunit + u)

/-- Every element of D after block i, as bytes from D's first (R339, R344, R345). -/
def MmaRec.tile (r : MmaRec) (w : Wg) (i : Nat) : List Byte :=
  let rows := (List.range r.m).map fun m => (blockOf w r.a r.aoff r.k m i, scaleOf w r.a r.m m i)
  let cols := (List.range r.n).map fun n => (blockOf w r.b r.boff r.k n i, scaleOf w r.b r.n n i)
  let old := (List.range r.m).map fun m => w.accRead (1024 * r.dunit + m * (r.n * r.accSize)) (r.n * r.accSize)
  (List.zip rows old).foldr (fun x acc =>
    (List.zip cols (chunks r.accSize x.2)).foldr (fun y acc => leBytes r.accSize (r.step y.2 x.1 y.1) ++ acc) acc) []

/-- The scratchpad pages of an operand brought back (R224, R340), as far as their backing can be reached (R311, R350). -/
def State.refillRange (s : State) (wg off n : Nat) : State :=
  (pagesOf off n).foldl (fun s p => if s.pageCut wg (4096 * p) 1 then s else s.refill wg p) s

/-- The refill of a page that an `mma` reads fails (R311, R350). -/
def State.refillFails (s : State) (wg : Nat) (r : MmaRec) : Bool :=
  s.pageCut wg r.aoff r.aBytes || s.pageCut wg r.boff r.bBytes || (r.a.sty != 0 && s.pageCut wg r.a.soff r.aScale) ||
    (r.b.sty != 0 && s.pageCut wg r.b.soff r.bScale)

/-- The pages an `mma` reads brought back. -/
def State.refillMma (s : State) (wg : Nat) (r : MmaRec) : State :=
  let s := (s.refillRange wg r.aoff r.aBytes).refillRange wg r.boff r.bBytes
  let s := if r.a.sty = 0 then s else s.refillRange wg r.a.soff r.aScale
  if r.b.sty = 0 then s else s.refillRange wg r.b.soff r.bScale

/-- Clocks of one K-step (R343). -/
def MmaRec.stepClocks (r : MmaRec) : Nat :=
  let n := match r.a.ety with
    | 11 => 512
    | 8 | 9 => 16
    | 14 => r.a.bl / 8
    | _ => r.a.bl / 4
  n * (r.m / 128) * (r.n / 192)

/-- The K-steps of an operation are done: the engine drains (R343). -/
def MatOp.drains (m : MatOp) : Bool := let r := mmaRec m.record; r.k / r.a.bl ≤ m.kdone

/-- A member of an operation is resident. -/
def State.matResident (s : State) (m : MatOp) : Bool :=
  s.groups.any fun (p : Nat × Group) => p.2.wg == m.wg && m.members.contains p.2.gidx && !p.2.saved

/-- The next step of an operation begins, or its drain of 16 clocks; none begins once its members are saved (R343, R352). -/
def State.matGo (s : State) (m : MatOp) : State :=
  let go := m.drains || s.matResident m
  s.putMat { m with going := go, next := s.clk + (if m.drains then 16 else if go then (mmaRec m.record).stepClocks else 1) }

/-- The matrix engine begins an operation, completes one K-step of it, or ends it once drained (R343, R344, R350). -/
def State.matStep (s : State) (m : MatOp) : State :=
  if !m.going then s.matGo m
  else if m.drains then (if m.pz then s.matPoison m else s).endMat m
  else
    let r := mmaRec m.record
    let fails := s.refillFails m.wg r
    let s := s.refillMma m.wg r
    let w := s.wgOf m.wg
    let s := s.modWg m.wg fun w => w.accWrite (1024 * r.dunit) (r.tile w m.kdone)
    s.matGo { m with kdone := m.kdone + 1, pz := m.pz || fails || r.reads w m.kdone }

/-- Whether an operation may take its next step: it is the first of its hearth, and nothing earlier holds it back (R252,
R340, R351). -/
def State.matReady (s : State) (m : MatOp) : Bool :=
  ((s.matsOf m.hearth).head?.map (·.id)) == some m.id && !s.behind m.hearth m.id && !s.precedes m.wg m.members m.id

/-- The matrix engine completes one K-step (R344): `ev.a` names the operation. -/
def execMmaKstep (s : State) : Res :=
  onEvent s fun s =>
    match s.mats.find? fun m => m.id == s.ev.a && m.kind == .mma with
    | some m => if s.matReady m then s.matStep m else s.setMat m
    | none => s

/-! ### One unit of an accumulator command (R339, R348–R350, R352) -/

/-- Units of accumulator memory written, with their mark (R350). -/
def State.putUnit (s : State) (wg u : Nat) (data : List Byte) (pz : Bool) : State :=
  s.modWg wg fun w =>
    { w.accWrite (1024 * u) data with accPz := if pz then addOnce w.accPz u else w.accPz.filter (· != u) }

/-- The address at which an engine's transfer stopped, or its result. -/
inductive Moved (α : Type) where
  | ok (x : α)
  | wait
  | stop (at_ : W64) (x : α)

/-- The bytes of a unit read for `accld`, with poison, up to a page that fails (R349). -/
def State.unitRead (s : State) (m : MatOp) (owner : Nat × Nat) : Nat → W64 → Nat → State × Moved (List Byte × Bool)
  | 0, _, _ | _, _, 0 => (s, .ok ([], false))
  | fuel + 1, va, n + 1 =>
    let c := min (n + 1) (8 - va.toNat % 8)
    match s.engineRead m.hearth m.ctx m.id owner va c with
    | (s, .wait) => (s, .wait)
    | (s, .fault _) => (s, .stop va ([], false))
    | (s, .ok (b, z)) =>
      match s.unitRead m owner fuel (va + BitVec.ofNat 64 c) (n + 1 - c) with
      | (s, .ok (r, y)) => (s, .ok (b ++ r, z || y))
      | (s, .stop a (r, y)) => (s, .stop a (b ++ r, z || y))
      | x => x

/-- The translations of a unit's runs for `accst`, up to a page that fails (R349). -/
def State.unitChecks (s : State) (m : MatOp) :
    List (Nat × List Byte × Bool) → State × Moved (List (W64 × Tr × List Byte × Bool))
  | [] => (s, .ok [])
  | (a, b, z) :: r =>
    match s.engineWrite m.hearth m.ctx (BitVec.ofNat 64 a) with
    | (s, .wait) => (s, .wait)
    | (s, .fault _) => (s, .stop (BitVec.ofNat 64 a) [])
    | (s, .ok t) =>
      if t.creg.isSome then (s, .stop (BitVec.ofNat 64 a) [])
      else
        match s.unitChecks m r with
        | (s, .ok l) => (s, .ok ((BitVec.ofNat 64 a, t, b, z) :: l))
        | (s, .stop x l) => (s, .stop x ((BitVec.ofNat 64 a, t, b, z) :: l))
        | x => x

/-- The words of a unit rounded to the destination format of `accst` (R339, R348). -/
def accOut (fmt : Nat) (b : List Byte) : List Byte :=
  match fmt with
  | 0 => b
  | _ =>
    (chunks 4 b).foldr (fun w acc => leBytes 2 (roundTo (if fmt = 1 then bf16 else f16) (f32.decode (leNat w)) 1 false) ++ acc) []

/-- An operation that meets a failing page stops with the matrix fault; its group is suspended (R349), and a `cpcont` it has yielded at is
left unexecuted. -/
def State.matFault (s : State) (m : MatOp) (at_ : W64) : State :=
  let k := 128 * m.hearth + m.gslot
  let wr := m.kind == .accst
  (m.members.foldl (fun s i => s.modOwner (m.wg, i) fun g => { g with spent := g.spent ++ [m.id], yielded := none })
    ((s.engineRecord k 0x16 at_ wr).suspendLater k 0x16 at_ wr)).endMat m

/-- One unit of an operation done; a store's completion also waits for its writes (R253). -/
def State.unitDone (s : State) (m : MatOp) : State :=
  let m' := { m with kdone := m.kdone + 1 }
  if m.n ≤ m'.kdone && !s.writesOf m.id && !s.mats.any (fun x => x.id == m.id && s.clk < x.late) then s.endMat m else s.setMat m'

/-- The next unit of an accumulator command. -/
def State.accStep (s : State) (m : MatOp) : State :=
  let u := m.u + m.kdone
  let va := m.d + BitVec.ofNat 64 (m.kdone * accUnitBytes m.fmt)
  match m.kind with
  | .accld =>
    match s.unitRead m (m.wg, m.members.headD 0) 1025 va 1024 with
    | (t, .wait) => (t.undoTrace s).setMat m
    | (s, .stop a (b, z)) =>
      (if b.isEmpty then s
        else s.modWg m.wg fun w => { w.accWrite (1024 * u) b with accPz := if z then addOnce w.accPz u else w.accPz }).matFault m a
    | (s, .ok (b, z)) => (s.putUnit m.wg u b z).unitDone m
  | .accst =>
    let w := s.wgOf m.wg
    let out := accOut m.fmt (w.accRead (1024 * u) 1024)
    let send := fun (s : State) (l : List (W64 × Tr × List Byte × Bool)) =>
      l.foldl (fun s x => s.engineStore m.hearth m.ctx m.id x.1 x.2.1 x.2.2.1 x.2.2.2) s
    match s.unitChecks m (runsFrom ((enumFrom va.toNat out).map fun e => (e.1, e.2, w.accPz.contains u))) with
    | (s, .wait) => s.setMat m
    | (s, .stop a l) => (send s l).matFault m a
    | (s, .ok l) => (send s l).unitDone m
  | _ => (s.putUnit m.wg u (List.replicate 1024 0) false).unitDone m

/-- The matrix engine completes one unit of an accumulator command (R348): `ev.a` names the operation. -/
def execAccUnit (s : State) : Res :=
  onEvent s fun s =>
    match s.mats.find? fun m => m.id == s.ev.a && m.kind != .mma with
    | some m =>
      if !s.matReady m then s.setMat m
      else if m.n ≤ m.kdone then (if s.writesOf m.id || s.clk < m.late then s.setMat m else s.endMat m)
      else s.accStep m
    | none => s

end Sys2Proof.Machine
end

