-- ==== Sys2Proof/Machine/MemEvents.lean ====
section
/-! DEFINITION. The events of home slices, leases, lending, the directory, links and errors on the way
(R228–R233, R308–R318). -/

namespace Sys2Proof.Machine

/-! ### Reads and writes at the home (R230) -/

/-- A line whose waiting reads may be served: nothing is pending there and it is not lent (R230). -/
def State.servable (s : State) (key : Nat) : Bool :=
  ((s.home key).waiting.any fun w => !s.waitsOn key w) && (s.home key).lent.isNone && !s.readWaits 0 key

/-- Reads that wait at a home are served with leases (R230): `ev.a` the line. -/
def execHomeReadRequest (s : State) : Res :=
  onEvent s fun s => if s.servable s.ev.a then s.serveWaiting s.ev.a else s

/-- The transit of a write is over, and no earlier write of its agent to the line is still on its way (R228, R384). -/
def State.atHome (s : State) (p : Pend) : Bool :=
  !p.arrived && !p.isLost && !s.noAnswer p.ctx p.hearth p.key p.id && p.issued + s.transitOf p.ctx p.hearth p.key p.id ≤ s.clk &&
    !s.pend.any fun q => q.id < p.id && !q.arrived && !q.isLost && q.key == p.key && q.owner == p.owner && (p.owner.isSome || q.blk == p.blk)

/-- A write may arrive now; at another module its answer must be in a replay's log (R323, R334). -/
def State.mayArrive (s : State) (p : Pend) : Bool := s.atHome p && (!isOther (keyPa p.key) || s.answerReady p)

/-- A write or atomic arrives at its home (R230, R310): `ev.a` its identifier. -/
def execHomeWriteArrival (s : State) : Res :=
  onEvent s fun s =>
    match s.pend.find? fun p => p.id == s.ev.a with
    | some p => if s.mayArrive p then s.arrive p else s
    | none => s

/-- The first pending write of a line is performed (R230): `ev.a` the line. -/
def execWritePerformed (s : State) : Res := onEvent s fun s => s.performFirst s.ev.a false

/-- The first pending atomic of a line is performed at its home (R102, R232): `ev.a` the line. -/
def execHomeAtomic (s : State) : Res := onEvent s fun s => s.performFirst s.ev.a true

/-- A copy's lease has ended (R230). -/
def L1Line.ended (l : L1Line) (now : Nat) : Bool := l.exp.any fun e => e ≤ now

/-- Copies whose lease has ended are dropped without a message (R193, R230, R231): those of hearth `ev.a`, or with `ev.flag`
every sector copy. -/
def execLeaseExpiry (s : State) : Res :=
  onEvent s fun s =>
    if s.ev.flag then { s with sectors := s.sectors.filter fun (p : Nat × Nat) => s.now < p.2 }
    else s.l1Drop s.ev.a fun l => l.ended s.now

/-! ### Lending a line (R233) -/

/-- A line may go to the hearth the home means to lend it to: every lease has passed, no other die may hold a copy, and nothing is on
its way to it. -/
def State.mayLend (s : State) (key : Nat) : Bool :=
  let x := s.home key
  x.lendTo.isSome && x.lent.isNone && x.exp ≤ s.now && x.waiting.isEmpty && !s.pend.any (·.key == key) && !s.readWaits 0 key &&
    s.sharers (regionOf key) == 0 && (s.markOn key).isNone

/-- The home lends a line to a hearth as its only copy (R233): `ev.a` the line. -/
def execLendLine (s : State) : Res :=
  onEvent s fun s =>
    let key := s.ev.a
    match (s.home key).lendTo with
    | some h =>
      if s.mayLend key then
        (((s.touchL2 key false (s.cmprMark key)).modHome key fun x => { x with lent := some h, lendTo := none, pred := none }).dropOwn h
          key).l1Install h { kind := .lent, key := key }
      else s
    | none => s

/-- Another agent waits for a lent line: a write, a read, a snoop, the directory, or a freeze of its page (R233, R298). -/
def State.mustRecall (s : State) (key : Nat) : Bool :=
  let x := s.home key
  x.lent.isSome && !x.recalled &&
    (!x.waiting.isEmpty || s.pend.any (fun p => p.key == key && p.arrived) || s.snooped key || s.rebuilding key ||
      s.invals.any (·.key == key) || (s.markOn key).isSome)

/-- The home recalls a lent line (R233): `ev.a` the line. -/
def execLineRecall (s : State) : Res :=
  onEvent s fun s => if (s.home s.ev.a).lent.isSome then s.modHome s.ev.a fun x => { x with recalled := true } else s

/-- Event kinds of the log (R318). -/
def logLink : Nat := 1
def logSharer : Nat := 2
def logDirectory : Nat := 3
def logSoft : Nat := 4
def logRefused : Nat := 5
def logTimeout : Nat := 6
def logFreeze : Nat := 7
def logStop : Nat := 8

/-- The number of a structure's error counter of a die (R318). -/
def errCounter (die structure_ : Nat) (uncorrectable : Bool) : Nat := 64 * die + 2 * structure_ + (if uncorrectable then 1 else 0)

/-- A region whose invalidations are all acknowledged and whose lines are home is open again; a rebuilt entry is empty, and its
error is logged and reported (R309, R312). -/
def State.regionDone (s : State) (region : Nat) : State :=
  let busy := s.invals.any (fun i => regionOf i.key == region && !isCodecKey i.key) ||
    (regionKeys region).any fun k => (s.home k).lent.isSome
  match s.rebuild.find? fun p => p.1 == region with
  | some p =>
    if busy then s
    else
      let s := { s with rebuild := s.rebuild.filter fun q => q.1 != region }
      if p.2 then
        ({ s with dirs := tabDel s.dirs region }.count (errCounter (homeOf (1024 * region)).1 8 true)).devError logDirectory region
      else s
  | none => s

/-- The borrowing hearth returns a lent line (R233): `ev.a` the line. -/
def execLineReturn (s : State) : Res :=
  onEvent s fun s =>
    let key := s.ev.a
    match (s.home key).lent with
    | some _ => (s.returnLine key).regionDone (regionOf key)
    | none => s

/-- A scratchpad page returns from its backing (R224): `ev.a` the workgroup, `ev.b` the page. -/
def execScratchpadRefill (s : State) : Res := onEvent s fun s => s.refill s.ev.a s.ev.b

/-! ### Other dies (R308–R312) -/

/-- Another die's access ends the predictor's count (R233). -/
def State.otherDie (s : State) (key : Nat) : State := s.modHome key fun x => { x with pred := none, lendTo := none }

/-- A die takes a remote copy through its bridge (R308, R309): `ev.a` the die, `ev.b` the line, `ev.flag` its page's compression. -/
def execRemoteRead (s : State) : Res :=
  onEvent s fun s =>
    let (d, key) := (s.ev.a, s.ev.b)
    let other := d < 4 && d != (homeOf key).1 && !isCodecKey key && bits (keyPa key) 50 2 == 0 && (s.frozenGen key).isNone
    if other && !s.fenced d key && !s.readWaits 0 key && (s.home key).lent.isNone then ((s.otherDie key).touchL2 key false s.ev.flag).takeRemote d key else s

/-- A sharer die receives an invalidation (R195, R310): `ev.a` the die, `ev.b` the line. It drops its copy and the view lines
derived from it, and may acknowledge after the latest sub-lease it granted from the copy, or after DROPEXP. -/
def execInvalidation (s : State) : Res :=
  onEvent s fun s =>
    let (d, key) := (s.ev.a, s.ev.b)
    let at_ := (tabGet s.remotes (4 * key + d)).getD (s.dropExp d (homeOf key).2)
    let s := (List.range 36).foldl (fun s h => s.killViews (36 * d + h) key) (s.takeBack d key)
    { s with invals := s.invals.map fun i => if i.die = d && i.key = key && !i.dropped then { i with dropped := true, ackAt := at_ } else i }

/-- The home's directory loses a sharer that holds no line of the region any more (R310). -/
def State.clearSharer (s : State) (d key : Nat) : State :=
  let r := regionOf key
  if (tabGet s.filters (4 * r + d)).isSome then s
  else
    let b := setBit (s.sharers r) d false
    { s with dirs := if b = 0 then tabDel s.dirs r else tabSet s.dirs r b }

/-- A sharer's acknowledgement reaches the home (R310): `ev.a` the die, `ev.b` the line. -/
def execInvalidationAck (s : State) : Res :=
  onEvent s fun s =>
    let (d, key) := (s.ev.a, s.ev.b)
    if s.invals.any fun i => i.die == d && i.key == key && i.dropped && i.ackAt ≤ s.now then
      (({ s with invals := s.invals.filter fun i => !(i.die == d && i.key == key) } : State).clearSharer d key).regionDone (regionOf key)
    else s

/-- A die's copies of lines homed on another die dropped: remote copies, replicas, L1 copies and view lines (R311). -/
def State.dropHomed (s : State) (d e : Nat) : State :=
  let far := fun (key : Nat) => (homeOf key).1 == e
  let s := (s.remotes.filter fun (p : Nat × Nat) => p.1 % 4 == d && far (p.1 / 4)).foldl (fun s p => s.dropRemote d (p.1 / 4)) s
  let s := { s with replicas := s.replicas.filter fun (p : Nat × Nat) => !(p.1 % 4 == d && (s.sliceOf (keyPa (p.1 / 4))).1 == e) }
  let s : State :=
    { s with projs := s.projs.map fun p => if dieOf p.hearth = d && p.deps.any far then { p with stale := true } else p }
  (List.range 36).foldl (fun s h => s.l1Drop (36 * d + h) fun l =>
    ((l.kind == .leased || l.kind == .codec) && far l.key) || (l.kind == .view && l.deps.any far)) s

/-- The link of a die to another. -/
def State.link (s : State) (d e : Nat) : Link := tabD s.links (4 * d + e) {}

/-- The projections that have latent lines left across a dead link are given up: their `ldv` instructions issue again and fault (R311). -/
def State.cutProjs (s : State) : State := s.dropProjs fun p => p.left.any fun x => s.fenced (dieOf p.hearth) (physKey x.1)

/-- A link between two dies is dead (R311): both ends drop what they hold across it and are fenced. -/
def State.killLink (s : State) (d e : Nat) : State :=
  let s : State :=
    { s with
      links := tabSet (tabSet s.links (4 * d + e) { s.link d e with dead := true }) (4 * e + d) { s.link e d with dead := true },
      fences := if s.fences.contains (d, e) then s.fences else s.fences ++ [(d, e)] }
  (((s.dropHomed d e).dropHomed e d).cutProjs).logE logLink (4 * d + e)

/-- A die-to-die link is declared dead (R311): `ev.a` and `ev.b` the dies. -/
def execLinkDeath (s : State) : Res :=
  onEvent s fun s => if s.ev.a < 4 && s.ev.b < 4 && s.ev.a != s.ev.b then s.killLink s.ev.a s.ev.b else s

/-- A sharer has not acknowledged for 2 µs (R311): `ev.a` the die, `ev.b` the line. It counts as fenced and the write goes on. -/
def execSharerAckTimeout (s : State) : Res :=
  onEvent s fun s =>
    let (d, key) := (s.ev.a, s.ev.b)
    if s.invals.any fun i => i.die == d && i.key == key && i.sent + 2000 ≤ s.now then
      let e := (homeOf key).1
      let s : State :=
        { s with
          invals := s.invals.filter fun i => !(i.die == d && i.key == key),
          fences := if s.fences.contains (d, e) || s.fences.contains (e, d) then s.fences else s.fences ++ [(d, e)] }
      ((s.clearSharer d key).cutProjs.regionDone (regionOf key)).devError logSharer d
    else s

/-- A directory entry cannot be corrected (R312): every other die counts as a sharer of every line, and the region waits for
the rebuild. -/
def State.directoryError (s : State) (region : Nat) : State :=
  let dies := [0, 1, 2, 3].filter (· != (homeOf (1024 * region)).1)
  let s := (regionKeys region).foldl (fun s k =>
    s.sendInvals k (dies.filter fun d => !s.invals.any fun i => i.die == d && i.key == k)) s
  { s with
    dirs := tabSet s.dirs region (dies.foldl (fun b d => setBit b d true) 0),
    rebuild := (s.rebuild.filter fun p => p.1 != region) ++ [(region, true)] }

/-- A directory entry's uncorrectable error (R312): `ev.a` the region. -/
def execDirectoryEccError (s : State) : Res := onEvent s fun s => s.directoryError s.ev.a

/-- A remote filter entry evicted with the copies it names (R309). -/
def State.evictFilter (s : State) (d region : Nat) : State :=
  (regionKeys region).foldl (fun s k => s.dropRemote d k) s

/-! ### Links and errors on the way (R316, R318) -/

/-- A port changed. -/
def State.modPort (s : State) (p : Nat) (f : Port → Port) : State := { s with ports := tabSet s.ports p (f (tabD s.ports p {})) }

/-- A Benud port is declared dead (R316, R325, R328). -/
def Port.die (p : Port) (now : Nat) : Port := { p with up := false, dead := true, deaths := min (p.deaths + 1) (2 ^ 64 - 1), change := now, run := 0 }

/-- A received flit fails its CRC and is repeated; after eight failed repeats the link is dead (R316): `ev.a` the port, or with
`ev.flag` the die whose link to die `ev.b` it is; `ev.c` is 1 for a repeat of the same flit. -/
def execFlitCrcFail (s : State) : Res :=
  onEvent s fun s =>
    let again := fun run => if s.ev.c = 1 then run + 1 else 1
    if s.ev.flag then
      let l := s.link s.ev.a s.ev.b
      if 9 ≤ again l.run then s.killLink s.ev.a s.ev.b
      else { s with links := tabSet s.links (4 * s.ev.a + s.ev.b) { l with run := again l.run, repeats := l.repeats + 1 } }
    else
      s.modPort s.ev.a fun p =>
        if 9 ≤ again p.run then p.die s.now else { p with run := again p.run, repeat_ := min (p.repeat_ + 1) (2 ^ 64 - 1) }

/-- One of the four parts of an L1 line of a hearth, named by set and way as R329 does, poisoned (R318): a lent or private line's bytes are
lost there, a copy's or a view line's only in the line. -/
def State.loseL1 (s : State) (h line part : Nat) : State :=
  match (s.l1Lines h (line / 12)).drop (line % 12) with
  | [] => s
  | l :: _ =>
    match l.kind with
    | .lent => s.poke (keyPa l.key + 32 * part) (List.replicate 32 0) true
    | .priv =>
      match s.privOwner h l.key with
      | some (k, g) => s.modG k fun x => { x with privPz := addOnce x.privPz ((keyPa l.key - g.pb) / 32 + part) }
      | none => s
    | _ =>
      { s with
        l1 := tabMod s.l1 (512 * h + line / 12) fun ls => ls.map fun x => if x = l then { x with pz := setBit x.pz part true } else x }

/-- An HBM error found as a line is expanded into L2 (R315): the corrected line is written back, and every granule of one that cannot
be corrected is poisoned. A line that L2 holds is not read. -/
def State.hbmError (s : State) (pa : Nat) (lost : Bool) : State :=
  if bits pa 50 2 != 0 || (tabGet s.l2 (pa / 128 * 128)).isSome then s
  else
    let line := pa / 128 * 128
    let s := match s.backingOf line with
      | some r => s.touchBacking r line 128 true
      | none => s.touchL2 (physKey line) true (s.cmprMark (physKey line))
    if lost then s.poke line (List.replicate 128 0) true else s

/-- An uncorrectable error in each structure of R315 and R318: registers, L1 line (4 × (12 × set + way) + part), L2 granule, of the home's
line or, with c from 1 to 3, of a sector copy, remote copy or replica (4 × its number + part), scratchpad granule, accumulator unit, view
entry, translation or walk cache, directory, remote filter, scheduler state, HBM line. -/
def State.lose (s : State) (structure_ b c : Nat) : State :=
  match structure_ with
  | 0 => s.modG b fun g => if c = 0 then g else { g with s := tabSet g.s c { tabD g.s c {} with pz := true } }
  | 1 => s.modG b fun g => { g with v := tabSet g.v c { tabD g.v c {} with pz := true } }
  | 2 => s.loseL1 b (c / 4) (c % 4)
  | 3 => if c = 0 then s.poke (32 * b) (List.replicate 32 0) true else s.loseCopy (c - 1) (b / 4) (b % 4)
  | 4 => s.modWg b fun w => { w with spPz := addOnce w.spPz c }
  | 5 => s.modWg b fun w => { w with accPz := addOnce w.accPz c }
  | 6 => { s with vstore := tabMod s.vstore b fun e => { e with pz := true } }
  | 7 => if c = 1 then { s with walkc := s.walkc.eraseIdx b } else { s with tlb := s.tlb.eraseIdx b }
  | 8 => s.directoryError b
  | 9 => s.evictFilter b c
  | 11 => s.hbmError b true
  | _ =>
    ({ s with
        groups := s.groups.map fun (p : Nat × Group) =>
          if hearthOf p.1 = b && p.2.susp.isNone then (p.1, { p.2 with susp := some { code := 0 } }) else p } : State).irq 0

/-- A soft error, or one of HBM (R315, R318): `ev.a` the structure, `ev.b` and `ev.c` the place in it, `ev.d` the die, `ev.flag`
uncorrectable. A corrected one is counted; an uncorrectable one is counted, handled by structure and logged. A directory entry's is
counted as its region is rebuilt (R312). -/
def execSoftError (s : State) : Res :=
  onEvent s fun s =>
    let s' := if s.ev.flag && s.ev.a == 8 then s else s.count (errCounter s.ev.d s.ev.a s.ev.flag)
    if s.ev.flag then (s'.lose s.ev.a s.ev.b s.ev.c).logE logSoft s.ev.a
    else if s.ev.a = 11 then s'.hbmError s.ev.b false
    else s'

/-! ### Lines that leave L2 (R224, R229, R313, R314) -/

/-- A line leaves L2 for HBM in its smallest exact form, once it is recalled if it is lent; a retained line stays while another line
of its set is there (R224, R233, R314): `ev.a` the line's address. With `ev.flag` a copy leaves instead (R301, R309): `ev.a` is 1 for
a sector copy, 2 for a remote copy, 3 for a replica, `ev.b` its number. -/
def execL2Eviction (s : State) : Res :=
  onEvent s fun s =>
    if s.ev.flag then
      s.l2Drop (match s.ev.a with
        | 1 => .sector s.ev.b
        | 2 => .remote s.ev.b
        | _ => .replica s.ev.b)
    else
      let pa := s.ev.a / 128 * 128
      match tabGet s.l2 pa with
      | none => s
      | some l =>
        if l.retained && (s.l2In (l.at_ pa) (l2Set pa)).any fun o => !s.retains o then s else s.lineOut pa

end Sys2Proof.Machine
end

