-- ==== Sys2Proof/Machine/Fabric.lean ====
section
/-! DEFINITION. The host link, host memory and snoops, other modules, device time, ports, boot, coolant and the trace ring
(R3, R6, R7, R300, R306, R319–R327, R333–R335). -/

namespace Sys2Proof.Machine

/-! ### Boot, coolant, thermal stop (R6, R7, R326, R327) -/

/-- n bytes of flash from an offset; a byte never written is 0 (log 5). -/
def State.flashBytes (s : State) (off n : Nat) : List Byte := (List.range n).map fun i => tabD s.flash (off + i) 0

/-- Whether the boot ROM accepts the firmware image (R326). -/
def State.imageOk (s : State) : Bool :=
  let size := leNat (s.flashBytes 8 8)
  let key := s.flashBytes 16 2592
  let body := s.flashBytes 7264 size
  s.flashBytes 0 4 == [0x47, 0x4C, 0x46, 0x57] && Config.sha3 key == Config.fusedDigest &&
    Config.antiRollback.toNat ≤ leNat (s.flashBytes 4 4) &&
    Config.mlDsaVerify key (leBytes 64 (Config.sha3 (s.flashBytes 0 16 ++ body)).toNat) (s.flashBytes 2608 4627)

/-- The boot ROM runs the image and measures it, or enters recovery (R326, R327). -/
def execBoot (s : State) : Res :=
  onEvent s fun s =>
    if s.imageOk then
      { s with
        booted := true, recovery := false, svn := BitVec.ofNat 32 (leNat (s.flashBytes 4 4)),
        measure := Config.sha3 (s.flashBytes 0 (7264 + leNat (s.flashBytes 8 8))) }
    else { s with booted := false, recovery := true }

/-- Management firmware confirms coolant flow (R6). -/
def execCoolantConfirm (s : State) : Res := onEvent s fun s => { s with coolant := true }

/-- A temperature or the flow leaves its range: the module is stopped and the device error interrupt raised (R7). -/
def execThermalStop (s : State) : Res := onEvent s fun s => ({ s with stopped := true } : State).devError logStop 0

/-! ### Links (R3, R319, R320, R324, R328) -/

/-- The host link trains (R319, R320): `ev.a` lanes, `ev.flag` whether the host offers CXL 3.x. -/
def execHostLinkTraining (s : State) : Res :=
  onEvent s fun s => { s with linkLanes := if 16 ≤ s.ev.a then 16 else 8, cxl := s.ev.flag }

/-- A Benud port starts to carry traffic (R328): `ev.a` the port, `ev.b` its live lanes. -/
def execPortUp (s : State) : Res :=
  onEvent s fun s =>
    if s.ev.a < 36 then
      s.modPort s.ev.a fun p =>
        { p with up := true, dead := false, lanes := min s.ev.b 4, run := 0, change := if p.up && !p.dead then p.change else s.now }
    else s

/-- A device-time alignment message (R3, R324): `ev.a` the fabric's time, `ev.b` the port it comes by, which counts it (R328). It sets the
clock of a module that does not run yet; once it runs, device time is locked to its clock and in step with the fabric, and the message
changes nothing (R3, R7; log 26). -/
def execTimeAlign (s : State) : Res :=
  onEvent s fun s =>
    let s := if s.ev.b < 36 then s.modPort s.ev.b fun p => { p with rx := moreFlits p.rx s.clk 4 } else s
    if s.coolant then s else { s with timeBase := s.timeBase + (s.ev.a - s.now) }

/-! ### The trace ring (R333–R335) -/

/-- The ring is full (R335). -/
def Recd.full (r : Recd) : Bool := (r.tail + 32) % max r.tsize 32 == r.head

/-- A trace record can be written, or STALLED set for want of room, or the write of one may have been performed (R333, R335). -/
def State.traceGoes (s : State) : Bool :=
  !s.recd.pend.isEmpty && if s.recd.sent then !s.ownBusy ownTrace else !s.recd.full || !s.recd.stalled

/-- A trace record is written at TAIL, which advances once the write is performed; STALLED is set once the ring is full: then the context
stalls (R333, R335). -/
def execTraceRecord (s : State) : Res :=
  onEvent s fun s =>
    match s.recd.pend with
    | [] => s
    | b :: r =>
      if !s.recd.sent && s.recd.full then { s with recd := { s.recd with stalled := true } }
      else
        let s := if s.recd.sent then s else s.storeOwn ownTrace (s.recd.tbase + s.recd.tail) b
        if s.ownBusy ownTrace then { s with recd := { s.recd with sent := true } }
        else
          let d := { s.recd with pend := r, sent := false, tail := (s.recd.tail + 32) % max s.recd.tsize 32, count := s.recd.count + 1 }
          { s with recd := { d with stalled := d.stalled || d.full } }

/-- The numbers from which the model writes offsets of BAR2 and of BAR0 as addresses of a record: none of them is a physical address (log
66). -/
def bar2Base : Nat := 2 ^ 52
def bar0Base : Nat := 2 ^ 53

/-- A host write of the trace ring's HEAD (R335): `ev.a`. STALLED goes once there is room, or a record to read. -/
def execRecordedHeadWrite (s : State) : Res :=
  onEvent s fun s =>
    let s := s.traceDatum 0 (bar0Base + 0x2020) (leBytes 8 s.ev.a)
    let r := { s.recd with head := s.ev.a % max s.recd.tsize 32 / 32 * 32 }
    let go := if r.replay then r.tail != r.head else !r.full
    { s with recd := { r with stalled := r.stalled && !go, hold := r.hold && !go } }

/-- Whether an address lies in this module's HBM. -/
def ownHbm (pa : Nat) : Bool := bits pa 50 2 == 0 && !frameForbidden pa && pa < 2 ^ 52

/-- A record of an inbound datum is one that came from outside, not a read of the context's own. -/
def fromOutside (b : List Byte) : Bool := recType b == 2 && (ownHbm (recWord b 0) || bar2Base ≤ recWord b 0)

/-- The inbound datum a replay's next record holds at this clock, once all of it is in the ring (R334): address and bytes. -/
def State.replayDatum (s : State) : Option (Nat × List Byte) :=
  match s.nextRecord with
  | some b =>
    let n := recWord b 1
    if s.recd.active && s.recd.replay && !s.recd.mismatch && fromOutside b && s.logHolds (datumRecords n) &&
        recClock b = s.runClock s.recd.ctx then
      some (recWord b 0, (List.range n).map fun i => s.logByte (32 + i))
    else none
  | none => none

/-- A replay has run past the clock of its next record, which is no event of it (R334). -/
def State.replayMissed (s : State) : Bool :=
  s.recd.active && s.recd.replay && !s.recd.mismatch && s.nextRecord.any fun b => decide (recClock b < s.runClock s.recd.ctx)

/-! ### Requests from outside (R300, R306, R320, R323) -/

/-- A write or atomic of an outside agent that has reached its home: refused at a frozen home and logged with its writer and address,
else one more agent's access (R300, R306, R320, R323). -/
def State.outsideWrite (s : State) (src : Option Nat) (pa : Nat) (kind : PKind) : State :=
  if s.refuses pa src then
    ({ s with refused := min (s.refused + 1) (2 ^ 64 - 1) } : State).devError logRefused 0 pa ((src.map (· + 1)).getD 0)
  else
    let p : Pend :=
      { id := s.nextId, key := physKey pa, ctx := noCtx, owner := none, arrived := false, issued := s.clk, va := 0, blk := 0,
        acq := false, kind := kind }
    ({ s.newId with pend := s.pend ++ [p] } : State).arrive p

/-- A read of an outside agent: the home means to lend no longer, and a lent line is recalled (R233). -/
def State.outsideRead (s : State) (pa : Nat) : State :=
  s.modHome (physKey pa) fun x => { x with pred := none, lendTo := none, recalled := x.recalled || x.lent.isSome }

/-- Bytes written from outside, line by line. -/
def State.outsideStore (s : State) (src : Option Nat) (pa : Nat) (data : List Byte) : State :=
  (linePieces pa (data.length + 1) data).foldl (fun s p => if ownHbm p.1 then s.outsideWrite src p.1 (.store p.1 p.2 false) else s)
    (s.traceDatum (bits pa 38 2) pa data)

/-- Bytes written into BAR2 by the host link, which a recording logs (R319, R333, R369). -/
def State.bar2Store (s : State) (off : Nat) (data : List Byte) : State :=
  { s.traceDatum 0 (bar2Base + off) data with bar2 := tabPut s.bar2 off data }

/-- The atomics of the host that the device completes: FetchAdd, Swap and CAS of 32 or 64 bits (R319). -/
def hostAtomic (op w : Nat) : Bool := (op == 0 || op == 6 || op == 7) && (w == 4 || w == 8)

/-- An atomic request from outside: `d` is operation + 16 × type + 1024 × width in bytes; data operand and comparand of 8 bytes each. -/
def atomicKind (pa d : Nat) (data : List Byte) : PKind :=
  .atomic pa (d / 1024) (d % 16) (d / 16 % 64) (BitVec.ofNat 64 (leNat (data.take 8))) (BitVec.ofNat 64 (leNat ((data.drop 8).take 8))) .none

/-- An AtomicOp of the host, at its line's home under CXL and in BAR2 in plain PCIe mode (R319, R320). -/
def State.hostAtomicOp (s : State) (a d : Nat) (data : List Byte) : State :=
  let w := d / 1024
  if !hostAtomic (d % 16) w then s
  else if s.cxl then (if ownHbm a then s.outsideWrite none a (atomicKind a d data) else s)
  else
    let old := leNat ((List.range w).map fun i => tabD s.bar2 (a + i) 0)
    match atomicNew (d % 16) (d / 16 % 64) w old (leNat (data.take 8)) (leNat ((data.drop 8).take 8)) with
    | some x => s.bar2Store a (leBytes w x)
    | none => s

/-- A host request (R319, R320): `ev.flag` a write of `ev.data` at `ev.a`, with `ev.c` = 1 an atomic of operation `ev.d`, else a read. Under
CXL.mem it reaches this module's HBM; plain PCIe exposes none of it, and in recovery only BAR0 answers (R326). With `ev.b` = 1 it is
the datum a replay takes from its log, and a record that the replay has run past is a mismatch (R334). -/
def execHostMemoryRequest (s : State) : Res :=
  onEvent s fun s =>
    if s.ev.b = 1 then
      match s.replayDatum with
      | some (pa, data) =>
        let s := s.consumeRecords (datumRecords data.length)
        if bar2Base ≤ pa then s.bar2Store (pa - bar2Base) data else s.outsideStore none pa data
      | none => if s.replayMissed then s.mismatch else s
    else if s.recovery then s
    else if s.ev.c = 1 then s.hostAtomicOp s.ev.a s.ev.d s.ev.data
    else if !s.cxl then s
    else if s.ev.flag then s.outsideStore none s.ev.a s.ev.data
    else if ownHbm s.ev.a then s.outsideRead s.ev.a else s

/-- A request of another module, over the port its line's traffic goes by (R323, R328): `ev.a` the address, `ev.b` the module, `ev.c` 0
load, 1 store, 2 atomic of operation `ev.d`. With no live port, or in recovery, none comes (R325, R326). -/
def execFabricRequest (s : State) : Res :=
  onEvent s fun s =>
    let pa := s.ev.a
    if s.recovery || (s.portOf (physKey pa)).isNone then s
    else
      let s := s.carry (physKey pa) false
      match s.ev.c with
      | 0 => if ownHbm pa then s.outsideRead pa else s
      | 1 => s.outsideStore (some s.ev.b) pa s.ev.data
      | _ => if ownHbm pa then s.outsideWrite (some s.ev.b) pa (atomicKind pa s.ev.d s.ev.data) else s

/-! ### Host snoops (R321, R322) -/

/-- A host snoop arrives at the home slice (R322): `ev.a` the 64-byte half's number, `ev.flag` invalidates. `ev.data` is what the
host writes to the half once it is answered. -/
def execHostSnoop (s : State) : Res :=
  onEvent s fun s =>
    { s with snoops := s.snoops ++ [{ half := s.ev.a, inv := s.ev.flag, data := if s.ev.data.isEmpty then none else some s.ev.data }] }

/-- The key of the line a half belongs to. -/
def halfKey (half : Nat) : Nat := physKey (2 ^ 50 + 64 * half)

/-- A snoop may be answered: the latest lease on the line has passed (R322). -/
def State.mayAnswer (s : State) (n : Snoop) : Bool := (s.home (halfKey n.half)).exp ≤ s.now

/-- The home answers the first snoop of a half (R322): `ev.a` the half. An invalidating snoop drops it, after which the host's
write is performed in host memory and a seal line that a dispatcher held there is read again (R369); a snoop for data leaves it shared. -/
def execSnoopAnswer (s : State) : Res :=
  onEvent s fun s =>
    match s.snoops.find? fun n => n.half == s.ev.a with
    | some n =>
      if s.mayAnswer n then
        let s : State := { s with snoops := s.snoops.erase n }
        let s : State := { s with halves := if n.inv || (tabGet s.halves n.half).isNone then tabDel s.halves n.half else tabSet s.halves n.half .s }
        match n.data with
        | some d => (s.poke (2 ^ 50 + 64 * n.half + n.off) (d.take (64 - n.off)) false).rereadSeal (halfKey n.half)
        | none => s
      else s
    | none => s

/-! ### Remote timeout (R325) -/

/-- A group by name with its key, resident or saved. -/
def State.ownerAt (s : State) (n : Nat × Nat) : Option (Nat × Group) :=
  (s.saved.foldl (fun l v => l ++ v.groups) s.groups).find? fun (p : Nat × Group) => p.2.name == n

/-- A group's remote-timeout record is handed to the coalescer, and the group is suspended at its next stoker boundary (R264, R325). -/
def State.timeoutRecord (s : State) (owner : Nat × Nat) (va : W64) (wr at_ : Bool) (size : Nat) : State :=
  match s.ownerAt owner with
  | some (k, g) =>
    let t : Trap :=
      { code := 0x18, addr := va, wr := wr, at_ := at_, size := size, tmask := fullMask g.width, pc := g.spc.setWidth 32 }
    (s.coalesce k g.ctx (causeWord t g.hnd.isSome false false) t []).modOwner owner fun g => { g with pendTraps := g.pendTraps ++ [t] }
  | none => s

/-- The bytes of a write or atomic. -/
def Pend.size (p : Pend) : Nat :=
  match p.kind with
  | .store _ data _ => data.length
  | .atomic _ w _ _ _ _ _ | .lost _ w _ => w
  | _ => 0

/-- The value a timed-out load or atomic would return lands poisoned, with free bits in each register; an instruction or a projection that
waits for it goes on with poison, and a fetch is made again once its group is resumed (R325). -/
def State.timeoutValue (s : State) (p : Pend) : State :=
  match p.kind with
  | .atomic _ w _ _ _ _ d => s.stamp.deliver p.owner d w ((Config.freeBits s.free).toNat % 2 ^ (8 * w)) true
  | .lost (.lane o t r) w _ =>
    (List.range ((w + 3) / 4)).foldl (fun s i => s.stamp.deliver p.owner (.lane o t (r + i)) 4 ((Config.freeBits s.free).toNat % 2 ^ 32) true) s
  | .lost (.reader who code) _ _ =>
    if code then s
    else
      let lost := (List.range 128).map fun i => Config.poisonByte s.free (keyPa p.key + i)
      { s.stamp with served := s.served ++ [{ who := who, key := p.key, bytes := lost, pz := 15, copy := none, lost := true }] }
  | .lost d w _ => s.stamp.deliver p.owner d w ((Config.freeBits s.free).toNat % 2 ^ (8 * w)) true
  | _ => s

/-- A timed-out access that may have been performed at its target (R325). -/
def State.maybePerform (s : State) (p : Pend) : State :=
  if Config.timedOutPerformed p.id then
    match p.kind with
    | .atomic pa w op ty x cmp _ => s.doAtomic p.owner pa w op ty x cmp .none
    | _ => s.perform p
  else s

/-- An access to another module with no response for 10 µs. -/
def Pend.timedOut (p : Pend) (clk : Nat) : Bool := isOther (keyPa p.key) && !p.arrived && p.issued + 25000 ≤ clk

/-- A timed-out access of an engine operation: a copy stops with FCAUSE 4; a matrix operation's groups take the record, and a unit that
`accld` has waited for lands poisoned (R325, R360). One of an operation that has stopped is its groups'. -/
def State.engineTimeout (s : State) (p : Pend) : State :=
  match s.copies.find? fun (c : Copy) => c.id == p.blk with
  | some c => if p.isLost then s.stopCopy c 4 false else s.stopWrite c
  | none =>
    match s.mats.find? fun (m : MatOp) => m.id == p.blk with
    | some m =>
      let t := if p.isLost then
          (s.stamp.putUnit m.wg (m.u + m.kdone) ((List.range 1024).map (Config.poisonByte s.free)) true).unitDone m
        else s
      m.members.foldl (fun t i => t.timeoutRecord (m.wg, i) p.va (!p.isLost) false p.size) t
    | none =>
      ((s.groups.filter fun (x : Nat × Group) => x.2.spent.contains p.blk).foldl (fun s x =>
        s.timeoutRecord x.2.name p.va (!p.isLost) false p.size) s)

/-- A remote access times out (R325): `ev.a` the identifier of a write, an atomic or a load. -/
def execRemoteTimeout (s : State) : Res :=
  onEvent s fun s =>
    match s.pend.find? fun p => p.id == s.ev.a && p.timedOut s.clk with
    | some p =>
      let s : State := { s with pend := s.pend.filter (·.id != p.id) }
      let s := ((if p.isLost then s else s.sendOut p.key).maybePerform p).timeoutValue p
      let s := match p.owner with
        | some o => s.timeoutRecord o p.va (!p.isLost) p.isAtomic p.size
        | none => s.engineTimeout p
      ({ s with rtimeout := min (s.rtimeout + 1) (2 ^ 64 - 1) } : State).devError logTimeout 0
    | none => s

end Sys2Proof.Machine
end

