-- ==== Sys2Proof/Machine/Freeze.lean ====
section
/-! DEFINITION. Shootdown, the freeze table, `frz`, `thaw`, `tkwt`, the steps of a freeze and of a thaw, replicas, and the
counters of a codec region (R240, R289, R290, R293–R307). -/

namespace Sys2Proof.Machine

/-! ### Shootdown (R240) -/

/-- Whether two ranges of the 57-bit space meet. -/
def rangesMeet (a n b m : Nat) : Bool := a < b + m && b < a + n

/-- A translation register over a range is stale; one of an empty range is over none (R39, R240). -/
def TReg.shoot (r : TReg) (va n : Nat) : TReg :=
  if r.valid && r.limit != 0 && rangesMeet (va57 r.base) r.limit.toNat va n then { r with stale := true } else r

/-- Translation registers over a range marked stale. -/
def shootRegs (t : Tab TReg) (va n : Nat) : Tab TReg := t.map fun (p : Nat × TReg) => (p.1, p.2.shoot va n)

/-- A block's snapshot (R32, R240). -/
def Block.shoot (b : Block) (va n : Nat) : Block := { b with snap := { b.snap with b := shootRegs b.snap.b va n } }

/-- Every translation register a group holds: the stoker's, its snapshots', and those kept while a handler runs (R240). -/
def Group.shoot (g : Group) (va n : Nat) : Group :=
  { g with
    b := shootRegs g.b va n, blocks := g.blocks.map (·.shoot va n),
    hnd := g.hnd.map fun f => { f with b := shootRegs f.b va n, blocks := f.blocks.map (·.shoot va n) } }

/-- A shootdown reaches every die (R240 steps 1 and 2): gathered bits are written back, entries removed, registers marked. -/
def State.shoot (s : State) (ctx : Nat) (va : W64) (n : Nat) : State :=
  let v := va57 va
  let hit := fun (e : Tlb) => e.ctx == ctx && rangesMeet (va57 e.va) (pageBytes e.pgsz) v n
  let walk := fun (e : Tlb) =>
    e.ctx == ctx && rangesMeet (e.va.toNat * 2 ^ levelLo e.pgsz) (2 ^ levelLo e.pgsz) v n
  let s := (s.tlb.filter hit).foldl State.writeBackAD s
  let grp := fun (p : Nat × Group) => if p.2.ctx = ctx then (p.1, p.2.shoot v n) else p
  { s with
    tlb := s.tlb.filter fun e => !hit e, walkc := s.walkc.filter fun e => !walk e, groups := s.groups.map grp,
    saved := s.saved.map fun x => { x with groups := x.groups.map grp } }

/-- Accesses of a context issued before an identifier are still to be performed (R240 step 3): any of them may have been translated with
an entry or a register that a shootdown removed, whichever part of it the shootdown named. -/
def State.ctxBusy (s : State) (ctx bound : Nat) : Bool := s.pend.any fun p => p.ctx == ctx && p.id < bound

/-! ### The freeze table (R295) -/

/-- The fields of a freeze-table entry. -/
structure FrzEnt where
  state : Nat
  done : Bool
  count : Nat
  gen : Nat
  deriving DecidableEq, Repr

/-- The address of entry i of a context's freeze table. -/
def frzAt (c : Ctx) (i : Nat) : Nat := c.frztab + 32 * i

/-- Word 0 of an entry in fields. -/
def State.frzEnt (s : State) (c : Ctx) (i : Nat) : FrzEnt :=
  let w := s.peekNat (frzAt c i) 8
  { state := bits w 1 2, done := bits w 3 1 == 1, count := bits w 4 8, gen := bits w 12 8 }

/-- Whether entry i is in use. -/
def State.frzUsed (s : State) (c : Ctx) (i : Nat) : Bool := bits (s.peekNat (frzAt c i) 8) 0 1 == 1

/-- The entry that describes a page, by its virtual address. -/
def State.frzFind (s : State) (c : Ctx) (page : W64) : Option Nat :=
  (List.range c.frzn).find? fun i => s.frzUsed c i && s.peekNat (frzAt c i + 8) 8 == va57 page

/-- Word 0 of an entry written back with new fields. -/
def State.setEnt (s : State) (c : Ctx) (i : Nat) (e : FrzEnt) : State :=
  let w := s.peekNat (frzAt c i) 8
  s.pokeWord (frzAt c i) 8
    (1 + e.state * 2 + (if e.done then 8 else 0) + e.count * 16 + e.gen % 256 * 4096 + bits w 20 2 * 2 ^ 20)

/-- A page's entry changed, if it has one. -/
def State.modEnt (s : State) (ctx : Nat) (page : W64) (f : FrzEnt → FrzEnt) : State :=
  let c := tabD s.ctxs ctx {}
  match s.frzFind c page with
  | some i => s.setEnt c i (f (s.frzEnt c i))
  | none => s

/-- A new entry for a page: state none, count 0, generation 0. -/
def State.newEnt (s : State) (c : Ctx) (i : Nat) (page : W64) : State :=
  (s.pokeWord (frzAt c i) 8 1).pokeWord (frzAt c i + 8) 8 (va57 page)

/-- An entry's PGSZ and FRAME written as the page's leaf gives them (R295). -/
def State.setPlace (s : State) (c : Ctx) (i pgsz frame : Nat) : State :=
  (s.pokeWord (frzAt c i) 8 (s.peekNat (frzAt c i) 8 % 2 ^ 20 + pgsz * 2 ^ 20)).pokeWord (frzAt c i + 16) 8 frame

/-! ### Leaves, marks and the keys of a page -/

/-- FST written in a page's leaf (R236, R296). -/
def State.setFst (s : State) (ctx : Nat) (page : W64) (fst : Nat) : State :=
  match s.walk (tabD s.ctxs ctx {}) page with
  | .found leaf pa _ => s.pokeWord pa 8 (leaf.toNat - bits leaf.toNat 17 2 * 2 ^ 17 + fst * 2 ^ 17)
  | _ => s

/-- Whether a line lies in a page of a context: by frame, or by the codec region it decodes (R274, R291). -/
def State.inPage (s : State) (ctx : Nat) (page : W64) (size key : Nat) : Bool :=
  let c := tabD s.ctxs ctx {}
  match s.walk c page with
  | .found leaf lpa pgsz =>
    let t := trOf s c leaf lpa pgsz page
    match t.creg with
    | none => !isCodecKey key && t.pa ≤ keyPa key && keyPa key < t.pa + size
    | some n => isCodecKey key && codecKey (s.region c n) t.pa ≤ key && key ≤ codecKey (s.region c n) (t.pa + size - 128)
  | _ => false

/-- Where a page lies: its frame, or for a codec page the range of its groups' backing (R274, R275). -/
def State.placeOf (s : State) (ctx : Nat) (page : W64) (size : Nat) : Option Nat × Nat × Nat :=
  let c := tabD s.ctxs ctx {}
  match s.walk c page with
  | .found leaf lpa pgsz =>
    let t := trOf s c leaf lpa pgsz page
    match t.creg with
    | some n =>
      let group := 16 * codecRate (s.region c n).rate
      (none, (s.region c n).back + t.pa / 1024 * group, size / 1024 * group)
    | none => (some t.pa, 0, 0)
  | _ => (none, 0, 0)

/-- The lines that the state of a page stands in: its leaf's and its freeze-table entry's. The device writes them only while no copy of them
is out, which it calls back (R230, R310, log 77). -/
def State.pageWords (s : State) (ctx : Nat) (page : W64) : List Nat :=
  let c := tabD s.ctxs ctx {}
  (match s.walk c page with
    | .found _ pa _ => [pa]
    | _ => []) ++ ((s.frzFind c page).map (frzAt c)).toList

/-- Both lines of a page's state may be written. -/
def State.pageQuiet (s : State) (ctx : Nat) (page : W64) : Bool := (s.pageWords ctx page).all s.lineQuiet

/-- A step that writes a page's state, once it may. -/
def State.whenQuiet (s : State) (ctx : Nat) (page : W64) (f : State → State) : State :=
  if s.pageQuiet ctx page then f s else s.clearWay (s.pageWords ctx page)

/-- Such a step can go on. -/
def State.pageGoes (s : State) (ctx : Nat) (page : W64) : Bool := s.pageQuiet ctx page || s.mayClear (s.pageWords ctx page)

/-- Writes to a page are still to be performed, whoever issued them (R298 step 3, R299). -/
def State.pageBusy (s : State) (ctx : Nat) (page : W64) (size : Nat) : Bool :=
  s.pend.any fun p =>
    !p.isLost && ((p.ctx == ctx && rangesMeet (va57 p.va) 1 (va57 page) size) || s.inPage ctx page size p.key)

/-- The home's mark on a page changed; made when it is not there (R298). -/
def State.setMark (s : State) (ctx : Nat) (page : W64) (size gen : Nat) (f : Mark → Mark) : State :=
  if s.marks.any fun m => m.ctx == ctx && m.va == page then
    { s with marks := s.marks.map fun m => if m.ctx = ctx && m.va = page then f m else m }
  else
    let (pa, back) := s.placeOf ctx page size
    { s with marks := s.marks ++ [f { ctx := ctx, va := page, size := size, pa := pa, back := back, frozen := false, gen := gen }] }

/-- The home's mark on a page cleared; while it refuses a module's writes it stays for that until repair (R306). -/
def State.clearMark (s : State) (ctx : Nat) (page : W64) : State :=
  { s with
    marks := (s.marks.map fun m => if m.ctx = ctx && m.va = page then { m with frozen := false, thawing := false } else m).filter fun m =>
      !(m.ctx == ctx && m.va == page && m.refuse.isEmpty) }

/-- The translation cache entries of a page that hold FST 2 removed, their gathered bits written back: the writes that wait for its
thaw translate it anew (R302, R304). -/
def State.dropThawing (s : State) (ctx : Nat) (page : W64) : State :=
  let hit := fun (e : Tlb) => e.covers ctx page && bits e.leaf.toNat 17 2 == 2
  { ((s.tlb.filter hit).foldl State.writeBackAD s) with tlb := s.tlb.filter fun e => !hit e }

/-- The bytes of a page by its leaf. -/
def State.pageSize (s : State) (ctx : Nat) (page : W64) : Nat :=
  match s.walk (tabD s.ctxs ctx {}) page with
  | .found _ _ pgsz => pageBytes pgsz
  | _ => 65536

/-- The modules of a context's domain, this one first (R296). -/
def State.domainOf (s : State) (ctx : Nat) : List Nat :=
  Config.moduleNumber.toNat :: (List.range 1024).filter fun m => m != Config.moduleNumber.toNat && s.inDomain ctx m

/-! ### Operations (R298) -/

/-- The page of an operation is complete: for operations of one kind a test picks, its entry is taken out, and an operation
without pages has completed. -/
def State.pageDone (s : State) (ctx : Nat) (page : W64) (pick : FrzOp → Nat → Bool) : State :=
  { s with
    ctxs := tabMod s.ctxs ctx fun c =>
      { c with
        ops := (c.ops.map fun o => { o with pages := o.pages.filter fun p => !(p.1 == page && pick o p.2) }).filter fun o => !o.pages.isEmpty } }

/-- A page's freeze steps start (R298): every module of the domain is asked for FST and a shootdown. -/
def State.startFreeze (s : State) (ctx coord : Nat) (page : W64) (size gen : Nat) : State :=
  { s with
    frz := s.frz ++ [{ ctx := ctx, va := page, size := size, gen := gen, coord := coord, mods := s.domainOf ctx, sent := s.now }] }

/-- A page enters thawing (R302). -/
def State.startThaw (s : State) (ctx coord : Nat) (page : W64) (size gen : Nat) : State :=
  { s with
    frz := s.frz ++
      [{ ctx := ctx, va := page, size := size, gen := gen, coord := coord, thawing := true, mods := s.domainOf ctx, sent := s.now }] }

/-- A page's freeze or thaw in progress. -/
def State.frzPage (s : State) (ctx : Nat) (page : W64) : Option FrzPage := s.frz.find? fun p => p.ctx == ctx && p.va == page

/-- A page's freeze or thaw in progress changed. -/
def State.modFrz (s : State) (ctx : Nat) (page : W64) (f : FrzPage → FrzPage) : State :=
  { s with frz := s.frz.map fun p => if p.ctx = ctx && p.va = page then f p else p }

/-- A page's freeze or thaw is no longer in progress. -/
def State.endFrz (s : State) (ctx : Nat) (page : W64) : State := { s with frz := s.frz.filter fun p => !(p.ctx == ctx && p.va == page) }

/-! ### `frz` and `thaw` (R293, R295–R297, R305) -/

/-- A page of an operation: address, size code, frame, and the freeze-table entry it has or takes. -/
structure FrzArg where
  page : W64
  pgsz : Nat
  frame : Nat
  ent : Nat
  fresh : Bool
  deriving DecidableEq, Repr

/-- The checks of R297 on a page, in its order: the page's part in the operation, or the trap. -/
def State.frzCheck (s : State) (k : Nat) (g : Group) (thaw : Bool) (base : W64) (n : Nat) (taken : List Nat) (va : W64) : FrzArg ⊕ Trap :=
  let c := tabD s.ctxs g.ctx {}
  let a : AccK := {}
  if canonical va then
    match s.walk c va with
    | .unmapped => .inr (accTrap 0x06 a va 0)
    | .malformed => .inr { accTrap 0x06 a va 0 with malf := true }
    | .absent _ _ => .inr (trapOperand (va - BitVec.ofNat 64 (va57 va % 65536)))
    | .found leaf lpa pgsz =>
      let t := trOf s c leaf lpa pgsz va
      let size := pageBytes pgsz
      let inside := base.toNat ≤ t.page.toNat && t.page.toNat + size ≤ base.toNat + n
      let old := s.frzFind c t.page
      let e := match old with
        | some i => s.frzEnt c i
        | none => ⟨0, false, 0, 0⟩
      let free := (List.range c.frzn).find? fun i => !s.frzUsed c i && !taken.contains i
      let fail := !inside || !t.frzr || e.state == 3 ||
        (if thaw then e.count == 0 else e.count == 255 || (old.isNone && free.isNone))
      if s.fenced (dieOf (hearthOf k)) (s.keyOfTr c t) then .inr (accTrap 0x06 a va 0)
      else if fail then .inr (trapOperand t.page)
      else .inl ⟨t.page, pgsz, if t.creg.isSome then 0 else t.pa, (old.orElse fun _ => free).getD 0, old.isNone⟩
  else .inr (accTrap 0x06 a va 0)

/-- Every page of a range checked, lowest address first; the first number bounds the pages. -/
def State.frzChecks (s : State) (k : Nat) (g : Group) (thaw : Bool) (base : W64) (n : Nat) :
    Nat → W64 → List Nat → List FrzArg ⊕ Trap
  | 0, _, _ => .inl []
  | fuel + 1, va, taken =>
    if n ≤ (va - base).toNat then .inl []
    else
      match s.frzCheck k g thaw base n taken va with
      | .inr t => .inr t
      | .inl x =>
        match s.frzChecks k g thaw base n fuel (x.page + BitVec.ofNat 64 (pageBytes x.pgsz)) (if x.fresh then x.ent :: taken else taken) with
        | .inl l => .inl (x :: l)
        | .inr t => .inr t

/-- `frz` reaches a page (R295–R297, R302, R305). The answer is the generation the operation waits for, none for a page whose
earlier freeze has completed and holds it. -/
def State.frzPageUp (s : State) (ctx coord : Nat) (x : FrzArg) : State × Option Nat :=
  let c := tabD s.ctxs ctx {}
  let s := if x.fresh then s.newEnt c x.ent x.page else s
  let e := s.frzEnt c x.ent
  if e.count != 0 then
    (s.setEnt c x.ent { e with count := e.count + 1 }, if e.state == 1 && e.done then none else some e.gen)
  else
    let gen := (e.gen + 1) % 256
    if e.state = 0 then
      (((s.setPlace c x.ent x.pgsz x.frame).setEnt c x.ent { state := 1, done := false, count := 1, gen := gen }).startFreeze ctx coord x.page
        (pageBytes x.pgsz) gen, some gen)
    else
      ((s.setEnt c x.ent { e with count := 1, gen := gen, done := false }).modFrz ctx x.page fun p => { p with nextFrz := coord }, some gen)

/-- `thaw` reaches a page (R296, R297, R302). The answer is the generation whose thaw the operation waits for, none while the
count stays above 0. -/
def State.thawPageDown (s : State) (ctx coord : Nat) (x : FrzArg) : State × Option Nat :=
  let c := tabD s.ctxs ctx {}
  let e := s.frzEnt c x.ent
  if 1 < e.count then (s.setEnt c x.ent { e with count := e.count - 1 }, none)
  else if e.state = 1 && e.done then
    ((s.setEnt c x.ent { e with count := 0, state := 2 }).startThaw ctx coord x.page (pageBytes x.pgsz) e.gen, some e.gen)
  else
    let s := s.setEnt c x.ent { e with count := 0 }
    (if e.state = 1 then s.modFrz ctx x.page fun p => { p with thawPend := some e.gen, nextThaw := coord } else s, some e.gen)

/-- Every page of an operation in turn, with the pages it waits for. -/
def State.applyOp (s : State) (ctx coord : Nat) (thaw : Bool) (seq : Nat) : List FrzArg → State × List (W64 × Nat)
  | [] => (s, [])
  | x :: r =>
    let c := tabD s.ctxs ctx {}
    let (s, w) := if thaw then s.thawPageDown ctx coord x else s.frzPageUp ctx coord x
    let s := s.pokeWord (frzAt c x.ent + 24) 8 (seq % 2 ^ 48)
    let (s, l) := s.applyOp ctx coord thaw seq r
    (s, (w.map (x.page, ·)).toList ++ l)

/-- An operation issued (R293, R297): numbered, applied to all its pages, and kept until it completes. -/
def State.issueOp (s : State) (ctx coord : Nat) (thaw : Bool) (l : List FrzArg) : State × W64 :=
  let seq := (tabD s.ctxs ctx {}).seq + 1
  let (s, pages) := s.applyOp ctx coord thaw seq l
  ({ s with
      ctxs := tabMod s.ctxs ctx fun c =>
        { c with seq := seq, ops := if pages.isEmpty then c.ops else c.ops ++ [{ seq := seq, thaw := thaw, pages := pages }] } },
    BitVec.ofNat 64 ((if thaw then 2 else 1) * 2 ^ 48 + seq % 2 ^ 48))

/-- `frz` and `thaw` (R297). -/
def frzCmd (s : State) (sd sa sb : BitVec 6) (thaw : Bool) : Res :=
  onStoker s fun k g =>
    let a := g.sGet sa.toNat
    let b := g.sGet sb.toNat
    let n := b.val.toNat
    if a.pz || b.pz then s.trapS k g (trapPoison 0 0)
    else if a.val.toNat % 65536 != 0 || n = 0 || n % 65536 != 0 || 2 ^ 32 < n then s.trapS k g (trapOperand a.val)
    else
      match s.frzChecks k g thaw a.val n (n / 65536) a.val [] with
      | .inr t => s.trapS k g t
      | .inl l =>
        let c := tabD s.ctxs g.ctx {}
        let lines := l.map fun x => frzAt c x.ent
        if 64 ≤ c.ops.length then s.waitS k
        else if !lines.all s.lineQuiet then (s.clearWay lines).waitS k
        else
          let (s, ticket) := s.issueOp g.ctx (dieOf (hearthOf k)) thaw l
          s.setG k (g.result sd ticket false 4)

/-- `frz` (R297). -/
def execFrz (sd sa sb : BitVec 6) (s : State) : Res := frzCmd s sd sa sb false

/-- `thaw` (R297). -/
def execThaw (sd sa sb : BitVec 6) (s : State) : Res := frzCmd s sd sa sb true

/-- `tkwt` (R298). -/
def execTkwt (sa : BitVec 6) (s : State) : Res :=
  onStoker s fun k g =>
    let a := g.sGet sa.toNat
    let kind := bits a.val.toNat 48 2
    let seq := bits a.val.toNat 0 48
    let c := tabD s.ctxs g.ctx {}
    if a.pz then s.trapS k g (trapPoison 0 0)
    else if kind = 0 || kind = 3 || bits a.val.toNat 50 14 != 0 || seq = 0 || c.seq < seq then s.trapS k g (trapOperand a.val)
    else if c.ops.any (·.seq == seq) then s.waitS k else s.setG k (g.adv 4)

/-! ### The steps of a freeze (R298, R299, R302, R306) -/

/-- A module's part in a step of a freeze or a thaw, here: FST is written in the leaf; FST 1 and 2 come with a shootdown of the page, and
the home marks it as marking or as thawing; with FST 0 the page's mark goes, and with FST 3 the home keeps it frozen (R298, R302, R306). -/
def State.takeFst (s : State) (ctx : Nat) (page : W64) (fst : Nat) : State :=
  let size := s.pageSize ctx page
  let s := s.setFst ctx page fst
  match fst with
  | 1 =>
    let (pa, back) := s.placeOf ctx page size
    (s.shoot ctx page size).setMark ctx page size 0 fun m =>
      { m with size := size, pa := pa, back := back, frozen := false, thawing := false }
  | 2 => (s.shoot ctx page size).setMark ctx page size 0 fun m => { m with thawing := true }
  | 0 => (s.dropThawing ctx page).clearMark ctx page
  | _ => (s.dropThawing ctx page).setMark ctx page size 0 fun m => { m with frozen := true, thawing := false }

/-- A module writes FST and shoots the page down (R298 steps 1 and 2, R302 steps 1 and 3): `ev.a` the context, `ev.b` the page,
`ev.c` FST, `ev.d` the module. Another module's acknowledgement is all of it that this one sees. The accesses issued here until then are
those that the shootdown waits for. Once its own leaf says thawing, the coordinator sends the drop-replicas messages. -/
def execFreezeRequest (s : State) : Res :=
  onEvent s fun s =>
    let ctx := s.ev.a
    let page := BitVec.ofNat 64 s.ev.b
    let here := s.ev.d == Config.moduleNumber.toNat
    let dom := s.domainOf ctx
    let go := fun (s' : State) => s'.modFrz ctx page fun p =>
      { p with
        mods := p.mods.filter (· != s.ev.d), bound := if here then s'.nextId else p.bound,
        acks := if here && p.thawing then dom.foldr (fun m acc => [(m, 0), (m, 1), (m, 2), (m, 3)] ++ acc) [] else p.acks,
        sent := if here && p.thawing then s.now else p.sent }
    if here then s.whenQuiet ctx page fun s => go (s.takeFst ctx page s.ev.c) else go s

/-- The freeze steps of a page are over: every module has answered, the shootdown's accesses here are performed (R240 step 3), and so is
every write to the page. -/
def State.freezeReady (s : State) (p : FrzPage) : Bool :=
  !p.thawing && p.mods.isEmpty && !s.ctxBusy p.ctx p.bound && !s.pageBusy p.ctx p.va p.size

/-- The thaw that waited for a page's freeze starts, coordinated by the die of its `thaw`; a freeze that is to follow keeps its die
(R296, R302). -/
def State.startThawOf (s : State) (p : FrzPage) (page : W64) (gen : Nat) : State :=
  (s.startThaw p.ctx p.nextThaw page p.size gen).modFrz p.ctx page fun x => { x with nextFrz := p.nextFrz }

/-- A page's freeze completes (R298, R302): `ev.a` the context, `ev.b` the page; with `ev.flag` another module coordinates it and
`ev.c` is the generation. DONE is set and the home marks the page frozen;
with a thaw pending it enters thawing at once instead. -/
def execFreezeComplete (s : State) : Res :=
  onEvent s fun s =>
    let ctx := s.ev.a
    let page := BitVec.ofNat 64 s.ev.b
    match s.frzPage ctx page with
    | some p =>
      if s.freezeReady p then
        s.whenQuiet ctx page fun s =>
        match p.thawPend with
        | none =>
          (((s.endFrz ctx page).modEnt ctx page fun e => { e with done := true }).setMark ctx page p.size p.gen fun m =>
            { m with frozen := true, thawing := false, gen := p.gen }).pageDone ctx page fun o _ => !o.thaw
        | some g =>
          (((s.endFrz ctx page).modEnt ctx page fun e => { e with state := 2, done := true }).startThawOf p page g).pageDone
            ctx page fun o n => !o.thaw && n == p.gen
      else s
    | none =>
      if s.ev.flag then
        s.setMark ctx page (s.pageSize ctx page) s.ev.c fun m => { m with frozen := true, thawing := false, gen := s.ev.c }
      else s

/-- A module has not acknowledged a freeze's shootdown within FRTO (R306): `ev.a` the context, `ev.b` the page. The freeze goes
on without it, and the page's homes refuse its writes. -/
def execFreezeShootdownTimeout (s : State) : Res :=
  onEvent s fun s =>
    let ctx := s.ev.a
    let page := BitVec.ofNat 64 s.ev.b
    match s.frzPage ctx page with
    | some p =>
      if p.thawing || p.mods.isEmpty then s
      else
        (s.setMark ctx page p.size p.gen fun m => { m with refuse := p.mods.foldl addOnce m.refuse }).modFrz ctx page
          (fun x => { x with mods := [] }) |> fun t => p.mods.foldl (fun t m => t.devError logFreeze m page.toNat 0 p.gen) t
    | none => s

/-! ### The steps of a thaw (R302–R306) -/

/-- A die's copies of a page and generation invalidated (R195, R291, R301, R302): replicas, sector copies, L1 copies, decoded
lines, view lines; the frozen-clean marks of entries whose matrix touches the page go (R188). -/
def State.dropCopies (s : State) (d ctx : Nat) (page : W64) (size gen : Nat) : State :=
  let hit := fun key => s.inPage ctx page size key
  let l1 := fun (l : L1Line) =>
    ((l.kind == .leased || l.kind == .codec) && l.fgen == some gen && hit l.key) || (l.kind == .view && l.deps.any hit)
  let clean := fun (p : Nat × VEnt) =>
    if dieOf (p.1 / 256) = d && p.2.ctx == ctx && p.2.pages.any fun v => page.toNat ≤ v.toNat && v.toNat < page.toNat + size then
      (p.1, { p.2 with fclean := false })
    else p
  let (pa, back, len) := s.placeOf ctx page size
  let backs := fun key => pa.isNone && back ≤ keyPa key && keyPa key < back + len
  let s : State :=
    { s with
      replicas := s.replicas.filter fun (p : Nat × Nat) => !(p.1 % 4 == d && p.2 == gen && (hit (p.1 / 4) || backs (p.1 / 4))),
      fsectors := s.fsectors.filter fun (p : Nat × Nat) => !(p.1 / 3 % 4 == d && p.2 == gen && hit (p.1 / 12)),
      vstore := s.vstore.map clean,
      projs := s.projs.map fun p => if dieOf p.hearth = d && p.deps.any hit then { p with stale := true } else p }
  (List.range 36).foldl (fun s h => s.l1Drop (36 * d + h) l1) s

/-- A die of this module invalidates its copies and acknowledges (R302): `ev.a` the context, `ev.b` the page, `ev.c` the
die, `ev.d` the generation. -/
def execDropReplicas (s : State) : Res :=
  onEvent s fun s =>
    let ctx := s.ev.a
    let page := BitVec.ofNat 64 s.ev.b
    (s.dropCopies s.ev.c ctx page (s.pageSize ctx page) s.ev.d).modFrz ctx page fun p => { p with dropped := addOnce p.dropped s.ev.c }

/-- A page's thaw completes (R302, R303, R305): it goes to none, or, when a `frz` reached it meanwhile, to frozen with the
freeze steps of the new generation, coordinated by the die of that `frz`. The writes that wait meet the new state. -/
def State.thawDone (s : State) (p : FrzPage) : State :=
  let c := tabD s.ctxs p.ctx {}
  let e := match s.frzFind c p.va with
    | some i => s.frzEnt c i
    | none => ⟨2, false, 0, 0⟩
  let end_ := fun (s : State) fst => ((s.setFst p.ctx p.va fst).dropThawing p.ctx p.va).modEnt p.ctx p.va fun e => { e with state := fst, done := false }
  let s := (s.endFrz p.ctx p.va).clearMark p.ctx p.va
  if e.count = 0 then (end_ s 0).pageDone p.ctx p.va fun _ _ => true
  else ((end_ s 1).startFreeze p.ctx p.nextFrz p.va p.size e.gen).pageDone p.ctx p.va fun o _ => o.thaw

/-- An acknowledgement of a drop-replicas message reaches the coordinator, and the last one completes the thaw (R302): `ev.a`
the context, `ev.b` the page, `ev.c` the module, `ev.d` the die. -/
def execDropReplicasAck (s : State) : Res :=
  onEvent s fun s =>
    let ctx := s.ev.a
    let page := BitVec.ofNat 64 s.ev.b
    match s.frzPage ctx page with
    | some p =>
      if p.thawing && (p.acks.contains (s.ev.c, s.ev.d) || (p.acks.isEmpty && !p.mods.contains Config.moduleNumber.toNat)) then
        let p := { p with acks := p.acks.filter (· != (s.ev.c, s.ev.d)) }
        let s := s.modFrz ctx page fun _ => p
        if p.acks.isEmpty then s.whenQuiet ctx page fun s => s.thawDone p else s
      else s
    | none => s

/-- The freeze timeout of a context in ns (R306). -/
def Ctx.frtoNs (c : Ctx) : Nat := (if c.frto = 0 then 100 else c.frto) * 1000

/-- A module has not acknowledged a thaw's drop-replicas within FRTO (R306): `ev.a` the context, `ev.b` the page. The page is
thaw-failed and its tickets complete. -/
def execThawTimeout (s : State) : Res :=
  onEvent s fun s =>
    let ctx := s.ev.a
    let page := BitVec.ofNat 64 s.ev.b
    match s.frzPage ctx page with
    | some p =>
      if p.thawing && !p.acks.isEmpty && p.sent + (tabD s.ctxs ctx {}).frtoNs ≤ s.now then
        s.whenQuiet ctx page fun s =>
        let silent := (p.acks.map (·.1)).foldl addOnce []
        let s := (((s.endFrz ctx page).setFst ctx page 3).dropThawing ctx page).modEnt ctx page fun e => { e with state := 3 }
        let s := (s.setMark ctx page p.size p.gen fun m => { m with frozen := true, thawing := false }).pageDone ctx page fun _ _ => true
        silent.foldl (fun s m => s.devError logFreeze m page.toNat 0 p.gen) s
      else s
    | none => s

/-! ### Replicas (R294, R301) -/

/-- A frozen line is fetched into the slice of a reader's die, which takes a way there (R229, R294, R301): `ev.a` the die, `ev.b` the
line. -/
def execReplicaFetch (s : State) : Res :=
  onEvent s fun s =>
    let (d, key) := (s.ev.a, s.ev.b)
    match s.frozenGen key with
    | some g =>
      if d < 4 && d != (homeOf key).1 && !s.fenced d key then (s.touchHome key false).replicate d key g
      else s
    | none => s

/-! ### The counters of a codec region (R288–R290) -/

/-- The checks of `cdctr` and `cdclr` on an address: the region, or the trap (R98 checks 3 and 4, R289). -/
def State.codecEntry (s : State) (k : Nat) (g : Group) (va : W64) (wr : Bool) : State × (Nat ⊕ Trap) :=
  let a : AccK := { rd := !wr, wr := wr }
  if canonical va then
    match s.translate (hearthOf k) g.ctx va with
    | (s, .absent e) => (s, .inr { accTrap 0x05 a va 0 with s3 := e })
    | (s, .illegal m) => (s, .inr { accTrap 0x06 a va 0 with malf := m })
    | (s, .ok t) =>
      if (a.rd && !t.rd) || (a.wr && !t.wr) || s.fenced (dieOf (hearthOf k)) (s.keyOfTr (tabD s.ctxs g.ctx {}) t) then
        (s, .inr (accTrap 0x06 a va 0))
      else
        match t.creg with
        | some n => (s, .inl n)
        | none => (s, .inr (trapOperand va))
  else (s, .inr (accTrap 0x06 a va 0))

/-- A counter instruction: its checks, its wait for the group's earlier accesses (R100, R289), then its effect. -/
def counterOp (s : State) (sa : BitVec 6) (wr : Bool) (f : State → Nat → Group → Nat → State) : Res :=
  onStoker s fun k g =>
    let a := g.sGet sa.toNat
    if a.pz then s.trapS k g (trapPoison a.val 0)
    else
      match s.codecEntry k g a.val wr with
      | (s, .inr t) => s.trapS k g t
      | (s, .inl n) => if s.stokerPending g.name scopeSys then s.waitS k else f s k g n

/-- The value `cdctr` reads: word 3 + k of an entry (R289). -/
def State.codecCounter (s : State) (c : Ctx) (n k : Nat) : Nat :=
  let x := s.peekNat (c.codectab + 64 * n + 24 + 8 * k) 8
  match k with
  | 3 => x % 2 ^ 11
  | 4 => x % 2 ^ 32
  | _ => x

/-- `cdctr` (R289); k from 5 to 7 is an illegal instruction. -/
def execCdctr (sd sa : BitVec 6) (k : BitVec 3) (s : State) : Res :=
  if 5 ≤ k.toNat then onStoker s fun key g => s.trapS key g trapIllegal
  else counterOp s sa false fun s key g n =>
    s.setG key (g.result sd (BitVec.ofNat 64 (s.codecCounter (tabD s.ctxs g.ctx {}) n k.toNat)) false 4)

/-- `cdclr` (R290): the five counters of the entry are 0. -/
def execCdclr (sa : BitVec 6) (s : State) : Res :=
  counterOp s sa true fun s key g n =>
    (s.pokeRaw ((tabD s.ctxs g.ctx {}).codectab + 64 * n + 24) (List.replicate 40 0)).setG key (g.adv 4)

end Sys2Proof.Machine
end

