-- ==== Sys2Proof/Machine/Launch.lean ====
section
/-! DEFINITION. Launch records, admission, placement, retirement, `launch`, `cwait`, `exit` and the barriers
(R8, R21, R24–R27, R97, R109, R110, R115, R116, R212–R216, R217, R223, R367–R375). -/

namespace Sys2Proof.Machine

/-! ### What a workgroup needs (R24, R374, R375) -/

/-- Lane register bytes of a group (R24). -/
def Kern.laneBytes (k : Kern) : Nat := k.width * ((k.vregs + 7) / 8) * 32

/-- Bytes of a group's private area with its split stack (R217). -/
def Kern.area (k : Kern) : Nat := k.width * k.priv + 48 * k.sstack

/-- Scratchpad pages (R223). -/
def Kern.pages (k : Kern) : Nat := (k.scratch + 4095) / 4096

/-- Team slots of a workgroup of n groups (R26). -/
def Kern.teams (k : Kern) (n : Nat) : Nat := if k.team = 0 then 0 else n / k.team

/-- View quota in units (R186). -/
def Grid.views (g : Grid) : Nat := 2 * (g.vspace + 1)

/-- Bytes a workgroup of a pre-emptible grid counts toward the save quota (R375). -/
def Grid.saveBytes (g : Grid) : Nat :=
  g.ngrp * (4096 + g.kern.laneBytes + 48 * g.kern.sstack) + g.kern.acc * 1024 + (g.vspace + 1) * 16384

/-- The save quota of a hearth (R375), less the bytes for engine records. -/
def saveQuota : Nat := 1572864 - 16384

/-- The grid of a workgroup. -/
def State.gridAt (s : State) (n : Nat) : Grid := tabD s.grids n { ctx := 0, kern := {}, gx := 0, gy := 0, gz := 0, ngrp := 0 }

/-! ### What is free on a hearth -/

/-- Workgroups placed on a hearth whose grid a test picks. -/
def State.wgsOn (s : State) (h : Nat) (f : Nat → Bool) : List Wg := (tabVals s.wgs).filter fun w => w.hearth == h && f w.grid

/-- The sum of a list. -/
def sumOf (l : List Nat) : Nat := l.foldl (· + ·) 0

/-- The resident groups of a partition of a hearth whose grid a test picks. -/
def State.partGroups (s : State) (h p : Nat) (f : Nat → Bool) : List Group :=
  (s.groups.filter fun (x : Nat × Group) => x.1 / 32 == 4 * h + p && f (s.wgOf x.2.wg).grid).map (·.2)

/-- Groups of a kernel that still fit in a partition (R21, R24). -/
def State.partRoom (s : State) (h p : Nat) (f : Nat → Bool) (k : Kern) : Nat :=
  let l := s.partGroups h p f
  min (32 - l.length) ((262144 - sumOf (l.map fun g => g.base.laneBytes)) / max k.laneBytes 1)

/-- How many of something fit in what is left of a pool; a need of 0 always fits. -/
def fits (pool used need bound : Nat) : Nat := if need = 0 then bound else (pool - used) / need

/-- Of n workgroups of a grid, those for which a hearth has what a workgroup needs as a whole, beside the workgroups a test picks (R374). -/
def State.wgRoom (s : State) (h : Nat) (f : Nat → Bool) (g : Grid) (n : Nat) : Nat :=
  let l := s.wgsOn h f
  let use := fun (x : Grid → Nat) => sumOf (l.map fun w => x (s.gridAt w.grid))
  let saves := sumOf ((l.filter fun w => w.ctx == g.ctx && (s.gridAt w.grid).kern.preempt).map fun w => (s.gridAt w.grid).saveBytes)
  [fits 128 (use fun x => x.kern.pages) g.kern.pages n, fits 2048 (use fun x => x.kern.acc) g.kern.acc n,
    fits 256 (use Grid.views) g.views n, fits 16 (use fun x => x.kern.teams x.ngrp) (g.kern.teams g.ngrp) n,
    if g.kern.preempt then fits saveQuota saves g.saveBytes n else n].foldl min n

/-- Workgroups of a grid that fit on a hearth beside the workgroups a test picks (R374); private areas are looked at apart. -/
def State.room (s : State) (h : Nat) (f : Nat → Bool) (g : Grid) : Nat :=
  s.wgRoom h f g (sumOf ((List.range 4).map fun p => s.partRoom h p f g.kern) / max g.ngrp 1)

/-- The hearths of a context's set (R367), in ascending order. -/
def Ctx.hearths (c : Ctx) : List Nat := (List.range 144).filter fun h => c.hset.getLsbD h

/-! ### Private areas (R217) -/

/-- The private areas of a context that are taken: those of its resident and its saved groups. -/
def State.areas (s : State) (ctx : Nat) : List (Nat × Nat) :=
  let res := tabVals s.groups ++ s.saved.foldr (fun v acc => v.groups.map (fun (p : Nat × Group) => p.2) ++ acc) []
  (res.filter (·.ctx == ctx)).map fun g => (g.pb, g.base.area)

/-- The first multiple of 4 KiB from an address on, where a private area may start (R217). -/
def areaStart (x : Nat) : Nat := (x + 4095) / 4096 * 4096

/-- The lowest place of a backing area where n bytes are free (log 15). -/
def freeArea (base size n : Nat) (taken : List (Nat × Nat)) : Option Nat :=
  (areaStart base :: taken.map fun t => areaStart (t.1 + t.2)).foldl (fun best c =>
    if base ≤ c && c + n ≤ base + size && !(taken.any fun t => c < t.1 + t.2 && t.1 < c + n) then
      some (match best with
        | some b => min b c
        | none => c)
    else best) none

/-- Areas of n bytes that fit between two addresses. -/
def areasIn (lo hi n : Nat) : Nat := if areaStart lo + n ≤ hi then (hi - areaStart lo - n) / areaStart (max n 1) + 1 else 0

/-- Areas of n bytes that fit beside areas in rising order. -/
def areaRoom (n hi : Nat) : Nat → List (Nat × Nat) → Nat
  | lo, [] => areasIn lo hi n
  | lo, (b, m) :: r => areasIn lo (min b hi) n + areaRoom n hi (b + m) r

/-- The private areas a whole grid needs fit its context's backing beside those of the groups a test picks (R24, R217). -/
def State.areasFit (s : State) (g : Grid) (f : Group → Bool) : Bool :=
  let c := tabD s.ctxs g.ctx {}
  let res := tabVals s.groups ++ s.saved.foldr (fun v acc => v.groups.map (fun (p : Nat × Group) => p.2) ++ acc) []
  let taken := (res.filter fun x => x.ctx == g.ctx && x.base.area != 0 && f x).foldl (fun t x => tabSet t x.pb x.base.area) []
  g.kern.area = 0 || g.gx * g.gy * g.gz * g.ngrp ≤ areaRoom g.kern.area (c.privback + c.backsize) c.privback taken

/-- Private areas of a number of groups, one after another. -/
def State.takeAreas (s : State) (ctx n : Nat) : Nat → List (Nat × Nat) → Option (List Nat)
  | 0, _ => some []
  | k + 1, taken =>
    let c := tabD s.ctxs ctx {}
    match freeArea c.privback c.backsize n taken with
    | some a => (s.takeAreas ctx n k ((a, n) :: taken)).map (a :: ·)
    | none => none

/-! ### Placing a workgroup (R8, R24, R36, R374) -/

/-- A choice the manual leaves open: in recorded mode the first, else one the implementation makes (R332, R374, log 16). -/
def pick {α : Type} (first : Bool) (stamp : Nat) (l : List α) : Option α :=
  match l with
  | [] => none
  | [x] => some x
  | x :: _ => if first then some x else some ((l.drop (Config.choice stamp l.length % l.length)).headD x)

/-- The slots of a partition of a hearth that hold no group. -/
def State.freeSlots (s : State) (h p : Nat) : List Nat :=
  ((List.range 32).map (· + 32 * p)).filter fun n => (tabGet s.groups (128 * h + n)).isNone

/-- A group as it starts (R8, R36): arguments in s1–s8, MODE at its reset values with CHK from the kernel. -/
def newGroup (g : Grid) (wg gidx pb stamp clk : Nat) : Group :=
  { ctx := g.ctx, wg := wg, gidx := gidx, kern := g.kern, width := g.kern.width,
    s := (enumFrom 1 g.args).foldl (fun t a => tabSet t a.1 { val := a.2 }) [],
    mode := if g.kern.checked then 0x201 else 1, pb := pb, stamp := stamp, lsince := clk, ssince := clk }

/-- The groups of a workgroup given slots, one after another (R21, R374). -/
def State.seat (s : State) (gid : Nat) (g : Grid) (wg h : Nat) : Nat → List Nat → State
  | _, [] => s
  | i, pb :: r =>
    let first := s.recording g.ctx
    let parts := (List.range 4).filter fun p => s.partRoom h p (fun _ => true) g.kern != 0
    match pick first (s.free + 2 * i) parts with
    | some p =>
      match pick first (s.free + 2 * i + 1) (s.freeSlots h p) with
      | some n =>
        let s := s.modWg wg fun w => { w with slots := w.slots ++ [n] }
        ({ s with groups := tabSet s.groups (128 * h + n) (newGroup g wg i pb (s.free + i) s.clk) }).seat gid g wg h (i + 1) r
      | none => s
    | none => s

/-- Numbers of backing pages that no workgroup of a context on a hearth has, placed or saved (R223). -/
def State.freeBacks (s : State) (ctx h n : Nat) : List Nat :=
  let mine := (tabVals s.wgs ++ (s.saved.filter (!·.back)).map (·.wg)).filter fun w => w.ctx == ctx && w.hearth == h
  let used := mine.foldr (fun w acc => w.pages.map (fun (p : Nat × SpPage) => p.2.back) ++ acc) []
  ((List.range (used.length + n)).filter fun b => !used.contains b).take n

/-- A workgroup placed on a hearth: its number in grid order gives its indices (R374). Where it is pre-emptible, L2 keeps room on the
die for its save area from now on (R229). -/
def State.placeOn (s : State) (gid : Nat) (g : Grid) (h : Nat) (pbs : List Nat) : State :=
  let w : Wg :=
    { grid := gid, ctx := g.ctx, ix := g.next % g.gx, iy := g.next / g.gx % g.gy, iz := g.next / (g.gx * g.gy), hearth := h,
      slots := [], scratch := g.kern.scratch, accUnits := g.kern.acc, vquota := g.views, stamp := s.free,
      pages := (enumFrom 0 (List.zip ((s.freePages h).take g.kern.pages) (s.freeBacks g.ctx h g.kern.pages))).map fun p => (p.1, { slot := p.2.1, back := p.2.2 }) }
  let s' := { s.newId with wgs := tabSet s.wgs s.nextId w, grids := tabSet s.grids gid { g with next := g.next + 1, live := g.live + 1 } }
  let s' := { s'.seat gid g s.nextId h 0 pbs with free := s.free + 2 * g.ngrp + 1 }
  if g.kern.preempt then s'.l2Trim (dieOf h) else s'

/-- Hearths to which a restoring context's saved workgroups return: nothing new is placed there (R380). -/
def State.kept (s : State) (h : Nat) : Bool :=
  s.saved.any fun v => v.wg.hearth == h && !v.back && (tabD s.ctxs v.wg.ctx {}).restoring

/-- The next workgroup of a grid placed where its whole footprint fits; none while there is no room (R374). -/
def State.placeNext (s : State) (gid : Nat) : Option State :=
  let g := s.gridAt gid
  let c := tabD s.ctxs g.ctx {}
  let hs := c.hearths.filter fun h => !s.kept h && s.room h (fun _ => true) g != 0
  match s.takeAreas g.ctx g.kern.area g.ngrp (s.areas g.ctx), pick (s.recording g.ctx) s.free hs with
  | some pbs, some h => some (s.stamp.placeOn gid g h pbs)
  | _, _ => none

/-- Workgroups of a grid. -/
def Grid.total (g : Grid) : Nat := g.gx * g.gy * g.gz

/-- Every workgroup of a co-resident grid placed, or none of them (R214). -/
def State.placeAll (s : State) (gid : Nat) : Nat → Option State
  | 0 => some s
  | n + 1 => (s.placeNext gid).bind fun s => s.placeAll gid n

/-! ### Dependence edges (R373) -/

/-- An edge is satisfied: its producer's DONE has passed the record (R373). One to a queue of an ended context is no edge any more (R383). -/
def State.edgeMet (s : State) (e : Edge) : Bool :=
  match tabGet s.queues e.q with
  | some q => e.rec_ < q.done
  | none => false

/-- Whether a key lies in a region of an edge. -/
def Edge.covers (e : Edge) (key : Nat) : Bool := e.regions.any fun r => r.1 ≤ keyPa key && keyPa key < r.1 + r.2

/-- Writes to other modules within an edge's regions are acknowledged (R373). -/
def State.edgeQuiet (s : State) (e : Edge) : Bool := !s.pend.any fun p => isOther (keyPa p.key) && e.covers p.key

/-- The edges that name a queue's records of a range of numbers. -/
def State.edgesOn (s : State) (q lo hi : Nat) : List Edge :=
  s.grids.foldr (fun (p : Nat × Grid) acc => (p.2.edges.filter fun e => e.q == q && lo ≤ e.rec_ && e.rec_ < hi) ++ acc) []

/-- The half of host memory of a number lies in a region of an edge. -/
def Edge.coversHalf (e : Edge) (half : Nat) : Bool := e.covers (2 * (2 ^ 50 + half * 64))

/-- The modified host halves of the regions that edges on records carry go back to the host before DONE passes those records (R321, R373). -/
def State.giveBack (s : State) (q lo hi : Nat) : State :=
  let es := s.edgesOn q lo hi
  { s with
    halves := s.halves.map fun (p : Nat × Half) => if p.2 = .m && es.any (·.coversHalf p.1) then (p.1, .s) else p }

/-- The host lines of the regions cleaned (R373): modified halves go back to the host, and every copy of a host line is
invalidated on all dies. -/
def State.cleanEdge (s : State) (e : Edge) : State :=
  let host := fun key => isHost (keyPa key) && e.covers key
  { s with
    halves := s.halves.filter fun (p : Nat × Half) => !e.coversHalf p.1,
    l1 := s.l1.map fun (p : Nat × List L1Line) => (p.1, p.2.filter fun l => !(host l.key && l.kind != .view) && !l.deps.any host),
    l2 := s.l2.filter fun (p : Nat × L2Line) => !host (2 * p.1),
    sectors := s.sectors.filter fun (p : Nat × Nat) => !host (p.1 / 12), fsectors := s.fsectors.filter fun (p : Nat × Nat) => !host (p.1 / 12),
    replicas := s.replicas.filter fun (p : Nat × Nat) => !host (p.1 / 4) }

/-! ### Which grid's workgroup is placed next (R214, R215, R372–R377) -/

/-- The grids of a queue before this one have started (R372). -/
def State.inTurn (s : State) (g : Grid) : Bool :=
  g.parent.isSome || !s.grids.any fun (p : Nat × Grid) => p.2.parent.isNone && p.2.q == g.q && p.2.ctx == g.ctx && p.2.rec_ < g.rec_ && p.2.next == 0

/-- A grid's turn has come, room and reservations apart. -/
def State.mayStart (s : State) (g : Grid) : Bool :=
  let c := tabD s.ctxs g.ctx {}
  g.next < g.total && !c.ending && !(c.hold && g.kern.preempt) && s.inTurn g && g.edges.all s.edgeMet

/-- Another co-resident grid of a context whose turn has come waits for its reservation: batch grids of that context take no new room
meanwhile; of several batch grids that wait, the one accepted first goes first (R214). -/
def State.reserving (s : State) (gid : Nat) (g : Grid) : Bool :=
  s.grids.any fun (p : Nat × Grid) => p.1 != gid && p.2.ctx == g.ctx && p.2.cores && p.2.next == 0 && s.mayStart p.2 &&
    (p.1 < gid || p.2.latency || !g.cores || g.next != 0)

/-- A grid may place its next workgroup, room apart. -/
def State.mayPlace (s : State) (gid : Nat) (g : Grid) : Bool := s.mayStart g && (g.latency || !s.reserving gid g)

/-- A grid's edges cleaned once, before its first group starts. -/
def State.clean (s : State) (gid : Nat) : State :=
  let g := s.gridAt gid
  if g.cleaned then s
  else
    let s := g.edges.foldl State.cleanEdge s
    { s with grids := tabSet s.grids gid { g with cleaned := true } }

/-- A grid's next workgroup placed, or all of them for a co-resident grid (R214, R374). -/
def State.placeGrid (s : State) (gid : Nat) : Option State :=
  let g := s.gridAt gid
  if s.mayPlace gid g then
    let s := s.clean gid
    if g.cores then s.placeAll gid (g.total - g.next) else s.placeNext gid
  else none

/-- A waiting workgroup is placed (R374): `ev.a` names the grid. -/
def execWorkgroupPlacement (s : State) : Res := onEvent s fun s => (s.placeGrid s.ev.a).getD s

/-! ### Launch records (R371, R372) -/

/-- An edge in 144 bytes, with whether its fields are in range (R373). -/
def edgeOf (b : List Byte) : Edge × Bool :=
  let n := fun o k => leNat ((b.drop o).take k)
  let regs := (List.range (n 2 1)).map fun i => (n (16 + 16 * i) 8, n (24 + 16 * i) 8)
  ({ q := n 0 2, rec_ := n 8 8, regions := regs },
    n 2 1 ≤ 8 && n 3 5 == 0 && regs.all fun r => r.1 % 128 == 0 && r.2 % 128 == 0)

/-- A queue. -/
def State.queueAt (s : State) (q : Nat) : Queue :=
  tabD s.queues q {
    die := none, desc := 0, ctx := 0, prio := 0, latency := false, irq := false, vec := 0, window := 0, nslot := 1, prog := 0, done := 0,
    err := 0 }

/-- A launch record's grid, or the reason it is refused with (R372). An edge to a queue whose context has ended is satisfied, with no order
carried (R383). `parent` is the launching group for a child. -/
def State.parse (s : State) (d ctx : Nat) (b : List Byte) (parent : Option (Nat × Nat × Nat × Grid)) : Grid ⊕ Nat :=
  let c := tabD s.ctxs ctx {}
  let n := fun o k => leNat ((b.drop o).take k)
  let zero := fun o k => ((b.drop o).take k).all (· == 0)
  let ngrp := n 20 1
  let ndep := n 23 1
  let plain := n 8 4 != 0 && n 12 4 != 0 && n 16 4 != 0 && 1 ≤ ngrp && ngrp ≤ 32 && n 21 1 < 4 && n 22 1 < 128 && ndep ≤ 4 &&
    zero 28 4 && n 96 8 % 16 == 0 && zero 104 151
  if !plain then .inr 1
  else
    match s.kernelAt d c (BitVec.ofNat 64 (n 0 8)) with
    | none => .inr 2
    | some k =>
      if k.team != 0 && ngrp % k.team != 0 then .inr 1
      else
        let ed := if ndep = 0 then some [] else s.vread d c (BitVec.ofNat 64 (n 96 8)) (144 * ndep)
        match ed with
        | none => .inr 1
        | some eb =>
          let es := (chunks 144 eb).map edgeOf
          let g : Grid :=
            { ctx := ctx, kern := k, gx := n 8 4, gy := n 12 4, gz := n 16 4, ngrp := ngrp, cores := n 21 1 % 2 == 1,
              irq := n 21 1 / 2 == 1, vspace := n 22 1, gtimer := n 24 4,
              args := (List.range 8).map fun i => BitVec.ofNat 64 (n (32 + 8 * i) 8), edges := es.map (·.1) }
          if es.any fun e => !e.2 then .inr 1
          else if g.cores && sumOf (c.hearths.map fun h => s.room h (fun _ => false) g) < g.total || (g.cores && !s.areasFit g fun _ => false) then .inr 3
          else if k.preempt && saveQuota < g.saveBytes then .inr 4
          else if (parent.isSome && ndep != 0) || g.edges.any fun e =>
              match tabGet s.queues e.q with
              | some q => q.prog ≤ e.rec_
              | none => true then .inr 5
          else .inl { g with edges := g.edges.filter fun e => !(s.queueAt e.q).outlived }

/-- The DONE of a queue that is switched out is advanced in its descriptor, by an atomic write at the descriptor's home (R370). -/
def State.writeDone (s : State) (q : Queue) : State := if q.die.isNone then s.storeOwn ownDone (q.desc + 32) (leBytes 8 q.done) else s

/-- Records retired or refused in order raise DONE (R368). -/
def advanceDone : Nat → Nat → List Nat → Nat × List Nat
  | 0, d, l => (d, l)
  | n + 1, d, l => if l.contains d then advanceDone n (d + 1) (l.filter (· != d)) else (d, l)

/-- A record of a queue has retired or been refused (R368, R370). -/
def State.finish (s : State) (qn rec_ : Nat) : State :=
  let q := s.queueAt qn
  let fin := q.fin ++ [rec_]
  let (d, l) := advanceDone fin.length q.done fin
  let q := { q with done := d, fin := l }
  (({ s with queues := tabSet s.queues qn q } : State).giveBack qn (s.queueAt qn).done d).writeDone q

/-- The bytes of slot n mod NSLOT of a queue's window (R369): in host memory, or in BAR2 in plain PCIe mode. -/
def State.slotBytes (s : State) (qn : Nat) (q : Queue) (n : Nat) : List Byte :=
  if s.cxl then s.peek (q.slotPa n) 256 else (List.range 256).map fun i => tabD s.bar2 (qn * 2 ^ 20 + 256 * (n % max q.nslot 1) + i) 0

/-- A queue's switch-out runs: no further record of it is parsed (R370). -/
def State.leaving (s : State) (qn : Nat) : Bool := s.cmd.run == some (0x0B, qn + 1)

/-- The seal record n must carry (R369). -/
def sealOf (n nslot : Nat) : Nat := n / max nslot 1 % 255 + 1

/-- A record consumed (R372): accepted as a grid, or refused with its reason. PROG advances. -/
def State.consume (s : State) (qn : Nat) (addr : Nat) (b : List Byte) : State :=
  let q := s.queueAt qn
  let n := q.prog
  let s : State := if s.recd.armed && s.recd.ctx == q.ctx then { s with recd := { s.recd with armed := false, active := true } } else s
  let s := s.trace q.ctx 1 (q.die.getD 0) (leBytes 8 qn ++ leBytes 8 addr)
  match s.parse (q.die.getD 0) q.ctx b none with
  | .inl g =>
    let s := { s with queues := tabSet s.queues qn { q with prog := n + 1 } }
    { s.newId with grids := tabSet s.grids s.nextId { g with q := qn, rec_ := n, prio := q.prio, latency := q.latency } }
  | .inr reason =>
    let s := { s with queues := tabSet s.queues qn { q with prog := n + 1, err := n % 2 ^ 48 + reason * 2 ^ 48 } }
    (s.irq q.vec).finish qn n

/-- The address by which a record's bytes are named: host memory, or the BAR2 offset (R333). -/
def State.slotAddr (s : State) (qn : Nat) (q : Queue) (n : Nat) : Nat :=
  if s.cxl then q.slotPa n else qn * 2 ^ 20 + 256 * (n % max q.nslot 1)

/-- A resident queue's next record is sealed and may be read (R6, R322, R369, R370); a replayed context's windows are not parsed. How a
launch is refused before coolant is confirmed is the model's choice (log 63): its record stays unread, with no ERR and no interrupt, and is
accepted once coolant is confirmed. -/
def State.sealedQ (s : State) (qn : Nat) (q : Queue) : Bool :=
  q.die.isSome && s.coolant && !(s.recording q.ctx && s.recd.replay) && !(tabD s.ctxs q.ctx {}).ending &&
    !s.leaving qn && !(s.cxl && s.readHeld (q.slotPa q.prog) 256) &&
    ((s.slotBytes qn q q.prog).getD 255 0).toNat == sealOf q.prog q.nslot

/-- The launch a replay's next record names at this clock (R334): queue and address. -/
def State.replayLaunch (s : State) : Option (Nat × Nat) :=
  if s.coolant && s.recd.active && s.recd.replay && !s.recd.mismatch then
    match s.nextRecord with
    | some b => if recType b = 1 && recClock b = s.runClock s.recd.ctx then some (recWord b 0, recWord b 1) else none
    | none => none
  else none

/-- The dispatcher reads a sealed record (R372), and then holds the seal line of the next slot (R369): `ev.a` names the queue; with `ev.flag`
it is a replay's (R334). -/
def execLaunchRecord (s : State) : Res :=
  onEvent s fun s =>
    if s.ev.flag then
      match s.replayLaunch with
      | some (qn, addr) =>
        (s.consumeRecords 1).consume qn addr
          (if s.cxl then s.peek addr 256 else (List.range 256).map fun i => tabD s.bar2 (addr + i) 0)
      | none => s
    else
      let q := s.queueAt s.ev.a
      if s.sealedQ s.ev.a q then
        let t := (if s.cxl then s.readLines (q.slotPa q.prog) 256 else s).consume s.ev.a (s.slotAddr s.ev.a q q.prog) (s.slotBytes s.ev.a q q.prog)
        t.holdSeal (t.queueAt s.ev.a)
      else s

/-! ### `launch` and `cwait` (R115, R116, R216) -/

/-- A grid and its ancestors. -/
def State.ancestors (s : State) : Nat → Nat → List Nat
  | 0, _ => []
  | n + 1, gid =>
    gid :: (match (s.gridAt gid).pgrid with
      | some p => s.ancestors n p
      | none => [])

/-- The grid of a workgroup, placed or saved. -/
def State.gridNo (s : State) (wg : Nat) : Nat :=
  match tabGet s.wgs wg with
  | some w => w.grid
  | none => ((s.saved.find? fun v => v.wgid == wg).map (·.wg.grid)).getD 0

/-- A co-resident child cannot fit beside its resident ancestors (R216). -/
def State.childStuck (s : State) (gid : Nat) (child : Grid) : Bool :=
  let anc := s.ancestors 12 gid
  child.cores && (s.gridAt gid).cores &&
    (sumOf ((tabD s.ctxs child.ctx {}).hearths.map fun h => s.room h anc.contains child) < child.total ||
      !s.areasFit child fun x => anc.contains (s.gridNo x.wg))

/-- Children of a group that have not retired (R115). -/
def State.children (s : State) (g : Group) : Nat := (s.grids.filter fun (p : Nat × Grid) => p.2.parent == some g.name).length

/-- The child of a `launch` starts once the group has fewer than 64 and its earlier accesses are visible; until then the stoker waits
with the child as its record gave it (R115). -/
def State.beget (s : State) (k : Nat) (g : Group) (child : Grid) : State :=
  if 64 ≤ s.children g || s.stokerPending g.name scopeDev then s.setG k { g with sWait := true, launching := some child }
  else { s.newId with grids := tabSet s.grids s.nextId child }.setG k ({ g with launching := none }.adv 4)

/-- `launch` (R115). The record is read once, at issue. The order of the launch fault for the group or its depth before the reading, and
the use of a poisoned record as it reads, are the model's (log 64). -/
def execLaunch (sa : BitVec 6) (s : State) : Res :=
  onStoker s fun k g =>
    let a := g.sGet sa.toNat
    let gid := (s.wgOf g.wg).grid
    let gr := s.gridAt gid
    let fault : Trap := { code := 0x12, addr := a.val }
    match g.launching with
    | some child => s.beget k g child
    | none =>
    if g.hnd.isSome then s.trapS k g (trapOperand 0)
    else if a.pz then s.trapS k g (trapPoison a.val 256)
    else if a.val.toNat % 256 != 0 then s.trapS k g (trapOperand a.val)
    else if (g.kern.team != 0 && g.gidx % g.kern.team != 0) || 10 ≤ gr.depth then s.trapS k g fault
    else
      match s.readRange k g a.val 256 with
      | (s, .inr t) => s.trapS k (s.fresh k g) t
      | (s, .inl none) => s.waitS k
      | (s, .inl (some (b, _))) =>
        let g := s.fresh k g
        match s.parse (dieOf (hearthOf k)) g.ctx b (some (g.wg, g.gidx, gid, gr)) with
        | .inr _ => s.trapS k g fault
        | .inl child =>
          if s.childStuck gid child then s.trapS k g fault
          else
            s.beget k g
              { child with
                q := gr.q, rec_ := gr.rec_, parent := some g.name, pgrid := some gid, depth := gr.depth + 1, prio := gr.prio,
                latency := gr.latency }

/-- `cwait` (R116). -/
def execCwait (s : State) : Res :=
  onStoker s fun k g =>
    if g.hnd.isSome then s.trapS k g (trapOperand 0)
    else if s.children g = 0 then s.setG k (g.adv 4) else s.waitS k

/-! ### Barriers (R88, R109, R110, R212, R213) -/

/-- Every party of a barrier has arrived at an instance or retired: the groups of a workgroup, or of a grid. `n` is the
instance, counted from 1. -/
def State.released (s : State) (g : Group) (grid : Bool) (n : Nat) : Bool :=
  let gid := s.gridNo g.wg
  let inSame := fun (x : Group) => if grid then (s.wgOf x.wg).grid == gid else x.wg == g.wg
  let placed := !grid || (s.gridAt gid).total ≤ (s.gridAt gid).next
  let savedIn := !grid || s.saved.all fun v => v.wg.grid != gid || v.groups.all fun (p : Nat × Group) => n ≤ p.2.gbars
  placed && savedIn && (tabVals s.groups).all fun x => !inSame x || n ≤ (if grid then x.gbars else x.wgbars)

/-- Every group that waits with `g` at a barrier whose last party has arrived goes on past it (R213); one that is saved goes on at its
restore (R88). -/
def State.openBarrier (s : State) (g : Group) (grid : Bool) : State :=
  let gid := s.gridNo g.wg
  { s with
    groups := s.groups.map fun (p : Nat × Group) =>
      let x := p.2
      if x.arrived = some grid && !x.saved && (if grid then (s.wgOf x.wg).grid == gid else x.wg == g.wg) &&
        s.released x grid (if grid then x.gbars else x.wgbars) then (p.1, { x with arrived := none, sWait := false }.adv 4)
      else p }

/-- A barrier (R88, R109, R212): the group arrives once its earlier accesses are performed as a release at the barrier's scope orders
them, and waits for the others. It stays arrived while it waits. In a handler it is an illegal operand. -/
def barrier (s : State) (grid : Bool) : Res :=
  onStoker s fun k g =>
    if g.hnd.isSome || (grid && !(s.gridOf g).cores) then s.trapS k g (trapOperand 0)
    else if g.arrived.isNone && s.stokerPending g.name (if grid then scopeDev else scopeWg) then s.waitS k
    else
      let g := if g.arrived.isSome then g
        else if grid then { g with gbars := g.gbars + 1, arrived := some true } else { g with wgbars := g.wgbars + 1, arrived := some false }
      let s := s.setG k g
      if s.released g grid (if grid then g.gbars else g.wgbars) then s.openBarrier g grid else s.waitS k

/-! ### Retirement (R24, R27, R97) -/

/-- A workgroup whose groups have all retired leaves its hearth (R24). -/
def State.endWg (s : State) (n : Nat) : State :=
  let w := s.wgOf n
  if w.slots.length ≤ w.retired.length then
    { s with wgs := tabDel s.wgs n, grids := tabMod s.grids w.grid fun g => { g with live := g.live - 1 } }
  else s

/-- A group of a context leaves in this clock, which is one of its resident clocks still (R41, R342). -/
def State.lastClock (s : State) (ctx : Nat) : State := { s with ctxs := tabMod s.ctxs ctx fun c => { c with left := some s.clk } }

/-- A group retires (R97): its frames return to the pool, its private lines are dropped, its footprint is free, and it counts
as arrived at every later barrier, where those that waited for it go on. Members that wait for it at `mma` take the team fault
(R347). -/
def State.retire (s : State) (k : Nat) (g : Group) : State :=
  let s := (s.returnFrames k g false).forgetGroup k
  let s := s.l1Drop (hearthOf k) fun l => l.kind == .priv && g.pb ≤ keyPa l.key && keyPa l.key < g.pb + g.areaBytes
  let s := { s with groups := tabDel s.groups k }.teamFaults g
  let s := (s.openBarrier g false).openBarrier g true
  let s := s.lastClock g.ctx
  (s.modWg g.wg fun w => { w with retired := addOnce w.retired g.gidx }).endWg g.wg

/-- A group still has a copy, a matrix operation or a projection in flight, or writes of one that has stopped (R97, R255). -/
def State.engaged (s : State) (g : Group) : Bool :=
  (s.copies.any fun c => c.wg == g.wg && c.gidx == g.gidx) || (s.mats.any fun m => m.wg == g.wg && m.members.contains g.gidx) ||
    (s.projs.any fun p => p.owner == g.name) || s.pend.any fun p => p.owner.isNone && g.spent.contains p.blk

/-- `exit` (R97). Values that would land are discarded. In a handler it is an illegal operand, which escalates (R266). -/
def execExit (s : State) : Res :=
  onStoker s fun k g =>
    if g.hnd.isSome then s.trapS k g (trapOperand 0)
    else if (g.blocks.any fun b => b.st != .stopped) || s.pending g.name || s.engaged g then s.waitS k
    else s.retire k g

/-- A grid whose workgroups have all retired and that has no child left (R27), and for a root grid, whose record's DONE is to pass, no
write to another module within a region of an edge on it unacknowledged (R373) and no gathered bit on its way (R242). -/
def State.gridOver (s : State) (gid : Nat) (g : Grid) : Bool :=
  g.live == 0 && g.total ≤ g.next && (!s.grids.any fun (p : Nat × Grid) => p.2.pgrid == some gid) &&
    (g.parent.isSome || (!s.gathering g.ctx && (s.edgesOn g.q g.rec_ (g.rec_ + 1)).all s.edgeQuiet))

/-- A grid retires (R27, R368): `ev.a` names it. A root grid's record is finished after the
context's gathered bits are written (R242), and its interrupts are raised; a child's, where its record asks for one, by the vector of the
queue its root grid came from (R371). -/
def execGridRetire (s : State) : Res :=
  onEvent s fun s =>
    match tabGet s.grids s.ev.a with
    | some g =>
      if s.gridOver s.ev.a g then
        let q := s.queueAt g.q
        let gone := fun (s : State) => ({ s with grids := tabDel s.grids s.ev.a } : State)
        if g.parent.isSome then (if g.irq then (gone s).irq q.vec else gone s)
        else
          let s := s.harvest g.ctx
          if s.gathering g.ctx then s
          else if g.irq || q.irq then ((gone s).finish g.q g.rec_).irq q.vec
          else (gone s).finish g.q g.rec_
      else s
    | none => s

/-! ### Barriers (R109, R110) -/

/-- `wgbar` (R109). -/
def execWgbar (s : State) : Res := barrier s false

/-- `gbar` (R110). -/
def execGbar (s : State) : Res := barrier s true

end Sys2Proof.Machine
end

