-- ==== Sys2Proof/Machine/Save.lean ====
section
/-! DEFINITION. The damper, the save of groups and workgroups and their restore (R88, R112, R179, R198, R199, R215, R224,
R233, R269, R341, R352, R376–R380), and the traps of the group timer and the deadline alarm (R382). -/

namespace Sys2Proof.Machine

/-! ### Saving a group (R88, R179, R198, R219, R269) -/

/-- A group's grid is pre-emptible (R371). -/
def State.preemptible (s : State) (g : Group) : Bool := (s.gridOf g).kern.preempt

/-- A split with the loads and `ldv` discarded that have not come, to be issued again at restore (R179). -/
def Split.discard (sp : Split) (clk : Nat) : Split :=
  let came := cameOf clk [] sp.outs
  { sp with
    waiting := false, bound := none,
    outs := sp.outs.map fun o =>
      if o.isLoad && !came.contains o then o.retry else o }

/-- The loads of another module that a group's stoker still waits for, as they are issued again (R88). -/
def State.lostLoads (s : State) (n : Nat × Nat) : List Redo :=
  s.pend.filterMap fun p =>
    match p.kind with
    | .lost d w pc =>
      if p.owner == some n && p.blk == 0 then
        match d with
        | .scalar r signed => some (.load r signed p.va pc w p.acq)
        | .reader _ _ => none
        | _ => some (.load 0 false p.va pc w p.acq)
      else none
    | _ => none

/-- A trap that a save meets raised and not yet taken is discarded: its instruction, which a software trap stands behind, issues
again; a timer's or an alarm's, of no instruction, stays (R269, R382). -/
def Group.dropRaised (g : Group) : Group :=
  match g.raised with
  | some t =>
    { g with
      raised := none, spc := if t.code = 0x04 then g.spc - 4 else g.spc,
      pendTraps := if t.code = 0x14 || t.code = 0x15 then t :: g.pendTraps else g.pendTraps }
  | none => g

/-- A group stopped for a save: loads and unfinished `vset` are discarded, to be issued again, and every other complete result is
written. The traps that still wait are those of no instruction: they stay (R88, R179, R198, R269, R382). -/
def Group.stop (g : Group) (lost : List Redo) (clk : Nat) : Group :=
  let d : Group :=
    { g.dropRaised with
      slot0 := g.slot0.map (·.discard clk), slot1 := g.slot1.map (·.discard clk),
      spilled := g.spilled.map fun p => (p.1, p.2.discard clk) }
  { d.landAll with
    saved := true, sWait := false, launching := none, got := none, wBusy := [],
    redo := lost ++ (g.wBusy.map fun p => Redo.vset p.1 p.2.addr p.2.pc) ++ g.redo }

/-- The lines lent to a hearth go back to their homes (R233). -/
def State.returnLent (s : State) (h : Nat) : State :=
  s.homes.foldl (fun s (p : Nat × Home) => if p.2.lent = some h then s.returnLine p.1 else s) s

/-- The records of a context in a hearth's coalescer are closed at once (R260, R269). -/
def State.closeRecs (s : State) (h ctx : Nat) : State :=
  { s with recs := s.recs.map fun r => if r.hearth = h && r.ctx = ctx then { r with closed := true } else r }

/-- The projections of a context on a hearth are abandoned (R198); an `ldv` that waits for one is issued again. -/
def State.abandonProjs (s : State) (h ctx : Nat) : State := s.dropProjs fun p => p.hearth == h && p.ctx == ctx

/-- A group's dirty private lines written back, and its private lines dropped from L1 (R219). -/
def State.flushPriv (s : State) (k : Nat) (g : Group) : State :=
  let h := hearthOf k
  let mine := fun (l : L1Line) => l.kind == .priv && g.pb ≤ keyPa l.key && keyPa l.key < g.pb + g.areaBytes
  (((s.l1All h).filter mine).foldl (fun s l => s.l1Evicted h l) s).l1Drop h mine

/-- The loads of another module of a group dropped (R88, R179). -/
def State.unlost (s : State) (n : Nat × Nat) : State := { s with pend := s.pend.filter fun p => !(p.owner == some n && p.isLost) }

/-- A group is saved at its boundary (R88, R179, R198, R233, R269, R377). -/
def State.saveGroup (s : State) (k : Nat) (g : Group) : State :=
  let h := hearthOf k
  let lost := s.lostLoads g.name
  let s := (((((s.setG k g).forgetGroup k).withdraw g).unlost g.name).abandonProjs h g.ctx).returnLent h
  ((s.closeRecs h g.ctx).flushPriv k g).modG k fun g => g.stop lost s.clk

/-! ### Saving a workgroup (R224, R352, R377, R379) -/

/-- A line of L2 marked retained (R224). -/
def State.retain (s : State) (pa : Nat) : State :=
  { s with l2 := tabMod s.l2 pa fun l => { l with retained := true } }

/-- A scratchpad page written since it became resident is written to its backing through L2, as retained lines (R224). -/
def State.backUpPage (s : State) (w : Wg) (page : Nat) (x : SpPage) : State :=
  let back := s.backPage w x.back
  let s := (List.range 32).foldl (fun s i =>
    (s.touchL2 (physKey (back + 128 * i)) true false).retain (back + 128 * i)) s
  (List.range 128).foldl (fun s i =>
    s.poke (back + 32 * i) (w.spRead (4096 * page + 32 * i) 32) (w.spPz.contains (128 * page + i))) s

/-- Every written page of a workgroup backed up. -/
def State.backUp (s : State) (w : Wg) : State :=
  w.pages.foldl (fun s (p : Nat × SpPage) => if p.2.resident && p.2.written then s.backUpPage w p.1 p.2 else s) s

/-- The workgroup as it is kept: its pages not resident, and their bytes in the backing. -/
def Wg.parked (w : Wg) : Wg :=
  { w with sp := [], spPz := [], pages := w.pages.map fun (p : Nat × SpPage) => (p.1, { p.2 with resident := false, written := false }) }

/-- A context whose pre-emptible workgroups are all saved: the damper is lowered and its command completes; the hold on
placement stays (R377). -/
def State.damperDone (s : State) (ctx : Nat) : State :=
  if (tabD s.ctxs ctx {}).damper && !(tabVals s.wgs).any fun w => w.ctx == ctx && (s.gridAt w.grid).kern.preempt then
    ({ s with ctxs := tabMod s.ctxs ctx fun c => { c with damper := false, deadline := none } } : State).cmdEnd 0x0A ctx
  else s

/-- A workgroup may leave: every group is saved and none is on its way back, the matrix engine is in no step of an operation of it, no unit
that its engines have sent to another module is out, and no trap record of its context on its hearth can still be delivered (R269, R341,
R352, R378, R380). -/
def State.mayLeave (s : State) (n : Nat) : Bool :=
  let w := s.wgOf n
  (s.groups.all fun (p : Nat × Group) => p.2.wg != n || p.2.saved) && !(tabD s.ctxs w.ctx {}).restoring &&
    (!s.mats.any fun m => m.wg == n && (m.going || s.awaitsModule m.id)) && (!s.copies.any fun c => c.wg == n && s.awaitsModule c.id) &&
    !((s.recs.any fun r => r.hearth == w.hearth && r.ctx == w.ctx && r.closed && !r.held) && (s.fq (dieOf w.hearth)).room)

/-- The older contexts' state in a hearth's save area moves to their SAVEBACK, at 1.5 MiB for each hearth; its layout there is not given, so
the bytes are free (R379, log 19). -/
def State.moveOut (s : State) (h ctx : Nat) : State :=
  let older := fun (x : Saved) => x.wg.hearth == h && x.wg.ctx != ctx && !x.moved
  let s' := (((s.saved.filter older).map (·.wg.ctx)).foldl addOnce []).foldl (fun s c =>
    s.stamp.pokeRaw ((tabD s.ctxs c {}).saveback + 1572864 * h) ((List.range 1572864).map (Config.saveByte s.free))) s
  { s' with saved := s'.saved.map fun x => if older x then { x with moved := true } else x }

/-- A workgroup all of whose groups are saved leaves its hearth (R341, R352, R377, R379): its engine operations, locks, view
entries and undelivered records go with it, and an older saved context of that hearth moves to its SAVEBACK. -/
def State.saveWg (s : State) (n : Nat) : State :=
  let w := s.wgOf n
  let gs := s.groups.filter fun (p : Nat × Group) => p.2.wg == n
  if gs.isEmpty || !s.mayLeave n then s
  else
    let h := w.hearth
    let s := (s.backUp w).moveOut h w.ctx
    let v : Saved :=
      { wgid := n, wg := w.parked, groups := gs, copies := s.copies.filter (·.wg == n),
        crecs := (s.copies.filter (·.wg == n)).map Copy.record, mats := s.mats.filter (·.wg == n), locks := (tabVals s.locks).filter (·.wg == n),
        views := (s.heldSlots h fun g => g.wg == n).map fun slot => (slot, s.vent h slot),
        recs := (s.recs.filter fun r => r.hearth == h && r.ctx == w.ctx && r.closed).map fun r => { r with held := false, kept := true } }
    { s with
      wgs := tabDel s.wgs n, groups := s.groups.filter fun (p : Nat × Group) => p.2.wg != n,
      pend := s.pend.filter fun p =>
        !(p.owner.isNone && p.isLost && ((v.copies.any fun c => c.id == p.blk) || v.mats.any fun m => m.id == p.blk)),
      copies := s.copies.filter (·.wg != n), mats := s.mats.filter (·.wg != n), locks := s.locks.filter (·.2.wg != n),
      recs := s.recs.filter fun r => !(r.hearth == h && r.ctx == w.ctx && r.closed),
      saved := s.saved ++ [v] }

/-- What follows the save of a group: its workgroup, and the damper's command. -/
def State.settle (s : State) (wg ctx : Nat) : State := (s.saveWg wg).damperDone ctx

/-- `yield` (R88, R112, R376): every block is retired; under a raised damper a group of a pre-emptible grid is saved past
it, and this clock is the last it is resident in (R342). In a handler it is an illegal operand (R266). -/
def execYield (s : State) : Res :=
  onStoker s fun k g =>
    if g.hnd.isSome then s.trapS k g (trapOperand 0)
    else
      match s.retireAll g with
      | none => s.waitS k
      | some g =>
        let g := g.adv 4
        if (tabD s.ctxs g.ctx {}).damper && s.preemptible g then
          ((s.lastClock g.ctx).saveGroup k { g with gtime := g.gtime + 1 }).settle g.wg g.ctx
        else s.setG k g

/-- Another group of a co-resident grid is saved, on its hearth or away (R215). -/
def State.partSaved (s : State) (g : Group) : Bool :=
  let gid := (s.wgOf g.wg).grid
  (s.gridAt gid).cores &&
    (s.saved.any (fun v => v.wg.grid == gid) || s.groups.any fun (p : Nat × Group) => p.2.saved && (s.wgOf p.2.wg).grid == gid)

/-- A group is to be saved by force: the deadline has passed, or its co-resident grid is being saved (R215, R377). -/
def State.mustSave (s : State) (g : Group) : Bool :=
  let c := tabD s.ctxs g.ctx {}
  !g.saved && c.damper && s.preemptible g && ((c.deadline.any fun d => d ≤ c.run) || s.partSaved g)

/-- A forced save reaches a group (R377): `ev.a` its key. A group saved already leaves with its workgroup once the last other
group of it is saved or has retired. -/
def execForcedSave (s : State) : Res :=
  onEvent s fun s =>
    match s.grp s.ev.a with
    | some g =>
      if s.mustSave g then (s.saveGroup s.ev.a g).settle g.wg g.ctx else if g.saved then s.settle g.wg g.ctx else s
    | none => s

/-! ### Restoring a context (R179, R198, R199, R215, R269, R341, R352, R380) -/

/-- A saved workgroup fits where it was (R380): its slots are free, each partition has the register bytes of its groups, and the rest of its
footprint is there. -/
def State.returns (s : State) (v : Saved) : Bool :=
  let g := s.gridAt v.wg.grid
  let h := v.wg.hearth
  let fitsIn := fun p =>
    let mine := v.groups.filter fun (q : Nat × Group) => q.1 % 128 / 32 == p
    sumOf ((s.partGroups h p fun _ => true).map fun x => x.base.laneBytes) + mine.length * g.kern.laneBytes ≤ 262144
  (v.groups.all fun (q : Nat × Group) => (tabGet s.groups q.1).isNone) && (List.range 4).all fitsIn && s.wgRoom h (fun _ => true) g 1 != 0

/-- The entries the saved view entries return to: the free one of lowest number, or the one an entry shared with a workgroup that is
back already has; never frozen-clean (R188). Old slot, old generation, new slot, new generation (R199). -/
def State.viewMoves (s : State) (h : Nat) (vs : List (Nat × VEnt)) : List (Nat × Nat × Nat × Nat) × State :=
  let held := s.heldSlots h fun _ => true
  vs.foldl (fun (acc : List (Nat × Nat × Nat × Nat) × State) (p : Nat × VEnt) =>
    let s := acc.2
    let free := (List.range 256).find? fun n => !held.contains n && !acc.1.any fun m => m.2.2.1 == n
    match held.find? fun n => (s.vent h n).origin == some (p.1, p.2.gen), free with
    | some n, _ => (acc.1 ++ [(p.1, p.2.gen, n, (s.vent h n).gen)], s)
    | none, some n =>
      let s := s.fillEntry h n { p.2 with fclean := false, origin := some (p.1, p.2.gen) }
      (acc.1 ++ [(p.1, p.2.gen, n, (s.vent h n).gen)], s)
    | none, none => acc) ([], s)

/-- A view register that named a saved entry rewritten (R199). -/
def VwReg.moved (w : VwReg) (mv : List (Nat × Nat × Nat × Nat)) : VwReg :=
  match (if w.bound then mv.find? (fun m => m.1 == w.slot.toNat && m.2.1 == w.gen.toNat) else none) with
  | some m => { w with slot := BitVec.ofNat 8 m.2.2.1, gen := BitVec.ofNat 32 m.2.2.2 }
  | none => w

/-- A block's snapshot with its view registers rewritten. -/
def Block.moved (b : Block) (mv : List (Nat × Nat × Nat × Nat)) : Block :=
  { b with snap := { b.snap with w := b.snap.w.map fun (p : Nat × VwReg) => (p.1, p.2.moved mv) } }

/-- A group in its place again, still stopped, with its views rewritten (R199). -/
def Group.moved (g : Group) (mv : List (Nat × Nat × Nat × Nat)) : Group :=
  { g with
    w := g.w.map fun (p : Nat × VwReg) => (p.1, p.2.moved mv), blocks := g.blocks.map (·.moved mv),
    hnd := g.hnd.map fun f => { f with blocks := f.blocks.map (·.moved mv) } }

/-- A group as it resumes (R203, R209): its splits in their slots anew, its counts 0. What is left of a demotion that the save interrupted
still counts: R204 does not say what becomes of it (DESIGN CHOICE, log 7). -/
def Group.resumed (g : Group) (clk : Nat) : Group :=
  { g with
    saved := false, slot0 := g.slot0.map Split.enter, slot1 := g.slot1.map Split.enter,
    lpass := 0, spass := 0, lesc := none, sesc := none, lsince := clk, ssince := clk, laneBusy := 0, lastL := none, lastS := none }

/-- A saved workgroup placed again where it was, none while it does not fit (R380): its groups stay stopped, and its engine operations and
locks wait to be registered. -/
def State.restoreOne (s : State) (v : Saved) : Option State :=
  if !v.back && s.returns v then
    let h := v.wg.hearth
    let s := s.returnLent h
    let s : State :=
      { s with
        recs := v.recs ++ s.recs, wgs := tabSet s.wgs v.wgid v.wg,
        saved := s.saved.map fun x => if x.wgid = v.wgid then { x with groups := [], views := [], recs := [], back := true } else x }
    let (mv, s) := s.viewMoves h v.views
    let s := v.groups.foldl (fun s (p : Nat × Group) => s.setG p.1 (p.2.moved mv)) s
    some (if (s.gridAt v.wg.grid).kern.preempt then s.l2Trim (dieOf h) else s)
  else none

/-- The saved workgroups that return together: the whole of a co-resident grid, else one (R215). -/
def State.restoreSet (s : State) (v : Saved) : List Saved :=
  if (s.gridAt v.wg.grid).cores then s.saved.filter fun x => x.wg.grid == v.wg.grid else [v]

/-- A saved workgroup returned with those it returns together with. -/
def State.restoreAll (s : State) (v : Saved) : Option State :=
  (s.restoreSet v).foldl (fun (o : Option State) x => o.bind fun s => s.restoreOne x) (some s)

/-- What is kept of a context's saved workgroups. -/
def State.savedWgs (s : State) (ctx : Nat) : List Saved := s.saved.filter fun v => v.wg.ctx == ctx

/-- Range-lock entries that the saved workgroups of a context need on a hearth. -/
def State.locksDue (s : State) (ctx h : Nat) : Nat :=
  sumOf (((s.savedWgs ctx).filter fun v => v.wg.hearth == h).map fun v => v.locks.length)

/-- Every saved workgroup of a context is placed, and each hearth has entries for all their locks (R380). -/
def State.registers (s : State) (ctx : Nat) : Bool :=
  !(s.savedWgs ctx).isEmpty && (s.savedWgs ctx).all fun v => v.back && decide (s.locksDue ctx v.wg.hearth ≤ (s.freeLocks v.wg.hearth).length)

/-- A matrix operation put among others in the order of their identifiers, which is that of registration. -/
def putInOrder (m : MatOp) : List MatOp → List MatOp
  | [] => [m]
  | x :: r => if m.id < x.id then m :: x :: r else x :: putInOrder m r

/-- The engine operations of a context's saved workgroups registered again, in their old order, with their locks (R341, R352, R380). -/
def State.registerOps (s : State) (ctx : Nat) : State :=
  let mine := s.savedWgs ctx
  let s := mine.foldl (fun s v => s.addLocks v.wg.hearth v.locks) s
  { s with
    copies := s.copies ++ (mine.map fun v => (v.copies.zip v.crecs).map fun p => p.1.returned p.2 s.clk).flatten,
    mats := s.mats ++ ((mine.map (·.mats)).flatten.foldr putInOrder []).map fun m => { m with next := s.clk + 1, going := false },
    saved := s.saved.filter fun v => v.wg.ctx != ctx }

/-- The groups of a restored context may resume: their operations are registered, and no atomic of theirs is still to be performed
(R377, R380). -/
def State.resumes (s : State) (ctx : Nat) : Bool :=
  (tabD s.ctxs ctx {}).restoring && (s.savedWgs ctx).isEmpty &&
    !s.pend.any fun p => p.isAtomic && s.groups.any fun (q : Nat × Group) => q.2.ctx == ctx && q.2.saved && p.owner == some q.2.name

/-- The groups of a context resume: its command completes and the hold ends (R377, R380). -/
def State.resumeAll (s : State) (ctx : Nat) : State :=
  ({ s with
      groups := s.groups.map fun (p : Nat × Group) => if p.2.ctx = ctx && p.2.saved then (p.1, p.2.resumed s.clk) else p,
      ctxs := tabMod s.ctxs ctx fun c => { c with restoring := false, hold := false } } : State).cmdEnd 0x0C ctx

/-- A context's restore goes on as far as it can, once its workgroups are placed (R380). -/
def State.restoreOn (s : State) (ctx : Nat) : State :=
  let s := if s.registers ctx then s.registerOps ctx else s
  if s.resumes ctx then s.resumeAll ctx else s

/-- A context's restore can go on. -/
def State.restoreGoes (s : State) (ctx : Nat) : Bool := s.registers ctx || s.resumes ctx

/-- A saved workgroup returns to its hearth (R380): `ev.a` its identifier. -/
def execRestoreWorkgroup (s : State) : Res :=
  onEvent s fun s =>
    match s.saved.find? fun v => v.wgid == s.ev.a && (tabD s.ctxs v.wg.ctx {}).restoring with
    | some v =>
      match s.restoreAll v with
      | some t => t.restoreOn v.wg.ctx
      | none => s
    | none => s

/-! ### The group timer and the deadline alarm (R382) -/

/-- A group's timer has run out and its trap has not been raised. -/
def State.timerOut (s : State) (g : Group) : Bool :=
  let n := (s.gridOf g).gtimer
  !g.saved && !g.timerTaken && n != 0 && n ≤ g.gtime

/-- A trap to be taken at the group's next stoker boundary (R263, R382). -/
def Group.raiseLater (g : Group) (code now : Nat) : Group :=
  { g with pendTraps := g.pendTraps ++ [{ code := code, tmask := fullMask g.width, time := some now }] }

/-- A group's timer trap is raised, once (R382): `ev.a` its key. -/
def execGroupTimerTrap (s : State) : Res :=
  onEvent s fun s =>
    match s.grp s.ev.a with
    | some g => if s.timerOut g then s.setG s.ev.a { g.raiseLater 0x14 s.now with timerTaken := true } else s
    | none => s

/-- A context's alarm is reached (R382): every group resident or saved takes it at its next stoker boundary. `ev.a` names
the context. -/
def execDeadlineAlarm (s : State) : Res :=
  onEvent s fun s =>
    let ctx := s.ev.a
    if (tabD s.ctxs ctx {}).alarm.any fun t => t ≤ s.now then
      let ring := fun (p : Nat × Group) => if p.2.ctx = ctx then (p.1, p.2.raiseLater 0x15 s.now) else p
      { s with
        ctxs := tabMod s.ctxs ctx fun c => { c with alarm := none }, groups := s.groups.map ring,
        saved := s.saved.map fun v => { v with groups := v.groups.map ring } }
    else s

end Sys2Proof.Machine
end

