-- ==== Sys2Proof/Machine/Commands.lean ====
section
/-! DEFINITION. The host interface: the commands 0x01 to 0x0F and the host's writes to the state window and to queue windows
(R240, R244, R261, R267, R307, R311, R327–R335, R367–R370, R377, R380, R382, R383). -/

namespace Sys2Proof.Machine

/-! ### Running a command (R330, R331) -/

/-- A host write to the state window is an inbound datum of a recording (R333; its address is the model's, log 66). -/
def State.traceWindow (s : State) (off : Nat) (data : List Byte) : State := s.traceDatum 0 (bar0Base + off) data

/-- A command is started with the operands of its event (R330): one written while another runs is ignored with STATUS 3, and in
recovery only 0x08 and 0x09 run (R331). A recording logs the write with the four argument words it takes. -/
def State.command (s : State) (code : Nat) (f : State → State) : State :=
  let words := [code, s.ev.a, s.ev.b, s.ev.c, s.ev.d].foldr (fun x acc => leBytes 8 x ++ acc) []
  let s := s.traceWindow 0x1000 (words ++ s.ev.data)
  if s.cmd.run.isSome then { s with cmd := { s.cmd with status := 3 } }
  else
    let args := [s.ev.a, s.ev.b, s.ev.c, s.ev.d]
    let s : State :=
      { s with
        cmd := { cmd := BitVec.ofNat 64 code, args := args.map (BitVec.ofNat 64), status := 1, run := some (code, 0), held := args } }
    if s.recovery && code != 8 && code != 9 then s.cmdRefuse else f s

/-- The running command waits on a subject. -/
def State.cmdOn (s : State) (code subject : Nat) : State := { s with cmd := { s.cmd with run := some (code, subject) } }

/-- Operand i the running command was started with. -/
def State.cmdOperand (s : State) (i : Nat) : Nat := s.cmd.held.getD i 0

/-- A context that is loaded and has not ended (R367, R383). -/
def State.ctxLive (s : State) (n : Nat) : Bool := (tabGet s.ctxs n).any fun c => !c.ended

/-- A command on a context that does not exist is refused (R331). -/
def State.onCtx (s : State) (n : Nat) (f : Ctx → State) : State :=
  match tabGet s.ctxs n with
  | some c => if c.ended then s.cmdRefuse else f c
  | none => s.cmdRefuse

/-! ### Shootdown, lift fence, pool add (R240, R244, R311) -/

/-- The accesses a shootdown waits for are performed, and the gathered bits it wrote back (R240 steps 1 and 3). -/
def State.shootdownOver (s : State) (bound : Nat) : Bool :=
  !s.ctxBusy (s.cmdOperand 0) bound

/-- The shootdown that runs completes, if it may. -/
def State.shootdownEnd (s : State) (code : Nat) : State :=
  match s.cmd.run with
  | some (c, bound) => if c = code && s.shootdownOver bound then s.cmdDone else s
  | none => s

/-- Command 0x01 (R240): `ev.a` the context, `ev.b` the address, `ev.c` the length. With `ev.flag` the running one goes on. -/
def cmdShootdown (s : State) : State :=
  if s.ev.flag then s.shootdownEnd 1
  else s.command 1 fun s => s.onCtx s.ev.a fun _ =>
    let t := s.shoot s.ev.a (BitVec.ofNat 64 s.ev.b) s.ev.c
    (t.cmdOn 1 t.nextId).shootdownEnd 1

/-- Command 0x04 (R311): `ev.a` the die, `ev.b` the die at the other end of the link. -/
def cmdLiftFence (s : State) : State :=
  s.command 4 fun s =>
    let (d, e) := (s.ev.a, s.ev.b)
    if d < 4 && e < 4 && d != e then
      let heal := fun (l : Link) => { l with dead := false, run := 0 }
      ({ s with
          fences := s.fences.filter fun f => !(f == (d, e) || f == (e, d)),
          links := tabMod (tabMod s.links (4 * d + e) heal) (4 * e + d) heal } : State).cmdDone
    else s.cmdRefuse

/-- Command 0x06 (R244): `ev.a` the die, `ev.b` the number of frames written at the tail. -/
def cmdPoolAdd (s : State) : State :=
  s.command 6 fun s =>
    let p := s.pool s.ev.a
    if s.ev.a < 4 && p.count.toNat + s.ev.b ≤ p.ringsize.toNat then
      (s.setPool s.ev.a { p with count := p.count + BitVec.ofNat 64 s.ev.b }).cmdDone
    else s.cmdRefuse

/-! ### Resuming and ending a group (R97, R108, R267, R269) -/

/-- The key of the group slot a command names, or none (R331). -/
def groupKey (die hearth slot : Nat) : Option Nat :=
  if die < 4 && hearth < 36 && slot < 128 then some ((36 * die + hearth) * 128 + slot) else none

/-- A group resident in a slot, or saved from it (R269). -/
def State.named (s : State) (k : Nat) : Option Group :=
  (s.grp k).orElse fun _ => s.saved.findSome? fun v => tabGet v.groups k

/-- The group a command names changed, resident or saved. -/
def State.modNamed (s : State) (k : Nat) (f : Group → Group) : State :=
  if (s.grp k).isSome then s.modG k f
  else { s with saved := s.saved.map fun v => { v with groups := tabMod v.groups k f } }

/-- Whether a group is suspended on an escalated trap (R264). -/
def Group.escalated (g : Group) : Bool := g.susp.any fun t => t.code != 0

/-- A suspended group resumes; skipped past the faulting instruction where one faulted (R267, R331). -/
def Group.resume (g : Group) (skip : Bool) : Group :=
  match g.susp with
  | some t =>
    let g := { g with susp := none }
    if skip && !resumesAfter t.code && !imprecise t.code then g.skipFault t else g
  | none => g

/-- Command 0x02 (R267, R331): `ev.a` die, `ev.b` hearth, `ev.c` group slot, `ev.d` bit 0 skip. -/
def cmdResumeGroup (s : State) : State :=
  s.command 2 fun s =>
    match groupKey s.ev.a s.ev.b s.ev.c with
    | some k =>
      match s.named k with
      | some g => if g.escalated then (s.modNamed k fun g => g.resume (s.ev.d % 2 == 1)).cmdDone else s.cmdRefuse
      | none => s.cmdRefuse
    | none => s.cmdRefuse

/-- A group that issues no more: its blocks, its handler, the traps it has not taken, what it waits in and what would land are gone
(R97, R108). -/
def Group.cleared (g : Group) : Group :=
  { g.giveUp with
    hnd := none, kern := g.base, blocks := [], slot0 := none, slot1 := none, spilled := [], pendTraps := [], raised := none, redo := [],
    yielded := none, sPend := [], wBusy := [], susp := some { code := 0 } }

/-- The parts of a group that others wait on or serve are withdrawn with it. -/
def State.clearGroup (s : State) (k : Nat) : State :=
  match s.named k with
  | some g => (((if (s.grp k).isSome then s.forgetGroup k else s).withdraw g).unlost g.name).modNamed k Group.cleared
  | none => s

/-- The saved workgroup of a group. -/
def State.savedOf (s : State) (n : Nat × Nat) : Option Saved := s.saved.find? fun v => v.groups.any fun p => p.2.name == n

/-- A group retires while it is saved: it leaves its saved workgroup, and the workgroup ends with its last group (R24, R97). -/
def State.retireSaved (s : State) (v : Saved) (n : Nat × Nat) : State :=
  let s := v.groups.foldl (fun s (p : Nat × Group) => if p.2.name == n then s.returnFrames p.1 p.2 false else s) s
  let left := v.groups.filter fun (p : Nat × Group) => p.2.name != n
  if left.isEmpty then
    { s with
      saved := s.saved.filter (·.wgid != v.wgid), grids := tabMod s.grids v.wg.grid fun g => { g with live := g.live - 1 } }
  else
    { s with
      saved := s.saved.map fun x =>
        if x.wgid = v.wgid then { x with groups := left, wg := { x.wg with retired := addOnce x.wg.retired n.2 } } else x }

/-- An engine operation of a group is kept with its saved workgroup (R341, R352). -/
def State.savedOps (s : State) (n : Nat × Nat) : Bool :=
  s.saved.any fun v => v.wgid == n.1 && ((v.copies.any fun c => c.gidx == n.2) || v.mats.any fun m => m.members.contains n.2)

/-- A cleared group may retire: its accesses are performed and its engine operations have completed (R97). -/
def State.mayRetire (s : State) (n : Nat × Nat) : Bool :=
  !s.pending n && !s.savedOps n &&
    match s.keyOf n with
    | some k => (s.grp k).all fun g => !s.engaged g
    | none => (s.savedOf n).all fun v =>
      !v.groups.any fun p => p.2.name == n && s.pend.any fun x => x.owner.isNone && p.2.spent.contains x.blk

/-- A cleared group retires. -/
def State.retireNamed (s : State) (n : Nat × Nat) : State :=
  match s.keyOf n with
  | some k =>
    match s.grp k with
    | some g => s.retire k g
    | none => s
  | none =>
    match s.savedOf n with
    | some v => s.retireSaved v n
    | none => s

/-- The group whose ending runs retires, if it may: the command's subject is workgroup × 32 + index. -/
def State.endGroupOn (s : State) : State :=
  match s.cmd.run with
  | some (c, x) => if c = 3 && s.mayRetire (x / 32, x % 32) then (s.retireNamed (x / 32, x % 32)).cmdDone else s
  | none => s

/-- Command 0x03 (R97, R108, R331): `ev.a` die, `ev.b` hearth, `ev.c` group slot. With `ev.flag` the running one goes on. -/
def cmdEndGroup (s : State) : State :=
  if s.ev.flag then s.endGroupOn
  else s.command 3 fun s =>
    match groupKey s.ev.a s.ev.b s.ev.c with
    | some k =>
      match s.named k with
      | some g => ((s.clearGroup k).cmdOn 3 (g.wg * 32 + g.gidx)).endGroupOn
      | none => s.cmdRefuse
    | none => s.cmdRefuse

/-! ### Repairing a freeze (R306, R307) -/

/-- A virtual address of 57 bits in canonical form. -/
def canon57 (x : Nat) : W64 := (BitVec.ofNat 57 x).signExtend 64

/-- The freeze-table entry whose page holds an address, by the table alone: its number, page and size. -/
def State.frzCover (s : State) (c : Ctx) (va : Nat) : Option (Nat × W64 × Nat) :=
  ((List.range c.frzn).find? fun i =>
    let base := s.peekNat (frzAt c i + 8) 8
    s.frzUsed c i && base ≤ va && va < base + pageBytes (bits (s.peekNat (frzAt c i) 8) 20 2)).map fun i =>
      (i, canon57 (s.peekNat (frzAt c i + 8) 8), pageBytes (bits (s.peekNat (frzAt c i) 8) 20 2))

/-- The refusals of a page lifted (R306, R307); a mark that stood for nothing else goes. -/
def State.liftRefusal (s : State) (ctx va : Nat) : State :=
  let here := fun (m : Mark) => m.ctx == ctx && decide (va57 m.va ≤ va) && decide (va < va57 m.va + m.size)
  { s with
    marks := (s.marks.map fun m => if here m then { m with refuse := [] } else m).filter fun m =>
      !here m || m.frozen || (s.frzPage m.ctx m.va).isSome }

/-- Whether some home of a page refuses a module's writes. -/
def State.refusing (s : State) (ctx va : Nat) : Bool :=
  s.marks.any fun m => m.ctx == ctx && va57 m.va ≤ va && va < va57 m.va + m.size && !m.refuse.isEmpty

/-- A thaw-failed page repaired (R307): to none, or to frozen when a freeze still counts. -/
def State.repair (s : State) (ctx : Nat) (c : Ctx) (i : Nat) (page : W64) (size : Nat) : State :=
  let e := s.frzEnt c i
  if e.count = 0 || c.ended then
    (((s.setFst ctx page 0).setEnt c i { e with state := 0, done := false, count := 0 }).clearMark ctx page).shoot ctx page size
  else
    (((s.setFst ctx page 1).setEnt c i { e with state := 1, done := true }).setMark ctx page size e.gen fun m =>
      { m with frozen := true, thawing := false, gen := e.gen }).shoot ctx page size

/-- The repair of a freeze: operands context and address. -/
def State.repairGo (s : State) : State :=
  match tabGet s.ctxs (s.cmdOperand 0) with
  | none => s.cmdRefuse
  | some c =>
    let (ctx, va) := (s.cmdOperand 0, s.cmdOperand 1 % 2 ^ 57)
    match s.frzCover c va with
    | some (i, page, size) =>
      if (s.frzEnt c i).state = 3 then
        s.whenQuiet ctx page fun s =>
          let s := (s.repair ctx c i page size).liftRefusal ctx va
          (s.cmdOn 5 s.nextId).shootdownEnd 5
      else if s.refusing ctx va then (s.liftRefusal ctx va).cmdDone
      else s.cmdRefuse
    | none => if s.refusing ctx va then (s.liftRefusal ctx va).cmdDone else s.cmdRefuse

/-- Command 0x05 (R306, R307): `ev.a` the context, which may have ended, `ev.b` the address. It completes with its shootdown;
with `ev.flag` the running one goes on. -/
def cmdRepairFreeze (s : State) : State :=
  if s.ev.flag then (if s.cmd.run = some (5, 0) then s.repairGo else s.shootdownEnd 5) else s.command 5 State.repairGo

/-! ### Recorded mode (R332–R335) -/

/-- The operands of command 0x07 are in range, and recorded mode is free (R335). -/
def State.recOk (s : State) (base size : Nat) : Bool :=
  base < 2 ^ 52 && base % 4096 == 0 && 65536 ≤ size && size ≤ 2 ^ 39 && size == 2 ^ size.log2 && !s.recd.active && !s.recd.armed

/-- Command 0x07 (R332, R334, R335): `ev.a` the context, `ev.b` the trace base, `ev.c` the size. A recording starts with the
context's next launch; a replay is in force at once. -/
def State.startRecorded (s : State) (replay : Bool) : State :=
  s.command 7 fun s => s.onCtx s.ev.a fun _ =>
    if s.recOk s.ev.b s.ev.c then
      ({ s with
          recd := {
            ctx := s.ev.a, active := replay, armed := !replay, replay := replay, stalled := replay, tbase := s.ev.b, tsize := s.ev.c } } :
            State).cmdDone
    else s.cmdRefuse

def cmdRecord (s : State) : State := s.startRecorded false
def cmdReplay (s : State) : State := s.startRecorded true

/-! ### Firmware (R326, R327, R331) -/

/-- Command 0x08: `ev.a` the flash offset, `ev.b` the length, the image's bytes in `ev.data`: the manual does not say whence they come
(log 67). -/
def cmdImageUpdate (s : State) : State :=
  s.command 8 fun s =>
    ({ s with flash := tabPut s.flash s.ev.a (s.ev.data.take s.ev.b) } : State).cmdDone

/-- The attestation report over a nonce, without its signature: 208 bytes (R327). -/
def State.report (s : State) (nonce : List Byte) : List Byte :=
  leBytes 4 1 ++ leBytes 4 s.svn.toNat ++ leBytes 64 Config.idKeyDigest.toNat ++ leBytes 64 s.measure.toNat ++ nonce ++ leBytes 8 s.now

/-- The attestation that runs goes on (R322, R327, R330): the report is formed and sent once nothing holds the nonce's lines, and the command
completes once it is in host memory. -/
def State.attestOn (s : State) : State :=
  let (nonce, out) := (2 ^ 50 + s.cmdOperand 0 % 2 ^ 50, 2 ^ 50 + s.cmdOperand 1 % 2 ^ 50)
  match s.cmd.run with
  | some (9, 0) =>
    if s.readHeld nonce 64 then s
    else
      let r := s.report (s.peek nonce 64)
      let sig := Config.mlDsaSign (leBytes 64 (Config.sha3 r).toNat)
      ((s.readLines nonce 64).storeOwn ownCommand out (r ++ (List.range 4627).map fun i => sig.getD i 0)).cmdOn 9 1
  | some (9, 1) => if s.ownBusy ownCommand then s else s.cmdDone
  | _ => s

/-- Command 0x09 (R327): `ev.a` the nonce's and `ev.b` the report's address in host memory. With `ev.flag` the running one goes on. -/
def cmdAttest (s : State) : State := if s.ev.flag then s.attestOn else s.command 9 State.attestOn

/-! ### Damper, restore and alarm (R377, R380, R382) -/

/-- Command 0x0A (R377): `ev.a` the context, `ev.b` the deadline in clocks, 0 for 20,000. With `ev.flag` the running one goes on. -/
def cmdRaiseDamper (s : State) : State :=
  if s.ev.flag then s.damperDone (s.cmd.run.getD (0, 0)).2
  else s.command 0x0A fun s => s.onCtx s.ev.a fun c =>
    let up : Ctx := { c with damper := true, hold := true, deadline := some (c.run + if s.ev.b = 0 then 20000 else s.ev.b) }
    (({ s with ctxs := tabSet s.ctxs s.ev.a up } : State).cmdOn 0x0A s.ev.a).damperDone s.ev.a

/-- Command 0x0C (R380): `ev.a` the context. With `ev.flag` the running one goes on. -/
def cmdRestoreContext (s : State) : State :=
  if s.ev.flag then (if (s.cmd.run.getD (0, 0)).1 = 0x0C then s.restoreOn (s.cmd.run.getD (0, 0)).2 else s)
  else s.command 0x0C fun s => s.onCtx s.ev.a fun c =>
    (({ s with ctxs := tabSet s.ctxs s.ev.a { c with restoring := true } } : State).cmdOn 0x0C s.ev.a).restoreOn s.ev.a

/-- Command 0x0D (R382): `ev.a` the context, `ev.b` the device time, 0 to cancel. -/
def cmdSetAlarm (s : State) : State :=
  s.command 0x0D fun s => s.onCtx s.ev.a fun c =>
    ({ s with ctxs := tabSet s.ctxs s.ev.a { c with alarm := if s.ev.b = 0 then none else some s.ev.b } } : State).cmdDone

/-! ### Queues (R368, R370) -/

/-- A queue as its 64-byte descriptor gives it, resident on a die (R368). -/
def queueOf (die desc : Nat) (b : List Byte) (fin : List Nat) : Queue :=
  let n := fun o k => leNat ((b.drop o).take k)
  { die := some die, desc := desc, ctx := n 2 2, prio := bits (n 4 1) 0 3, latency := bits (n 4 1) 3 1 == 1,
    irq := bits (n 4 1) 4 1 == 1, vec := n 5 1, window := n 8 8, nslot := n 16 4, prog := n 24 8, done := n 32 8, err := n 40 8,
    fin := fin.filter fun r => n 32 8 ≤ r && r < n 24 8 }

/-- A descriptor's fields are in range (R368). -/
def queueOk (qn : Nat) (cxl : Bool) (b : List Byte) : Bool :=
  let n := fun o k => leNat ((b.drop o).take k)
  n 0 2 == qn && n 2 2 < 1024 && n 4 1 < 32 && 9 ≤ n 5 1 && n 6 2 == 0 && n 16 4 != 0 && n 16 4 ≤ 4096 &&
    n 16 4 == 2 ^ (n 16 4).log2 && n 20 4 == 0 && (if cxl then n 8 8 % (256 * n 16 4) == 0 else n 8 8 == 0)

/-- Queues resident on a die. -/
def State.residentOn (s : State) (d : Nat) : List (Nat × Queue) := s.queues.filter fun (p : Nat × Queue) => p.2.die == some d

/-- The first of a die's 64 places that holds no queue (R370). -/
def State.freePlace (s : State) (d : Nat) : Nat :=
  ((List.range 64).find? fun i => !(s.residentOn d).any fun p => p.2.place == i).getD 0

/-- A queue becomes resident, once nothing holds its descriptor's line (R322, R370): operands die, queue number, descriptor. The seal line of
its next slot is held from then on (R369). -/
def State.residentGo (s : State) : State :=
  let (d, qn, desc) := (s.cmdOperand 0, s.cmdOperand 1, s.cmdOperand 2)
  if s.readHeld desc 64 then s
  else
    let b := s.peek desc 64
    let old := s.queueAt qn
    let q := { queueOf d desc b old.fin with place := s.freePlace d }
    if d < 4 && qn < 4096 && (s.residentOn d).length < 64 && old.die.isNone && queueOk qn s.cxl b && s.ctxLive q.ctx then
      (({ s.readLines desc 64 with queues := tabSet s.queues qn q } : State).holdSeal q).cmdDone
    else s.cmdRefuse

/-- Command 0x0B, make resident (R370): `ev.a` die, `ev.b` queue number, `ev.c` the descriptor's physical address. With `ev.flag` the
running one goes on. -/
def cmdMakeResident (s : State) : State :=
  if s.ev.flag then (if s.cmd.run = some (0x0B, 0) then s.residentGo else s) else s.command 0x0B State.residentGo

/-- A switch-out completes once PROG, DONE and ERR are in the descriptor (R370); a DONE that has advanced meanwhile follows them. -/
def State.switchedOut (s : State) (qn : Nat) : State :=
  if s.ownBusy ownCommand then s
  else
    let q := { s.queueAt qn with die := none }
    let s := ({ s with queues := tabSet s.queues qn q } : State).cmdDone
    if q.done = s.cmdOperand 2 then s else s.writeDone q

/-- Command 0x0B, switch out (R370): PROG, DONE and ERR go back to the descriptor, by one atomic write at its home, and no further record is
parsed. With `ev.flag` the running one goes on. -/
def cmdSwitchOut (s : State) : State :=
  if s.ev.flag then
    match s.cmd.run with
    | some (0x0B, n + 1) => s.switchedOut n
    | _ => s
  else s.command 0x0B fun s =>
    let q := s.queueAt s.ev.b
    if q.die == some s.ev.a then
      let t := s.storeOwn ownCommand (q.desc + 24) (leBytes 8 q.prog ++ leBytes 8 q.done ++ leBytes 8 q.err)
      ({ t with cmd := { t.cmd with held := [s.ev.a, s.ev.b, q.done] } } : State).cmdOn 0x0B (s.ev.b + 1) |>.switchedOut s.ev.b
    else s.cmdRefuse

/-! ### Loading and ending a context (R367, R383) -/

/-- A context as its 256-byte descriptor gives it (R367). -/
def ctxOf (b : List Byte) : Ctx :=
  let n := fun o k => leNat ((b.drop o).take k)
  { ptroot := n 0 8, spback := n 8 8, privback := n 16 8, saveback := n 24 8, backsize := n 32 8, hmask := BitVec.ofNat 32 (n 40 4),
    frto := n 44 2, priv := n 46 1 % 2 == 1, hentry := BitVec.ofNat 64 (n 48 8), hframe := n 56 8, codectab := n 64 8,
    frztab := n 72 8, frzn := n 80 4,
    lease := (List.range 4).map fun i => if n (88 + 2 * i) 2 = 0 then 256 else n (88 + 2 * i) 2, domain := n 96 8,
    hset := BitVec.ofNat 144 (n 104 18) }

/-- A descriptor keeps the table of R367: what it names by physical address has one (R225), and the area for saves lies in HBM whole. -/
def ctxOk (b : List Byte) : Bool :=
  let n := fun o k => leNat ((b.drop o).take k)
  let hbm := fun a => a < 2 ^ 52 && bits a 50 2 == 0 && !frameForbidden a
  ([0, 8, 16, 56, 64, 72, 96].all fun o => n o 8 < 2 ^ 52) && hbm (n 24 8) && hbm (n 24 8 + 216 * 2 ^ 20 - 1) &&
  n 0 8 % 16384 == 0 && n 8 8 % 4096 == 0 && n 16 8 % 4096 == 0 && n 46 1 < 2 && n 47 1 == 0 && n 56 8 % 8192 == 0 &&
    1 ≤ n 80 4 && n 80 4 ≤ 65536 && n 84 4 == 0 && (ctxOf b).lease.all (fun l => l % 32 == 0 && 32 ≤ l && l ≤ 4096) &&
    n 122 134 == 0

/-- A page of a context's freeze table is thaw-failed. -/
def State.thawFailed (s : State) (c : Ctx) : Bool := (List.range c.frzn).any fun i => s.frzUsed c i && (s.frzEnt c i).state == 3

/-- A context number is free (R383). -/
def State.ctxFree (s : State) (n : Nat) : Bool :=
  match tabGet s.ctxs n with
  | some c => c.ended && !s.thawFailed c
  | none => true

/-- A context is loaded, once nothing holds its descriptor's lines (R322, R367): operands context number and descriptor. -/
def State.loadGo (s : State) : State :=
  let (n, desc) := (s.cmdOperand 0, s.cmdOperand 1)
  if s.readHeld desc 256 then s
  else
    let b := s.peek desc 256
    if n < 1024 && s.ctxFree n && ctxOk b then ({ s.readLines desc 256 with ctxs := tabSet s.ctxs n (ctxOf b) } : State).cmdDone
    else s.cmdRefuse

/-- Command 0x0E (R367): `ev.a` the context number, `ev.b` the descriptor's physical address. With `ev.flag` the running one goes on. -/
def cmdLoadContext (s : State) : State :=
  if s.ev.flag then (if s.cmd.run = some (0x0E, 0) then s.loadGo else s) else s.command 0x0E State.loadGo

/-- Steps 1 to 3 of R383 as far as nothing is waited for: no placement, no damper, no alarm; every group cleared, every saved
group discarded, engine operations stopped with their locks. Records still to be delivered stay. -/
def State.beginEnd (s : State) (n : Nat) (c : Ctx) : State :=
  let mine := s.saved.filter fun v => v.wg.ctx == n
  let s : State :=
    { s with
      ctxs := tabSet s.ctxs n { c with damper := false, deadline := none, alarm := none, hold := false, ending := true },
      copies := s.copies.filter (·.ctx != n), mats := s.mats.filter (·.ctx != n), projs := s.projs.filter (·.ctx != n),
      pend := s.pend.filter fun p => !(p.ctx == n && p.owner.isNone && p.isLost),
      locks := s.locks.filter (·.2.ctx != n), saved := s.saved.filter fun v => v.wg.ctx != n,
      recs := mine.foldr (fun v acc => v.recs ++ acc) s.recs }
  let s := mine.foldl (fun s v => v.groups.foldl (fun s (p : Nat × Group) => s.returnFrames p.1 p.2 false) s) s
  (s.groups.filter fun (p : Nat × Group) => p.2.ctx == n).foldl (fun s p => s.clearGroup p.1) s

/-- Pages of a context's freeze table that its end still has to thaw (R383 step 4): entry, page, size code. -/
def State.toThaw (s : State) (c : Ctx) : List FrzArg :=
  ((List.range c.frzn).filter fun i => s.frzUsed c i && (s.frzEnt c i).count != 0 && (s.frzEnt c i).state != 3).map fun i =>
    { page := canon57 (s.peekNat (frzAt c i + 8) 8), pgsz := bits (s.peekNat (frzAt c i) 8) 20 2, frame := s.peekNat (frzAt c i + 16) 8,
      ent := i, fresh := false }

/-- The lines of their entries. -/
def State.thawLines (s : State) (c : Ctx) : List Nat := (s.toThaw c).map fun x => frzAt c x.ent

/-- One page thawed as by a `thaw` that brings its count to 0. -/
def State.thawLast (s : State) (n : Nat) (c : Ctx) (x : FrzArg) : State :=
  ((s.setEnt c x.ent { s.frzEnt c x.ent with count := 1 }).thawPageDown n 0 x).1

/-- Freezes and thaws of a context in progress (R298). -/
def State.freezing (s : State) (n : Nat) (c : Ctx) : Bool := !c.ops.isEmpty || s.frz.any (·.ctx == n)

/-- A grid's edges to queues of an ended context are satisfied from then on, with no order carried (R373, R383). -/
def State.cutEdges (s : State) (n : Nat) (g : Grid) : Grid := { g with edges := g.edges.filter fun e => (s.queueAt e.q).ctx != n }

/-- The last step of R383: cached translations go, their gathered bits being in the page tables, recorded mode ends, the number is free.
Records not yet written to the ring still are: none is lost (R333). -/
def State.finishEnd (s : State) (n : Nat) : State :=
  ({ s with
      tlb := s.tlb.filter (·.ctx != n), walkc := s.walkc.filter (·.ctx != n),
      grids := (s.grids.filter (·.2.ctx != n)).map fun (p : Nat × Grid) => (p.1, s.cutEdges n p.2),
      recd := if s.recd.ctx = n then { s.recd with active := false, armed := false, stalled := false, hold := false } else s.recd,
      queues := s.queues.map fun (p : Nat × Queue) => if p.2.ctx = n then (p.1, { p.2 with outlived := true }) else p,
      ctxs := tabMod s.ctxs n fun c => { c with ended := true } } : State).cmdEnd 0x0F n

/-- The groups of a context that may retire now. -/
def State.retirable (s : State) (n : Nat) : List (Nat × Nat) :=
  ((s.groups.filter fun (p : Nat × Group) => p.2.ctx == n).map fun p => p.2.name).filter s.mayRetire

/-- The end of a context goes on as far as it can (R383). -/
def State.endOn (s : State) (n : Nat) : State :=
  let s := (s.retirable n).foldl State.retireNamed s
  let c := tabD s.ctxs n {}
  if (s.groups.any fun (p : Nat × Group) => p.2.ctx == n) || s.freezing n c then s
  else if (s.toThaw c).isEmpty then
    let s := s.harvest n
    if s.gathering n then s else s.finishEnd n
  else if (s.thawLines c).all s.lineQuiet then (s.toThaw c).foldl (fun s x => s.thawLast n c x) s
  else s.clearWay (s.thawLines c)

/-- The end of a context can go on. -/
def State.endReady (s : State) (n : Nat) : Bool :=
  let c := tabD s.ctxs n {}
  if s.groups.any fun (p : Nat × Group) => p.2.ctx == n then !(s.retirable n).isEmpty
  else
    !s.freezing n c &&
      if (s.toThaw c).isEmpty then !s.gathering n || s.tlb.any fun e => e.ctx == n && (e.ga.isSome || e.gd.isSome)
      else (s.thawLines c).all s.lineQuiet || s.mayClear (s.thawLines c)

/-- Command 0x0F (R383): `ev.a` the context. With `ev.flag` the running one goes on. -/
def cmdEndContext (s : State) : State :=
  if s.ev.flag then (if (s.cmd.run.getD (0, 0)).1 = 0x0F then s.endOn (s.cmd.run.getD (0, 0)).2 else s)
  else s.command 0x0F fun s => s.onCtx s.ev.a fun c =>
    if s.queues.any fun (p : Nat × Queue) => p.2.ctx == s.ev.a && p.2.die.isSome then s.cmdRefuse
    else ((s.beginEnd s.ev.a c).cmdOn 0x0F s.ev.a).endOn s.ev.a

/-! ### The events of the commands -/

/-- `SHOOTDOWN` (R240). -/
def execShootdown (s : State) : Res := onEvent s cmdShootdown
/-- `RESUME_GROUP` (R331). -/
def execResumeGroup (s : State) : Res := onEvent s cmdResumeGroup
/-- `END_GROUP` (R331). -/
def execEndGroup (s : State) : Res := onEvent s cmdEndGroup
/-- `LIFT_FENCE` (R311). -/
def execLiftFence (s : State) : Res := onEvent s cmdLiftFence
/-- `REPAIR_FREEZE` (R307). -/
def execRepairFreeze (s : State) : Res := onEvent s cmdRepairFreeze
/-- `POOL_ADD` (R244). -/
def execPoolAdd (s : State) : Res := onEvent s cmdPoolAdd
/-- `RECORDED_MODE_RECORD` (R332). -/
def execRecordedModeRecord (s : State) : Res := onEvent s cmdRecord
/-- `RECORDED_MODE_REPLAY` (R334). -/
def execRecordedModeReplay (s : State) : Res := onEvent s cmdReplay
/-- `IMAGE_UPDATE` (R331). -/
def execImageUpdate (s : State) : Res := onEvent s cmdImageUpdate
/-- `ATTEST` (R327). -/
def execAttest (s : State) : Res := onEvent s cmdAttest
/-- `RAISE_DAMPER` (R377). -/
def execRaiseDamper (s : State) : Res := onEvent s cmdRaiseDamper
/-- `QUEUE_MAKE_RESIDENT` (R370). -/
def execQueueMakeResident (s : State) : Res := onEvent s cmdMakeResident
/-- `QUEUE_SWITCH_OUT` (R370). -/
def execQueueSwitchOut (s : State) : Res := onEvent s cmdSwitchOut
/-- `RESTORE_CONTEXT` (R380). -/
def execRestoreContext (s : State) : Res := onEvent s cmdRestoreContext
/-- `SET_ALARM` (R382). -/
def execSetAlarm (s : State) : Res := onEvent s cmdSetAlarm
/-- `LOAD_CONTEXT` (R367). -/
def execLoadContext (s : State) : Res := onEvent s cmdLoadContext
/-- `END_CONTEXT` (R383). -/
def execEndContext (s : State) : Res := onEvent s cmdEndContext

/-- A write to CMD while a command runs (R330). -/
def execCommandBusyWrite (s : State) : Res :=
  onEvent s fun s =>
    if s.cmd.run.isSome then { s.traceWindow 0x1000 (leBytes 40 s.ev.a) with cmd := { s.cmd with status := 3 } } else s

/-- A repair that waits for the lines of its page's state can go on. -/
def State.repairGoes (s : State) : Bool :=
  match s.frzCover (tabD s.ctxs (s.cmdOperand 0) {}) (s.cmdOperand 1 % 2 ^ 57) with
  | some (_, page, _) => s.pageGoes (s.cmdOperand 0) page
  | none => true

/-- The command that runs can go on without the host: its event, by its code (R330). -/
def State.cmdReady (s : State) : Option Instr :=
  match s.cmd.run with
  | some (1, bound) => if s.shootdownOver bound then some .shootdown else none
  | some (3, x) => if s.mayRetire (x / 32, x % 32) then some .endGroup else none
  | some (5, 0) => if s.repairGoes then some .repairFreeze else none
  | some (5, bound) => if s.shootdownOver bound then some .repairFreeze else none
  | some (9, 0) => if s.readHeld (2 ^ 50 + s.cmdOperand 0 % 2 ^ 50) 64 then none else some .attest
  | some (9, 1) => if s.ownBusy ownCommand then none else some .attest
  | some (0x0B, 0) => if s.readHeld (s.cmdOperand 2) 64 then none else some .queueMakeResident
  | some (0x0B, _) => if s.ownBusy ownCommand then none else some .queueSwitchOut
  | some (0x0E, _) => if s.readHeld (s.cmdOperand 1) 256 then none else some .loadContext
  | some (0x0A, ctx) =>
    if (tabVals s.wgs).any fun w => w.ctx == ctx && (s.gridAt w.grid).kern.preempt then none else some .raiseDamper
  | some (0x0C, ctx) => if s.restoreGoes ctx then some .restoreContext else none
  | some (0x0F, ctx) => if s.endReady ctx then some .endContext else none
  | _ => none

/-! ### The host's writes to the window and to queue windows (R261, R329, R330, R335, R369) -/

/-- The command a CMD value names is started with the argument words (R330, R331); a value that names none is refused. -/
def State.byCode (s : State) (v : Nat) : State :=
  let arg := fun i => (s.cmd.args.getD i 0).toNat
  let s : State := { s with ev := { a := arg 0, b := arg 1, c := arg 2, d := arg 3, data := s.ev.data } }
  match v with
  | 1 => cmdShootdown s
  | 2 => cmdResumeGroup s
  | 3 => cmdEndGroup s
  | 4 => cmdLiftFence s
  | 5 => cmdRepairFreeze s
  | 6 => cmdPoolAdd s
  | 7 => if arg 3 % 2 = 1 then cmdReplay s else cmdRecord s
  | 8 => cmdImageUpdate s
  | 9 => cmdAttest s
  | 0x0A => cmdRaiseDamper s
  | 0x0B => if arg 3 % 2 = 1 then cmdMakeResident s else cmdSwitchOut s
  | 0x0C => cmdRestoreContext s
  | 0x0D => cmdSetAlarm s
  | 0x0E => cmdLoadContext s
  | 0x0F => cmdEndContext s
  | _ => s.command v State.cmdRefuse

/-- A write to a die's fault queue or frame pool words (R329); those it may not write are left. -/
def State.writeDie (s : State) (d off : Nat) (v : W64) : State :=
  let q := s.fq d
  let p := s.pool d
  let putQ := fun (q : FaultQ) => ({ s with faultq := tabSet s.faultq d q } : State)
  let putP := fun (p : Pool) => ({ s with pools := tabSet s.pools d p } : State)
  match off with
  | 0x00 => if q.head = q.tail then putQ { q with base := v } else s
  | 0x08 => if q.head = q.tail then putQ { q with size := v } else s
  | 0x10 => putQ { q with head := v }
  | 0x40 => if p.count = 0 then putP { p with ringbase := v } else s
  | 0x48 => if p.count = 0 then putP { p with ringsize := v } else s
  | 0x60 => putP { p with lowmark := v, low := p.count.toNat < v.toNat }
  | _ => s

/-- Die and offset of a window offset within the dies' areas (R328). -/
def dieArea (off : Nat) : Option (Nat × Nat) :=
  if 0x1000000 ≤ off && off < 0x11000000 then some ((off - 0x1000000) / 0x4000000, (off - 0x1000000) % 0x4000000) else none

/-- The host writes a die's fault queue HEAD (R261, R329): `ev.a` the die, `ev.b` the value. -/
def execFaultQueueHeadWrite (s : State) : Res :=
  onEvent s fun s =>
    if s.ev.a < 4 then
      (s.traceWindow (0x1000010 + 0x4000000 * s.ev.a) (leBytes 8 s.ev.b)).writeDie s.ev.a 0x10 (BitVec.ofNat 64 s.ev.b)
    else s

/-- A write of the trace ring's HEAD as a window word. -/
def State.writeRecHead (s : State) (v : Nat) : State :=
  match execRecordedHeadWrite { s with ev := { a := v } } with
  | .next t => t
  | _ => s

/-- A word of the state window written (R329, R330, R335). A word the host may not write ignores it. -/
def State.writeWindow (s : State) (off v : Nat) : State :=
  if off = 0x1000 then s.byCode v
  else if off = 0x2020 then s.writeRecHead v
  else
    let s := s.traceWindow off (leBytes 8 v)
    if 0x1008 ≤ off && off ≤ 0x1020 && off % 8 = 0 then
      let args := (List.range 4).map fun i => s.cmd.args.getD i 0
      { s with cmd := { s.cmd with args := args.set ((off - 0x1008) / 8) (BitVec.ofNat 64 v) } }
    else
      match dieArea off with
      | some (d, o) => s.writeDie d o (BitVec.ofNat 64 v)
      | none => s

/-- A logged write through BAR0 as a replay takes it (R334): CMD with its arguments, or another word; the log's writes of the ring's HEAD
concern the recording's ring and have no effect. -/
def State.replayWindow (s : State) (off : Nat) (data : List Byte) : State :=
  let word := fun i => leNat ((data.drop (8 * i)).take 8)
  if off = 0x2020 then s
  else if off = 0x1000 then
    ({ s with
      cmd := { s.cmd with args := [1, 2, 3, 4].map fun i => BitVec.ofNat 64 (word i) }, ev := { s.ev with data := data.drop 40 } } : State).byCode
        (word 0)
  else s.writeWindow off (word 0)

/-- A host write to a word of the state window (R329, R330, R335): `ev.a` the offset, `ev.b` the value, with the bytes of a new image in
`ev.data` where it starts command 0x08. With `ev.flag` it is the one a replay takes from its log (R334). -/
def execStateWindowWrite (s : State) : Res :=
  onEvent s fun s =>
    if s.ev.flag then
      match s.replayDatum with
      | some (pa, data) => if bar0Base ≤ pa then (s.consumeRecords (datumRecords data.length)).replayWindow (pa - bar0Base) data else s
      | none => s
    else s.writeWindow s.ev.a s.ev.b

/-- Host bytes over one 64-byte half of host memory: written at once, or after the snoop that takes the device's copy away, while the
home slice holds the half or has granted a lease on its line (R321, R322, R369). -/
def State.hostStore (s : State) (off : Nat) (b : List Byte) : State :=
  (((enumFrom off b).map fun p => p.1 / 64).foldl addOnce []).foldl (fun s half =>
    let start := max off (64 * half)
    let data := (b.drop (start - off)).take (64 * half + 64 - start)
    if (tabGet s.halves half).isSome || s.now < (s.home (halfKey half)).exp then
      { s with snoops := s.snoops ++ [{ half := half, inv := true, data := some data, off := start - 64 * half }] }
    else s.poke (2 ^ 50 + start) data false) s

/-- The host writes bytes of a queue's window (R369): `ev.a` the queue, `ev.b` the offset in the window, `ev.data`. In plain PCIe
mode the window lies in BAR2, which recovery does not expose (R326). -/
def execQueueSealWrite (s : State) : Res :=
  onEvent s fun s =>
    if s.cxl then s.hostStore ((s.queueAt s.ev.a).window + s.ev.b) s.ev.data
    else if s.recovery then s
    else s.bar2Store (s.ev.a * 2 ^ 20 + s.ev.b) s.ev.data

end Sys2Proof.Machine
end

