-- ==== Sys2Proof/Machine/StokerAlu.lean ====
section
/-! DEFINITION. The stoker's integer instructions, `cmp`, `csel`, `srd` and `mset` (R87, R89–R94, R113, R114). -/

namespace Sys2Proof.Machine

/-- Bits [127:64] of the exact product (R89). -/
def mulhi (signed : Bool) (a b : W64) : W64 :=
  if signed then BitVec.ofInt 64 (a.toInt * b.toInt / 2 ^ 64) else BitVec.ofNat 64 (a.toNat * b.toNat / 2 ^ 64)

/-- The smaller and the larger of two values (R89). -/
def minq (signed : Bool) (a b : W64) : W64 := if (if signed then a.sle b else a.ule b) then a else b
def maxq (signed : Bool) (a b : W64) : W64 := if (if signed then a.sle b else a.ule b) then b else a

/-- The shifts of R90 on 64 bits. -/
def shlq (a n : W64) : W64 := if 64 ≤ n.toNat then 0 else a <<< n.toNat
def shrq (a n : W64) : W64 := if 64 ≤ n.toNat then 0 else a >>> n.toNat
def sarq (a n : W64) : W64 := if 64 ≤ n.toNat then (if a.msb then BitVec.allOnes 64 else 0) else a.sshiftRight n.toNat

/-- Quotient and remainder of R91 on 64 bits. -/
def divq (signed : Bool) (a b : W64) : W64 := BitVec.ofNat 64 (divN 64 signed a.toNat b.toNat)
def remq (signed : Bool) (a b : W64) : W64 := BitVec.ofNat 64 (remN 64 signed a.toNat b.toNat)

/-! ### Register forms -/

/-- R89: the sum modulo 2^64. -/
def addFn (a b : W64) : W64 := a + b

/-- R89: the difference modulo 2^64. -/
def subFn (a b : W64) : W64 := a - b

/-- R89: bitwise AND. -/
def andFn (a b : W64) : W64 := a &&& b

/-- R89: bitwise OR. -/
def orFn (a b : W64) : W64 := a ||| b

/-- R89: bitwise XOR. -/
def xorFn (a b : W64) : W64 := a ^^^ b

/-- R89: S[sa] AND NOT S[sb]. -/
def andnFn (a b : W64) : W64 := a &&& ~~~b

/-- R89: low 64 bits of the product. -/
def mulFn (a b : W64) : W64 := a * b

/-- R89: high half of the signed product. -/
def mulhI64Fn (a b : W64) : W64 := mulhi true a b

/-- R89: high half of the unsigned product. -/
def mulhN64Fn (a b : W64) : W64 := mulhi false a b

/-- R91: signed quotient. -/
def divI64Fn (a b : W64) : W64 := divq true a b

/-- R91: unsigned quotient. -/
def divN64Fn (a b : W64) : W64 := divq false a b

/-- R91: signed remainder. -/
def remI64Fn (a b : W64) : W64 := remq true a b

/-- R91: unsigned remainder. -/
def remN64Fn (a b : W64) : W64 := remq false a b

/-- R89: smaller, signed. -/
def minI64Fn (a b : W64) : W64 := minq true a b

/-- R89: smaller, unsigned. -/
def minN64Fn (a b : W64) : W64 := minq false a b

/-- R89: larger, signed. -/
def maxI64Fn (a b : W64) : W64 := maxq true a b

/-- R89: larger, unsigned. -/
def maxN64Fn (a b : W64) : W64 := maxq false a b

/-- R90: shift left. -/
def shlFn (a b : W64) : W64 := shlq a b

/-- R90: shift right, zeros. -/
def shrN64Fn (a b : W64) : W64 := shrq a b

/-- R90: shift right, sign. -/
def shrI64Fn (a b : W64) : W64 := sarq a b

/-- `add` on registers (R89). -/
def execAdd (sd sa sb : BitVec 6) (s : State) : Res := aluR s sd sa sb addFn

/-- `sub` on registers (R89). -/
def execSub (sd sa sb : BitVec 6) (s : State) : Res := aluR s sd sa sb subFn

/-- `and` on registers (R89). -/
def execAnd (sd sa sb : BitVec 6) (s : State) : Res := aluR s sd sa sb andFn

/-- `or` on registers (R89). -/
def execOr (sd sa sb : BitVec 6) (s : State) : Res := aluR s sd sa sb orFn

/-- `xor` on registers (R89). -/
def execXor (sd sa sb : BitVec 6) (s : State) : Res := aluR s sd sa sb xorFn

/-- `andn` on registers (R89). -/
def execAndn (sd sa sb : BitVec 6) (s : State) : Res := aluR s sd sa sb andnFn

/-- `mul` on registers (R89). -/
def execMul (sd sa sb : BitVec 6) (s : State) : Res := aluR s sd sa sb mulFn

/-- `mulhI64` on registers (R89). -/
def execMulhI64 (sd sa sb : BitVec 6) (s : State) : Res := aluR s sd sa sb mulhI64Fn

/-- `mulhN64` on registers (R89). -/
def execMulhN64 (sd sa sb : BitVec 6) (s : State) : Res := aluR s sd sa sb mulhN64Fn

/-- `divI64` on registers (R91). -/
def execDivI64 (sd sa sb : BitVec 6) (s : State) : Res := aluR s sd sa sb divI64Fn

/-- `divN64` on registers (R91). -/
def execDivN64 (sd sa sb : BitVec 6) (s : State) : Res := aluR s sd sa sb divN64Fn

/-- `remI64` on registers (R91). -/
def execRemI64 (sd sa sb : BitVec 6) (s : State) : Res := aluR s sd sa sb remI64Fn

/-- `remN64` on registers (R91). -/
def execRemN64 (sd sa sb : BitVec 6) (s : State) : Res := aluR s sd sa sb remN64Fn

/-- `minI64` on registers (R89). -/
def execMinI64 (sd sa sb : BitVec 6) (s : State) : Res := aluR s sd sa sb minI64Fn

/-- `minN64` on registers (R89). -/
def execMinN64 (sd sa sb : BitVec 6) (s : State) : Res := aluR s sd sa sb minN64Fn

/-- `maxI64` on registers (R89). -/
def execMaxI64 (sd sa sb : BitVec 6) (s : State) : Res := aluR s sd sa sb maxI64Fn

/-- `maxN64` on registers (R89). -/
def execMaxN64 (sd sa sb : BitVec 6) (s : State) : Res := aluR s sd sa sb maxN64Fn

/-- `shl` by a register, whose poison traps (R87, R90). -/
def execShl (sd sa sb : BitVec 6) (s : State) : Res := shiftR s sd sa sb shlFn

/-- `shrN64` by a register, whose poison traps (R87, R90). -/
def execShrN64 (sd sa sb : BitVec 6) (s : State) : Res := shiftR s sd sa sb shrN64Fn

/-- `shrI64` by a register, whose poison traps (R87, R90). -/
def execShrI64 (sd sa sb : BitVec 6) (s : State) : Res := shiftR s sd sa sb shrI64Fn

/-- `popc` (R92). -/
def execPopc (sd sa : BitVec 6) (s : State) : Res := aluI s sd sa 0 4 fun a _ => BitVec.ofNat 64 (popcount 64 a.toNat)

/-- `clz` (R92). -/
def execClz (sd sa : BitVec 6) (s : State) : Res := aluI s sd sa 0 4 fun a _ => BitVec.ofNat 64 (clzN 64 a.toNat)

/-- `ctz` (R92). -/
def execCtz (sd sa : BitVec 6) (s : State) : Res := aluI s sd sa 0 4 fun a _ => BitVec.ofNat 64 (ctzN 64 a.toNat)

/-- `bswap` (R92). -/
def execBswap (sd sa : BitVec 6) (s : State) : Res := aluI s sd sa 0 4 fun a _ => BitVec.ofNat 64 (bswapN 64 a.toNat)

/-! ### Immediate forms -/

/-- `add` with a literal (R89). -/
def execAddImm (sd sa : BitVec 6) (imm : BitVec 13) (s : State) : Res := aluI s sd sa (imm64 imm) 4 addFn

/-- `and` with a literal (R89). -/
def execAndImm (sd sa : BitVec 6) (imm : BitVec 13) (s : State) : Res := aluI s sd sa (imm64 imm) 4 andFn

/-- `or` with a literal (R89). -/
def execOrImm (sd sa : BitVec 6) (imm : BitVec 13) (s : State) : Res := aluI s sd sa (imm64 imm) 4 orFn

/-- `xor` with a literal (R89). -/
def execXorImm (sd sa : BitVec 6) (imm : BitVec 13) (s : State) : Res := aluI s sd sa (imm64 imm) 4 xorFn

/-- `shl` with a literal (R89). -/
def execShlImm (sd sa : BitVec 6) (imm : BitVec 13) (s : State) : Res := aluI s sd sa (imm64 imm) 4 shlFn

/-- `shrN64` with a literal (R89). -/
def execShrN64Imm (sd sa : BitVec 6) (imm : BitVec 13) (s : State) : Res := aluI s sd sa (imm64 imm) 4 shrN64Fn

/-- `shrI64` with a literal (R89). -/
def execShrI64Imm (sd sa : BitVec 6) (imm : BitVec 13) (s : State) : Res := aluI s sd sa (imm64 imm) 4 shrI64Fn

/-- `mul` with a literal (R89). -/
def execMulImm (sd sa : BitVec 6) (imm : BitVec 13) (s : State) : Res := aluI s sd sa (imm64 imm) 4 mulFn

/-- `minI64` with a literal (R89). -/
def execMinI64Imm (sd sa : BitVec 6) (imm : BitVec 13) (s : State) : Res := aluI s sd sa (imm64 imm) 4 minI64Fn

/-- `minN64` with a literal (R89). -/
def execMinN64Imm (sd sa : BitVec 6) (imm : BitVec 13) (s : State) : Res := aluI s sd sa (imm64 imm) 4 minN64Fn

/-- `maxI64` with a literal (R89). -/
def execMaxI64Imm (sd sa : BitVec 6) (imm : BitVec 13) (s : State) : Res := aluI s sd sa (imm64 imm) 4 maxI64Fn

/-- `maxN64` with a literal (R89). -/
def execMaxN64Imm (sd sa : BitVec 6) (imm : BitVec 13) (s : State) : Res := aluI s sd sa (imm64 imm) 4 maxN64Fn

/-! ### Compares and selection -/

/-- A compare of S[sa] with a value: C[N] is written; a poisoned source traps (R87, R93). -/
def compare (s : State) (cn : BitVec 3) (a b : SReg) (cc : BitVec 3) (signed : Bool) (len k : Nat) (g : Group) : State :=
  if a.pz || b.pz then s.trapS k g (trapPoison 0 0) len
  else s.setG k ((g.cSet cn.toNat (intRel cc.toNat signed 64 a.val.toNat b.val.toNat)).adv len)

/-- `cmp` on registers (R93). -/
def execCmp (cn : BitVec 3) (sa sb : BitVec 6) (ty : BitVec 1) (cc : BitVec 3) (s : State) : Res :=
  onStoker s fun k g => compare s cn (g.sGet sa.toNat) (g.sGet sb.toNat) cc (ty == 0) 4 k g

/-- `cmp.i64` with a literal (R93). -/
def execCmpI64Imm (cc cn : BitVec 3) (sa : BitVec 6) (imm : BitVec 13) (s : State) : Res :=
  onStoker s fun k g => compare s cn (g.sGet sa.toNat) ⟨imm64 imm, false⟩ cc true 4 k g

/-- `cmp.n64` with a literal (R93). -/
def execCmpN64Imm (cc cn : BitVec 3) (sa : BitVec 6) (imm : BitVec 13) (s : State) : Res :=
  onStoker s fun k g => compare s cn (g.sGet sa.toNat) ⟨imm64 imm, false⟩ cc false 4 k g

/-- `csel` (R94): the tag is the selected register's. -/
def execCsel (sd sa sb : BitVec 6) (cn : BitVec 3) (s : State) : Res :=
  onStoker s fun k g =>
    let x := if g.cGet cn.toNat then g.sGet sa.toNat else g.sGet sb.toNat
    s.setG k (g.result sd x.val x.pz 4)

/-! ### Special registers and MODE -/

/-- `srd` (R113): `%tid` and unassigned numbers are no instruction; `%time` may wait for a replayed record (R334). -/
def execSrd (sd : BitVec 6) (num : BitVec 7) (s : State) : Res :=
  onStoker s fun k g =>
    if num = 0 || 0x11 < num.toNat then s.trapS k g trapIllegal
    else if num = 0x0E then
      match s.timeRead k g.ctx with
      | (s, some t) => s.setG k (g.result sd (BitVec.ofNat 64 t) false 4)
      | (s, none) => if s.recd.mismatch then s else s.waitS k
    else s.setG k (g.result sd (BitVec.ofNat 64 (s.special k g g.mode num.toNat)) false 4)

/-- `mset` (R114): a value MODE does not take traps and leaves it unchanged; a poisoned operand traps (R87). -/
def execMset (sa : BitVec 6) (s : State) : Res :=
  onStoker s fun k g =>
    let a := g.sGet sa.toNat
    if a.pz then s.trapS k g (trapPoison 0 0)
    else if modeOk a.val then s.setG k ({ g with mode := newMode g.mode a.val }.adv 4)
    else s.trapS k g (trapOperand a.val)

end Sys2Proof.Machine
end

