-- ==== Sys2Proof/Machine/Window.lean ====
section
/-! DEFINITION. The state window as it is read, `swrd`, and the `slit` forms (R48, R122, R328–R330, R335, R364). -/

namespace Sys2Proof.Machine

/-- A flag at a bit. -/
def flagAt (x : Bool) (n : Nat) : Nat := if x then 2 ^ n else 0

/-- The 8-byte word at an offset of a list of bytes; bytes beyond it are 0. -/
def wordOf (b : List Byte) (off : Nat) : Nat := leNat ((b.drop off).take 8)

/-! ### Identity, command area, recorded mode, ports (R328, R330, R335) -/

/-- The identity words (R328). -/
def State.identWord (s : State) (off : Nat) : Nat :=
  if off = 0x00 then 0x4144 + Config.stepping.toNat * 2 ^ 16
  else if off = 0x08 then Config.serial.toNat
  else if off = 0x10 then s.svn.toNat + Config.antiRollback.toNat * 2 ^ 32
  else if off = 0x18 then s.now
  else if off = 0x20 then Config.moduleNumber.toNat + flagAt Config.inDomain 10
  else if off = 0x28 then flagAt s.recovery 0
  else if 0x40 ≤ off && off < 0x80 then bits s.measure.toNat (8 * (off - 0x40)) 64
  else if 0x80 ≤ off && off < 0xC0 then bits Config.idKeyDigest.toNat (8 * (off - 0x80)) 64
  else if 0xC0 ≤ off && off < 0x100 then bits Config.fusedDigest.toNat (8 * (off - 0xC0)) 64
  else 0

/-- The command area (R330). -/
def State.cmdWord (s : State) (off : Nat) : Nat :=
  if off = 0 then s.cmd.cmd.toNat
  else if off ≤ 32 then (s.cmd.args.getD (off / 8 - 1) 0).toNat
  else if off = 40 then s.cmd.status.toNat
  else 0

/-- The recorded-mode registers (R335). -/
def Recd.word (r : Recd) (off : Nat) : Nat :=
  match off with
  | 0x00 => r.ctx + flagAt r.active 10 + flagAt r.replay 11 + flagAt r.stalled 12 + flagAt r.mismatch 13
  | 0x08 => r.tbase
  | 0x10 => r.tsize
  | 0x18 => r.tail
  | 0x20 => r.head
  | 0x28 => r.count
  | _ => 0

/-- A port's words (R328). -/
def Port.word (p : Port) (n off : Nat) : Nat :=
  match off with
  | 0x00 => flagAt p.up 0 + flagAt p.dead 1 + (Config.portPlane n).toNat * 2 ^ 8 + p.lanes * 2 ^ 16
  | 0x08 => p.repeat_
  | 0x10 => p.tx
  | 0x18 => p.rx
  | 0x20 => p.deaths
  | 0x28 => p.change
  | _ => 0

/-! ### A hearth's area (R329) -/

/-- Opportunities of demotion left (R204, R329). -/
def demLeft (n : Nat) : Nat := min 16 (n - 1)

/-- A scheduler entry (R329). -/
def Group.schedWord (g : Group) (k : Nat) : Nat :=
  let rot := fun (x : Option Split) => match x with
    | some sp => sp.rot
    | none => 0
  match k with
  | 0 =>
    1 + flagAt g.escalated 1 + flagAt g.hnd.isSome 2 + flagAt g.yielded.isSome 3 + flagAt g.lesc.isSome 4 + flagAt g.sesc.isSome 5 +
      min 64 g.lpass * 2 ^ 8 + min 64 g.spass * 2 ^ 16 + demLeft g.ldem * 2 ^ 24 + demLeft g.sdem * 2 ^ 32 + g.ctx * 2 ^ 40
  | 1 => g.spc.toNat % 2 ^ 32 + rot g.slot0 * 2 ^ 32 + rot g.slot1 * 2 ^ 40
  | 2 => g.gtime
  | _ => 0

/-- A range-lock table entry (R364). -/
def Lock.word (l : Lock) (k : Nat) : Nat :=
  let sp := match l.space with
    | .glob => 0
    | .scratch => 1
    | .priv => 2
    | .acc => 3
  if k = 0 then l.base % 2 ^ 57 else l.len % 2 ^ 32 + l.gslot * 2 ^ 32 + flagAt l.dst 39 + sp * 2 ^ 40 + l.kind * 2 ^ 42 + 2 ^ 44

/-- A view matrix store entry (R329). -/
def VEnt.word (e : VEnt) (held : Bool) (k : Nat) : Nat :=
  if k = 1 then e.gen
  else if !held then 0
  else
    match k with
    | 0 => 1 + flagAt e.pz 1 + flagAt e.fclean 2 + e.ctx * 2 ^ 3 + e.units * 2 ^ 13
    | 2 => e.matrix % 2 ^ 52
    | _ => e.len + e.width * 2 ^ 16 + e.mfmt * 2 ^ 32

/-- The blocks in flight, oldest first: while a handler runs those it interrupted that keep their snapshot sets, then its own (R265, R266). -/
def Group.inFlightBlocks (g : Group) : List Block :=
  (match g.hnd with
    | some f => f.blocks.filter (·.st != .queued)
    | none => []) ++ g.blocks

/-- The registers of a set: the stoker's, or a block's snapshot, oldest first (R329). -/
def Group.regSet (g : Group) (k : Nat) : Tab TReg × Tab VwReg :=
  match k with
  | 0 => (g.b, g.w)
  | n + 1 =>
    match g.inFlightBlocks.drop n with
    | b :: _ => (b.snap.b, b.snap.w)
    | [] => ([], [])

/-- The spilled splits, those that stand on the stack while a handler runs among them (R265, R329). -/
def Group.allSpilled (g : Group) : List (Nat × Split) :=
  (match g.hnd with
    | some f => f.spilled
    | none => []) ++ g.spilled

/-- The split of a PC slot as its table shows it: that of a group suspended on a stack-limit or scratchpad-limit fault has the faulting set
for its threads (R221; DEDUCED, log 69). -/
def Group.shownSplit (g : Group) (slot : Nat) : Option Split :=
  match g.susp with
  | some t =>
    if (t.code == 0x0C || t.code == 0x0D) && !t.stoker && t.slot == slot then (g.split slot).map fun sp => { sp with mask := t.tmask }
    else g.split slot
  | none => g.split slot

/-- A word of a view register: its state, then its descriptor (R40, R183, R329). -/
def VwReg.words (w : VwReg) (k : Nat) : Nat := if k = 0 then w.word.toNat else bits w.desc.toNat (64 * (k - 1)) 64

/-- A word of a group's split table (R329). -/
def Group.splitWord (g : Group) (off : Nat) : Nat :=
  let ent := fun (x : Option Split) => match x with
    | some sp => sp.entry
    | none => []
  if off < 48 then wordOf (ent (g.shownSplit 0)) off
  else if off < 96 then wordOf (ent (g.shownSplit 1)) (off - 48)
  else if off < 104 then flagAt g.slot0.isSome 0 + flagAt g.slot1.isSome 1 + g.allSpilled.length * 4
  else if off < 112 then g.pb + g.width * g.base.priv
  else if 128 ≤ off && off < 2176 then wordOf (g.allSpilled.foldr (fun p acc => leBytes 2 p.1 ++ acc) []) (off - 128)
  else 0

/-- Codec region and offset of a decoded line, by the tables of the contexts (R274, R275). -/
def State.codecPlace (s : State) (key : Nat) : Option (Region × Nat × Nat) :=
  s.ctxs.findSome? fun (p : Nat × Ctx) => (List.range 32).findSome? fun n =>
    let r := s.region p.2 n
    let g := (key / 2 - r.back) / (16 * codecRate r.rate)
    let i := (key / 2 - r.back) % (16 * codecRate r.rate)
    if r.valid && r.ok && r.back ≤ key / 2 && i < 8 && g < r.npages * 64 then some (r, n, 1024 * g + 128 * i) else none

/-- Some granule of an L1 line is poisoned (R329). -/
def State.l1Poisoned (s : State) (h : Nat) (l : L1Line) : Bool :=
  l.pz != 0 || match l.kind with
    | .leased | .lent => s.poisoned (keyPa l.key) 128
    | .priv =>
      s.groups.any fun (p : Nat × Group) => hearthOf p.1 == h && p.2.privPz.any fun x =>
        keyPa l.key ≤ p.2.pb + 32 * x && p.2.pb + 32 * x < keyPa l.key + 128
    | .codec =>
      match s.codecPlace l.key with
      | some (r, _, off) => (List.range 4).any fun i => (s.blockVals r (off / 32 + i)).isNone
      | none => false
    | .view => false

/-- An L1 tag (R329). -/
def State.l1Word (s : State) (h : Nat) (l : L1Line) (k : Nat) : Nat :=
  let kind := match l.kind with
    | .leased => 1
    | .priv => 2
    | .codec => 3
    | .view => 4
    | .lent => 5
  match k with
  | 0 =>
    kind + flagAt (l.dirty && (l.kind == .priv || l.kind == .lent)) 3 + flagAt (s.l1Poisoned h l) 4 +
      (if l.kind == .view then l.token * 2 ^ 32 else 0)
  | 1 =>
    match l.kind with
    | .view => l.slot + l.gen * 2 ^ 8
    | .codec =>
      match s.codecPlace l.key with
      | some (_, n, off) => n + off / 128 * 128
      | none => 0
    | _ => keyPa l.key
  | _ => l.exp.getD (2 ^ 64 - 1)

/-- A word of a hearth's area (R329). -/
def State.hearthWord (s : State) (h off : Nat) : Nat :=
  let grp := fun n (f : Group → Nat) => match s.grp (128 * h + n) with
    | some g => f g
    | none => 0
  if off < 0x1000 then grp (off / 32) fun g => g.schedWord (off % 32 / 8)
  else if off < 0x1400 then
    match tabGet s.locks (64 * h + (off - 0x1000) / 16) with
    | some l => l.word (off % 16 / 8)
    | none => 0
  else if off < 0x1800 then
    match (s.recs.filter fun r => r.hearth == h && !r.held).drop ((off - 0x1400) / 64) with
    | r :: _ => wordOf r.bytes (off % 64)
    | [] => 0
  else if 0x2000 ≤ off && off < 0x4000 then
    let e := (off - 0x2000) / 32
    (s.vent h e).word ((s.heldSlots h fun _ => true).contains e) (off % 32 / 8)
  else if 0x4000 ≤ off && off < 0x28000 then
    let x := off - 0x4000
    grp (x / 1152) fun g => ((tabD (g.regSet (x % 1152 / 384)).1 (x % 384 / 24) {}).word (x % 24 / 8)).toNat
  else if 0x28000 ≤ off && off < 0x5E000 then
    let x := off - 0x28000
    grp (x / 1728) fun g => (tabD (g.regSet (x % 1728 / 576)).2 (x % 576 / 72) {}).words (x % 72 / 8)
  else if 0x60000 ≤ off && off < 0xA8000 then
    let x := off - 0x60000
    grp (x / 2304) fun g => g.splitWord (x % 2304)
  else if 0xB0000 ≤ off && off < 0xD4000 then
    let x := (off - 0xB0000) / 24
    match (s.l1Lines h (x / 12)).drop (x % 12) with
    | l :: _ => s.l1Word h l ((off - 0xB0000) % 24 / 8)
    | [] => 0
  else 0

/-! ### The window (R122, R328, R329) -/

/-- A word of a resident queue's 256 bytes (R329, R370): PROG, DONE and ERR stand where its descriptor has them, which the manual does not
say (log 27); a place without a queue reads 0, and the words the manual does not name are none. -/
def State.queueWord (s : State) (d off : Nat) : Option Nat :=
  match (s.residentOn d).find? fun p => p.2.place == off / 256 with
  | some (_, q) =>
    match off % 256 with
    | 24 => some q.prog
    | 32 => some q.done
    | 40 => some q.err
    | _ => none
  | none => some 0

/-- A word of a die's area; none where the manual names the content and gives no layout: queues but for PROG, DONE and ERR, slices,
last-level TLB, links, counters and log (log 27). -/
def State.dieWord (s : State) (d off : Nat) : Option Nat :=
  let q := s.fq d
  let p := s.pool d
  if off < 0x80 then
    match off with
    | 0x00 => some q.base.toNat
    | 0x08 => some q.size.toNat
    | 0x10 => some q.head.toNat
    | 0x18 => some q.tail.toNat
    | 0x40 => some p.ringbase.toNat
    | 0x48 => some p.ringsize.toNat
    | 0x50 => some p.head.toNat
    | 0x58 => some p.count.toNat
    | 0x60 => some p.lowmark.toNat
    | _ => some 0
  else if 0x1000 ≤ off && off < 0x5000 then s.queueWord d (off - 0x1000)
  else if 0x100000 ≤ off && off < 0x2500000 then some (s.hearthWord (36 * d + (off - 0x100000) / 0x100000) (off % 0x100000))
  else if 0x2600000 ≤ off && off < 0x2C00000 then none
  else if 0x3200000 ≤ off && off < 0x3260000 then none
  else if 0x3800000 ≤ off && off < 0x3810000 then none
  else some 0

/-- The 8-byte word at an offset of the state window (R328); none where its layout is not given. -/
def State.windowWord (s : State) (off : Nat) : Option Nat :=
  if off < 0x1000 then some (s.identWord off)
  else if off < 0x2000 then some (s.cmdWord (off - 0x1000))
  else if off < 0x3000 then some (s.recd.word (off - 0x2000))
  else if off < 0x5400 then
    let n := (off - 0x3000) / 256
    some ((tabD s.ports n {}).word n (off % 256))
  else if off = 0x5400 then some s.rtimeout
  else if off = 0x5408 then some s.refused
  else
    match dieArea off with
    | some (d, o) => s.dieWord d o
    | none => some 0

/-- `swrd` (R122): privileged; a poisoned offset traps, and so does one that is no word of the window. -/
def execSwrd (sd sa : BitVec 6) (s : State) : Res :=
  onStoker s fun k g =>
    let a := g.sGet sa.toNat
    if !s.privileged g then s.trapS k g trapPrivilege
    else if a.pz then s.trapS k g (trapPoison 0 0)
    else if a.val.toNat % 8 != 0 || 0x20000000 ≤ a.val.toNat then s.trapS k g (trapOperand a.val)
    else
      match s.windowWord a.val.toNat with
      | some x => s.setG k (g.result sd (BitVec.ofNat 64 x) false 4)
      | none => s.stamp.setG k (g.result sd (Config.freeBits s.free) false 4)

/-! ### `slit` (R48) -/

/-- The integer operation of an immediate opcode (R49). -/
def slitFn (op : Nat) : W64 → W64 → W64 :=
  match op with
  | 0x04 => addFn
  | 0x05 => andFn
  | 0x06 => orFn
  | 0x07 => xorFn
  | 0x08 => shlFn
  | 0x09 => shrN64Fn
  | 0x0A => shrI64Fn
  | 0x0B => mulFn
  | 0x0C => minI64Fn
  | 0x0D => minN64Fn
  | 0x0E => maxI64Fn
  | _ => maxN64Fn

/-- `slit` with the SI instruction it supplies a 64-bit value to (R48): three words, one instruction. An opcode that is not of
format SI is no instruction. -/
def execSlit (v : BitVec 64) (op : BitVec 7) (sd sa : BitVec 6) (s : State) : Res :=
  match op.toNat with
  | 0x04 | 0x05 | 0x06 | 0x07 | 0x08 | 0x09 | 0x0A | 0x0B | 0x0C | 0x0D | 0x0E | 0x0F => aluI s sd sa v 12 (slitFn op.toNat)
  | 0x10 =>
    onStoker s fun k g => compare s (sd.setWidth 3) (g.sGet sa.toNat) ⟨v, false⟩ ((sd >>> 3).setWidth 3) true 12 k g
  | 0x11 =>
    onStoker s fun k g => compare s (sd.setWidth 3) (g.sGet sa.toNat) ⟨v, false⟩ ((sd >>> 3).setWidth 3) false 12 k g
  | 0x20 => loadS s sd sa v 1 false 12
  | 0x21 => loadS s sd sa v 1 true 12
  | 0x22 => loadS s sd sa v 2 false 12
  | 0x23 => loadS s sd sa v 2 true 12
  | 0x24 => loadS s sd sa v 4 false 12
  | 0x25 => loadS s sd sa v 4 true 12
  | 0x26 => loadS s sd sa v 8 false 12
  | 0x28 => storeS s sd sa v 1 0 12
  | 0x29 => storeS s sd sa v 2 0 12
  | 0x2A => storeS s sd sa v 4 0 12
  | 0x2B => storeS s sd sa v 8 0 12
  | _ => onStoker s fun k g => s.trapS k g trapIllegal 12

end Sys2Proof.Machine
end

