-- ==== Sys2Proof/Machine/Due.lean ====
section
/-! DEFINITION. Which of the device's own events is due before the next issue: each is asked for with the operands its step reads,
and only when it can go on. Their order within a clock is the model's (log 2). -/

namespace Sys2Proof.Machine

/-- An event to be executed next, with its operands and the state it leaves for it. -/
structure DueEv where
  i : Instr
  ev : EvArgs := {}
  s : State

/-- An event of the device itself. -/
def State.event (s : State) (i : Instr) (a : Nat := 0) (b : Nat := 0) (c : Nat := 0) (d : Nat := 0) (flag : Bool := false) : DueEv :=
  { i := i, ev := { a := a, b := b, c := c, d := d, flag := flag }, s := s }

/-- What arrives from outside at this clock: the head of the agenda, once its clock has come (log 2). -/
def State.dueOutside (s : State) : Option DueEv :=
  match s.agenda with
  | (t, i, ev) :: r => if t ≤ s.clk then some { i := i, ev := ev, s := { s with agenda := r } } else none
  | [] => none

/-- What a replay takes from its log at this clock: a launch, a write through BAR0 or another inbound datum, or the mismatch of a record that
it has run past (R334). It comes where the host's own would (log 2). -/
def State.dueReplay (s : State) : Option DueEv :=
  match s.replayDatum with
  | some (pa, _) => some (if bar0Base ≤ pa then s.event .stateWindowWrite (flag := true) else s.event .hostMemoryRequest (b := 1))
  | none =>
    if s.replayMissed then some (s.event .hostMemoryRequest (b := 1))
    else s.replayLaunch.map fun _ => s.event .launchRecord (flag := true)

/-! ### Groups (R143, R203–R205, R209, R263, R382) -/

/-- The first group a test picks. -/
def State.someGroup (s : State) (f : Group → Bool) : Option Nat := (s.groups.find? fun (p : Nat × Group) => f p.2).map (·.1)

/-- A slot of a group that a test of its split picks. -/
def Group.someSlot (g : Group) (f : Split → Bool) : Option Nat :=
  if g.slot0.any f then some 0 else if g.slot1.any f then some 1 else none

/-- A slot of some group that a test picks. -/
def State.someSlot (s : State) (f : Group → Split → Bool) : Option (Nat × Nat) :=
  s.groups.findSome? fun (p : Nat × Group) => if p.2.saved then none else (p.2.someSlot (f p.2)).map (p.1, ·)

/-- The stoker's instruction is to complete with a value that did not come in time: it is at no boundary (R264, R325). -/
def State.completing (s : State) (g : Group) : Bool :=
  (s.keyOf g.name).any fun k => s.served.any fun x => x.lost && x.who == (0, k)

/-- A group takes the trap that has stopped it once its results in flight are written, or one that is pending at its boundary
(R263, R382). -/
def State.trapDue (s : State) (g : Group) : Bool :=
  !g.saved && g.susp.isNone &&
    (if g.raised.isSome then !s.inFlight g.name && !g.awaits else !g.pendTraps.isEmpty && !s.completing g)

/-- What is due in a group itself. -/
def State.dueGroup (s : State) : Option DueEv :=
  ((s.someGroup s.trapDue).map fun k => s.event .trapTake k).orElse fun _ =>
  ((s.someGroup s.timerOut).map fun k => s.event .groupTimerTrap k).orElse fun _ =>
  ((s.ctxs.find? fun (p : Nat × Ctx) => p.2.alarm.any fun t => t ≤ s.now).map fun p => s.event .deadlineAlarm p.1).orElse fun _ =>
  ((s.someSlot fun g sp => 64 ≤ sp.rot && sp.st == .ready && g.oldestAble.isSome).map fun x =>
    s.event .splitRotation x.1 x.2).orElse fun _ =>
  ((s.someGroup fun g => 64 ≤ g.lpass && g.lesc.isNone).map fun k => s.event .escalation k).orElse fun _ =>
  ((s.someGroup fun g => 64 ≤ g.spass && g.sesc.isNone).map fun k => s.event .stokerEscalation k).orElse fun _ =>
  ((s.someGroup fun g => g.ldem = 1 || g.sdem = 1).map fun k => s.event .demotionEnd k).orElse fun _ =>
  (s.someSlot fun _ sp => !(sp.ripe s.clk).isEmpty).map fun x => s.event .longLatencyResult x.1 x.2

/-! ### Homes and lines (R228–R233, R308–R311, R322) -/

/-- Hearth × 128 + group slot of the group whose access or operation it is (R332). -/
def State.pendKey (s : State) (p : Pend) : Nat :=
  ((p.owner.bind s.keyOf).orElse fun _ =>
    ((s.copies.find? fun c => c.id == p.blk).map fun c => 128 * c.hearth + c.gslot).orElse fun _ =>
      (s.mats.find? fun m => m.id == p.blk).map fun m => 128 * m.hearth + m.gslot).getD (128 * p.hearth)

/-- The access that may be performed, or whose codec step may begin, which arrived first (R230, R292). -/
def State.performable (s : State) : Option Pend :=
  (s.pend.filter fun p => p.arrived && p.steps s.clk && s.canPerform p.key && s.answerReady p &&
    (firstArrived s.pend p.key).map (·.id) == some p.id).foldl (fun o p => if o.all (p.arr < ·.arr) then some p else o) none

/-- A line whose home record a test picks. -/
def State.someHome (s : State) (f : Nat → Home → Bool) : Option Nat := (s.homes.find? fun (p : Nat × Home) => f p.1 p.2).map (·.1)

/-- Whether a die is fenced from the home of a line (R311). -/
def State.cut (s : State) (i : Inval) : Bool :=
  let e := (homeOf i.key).1
  s.fences.contains (i.die, e) || s.fences.contains (e, i.die)

/-- What is due at a home slice. -/
def State.dueHome (s : State) : Option DueEv :=
  ((firstBy (fun (p : Pend) => s.turn p.ctx (s.pendKey p)) (s.pend.filter s.mayArrive)).map fun p => s.event .homeWriteArrival p.id).orElse fun _ =>
  (s.performable.map fun p => s.event (if p.isAtomic then .homeAtomic else .writePerformed) p.key).orElse fun _ =>
  ((s.pend.find? fun p => p.timedOut s.clk).map fun p => s.event .remoteTimeout p.id).orElse fun _ =>
  ((s.someHome fun k _ => s.servable k).map fun k => s.event .homeReadRequest k).orElse fun _ =>
  ((s.someHome fun k _ => s.mustRecall k).map fun k => s.event .lineRecall k).orElse fun _ =>
  ((s.someHome fun _ h => h.lent.isSome && h.recalled).map fun k => s.event .lineReturn k).orElse fun _ =>
  (s.someHome fun k _ => s.mayLend k).map fun k => s.event .lendLine k

/-- What is due about copies of lines elsewhere. -/
def State.dueCopies (s : State) : Option DueEv :=
  ((s.invals.find? fun i => i.dropped && i.ackAt ≤ s.now && !s.cut i).map fun i => s.event .invalidationAck i.die i.key).orElse fun _ =>
  ((s.invals.find? fun i => !i.dropped && !s.cut i).map fun i => s.event .invalidation i.die i.key).orElse fun _ =>
  ((s.invals.find? fun i => i.sent + 2000 ≤ s.now).map fun i => s.event .sharerAckTimeout i.die i.key).orElse fun _ =>
  ((s.snoops.find? s.mayAnswer).map fun n => s.event .snoopAnswer n.half).orElse fun _ =>
  ((s.l1.find? fun (p : Nat × List L1Line) => p.2.any fun l => l.ended s.now).map fun p => s.event .leaseExpiry (p.1 / 512)).orElse fun _ =>
  if s.sectors.any fun (p : Nat × Nat) => p.2 ≤ s.now then some (s.event .leaseExpiry (flag := true)) else none

/-! ### Engines (R188, R192, R344, R348, R357) -/

/-- A copy may be tried while its group is resident (R341). -/
def State.copyRuns (s : State) (c : Copy) : Bool :=
  c.next ≤ s.clk && s.groups.any fun (p : Nat × Group) => p.2.name == (c.wg, c.gidx) && !p.2.saved

/-- Whether a copy precedes another in the turn after the copy served last (R357). -/
def before (last : Nat) (a b : Copy) : Bool :=
  if (last < a.id) == (last < b.id) then a.id < b.id else last < a.id

/-- Whether a copy goes before another: those of the context in recorded mode by group slot (R332), else by turn (R357). -/
def State.goesBefore (s : State) (last : Nat) (a b : Copy) : Bool :=
  let x := s.turn a.ctx a.gslot
  let y := s.turn b.ctx b.gslot
  rankLt x y || (x == y && before last a b)

/-- The copy whose turn it is in its hearth, which moves two units of 128 bytes per clock in all (R357). -/
def State.copyTurn (s : State) (c : Copy) : Bool :=
  let t := tabD s.cpTurn c.hearth (0, 0, 0)
  (t.1 != s.clk || t.2.1 < 2) &&
    !s.copies.any fun x => x.hearth == c.hearth && s.copyRuns x && s.goesBefore t.2.2 x c

/-- A matrix operation goes on while one of its members is resident; a step that has begun ends (R352). -/
def State.matRuns (s : State) (m : MatOp) : Bool := m.next ≤ s.clk && (m.going || s.matResident m)

/-- A projection goes on: it may register its range, its next latent line can be read, the projection unit takes it, or its row is
formed (R181, R192). -/
def State.projGoes (s : State) (p : Proj) : Bool :=
  if p.left.isEmpty then (if p.ready = 0 then p.late ≤ s.clk else p.ready ≤ s.clk)
  else if p.locked then s.latentCome p else s.mayLock p

/-- What is due in a hearth's engines. -/
def State.dueEngine (s : State) : Option DueEv :=
  ((firstBy (fun (p : Proj) => s.turn p.ctx ((s.keyOf p.owner).getD (128 * p.hearth))) (s.projs.filter s.projGoes)).map fun p =>
    s.event .projectionComplete p.id).orElse fun _ =>
  ((s.groups.findSome? fun (p : Nat × Group) => (p.2.wBusy.find? fun w => w.2.ready ≤ s.clk).map fun w => (p.1, w.1)).map fun x =>
    s.event .viewMatrixCopyDone x.1 x.2).orElse fun _ =>
  ((s.copies.find? fun c => s.copyRuns c && s.copyTurn c).map fun c => s.event .copyUnit c.id).orElse fun _ =>
  (s.mats.find? s.matRuns).map fun m => s.event (if m.kind == .mma then .mmaKstep else .accUnit) m.id

/-! ### Freezes and thaws (R298, R302, R306) -/

/-- The dies of this module that hold homes of a page's lines: those of host memory are spread over all four, and a page of another module has
none here (R225, R296, R321). -/
def State.pageHomes (s : State) (ctx : Nat) (page : W64) : List Nat :=
  let c := tabD s.ctxs ctx {}
  match s.walk c page with
  | .found leaf pa pgsz =>
    let t := trOf s c leaf pa pgsz page
    if t.creg.isNone && isOther t.pa then []
    else if t.creg.isNone && isHost t.pa then [0, 1, 2, 3]
    else [(homeOf (s.keyOfTr c t)).1]
  | _ => []

/-- This module's number. -/
def here : Nat := Config.moduleNumber.toNat

/-- The dies of this module whose drop-replicas acknowledgement is missing (R302). -/
def FrzPage.owing (p : FrzPage) : List Nat := (p.acks.filter fun a => a.1 == here).map (·.2)

/-- A die that has dropped its copies of a page, or is fenced from all the page's homes (R302, R311). -/
def State.dropDone (s : State) (p : FrzPage) (d : Nat) : Bool :=
  let homes := s.pageHomes p.ctx p.va
  p.dropped.contains d || (!homes.isEmpty && homes.all fun e => s.fences.contains (d, e) || s.fences.contains (e, d))

/-- A party has not answered within FRTO (R306). -/
def State.frtoOver (s : State) (p : FrzPage) : Bool := p.sent + (tabD s.ctxs p.ctx {}).frtoNs ≤ s.now

/-- What is due for one page. -/
def State.duePage (s : State) (p : FrzPage) : Option DueEv :=
  let v := p.va.toNat
  let goes := s.pageGoes p.ctx p.va
  if p.mods.contains here then if goes then some (s.event .freezeRequest p.ctx v (if p.thawing then 2 else 1) here) else none
  else if p.thawing then
    match p.owing with
    | d :: _ =>
      some (if s.dropDone p d then s.event .dropReplicasAck p.ctx v here d else s.event .dropReplicas p.ctx v d p.gen)
    | [] =>
      if p.acks.isEmpty && goes then some (s.event .dropReplicasAck p.ctx v here)
      else if !p.acks.isEmpty && s.frtoOver p && goes then some (s.event .thawTimeout p.ctx v)
      else none
  else if s.freezeReady p then if goes then some (s.event .freezeComplete p.ctx v) else none
  else if !p.mods.isEmpty && s.frtoOver p then some (s.event .freezeShootdownTimeout p.ctx v)
  else none

/-! ### Faults, launches, save and restore, commands, trace (R242, R260, R261, R333, R334, R369–R380) -/

/-- What is due on the fault path and in the page tables. -/
def State.dueFault (s : State) : Option DueEv :=
  ((s.recs.find? fun r => !r.closed && !r.held && r.opened + 256 ≤ s.now).map fun r => s.event .coalescerDelivery r.hearth).orElse fun _ =>
  (([0, 1, 2, 3].find? s.recGoes).map fun d => s.event .faultQueueWrite d).orElse fun _ =>
  if s.tlb.any fun e => e.overdue s.now then some (s.event .adWriteback) else none

/-- What is due at the dispatchers. -/
def State.dueDispatch (s : State) : Option DueEv :=
  ((s.queues.find? fun (p : Nat × Queue) => s.booted && s.sealedQ p.1 p.2).map fun p => s.event .launchRecord p.1).orElse fun _ =>
  ((s.grids.find? fun (p : Nat × Grid) => s.gridOver p.1 p.2).map fun p => s.event .gridRetire p.1).orElse fun _ =>
  ((s.groups.find? fun (p : Nat × Group) => s.mustSave p.2 && p.2.lastL != some s.clk && p.2.lastS != some s.clk).map fun p =>
    s.event .forcedSave p.1).orElse fun _ =>
  ((s.groups.find? fun (p : Nat × Group) =>
    p.2.saved && s.mayLeave p.2.wg).map fun p => s.event .forcedSave p.1).orElse fun _ =>
  ((s.saved.find? fun v => !v.back && (tabD s.ctxs v.wg.ctx {}).restoring && (s.restoreAll v).isSome).map fun v =>
    s.event .restoreWorkgroup v.wgid).orElse fun _ =>
  (s.grids.find? fun (p : Nat × Grid) => (s.placeGrid p.1).isSome).map fun p => s.event .workgroupPlacement p.1

/-- A command that can go on, or a trace record that can be written. -/
def State.dueHost (s : State) : Option DueEv :=
  (s.cmdReady.map fun i => s.event i (flag := true)).orElse fun _ =>
  if s.traceGoes then some (s.event .traceRecord) else none

/-- The next event: boot first, then what arrives from outside, then the device's own; none once it is stopped (R7). -/
def State.due (s : State) : Option DueEv :=
  if !s.booted && !s.recovery then some (s.event .boot)
  else if s.stopped then none
  else
    s.dueOutside.orElse fun _ => s.dueReplay.orElse fun _ => s.dueGroup.orElse fun _ => s.dueHome.orElse fun _ => s.dueCopies.orElse fun _ =>
      s.dueEngine.orElse fun _ => (s.frz.findSome? s.duePage).orElse fun _ => s.dueFault.orElse fun _ =>
        s.dueDispatch.orElse fun _ => s.dueHost

end Sys2Proof.Machine
end

