-- ==== Sys2Proof/Machine/Place.lean ====
section
/-! DEFINITION. A small device state in which a given instruction is the next one a stream fetches: page tables that map the
first 64 KiB of one context, one resident group, and the instruction's bytes in the mapped frame. -/

namespace Sys2Proof.Machine

/-- Page tables from 0x10000 that map virtual page 0 to the frame at 0x20000, readable and writable (R234–R236). -/
def placeTables (s : State) : State :=
  let s := s.pokeNat 0x10000 8 (0x14000 + 1)
  let s := s.pokeNat 0x14000 8 (0x18000 + 1)
  let s := s.pokeNat 0x18000 8 (0x1C000 + 1)
  let s := s.pokeNat 0x1C000 8 (0x1C100 + 1)
  s.pokeNat 0x1C100 8 (2 * 2 ^ 28 + 0xF)

/-- The kernel of the placed group: 32 threads, 248 lane registers, code from virtual address 0x100. -/
def placeKern : Kern :=
  { width := 32, vregs := 248, scoff := 0x100, scwords := 1024, lcinsts := 1024, lcoff := 0x100, scratch := 4096, priv := 1024 }

/-- The placed group; for a lane instruction it has an executing block with one split at its first instruction. -/
def placeGroup (lane : Bool) : Group :=
  let g : Group := { ctx := 0, wg := 0, gidx := 0, kern := placeKern, width := 32 }
  if lane then g.enqueue 1 0 (fullMask 32) else g

/-- The state with the bytes of an instruction placed where the group's stream fetches next: a lane's opportunities follow its
partition's stoker ports, so the cursor stands behind them for a lane instruction. -/
def State.placeCode (s : State) (lane : Bool) (code : List Byte) : State :=
  let s : State := { s with mem := [], poison := [], cells := [], tlb := [], walkc := [] }
  let s := (placeTables s).poke 0x20100 code false
  { s with
    booted := true, coolant := true, stopped := false, agenda := [], cursor := if lane then 4 else 0, cur := none, clk := 0, nextId := 2,
    pend := [], served := [], cpTurn := [], codecFree := [], l1Port := [], invals := [], copies := [], mats := [], projs := [],
    recs := [], queues := [], saved := [], busy := [],
    homes := [], frz := [], marks := [], snoops := [], locks := [], cmd := {}, recd := {}, links := [], fences := [],
    ctxs := [(0, { ptroot := 0x10000, priv := true })],
    grids := [(0, { ctx := 0, kern := placeKern, gx := 1, gy := 1, gz := 1, ngrp := 1, cores := true, next := 1, live := 1 })],
    wgs := [(0, { grid := 0, ctx := 0, ix := 0, iy := 0, iz := 0, hearth := 0, slots := [0], scratch := 4096 })],
    groups := [(0, placeGroup lane)] }

end Sys2Proof.Machine
end

