-- ==== Sys2Proof/Machine/Again.lean ====
section
/-! DEFINITION. What a save took back from a stream, issued again before the stream's next instruction: loads and `ldv` of a split,
loads of another module and `vset` of a stoker (R88, R179, R198). -/

namespace Sys2Proof.Machine

/-! ### The stoker (R88, R198) -/

/-- A trap of an instruction that is issued again; skipping it gives it up (R267; log 65). -/
def againTrap (g : Group) (pc : W64) (t : Trap) : Trap :=
  { t with stoker := true, tmask := fullMask g.width, pc := pc.setWidth 32, len := 0 }

/-- A stoker's load issued again: it is checked, but for the range locks, which it was issued before (R254), and reads memory as they now
stand (R88). -/
def State.againLoad (s : State) (k : Nat) (g : Group) (n : Nat) (signed : Bool) (va pc : W64) (size : Nat) (acq : Bool) : State :=
  match s.chkScalar k g accLoad va size false with
  | (s, .trap t) => takeTrap s k g (againTrap g pc t)
  | (s, .wait) => s.waitS k
  | (s, .ok t) =>
    let past := fun (g : Group) => { g with redo := g.redo.drop 1 }
    if s.unanswered k g t then (s.setG k (past g)).sendLost k g n va t size signed pc acq
    else
      match s.stokerRead k g t size with
      | (s, none) => s.waitS k
      | (s, some (b, p)) =>
        let x := leNat b
        s.setG k ((past (s.fresh k g)).deliverS n ⟨if signed then (BitVec.ofNat (8 * size) x).signExtend 64 else BitVec.ofNat 64 x, p⟩)

/-- What a stoker issues again first. -/
def State.againStoker (s : State) (k : Nat) (g : Group) (r : Redo) : State :=
  match r with
  | .vset w addr pc => ({ k := k, g := g, wn := w, addr := addr, pc := pc, again := true } : VSet).run s
  | .load n signed va pc size acq => s.againLoad k g n signed va pc size acq

/-! ### The lanes (R179) -/

/-- What the parts of a load issued again have come to: the values, the failed checks with their place in the order of R164 and their
thread, the accesses that get no response, whether some part waits, and the lines it touches with what the slowest adds. -/
structure Again where
  vals : List OutV := []
  bad : List (Nat × Nat × Trap) := []
  lost : List Pend := []
  waits : Bool := false
  lines : List Nat := []
  miss : Nat := 0

/-- A line touched, with the clocks a miss of it adds (R220, R292, R314). -/
def Again.touch (a : Again) (line miss : Nat) : Again := { a with lines := addOnce a.lines line, miss := max a.miss miss }

/-- The value of a part of a load. -/
def LoadReq.value (q : LoadReq) (b : List Byte) (pz : Bool) : OutV :=
  { t := q.t, r := q.r, val := some ⟨BitVec.ofNat 32 (extend q.size q.signed (leNat b)), pz⟩ }

/-- A part that gets no response: one access for each thread. -/
def Again.lose (a : Again) (s : State) (k : Nat) (g : Group) (o : Out) (id : Nat) (q : LoadReq) (pa : Nat) : Again :=
  let more := fun (x : Pend) =>
    match x.kind with
    | .lost d w pc => { x with kind := .lost d (w + q.size) pc }
    | _ => x
  let p : Pend :=
    { id := id, key := physKey pa, ctx := g.ctx, owner := some g.name, arrived := false, issued := s.clk, va := q.va,
      blk := (g.execBlock.map (·.id)).getD 0, acq := false, kind := .lost (.lane o.id q.t q.r) q.size 0, hearth := hearthOf k }
  { a with
    vals := a.vals ++ [{ t := q.t, r := q.r, val := none }],
    lost := if a.lost.any (·.id == id) then a.lost.map fun x => if x.id = id then more x else x else a.lost ++ [p] }

/-- A global part: its address is translated and checked anew, but for the range locks, which it was issued before (R254), and read as
memory stands. -/
def State.againGlobal (s : State) (k : Nat) (g : Group) (o : Out) (first : Nat) (q : LoadReq) (a : Again) : State × Again :=
  match s.chkTlb k g accLoad q.va q.size false with
  | (s, .trap t) =>
    let walked := match (s.translate (hearthOf k) g.ctx q.va).2 with
      | .ok _ => canonical q.va
      | _ => false
    (s, { a with bad := a.bad ++ [(if t.code = 0x05 then 1 else if walked then 2 else 0, q.t, t)] })
  | (s, .wait) => (s, { a with waits := true })
  | (s, .ok t) =>
    let key := s.keyOfTr (tabD s.ctxs g.ctx {}) t
    let a := a.touch key (s.missClocks (hearthOf k) key)
    if t.creg.isNone && s.lostRead g.ctx (hearthOf k) (physKey t.pa) (first + 1 + q.t) then (s, a.lose s k g o (first + 1 + q.t) q t.pa)
    else
      match s.stokerRead k g t q.size with
      | (s, none) => (s, { a with waits := true })
      | (s, some (b, p)) => (s, { a with vals := a.vals ++ [q.value b p] })

/-- A part of a load issued again. Scratchpad pages and private lines come back from their backing as for any access (R219, R224). -/
def State.againPart (s : State) (k : Nat) (g : Group) (o : Out) (first : Nat) (q : LoadReq) (a : Again) : State × Again :=
  match q.space with
  | .glob => s.againGlobal k g o first q a
  | sp =>
  if s.spaceCut k g sp q.t q.off q.size then (s, { a with bad := a.bad ++ [(0, q.t, accTrap 0x06 accLoad q.va q.size)] })
  else
  match sp with
  | .scratch =>
    let s := (pagesOf q.off q.size).foldl (fun s p => s.refill g.wg p) s
    let w := s.wgOf g.wg
    (s, { a.touch (q.off / 128) 0 with vals := a.vals ++ [q.value (w.spRead q.off q.size) (w.spPoisoned q.off q.size)] })
  | _ =>
    let x := (g.pb + privFlat g.width q.t q.off) / 128
    let a := a.touch x (s.privMiss (hearthOf k) (128 * x))
    let s := s.touchPrivs k g q.t q.off q.size false
    let g := s.fresh k g
    (s, { a with vals := a.vals ++ [q.value (g.privRead q.t q.off q.size) (g.privPoisoned q.t q.off q.size)] })

/-- A discarded `ldv` with its environment: that of the split's block, whose view it names. -/
def State.againEnv (s : State) (k slot : Nat) (g : Group) (sp : Split) (o : Out) : LdvEnv :=
  let n := (o.ldvs.map fun x => x.2.2.2.2).headD 0
  let w := tabD g.snapOf.w n {}
  let f : LaneF := ⟨0, 0, 0, BitVec.ofNat 8 n, 0, 0, 0, 0, 0, 0, 0, 0, 0, 0, 0⟩
  ⟨{ s.laneEnv f k slot g sp 0 with ts := o.ldvs.map (·.1) }, w, vdesc w.desc.toNat⟩

/-- The token a thread of a discarded `ldv` names. -/
def Out.tok (o : Out) (t : Nat) : Nat := ((o.ldvs.find? fun x => x.1 == t).map fun x => x.2.2.1).getD 0

/-- The checks of the rows of a discarded `ldv` made again (R191, R198). -/
def State.againRows (s : State) (k slot : Nat) (g : Group) (sp : Split) (o : Out) (a : Again) : State × Again :=
  let q := s.againEnv k slot g sp o
  let (s, ill, abs, cod) := q.rowTraps o.tok q.e.ts s
  let at_ := fun (n : Nat) (l : List (Nat × Trap)) => l.map fun (x : Nat × Trap) => (n, x.1, x.2)
  (s, { a with bad := a.bad ++ at_ 0 ill ++ at_ 1 abs ++ at_ 2 cod })

/-- The first check of R164 that some thread fails, with the lowest-numbered of the threads that fail it and all of them (R165). -/
def firstBad (l : List (Nat × Nat × Trap)) : Option (Trap × Mask) :=
  let rank := l.foldl (fun r x => min r x.1) 3
  let mine := l.filter fun x => x.1 == rank
  let low := mine.foldl (fun t x => min t x.2.1) 128
  (mine.find? fun x => x.2.1 == low).map fun x => (x.2.2, maskOf (mine.map (·.2.1)))

/-- The clocks a discarded load takes its slot for as it issues again: one for each pass with a thread of it (R22). -/
def Out.passes (o : Out) : Nat :=
  ((o.reqs.map fun (q : LoadReq) => q.t / 32) ++ o.ldvs.map fun (x : Nat × Nat × Nat × Nat × Nat) => x.1 / 32).eraseDups.length

/-- The pages of the bytes a discarded load or `ldv` reads (R238). -/
def State.againPages (s : State) (k slot : Nat) (g : Group) (sp : Split) (o : Out) : Nat :=
  let q := s.againEnv k slot g sp o
  let vas := ((o.reqs.filter fun q => q.space == .glob).map (·.va)) ++ o.ldvs.foldr (fun x acc => (q.pieces x.2.2.1).map (·.1) ++ acc) []
  (q.e.pagesOf vas).length

/-- The latency of a load issued again, after its last pass (R143, R191, R220, R238). -/
def State.againLat (s : State) (k slot : Nat) (g : Group) (sp : Split) (o : Out) (a : Again) : Nat :=
  let q := s.againEnv k slot g sp o
  let base := match o.reqs with
    | [] => if (q.tokens o.tok).any fun t => (q.find s t).hits then 28 else 0
    | x :: _ => if x.space = .scratch then 20 else 28
  base + (a.lines.length - 1) + (s.againPages k slot g sp o - 4) + a.miss

/-- A discarded load or `ldv` of a split issued again before any instruction of the split (R179): it takes its line requests and its
latency as at its first issue (R143, R220). A check that fails now is a trap of that instruction (log 65). -/
def State.againLane (s : State) (k slot : Nat) (g : Group) (sp : Split) (o : Out) : State :=
  let first := s.nextId
  let (s, a) := o.reqs.foldl (fun (x : State × Again) q => x.1.againPart k g o first q x.2) (s, {})
  let (s, a) := if o.ldvs.isEmpty then (s, a) else s.againRows k slot g sp o a
  let g := s.fresh k g
  match firstBad a.bad with
  | some (t, mask) => takeTrap s k g { t with stoker := false, tmask := mask, pc := o.pc, slot := slot, len := 0 }
  | none =>
    if a.waits then s.waitL k slot
    else
      let lat := s.againLat k slot g sp o a
      let (wait, s) := s.takePort k a.lines.length
      let q := s.againEnv k slot g sp o
      let o' : Out :=
        { o with
          again := false, ready := s.clk + (o.passes - 1) + wait + lat, vals := if o.ldvs.isEmpty then a.vals else o.vals,
          span := if o.ldvs.isEmpty then [] else (q.tokens o.tok).foldr (fun t acc => q.span s t ++ acc) [] }
      let s := s.setG k (g.setSplit slot ((g.split slot).map fun sp => { sp with outs := sp.outs.map fun x => if x.id = o.id then o' else x }))
      let s := s.sendLoads a.lost (max s.nextId (first + 129))
      if o.ldvs.isEmpty then s else s.lookupRows q o.tok o'

end Sys2Proof.Machine
end

