-- ==== Sys2Proof/Machine/Approx.lean ====
section
/-! DEFINITION. The approximations of class 0x6 (R140, R141, R157; 05, 06). The exact value is computed to more than 100 bits;
the result is an opaque code wherever that code lies within the stated bound of it, and the nearest code otherwise, so
that every permitted result is possible and no other. -/

namespace Sys2Proof.Machine

/-- π and ln 2 scaled by 2^256, rounded down. -/
def piFix : Int := 0x3243f6a8885a308d313198a2e03707344a4093822299f31d0082efa98ec4e6c89
def ln2Fix : Int := 0xb17217f7d1cf79abc9e3b39803f2f6af40f343267298b62d8a0d175b8baafa2b

/-- The scale of the fixed-point sums. -/
def oneFix : Int := 2 ^ 160

/-- Product of two scaled numbers. -/
def mulFix (a b : Int) : Int := a * b / oneFix

/-- A finite value as a number scaled by 2^160, rounded down. -/
def Num.toFix : Num → Int
  | .fin neg m d e =>
    let (n, _, _) := scaled m d (e + 160)
    if neg then -(n : Int) else n
  | _ => 0

/-- A scaled number as a value. -/
def ofFix (x : Int) : Num := .fin (x < 0) x.natAbs 1 (-160)

/-- e^r for 0 ≤ r < 1: the sum of r^k / k!. -/
def expTerms (r : Int) : Nat → Int → Int → Int
  | 0, _, _ => 0
  | n + 1, k, t => t + expTerms r n (k + 1) (mulFix t r / (k + 1))

/-- 2^x: whole and fractional parts apart. Far outside the format it is a huge or a tiny value. -/
def exp2Val (x : Num) : Num :=
  let v := x.toFix
  let n := v / oneFix
  if 4000 < n then .fin false 1 1 4000
  else if n < -4000 then .fin false 1 1 (-4000)
  else
    let r := mulFix (v - n * oneFix) (ln2Fix / 2 ^ 96)
    match ofFix (expTerms r 45 0 oneFix) with
    | .fin s m d e => .fin s m d (e + n)
    | y => y

/-- The sum of z^(2k+1) / (2k+1). -/
def atanhTerms (z2 : Int) : Nat → Int → Int → Int
  | 0, _, _ => 0
  | n + 1, k, t => t / k + atanhTerms z2 n (k + 2) (mulFix t z2)

/-- log2 of a positive value: its exponent and the logarithm of its significand in [1, 2). -/
def log2Val (x : Num) : Num :=
  match x with
  | .fin _ m d e =>
    let l := ilog2 m d
    let s := (Num.fin false m d (-l)).toFix
    let z := (s - oneFix) * oneFix / (s + oneFix)
    let ln := 2 * atanhTerms (mulFix z z) 60 1 z
    ofFix ((e + l) * oneFix + ln * oneFix / (ln2Fix / 2 ^ 96))
  | y => y

/-- The alternating sum of r^k / k! over every second k. -/
def trigTerms (r2 : Int) : Nat → Int → Int → Int
  | 0, _, _ => 0
  | n + 1, k, t => t + trigTerms r2 n (k + 2) (-(mulFix t r2) / ((k + 1) * (k + 2)))

/-- sin of x + q × π/2 by exact reduction to a remainder r near 0 (R140). -/
def trigVal (x : Num) (q : Int) : Num :=
  match x with
  | .fin neg m d e =>
    let (n, _, _) := scaled m d (e + 256)
    let v : Int := if neg then -(n : Int) else n
    let half := piFix / 2
    let k := (v + half / 2) / half
    let r := (v - k * half) / 2 ^ 96
    let r2 := mulFix r r
    match (k + q) % 4 with
    | 0 => ofFix (trigTerms r2 30 1 r)
    | 1 => ofFix (trigTerms r2 30 0 oneFix)
    | 2 => ofFix (-(trigTerms r2 30 1 r))
    | _ => ofFix (-(trigTerms r2 30 0 oneFix))
  | y => y

/-- Whether a magnitude is below 2^−40, where two terms of a series give the value to more than 160 bits. -/
def Num.tiny (x : Num) : Bool :=
  match x with
  | .fin _ m d e => m == 0 || ilog2 m d + e < -40
  | _ => false

/-- a − x^n / c, the first two terms of a series: below a power of two where the value is, so that its last place is its own. -/
def Num.less (a p : Num) (c : Int) : Num := a.add (p.div (.ofInt c)).flip 1

/-- sin or tanh of a tiny x, with c = 6 or 3, and cos. -/
def oddTiny (x : Num) (c : Int) : Num := x.less (x.mul (x.mul x)) c
def cosTiny (x : Num) : Num := (Num.ofInt 1).less (x.mul x) 2

/-- tanh. Beyond ±100 it is nearer to ±1 than 2^−280, and still less. -/
def tanhVal (x : Num) : Num :=
  if x.tiny then oddTiny x 3
  else
    let v := x.toFix
    let most := (Num.ofInt 1).less (.fin false 1 1 (-280)) 1
    if 100 * oneFix < v then most
    else if v < -100 * oneFix then most.flip
    else
      let y := 2 * v * oneFix / (ln2Fix / 2 ^ 96)
      let p := (exp2Val (ofFix y))
      (p.add (.ofInt (-1)) 1).div (p.add (.ofInt 1) 1)

/-- One unit in the last place of a result (R140). -/
def Fmt.ulp (f : Fmt) (y : Num) : Num :=
  match y with
  | .fin _ m d e =>
    let ex := if m = 0 then 1 - (f.bias : Int) else max (ilog2 m d + e) (1 - (f.bias : Int))
    .fin false 1 1 (ex - (f.fb : Int))
  | y => y

/-- Whether a code is finite and its value within a tolerance of y. -/
def Fmt.within (f : Fmt) (c : Nat) (y tol : Num) : Bool :=
  match f.decode c with
  | .fin s m d e =>
    let diff := (Num.fin s m d e).add y.flip 1
    let a := if diff.neg? then diff.flip else diff
    !tol.lt a
  | _ => false

/-- The bound of R140 for an operation on a format at an input and result: units in the last place, or an absolute error. -/
def approxTol (f : Fmt) (op : Nat) (x y : Num) : Num :=
  let u := f.ulp y
  let single := f == f32
  let two : Num := if single then .fin false 2 1 0 else .ofInt 1
  let least := fun (p : Int) => let a : Num := .fin false 1 1 p; let b := u.mul two; if a.lt b then b else a
  match op with
  | 0 | 1 => u
  | 4 => if !x.lt (.fin false 1 1 (-1)) && !(Num.ofInt 2).lt x then least (if single then -22 else -11) else u.mul two
  | 5 | 6 =>
    let small := (if y.neg? then y.flip else y).lt (.fin false 1 1 (-20))
    if single then (if small then least (-22) else u.mul two) else least (-12)
  | _ => u.mul two

/-- The special values of R141; none for an ordinary input. -/
def approxSpecial (f : Fmt) (op : Nat) (x : Num) : Option Nat :=
  let sg := fun (neg : Bool) => if neg then f.signBit else 0
  let one := roundTo f (.ofInt 1) 1 false
  match x with
  | .nan => some f.canonNaN
  | .inf neg =>
    match op with
    | 0 => some (sg neg)
    | 1 | 2 => some (if neg then f.canonNaN else if op = 1 then 0 else f.infMag)
    | 3 => some (if neg then 0 else f.infMag)
    | 4 => some (if neg then f.canonNaN else f.infMag)
    | 7 => some (sg neg + one)
    | _ => some f.canonNaN
  | .fin neg m _ _ =>
    if m = 0 then
      match op with
      | 0 | 1 => some (sg neg + f.infMag)
      | 3 | 6 => some one
      | 4 => some (f.signBit + f.infMag)
      | _ => some (sg neg)
    else if neg && (op == 1 || op == 2 || op == 4) then some f.canonNaN
    else if op == 4 && x.eq (.ofInt 1) then some 0
    else none

/-- The exact value of an operation of class 0x6 on an ordinary input. -/
def approxVal (op : Nat) (x : Num) : Num :=
  match op with
  | 0 => (Num.ofInt 1).div x
  | 1 => (Num.ofInt 1).div x.sqrt
  | 3 => exp2Val x
  | 4 => log2Val x
  | 5 => if x.tiny then oddTiny x 6 else trigVal x 0
  | 6 => if x.tiny then cosTiny x else trigVal x 1
  | _ => tanhVal x

/-- The result of `rcp`, `rsqrt`, `exp2`, `log2`, `sin`, `cos` or `tanh` (operation 0, 1, 3–7) on a code of format f, and
`sqrt` (2), correctly rounded by a direction. `ty` is the format's type code. -/
def approxOp (f : Fmt) (ty op dir x : Nat) : Nat :=
  let v := f.decode x
  match approxSpecial f op v with
  | some r => r
  | none =>
    if op = 2 then roundTo f v.sqrt dir false
    else
      let y := approxVal op v
      let near := roundTo f y 1 false
      if f == f16 && (op == 0 || op == 1) then near
      else
        let c := Config.approx op ty x % (2 * f.signBit)
        if f.within c y (approxTol f op v y) then c else near

end Sys2Proof.Machine
end

