-- ==== Sys2Proof/Machine/LaneInt.lean ====
section
/-! DEFINITION. Lane integer instructions, class 0x0 (R142, R146–R149). -/

namespace Sys2Proof.Machine

/-- The integer a code of an integer type stands for (R127). -/
def intVal (ty x : Nat) : Int := if tySigned ty then sintOf (tyBits ty) x else ((x % 2 ^ tyBits ty : Nat) : Int)

/-- The least and greatest values of an integer type (R127). -/
def intMin (ty : Nat) : Int := if tySigned ty then -(2 ^ (tyBits ty - 1) : Int) else 0
def intMax (ty : Nat) : Int := if tySigned ty then 2 ^ (tyBits ty - 1) - 1 else 2 ^ tyBits ty - 1

/-- An exact result wrapped to its type, or clamped to its range with `.sat` (R147). -/
def intFit (ty : Nat) (sat : Bool) (x : Int) : Nat :=
  wrap (tyBits ty) (if sat then max (intMin ty) (min (intMax ty) x) else x)

/-- The lesser of two codes as its type compares them. -/
def intLess (ty x y : Nat) : Bool := decide (intVal ty x < intVal ty y)

/-- `add` (R147). -/
def execLaneAdd (f : LaneF) (s : State) : Res :=
  laneRun s f fun e => e.write (e.map2 fun a b => intFit e.ty (f.sat == 1) (intVal e.ty a + intVal e.ty b))

/-- `sub` (R147). -/
def execLaneSub (f : LaneF) (s : State) : Res :=
  laneRun s f fun e => e.write (e.map2 fun a b => intFit e.ty (f.sat == 1) (intVal e.ty a - intVal e.ty b))

/-- `mul` (R147). -/
def execLaneMul (f : LaneF) (s : State) : Res :=
  laneRun s f fun e => e.write (e.map2 fun a b => a * b % 2 ^ tyBits e.ty)

/-- `mulh` (R147). -/
def execLaneMulh (f : LaneF) (s : State) : Res :=
  laneRun s f fun e => e.write (e.map2 fun a b => wrap (tyBits e.ty) (intVal e.ty a * intVal e.ty b / 2 ^ tyBits e.ty))

/-- `mad` (R147). -/
def execLaneMad (f : LaneF) (s : State) : Res :=
  laneRun s f fun e => e.write (e.map3 fun a b c => intFit e.ty (f.sat == 1) (intVal e.ty a * intVal e.ty b + intVal e.ty c))

/-- `min` (R147). -/
def execLaneMin (f : LaneF) (s : State) : Res :=
  laneRun s f fun e => e.write (e.map2 fun a b => if intLess e.ty b a then b else a)

/-- `max` (R147). -/
def execLaneMax (f : LaneF) (s : State) : Res :=
  laneRun s f fun e => e.write (e.map2 fun a b => if intLess e.ty a b then b else a)

/-- `abs` (R147). -/
def execLaneAbs (f : LaneF) (s : State) : Res :=
  laneRun s f fun e => e.write (e.map1 fun a => if tySigned e.ty then wrap (tyBits e.ty) (intVal e.ty a).natAbs else a)

/-- `neg` (R147). -/
def execLaneNeg (f : LaneF) (s : State) : Res :=
  laneRun s f fun e => e.write (e.map1 fun a => wrap (tyBits e.ty) (-(intVal e.ty a)))

/-- `and` (R147). -/
def execLaneAnd (f : LaneF) (s : State) : Res :=
  laneRun s f fun e => e.write (e.map2 fun a b => a &&& b)

/-- `or` (R147). -/
def execLaneOr (f : LaneF) (s : State) : Res :=
  laneRun s f fun e => e.write (e.map2 fun a b => a ||| b)

/-- `xor` (R147). -/
def execLaneXor (f : LaneF) (s : State) : Res :=
  laneRun s f fun e => e.write (e.map2 fun a b => a ^^^ b)

/-- `not` (R147). -/
def execLaneNot (f : LaneF) (s : State) : Res :=
  laneRun s f fun e => e.write (e.map1 fun a => 2 ^ tyBits e.ty - 1 - a)

/-- `shl` (R148). -/
def execLaneShl (f : LaneF) (s : State) : Res :=
  laneRun s f fun e => e.write (e.map2 fun a b => shlN (tyBits e.ty) a b)

/-- `shr` (R148). -/
def execLaneShr (f : LaneF) (s : State) : Res :=
  laneRun s f fun e => e.write (e.map2 fun a b => if tySigned e.ty then sarN (tyBits e.ty) a b else shrN (tyBits e.ty) a b)

/-- `popc` (R147). -/
def execLanePopc (f : LaneF) (s : State) : Res :=
  laneRun s f fun e => e.write (e.map1 fun a => popcount (tyBits e.ty) a)

/-- `clz` (R147). -/
def execLaneClz (f : LaneF) (s : State) : Res :=
  laneRun s f fun e => e.write (e.map1 fun a => clzN (tyBits e.ty) a)

/-- `bfe` (R148). -/
def execLaneBfe (f : LaneF) (s : State) : Res :=
  laneRun s f fun e => e.write (e.map3 fun a b c => bfeN (tyBits e.ty) (tySigned e.ty) a (b % 256) (c % 256))

/-- `bfi` (R148). -/
def execLaneBfi (f : LaneF) (s : State) : Res :=
  laneRun s f fun e => e.write (e.map3 fun a b c => bfiN (tyBits e.ty) a b (c % 256) (c / 256 % 256))

/-- `sel` (R149): the tag is the selected source's (R146). -/
def execLaneSel (f : LaneF) (s : State) : Res :=
  laneRun s f fun e =>
    e.write (e.map e.words fun t => if (e.g.mGet f.vc.toNat).getLsbD t then e.opA t else e.opB t)

/-- `mov` (R149). -/
def execLaneMov (f : LaneF) (s : State) : Res :=
  laneRun s f fun e => e.write (e.map e.words e.opB)

/-- A compare to a mask: a poisoned source traps (R146, R149, R151). -/
def LEnv.compare (e : LEnv) (rel : Nat → Nat → Bool) : State :=
  e.guard (fun t => (e.opA t).pz || (e.opB t).pz) (e.writeMask e.f.vd.toNat fun t => rel (e.opA t).x (e.opB t).x)

/-- `cmp` (R149). -/
def execLaneCmp (f : LaneF) (s : State) : Res :=
  laneRun s f fun e => e.compare (intRel f.vc.toNat (tySigned e.ty) (tyBits e.ty))

/-- `div` (R147). -/
def execLaneDiv (f : LaneF) (s : State) : Res :=
  laneRun s f fun e => e.writeLong (e.map2 fun a b => divN (tyBits e.ty) (tySigned e.ty) a b)

/-- `rem` (R147). -/
def execLaneRem (f : LaneF) (s : State) : Res :=
  laneRun s f fun e => e.writeLong (e.map2 fun a b => remN (tyBits e.ty) (tySigned e.ty) a b)

/-- `bswap` (R147). -/
def execLaneBswap (f : LaneF) (s : State) : Res :=
  laneRun s f fun e => e.write (e.map1 fun a => bswapN (tyBits e.ty) a)

/-- `brev` (R147). -/
def execLaneBrev (f : LaneF) (s : State) : Res :=
  laneRun s f fun e => e.write (e.map1 fun a => brevN (tyBits e.ty) a)

end Sys2Proof.Machine
end

