-- ==== Sys2Proof/Machine/LaneFloat.lean ====
section
/-! DEFINITION. Lane floating-point instructions, classes 0x1–0x3, and the approximations and FP32 divide of class 0x6
(R125, R126, R129–R133, R140, R141, R150, R151, R157). -/

namespace Sys2Proof.Machine

/-- The format of a floating type; f32 for any other code. -/
def fmtD (ty : Nat) : Fmt := (fmtOf ty).getD f32

/-- The format, the flush flag and the direction of a lane instruction (R130, R133). -/
structure FEnv where
  fm : Fmt
  fz : Bool
  dir : Nat

/-- An instruction's floating environment by its type. -/
def LEnv.fenv (e : LEnv) : FEnv := ⟨fmtD e.ty, flushOn e.snap.mode e.ty, effDir e.snap.mode e.f.rnd.toNat⟩

/-- An input code: a subnormal of a flushed class is a zero of its sign (R133). -/
def FEnv.inp (q : FEnv) (x : Nat) : Nat := q.fm.flush q.fz x

/-- A result rounded once and flushed (R131, R133). -/
def FEnv.out (q : FEnv) (x : Num) : Nat := q.fm.flush q.fz (roundTo q.fm x q.dir false)

/-- An input's value. -/
def FEnv.val (q : FEnv) (x : Nat) : Num := q.fm.decode (q.inp x)

/-- The operations of R150 on codes. -/
def FEnv.add (q : FEnv) (a b : Nat) : Nat := q.out ((q.val a).add (q.val b) q.dir)
def FEnv.sub (q : FEnv) (a b : Nat) : Nat := q.out ((q.val a).add (q.val b).flip q.dir)
def FEnv.mul (q : FEnv) (a b : Nat) : Nat := q.out ((q.val a).mul (q.val b))
def FEnv.fma (q : FEnv) (a b c : Nat) : Nat := q.out (((q.val a).mul (q.val b)).add (q.val c) q.dir)
def FEnv.min (q : FEnv) (a b : Nat) : Nat := q.fm.minMax false (q.inp a) (q.inp b)
def FEnv.max (q : FEnv) (a b : Nat) : Nat := q.fm.minMax true (q.inp a) (q.inp b)
def FEnv.abs (q : FEnv) (a : Nat) : Nat := q.inp a % q.fm.signBit
def FEnv.neg (q : FEnv) (a : Nat) : Nat := if q.fm.signBit ≤ q.inp a then q.inp a - q.fm.signBit else q.inp a + q.fm.signBit
def FEnv.copysign (q : FEnv) (a b : Nat) : Nat := q.inp a % q.fm.signBit + b / q.fm.signBit * q.fm.signBit
def FEnv.div (q : FEnv) (a b : Nat) : Nat := q.out ((q.val a).div (q.val b))
def FEnv.sqrt (q : FEnv) (a : Nat) : Nat := q.out (q.val a).sqrt

/-- `rint`: an integral value by the direction; zeros and infinities stay, a NaN becomes canonical (R150). A value that rounds to zero
keeps its sign (PRESUMED, log 71). -/
def FEnv.rint (q : FEnv) (a : Nat) : Nat :=
  match q.val a with
  | .nan => q.fm.canonNaN
  | .inf _ => q.inp a
  | .fin neg m d e =>
    let i := (Num.fin neg m d e).toIntDir q.dir
    q.fm.flush q.fz (if i = 0 then (if neg then q.fm.signBit else 0) else roundTo q.fm (.ofInt i) q.dir false)

/-- The relation of a floating compare on codes (R151). -/
def FEnv.rel (q : FEnv) (cc a b : Nat) : Bool := Num.rel cc (q.val a) (q.val b)

/-- An operation on each 16-bit half (R128, R150). -/
def halves1 (op : Nat → Nat) (a : Nat) : Nat := op (a % 2 ^ 16) + 2 ^ 16 * op (a / 2 ^ 16 % 2 ^ 16)
def halves2 (op : Nat → Nat → Nat) (a b : Nat) : Nat :=
  op (a % 2 ^ 16) (b % 2 ^ 16) + 2 ^ 16 * op (a / 2 ^ 16 % 2 ^ 16) (b / 2 ^ 16 % 2 ^ 16)
def halves3 (op : Nat → Nat → Nat → Nat) (a b c : Nat) : Nat :=
  op (a % 2 ^ 16) (b % 2 ^ 16) (c % 2 ^ 16) +
    2 ^ 16 * op (a / 2 ^ 16 % 2 ^ 16) (b / 2 ^ 16 % 2 ^ 16) (c / 2 ^ 16 % 2 ^ 16)

/-- `add`, F32 (R150). -/
def execLaneAddF32 (f : LaneF) (s : State) : Res :=
  laneRun s f fun e => e.write (e.map2 (e.fenv.add))

/-- `sub`, F32 (R150). -/
def execLaneSubF32 (f : LaneF) (s : State) : Res :=
  laneRun s f fun e => e.write (e.map2 (e.fenv.sub))

/-- `mul`, F32 (R150). -/
def execLaneMulF32 (f : LaneF) (s : State) : Res :=
  laneRun s f fun e => e.write (e.map2 (e.fenv.mul))

/-- `fma`, F32 (R150). -/
def execLaneFmaF32 (f : LaneF) (s : State) : Res :=
  laneRun s f fun e => e.write (e.map3 (e.fenv.fma))

/-- `min`, F32 (R150). -/
def execLaneMinF32 (f : LaneF) (s : State) : Res :=
  laneRun s f fun e => e.write (e.map2 (e.fenv.min))

/-- `max`, F32 (R150). -/
def execLaneMaxF32 (f : LaneF) (s : State) : Res :=
  laneRun s f fun e => e.write (e.map2 (e.fenv.max))

/-- `abs`, F32 (R150). -/
def execLaneAbsF32 (f : LaneF) (s : State) : Res :=
  laneRun s f fun e => e.write (e.map1 (e.fenv.abs))

/-- `neg`, F32 (R150). -/
def execLaneNegF32 (f : LaneF) (s : State) : Res :=
  laneRun s f fun e => e.write (e.map1 (e.fenv.neg))

/-- `cmp`, F32 (R151). -/
def execLaneCmpF32 (f : LaneF) (s : State) : Res :=
  laneRun s f fun e => e.compare (e.fenv.rel f.vc.toNat)

/-- `rint`, F32 (R150). -/
def execLaneRintF32 (f : LaneF) (s : State) : Res :=
  laneRun s f fun e => e.write (e.map1 (e.fenv.rint))

/-- `copysign`, F32 (R150). -/
def execLaneCopysignF32 (f : LaneF) (s : State) : Res :=
  laneRun s f fun e => e.write (e.map2 (e.fenv.copysign))

/-- `add`, Packed (R150). -/
def execLaneAddPacked (f : LaneF) (s : State) : Res :=
  laneRun s f fun e => e.write (e.map2 (halves2 e.fenv.add))

/-- `sub`, Packed (R150). -/
def execLaneSubPacked (f : LaneF) (s : State) : Res :=
  laneRun s f fun e => e.write (e.map2 (halves2 e.fenv.sub))

/-- `mul`, Packed (R150). -/
def execLaneMulPacked (f : LaneF) (s : State) : Res :=
  laneRun s f fun e => e.write (e.map2 (halves2 e.fenv.mul))

/-- `fma`, Packed (R150). -/
def execLaneFmaPacked (f : LaneF) (s : State) : Res :=
  laneRun s f fun e => e.write (e.map3 (halves3 e.fenv.fma))

/-- `min`, Packed (R150). -/
def execLaneMinPacked (f : LaneF) (s : State) : Res :=
  laneRun s f fun e => e.write (e.map2 (halves2 e.fenv.min))

/-- `max`, Packed (R150). -/
def execLaneMaxPacked (f : LaneF) (s : State) : Res :=
  laneRun s f fun e => e.write (e.map2 (halves2 e.fenv.max))

/-- `abs`, Packed (R150). -/
def execLaneAbsPacked (f : LaneF) (s : State) : Res :=
  laneRun s f fun e => e.write (e.map1 (halves1 e.fenv.abs))

/-- `neg`, Packed (R150). -/
def execLaneNegPacked (f : LaneF) (s : State) : Res :=
  laneRun s f fun e => e.write (e.map1 (halves1 e.fenv.neg))

/-- `cmp`, Packed (R151). -/
def execLaneCmpPacked (f : LaneF) (s : State) : Res :=
  laneRun s f fun e => e.compare (fun a b =>
    e.fenv.rel f.vc.toNat (a % 2 ^ 16) (b % 2 ^ 16) && e.fenv.rel f.vc.toNat (a / 2 ^ 16 % 2 ^ 16) (b / 2 ^ 16 % 2 ^ 16))

/-- `rint`, Packed (R150). -/
def execLaneRintPacked (f : LaneF) (s : State) : Res :=
  laneRun s f fun e => e.write (e.map1 (halves1 e.fenv.rint))

/-- `copysign`, Packed (R150). -/
def execLaneCopysignPacked (f : LaneF) (s : State) : Res :=
  laneRun s f fun e => e.write (e.map2 (halves2 e.fenv.copysign))

/-- `add`, F64 (R150). -/
def execLaneAddF64 (f : LaneF) (s : State) : Res :=
  laneRun s f fun e => e.write (e.map2 (e.fenv.add))

/-- `sub`, F64 (R150). -/
def execLaneSubF64 (f : LaneF) (s : State) : Res :=
  laneRun s f fun e => e.write (e.map2 (e.fenv.sub))

/-- `mul`, F64 (R150). -/
def execLaneMulF64 (f : LaneF) (s : State) : Res :=
  laneRun s f fun e => e.write (e.map2 (e.fenv.mul))

/-- `fma`, F64 (R150). -/
def execLaneFmaF64 (f : LaneF) (s : State) : Res :=
  laneRun s f fun e => e.write (e.map3 (e.fenv.fma))

/-- `min`, F64 (R150). -/
def execLaneMinF64 (f : LaneF) (s : State) : Res :=
  laneRun s f fun e => e.write (e.map2 (e.fenv.min))

/-- `max`, F64 (R150). -/
def execLaneMaxF64 (f : LaneF) (s : State) : Res :=
  laneRun s f fun e => e.write (e.map2 (e.fenv.max))

/-- `abs`, F64 (R150). -/
def execLaneAbsF64 (f : LaneF) (s : State) : Res :=
  laneRun s f fun e => e.write (e.map1 (e.fenv.abs))

/-- `neg`, F64 (R150). -/
def execLaneNegF64 (f : LaneF) (s : State) : Res :=
  laneRun s f fun e => e.write (e.map1 (e.fenv.neg))

/-- `cmp`, F64 (R151). -/
def execLaneCmpF64 (f : LaneF) (s : State) : Res :=
  laneRun s f fun e => e.compare (e.fenv.rel f.vc.toNat)

/-- `rint`, F64 (R150). -/
def execLaneRintF64 (f : LaneF) (s : State) : Res :=
  laneRun s f fun e => e.write (e.map1 (e.fenv.rint))

/-- `copysign`, F64 (R150). -/
def execLaneCopysignF64 (f : LaneF) (s : State) : Res :=
  laneRun s f fun e => e.write (e.map2 (e.fenv.copysign))

/-- `div.f64` (R150). -/
def execLaneDivF64 (f : LaneF) (s : State) : Res := laneRun s f fun e => e.writeLong (e.map2 e.fenv.div)

/-- `sqrt.f64` (R150). -/
def execLaneSqrtF64 (f : LaneF) (s : State) : Res := laneRun s f fun e => e.writeLong (e.map1 e.fenv.sqrt)

/-! ### Class 0x6 -/

/-- An approximation on one code: input flushed, table or bound, result flushed (R133, R140, R141). -/
def FEnv.approx (q : FEnv) (ty op a : Nat) : Nat := q.fm.flush q.fz (approxOp q.fm ty op q.dir (q.inp a))

/-- An approximation on a register: one `.f32` value, or both `.f16` halves (R157). -/
def LEnv.approx (e : LEnv) (op : Nat) : State :=
  e.writeLong (e.map1 (if e.ty = 8 then halves1 (e.fenv.approx e.ty op) else e.fenv.approx e.ty op))

/-- `rcp` (R157). -/
def execRcp (f : LaneF) (s : State) : Res := laneRun s f fun e => e.approx 0

/-- `rsqrt` (R157). -/
def execRsqrt (f : LaneF) (s : State) : Res := laneRun s f fun e => e.approx 1

/-- `sqrt` (R157). -/
def execLaneSqrt (f : LaneF) (s : State) : Res := laneRun s f fun e => e.approx 2

/-- `exp2` (R157). -/
def execExp2 (f : LaneF) (s : State) : Res := laneRun s f fun e => e.approx 3

/-- `log2` (R157). -/
def execLog2 (f : LaneF) (s : State) : Res := laneRun s f fun e => e.approx 4

/-- `sin` (R157). -/
def execSin (f : LaneF) (s : State) : Res := laneRun s f fun e => e.approx 5

/-- `cos` (R157). -/
def execCos (f : LaneF) (s : State) : Res := laneRun s f fun e => e.approx 6

/-- `tanh` (R157). -/
def execTanh (f : LaneF) (s : State) : Res := laneRun s f fun e => e.approx 7

/-- `div.f32` (R157): correctly rounded (R140). -/
def execLaneDivF32 (f : LaneF) (s : State) : Res := laneRun s f fun e => e.writeLong (e.map2 e.fenv.div)

end Sys2Proof.Machine
end

