-- ==== Sys2Proof/Machine/LaneConv.lean ====
section
/-! DEFINITION. Conversions of class 0x4 and packed dot products of class 0x5 (R128, R130, R132, R137–R139, R152–R156). -/

namespace Sys2Proof.Machine

/-- One value converted from type st to type dt, as a code of dt's width (R132, R152). -/
def convert (mode : BitVec 32) (dir : Nat) (sat : Bool) (dt st x : Nat) : Nat :=
  let x := x % 2 ^ tyBits st
  let sat := effSat mode sat dt st
  match fmtOf st, fmtOf dt with
  | some a, some b =>
    b.flush (flushOn mode dt) (roundTo b (a.decode (a.flush (flushOn mode st) x)) dir sat)
  | some a, none => wrap (tyBits dt) ((a.decode (a.flush (flushOn mode st) x)).toRange dir (intMin dt) (intMax dt))
  | none, some b => b.flush (flushOn mode dt) (roundTo b (.ofInt (intVal st x)) dir sat)
  | none, none => intFit dt sat (intVal st x)

/-- Whether a type is a signed integer narrower than a register. -/
def narrowSigned (ty : Nat) : Bool := tySigned ty && tyBits ty < 32

/-- A converted value as `cvt` places it: narrow integers extended to 32 bits, narrow floats zero-extended (R152). -/
def placeCvt (dt x : Nat) : Nat := if narrowSigned dt then wrap 32 (sintOf (tyBits dt) x) else x

/-- An instruction's conversion between types. -/
def LEnv.conv (e : LEnv) (dt st x : Nat) : Nat :=
  convert e.snap.mode (effDir e.snap.mode e.f.rnd.toNat) (e.f.sat == 1) dt st x

/-- Element j of a packed value of type ty (R128). -/
def element (ty x j : Nat) : Nat := x / 2 ^ (tyBits ty * j) % 2 ^ tyBits ty

/-- Elements packed from the low end (R128). -/
def packElems (ty : Nat) (l : List Nat) : Nat := l.foldr (fun x acc => x + 2 ^ tyBits ty * acc) 0

/-- `cvt` (R152). -/
def execCvt (f : LaneF) (s : State) : Res :=
  laneRun s f fun e =>
    let st := f.vc.toNat
    e.write (e.map e.words fun t =>
      let a := e.reg64 t f.va.toNat (tyIs64 st)
      ⟨placeCvt e.ty (e.conv e.ty st a.x), a.pz⟩)

/-- The source type of `pack` by its destination type; none for a destination it does not take (R153). -/
def packSrc (dt : Nat) : Option Nat :=
  match dt with
  | 8 | 9 => some 10
  | 2 => some 4
  | 3 => some 5
  | 12 | 13 => some 8
  | 0 => some 2
  | 1 => some 3
  | 14 => some 12
  | 15 => some 0
  | _ => none

/-- `pack` (R153). -/
def execPack (f : LaneF) (s : State) : Res :=
  laneRun s f fun e =>
    match packSrc e.ty with
    | none => e.trapAll trapIllegal
    | some st =>
      let n := 32 / tyBits st
      e.write (e.map2 fun a b =>
        packElems e.ty (((List.range n).map (element st a) ++ (List.range n).map (element st b)).map (e.conv e.ty st)))

/-- `qpack` (R154): four registers from va narrowed into one. -/
def execQpack (f : LaneF) (s : State) : Res :=
  laneRun s f fun e =>
    let st := f.vc.toNat
    let n := 32 / tyBits st
    e.write (e.map 1 fun t =>
      let rs := (List.range 4).map fun i => e.reg64 t (f.va.toNat + i) false
      ⟨packElems e.ty ((rs.foldr (fun r acc => (List.range n).map (element st r.x) ++ acc) []).map (e.conv e.ty st)),
        rs.any (·.pz)⟩)

/-- `unpack` (R155): the index is one 32-bit value, taken modulo the number of elements. -/
def execUnpack (f : LaneF) (s : State) : Res :=
  laneRun s f fun e =>
    let st := f.vc.toNat
    e.write (e.map e.words fun t =>
      let a := e.reg64 t f.va.toNat false
      let b := e.src f.bsel f.vb t 5
      ⟨placeCvt e.ty (e.conv e.ty st (element st a.x (b.x % (32 / tyBits st)))), a.pz || b.pz⟩)

/-- A packed dot product with C (R156): floating sums by the tree of R137, integer sums modulo 2^32. -/
def packedDot (ty a b c : Nat) : Nat :=
  let n := 32 / tyBits ty
  let xs := (List.range n).map (element ty a)
  let ys := (List.range n).map (element ty b)
  match fmtOf ty with
  | some f => roundTo f32 ((f32.decode c).add (treeSum f32 n (List.zipWith Num.mul (xs.map f.decode) (ys.map f.decode))) 1) 1 false
  | none =>
    wrap 32 ((List.zipWith (fun x y => intVal ty x * intVal ty y) xs ys).foldl (· + ·) ((c : Nat) : Int))

/-- `dp8x4` (R156). -/
def execDp8x4 (f : LaneF) (s : State) : Res := laneRun s f fun e => e.write (e.map3 (packedDot e.ty))

/-- `dp4x8` (R156). -/
def execDp4x8 (f : LaneF) (s : State) : Res := laneRun s f fun e => e.write (e.map3 (packedDot e.ty))

/-- `dp16x2` (R156). -/
def execDp16x2 (f : LaneF) (s : State) : Res := laneRun s f fun e => e.write (e.map3 (packedDot e.ty))

end Sys2Proof.Machine
end

