-- ==== Sys2Proof/Machine/LaneCross.lean ====
section
/-! DEFINITION. Cross-lane instructions, class 0x7 (R33, R146, R158–R162). -/

namespace Sys2Proof.Machine

/-! ### Shuffles (R159) -/

/-- B of a shuffle: one 32-bit value whatever the type. -/
def LEnv.opB32 (e : LEnv) (t : Nat) : Opd := e.src e.f.bsel e.f.vb t 5

/-- A shuffle: thread t receives A of the thread `j` gives it, if that thread acts, else its own. -/
def LEnv.shuffle (e : LEnv) (j : Nat → Nat → Option Nat) : State :=
  e.guard (fun t => (e.opB32 t).pz) (e.writeLong (e.map e.words fun t =>
    match j t (e.opB32 t).x with
    | some u => if e.ts.contains u then e.opA u else e.opA t
    | none => e.opA t))

/-- `shfl.idx` (R159). -/
def execShflIdx (f : LaneF) (s : State) : Res := laneRun s f fun e => e.shuffle fun _ b => some b

/-- `shfl.up` (R159). -/
def execShflUp (f : LaneF) (s : State) : Res := laneRun s f fun e => e.shuffle fun t b => if t < b then none else some (t - b)

/-- `shfl.down` (R159). -/
def execShflDown (f : LaneF) (s : State) : Res := laneRun s f fun e => e.shuffle fun t b => some (t + b)

/-- `shfl.xor` (R159). -/
def execShflXor (f : LaneF) (s : State) : Res := laneRun s f fun e => e.shuffle fun t b => some (t ^^^ b)

/-! ### Scans and reductions (R160, R161) -/

/-- A combination of two values with their tags. -/
def Opd.comb (op : Nat → Nat → Nat) (a b : Opd) : Opd := ⟨op a.x b.x, a.pz || b.pz⟩

/-- The sum of two values: wrapping, or one rounding by EffDir without flushing (R158, R160). -/
def LEnv.sum (e : LEnv) (a b : Nat) : Nat :=
  if e.ty = 10 then roundTo f32 ((f32.decode a).add (f32.decode b) e.fenv.dir) e.fenv.dir false
  else (a + b) % 2 ^ tyBits e.ty

/-- The lesser and the greater of two values (R126, R160). -/
def LEnv.lesser (e : LEnv) (a b : Nat) : Nat :=
  if e.ty = 10 then f32.minMax false a b else if intLess e.ty b a then b else a
def LEnv.greater (e : LEnv) (a b : Nat) : Nat :=
  if e.ty = 10 then f32.minMax true a b else if intLess e.ty a b then b else a

/-- Running combinations over the acting threads in thread order: each thread with the value before it and at it. -/
def scanFrom (op : Nat → Nat → Nat) (val : Nat → Opd) : Option Opd → List Nat → List (Nat × Option Opd × Opd)
  | _, [] => []
  | acc, t :: r =>
    let x := match acc with
      | some a => a.comb op (val t)
      | none => val t
    (t, acc, x) :: scanFrom op val (some x) r

/-- A scan: the running value at each thread's own place, or before it. -/
def LEnv.scan (e : LEnv) (op : Nat → Nat → Nat) (excl : Bool) : State :=
  e.writeLong ((scanFrom op e.opA none e.ts).foldr (fun p acc =>
    let o := if excl then p.2.1.getD ⟨0, false⟩ else p.2.2
    resultRegs p.1 e.f.vd.toNat e.words o.x o.pz ++ acc) [])

/-- `scan.add` (R160). -/
def execScanAdd (f : LaneF) (s : State) : Res := laneRun s f fun e => e.scan e.sum false

/-- `scan.min` (R160). -/
def execScanMin (f : LaneF) (s : State) : Res := laneRun s f fun e => e.scan e.lesser false

/-- `scan.max` (R160). -/
def execScanMax (f : LaneF) (s : State) : Res := laneRun s f fun e => e.scan e.greater false

/-- `xscan.add` (R160). -/
def execXscanAdd (f : LaneF) (s : State) : Res := laneRun s f fun e => e.scan e.sum true

/-- One level of the tree of R161 over places: two present children combine, one stands for itself. -/
def redPairs (op : Nat → Nat → Nat) : List (Option Opd) → List (Option Opd)
  | a :: b :: r =>
    (match a, b with
      | some x, some y => some (x.comb op y)
      | some x, none => some x
      | none, y => y) :: redPairs op r
  | l => l

/-- The tree of R161 over thread places; its depth is at most 7. -/
def redTree (op : Nat → Nat → Nat) : Nat → List (Option Opd) → Option Opd
  | 0, l => l.head?.join
  | n + 1, l =>
    match l with
    | [x] => x
    | l => redTree op n (redPairs op l)

/-- The combination of A over all acting threads, by the tree over places (R161). -/
def LEnv.reduce (e : LEnv) (op : Nat → Nat → Nat) : Option Opd :=
  redTree op 8 ((List.range e.g.width).map fun t => if e.ts.contains t then some (e.opA t) else none)

/-- A reduction delivered to every acting thread. -/
def LEnv.red (e : LEnv) (op : Nat → Nat → Nat) : State :=
  match e.reduce op with
  | some o => e.writeLong (e.map e.words fun _ => o)
  | none => e.writeLong []

/-- `red.add` (R161). -/
def execRedAdd (f : LaneF) (s : State) : Res := laneRun s f fun e => e.red e.sum

/-- `red.min` (R161). -/
def execRedMin (f : LaneF) (s : State) : Res := laneRun s f fun e => e.red e.lesser

/-- `red.max` (R161). -/
def execRedMax (f : LaneF) (s : State) : Res := laneRun s f fun e => e.red e.greater

/-- `red.and` (R161). -/
def execRedAnd (f : LaneF) (s : State) : Res := laneRun s f fun e => e.red (· &&& ·)

/-- `red.or` (R161). -/
def execRedOr (f : LaneF) (s : State) : Res := laneRun s f fun e => e.red (· ||| ·)

/-! ### Results to the stoker (R33, R162) -/

/-- A reduction to a pending scalar copy: sign-extended for `.i32`, zero-extended for `.n32` and `.f32` (R162). -/
def LEnv.vred (e : LEnv) (op : Nat → Nat → Nat) : State :=
  match e.reduce op with
  | some o =>
    e.pend (.scalar e.f.vd.toNat
      ⟨if e.ty = 4 then (BitVec.ofNat 32 o.x).signExtend 64 else BitVec.ofNat 64 o.x, o.pz⟩)
  | none => e.done e.s e.g

/-- `vred.add` (R162). -/
def execVredAdd (f : LaneF) (s : State) : Res := laneRun s f fun e => e.vred e.sum

/-- `vred.min` (R162). -/
def execVredMin (f : LaneF) (s : State) : Res := laneRun s f fun e => e.vred e.lesser

/-- `vred.max` (R162). -/
def execVredMax (f : LaneF) (s : State) : Res := laneRun s f fun e => e.vred e.greater

/-- A vote to a pending condition copy; a poisoned source traps (R146, R162). -/
def LEnv.vote (e : LEnv) (holds : Bool) : State :=
  e.guard (fun t => (e.opA t).pz) (e.pend (.cond e.f.vd.toNat holds))

/-- `vany` (R162). -/
def execVany (f : LaneF) (s : State) : Res := laneRun s f fun e => e.vote (e.ts.any fun t => (e.opA t).x != 0)

/-- `vall` (R162). -/
def execVall (f : LaneF) (s : State) : Res := laneRun s f fun e => e.vote (e.ts.all fun t => (e.opA t).x != 0)

/-- `rfl` (R162): A of the lowest-numbered acting thread. -/
def execRfl (f : LaneF) (s : State) : Res :=
  laneRun s f fun e =>
    match e.ts with
    | t :: _ => e.pend (.scalar f.vd.toNat ⟨BitVec.ofNat 64 (e.opA t).x, (e.opA t).pz⟩)
    | [] => e.done e.s e.g

end Sys2Proof.Machine
end

