-- ==== Sys2Proof/Machine/Dispatch.lean ====
section
/-! DEFINITION. The meaning of every instruction and event: one arm per constructor of `Instr`, in the order of the
opcode table's families. -/

namespace Sys2Proof.Machine

/-- What an instruction or event does: a next state, or a refusal by name. -/
def exec (i : Instr) (s : State) : Host.Outcome State Fault Refusal :=
  match i with
  | .add sd sa sb => Sys2Proof.Machine.execAdd sd sa sb s
  | .sub sd sa sb => Sys2Proof.Machine.execSub sd sa sb s
  | .and sd sa sb => Sys2Proof.Machine.execAnd sd sa sb s
  | .or sd sa sb => Sys2Proof.Machine.execOr sd sa sb s
  | .xor sd sa sb => Sys2Proof.Machine.execXor sd sa sb s
  | .andn sd sa sb => Sys2Proof.Machine.execAndn sd sa sb s
  | .shl sd sa sb => Sys2Proof.Machine.execShl sd sa sb s
  | .shrN64 sd sa sb => Sys2Proof.Machine.execShrN64 sd sa sb s
  | .shrI64 sd sa sb => Sys2Proof.Machine.execShrI64 sd sa sb s
  | .mul sd sa sb => Sys2Proof.Machine.execMul sd sa sb s
  | .mulhI64 sd sa sb => Sys2Proof.Machine.execMulhI64 sd sa sb s
  | .mulhN64 sd sa sb => Sys2Proof.Machine.execMulhN64 sd sa sb s
  | .divI64 sd sa sb => Sys2Proof.Machine.execDivI64 sd sa sb s
  | .divN64 sd sa sb => Sys2Proof.Machine.execDivN64 sd sa sb s
  | .remI64 sd sa sb => Sys2Proof.Machine.execRemI64 sd sa sb s
  | .remN64 sd sa sb => Sys2Proof.Machine.execRemN64 sd sa sb s
  | .minI64 sd sa sb => Sys2Proof.Machine.execMinI64 sd sa sb s
  | .minN64 sd sa sb => Sys2Proof.Machine.execMinN64 sd sa sb s
  | .maxI64 sd sa sb => Sys2Proof.Machine.execMaxI64 sd sa sb s
  | .maxN64 sd sa sb => Sys2Proof.Machine.execMaxN64 sd sa sb s
  | .popc sd sa => Sys2Proof.Machine.execPopc sd sa s
  | .clz sd sa => Sys2Proof.Machine.execClz sd sa s
  | .ctz sd sa => Sys2Proof.Machine.execCtz sd sa s
  | .bswap sd sa => Sys2Proof.Machine.execBswap sd sa s
  | .addImm sd sa imm => Sys2Proof.Machine.execAddImm sd sa imm s
  | .andImm sd sa imm => Sys2Proof.Machine.execAndImm sd sa imm s
  | .orImm sd sa imm => Sys2Proof.Machine.execOrImm sd sa imm s
  | .xorImm sd sa imm => Sys2Proof.Machine.execXorImm sd sa imm s
  | .shlImm sd sa imm => Sys2Proof.Machine.execShlImm sd sa imm s
  | .shrN64Imm sd sa imm => Sys2Proof.Machine.execShrN64Imm sd sa imm s
  | .shrI64Imm sd sa imm => Sys2Proof.Machine.execShrI64Imm sd sa imm s
  | .mulImm sd sa imm => Sys2Proof.Machine.execMulImm sd sa imm s
  | .minI64Imm sd sa imm => Sys2Proof.Machine.execMinI64Imm sd sa imm s
  | .minN64Imm sd sa imm => Sys2Proof.Machine.execMinN64Imm sd sa imm s
  | .maxI64Imm sd sa imm => Sys2Proof.Machine.execMaxI64Imm sd sa imm s
  | .maxN64Imm sd sa imm => Sys2Proof.Machine.execMaxN64Imm sd sa imm s
  | .cmp cn sa sb ty cc => Sys2Proof.Machine.execCmp cn sa sb ty cc s
  | .cmpI64Imm cc cn sa imm => Sys2Proof.Machine.execCmpI64Imm cc cn sa imm s
  | .cmpN64Imm cc cn sa imm => Sys2Proof.Machine.execCmpN64Imm cc cn sa imm s
  | .csel sd sa sb cn => Sys2Proof.Machine.execCsel sd sa sb cn s
  | .br off => Sys2Proof.Machine.execBr off s
  | .call off => Sys2Proof.Machine.execCall off s
  | .jr sa => Sys2Proof.Machine.execJr sa s
  | .bz sa off => Sys2Proof.Machine.execBz sa off s
  | .bnz sa off => Sys2Proof.Machine.execBnz sa off s
  | .bc cn off => Sys2Proof.Machine.execBc cn off s
  | .bnc cn off => Sys2Proof.Machine.execBnc cn off s
  | .ldN8 sd sa imm => Sys2Proof.Machine.execLdN8 sd sa imm s
  | .ldI8 sd sa imm => Sys2Proof.Machine.execLdI8 sd sa imm s
  | .ldN16 sd sa imm => Sys2Proof.Machine.execLdN16 sd sa imm s
  | .ldI16 sd sa imm => Sys2Proof.Machine.execLdI16 sd sa imm s
  | .ldN32 sd sa imm => Sys2Proof.Machine.execLdN32 sd sa imm s
  | .ldI32 sd sa imm => Sys2Proof.Machine.execLdI32 sd sa imm s
  | .ldB64 sd sa imm => Sys2Proof.Machine.execLdB64 sd sa imm s
  | .stB8 sd sa imm => Sys2Proof.Machine.execStB8 sd sa imm s
  | .stB16 sd sa imm => Sys2Proof.Machine.execStB16 sd sa imm s
  | .stB32 sd sa imm => Sys2Proof.Machine.execStB32 sd sa imm s
  | .stB64 sd sa imm => Sys2Proof.Machine.execStB64 sd sa imm s
  | .ldAcq sd sa scope sz => Sys2Proof.Machine.execLdAcq sd sa scope sz s
  | .stRel sd sa scope sz => Sys2Proof.Machine.execStRel sd sa scope sz s
  | .fence k scope => Sys2Proof.Machine.execFence k scope s
  | .aadd w sd sa sb => Sys2Proof.Machine.execAadd w sd sa sb s
  | .aaddAr w sd sa sb scope => Sys2Proof.Machine.execAaddAr w sd sa sb scope s
  | .aand w sd sa sb => Sys2Proof.Machine.execAand w sd sa sb s
  | .aandAr w sd sa sb scope => Sys2Proof.Machine.execAandAr w sd sa sb scope s
  | .aor w sd sa sb => Sys2Proof.Machine.execAor w sd sa sb s
  | .aorAr w sd sa sb scope => Sys2Proof.Machine.execAorAr w sd sa sb scope s
  | .axor w sd sa sb => Sys2Proof.Machine.execAxor w sd sa sb s
  | .axorAr w sd sa sb scope => Sys2Proof.Machine.execAxorAr w sd sa sb scope s
  | .aminI w sd sa sb => Sys2Proof.Machine.execAminI w sd sa sb s
  | .aminIAr w sd sa sb scope => Sys2Proof.Machine.execAminIAr w sd sa sb scope s
  | .aminN w sd sa sb => Sys2Proof.Machine.execAminN w sd sa sb s
  | .aminNAr w sd sa sb scope => Sys2Proof.Machine.execAminNAr w sd sa sb scope s
  | .amaxI w sd sa sb => Sys2Proof.Machine.execAmaxI w sd sa sb s
  | .amaxIAr w sd sa sb scope => Sys2Proof.Machine.execAmaxIAr w sd sa sb scope s
  | .amaxN w sd sa sb => Sys2Proof.Machine.execAmaxN w sd sa sb s
  | .amaxNAr w sd sa sb scope => Sys2Proof.Machine.execAmaxNAr w sd sa sb scope s
  | .axchg w sd sa sb => Sys2Proof.Machine.execAxchg w sd sa sb s
  | .axchgAr w sd sa sb scope => Sys2Proof.Machine.execAxchgAr w sd sa sb scope s
  | .acas w sd sa sb => Sys2Proof.Machine.execAcas w sd sa sb s
  | .acasAr w sd sa sb scope => Sys2Proof.Machine.execAcasAr w sd sa sb scope s
  | .xlt bn sa sb => Sys2Proof.Machine.execXlt bn sa sb s
  | .xinv bn => Sys2Proof.Machine.execXinv bn s
  | .xrd sd bn k => Sys2Proof.Machine.execXrd sd bn k s
  | .lrun idx => Sys2Proof.Machine.execLrun idx s
  | .vset wn sa => Sys2Proof.Machine.execVset wn sa s
  | .vdrop wn => Sys2Proof.Machine.execVdrop wn s
  | .vqry sd wn k => Sys2Proof.Machine.execVqry sd wn k s
  | .mma sa => Sys2Proof.Machine.execMma sa s
  | .accz sa sb => Sys2Proof.Machine.execAccz sa sb s
  | .accld sd sa sb => Sys2Proof.Machine.execAccld sd sa sb s
  | .accst sd sa sb fmt => Sys2Proof.Machine.execAccst sd sa sb fmt s
  | .cpy sa tag => Sys2Proof.Machine.execCpy sa tag s
  | .cpy2d sa tag => Sys2Proof.Machine.execCpy2d sa tag s
  | .cpyg sa tag => Sys2Proof.Machine.execCpyg sa tag s
  | .cpwait tag => Sys2Proof.Machine.execCpwait tag s
  | .cpstat sd tag => Sys2Proof.Machine.execCpstat sd tag s
  | .cpcont tag off => Sys2Proof.Machine.execCpcont tag off s
  | .srd sd num => Sys2Proof.Machine.execSrd sd num s
  | .mset sa => Sys2Proof.Machine.execMset sa s
  | .launch sa => Sys2Proof.Machine.execLaunch sa s
  | .frz sd sa sb => Sys2Proof.Machine.execFrz sd sa sb s
  | .thaw sd sa sb => Sys2Proof.Machine.execThaw sd sa sb s
  | .tkwt sa => Sys2Proof.Machine.execTkwt sa s
  | .cdctr sd sa k => Sys2Proof.Machine.execCdctr sd sa k s
  | .cdclr sa => Sys2Proof.Machine.execCdclr sa s
  | .trap k => Sys2Proof.Machine.execTrap k s
  | .ptake sd => Sys2Proof.Machine.execPtake sd s
  | .pmap sa sb => Sys2Proof.Machine.execPmap sa sb s
  | .swrd sd sa => Sys2Proof.Machine.execSwrd sd sa s
  | .slit v op sd sa => Sys2Proof.Machine.execSlit v op sd sa s
  | .laneAdd f => Sys2Proof.Machine.execLaneAdd f s
  | .laneSub f => Sys2Proof.Machine.execLaneSub f s
  | .laneMul f => Sys2Proof.Machine.execLaneMul f s
  | .laneMulh f => Sys2Proof.Machine.execLaneMulh f s
  | .laneMad f => Sys2Proof.Machine.execLaneMad f s
  | .laneMin f => Sys2Proof.Machine.execLaneMin f s
  | .laneMax f => Sys2Proof.Machine.execLaneMax f s
  | .laneAbs f => Sys2Proof.Machine.execLaneAbs f s
  | .laneNeg f => Sys2Proof.Machine.execLaneNeg f s
  | .laneAnd f => Sys2Proof.Machine.execLaneAnd f s
  | .laneOr f => Sys2Proof.Machine.execLaneOr f s
  | .laneXor f => Sys2Proof.Machine.execLaneXor f s
  | .laneNot f => Sys2Proof.Machine.execLaneNot f s
  | .laneShl f => Sys2Proof.Machine.execLaneShl f s
  | .laneShr f => Sys2Proof.Machine.execLaneShr f s
  | .lanePopc f => Sys2Proof.Machine.execLanePopc f s
  | .laneClz f => Sys2Proof.Machine.execLaneClz f s
  | .laneBfe f => Sys2Proof.Machine.execLaneBfe f s
  | .laneBfi f => Sys2Proof.Machine.execLaneBfi f s
  | .laneSel f => Sys2Proof.Machine.execLaneSel f s
  | .laneMov f => Sys2Proof.Machine.execLaneMov f s
  | .laneCmp f => Sys2Proof.Machine.execLaneCmp f s
  | .laneDiv f => Sys2Proof.Machine.execLaneDiv f s
  | .laneRem f => Sys2Proof.Machine.execLaneRem f s
  | .laneBswap f => Sys2Proof.Machine.execLaneBswap f s
  | .laneBrev f => Sys2Proof.Machine.execLaneBrev f s
  | .laneAddF32 f => Sys2Proof.Machine.execLaneAddF32 f s
  | .laneSubF32 f => Sys2Proof.Machine.execLaneSubF32 f s
  | .laneMulF32 f => Sys2Proof.Machine.execLaneMulF32 f s
  | .laneFmaF32 f => Sys2Proof.Machine.execLaneFmaF32 f s
  | .laneMinF32 f => Sys2Proof.Machine.execLaneMinF32 f s
  | .laneMaxF32 f => Sys2Proof.Machine.execLaneMaxF32 f s
  | .laneAbsF32 f => Sys2Proof.Machine.execLaneAbsF32 f s
  | .laneNegF32 f => Sys2Proof.Machine.execLaneNegF32 f s
  | .laneCmpF32 f => Sys2Proof.Machine.execLaneCmpF32 f s
  | .laneRintF32 f => Sys2Proof.Machine.execLaneRintF32 f s
  | .laneCopysignF32 f => Sys2Proof.Machine.execLaneCopysignF32 f s
  | .laneAddPacked f => Sys2Proof.Machine.execLaneAddPacked f s
  | .laneSubPacked f => Sys2Proof.Machine.execLaneSubPacked f s
  | .laneMulPacked f => Sys2Proof.Machine.execLaneMulPacked f s
  | .laneFmaPacked f => Sys2Proof.Machine.execLaneFmaPacked f s
  | .laneMinPacked f => Sys2Proof.Machine.execLaneMinPacked f s
  | .laneMaxPacked f => Sys2Proof.Machine.execLaneMaxPacked f s
  | .laneAbsPacked f => Sys2Proof.Machine.execLaneAbsPacked f s
  | .laneNegPacked f => Sys2Proof.Machine.execLaneNegPacked f s
  | .laneCmpPacked f => Sys2Proof.Machine.execLaneCmpPacked f s
  | .laneRintPacked f => Sys2Proof.Machine.execLaneRintPacked f s
  | .laneCopysignPacked f => Sys2Proof.Machine.execLaneCopysignPacked f s
  | .laneAddF64 f => Sys2Proof.Machine.execLaneAddF64 f s
  | .laneSubF64 f => Sys2Proof.Machine.execLaneSubF64 f s
  | .laneMulF64 f => Sys2Proof.Machine.execLaneMulF64 f s
  | .laneFmaF64 f => Sys2Proof.Machine.execLaneFmaF64 f s
  | .laneMinF64 f => Sys2Proof.Machine.execLaneMinF64 f s
  | .laneMaxF64 f => Sys2Proof.Machine.execLaneMaxF64 f s
  | .laneAbsF64 f => Sys2Proof.Machine.execLaneAbsF64 f s
  | .laneNegF64 f => Sys2Proof.Machine.execLaneNegF64 f s
  | .laneCmpF64 f => Sys2Proof.Machine.execLaneCmpF64 f s
  | .laneRintF64 f => Sys2Proof.Machine.execLaneRintF64 f s
  | .laneCopysignF64 f => Sys2Proof.Machine.execLaneCopysignF64 f s
  | .laneDivF64 f => Sys2Proof.Machine.execLaneDivF64 f s
  | .laneSqrtF64 f => Sys2Proof.Machine.execLaneSqrtF64 f s
  | .cvt f => Sys2Proof.Machine.execCvt f s
  | .pack f => Sys2Proof.Machine.execPack f s
  | .qpack f => Sys2Proof.Machine.execQpack f s
  | .unpack f => Sys2Proof.Machine.execUnpack f s
  | .dp8x4 f => Sys2Proof.Machine.execDp8x4 f s
  | .dp4x8 f => Sys2Proof.Machine.execDp4x8 f s
  | .dp16x2 f => Sys2Proof.Machine.execDp16x2 f s
  | .rcp f => Sys2Proof.Machine.execRcp f s
  | .rsqrt f => Sys2Proof.Machine.execRsqrt f s
  | .laneSqrt f => Sys2Proof.Machine.execLaneSqrt f s
  | .exp2 f => Sys2Proof.Machine.execExp2 f s
  | .log2 f => Sys2Proof.Machine.execLog2 f s
  | .sin f => Sys2Proof.Machine.execSin f s
  | .cos f => Sys2Proof.Machine.execCos f s
  | .tanh f => Sys2Proof.Machine.execTanh f s
  | .laneDivF32 f => Sys2Proof.Machine.execLaneDivF32 f s
  | .shflIdx f => Sys2Proof.Machine.execShflIdx f s
  | .shflUp f => Sys2Proof.Machine.execShflUp f s
  | .shflDown f => Sys2Proof.Machine.execShflDown f s
  | .shflXor f => Sys2Proof.Machine.execShflXor f s
  | .scanAdd f => Sys2Proof.Machine.execScanAdd f s
  | .scanMin f => Sys2Proof.Machine.execScanMin f s
  | .scanMax f => Sys2Proof.Machine.execScanMax f s
  | .xscanAdd f => Sys2Proof.Machine.execXscanAdd f s
  | .redAdd f => Sys2Proof.Machine.execRedAdd f s
  | .redMin f => Sys2Proof.Machine.execRedMin f s
  | .redMax f => Sys2Proof.Machine.execRedMax f s
  | .redAnd f => Sys2Proof.Machine.execRedAnd f s
  | .redOr f => Sys2Proof.Machine.execRedOr f s
  | .vredAdd f => Sys2Proof.Machine.execVredAdd f s
  | .vredMin f => Sys2Proof.Machine.execVredMin f s
  | .vredMax f => Sys2Proof.Machine.execVredMax f s
  | .vany f => Sys2Proof.Machine.execVany f s
  | .vall f => Sys2Proof.Machine.execVall f s
  | .rfl f => Sys2Proof.Machine.execRfl f s
  | .ldGlobal f => Sys2Proof.Machine.execLdGlobal f s
  | .stGlobal f => Sys2Proof.Machine.execStGlobal f s
  | .ldB128Global f => Sys2Proof.Machine.execLdB128Global f s
  | .stB128Global f => Sys2Proof.Machine.execStB128Global f s
  | .ldScratch f => Sys2Proof.Machine.execLdScratch f s
  | .stScratch f => Sys2Proof.Machine.execStScratch f s
  | .ldB128Scratch f => Sys2Proof.Machine.execLdB128Scratch f s
  | .stB128Scratch f => Sys2Proof.Machine.execStB128Scratch f s
  | .ldPrivate f => Sys2Proof.Machine.execLdPrivate f s
  | .stPrivate f => Sys2Proof.Machine.execStPrivate f s
  | .ldB128Private f => Sys2Proof.Machine.execLdB128Private f s
  | .stB128Private f => Sys2Proof.Machine.execStB128Private f s
  | .laneAadd f => Sys2Proof.Machine.execLaneAadd f s
  | .laneAmin f => Sys2Proof.Machine.execLaneAmin f s
  | .laneAmax f => Sys2Proof.Machine.execLaneAmax f s
  | .laneAand f => Sys2Proof.Machine.execLaneAand f s
  | .laneAor f => Sys2Proof.Machine.execLaneAor f s
  | .laneAxor f => Sys2Proof.Machine.execLaneAxor f s
  | .laneAxchg f => Sys2Proof.Machine.execLaneAxchg f s
  | .laneAcas f => Sys2Proof.Machine.execLaneAcas f s
  | .amaxabs f => Sys2Proof.Machine.execAmaxabs f s
  | .ldv f => Sys2Proof.Machine.execLdv f s
  | .bra f => Sys2Proof.Machine.execBra f s
  | .join f => Sys2Proof.Machine.execJoin f s
  | .lpause f => Sys2Proof.Machine.execLpause f s
  | .lstop f => Sys2Proof.Machine.execLstop f s
  | .mand f => Sys2Proof.Machine.execMand f s
  | .mor f => Sys2Proof.Machine.execMor f s
  | .mxor f => Sys2Proof.Machine.execMxor f s
  | .mandn f => Sys2Proof.Machine.execMandn f s
  | .mtov f => Sys2Proof.Machine.execMtov f s
  | .vtom f => Sys2Proof.Machine.execVtom f s
  | .exit => Sys2Proof.Machine.execExit s
  | .lwait => Sys2Proof.Machine.execLwait s
  | .lkill => Sys2Proof.Machine.execLkill s
  | .wgbar => Sys2Proof.Machine.execWgbar s
  | .gbar => Sys2Proof.Machine.execGbar s
  | .spause => Sys2Proof.Machine.execSpause s
  | .yield => Sys2Proof.Machine.execYield s
  | .cwait => Sys2Proof.Machine.execCwait s
  | .tret => Sys2Proof.Machine.execTret s
  | .aharv => Sys2Proof.Machine.execAharv s
  | .longLatencyResult => Sys2Proof.Machine.execLongLatencyResult s
  | .escalation => Sys2Proof.Machine.execEscalation s
  | .stokerEscalation => Sys2Proof.Machine.execStokerEscalation s
  | .demotionEnd => Sys2Proof.Machine.execDemotionEnd s
  | .splitRotation => Sys2Proof.Machine.execSplitRotation s
  | .trapTake => Sys2Proof.Machine.execTrapTake s
  | .coalescerDelivery => Sys2Proof.Machine.execCoalescerDelivery s
  | .faultQueueWrite => Sys2Proof.Machine.execFaultQueueWrite s
  | .pageWalk => Sys2Proof.Machine.execPageWalk s
  | .adWriteback => Sys2Proof.Machine.execAdWriteback s
  | .homeReadRequest => Sys2Proof.Machine.execHomeReadRequest s
  | .homeWriteArrival => Sys2Proof.Machine.execHomeWriteArrival s
  | .writePerformed => Sys2Proof.Machine.execWritePerformed s
  | .leaseExpiry => Sys2Proof.Machine.execLeaseExpiry s
  | .homeAtomic => Sys2Proof.Machine.execHomeAtomic s
  | .lendLine => Sys2Proof.Machine.execLendLine s
  | .lineRecall => Sys2Proof.Machine.execLineRecall s
  | .lineReturn => Sys2Proof.Machine.execLineReturn s
  | .projectionComplete => Sys2Proof.Machine.execProjectionComplete s
  | .viewMatrixCopyDone => Sys2Proof.Machine.execViewMatrixCopyDone s
  | .scratchpadRefill => Sys2Proof.Machine.execScratchpadRefill s
  | .remoteRead => Sys2Proof.Machine.execRemoteRead s
  | .invalidation => Sys2Proof.Machine.execInvalidation s
  | .invalidationAck => Sys2Proof.Machine.execInvalidationAck s
  | .linkDeath => Sys2Proof.Machine.execLinkDeath s
  | .sharerAckTimeout => Sys2Proof.Machine.execSharerAckTimeout s
  | .flitCrcFail => Sys2Proof.Machine.execFlitCrcFail s
  | .directoryEccError => Sys2Proof.Machine.execDirectoryEccError s
  | .softError => Sys2Proof.Machine.execSoftError s
  | .l2Eviction => Sys2Proof.Machine.execL2Eviction s
  | .hostSnoop => Sys2Proof.Machine.execHostSnoop s
  | .snoopAnswer => Sys2Proof.Machine.execSnoopAnswer s
  | .hostMemoryRequest => Sys2Proof.Machine.execHostMemoryRequest s
  | .fabricRequest => Sys2Proof.Machine.execFabricRequest s
  | .remoteTimeout => Sys2Proof.Machine.execRemoteTimeout s
  | .timeAlign => Sys2Proof.Machine.execTimeAlign s
  | .freezeRequest => Sys2Proof.Machine.execFreezeRequest s
  | .freezeComplete => Sys2Proof.Machine.execFreezeComplete s
  | .dropReplicas => Sys2Proof.Machine.execDropReplicas s
  | .dropReplicasAck => Sys2Proof.Machine.execDropReplicasAck s
  | .thawTimeout => Sys2Proof.Machine.execThawTimeout s
  | .freezeShootdownTimeout => Sys2Proof.Machine.execFreezeShootdownTimeout s
  | .replicaFetch => Sys2Proof.Machine.execReplicaFetch s
  | .copyUnit => Sys2Proof.Machine.execCopyUnit s
  | .mmaKstep => Sys2Proof.Machine.execMmaKstep s
  | .accUnit => Sys2Proof.Machine.execAccUnit s
  | .launchRecord => Sys2Proof.Machine.execLaunchRecord s
  | .queueSealWrite => Sys2Proof.Machine.execQueueSealWrite s
  | .workgroupPlacement => Sys2Proof.Machine.execWorkgroupPlacement s
  | .gridRetire => Sys2Proof.Machine.execGridRetire s
  | .forcedSave => Sys2Proof.Machine.execForcedSave s
  | .restoreWorkgroup => Sys2Proof.Machine.execRestoreWorkgroup s
  | .groupTimerTrap => Sys2Proof.Machine.execGroupTimerTrap s
  | .deadlineAlarm => Sys2Proof.Machine.execDeadlineAlarm s
  | .shootdown => Sys2Proof.Machine.execShootdown s
  | .resumeGroup => Sys2Proof.Machine.execResumeGroup s
  | .endGroup => Sys2Proof.Machine.execEndGroup s
  | .liftFence => Sys2Proof.Machine.execLiftFence s
  | .repairFreeze => Sys2Proof.Machine.execRepairFreeze s
  | .poolAdd => Sys2Proof.Machine.execPoolAdd s
  | .recordedModeRecord => Sys2Proof.Machine.execRecordedModeRecord s
  | .recordedModeReplay => Sys2Proof.Machine.execRecordedModeReplay s
  | .traceRecord => Sys2Proof.Machine.execTraceRecord s
  | .imageUpdate => Sys2Proof.Machine.execImageUpdate s
  | .attest => Sys2Proof.Machine.execAttest s
  | .raiseDamper => Sys2Proof.Machine.execRaiseDamper s
  | .queueMakeResident => Sys2Proof.Machine.execQueueMakeResident s
  | .queueSwitchOut => Sys2Proof.Machine.execQueueSwitchOut s
  | .restoreContext => Sys2Proof.Machine.execRestoreContext s
  | .setAlarm => Sys2Proof.Machine.execSetAlarm s
  | .loadContext => Sys2Proof.Machine.execLoadContext s
  | .endContext => Sys2Proof.Machine.execEndContext s
  | .commandBusyWrite => Sys2Proof.Machine.execCommandBusyWrite s
  | .recordedHeadWrite => Sys2Proof.Machine.execRecordedHeadWrite s
  | .faultQueueHeadWrite => Sys2Proof.Machine.execFaultQueueHeadWrite s
  | .stateWindowWrite => Sys2Proof.Machine.execStateWindowWrite s
  | .boot => Sys2Proof.Machine.execBoot s
  | .coolantConfirm => Sys2Proof.Machine.execCoolantConfirm s
  | .thermalStop => Sys2Proof.Machine.execThermalStop s
  | .stokerIllegalInstruction => Sys2Proof.Machine.execStokerIllegalInstruction s
  | .laneIllegalInstruction => Sys2Proof.Machine.execLaneIllegalInstruction s
  | .fetchPageFault => Sys2Proof.Machine.execFetchPageFault s
  | .portUp => Sys2Proof.Machine.execPortUp s
  | .hostLinkTraining => Sys2Proof.Machine.execHostLinkTraining s

end Sys2Proof.Machine
end

