-- ==== Sys2Proof/Machine/Run.lean ====
section
/-! DEFINITION. What a stream does that takes an issue opportunity, and the instructions that wait, which are tried as the clock
advances (R84, R88, R145, R179, R198, R201–R205). -/

namespace Sys2Proof.Machine

/-- What a fetched instruction does in its stream: the instruction itself, the illegal-instruction trap, the page fault of its fetch, or a
wait for the fetch. -/
def runFetched (s : State) (f : Fetched) (illegal : Instr) : Host.Outcome State Fault Refusal :=
  match f with
  | .instr i => exec i s
  | .illegal => exec illegal s
  | .fault va unit => exec .fetchPageFault { s with ev := { a := va.toNat, flag := unit } }
  | .wait => .next (match s.cur with
    | some (.stoker k) => s.waitS k
    | some (.lane k slot) => s.waitL k slot
    | none => s)

/-- The records of the reads of an instruction that waits are taken back, since it makes them again; those of one that keeps what it has
read stay (R333, R334). -/
def State.unread (t s : State) (k : Nat) : State :=
  let kept := match t.grp k, s.grp k with
    | some x, some g => x.got != g.got || x.launching != g.launching
    | _, _ => false
  if kept then t else t.undoTrace s

/-- What the instruction that has issued leaves behind: what was served to its reader is used up. -/
def State.issuedBy (s : State) (who : Nat × Nat) (f : State → State) : State := (f s).forget who

/-- A group has arrived at a barrier or at its team's `mma`: there it waits for the others, and goes on with no further issue (R88, R340). -/
def State.inPlace (s : State) (k : Nat) : Bool := (s.grp k).any fun g => g.arrived.isSome || s.arrivedMma g

/-- The stoker of a group takes a port: what a save took back issues first, else its instruction is fetched and runs. One that arrives and
waits for others has taken the port with its arrival (R205). -/
def issueStoker (s : State) (pos k : Nat) (g : Group) : Host.Outcome State Fault Refusal :=
  let s : State := { s with cur := some (.stoker k) }
  let after := fun (i : Option Instr) (t : State) =>
    if t.stokerWaits k then
      let t := t.unread s k
      if t.inPlace k && !s.inPlace k then t.issuedStoker s pos k else t
    else (match i with
      | some i => t.timeStoker s k g i
      | none => t).issuedBy (0, k) fun t => t.issuedStoker s pos k
  match g.redo with
  | r :: _ => .next (after none (s.againStoker k g r))
  | [] =>
    match s.fetchStoker k g with
    | (s, .instr i) => Res.after (exec i s) (after (some i))
    | (s, f) => Res.after (runFetched s f .stokerIllegalInstruction) (after none)

/-- A split of a group takes a lane slot: what a save took back issues first, else its instruction is fetched, violates a window in
checked mode, or runs. -/
def issueLane (s : State) (pos k slot : Nat) (g : Group) (sp : Split) : Host.Outcome State Fault Refusal :=
  let s : State := { s with cur := some (.lane k slot) }
  let after := fun (time : State → State) clocks (t : State) =>
    if t.laneWaits k slot then t.unread s k else (time t).issuedBy (1 + slot, k) fun t => t.issuedLane s pos k slot clocks
  match sp.redo with
  | some o => .next (after id o.passes (s.againLane k slot g sp o))
  | none =>
    match s.fetchLane k g sp with
    | (s, .instr i) =>
      if g.violates sp i then .next (after id 1 (s.trapL k slot g sp { code := 0x10, ldv := isLdv i } sp.mask))
      else Res.after (exec i s) (after (fun t => t.timeLane s k slot g sp i) (passClocks i * passesOf g sp i))
    | (s, f) => Res.after (runFetched s f .laneIllegalInstruction) (after id 1)

/-- A stream takes an opportunity. -/
def issue (s : State) (pos : Nat) (st : Stream) : Host.Outcome State Fault Refusal :=
  match st with
  | .stoker k =>
    match s.grp k with
    | some g => issueStoker s pos k g
    | none => .fault .noStream
  | .lane k slot =>
    match s.grp k with
    | some g =>
      match g.split slot with
      | some sp => issueLane s pos k slot g sp
      | none => .fault .noStream
    | none => .fault .noStream

/-! ### Instructions that wait (R88, R201, R304) -/

/-- The state after a waiting stoker's instruction is tried: while it has to wait on, the requests it makes are kept; once it has not,
the stoker is ready, and the instruction runs as it wins a port; so it arrives where it waits for others only with a port (R205). -/
def State.retryStoker (s : State) (k : Nat) : State :=
  match s.grp k with
  | some g =>
    if g.sWait && !s.held g && !s.ordering g 0 then
      let wake := s.setG k { g with sWait := false }
      match issueStoker wake 0 k { g with sWait := false } with
      | .next t => if t.stokerWaits k && (s.inPlace k || !t.inPlace k) then { t with cur := none } else wake
      | _ => wake
    else s
  | none => s

/-- The same for a split. -/
def State.retryLane (s : State) (k slot : Nat) : State :=
  match s.grp k with
  | some g =>
    match g.split slot with
    | some sp =>
      let wake := s.setG k (g.setSplit slot (some { sp with waiting := false }))
      if sp.waiting && !s.held g && !(match g.execBlock with
        | some b => s.ordering g b.id
        | none => true) then
        match issueLane wake 0 k slot g sp with
        | .next t => if t.laneWaits k slot then { t with cur := none } else wake
        | _ => wake
      else s
    | none => s
  | none => s

/-- A replay's context has something under way that only its log holds back: a write at its home or at another module whose old value it
awaits, or a projection's latent line (R334, R335). -/
def State.wantsLog (s : State) : Bool :=
  (s.pend.any fun p => !s.answerReady p && if isOther (keyPa p.key) then s.atHome p else p.arrived && p.steps s.clk && s.canPerform p.key) ||
    s.projs.any fun p => p.locked && !s.latentLogged p && s.latentThere p

/-- A replay is held before an event whose record has not been placed (R335). -/
def State.holdReplay (s : State) : State := if s.recd.active && s.wantsLog then { s with recd := s.recd.short } else s

/-- The clock advances, and every instruction that waits is tried: until it need wait no longer, its stream is not ready (R201, R205). -/
def State.tick (s : State) : State :=
  let t := s.holdReplay.clock
  (t.groups.map (·.1)).foldl (fun s k => ((s.retryStoker k).retryLane k 0).retryLane k 1) t

end Sys2Proof.Machine
end

