-- ==== Sys2Proof/Machine/Step.lean ====
section
/-! DEFINITION. One step of the device: the next due event; else the next issue of the clock; else the clock. -/

namespace Sys2Proof.Machine

/-- One step. -/
def step (s : State) : Host.Outcome State Fault Refusal :=
  match s.due with
  | some d => exec d.i { d.s with ev := d.ev, cur := none }
  | none =>
    match s.nextOffer with
    | some (pos, st) => issue s pos st
    | none => .next s.tick

/-- The state with an instruction stored where the step fetches its next instruction. A stoker instruction is placed as the
next of the one resident group's stoker; a lane instruction as the next of its executing block. -/
def State.withFetchWord (s : State) (nbits w : Nat) : State :=
  s.placeCode (nbits > 32 && bits w 25 7 != 0x7F) (tableBytes nbits w)

end Sys2Proof.Machine
end

