-- ==== Sys2Proof/Safety.lean ====
section
/-! DEFINITION. What a safe run is, and the terms the statements about the machine use: which stream is issuing, what an
instruction that completes leaves, and what it leaves alone. -/

namespace Sys2Proof.Machine

/-! ### Safe runs -/

/-- A step that stays within the device: it answers a next state. -/
def State.goesOn (s : State) : Prop := ∃ t, step s = .next t

/-- A run of n steps that stays within the device. -/
def State.safeFor (s : State) : Nat → Prop
  | 0 => True
  | n + 1 => ∃ t, step s = .next t ∧ t.safeFor n

/-! ### Which stream is issuing -/

/-- The stoker of group k is issuing, and the group stands in the table. -/
def State.stokerAt (s : State) (k : Nat) (g : Group) : Prop := s.cur = some (.stoker k) ∧ s.grp k = some g

/-- The split of a PC slot of group k is issuing. -/
def State.laneAt (s : State) (k slot : Nat) (g : Group) (sp : Split) : Prop :=
  s.cur = some (.lane k slot) ∧ s.grp k = some g ∧ g.split slot = some sp

/-- A lane instruction issues with the environment `e`: its split is issuing, and a read of `%time` has its value (R41, R334). -/
def LEnv.issues (e : LEnv) (s : State) : Prop :=
  s.laneAt e.k e.slot e.g e.sp ∧ s.laneTime e.f e.k e.g e.sp = (e.s, some e.time) ∧ e.ts = actingOf e.g e.sp e.f ∧ e.snap = e.g.snapOf

/-! ### Frames -/

/-- Two states agree in everything but the group table, and there in every group but k. -/
def State.sameBut (s t : State) (k : Nat) : Prop := { t with groups := s.groups } = s ∧ ∀ j, j ≠ k → t.grp j = s.grp j

/-- Two groups agree in everything but their scalar registers and stoker PC. -/
def Group.sameButS (g g' : Group) : Prop := { g' with s := g.s, spc := g.spc } = g

/-- Every byte of memory reads alike in two states. -/
def State.sameMem (s t : State) : Prop := ∀ a, memGet t.mem a = memGet s.mem a

/-- An instruction or event completes in a next state of which P holds. -/
def State.does (s : State) (i : Instr) (P : State → Prop) : Prop := ∃ t, exec i s = .next t ∧ P t

/-- A table whose keys are all different and of one kind. -/
def keyed {α : Type} (t : Tab α) (key : Nat → Prop) : Prop := (t.map (·.1)).Nodup ∧ ∀ p ∈ t, key p.1

/-! ### Results of the stoker -/

/-- A stoker instruction completes and the group is the one given; nothing else changes. -/
def State.becomes (s : State) (i : Instr) (k : Nat) (g' : Group) : Prop :=
  ∃ t, exec i s = .next t ∧ t.grp k = some g' ∧ s.sameBut t k

/-- A stoker instruction completes with a result in scalar register sd, where a write to s0 is discarded (R36, R86); `len` bytes
later the stoker goes on. The state may have changed to `s1` by what the instruction reads. -/
def State.putsS (s s1 : State) (i : Instr) (k : Nat) (g : Group) (sd : BitVec 6) (x : SReg) (len : Nat) : Prop :=
  ∃ t g', exec i s = .next t ∧ t.grp k = some g' ∧ s1.sameBut t k ∧ g.sameButS g' ∧
    g'.spc = g.spc + BitVec.ofNat 64 len ∧ ∀ n, g'.sGet n = if n = sd.toNat ∧ n ≠ 0 then x else g.sGet n

/-- A stoker instruction completes with a result in condition bit n. -/
def State.putsC (s : State) (i : Instr) (k : Nat) (g : Group) (n : BitVec 3) (b : Bool) (len : Nat) : Prop :=
  ∃ t g', exec i s = .next t ∧ t.grp k = some g' ∧ s.sameBut t k ∧ { g' with c := g.c, spc := g.spc } = g ∧
    g'.spc = g.spc + BitVec.ofNat 64 len ∧ ∀ m, m < 8 → g'.cGet m = if m = n.toNat then b else g.cGet m

/-- A stoker instruction takes a precise trap (R86): nothing else of its effect happens. -/
def State.trapsS (s s1 : State) (i : Instr) (k : Nat) (g : Group) (t : Trap) (len : Nat) : Prop :=
  exec i s = .next (s1.trapS k g t len)

/-- A stoker instruction waits (R88): it has not executed, and the group tries it again. -/
def State.waitsS (s s1 : State) (i : Instr) (k : Nat) (g : Group) : Prop :=
  ∃ t, exec i s = .next t ∧ t.grp k = some { g with sWait := true } ∧ s1.sameBut t k

/-- The stoker of group k goes on at another place, and nothing else of the machine changes. -/
def State.jumps (s : State) (i : Instr) (k : Nat) (g : Group) (target : W64) : Prop :=
  s.becomes i k { g with spc := target }

/-- A target inside the kernel's scalar code (R95). -/
def Group.inCode (g : Group) (target : W64) : Prop := target.toNat % 4 = 0 ∧ target.toNat < 4 * g.kern.scwords

/-! ### Results of the lanes -/

/-- The word i of a result as a lane register with its tag (R36, R142). -/
def Opd.word (o : Opd) (i : Nat) : LReg := ⟨BitVec.ofNat 32 (o.x / 2 ^ (32 * i)), o.pz⟩

/-- A result of `words` registers fits, and no outstanding result of the split writes one of them (R144). -/
def LEnv.free (e : LEnv) (words : Nat) : Prop :=
  e.f.vd.toNat + words ≤ 256 ∧ ∀ th ∈ e.ts, ∀ i < words, e.sp.owes th (e.f.vd.toNat + i) = false

/-- A state after an instruction with the environment `e` that leaves group `g'` and counts one free value (log 6). -/
def LEnv.leaves (e : LEnv) (t : State) (g' : Group) : Prop :=
  t.grp e.k = some g' ∧ { t with groups := e.s.groups, free := e.s.free } = e.s ∧ ∀ j, j ≠ e.k → t.grp j = e.s.grp j

/-- A lane instruction completes: the acting threads hold their result in `words` registers from vd, every other lane register
keeps its value, and nothing else changes but the split, which is past the instruction. -/
def LEnv.puts (e : LEnv) (s : State) (i : Instr) (words : Nat) (val : Nat → Opd) : Prop :=
  ∃ t g', exec i s = .next t ∧ e.leaves t g' ∧ { g' with v := e.g.v } = e.g.setSplit e.slot (some (e.sp.past e.s.nextId)) ∧
    ∀ th r, r < 256 → g'.vGet th r =
      if th ∈ e.ts ∧ e.f.vd.toNat ≤ r ∧ r < e.f.vd.toNat + words then (val th).word (r - e.f.vd.toNat) else e.g.vGet th r

/-- A lane instruction completes with a mask result in the acting threads; m0 is never written (R36). -/
def LEnv.putsM (e : LEnv) (s : State) (i : Instr) (n : Nat) (val : Nat → Bool) : Prop :=
  ∃ t g', exec i s = .next t ∧ e.leaves t g' ∧ { g' with m := e.g.m } = e.g.setSplit e.slot (some (e.sp.past e.s.nextId)) ∧
    ∀ m th, th < 128 → (g'.mGet m).getLsbD th = if m = n ∧ m ≠ 0 ∧ th ∈ e.ts then val th else (e.g.mGet m).getLsbD th

/-- A lane instruction with lookahead completes: its result is outstanding for its window (R16, R144) and no register has
changed. -/
def LEnv.owes (e : LEnv) (s : State) (i : Instr) (words : Nat) (val : Nat → Opd) : Prop :=
  ∃ t o, exec i s = .next t ∧
    t.grp e.k = some (e.g.setSplit e.slot (some { e.sp.past e.s.nextId with outs := (e.sp.past e.s.nextId).outs ++ [o] })) ∧
    { t with groups := e.s.groups, free := e.s.free, nextId := e.s.nextId } = e.s ∧ (∀ j, j ≠ e.k → t.grp j = e.s.grp j) ∧
    o.left = e.f.la.toNat ∧
    ∀ th r x, (⟨th, r, x⟩ ∈ o.vals) ↔
      th ∈ e.ts ∧ e.f.vd.toNat ≤ r ∧ r < e.f.vd.toNat + words ∧ x = some ((val th).word (r - e.f.vd.toNat))

/-- The result of a long-latency lane instruction: at once without lookahead, else outstanding (R16, R144). -/
def LEnv.putsLong (e : LEnv) (s : State) (i : Instr) (words : Nat) (val : Nat → Opd) : Prop :=
  (e.f.la = 0 → e.puts s i words val) ∧ (e.f.la ≠ 0 → e.owes s i words val)

/-- A lane instruction takes a precise trap for a set of threads (R71): nothing else of its effect happens. -/
def LEnv.traps (e : LEnv) (s : State) (i : Instr) (t : Trap) (threads : Mask) : Prop :=
  exec i s = .next (e.s.trapL e.k e.slot e.g e.sp t threads)

/-- No acting thread holds poison in what a test reads (R146). -/
def LEnv.clean (e : LEnv) (f : Nat → Bool) : Prop := ∀ t ∈ e.ts, f t = false

/-- A lane instruction completes with a pending copy in its block (R33, R162). -/
def LEnv.lands (e : LEnv) (s : State) (i : Instr) (p : PendW) : Prop :=
  ∃ t, exec i s = .next t ∧ { t with groups := e.s.groups, free := e.s.free } = e.s ∧
    t.grp e.k = some ((e.g.modExec fun b => { b with pend := b.pend ++ [p] }).setSplit e.slot (some (e.sp.past e.s.nextId))) ∧
    ∀ j, j ≠ e.k → t.grp j = e.s.grp j

/-- The checks of a memory access pass (R164): the accesses are `l`, one for each acting thread in order, in the state `s1` that
translation leaves. -/
def LEnv.passes (e : LEnv) (sp : Space) (a : AccK) (size : Nat) (pz : Nat → Bool) (s1 : State) (l : List LAcc) : Prop :=
  l.map (·.t) = e.ts ∧ ∀ go, e.access sp a size pz go = go s1 l

/-- The checks of a memory access end it in a state, whatever the access would do (R164, R165). -/
def LEnv.ends (e : LEnv) (sp : Space) (a : AccK) (size : Nat) (pz : Nat → Bool) (x : State) : Prop :=
  ∀ go, e.access sp a size pz go = x

/-- The byte a list of accesses stores at an address, with its poison: the last thread's (R166). `f` places byte i of an access. -/
def storedAt (f : LAcc → Nat → Nat) (data : Nat → List Byte × Bool) (l : List LAcc) (a : Nat) : Option (Byte × Bool) :=
  l.reverse.findSome? fun x => (List.range (data x.t).1.length).findSome? fun i =>
    if f x i = a then (data x.t).1[i]?.map fun b => (b, (data x.t).2) else none

/-- The relations of R51 on integers: 0 eq, 1 ne, 2 lt, 3 le, 4 gt, 5 ge. -/
def relation (cc : Nat) (x y : Int) : Bool :=
  match cc with
  | 0 => decide (x = y)
  | 1 => decide (x ≠ y)
  | 2 => decide (x < y)
  | 3 => decide (x ≤ y)
  | 4 => decide (y < x)
  | _ => decide (y ≤ x)

/-- The `.f64` bits of a `.f32` value widened exactly (R58); those of a NaN are the canonical NaN's (log 70). -/
def widened (x : Nat) : Nat :=
  let sign := x / 2 ^ 31 * 2 ^ 63
  let ex := x / 2 ^ 23 % 256
  let fr := x % 2 ^ 23
  if ex = 255 then (if fr = 0 then sign + 2047 * 2 ^ 52 else 0x7FF8000000000000)
  else if ex ≠ 0 then sign + (ex + 896) * 2 ^ 52 + fr * 2 ^ 29
  else if fr = 0 then sign
  else sign + (fr.log2 + 874) * 2 ^ 52 + (fr - 2 ^ fr.log2) * 2 ^ (52 - fr.log2)

/-- The integer a code of an integer type stands for (R59, R127): types 0, 2, 4, 6 and 15 are signed. -/
def intOf (ty x : Nat) : Int :=
  if ty ∈ [0, 2, 4, 6, 15] then (BitVec.ofNat (tyBits ty) x).toInt else ((BitVec.ofNat (tyBits ty) x).toNat : Int)

/-- An integer wrapped to w bits. -/
def modPow (w : Nat) (z : Int) : Nat := (z % 2 ^ w).toNat

/-- An exact result wrapped to its integer type, or clamped to its range first (R147). -/
def fitTo (ty : Nat) (sat : Bool) (z : Int) : Nat :=
  let w := tyBits ty
  let lo : Int := if ty ∈ [0, 2, 4, 6, 15] then -(2 ^ (w - 1)) else 0
  let hi : Int := if ty ∈ [0, 2, 4, 6, 15] then 2 ^ (w - 1) - 1 else 2 ^ w - 1
  modPow w (if sat then max lo (min hi z) else z)

/-- The value of a loaded range in its registers (R163): extended where it is narrow and signed, with its tag. -/
def loadOpd (size : Nat) (signed : Bool) (b : List Byte × Bool) : Opd :=
  let n := leNat b.1
  ⟨if signed && decide (size < 4) then ((BitVec.ofNat (8 * size) n).signExtend 32).toNat else n, b.2⟩

/-- What a thread has in a list of what the accesses brought. -/
def broughtTo (size : Nat) (signed : Bool) (l : List (LAcc × List Byte × Bool)) (t : Nat) : Opd :=
  ((l.find? fun v => v.1.t == t).map fun v => loadOpd size signed v.2).getD ⟨0, false⟩

/-- The environment in a state that an access has led to, with the group as it stands there. -/
def LEnv.in_ (e : LEnv) (s : State) : LEnv := { e with s := s, g := s.fresh e.k e.g }

/-- Granules after stores, as R317 says: one that a poisoned byte is stored to is poisoned, one whose every byte is stored unpoisoned is
not, and every other keeps its mark. `at_` gives the byte stored at an address, with its poison. -/
def marksAfter (at_ : Nat → Option (Byte × Bool)) (old new : List Nat) : Prop :=
  (∀ a b, at_ a = some (b, true) → new.contains (a / 32) = true) ∧
  ∀ n, (∀ a b, a / 32 = n → at_ a ≠ some (b, true)) →
    (new.contains n = true ↔ old.contains n = true ∧ ∃ a, a / 32 = n ∧ at_ a = none)

/-- Two values combined, with the OR of their tags (R146). -/
def Opd.with (op : Nat → Nat → Nat) (a b : Opd) : Opd := ⟨op a.x b.x, a.pz || b.pz⟩

/-- The running combination of a list; of none it is 0 (R160). -/
def Opd.all (op : Nat → Nat → Nat) : List Opd → Opd
  | [] => ⟨0, false⟩
  | x :: r => r.foldl (Opd.with op) x

/-- Node i of a level of the reduction tree (R161): two present children combine, one stands for itself. -/
def redNode (op : Nat → Nat → Nat) (leaf : Nat → Option Opd) : Nat → Nat → Option Opd
  | 0, i => leaf i
  | n + 1, i =>
    match redNode op leaf n (2 * i), redNode op leaf n (2 * i + 1) with
    | some x, some y => some (x.with op y)
    | some x, none => some x
    | none, y => y

/-! ### Writes on their way -/

/-- Memory reads as before, but for what the caches do on their own: A and D bits of translation entries (R242), lines whose
metadata code is reserved (R314), and the granules of the groups' private areas, to which L1 writes them back (R219). -/
def State.drift (s t : State) : Prop :=
  ∀ a, memGet t.mem a ||| 0x30 = memGet s.mem a ||| 0x30 ∨ 8 ≤ (tabD s.cells (a / 128) 0).toNat ∨
    ∃ p ∈ s.groups, p.2.pb / 32 ≤ a / 32 ∧ a / 32 ≤ (p.2.pb + p.2.areaBytes) / 32

/-- A write or atomic has been sent toward its home: it is the last pending access, and memory reads as before. -/
def State.sent (s t : State) (p : Pend) : Prop := t.pend = s.pend ++ [p] ∧ s.sameMem t

/-- An OR of gathered bits that the device sends for itself, for an entry that leaves a translation cache (R242). -/
def Pend.gathers (q : Pend) : Prop := q.owner = none ∧ ∃ pa x y, q.kind = .atomic pa 8 opGathered 7 x y .none

/-- A write was performed at once in a line lent to the hearth (R233): nothing is on its way, memory holds the bytes, or the granules
of a poisoned write are lost, and every other byte reads as before, unless the metadata code of its line is reserved (R314). -/
def State.wroteHere (s t : State) (pa : Nat) (data : List Byte) (pz : Bool) : Prop :=
  t.pend = s.pend ∧
    (pz = false → ∀ i, i < data.length → memGet t.mem (pa + i) = data.getD i 0) ∧
    (pz = true → ∀ i, i < data.length → t.poison.contains ((pa + i) / 32) = true) ∧
    ∀ a, (if pz then a / 32 < pa / 32 ∨ (pa + data.length - 1) / 32 < a / 32 else a < pa ∨ pa + data.length ≤ a) →
      memGet t.mem a = memGet s.mem a ∨ (a / 128 = pa / 128 ∧ 8 ≤ (tabD s.cells (pa / 128) 0).toNat)

/-- Two groups agree in everything but which of their private lines are in L1 (R219). -/
def Group.sameButL1 (g g' : Group) : Prop := { g' with priv := g.priv, privPz := g.privPz, privBack := g.privBack } = g

/-- As much, but for loads and `ldv` instructions of the group that are given up, to be issued again (R179, R198). -/
def Group.sameButRetries (g g' : Group) : Prop :=
  ∃ f : Out → Out, (∀ o, f o = o ∨ f o = o.retry) ∧ (g.mapOuts f).sameButL1 g'

/-! ### Families of scalar accesses -/

/-- The loads of R99, R100 and their `slit` forms (R48): instruction, offset, bytes, signedness, bytes of the unit. -/
def scalarLoads (sd sa : BitVec 6) (imm : BitVec 13) (v : W64) (scope : BitVec 3) : List (Instr × W64 × Nat × Bool × Nat) :=
  let m : W64 := imm.signExtend 64
  [(.ldN8 sd sa imm, m, 1, false, 4), (.ldI8 sd sa imm, m, 1, true, 4), (.ldN16 sd sa imm, m, 2, false, 4),
    (.ldI16 sd sa imm, m, 2, true, 4), (.ldN32 sd sa imm, m, 4, false, 4), (.ldI32 sd sa imm, m, 4, true, 4),
    (.ldB64 sd sa imm, m, 8, false, 4), (.slit v 0x20 sd sa, v, 1, false, 12), (.slit v 0x21 sd sa, v, 1, true, 12),
    (.slit v 0x22 sd sa, v, 2, false, 12), (.slit v 0x23 sd sa, v, 2, true, 12), (.slit v 0x24 sd sa, v, 4, false, 12),
    (.slit v 0x25 sd sa, v, 4, true, 12), (.slit v 0x26 sd sa, v, 8, false, 12), (.ldAcq sd sa scope 0, 0, 4, false, 4),
    (.ldAcq sd sa scope 1, 0, 8, false, 4)]

/-- The lane loads (R163): instruction, space, bytes, signedness. -/
def laneLoads (f : LaneF) : List (Instr × Space × Nat × Bool) :=
  let size := tyBits f.ty.toNat / 8
  let signed := f.ty.toNat ∈ [0, 2, 4, 6]
  [(.ldGlobal f, .glob, size, signed), (.ldScratch f, .scratch, size, signed), (.ldPrivate f, .priv, size, signed),
    (.ldB128Global f, .glob, 16, false), (.ldB128Scratch f, .scratch, 16, false), (.ldB128Private f, .priv, 16, false)]

/-- The lane stores (R163): instruction, space, bytes. -/
def laneStores (f : LaneF) : List (Instr × Space × Nat) :=
  let size := tyBits f.ty.toNat / 8
  [(.stGlobal f, .glob, size), (.stScratch f, .scratch, size), (.stPrivate f, .priv, size), (.stB128Global f, .glob, 16),
    (.stB128Scratch f, .scratch, 16), (.stB128Private f, .priv, 16)]

/-- The lane atomics (R169, R170): instruction, operation code. -/
def laneAtomics (f : LaneF) : List (Instr × Nat) :=
  [(.laneAadd f, 0), (.laneAmin f, 1), (.laneAmax f, 2), (.laneAand f, 3), (.laneAor f, 4), (.laneAxor f, 5), (.laneAxchg f, 6),
    (.laneAcas f, 7), (.amaxabs f, 8)]

/-- The stores of R99, R100 and their `slit` forms: instruction, offset, bytes, the scope it is ordered at (0 for none), bytes of the unit. -/
def scalarStores (sd sa : BitVec 6) (imm : BitVec 13) (v : W64) (scope : BitVec 3) : List (Instr × W64 × Nat × Nat × Nat) :=
  let m : W64 := imm.signExtend 64
  [(.stB8 sd sa imm, m, 1, 0, 4), (.stB16 sd sa imm, m, 2, 0, 4), (.stB32 sd sa imm, m, 4, 0, 4),
    (.stB64 sd sa imm, m, 8, 0, 4), (.slit v 0x28 sd sa, v, 1, 0, 12), (.slit v 0x29 sd sa, v, 2, 0, 12),
    (.slit v 0x2A sd sa, v, 4, 0, 12), (.slit v 0x2B sd sa, v, 8, 0, 12), (.stRel sd sa scope 0, 0, 4, scope.toNat, 4),
    (.stRel sd sa scope 1, 0, 8, scope.toNat, 4)]

/-- The atomics of R102: instruction, operation code, signedness, the scope it is ordered at (0 for none). -/
def scalarAtomics (w : BitVec 1) (sd sa sb : BitVec 6) (scope : BitVec 3) : List (Instr × Nat × Bool × Nat) :=
  let o := scope.toNat
  [(.aadd w sd sa sb, 0, false, 0), (.aaddAr w sd sa sb scope, 0, false, o), (.aand w sd sa sb, 3, false, 0),
    (.aandAr w sd sa sb scope, 3, false, o), (.aor w sd sa sb, 4, false, 0), (.aorAr w sd sa sb scope, 4, false, o),
    (.axor w sd sa sb, 5, false, 0), (.axorAr w sd sa sb scope, 5, false, o), (.aminI w sd sa sb, 1, true, 0),
    (.aminIAr w sd sa sb scope, 1, true, o), (.aminN w sd sa sb, 1, false, 0), (.aminNAr w sd sa sb scope, 1, false, o),
    (.amaxI w sd sa sb, 2, true, 0), (.amaxIAr w sd sa sb scope, 2, true, o), (.amaxN w sd sa sb, 2, false, 0),
    (.amaxNAr w sd sa sb scope, 2, false, o), (.axchg w sd sa sb, 6, false, 0), (.axchgAr w sd sa sb scope, 6, false, o),
    (.acas w sd sa sb, 7, false, 0), (.acasAr w sd sa sb scope, 7, false, o)]

end Sys2Proof.Machine
end

