-- ==== Sys2Proof/Certificates/Slice0/Obligations.lean ====
section
/-! DEFINITION. The statements for the provers, in the order of OBLIGATIONS.json. Words of the vocabulary (`stokerAt`, `putsS`, `puts`, …) are
defined in Sys2Proof/Safety.lean. -/

open Sys2Proof Sys2Proof.Machine

/-! ### The stoker's integer instructions -/

/-- R89 and R91, register forms: each writes its result to sd, poisoned when a source is (R87), with the PC past the word; nothing
else of the machine changes, and a write to s0 is discarded. Quotients truncate toward zero; a zero divisor gives all ones and the
dividend.
R89, immediate forms: the second operand is the sign-extended literal, and the tag is S[sa]'s. -/
def Obligations.AluRegister : Prop :=
  (∀ (s : State) (k : Nat) (g : Machine.Group) (sd sa sb : BitVec 6), s.stokerAt k g →
     let a := (g.sGet sa.toNat).val
     let b := (g.sGet sb.toNat).val
     ∀ p ∈ ([(.add sd sa sb, a + b), (.sub sd sa sb, a - b), (.and sd sa sb, a &&& b), (.or sd sa sb, a ||| b),
         (.xor sd sa sb, a ^^^ b), (.andn sd sa sb, a &&& ~~~b), (.mul sd sa sb, a * b),
         (.mulhI64 sd sa sb, BitVec.ofInt 64 (a.toInt * b.toInt / 2 ^ 64)),
         (.mulhN64 sd sa sb, BitVec.ofNat 64 (a.toNat * b.toNat / 2 ^ 64)),
         (.divI64 sd sa sb, if b = 0 then BitVec.allOnes 64 else BitVec.ofInt 64 (a.toInt.tdiv b.toInt)),
         (.divN64 sd sa sb, if b = 0 then BitVec.allOnes 64 else BitVec.ofNat 64 (a.toNat / b.toNat)),
         (.remI64 sd sa sb, if b = 0 then a else BitVec.ofInt 64 (a.toInt.tmod b.toInt)),
         (.remN64 sd sa sb, if b = 0 then a else BitVec.ofNat 64 (a.toNat % b.toNat)),
         (.minI64 sd sa sb, if a.toInt ≤ b.toInt then a else b), (.minN64 sd sa sb, if a.toNat ≤ b.toNat then a else b),
         (.maxI64 sd sa sb, if a.toInt ≤ b.toInt then b else a), (.maxN64 sd sa sb, if a.toNat ≤ b.toNat then b else a)] :
         List (Instr × W64)),
       s.putsS s p.1 k g sd ⟨p.2, (g.sGet sa.toNat).pz || (g.sGet sb.toNat).pz⟩ 4) ∧
  (∀ (s : State) (k : Nat) (g : Machine.Group) (sd sa : BitVec 6) (imm : BitVec 13), s.stokerAt k g →
     let a := (g.sGet sa.toNat).val
     let b : W64 := imm.signExtend 64
     ∀ p ∈ ([(.addImm sd sa imm, a + b), (.andImm sd sa imm, a &&& b), (.orImm sd sa imm, a ||| b), (.xorImm sd sa imm, a ^^^ b),
         (.mulImm sd sa imm, a * b),
         (.minI64Imm sd sa imm, if a.toInt ≤ b.toInt then a else b), (.minN64Imm sd sa imm, if a.toNat ≤ b.toNat then a else b),
         (.maxI64Imm sd sa imm, if a.toInt ≤ b.toInt then b else a), (.maxN64Imm sd sa imm, if a.toNat ≤ b.toNat then b else a)] :
         List (Instr × W64)),
       s.putsS s p.1 k g sd ⟨p.2, (g.sGet sa.toNat).pz⟩ 4)

/-- R90: the shifts by a register whose count is not poisoned, by an immediate and by a `slit` literal. The amount is read as an unsigned
64-bit value; 64 and more leave zeros, or copies of the sign for `shr.i64`. -/
def Obligations.Shifts : Prop :=
  ∀ (s : State) (k : Nat) (g : Machine.Group) (sd sa sb : BitVec 6) (imm : BitVec 13) (v : W64), s.stokerAt k g →
    let a := (g.sGet sa.toNat).val
    let n := (g.sGet sb.toNat).val.toNat
    let m := (imm.signExtend 64).toNat
    let shl := fun n : Nat => BitVec.ofNat 64 (if 64 ≤ n then 0 else a.toNat * 2 ^ n % 2 ^ 64)
    let shr := fun n : Nat => BitVec.ofNat 64 (if 64 ≤ n then 0 else a.toNat / 2 ^ n)
    let sar := fun n : Nat => if 64 ≤ n then (if a.getLsbD 63 then BitVec.allOnes 64 else 0) else BitVec.ofInt 64 (a.toInt / 2 ^ n)
    (∀ p ∈ ([(.shlImm sd sa imm, shl m), (.shrN64Imm sd sa imm, shr m), (.shrI64Imm sd sa imm, sar m)] : List (Instr × W64)),
      s.putsS s p.1 k g sd ⟨p.2, (g.sGet sa.toNat).pz⟩ 4) ∧
    (∀ p ∈ ([(.slit v 0x08 sd sa, shl v.toNat), (.slit v 0x09 sd sa, shr v.toNat), (.slit v 0x0A sd sa, sar v.toNat)] : List (Instr × W64)),
      s.putsS s p.1 k g sd ⟨p.2, (g.sGet sa.toNat).pz⟩ 12) ∧
    ((g.sGet sb.toNat).pz = false →
      ∀ p ∈ ([(.shl sd sa sb, shl n), (.shrN64 sd sa sb, shr n), (.shrI64 sd sa sb, sar n)] : List (Instr × W64)),
        s.putsS s p.1 k g sd ⟨p.2, (g.sGet sa.toNat).pz⟩ 4)

/-- R92: `popc` counts the one bits; `clz` and `ctz` count the zero bits above the highest and below the lowest one bit, 64 when
there is none; `bswap` reverses the eight bytes. A word of theirs with a nonzero sb field decodes to none, and runs as the illegal
instruction, whose trap it takes. -/
def Obligations.BitCounts : Prop :=
  ∀ (s : State) (k : Nat) (g : Machine.Group) (sd sa : BitVec 6), s.stokerAt k g →
    let a := (g.sGet sa.toNat).val
    let pz := (g.sGet sa.toNat).pz
    s.putsS s (.popc sd sa) k g sd ⟨BitVec.ofNat 64 ((List.range 64).filter a.getLsbD).length, pz⟩ 4 ∧
    (∃ n ≤ 64, (∀ i < n, a.getLsbD (63 - i) = false) ∧ (n < 64 → a.getLsbD (63 - n) = true) ∧
      s.putsS s (.clz sd sa) k g sd ⟨BitVec.ofNat 64 n, pz⟩ 4) ∧
    (∃ n ≤ 64, (∀ i < n, a.getLsbD i = false) ∧ (n < 64 → a.getLsbD n = true) ∧
      s.putsS s (.ctz sd sa) k g sd ⟨BitVec.ofNat 64 n, pz⟩ 4) ∧
    (∃ x : W64, (∀ i < 8, x.extractLsb' (8 * i) 8 = a.extractLsb' (8 * (7 - i)) 8) ∧ s.putsS s (.bswap sd sa) k g sd ⟨x, pz⟩ 4) ∧
    ∀ fn sb : Nat, 0x14 ≤ fn → fn ≤ 0x17 → 0 < sb → sb < 64 →
      (∀ i, decodeStoker (sd.toNat * 2 ^ 19 + sa.toNat * 2 ^ 13 + sb * 2 ^ 7 + fn) 0 0 ≠ .ok i) ∧
        s.trapsS s .stokerIllegalInstruction k g { code := 0x01 } (s.unitLen k g)

/-- R94: `csel` sets sd to S[sa] when C[N] = 1 and to S[sb] when C[N] = 0, with the selected register's tag; its words are those
of opcode 0x02 with fn bits [6:3] 0. -/
def Obligations.Csel : Prop :=
  ∀ (s : State) (k : Nat) (g : Machine.Group) (sd sa sb : BitVec 6) (cn : BitVec 3), s.stokerAt k g →
    s.putsS s (.csel sd sa sb cn) k g sd (if g.cGet cn.toNat then g.sGet sa.toNat else g.sGet sb.toNat) 4 ∧
    decodeStoker (0x02 * 2 ^ 25 + sd.toNat * 2 ^ 19 + sa.toNat * 2 ^ 13 + sb.toNat * 2 ^ 7 + cn.toNat) 0 0 = .ok (.csel sd sa sb cn) ∧
    ∀ hi : Nat, 0 < hi → hi < 16 →
      ∀ i, decodeStoker (0x02 * 2 ^ 25 + sd.toNat * 2 ^ 19 + sa.toNat * 2 ^ 13 + sb.toNat * 2 ^ 7 + hi * 2 ^ 3 + cn.toNat) 0 0 ≠ .ok i

/-- R93: a compare of sources that are not poisoned writes its relation to C[N]: 0 eq, 1 ne, 2 lt, 3 le, 4 gt, 5 ge.
R87: a poisoned shift count, compare source, branch or jump operand, `mset` operand raises the poison-consumed trap, and the
instruction has no effect (R86). -/
def Obligations.Compare : Prop :=
  (∀ (s : State) (k : Nat) (g : Machine.Group) (cn cc : BitVec 3) (sa sb : BitVec 6) (imm : BitVec 13), s.stokerAt k g → cc.toNat < 6 →
     (g.sGet sa.toNat).pz = false →
     let a := (g.sGet sa.toNat).val
     let b := (g.sGet sb.toNat).val
     let c : W64 := imm.signExtend 64
     let rel := relation cc.toNat
     ((g.sGet sb.toNat).pz = false →
       s.putsC (.cmp cn sa sb 0 cc) k g cn (rel a.toInt b.toInt) 4 ∧ s.putsC (.cmp cn sa sb 1 cc) k g cn (rel a.toNat b.toNat) 4) ∧
     s.putsC (.cmpI64Imm cc cn sa imm) k g cn (rel a.toInt c.toInt) 4 ∧
     s.putsC (.cmpN64Imm cc cn sa imm) k g cn (rel a.toNat c.toNat) 4) ∧
  (∀ (s : State) (k : Nat) (g : Machine.Group) (sd sa sb : BitVec 6) (cn cc : BitVec 3) (ty : BitVec 1) (off : BitVec 19) (imm : BitVec 13),
     s.stokerAt k g →
     (∀ i ∈ ([.shl sd sa sb, .shrN64 sd sa sb, .shrI64 sd sa sb, .cmp cn sa sb ty cc] : List Instr),
       (g.sGet sb.toNat).pz = true → s.trapsS s i k g (trapPoison 0 0) 4) ∧
     ∀ i ∈ ([.cmp cn sa sb ty cc, .cmpI64Imm cc cn sa imm, .cmpN64Imm cc cn sa imm, .jr sa, .bz sa off, .bnz sa off, .mset sa] : List Instr),
       (g.sGet sa.toNat).pz = true → s.trapsS s i k g (trapPoison 0 0) 4)

/-- R48, R74, R86: an SI instruction after a `slit` marker takes the 64-bit literal as its second operand, and the unit's three
words are passed together. -/
def Obligations.Slit : Prop :=
  ∀ (s : State) (k : Nat) (g : Machine.Group) (sd sa : BitVec 6) (v : W64) (cc cn : BitVec 3), s.stokerAt k g →
    let a := (g.sGet sa.toNat).val
    let pz := (g.sGet sa.toNat).pz
    (∀ p ∈ ([(0x04, a + v), (0x05, a &&& v), (0x06, a ||| v), (0x07, a ^^^ v),
        (0x08, BitVec.ofNat 64 (if 64 ≤ v.toNat then 0 else a.toNat * 2 ^ v.toNat % 2 ^ 64)),
        (0x09, BitVec.ofNat 64 (if 64 ≤ v.toNat then 0 else a.toNat / 2 ^ v.toNat)),
        (0x0A, if 64 ≤ v.toNat then (if a.getLsbD 63 then BitVec.allOnes 64 else 0) else BitVec.ofInt 64 (a.toInt / 2 ^ v.toNat)),
        (0x0B, a * v), (0x0C, if a.toInt ≤ v.toInt then a else v), (0x0D, if a.toNat ≤ v.toNat then a else v),
        (0x0E, if a.toInt ≤ v.toInt then v else a), (0x0F, if a.toNat ≤ v.toNat then v else a)] : List (BitVec 7 × W64)),
      s.putsS s (.slit v p.1 sd sa) k g sd ⟨p.2, pz⟩ 12) ∧
    (pz = false → cc.toNat < 6 →
      s.putsC (.slit v 0x10 (cc ++ cn) sa) k g cn (relation cc.toNat a.toInt v.toInt) 12 ∧
      s.putsC (.slit v 0x11 (cc ++ cn) sa) k g cn (relation cc.toNat a.toNat v.toNat) 12) ∧
    (pz = true → ∀ op : BitVec 7, op = 0x10 ∨ op = 0x11 → s.trapsS s (.slit v op sd sa) k g (trapPoison 0 0) 12)

/-! ### The stoker's control flow -/

/-- R95: a taken transfer goes to its target when it lies in the scalar code, else raises the illegal-operand trap and leaves
the PC; `call` writes PC + 4 to s63; a branch that does not transfer goes on at PC + 4. -/
def Obligations.Transfers : Prop :=
  ∀ (s : State) (k : Nat) (g : Machine.Group) (sa : BitVec 6) (cn : BitVec 3) (far : BitVec 25) (near : BitVec 19), s.stokerAt k g →
    let a := g.sGet sa.toNat
    let go := fun (i : Instr) (g' : Machine.Group) (target : W64) =>
      (g.inCode target → s.becomes i k { g' with spc := target }) ∧ (¬ g.inCode target → s.trapsS s i k g (trapOperand target) 4)
    let farT := g.spc + 4 * far.signExtend 64
    let nearT := g.spc + 4 * near.signExtend 64
    go (.br far) g farT ∧ go (.call far) (g.sSet 63 ⟨g.spc + 4, false⟩) farT ∧
    (a.pz = false →
      go (.jr sa) g a.val ∧
      (a.val = 0 → go (.bz sa near) g nearT ∧ s.becomes (.bnz sa near) k (g.adv 4)) ∧
      (a.val ≠ 0 → go (.bnz sa near) g nearT ∧ s.becomes (.bz sa near) k (g.adv 4))) ∧
    (g.cGet cn.toNat = true → go (.bc cn near) g nearT ∧ s.becomes (.bnc cn near) k (g.adv 4)) ∧
    (g.cGet cn.toNat = false → go (.bnc cn near) g nearT ∧ s.becomes (.bc cn near) k (g.adv 4))

/-! ### Scalar memory access -/

/-- R98: the checks of a scalar access in their order. Misalignment is found before canonical form, that before translation, and
then permission, frozen and thawing pages, codec regions and range locks; an access that passes has its translation. -/
def Obligations.ScalarChecks : Prop :=
  ∀ (s s1 : State) (k : Nat) (g : Machine.Group) (a : AccK) (va : W64) (size : Nat) (r : TrRes),
    (va.toNat % size ≠ 0 → s.chkScalar k g a va size = (s, .trap (accTrap 0x07 a va size))) ∧
    (va.toNat % size = 0 → canonical va = false → s.chkScalar k g a va size = (s, .trap (accTrap 0x06 a va size))) ∧
    (va.toNat % size = 0 → canonical va = true → s.translate (hearthOf k) g.ctx va = (s1, r) →
      let out := (s.chkScalar k g a va size).2
      (s.chkScalar k g a va size).1 = s1 ∧ (Memory.wf s.mem = true → s.drift s1) ∧
      match r with
      | .absent e => out = .trap { accTrap 0x05 a va size with s3 := e }
      | .illegal m => out = .trap { accTrap 0x06 a va size with malf := m }
      | .ok t =>
        let key := s1.keyOfTr (tabD s1.ctxs g.ctx {}) t
        let reach := (a.rd → t.rd) ∧ (a.wr → t.wr) ∧ s1.fenced (dieOf (hearthOf k)) key = false ∧
          ¬ (isHost t.pa = true ∧ t.creg = none ∧ s1.cxl = false ∧ a.pcieOk = false)
        (¬ reach → out = .trap (accTrap 0x06 a va size)) ∧
        (reach → a.wr → t.fst = 1 ∨ t.fst = 3 → out = .trap (accTrap 0x08 a va size)) ∧
        (reach → a.wr → t.fst = 2 → out = .wait) ∧
        (reach → (a.wr → t.fst = 0) → t.creg ≠ none → a.codecOk = false → out = .trap (accTrap 0x09 a va size)) ∧
        (reach → (a.wr → t.fst = 0) → (t.creg = none ∨ a.codecOk = true) →
          out = if s1.conflict (hearthOf k) g.ctx g.wg g.gidx .glob (va57 va) size a.wr then .trap (accTrap 0x0A a va size)
            else .ok t))

/-- R87, R98, R99, R100: a scalar load of a poisoned address raises the poison-consumed trap. Else, when its checks pass, it writes the
bytes read, extended as its form says, with the data's tag; it waits while its bytes must be waited for, and one whose checks trap takes
that trap.
R325: a load of another module's memory that gets no response in time leaves its result pending, and the access is out.
R228, R317: what a read of plain memory gives. With no copy that lost its value, no line served to a waiting read and nothing of the
group's own on the way, the bytes are those of memory at the translated address, and none is poisoned when no granule of theirs is. -/
def Obligations.ScalarLoads : Prop :=
  (∀ (s s1 s2 : State) (k : Nat) (g : Machine.Group) (sd sa : BitVec 6) (imm : BitVec 13) (v : W64) (scope : BitVec 3) (t : Tr)
     (b : List Byte) (pz : Bool) (tr : Trap), s.stokerAt k g →
     ∀ p ∈ scalarLoads sd sa imm v scope,
       let va := (g.sGet sa.toNat).val + p.2.1
       let x := BitVec.ofNat (8 * p.2.2.1) (leNat b)
       let chk := s.chkScalar k g accLoad va p.2.2.1
       ((g.sGet sa.toNat).pz = true → s.trapsS s p.1 k g { code := 0x0B, addr := va, size := p.2.2.1 } p.2.2.2.2) ∧
       ((g.sGet sa.toNat).pz = false →
       (chk = (s1, .ok t) → s1.unanswered k g t = true →
         ∃ u q, exec p.1 s = .next u ∧
           { u with groups := s1.groups, pend := s1.pend, nextId := s1.nextId, ports := s1.ports } = s1 ∧
           u.pend = s1.pend ++ [q] ∧ q.owner = some g.name ∧ q.arrived = false ∧ q.issued = s1.clk ∧ q.va = va ∧
           q.kind = .lost (if sd = 0 then .none else .scalar sd.toNat p.2.2.2.1) p.2.2.1 g.spc ∧
           u.grp k = some { g with spc := g.spc + BitVec.ofNat 64 p.2.2.2.2, sPend := if sd = 0 then g.sPend else g.sPend ++ [sd.toNat] }) ∧
       (chk = (s1, .ok t) → s1.unanswered k g t = false →
         (s1.stokerRead k g t p.2.2.1 = (s2, none) → exec p.1 s = .next (s2.waitS k)) ∧
         (s1.stokerRead k g t p.2.2.1 = (s2, some (b, pz)) → b.length = p.2.2.1 →
           s1.drift s2 ∧ ∃ g2, s2.grp k = some g2 ∧ g.sameButL1 g2 ∧
             s.putsS s2 p.1 k g2 sd ⟨if p.2.2.2.1 then x.signExtend 64 else x.setWidth 64, pz⟩ p.2.2.2.2)) ∧
       (chk = (s1, .trap tr) → s.trapsS s1 p.1 k g tr p.2.2.2.2))) ∧
  (∀ (s s2 : State) (h n : Nat) (c : Ctx) (owner : Nat × Nat) (t : Tr) (b : List Byte) (pz : Bool),
     s.readBytes h c owner t n = (s2, some (b, pz)) → t.creg = none → (∀ p ∈ s.pend, p.owner ≠ some owner) →
     (∀ x ∈ s.served, x.key ≠ physKey t.pa) → s.copyPz = [] → (∀ l ∈ s.l1Lines h (l1SetOf (physKey t.pa)), l.key = physKey t.pa → l.pz = 0) →
     (∀ i < n, s2.poison.contains ((t.pa + i) / 32) = false) →
     b = (List.range n).map (fun i => memGet s2.mem (t.pa + i)) ∧ pz = false) ∧
  (∀ (s s2 : State) (k n : Nat) (g : Machine.Group) (t : Tr) (x : List Byte × Bool), s.recording g.ctx = false →
     s.readBytes (hearthOf k) (tabD s.ctxs g.ctx {}) g.name t n = (s2, some x) → s.stokerRead k g t n = (s2, some x))

/-- R87, R98, R99, R100, R228, R245: a scalar store of a poisoned address raises the poison-consumed trap, and one to a page that thaws
waits. One whose checks pass is on its way to its home with the low bytes of S[sd], low byte first,
and a poisoned S[sd] sends a marker; the PC is past the unit, no register changes, and memory is not written yet. A release waits
for the earlier accesses its scope covers. In a line lent to the hearth the store is performed at once (R233). -/
def Obligations.ScalarStores : Prop :=
  ∀ (s s1 : State) (k : Nat) (g : Machine.Group) (sd sa : BitVec 6) (imm : BitVec 13) (v : W64) (scope : BitVec 3) (t : Tr) (tr : Trap),
    s.stokerAt k g →
    ∀ p ∈ scalarStores sd sa imm v scope,
      let va := (g.sGet sa.toNat).val + p.2.1
      let size := p.2.2.1
      let data := (List.range size).map fun i => (g.sGet sd.toNat).val.extractLsb' (8 * i) 8
      let key := s1.keyOfTr (tabD s1.ctxs g.ctx {}) t
      let chk := s.chkScalar k g (accStore (size == 8)) va size
      ((g.sGet sa.toNat).pz = true → s.trapsS s p.1 k g { code := 0x0B, addr := va, size := size, wr := true } p.2.2.2.2) ∧
      ((g.sGet sa.toNat).pz = false →
      (chk = (s1, .wait) → exec p.1 s = .next (s1.waitS k)) ∧
      (chk = (s1, .ok t) → s1.stokerPending g.name p.2.2.2.1 = false → s1.lentTo (hearthOf k) key = false →
        ∃ u q, exec p.1 s = .next u ∧ u.grp k = some (g.adv p.2.2.2.2) ∧ (∀ j, j ≠ k → u.grp j = s1.grp j) ∧ s1.sent u q ∧
          q.id = s1.nextId ∧ q.key = key ∧ q.owner = some g.name ∧ q.blk = 0 ∧ q.arrived = false ∧
          q.kind = match t.creg with
            | some r => .codecStore g.ctx r ((enumFrom t.pa data).map fun x => (x.1, x.2, (g.sGet sd.toNat).pz))
            | none => .store t.pa data (g.sGet sd.toNat).pz) ∧
      (chk = (s1, .ok t) → s1.stokerPending g.name p.2.2.2.1 = false → s1.lentTo (hearthOf k) key = true → t.creg = none →
        Memory.wf s1.mem = true →
        ∃ u, exec p.1 s = .next u ∧ u.grp k = some (g.adv p.2.2.2.2) ∧ (∀ j, j ≠ k → u.grp j = s1.grp j) ∧
          s1.wroteHere u t.pa data (g.sGet sd.toNat).pz) ∧
      (chk = (s1, .ok t) → s1.stokerPending g.name p.2.2.2.1 = true → exec p.1 s = .next (s1.waitS k)) ∧
      (p.2.2.2.1 = 0 → s1.stokerPending g.name p.2.2.2.1 = false) ∧
      (chk = (s1, .trap tr) → s.trapsS s1 p.1 k g tr p.2.2.2.2))

/-- R87, R98, R102, R228, R245: a scalar atomic of a poisoned operand raises the poison-consumed trap, and one on a page that thaws waits.
One whose operands are not poisoned and whose checks pass is on its way to its home with its operation
and operands; sd's result is pending. An ordered form first waits for the earlier accesses its scope covers, and for the values of
earlier atomics and loads. In a line lent to the hearth it is performed at once (R233): memory holds the new value and sd the old one. -/
def Obligations.ScalarAtomics : Prop :=
  ∀ (s s1 : State) (k : Nat) (g : Machine.Group) (w : BitVec 1) (sd sa sb : BitVec 6) (scope : BitVec 3) (t : Tr) (tr : Trap),
    s.stokerAt k g →
    ∀ p ∈ scalarAtomics w sd sa sb scope,
      let size := if w = 0 then 4 else 8
      let ty := if w = 0 then (if p.2.2.1 then 4 else 5) else (if p.2.2.1 then 6 else 7)
      let va := (g.sGet sa.toNat).val
      let chk := s.chkScalar k g (accAtomic false (pcieAtomic p.2.1 ty)) va size
      let bad := (g.sGet sa.toNat).pz = true ∨ (g.sGet sb.toNat).pz = true ∨ (p.2.1 = 7 ∧ (g.sGet sd.toNat).pz = true)
      let waits := s1.stokerPending g.name p.2.2.2 = true ∨ (p.2.2.2 ≠ 0 ∧ s1.stokerReading g.name = true)
      let key := s1.keyOfTr (tabD s1.ctxs g.ctx {}) t
      (bad → s.trapsS s p.1 k g { code := 0x0B, addr := va, size := size, wr := true, at_ := true } 4) ∧
      (¬ bad → chk = (s1, .trap tr) → s.trapsS s1 p.1 k g tr 4) ∧
      (¬ bad → chk = (s1, .wait) → exec p.1 s = .next (s1.waitS k)) ∧
      (¬ bad → chk = (s1, .ok t) → waits → exec p.1 s = .next (s1.waitS k)) ∧
      (p.2.2.2 = 0 → ¬ waits) ∧
      (¬ bad → chk = (s1, .ok t) → ¬ waits → s1.lentTo (hearthOf k) key = false →
        ∃ u q, exec p.1 s = .next u ∧ s1.sent u q ∧ q.id = s1.nextId ∧ q.key = key ∧ q.owner = some g.name ∧ q.blk = 0 ∧
          q.acq = decide (p.2.2.2 ≠ 0) ∧
          u.grp k = some { g with spc := g.spc + 4, sPend := if sd = 0 then g.sPend else g.sPend ++ [sd.toNat] } ∧
          (∀ j, j ≠ k → u.grp j = s1.grp j) ∧
          q.kind = .atomic t.pa size p.2.1 ty (g.sGet sb.toNat).val (g.sGet sd.toNat).val
            (if sd = 0 then .none else .scalar sd.toNat (p.2.2.1 && w == 0))) ∧
      (¬ bad → chk = (s1, .ok t) → ¬ waits → s1.lentTo (hearthOf k) key = true →
        t.creg = none → s1.recording g.ctx = false → Memory.wf s1.mem = true → s1.keyOf g.name = some k → s1.grp k = some g → g.hnd = none →
        s1.poisoned t.pa size = false → (tabD s1.cells (t.pa / 128) 0).toNat < 8 →
        let old := s1.peekNat t.pa size
        let new := (atomicNew p.2.1 ty size old (g.sGet sb.toNat).val.toNat (g.sGet sd.toNat).val.toNat).getD old
        s.does p.1 fun u => s1.wroteHere u t.pa (leBytes size new) false ∧ (∀ j, j ≠ k → u.grp j = s1.grp j) ∧
          ∃ g', u.grp k = some g' ∧ { g' with s := g.s, spc := g.spc, sPend := g.sPend } = g ∧ g'.spc = g.spc + 4 ∧
            ∀ n, g'.sGet n = if n = sd.toNat ∧ n ≠ 0 then
              ⟨if p.2.2.1 ∧ w = 0 then (BitVec.ofNat 32 old).signExtend 64 else BitVec.ofNat 64 old, false⟩ else g.sGet n)

/-- R98: a misaligned scalar load, store or atomic of a register that is not poisoned raises the alignment fault at its address,
before any other check, and has no effect. -/
def Obligations.AlignmentFaults : Prop :=
  ∀ (s : State) (k : Nat) (g : Machine.Group) (w : BitVec 1) (sd sa sb : BitVec 6) (imm : BitVec 13) (v : W64) (scope : BitVec 3),
    s.stokerAt k g → (g.sGet sa.toNat).pz = false →
    let a := (g.sGet sa.toNat).val
    (∀ p ∈ scalarLoads sd sa imm v scope, (a + p.2.1).toNat % p.2.2.1 ≠ 0 →
      s.trapsS s p.1 k g { code := 0x07, addr := a + p.2.1, size := p.2.2.1 } p.2.2.2.2) ∧
    (∀ p ∈ scalarStores sd sa imm v scope, (a + p.2.1).toNat % p.2.2.1 ≠ 0 →
      s.trapsS s p.1 k g { code := 0x07, addr := a + p.2.1, wr := true, size := p.2.2.1 } p.2.2.2.2) ∧
    ((g.sGet sb.toNat).pz = false → (g.sGet sd.toNat).pz = false → a.toNat % (if w = 0 then 4 else 8) ≠ 0 →
      ∀ p ∈ scalarAtomics w sd sa sb scope,
        s.trapsS s p.1 k g { code := 0x07, addr := a, wr := true, at_ := true, size := if w = 0 then 4 else 8 } 4)

/-- R39, R103: `xlt` of a base that is not canonical, or whose page a walk does not find or finds thawing, fills bN with
LIMIT 0; of a present page it takes that page's fields and the bytes the scan reaches. A poisoned operand raises the poison-consumed trap. -/
def Obligations.TranslationRegisters : Prop :=
  ∀ (s s1 s2 : State) (k : Nat) (g : Machine.Group) (bn : BitVec 4) (sa sb : BitVec 6) (t : Tr) (len : Nat) (r : TrRes), s.stokerAt k g →
    let v := (g.sGet sa.toNat).val
    let span := max (g.sGet sb.toNat).val.toNat 1
    let put := fun (s1 : State) (x : TReg) => ∃ u, exec (.xlt bn sa sb) s = .next u ∧ s1.sameBut u k ∧
      u.grp k = some { g with b := tabSet g.b bn.toNat x, spc := g.spc + 4 }
    ((g.sGet sa.toNat).pz = true ∨ (g.sGet sb.toNat).pz = true → s.trapsS s (.xlt bn sa sb) k g (trapPoison 0 0) 4) ∧
    ((g.sGet sa.toNat).pz = false → (g.sGet sb.toNat).pz = false →
      (canonical v = false → put s { base := v, valid := true }) ∧
      (canonical v = true → s.translate (hearthOf k) g.ctx v = (s1, r) → (∀ t, r = .ok t → t.fst = 2) →
        put s1 { base := v, valid := true }) ∧
      (canonical v = true → s.translate (hearthOf k) g.ctx v = (s1, .ok t) → t.fst ≠ 2 →
        s1.xltScan (hearthOf k) g.ctx v span t ((g.sGet sb.toNat).val.toNat / 65536 + 1) t.left = (s2, len) →
        put s2 { base := v, frame := BitVec.ofNat 52 t.pa, creg := BitVec.ofNat 5 (t.creg.getD 0),
                 limit := BitVec.ofNat 32 (min len (2 ^ 32 - 1)), valid := true, rd := t.rd, wr := t.wr, codec := t.creg.isSome,
                 frozen := decide (t.fst = 1 ∨ t.fst = 3), cmpr := t.cmpr, pgsz := BitVec.ofNat 2 t.pgsz }))

/-- R105: `xinv` returns bN to its reset values, and nothing else of the group changes, the snapshots of its blocks included; `xrd`
writes word k of the current bN as it stands, stale or not, and k = 3 decodes to no instruction and raises the illegal-instruction
trap. Their words are those of opcodes 0x39 and 0x3A. -/
def Obligations.TranslationReads : Prop :=
  ∀ (s : State) (k : Nat) (g : Machine.Group) (bn : BitVec 4) (sd : BitVec 6), s.stokerAt k g →
    let word := fun (n : Nat) =>
      let b := tabD g.b bn.toNat {}
      match n with
      | 0 => b.base
      | 1 => (0 : BitVec 7) ++ b.creg ++ b.frame
      | _ => (0 : BitVec 23) ++ b.pgsz ++ BitVec.ofBool b.cmpr ++ BitVec.ofBool b.frozen ++ BitVec.ofBool b.codec ++
          BitVec.ofBool b.wr ++ BitVec.ofBool b.rd ++ BitVec.ofBool b.stale ++ BitVec.ofBool b.valid ++ b.limit
    s.becomes (.xinv bn) k { g with b := tabSet g.b bn.toNat {}, spc := g.spc + 4 } ∧
    (∀ n : BitVec 2, n ≠ 3 → s.putsS s (.xrd sd bn n) k g sd ⟨word n.toNat, false⟩ 4 ∧
      decodeStoker (0x3A * 2 ^ 25 + sd.toNat * 2 ^ 19 + bn.toNat * 2 ^ 13 + n.toNat) 0 0 = .ok (.xrd sd bn n)) ∧
    decodeStoker (0x39 * 2 ^ 25 + bn.toNat * 2 ^ 19) 0 0 = .ok (.xinv bn) ∧
    (∀ i, decodeStoker (0x3A * 2 ^ 25 + sd.toNat * 2 ^ 19 + bn.toNat * 2 ^ 13 + 3) 0 0 ≠ .ok i) ∧
    s.trapsS s (.xrd sd bn 3) k g { code := 0x01 } 4 ∧ s.trapsS s .stokerIllegalInstruction k g { code := 0x01 } (s.unitLen k g)

/-! ### Lane blocks and the course of a group -/

/-- R29–R31, R33, R106–R108, R266: `lrun` enqueues a block with the snapshot of that moment, executing at once when none is; a
label beyond the kernel traps; with the limit in flight (two, one in a handler) the oldest is retired first. `lwait` retires the
oldest block once it is stopped and performed, landing its copies in order. `lkill` discards every block, and nothing lands. -/
def Obligations.LaneBlocks : Prop :=
  ∀ (s : State) (k : Nat) (g g1 : Machine.Group) (idx : BitVec 25) (b : Block) (rest : List Block) (l : List PendW) (n : Nat) (v : SReg)
    (c : Bool), s.stokerAt k g →
    let limit := if g.hnd.isSome then 1 else 2
    let starts := fun (g : Machine.Group) => s.does (.lrun idx) fun t => ∃ g',
      t.grp k = some g' ∧ { t with groups := s.groups, nextId := s.nextId } = s ∧ (∀ j, j ≠ k → t.grp j = s.grp j) ∧
        g'.blocks = g.blocks ++ [{ id := s.nextId, start := idx.toNat, st := if g.execBlock.isNone then .executing else .queued,
                                   snap := { s := g.s, c := g.c, b := g.b, w := g.w, mode := g.mode } }] ∧
        g'.spc = g.spc + 4 ∧
        { g' with blocks := g.blocks, spc := g.spc, slot0 := g.slot0, slot1 := g.slot1, spilled := g.spilled } = g ∧
        if g.execBlock.isNone then
          g'.slot0 = some { pc := BitVec.ofNat 32 (12 * idx.toNat), mask := g.entryMask } ∧ g'.slot1 = none ∧ g'.spilled = []
        else g'.slot0 = g.slot0 ∧ g'.slot1 = g.slot1 ∧ g'.spilled = g.spilled
    let landed := ({ g with blocks := rest } : Machine.Group).landPend b.pend
    (g.kern.lcinsts ≤ idx.toNat → s.trapsS s (.lrun idx) k g (trapOperand (idx.setWidth 64)) 4) ∧
    (idx.toNat < g.kern.lcinsts → g.wBusy = [] →
      (g.blocks.length < limit → starts g) ∧
      (limit ≤ g.blocks.length → s.retireOldest g = some g1 → starts g1) ∧
      (limit ≤ g.blocks.length → s.retireOldest g = none → s.waitsS s (.lrun idx) k g)) ∧
    (g.hnd = none → g.entryMask = fullMask g.width) ∧
    (g.blocks = [] → s.becomes .lwait k (g.adv 4) ∧ s.becomes .lkill k (g.adv 4)) ∧
    (g.blocks = b :: rest → b.st = .stopped → s.blockPending g.name b.id = false →
      s.retireOldest g = some landed ∧ s.becomes .lwait k (landed.adv 4)) ∧
    (g.blocks = b :: rest → b.st ≠ .stopped ∨ s.blockPending g.name b.id = true →
      s.retireOldest g = none ∧ s.waitsS s .lwait k g) ∧
    g.landPend (l ++ [.scalar n v]) = (g.landPend l).sSet n v ∧ g.landPend (l ++ [.cond n c]) = (g.landPend l).cSet n c ∧
    (g.blocks ≠ [] → (∀ x ∈ g.blocks, s.blockPending g.name x.id = false) →
      s.does .lkill fun t => ∃ g', t.grp k = some g' ∧ s.sameMem t ∧ (∀ j, j ≠ k → t.grp j = s.grp j) ∧ g'.spc = g.spc + 4 ∧
        g'.blocks = [] ∧ g'.slot0 = none ∧ g'.slot1 = none ∧ g'.spilled = [] ∧ g'.s = g.s ∧ g'.c = g.c ∧ g'.m = g.m) ∧
    ((∃ x ∈ g.blocks, x.st ≠ .queued ∧ ∃ p ∈ s.pend, p.owner = some g.name ∧ p.blk = x.id ∧ p.isLost = false) →
      s.does .lkill fun t => ∃ g', t.grp k = some g' ∧ g'.sWait = true ∧ g'.spc = g.spc ∧ g'.s = g.s ∧ g'.c = g.c ∧
        ∀ x ∈ g'.blocks, x.st = .stopped ∧ x.pend = [])

/-- R41, R69, R113: `srd` reads each special register, zero-extended; the counts include the clock of issue, and `%time` outside a
recording is device time. `%tid` and unassigned numbers are no instruction. -/
def Obligations.SpecialRegisters : Prop :=
  ∀ (s : State) (k : Nat) (g : Machine.Group) (sd : BitVec 6) (n : BitVec 7), s.stokerAt k g →
    let w := s.wgOf g.wg
    let gr := s.gridAt w.grid
    let get := fun (n : BitVec 7) (x : Nat) => s.putsS s (.srd sd n) k g sd ⟨BitVec.ofNat 64 x, false⟩ 4
    (∀ p ∈ ([(0x01, g.gidx), (0x02, gr.ngrp), (0x03, g.width), (0x04, g.gidx / max g.base.team 1), (0x05, w.ix), (0x06, w.iy),
        (0x07, w.iz), (0x08, gr.gx), (0x09, gr.gy), (0x0A, gr.gz), (0x0B, k / 128 % 36), (0x0C, k / 128 / 36), (0x0D, gr.depth),
        (0x0F, (tabD s.ctxs g.ctx {}).run + 1), (0x10, g.gtime + 1), (0x11, g.mode.toNat)] : List (BitVec 7 × Nat)), get p.1 p.2) ∧
    (s.recording g.ctx = false → get 0x0E s.now) ∧
    (n = 0 ∨ 0x11 < n.toNat → s.trapsS s (.srd sd n) k g trapIllegal 4)

/-- R114, R38: `mset` writes the low 32 bits of S[sa] to MODE but CHK, bit 9, which keeps its value; a nonzero upper half, a
reserved bit (3, 10 and up), or a rounding direction of 0, 6 or 7 raises the illegal-operand trap. Snapshots of blocks in flight
keep their MODE (R31). -/
def Obligations.ModeWrite : Prop :=
  ∀ (s : State) (k : Nat) (g : Machine.Group) (sa : BitVec 6), s.stokerAt k g → (g.sGet sa.toNat).pz = false →
    let x := (g.sGet sa.toNat).val
    let rnd := x.toNat % 8
    let bad := 2 ^ 32 ≤ x.toNat ∨ (x.getLsbD 3 = true ∨ ∃ i, 10 ≤ i ∧ i < 32 ∧ x.getLsbD i = true) ∨ rnd = 0 ∨ rnd = 6 ∨ rnd = 7
    (bad → s.trapsS s (.mset sa) k g (trapOperand x) 4) ∧
    (¬ bad → ∃ mode : BitVec 32, s.becomes (.mset sa) k { g with mode := mode, spc := g.spc + 4 } ∧
      ∀ i, i < 32 → mode.getLsbD i = if i = 9 then g.mode.getLsbD 9 else x.getLsbD i)

/-- R88, R109, R110, R212, R213: a barrier waits for the group's earlier accesses as a release at its scope does, then counts its arrival
once; when every group of its workgroup, or of its wholly placed co-resident grid, has arrived at the same instance or retired, it and
every group that waits there go on.
R101, R61, R245, R246: a release or full fence waits while an earlier access of the stoker that its scope covers is not performed, an
acquire or full fence of a scope beyond the group while the value of an atomic or a load has not come; else a fence completes at once.
At group scope none is waited for, and those to host memory and other modules are at system scope alone. -/
def Obligations.Barriers : Prop :=
  (∀ (s : State) (k : Nat) (g : Machine.Group) (w : Wg), s.stokerAt k g → g.saved = false → tabGet s.wgs g.wg = some w →
     let a := if g.arrived = none then { g with wgbars := g.wgbars + 1, arrived := some false } else g
     let b := if g.arrived = none then { g with gbars := g.gbars + 1, arrived := some true } else g
     let all := ∀ p ∈ tabSet s.groups k a, p.2.wg = g.wg → a.wgbars ≤ p.2.wgbars
     let allB := (∀ p ∈ tabSet s.groups k b, (s.wgOf p.2.wg).grid = w.grid → b.gbars ≤ p.2.gbars) ∧
       (s.gridAt w.grid).total ≤ (s.gridAt w.grid).next ∧ ∀ v ∈ s.saved, v.wg.grid = w.grid → ∀ p ∈ v.groups, b.gbars ≤ p.2.gbars
     let past := fun (x : Machine.Group) => { x with arrived := none, sWait := false, spc := x.spc + 4 }
     let opens := fun (i : Instr) (x : Machine.Group) (grid : Bool) (here : Machine.Group → Prop) => s.does i fun t =>
       t.grp k = some (past x) ∧ { t with groups := s.groups } = s ∧
         ∀ j y, j ≠ k → s.grp j = some y →
           (t.grp j = some y ∨ (here y ∧ y.arrived = some grid ∧ y.saved = false ∧ t.grp j = some (past y))) ∧
           (here y → y.arrived = some grid → y.saved = false → y.wgbars = x.wgbars → y.gbars = x.gbars → t.grp j = some (past y))
     (g.hnd ≠ none → s.trapsS s .wgbar k g (trapOperand 0) 4 ∧ s.trapsS s .gbar k g (trapOperand 0) 4) ∧
     (g.hnd = none →
     (g.arrived = none → s.stokerPending g.name 1 = true → s.waitsS s .wgbar k g) ∧
     (g.arrived = some false ∨ (g.arrived = none ∧ s.stokerPending g.name 1 = false) →
       (all → opens .wgbar a false fun y => y.wg = g.wg) ∧ (¬ all → s.waitsS s .wgbar k a)) ∧
     ((s.gridOf g).cores = false → s.trapsS s .gbar k g (trapOperand 0) 4) ∧
     ((s.gridOf g).cores = true →
       (g.arrived = none → s.stokerPending g.name 4 = true → s.waitsS s .gbar k g) ∧
       (g.arrived = some true ∨ (g.arrived = none ∧ s.stokerPending g.name 4 = false) →
         (allB → opens .gbar b true fun y => (s.wgOf y.wg).grid = w.grid) ∧ (¬ allB → s.waitsS s .gbar k b))))) ∧
  (∀ (s : State) (k : Nat) (g : Machine.Group) (kind : BitVec 2) (scope : BitVec 3), s.stokerAt k g →
     let waits := (2 ≤ kind.toNat ∧ s.stokerPending g.name scope.toNat = true) ∨
       (kind.getLsbD 0 = true ∧ scope ≠ 0 ∧ s.stokerReading g.name = true)
     (¬ waits → s.becomes (.fence kind scope) k (g.adv 4)) ∧ (waits → s.waitsS s (.fence kind scope) k g)) ∧
  ∀ (s : State) (n : Nat × Nat) (scope : Nat),
    s.stokerPending n scope = true ↔ scope ≠ 0 ∧ ∃ p ∈ s.pend, p.owner = some n ∧ p.blk = 0 ∧
      (5 ≤ scope ∨ p.isLost = true ∨ ¬ (p.key / 2 ^ 51 % 4 = 1 ∨ p.key / 2 ^ 51 % 4 = 3))

/-- R97, R111, R112, R204: `spause` only demotes the group; `yield` retires every block, and under a raised damper saves a group of
a pre-emptible grid past it; `exit` waits for blocks, accesses and engine operations, then the group is gone and counts as retired
in its workgroup. In a handler `yield` and `exit` are illegal operands (R266). -/
def Obligations.GroupFlow : Prop :=
  ∀ (s : State) (k : Nat) (g g1 : Machine.Group), s.stokerAt k g → g.raised = none →
    let up := fun (n : Nat) => if 2 ≤ n ∧ n ≠ 18 then 19 else 18
    let damped := (tabD s.ctxs g.ctx {}).damper = true ∧ (s.gridAt (s.wgOf g.wg).grid).kern.preempt = true
    let busy := (∃ b ∈ g.blocks, b.st ≠ .stopped) ∨ s.pending g.name = true ∨ s.engaged g = true
    s.becomes .spause k { g with spc := g.spc + 4, sdem := up g.sdem, ldem := up g.ldem } ∧
    (g.hnd ≠ none → s.trapsS s .yield k g (trapOperand 0) 4 ∧ s.trapsS s .exit k g (trapOperand 0) 4) ∧
    (g.hnd = none → s.retireAll g = some g1 →
      (¬ damped → s.becomes .yield k (g1.adv 4)) ∧
      (damped → (∃ p ∈ s.groups, p.1 ≠ k ∧ p.2.wg = g.wg ∧ p.2.saved = false) →
        s.does .yield fun t => ∃ g', t.grp k = some g' ∧ g'.saved = true ∧ g'.spc = g1.spc + 4 ∧ g'.s = g1.s ∧ g'.c = g1.c ∧
          g'.m = g1.m ∧ g'.b = g1.b ∧ g'.w = g1.w ∧ g'.mode = g1.mode ∧ g'.blocks = g1.blocks)) ∧
    (g.hnd = none → s.retireAll g = none → s.waitsS s .yield k g) ∧
    (g.blocks.length ≤ 3 → s.retireAll g = some g1 → g1.blocks = []) ∧
    (g.hnd = none → busy → s.waitsS s .exit k g) ∧
    (g.hnd = none → ¬ busy → s.does .exit fun t => t.grp k = none ∧ (g.frames = [] → g.base.team = 0 → s.sameMem t) ∧
      ∀ w, tabGet t.wgs g.wg = some w → g.gidx ∈ w.retired)

/-- R27, R115, R116, R216: `launch` by a team's lead at a depth below 10 reads the record once, at issue, and when it is accepted adds
the child grid; its faults create none. While 64 children are unretired or earlier accesses are not visible it waits with the child as
its record gave it. `cwait` waits for the group's children. The order of its checks and the reading of a poisoned record are the model's
choices (log 64). -/
def Obligations.Launching : Prop :=
  ∀ (s s1 : State) (k : Nat) (g : Machine.Group) (sa : BitVec 6) (b : List Byte) (pz : Bool) (child : Grid) (reason : Nat) (tr : Trap),
    s.stokerAt k g →
    let a := (g.sGet sa.toNat).val
    let gid := (s.wgOf g.wg).grid
    let gr := s.gridAt gid
    let lead := g.kern.team = 0 ∨ g.gidx % g.kern.team = 0
    let first := g.hnd = none ∧ g.launching = none
    let may := first ∧ (g.sGet sa.toNat).pz = false ∧ a.toNat % 256 = 0 ∧ lead ∧ gr.depth < 10
    let read := s.readRange k g a 256
    let g1 := s1.fresh k g
    let parsed := s1.parse (k / 128 / 36) g1.ctx b (some (g1.wg, g1.gidx, gid, gr))
    let born := { child with
      q := gr.q, rec_ := gr.rec_, parent := some g1.name, pgrid := some gid, depth := gr.depth + 1, prio := gr.prio, latency := gr.latency }
    let begets := fun (s1 : State) (g : Machine.Group) (child : Grid) =>
      (s1.children g < 64 → s1.stokerPending g.name 4 = false →
        s.does (.launch sa) fun t => t.grp k = some { g with launching := none, spc := g.spc + 4 } ∧ (∀ j, j ≠ k → t.grp j = s1.grp j) ∧
          { t with groups := s1.groups, grids := s1.grids, nextId := s1.nextId } = s1 ∧
          (∀ j, j ≠ s1.nextId → tabGet t.grids j = tabGet s1.grids j) ∧ tabGet t.grids s1.nextId = some child) ∧
      (64 ≤ s1.children g ∨ s1.stokerPending g.name 4 = true →
        exec (.launch sa) s = .next (s1.setG k { g with sWait := true, launching := some child }))
    let fault := s.trapsS s1 (.launch sa) k g1 { code := 0x12, addr := a } 4
    (g.hnd ≠ none → g.launching = none → s.trapsS s (.launch sa) k g (trapOperand 0) 4) ∧
    (first → (g.sGet sa.toNat).pz = true → s.trapsS s (.launch sa) k g (trapPoison a 256) 4) ∧
    (first → (g.sGet sa.toNat).pz = false → a.toNat % 256 ≠ 0 → s.trapsS s (.launch sa) k g (trapOperand a) 4) ∧
    (first → (g.sGet sa.toNat).pz = false → a.toNat % 256 = 0 → ¬ lead ∨ 10 ≤ gr.depth →
      s.trapsS s (.launch sa) k g { code := 0x12, addr := a } 4) ∧
    (may → read = (s1, .inr tr) → s.trapsS s1 (.launch sa) k g1 tr 4) ∧
    (may → read = (s1, .inl none) → exec (.launch sa) s = .next (s1.waitS k)) ∧
    (may → read = (s1, .inl (some (b, pz))) → parsed = .inr reason → fault) ∧
    (may → read = (s1, .inl (some (b, pz))) → parsed = .inl child → s1.childStuck gid child = true → fault) ∧
    (may → read = (s1, .inl (some (b, pz))) → parsed = .inl child → s1.childStuck gid child = false → begets s1 g1 born) ∧
    (g.launching = some child → begets s g child) ∧
    (g.hnd ≠ none → s.trapsS s .cwait k g (trapOperand 0) 4) ∧
    (g.hnd = none → (∀ p ∈ s.grids, p.2.parent ≠ some (g.wg, g.gidx)) → s.becomes .cwait k (g.adv 4)) ∧
    (g.hnd = none → (∃ p ∈ s.grids, p.2.parent = some (g.wg, g.gidx)) → s.waitsS s .cwait k g)

/-! ### Views, the engines, freezing and the codec's counters -/

/-- R40, R186–R190: `vset` of an aligned, readable and legal descriptor binds wN: to a held entry whose key is the same and that is
frozen-clean or holds the same bytes, or, as its copy ends, to the free entry of lowest number, filled anew with its generation raised;
beyond the quota, or with no entry free, it is the view fault. One that shares an entry into which a copy is under way is bound as that copy
ends. `vdrop` unbinds wN; `vqry` reads its state word or its descriptor, 0 where unbound. The model's choices: that poisoned bytes of a
matrix are equal to none (log 60), and that a poisoned descriptor is used as it reads (log 64). -/
def Obligations.ViewRegisters : Prop :=
  (∀ (s s1 s2 s3 : State) (k : Nat) (g : Machine.Group) (sa sd : BitVec 6) (wn n : BitVec 3) (b m : List Byte) (pz0 pz : Bool) (t : Tr)
    (slot : Nat) (tr : Trap), s.stokerAt k g →
    let a := (g.sGet sa.toNat).val
    let h := k / 128
    let d := vdesc (leNat b)
    let key := matrixKey t
    let i : Instr := .vset wn sa
    let bound := fun (gen : Nat) => ({ bound := true, slot := BitVec.ofNat 8 slot, gen := BitVec.ofNat 32 gen, desc := BitVec.ofNat 512 (leNat b) } : VwReg)
    let idle := tabGet g.wBusy wn.toNat = none
    let asks := idle ∧ (g.sGet sa.toNat).pz = false ∧ a.toNat % 64 = 0
    let desc := s.readRange k g a 64
    let legal := asks ∧ desc = (s1, .inl (some (b, pz0))) ∧ d.ok = true
    let found := legal ∧ s1.chkTlb k g accLoad d.matrix 2 = (s2, .ok t)
    let clean := s2.heldWith h g.ctx key d (·.fclean)
    let body := s2.readRange k g d.matrix d.matBytes
    let read := found ∧ clean = none ∧ body = (s3, .inl (some (m, pz)))
    let equal := s3.heldWith h g.ctx key d fun e => !pz && !e.pz && e.bytes == m
    let fault := fun (s1 : State) => s.trapsS s1 i k (s1.fresh k g) { code := 0x13, addr := a } 4
    let shares := fun (s1 : State) =>
      let g1 := s1.fresh k g
      let may := slot ∈ s1.heldSlots h (fun x => x.wg == g.wg) ∨ s1.viewUse h g.wg + (s1.vent h slot).units ≤ (s1.wgOf g.wg).vquota
      (may → s1.copyEnds h slot = none → s.does i fun u => s1.sameBut u k ∧
        u.grp k = some { g1 with spc := g1.spc + 4, w := tabSet g.w wn.toNat (bound (s1.vent h slot).gen) }) ∧
      (∀ clk, may → s1.copyEnds h slot = some clk → s.does i fun u => s1.sameBut u k ∧
        u.grp k = some { g1 with
          spc := g1.spc + 4,
          wBusy := tabSet g.wBusy wn.toNat { w := bound (s1.vent h slot).gen, ready := clk, addr := a, pc := g.spc } }) ∧
      (¬ may → fault s1)
    let room := s3.viewUse h g.wg + viewUnits d.matBytes ≤ (s3.wgOf g.wg).vquota
    let held := s3.heldSlots h fun _ => true
    let w := tabD g.w wn.toNat {}
    (¬ idle → ∀ i ∈ ([.vset wn sa, .vdrop wn, .vqry sd wn n] : List Instr), s.waitsS s i k g) ∧
    (idle → (g.sGet sa.toNat).pz = true → s.trapsS s i k g (trapPoison a 64) 4) ∧
    (idle → (g.sGet sa.toNat).pz = false → a.toNat % 64 ≠ 0 → s.trapsS s i k g (trapOperand a) 4) ∧
    (asks → desc = (s1, .inr tr) → s.trapsS s1 i k (s1.fresh k g) tr 4) ∧
    (asks → desc = (s1, .inl none) → exec i s = .next (s1.waitS k)) ∧
    (asks → desc = (s1, .inl (some (b, pz0))) → d.ok = false → s.trapsS s1 i k (s1.fresh k g) (trapOperand a) 4) ∧
    (legal → s1.chkTlb k g accLoad d.matrix 2 = (s2, .trap tr) → s.trapsS s2 i k (s2.fresh k g) tr 4) ∧
    (found → clean = some slot → shares s2) ∧
    (found → clean = none → body = (s3, .inr tr) → s.trapsS s3 i k (s3.fresh k g) tr 4) ∧
    (found → clean = none → body = (s3, .inl none) → exec i s = .next (s3.waitS k)) ∧
    (read → equal = some slot → shares s3) ∧
    (read → equal = none → room → slot < 256 → slot ∉ held → (∀ n < slot, n ∈ held) → (s3.vent h slot).gen < 2 ^ 32 - 1 →
      s.does i fun u => s3.sameMem u ∧ (∀ j, j ≠ k → u.grp j = s3.grp j) ∧
        (∀ j, j ≠ 256 * h + slot → tabGet u.vstore j = tabGet s3.vstore j) ∧
        u.vent h slot = { ctx := g.ctx, gen := (s3.vent h slot).gen + 1, pz := pz, units := viewUnits d.matBytes,
                          matrix := key, len := d.len, width := d.width, mfmt := d.mfmt, bytes := m,
                          pages := s3.pagesFrom h g.ctx d.matrix 16 d.matBytes, fclean := s3.allFrozen h g.ctx d.matrix 16 d.matBytes } ∧
        u.grp k = some { s3.fresh k g with
          spc := (s3.fresh k g).spc + 4,
          wBusy := tabSet g.wBusy wn.toNat
            { w := bound ((s3.vent h slot).gen + 1), ready := s3.clk + (d.matBytes + 255) / 256, addr := a, pc := g.spc } }) ∧
    (read → equal = none → ¬ room ∨ (∀ n < 256, n ∈ held) → fault s3) ∧
    (idle → s.becomes (.vdrop wn) k { g with w := tabSet g.w wn.toNat {}, spc := g.spc + 4 }) ∧
    (idle → w.bound = false → s.putsS s (.vqry sd wn n) k g sd ⟨0, false⟩ 4) ∧
    (idle → w.bound = true → s.putsS s (.vqry sd wn n) k g sd
      ⟨if n = 0 then (0 : BitVec 23) ++ w.gen ++ w.slot ++ (1 : BitVec 1) else w.desc.extractLsb' (64 * (n.toNat - 1)) 64, false⟩ 4)) ∧
  ∀ (s : State) (h ctx key n : Nat) (d : VDesc) (f : VEnt → Bool),
    let good := fun n => n ∈ s.heldSlots h (fun _ => true) ∧ (s.vent h n).ctx = ctx ∧ (s.vent h n).matrix = key ∧
      (s.vent h n).len = d.len ∧ (s.vent h n).width = d.width ∧ (s.vent h n).mfmt = d.mfmt ∧ f (s.vent h n) = true
    (s.heldWith h ctx key d f = some n → good n) ∧ (s.heldWith h ctx key d f = none → ∀ n, ¬ good n)

/-- R337, R340, R346, R347, R351, R266: `mma` reads its record once, at issue. A member of a team that is not the last to arrive waits, its
arrival kept with the reference record; the last one registers the operation and every member goes on, or waits for room with the record
it has read; a record that differs is the team fault.
The model's choices: a record from poisoned granules is used as it reads (log 64), and an arrival after another member of the team has
retired is the team fault too, of which R347 speaks for a waiting member (log 40). -/
def Obligations.MatrixMultiply : Prop :=
  ∀ (s s1 : State) (k : Nat) (g : Machine.Group) (sa : BitVec 6) (b : List Byte) (pz : Bool) (w : Wg) (tr : Trap),
    s.stokerAt k g →
    let a := (g.sGet sa.toNat).val
    let team := g.gidx / g.kern.team
    let at_ := tabGet w.teams team
    let others := (at_.map fun x => x.members.map (·.1)).getD []
    let good := (g.sGet sa.toNat).pz = false ∧ a.toNat % 64 = 0
    let read := s.readOnce k g a 64
    let legal := (mmaRec b).ok = true ∧ (mmaRec b).fits g.kern.team w.scratchBytes w.accUnits = true
    let same := ∀ x, at_ = some x → x.record = b
    let gone := ∃ i < g.kern.team, team * g.kern.team + i ∈ w.retired
    let g1 := s1.fresh k g
    let room := s1.matRoom (k / 128) ((mmaRec b).locks k g1 0).length
    let next := fun (x : Machine.Group) => { x with sWait := false, spc := x.spc + 4 }
    (g.hnd ≠ none → s.trapsS s (.mma sa) k g (trapOperand 0) 4) ∧
    (g.hnd = none → s.arrivedMma g = true → s.waitsS s (.mma sa) k g) ∧
    (g.hnd = none → s.arrivedMma g = false →
      ((g.sGet sa.toNat).pz = true → s.trapsS s (.mma sa) k g (trapPoison a 64) 4) ∧
      ((g.sGet sa.toNat).pz = false → a.toNat % 64 ≠ 0 → s.trapsS s (.mma sa) k g (trapOperand a) 4) ∧
      (g.got = some b → read = (s, .inl (some b))) ∧
      (g.got = none → s.readRange k g a 64 = (s1, .inl (some (b, pz))) → read = (s1, .inl (some b))) ∧
      (good → read = (s1, .inr tr) → s.trapsS s1 (.mma sa) k g1 tr 4) ∧
      (good → read = (s1, .inl none) → exec (.mma sa) s = .next (s1.waitS k)) ∧
      (good → read = (s1, .inl (some b)) → s1.grp k = some g1 → g.sameButL1 g1 → tabGet s1.wgs g.wg = some w →
        (¬ legal → s.trapsS s1 (.mma sa) k g1 (trapOperand a) 4) ∧
        (legal → gone ∨ ¬ same → s.trapsS s1 (.mma sa) k g1 { code := 0x11, addr := a } 4) ∧
        (legal → ¬ gone → same → others.length + 1 < g.kern.team →
          s.does (.mma sa) fun t => t.grp k = some { g1 with sWait := true } ∧
            { t with groups := s1.groups, wgs := s1.wgs } = s1 ∧ (∀ j, j ≠ k → t.grp j = s1.grp j) ∧
            ∃ w', tabGet t.wgs g.wg = some w' ∧ { w' with teams := w.teams } = w ∧
              tabGet w'.teams team = some { record := b, members := ((at_.map (·.members)).getD []) ++ [(g.gidx, a)] }) ∧
        (legal → ¬ gone → same → g.kern.team ≤ others.length + 1 → room = true →
          s.does (.mma sa) fun t => t.grp k = some { g1 with got := none, spc := g1.spc + 4 } ∧ s1.sameMem t ∧
            t.groups = tabSet (others.foldl (fun u m => u.modOwner (g.wg, m) next) s1).groups k { g1 with got := none, spc := g1.spc + 4 } ∧
            (∃ w', tabGet t.wgs g.wg = some w' ∧ { w' with teams := w.teams } = w ∧ tabGet w'.teams team = none) ∧
            ∃ op, t.mats = s1.mats ++ [op] ∧ op.id = s1.nextId ∧ op.hearth = k / 128 ∧ op.wg = g.wg ∧ op.ctx = g.ctx ∧
              op.members = others ++ [g.gidx] ∧ op.kind = .mma ∧ op.record = b ∧ op.addr = a ∧ op.kdone = 0) ∧
        (legal → ¬ gone → same → g.kern.team ≤ others.length + 1 → room = false →
          exec (.mma sa) s = .next (s1.setG k { g1 with got := some b, sWait := true }))))

/-- R339, R348, R349, R351: `accz`, `accld` and `accst` of units within the workgroup's `.acc` are registered as operations of the
matrix engine; no units, units beyond it or a misaligned address trap, the pages of `accld` and `accst` are checked first, and a
command waits for room. That poisoned S[sa] and S[sb] raise no trap in them is the model's reading (log 29). -/
def Obligations.AccumulatorCommands : Prop :=
  ∀ (s s1 : State) (k : Nat) (g : Machine.Group) (sd sa sb : BitVec 6) (fmt : BitVec 2) (tr : Trap), s.stokerAt k g →
    let u := (g.sGet sa.toNat).val.toNat
    let n := (g.sGet sb.toNat).val.toNat
    let d := g.sGet sd.toNat
    let inside := n ≠ 0 ∧ u + n ≤ (s.wgOf g.wg).accUnits
    let registers := fun (s1 : State) (i : Instr) (kind : MatKind) (d : W64) (f : Nat) =>
      s.does i fun t => t.grp k = some (g.adv 4) ∧ (∀ j, j ≠ k → t.grp j = s1.grp j) ∧ s1.sameMem t ∧
        ∃ op, t.mats = s1.mats ++ [op] ∧ op.id = s1.nextId ∧ op.hearth = k / 128 ∧ op.wg = g.wg ∧ op.ctx = g.ctx ∧
          op.members = [g.gidx] ∧ op.kind = kind ∧ op.d = d ∧ op.u = u ∧ op.n = n ∧ op.fmt = f ∧ op.kdone = 0
    let accz : Instr := .accz sa sb
    (inside → s.matRoom (k / 128) 1 = true → registers s accz .accz 0 0) ∧
    (inside → s.matRoom (k / 128) 1 = false → s.waitsS s accz k g) ∧
    (n = 0 → s.trapsS s accz k g (trapOperand 0) 4) ∧
    (n ≠ 0 → (s.wgOf g.wg).accUnits < u + n → s.trapsS s accz k g (trapOperand (g.sGet sa.toNat).val) 4) ∧
    (fmt = 3 → s.trapsS s (.accst sd sa sb fmt) k g trapIllegal 4) ∧
    ∀ p ∈ (if fmt = 3 then [(.accld sd sa sb, .accld, 0)] else [(.accld sd sa sb, .accld, 0), (.accst sd sa sb fmt, .accst, fmt.toNat)] : List (Instr × MatKind × Nat)),
      let size := if p.2.2 = 0 then 4 else 2
      let bytes := n * if p.2.2 = 0 then 1024 else 512
      let acc : AccK := { rd := p.2.1 == .accld, wr := p.2.1 == .accst, codecOk := p.2.1 == .accld }
      let check := s.pageChecks k g acc size (bytes + 1) d.val bytes
      (d.pz = true → s.trapsS s p.1 k g { trapPoison d.val size with wr := acc.wr } 4) ∧
      (d.pz = false → n = 0 → s.trapsS s p.1 k g (trapOperand 0) 4) ∧
      (d.pz = false → n ≠ 0 → (s.wgOf g.wg).accUnits < u + n → s.trapsS s p.1 k g (trapOperand (g.sGet sa.toNat).val) 4) ∧
      (d.pz = false → inside → d.val.toNat % size ≠ 0 → s.trapsS s p.1 k g (accTrap 0x07 acc d.val size) 4) ∧
      (d.pz = false → inside → d.val.toNat % size = 0 → check = (s1, some (.trap tr)) → s.trapsS s1 p.1 k g tr 4) ∧
      (d.pz = false → inside → d.val.toNat % size = 0 → check = (s1, some .wait) → exec p.1 s = .next (s1.waitS k)) ∧
      (d.pz = false → inside → d.val.toNat % size = 0 → check = (s1, none) →
        (s1.matRoom (k / 128) 2 = true → registers s1 p.1 p.2.1 d.val p.2.2) ∧
        (s1.matRoom (k / 128) 2 = false → exec p.1 s = .next (s1.waitS k)))

/-- R336, R353, R355, R357, R359: a copy command reads its descriptor once, at issue; when it passes its checks the copy starts under its
tag, with its source and destination ranges locked. Bad descriptors trap, and the command waits, with the descriptor it has read, while
its tag, the sixteen copies of the hearth or the lock table leave no room. That a poisoned descriptor is used as it reads is the
model's choice (log 64). -/
def Obligations.CopyCommands : Prop :=
  ∀ (s s1 : State) (k : Nat) (g : Machine.Group) (sa : BitVec 6) (tag : BitVec 4) (b : List Byte) (pz : Bool) (tr : Trap) (i j : Nat)
    (rest : List Nat), s.stokerAt k g →
    let a := (g.sGet sa.toNat).val
    let h := k / 128
    let g1 := s1.fresh k g
    let reads := g.hnd = none ∧ (g.sGet sa.toNat).pz = false ∧ a.toNat % 32 = 0
    let read := s.readOnce k g a 32
    (g.got = some b → read = (s, .inl (some b))) ∧
    (g.got = none → s.readRange k g a 32 = (s1, .inl (some (b, pz))) → read = (s1, .inl (some b))) ∧
    ∀ p ∈ ([(.cpy sa tag, 0), (.cpy2d sa tag, 1), (.cpyg sa tag, 2)] : List (Instr × Nat)),
      let f := copyF p.2 b
      let legal := f.ok (s1.wgOf g1.wg).scratchBytes (g1.width * g1.kern.priv) = true
      let full := (∃ c ∈ s1.copies, c.wg = g1.wg ∧ c.gidx = g1.gidx ∧ c.tag = tag.toNat) ∨
        16 ≤ (s1.copies.filter fun c => c.hearth == h).length ∨ (s1.freeLocks h).length < 2
      let lock := fun (dst : Bool) (r : Nat × Nat × Nat) (l : Lock) =>
        l.base = (if r.2.2 = 0 then r.1 % 2 ^ 57 else r.1) ∧ l.len = r.2.1 ∧ l.space = copySpace r.2.2 ∧ l.dst = dst ∧ l.kind = 0 ∧
          l.ctx = g1.ctx ∧ l.wg = g1.wg ∧ l.gidx = g1.gidx ∧ l.gslot = k % 128 ∧ l.op = s1.nextId
      (g.hnd ≠ none → s.trapsS s p.1 k g (trapOperand 0) 4) ∧
      (g.hnd = none → (g.sGet sa.toNat).pz = true → s.trapsS s p.1 k g (trapPoison a 32) 4) ∧
      (g.hnd = none → (g.sGet sa.toNat).pz = false → a.toNat % 32 ≠ 0 → s.trapsS s p.1 k g (trapOperand a) 4) ∧
      (reads → read = (s1, .inr tr) → s.trapsS s1 p.1 k g1 tr 4) ∧
      (reads → read = (s1, .inl none) → exec p.1 s = .next (s1.waitS k)) ∧
      (reads → read = (s1, .inl (some b)) →
        (¬ legal → s.trapsS s1 p.1 k g1 (trapOperand a) 4) ∧
        (legal → full → exec p.1 s = .next (s1.setG k { g1 with got := some b, sWait := true })) ∧
        (legal → ¬ full → s1.freeLocks h = i :: j :: rest →
          s.does p.1 fun t => t.grp k = some { g1 with tags := tabSet g1.tags tag.toNat { state := 1 }, got := none, spc := g1.spc + 4 } ∧
            (∀ j, j ≠ k → t.grp j = s1.grp j) ∧
            { t with groups := s1.groups, copies := s1.copies, locks := s1.locks, nextId := s1.nextId } = s1 ∧
            (∃ x y, t.locks = tabSet (tabSet s1.locks (64 * h + i) x) (64 * h + j) y ∧ lock false f.srcRange x ∧ lock true f.dstRange y) ∧
            ∃ c, t.copies = s1.copies ++ [c] ∧ c.id = s1.nextId ∧ c.hearth = h ∧ c.ctx = g1.ctx ∧ c.wg = g1.wg ∧ c.gidx = g1.gidx ∧
              c.tag = tag.toNat ∧ c.kind = p.2 ∧ c.desc = b ∧ c.addr = a ∧ c.done = 0 ∧ c.got = []))

/-- R361–R363: `cpwait` waits while the group's copy of the tag or a matrix operation of the group is in flight; `cpcont` first
retires every block, then goes to its label, or yields until that work has completed; `cpstat` reads the tag's state: its state,
its fault cause and the bytes done. -/
def Obligations.CopyWaits : Prop :=
  ∀ (s : State) (k : Nat) (g g1 : Machine.Group) (sd : BitVec 6) (tag : BitVec 4) (off : BitVec 21), s.stokerAt k g →
    let inFlight := (∃ c ∈ s.copies, c.wg = g.wg ∧ c.gidx = g.gidx ∧ c.tag = tag.toNat) ∨ ∃ m ∈ s.mats, m.wg = g.wg ∧ g.gidx ∈ m.members
    let target := g.spc + 4 * off.signExtend 64
    let x := tabD g.tags tag.toNat {}
    (¬ inFlight → s.becomes (.cpwait tag) k (g.adv 4)) ∧
    (inFlight → s.waitsS s (.cpwait tag) k g) ∧
    (¬ g.inCode target → s.trapsS s (.cpcont tag off) k g (trapOperand target) 4) ∧
    (g.inCode target → s.retireAll g = none → s.waitsS s (.cpcont tag off) k g) ∧
    (g.inCode target → s.retireAll g = some g1 →
      (¬ inFlight → s.becomes (.cpcont tag off) k { g1 with spc := target }) ∧
      (inFlight → s.becomes (.cpcont tag off) k { g1 with yielded := some (tag.toNat, target) })) ∧
    s.putsS s (.cpstat sd tag) k g sd ⟨match x.state with
      | 0 => 0
      | 2 => BitVec.ofNat 64 (2 + 16 * x.fcause + 2 ^ 32 * x.done)
      | n => BitVec.ofNat 64 (n + 2 ^ 32 * x.done), false⟩ 4

/-- R293, R297, R298: `frz` and `thaw` whose range and pages pass their checks are numbered and issued, and sd takes the ticket, kind 1 or 2
with the number below it; a range that is not whole 64 KiB pages traps, as does a page that fails, and 64 unfinished operations make them
wait, and a copy of a line of the pages' entries that is still out (the model's choice, log 77). `tkwt` waits while its operation is
unfinished, and traps on what is no ticket of the context. -/
def Obligations.FreezeCommands : Prop :=
  ∀ (s s1 : State) (k : Nat) (g : Machine.Group) (sd sa sb : BitVec 6) (l : List FrzArg) (tr : Trap) (x : W64), s.stokerAt k g →
    let a := g.sGet sa.toNat
    let b := g.sGet sb.toNat
    let n := b.val.toNat
    let c := tabD s.ctxs g.ctx {}
    let lines := l.map fun x => frzAt c x.ent
    let aligned := a.val.toNat % 65536 = 0 ∧ n ≠ 0 ∧ n % 65536 = 0 ∧ n ≤ 2 ^ 32
    let seq := a.val.toNat % 2 ^ 48
    let kind := a.val.toNat / 2 ^ 48
    let ticket := (kind = 1 ∨ kind = 2) ∧ seq ≠ 0 ∧ seq ≤ c.seq
    (∀ p ∈ ([(.frz sd sa sb, false), (.thaw sd sa sb, true)] : List (Instr × Bool)),
      let check := s.frzChecks k g p.2 a.val n (n / 65536) a.val []
      (a.pz = true ∨ b.pz = true → s.trapsS s p.1 k g (trapPoison 0 0) 4) ∧
      (a.pz = false → b.pz = false → ¬ aligned → s.trapsS s p.1 k g (trapOperand a.val) 4) ∧
      (a.pz = false → b.pz = false → aligned → check = .inr tr → s.trapsS s p.1 k g tr 4) ∧
      (a.pz = false → b.pz = false → aligned → check = .inl l → 64 ≤ c.ops.length → s.waitsS s p.1 k g) ∧
      (a.pz = false → b.pz = false → aligned → check = .inl l → c.ops.length < 64 → (∃ x ∈ lines, s.lineQuiet x = false) →
        exec p.1 s = .next ((s.clearWay lines).waitS k)) ∧
      (a.pz = false → b.pz = false → aligned → check = .inl l → c.ops.length < 64 → (∀ x ∈ lines, s.lineQuiet x = true) →
        s.issueOp g.ctx (dieOf (hearthOf k)) p.2 l = (s1, x) →
        x = BitVec.ofNat 64 ((if p.2 then 2 else 1) * 2 ^ 48 + (c.seq + 1) % 2 ^ 48) ∧
        s.putsS s1 p.1 k g sd ⟨x, false⟩ 4)) ∧
    (a.pz = true → s.trapsS s (.tkwt sa) k g (trapPoison 0 0) 4) ∧
    (a.pz = false → ¬ ticket → s.trapsS s (.tkwt sa) k g (trapOperand a.val) 4) ∧
    (a.pz = false → ticket → (∃ o ∈ c.ops, o.seq = seq) → s.waitsS s (.tkwt sa) k g) ∧
    (a.pz = false → ticket → (∀ o ∈ c.ops, o.seq ≠ seq) → s.becomes (.tkwt sa) k (g.adv 4))

/-- R289, R290: `cdctr` reads counter k of the codec region its address lies in, and `cdclr` clears the five counters; both wait for
the group's earlier accesses, an address outside a region is an illegal operand, and a k above 4 is no instruction. -/
def Obligations.CodecCounters : Prop :=
  ∀ (s s1 : State) (k : Nat) (g : Machine.Group) (sd sa : BitVec 6) (n : BitVec 3) (r : Nat) (tr : Trap), s.stokerAt k g →
    let a := g.sGet sa.toNat
    let at_ := (tabD s1.ctxs g.ctx {}).codectab + 64 * r + 24
    let x := s1.peekNat (at_ + 8 * n.toNat) 8
    (5 ≤ n.toNat → s.trapsS s (.cdctr sd sa n) k g trapIllegal 4) ∧
    (n.toNat < 5 → a.pz = true → s.trapsS s (.cdctr sd sa n) k g (trapPoison a.val 0) 4) ∧
    (a.pz = true → s.trapsS s (.cdclr sa) k g (trapPoison a.val 0) 4) ∧
    (n.toNat < 5 → a.pz = false → s.codecEntry k g a.val false = (s1, .inr tr) → s.trapsS s1 (.cdctr sd sa n) k g tr 4) ∧
    (a.pz = false → s.codecEntry k g a.val true = (s1, .inr tr) → s.trapsS s1 (.cdclr sa) k g tr 4) ∧
    (n.toNat < 5 → a.pz = false → s.codecEntry k g a.val false = (s1, .inl r) → s1.stokerPending g.name 5 = false →
      s.putsS s1 (.cdctr sd sa n) k g sd
        ⟨BitVec.ofNat 64 (if n = 3 then x % 2 ^ 11 else if n = 4 then x % 2 ^ 32 else x), false⟩ 4) ∧
    (a.pz = false → s.codecEntry k g a.val true = (s1, .inl r) → s1.stokerPending g.name 5 = false → Memory.wf s1.mem = true →
      s.does (.cdclr sa) fun t => t.grp k = some (g.adv 4) ∧ (∀ j, j ≠ k → t.grp j = s1.grp j) ∧
        ∀ i, memGet t.mem i = if at_ ≤ i ∧ i < at_ + 40 then 0 else memGet s1.mem i) ∧
    (a.pz = false → s.codecEntry k g a.val true = (s1, .inl r) → s1.stokerPending g.name 5 = true →
      exec (.cdclr sa) s = .next (s1.waitS k)) ∧
    (n.toNat < 5 → a.pz = false → s.codecEntry k g a.val false = (s1, .inl r) → s1.stokerPending g.name 5 = true →
      exec (.cdctr sd sa n) s = .next (s1.waitS k))

/-! ### The privileged instructions, traps and their return -/

/-- R54, R119–R122, R242, R244: in a supervisor handler or a privileged context `ptake` takes the frame at HEAD of its die's pool, `pmap`
maps a held frame, filled with zeros, at an absent first-touch page and returns it to the pool where the page's entry is present already,
`aharv` writes the context's gathered bits to its page tables and nothing else, and `swrd` reads a word of the state window; elsewhere each
raises the privilege trap. A frame goes back to the entry before HEAD, or is held while the ring is full, and the die raises the pool-low
interrupt once as COUNT falls below the mark. While a copy of the entry's line is out `pmap` has it called back and waits, and `aharv` waits
while bits of the context are on their way (R310). A walk or a frame across a dead link makes `pmap` an illegal access (R311).
That an address that is not canonical is an illegal operand is the model's choice (log 62). -/
def Obligations.Privileged : Prop :=
  ∀ (s : State) (k : Nat) (g : Machine.Group) (sd sa sb : BitVec 6) (f x0 : BitVec 52) (rest : List (BitVec 52)) (e pa x : Nat), s.stokerAt k g →
    let a := g.sGet sa.toNat
    let b := g.sGet sb.toNat
    let c := tabD s.ctxs g.ctx {}
    let d := k / 128 / 36
    let p := s.pool d
    let size := max p.ringsize.toNat 1
    let may := g.hnd.isSome = true ∨ c.priv = true
    let others := fun (t : State) => ∀ j, j ≠ k → t.grp j = s.grp j
    let clears := a.pz = false ∧ b.pz = false
    let held := may ∧ clears ∧ b.val = f.setWidth 64 ∧ ∃ x ∈ g.frames, x.1 = f
    let entry := entryFrom s (a.val.toNat % 2 ^ 57) walkLevels 4 c.ptroot
    let cut := s.walkCut d c a.val f.toNat
    let finds := held ∧ canonical a.val = true ∧ cut = false ∧ entry = some (e, pa)
    let past := { g with spc := g.spc + 4, frames := (g.frames.filter (·.1 == f)).drop 1 ++ g.frames.filter (·.1 != f) }
    let same := fun (t : State) (lo n : Nat) => ∀ i, i < lo ∨ lo + n ≤ i → memGet t.mem i = memGet s.mem i
    let free := may ∧ g.frames.length < 4
    let word := may ∧ a.pz = false ∧ a.val.toNat % 8 = 0 ∧ a.val.toNat < 0x20000000
    let tlb := s.tlb.filter (·.ctx == g.ctx)
    let quiet := s.gathering g.ctx = false ∧ ∀ y ∈ tlb, y.ga ≠ none ∨ y.gd ≠ none → s.lineQuiet y.leafPa = true
    -- elsewhere
    (¬ may → ∀ i ∈ ([.ptake sd, .pmap sa sb, .aharv, .swrd sd sa] : List Instr), s.trapsS s i k g trapPrivilege 4) ∧
    -- ptake
    (may → 4 ≤ g.frames.length → s.trapsS s (.ptake sd) k g (trapOperand 0) 4) ∧
    (free → s.poolFrame d = some f → s.does (.ptake sd) fun t =>
      { t with groups := s.groups, pools := s.pools, mem := s.mem, poison := s.poison, cells := s.cells, irqs := s.irqs } = s ∧ others t ∧
      (∃ g', t.grp k = some g' ∧ g'.frames = g.frames ++ [(f, g.hnd.isSome)] ∧ g'.spc = g.spc + 4 ∧
        { g' with s := g.s, spc := g.spc, frames := g.frames } = g ∧
        ∀ n, g'.sGet n = if n = sd.toNat ∧ n ≠ 0 then ⟨f.setWidth 64, false⟩ else g.sGet n) ∧
      (∀ j, j ≠ d → t.pool j = s.pool j) ∧ { t.pool d with head := p.head, count := p.count, low := p.low, held := p.held } = p ∧
      (p.held = [] → s.sameMem t ∧ (t.pool d).head = BitVec.ofNat 64 ((p.head.toNat + 1) % size) ∧ (t.pool d).count = p.count - 1 ∧
        (t.pool d).held = [] ∧
        t.irqs = s.irqs ++ (if (p.count - 1).toNat < p.lowmark.toNat ∧ p.low = false then [5 + d] else [])) ∧
      (p.held = x0 :: rest → Memory.wf s.mem = true → p.head.toNat < size →
        (t.pool d).head = p.head ∧ (t.pool d).count = p.count ∧ (t.pool d).held = rest ∧
        t.peekNat (p.ringbase.toNat + 8 * p.head.toNat) 8 = x0.toNat ∧ same t (p.ringbase.toNat + 8 * p.head.toNat) 8)) ∧
    (free → s.poolFrame d = none → g.hnd = none → s.trapsS s (.ptake sd) k g { code := 0x06, pool := true } 4) ∧
    (free → s.poolFrame d = none → g.hnd ≠ none → s.inFlight g.name = true → s.waitsS s (.ptake sd) k g) ∧
    -- pmap
    (may → ¬ clears → s.trapsS s (.pmap sa sb) k g (trapPoison 0 0) 4) ∧
    (may → clears → (∀ x ∈ g.frames, b.val ≠ x.1.setWidth 64) → s.trapsS s (.pmap sa sb) k g (trapOperand b.val) 4) ∧
    (held → canonical a.val = false ∨ (cut = false ∧ entry = none) → s.trapsS s (.pmap sa sb) k g (trapOperand a.val) 4) ∧
    (held → canonical a.val = true → cut = true → s.trapsS s (.pmap sa sb) k g { code := 0x06, addr := a.val } 4) ∧
    (finds → e % 2 = 0 → e / 64 % 2 = 0 → s.trapsS s (.pmap sa sb) k g (trapOperand a.val) 4) ∧
    (finds → e % 2 = 0 → e / 64 % 2 = 1 → s.lineQuiet pa = false → exec (.pmap sa sb) s = .next ((s.clearWay [pa]).waitS k)) ∧
    (finds → e % 2 = 0 → e / 64 % 2 = 1 → s.lineQuiet pa = true → Memory.wf s.mem = true → s.does (.pmap sa sb) fun t =>
      t.grp k = some past ∧ others t ∧ { t with groups := s.groups, mem := s.mem, poison := s.poison, cells := s.cells } = s ∧
        (∀ i, i < 64 → (t.peekNat pa 8).testBit i =
          if 28 ≤ i then f.getLsbD (i - 12) else i < 2 || ((i ∈ [2, 3, 7] || (9 ≤ i && i ≤ 16)) && e.testBit i)) ∧
        (∀ i, i < pa ∨ pa + 8 ≤ i → memGet t.mem i = if f.toNat ≤ i ∧ i < f.toNat + 65536 then 0 else memGet s.mem i) ∧
        ∀ n, t.poison.contains n = (s.poison.contains n && !(decide (f.toNat ≤ 32 * n) && decide (32 * n + 32 ≤ f.toNat + 65536)))) ∧
    (finds → e % 2 = 1 → s.does (.pmap sa sb) fun t =>
      t.grp k = some past ∧ others t ∧ (∀ j, j ≠ d → t.pool j = s.pool j) ∧
        (p.count = p.ringsize → s.sameMem t ∧ (t.pool d).count = p.count ∧ (t.pool d).head = p.head ∧ (t.pool d).held = p.held ++ [f]) ∧
        (p.count ≠ p.ringsize → Memory.wf s.mem = true →
          let hd := (p.head.toNat + p.ringsize.toNat - 1) % size
          (t.pool d).head = BitVec.ofNat 64 hd ∧ (t.pool d).count = p.count + 1 ∧ (t.pool d).held = p.held ∧
            t.peekNat (p.ringbase.toNat + 8 * hd) 8 = f.toNat ∧ same t (p.ringbase.toNat + 8 * hd) 8)) ∧
    -- aharv
    (may → ¬ quiet → exec .aharv s = .next ((s.harvest g.ctx).waitS k)) ∧
    (may → quiet → Memory.wf s.mem = true → (∀ y ∈ tlb, y.leafPa % 8 = 0) → s.does .aharv fun t =>
      t.grp k = some (g.adv 4) ∧ others t ∧
        { t with groups := s.groups, tlb := s.tlb, mem := s.mem, poison := s.poison, cells := s.cells } = s ∧
        t.tlb.length = s.tlb.length ∧ (∀ y ∈ t.tlb, y.ctx = g.ctx → y.ga = none ∧ y.gd = none) ∧
        (∀ y ∈ tlb, s.peekNat y.leafPa 8 % 4 = 3 → s.peekNat y.leafPa 8 / 2 ^ 28 = y.leaf.toNat / 2 ^ 28 →
          (y.ga ≠ none → (t.peekNat y.leafPa 8).testBit 4 = true) ∧ (y.gd ≠ none → (t.peekNat y.leafPa 8).testBit 5 = true)) ∧
        ∀ i, memGet t.mem i = memGet s.mem i ∨
          (memGet t.mem i ||| 0x30 = memGet s.mem i ||| 0x30 ∧ ∃ y ∈ tlb, y.leafPa = i ∧ (y.ga ≠ none ∨ y.gd ≠ none))) ∧
    -- swrd
    (may → a.pz = true → s.trapsS s (.swrd sd sa) k g (trapPoison 0 0) 4) ∧
    (may → a.pz = false → a.val.toNat % 8 ≠ 0 ∨ 0x20000000 ≤ a.val.toNat → s.trapsS s (.swrd sd sa) k g (trapOperand a.val) 4) ∧
    (word → s.windowWord a.val.toNat = some x → s.putsS s (.swrd sd sa) k g sd ⟨BitVec.ofNat 64 x, false⟩ 4) ∧
    (word → s.windowWord a.val.toNat = none →
      s.does (.swrd sd sa) fun t => ∃ g', t.grp k = some g' ∧ g'.spc = g.spc + 4 ∧ g.sameButS g' ∧ others t ∧
        { t with groups := s.groups, free := s.free } = s ∧
        ∀ n, g'.sGet n = if n = sd.toNat ∧ n ≠ 0 then ⟨Config.freeBits s.free, false⟩ else g.sGet n)

/-- R263, R265, R257: a trap whose cause runs the handler, taken while no handler runs, no result of the group is in flight and HENTRY names a
usable kernel, saves s1–s15, c0–c7, b0–b3, MODE, the stoker PC, m1, v0–v7, the blocks and the resident splits in the frame, resets MODE but
CHK, writes the entry registers s1–s7, and starts the stoker at the handler kernel. A waiting instruction is left unexecuted, its arrival
withdrawn. The frame's 8 KiB lie at HFRAME + 8 KiB × (128 × hearth + group slot), hearths counted through the dies, and no other byte of
memory changes. Nothing is reported to the host. While a result is in flight the trap is raised, with the time of it, and the group stops
until it has come.
The model's choice (log 18): the frame's contents are kept in the state's own copy (Group.hnd), and the 8 KiB then read as free values. -/
def Obligations.HandlerEntry : Prop :=
  ∀ (s : State) (k : Nat) (g : Machine.Group) (t : Trap) (kern : Kern),
    let u := takeTrap s k g t
    let g0 := g.landAll
    let left := fun (n : Nat) (b : Bool) => if g.arrived = some b then n - 1 else n
    let pc : W64 := if t.code = 0x04 ∨ t.code = 0x14 ∨ t.code = 0x15 then g.spc else t.pc.setWidth 64
    let frame := (tabD s.ctxs g.ctx {}).hframe + 8192 * k
    (s.inFlight g.name = true ∨ g.awaits = true →
      u.grp k = some { g with
        sWait := false, launching := none, got := none, arrived := none, wgbars := left g.wgbars false, gbars := left g.gbars true,
        yielded := none, raised := some { t with time := some (t.time.getD s.now) } } ∧
      u.recs = s.recs ∧ u.mem = s.mem ∧ ∀ j, j ≠ k → u.grp j = s.grp j) ∧
    (g.hnd = none → s.inFlight g.name = false → g.awaits = false → toHandler (tabD s.ctxs g.ctx {}) t.code = true →
      s.handlerKern (k / 128 / 36) (tabD s.ctxs g.ctx {}) = some kern →
    { u with
      groups := s.groups, wgs := s.wgs, served := s.served, pend := s.pend, homes := s.homes, mem := s.mem, poison := s.poison,
      cells := s.cells, free := s.free } = s ∧
      (Memory.wf s.mem = true → ∀ a, a < frame ∨ frame + 8192 ≤ a → memGet u.mem a = memGet s.mem a) ∧ (∀ j, j ≠ k → u.grp j = s.grp j) ∧
      (∀ w, tabGet u.wgs g.wg = some w → ∀ p ∈ w.teams, ∀ m ∈ p.2.members, m.1 ≠ g.gidx) ∧
    ∃ g' f, u.grp k = some g' ∧ g'.hnd = some f ∧ g'.spc = 0 ∧ g'.kern = kern ∧ g'.blocks = [] ∧ g'.slot0 = none ∧ g'.slot1 = none ∧
      g'.sWait = false ∧ g'.launching = none ∧ g'.got = none ∧ g'.redo = [] ∧ g'.arrived = none ∧ g'.wgbars = left g.wgbars false ∧ g'.gbars = left g.gbars true ∧
      g'.raised = none ∧
      (∀ i, i < 32 → g'.mode.getLsbD i = if i = 9 then g.mode.getLsbD 9 else decide (i = 0)) ∧
      (∀ p ∈ ([(1, t.addr), (3, t.s3), (5, pc), (6, 0), (7, if t.stoker then 1 else 0)] : List (Nat × W64)), g'.sGet p.1 = ⟨p.2, false⟩) ∧
      (g'.sGet 2).pz = false ∧ (g'.sGet 4).pz = false ∧
      (∀ i, (g'.sGet 2).val.getLsbD i = match i with
        | 0 => t.wr
        | 1 => t.at_
        | 2 => t.stoker && (t.size != 0 || t.code == 0x05)
        | 3 => t.ldv
        | _ => false) ∧
      (t.code < 256 → (g'.sGet 4).val.toNat % 256 = t.code ∧ ∀ i, 8 ≤ i → (g'.sGet 4).val.getLsbD i = match i with
        | 8 => t.malf
        | 9 => t.wr
        | 10 => t.at_
        | 12 => t.ldv
        | 14 => t.pool
        | _ => false) ∧
      (∀ n, 8 ≤ n → g'.sGet n = g.sGet n) ∧ g'.v = g0.v ∧
      { g' with
        s := g.s, v := g.v, mode := g.mode, spc := g.spc, kern := g.kern, hnd := g.hnd, blocks := g.blocks, slot0 := g.slot0,
        slot1 := g.slot1, spilled := g.spilled, sPend := g.sPend, sWait := g.sWait, yielded := g.yielded, launching := g.launching,
        got := g.got, redo := g.redo,
        arrived := g.arrived, wgbars := g.wgbars, gbars := g.gbars, raised := g.raised } = g ∧
      f.spc = g.spc ∧ f.mode = g.mode ∧ f.c = g.c ∧ f.m1 = g.mGet 1 ∧ f.kern = g.kern ∧ f.cause = t ∧ f.redo = g.redo ∧ f.blocks = g.blocks ∧
      f.slot0 = g0.slot0 ∧ f.slot1 = g0.slot1 ∧ f.spilled = g0.spilled ∧
      (∀ n, 1 ≤ n → n ≤ 15 → tabD f.s n {} = g.sGet n) ∧ (∀ n ≤ 3, tabD f.b n {} = tabD g.b n {}) ∧
      (∀ th r, r ≤ 7 → tabD f.v (th * 256 + r) {} = g0.vGet th r) ∧
      (∀ p ∈ f.s, p.1 ≤ 15) ∧ (∀ p ∈ f.b, p.1 ≤ 3) ∧ (∀ p ∈ f.v, p.1 % 256 ≤ 7))

/-- R86, R212, R257, R260, R263–R265: a trap raised in a handler (INH), one no usable handler serves (NOH) and one of queue delivery
suspend the group, whose waiting instruction has not executed, and go to the hearth's coalescer: into the open record of the same context,
cause word and 64 KiB page, whose place the lowest group slot takes, or into a new record. With sixteen in use the new one is held, and
the oldest open one is closed. That an absent page met in a handler keeps its code 0x05 is the model's choice (log 80).
R257: which causes run the handler: the software trap and the absent page always; the illegal access, the limits, the
split-stack and rejoin faults and the imprecise ones never; each other as its HMASK bit says. -/
def Obligations.Escalation : Prop :=
  (∀ (s : State) (k : Nat) (g : Machine.Group) (t : Trap),
     let c := tabD s.ctxs g.ctx {}
     let noh := g.hnd.isNone && toHandler c t.code
     s.inFlight g.name = false → g.awaits = false → g.hnd.isSome ∨ toHandler c t.code = false ∨ s.handlerKern (k / 128 / 36) c = none →
     let u := takeTrap s k g t
     let h := hearthOf k
     let slot := k % 128
     let cause := causeWord t g.hnd.isSome noh false
     let left := fun (n : Nat) (b : Bool) => if g.arrived = some b then n - 1 else n
     let hit := fun (r : Rec) => r.hearth = h ∧ r.closed = false ∧ r.held = false ∧ r.ctx = g.ctx ∧ r.cause = cause ∧
       r.addr.toNat / 65536 = t.addr.toNat / 65536 ∧ t.code ∉ [0x0E, 0x0F, 0x16, 0x17]
     let mine := s.recs.filter fun r => r.hearth == h && !r.held && !r.kept
     let old := mine.find? fun r => !r.closed
     u.grp k = some { g.landAll with
       sWait := false, launching := none, got := none, arrived := none, wgbars := left g.wgbars false, gbars := left g.gbars true,
       yielded := none, raised := none, susp := some t } ∧ (∀ j, j ≠ k → u.grp j = s.grp j) ∧
     { u with
       groups := s.groups, wgs := s.wgs, served := s.served, pend := s.pend, homes := s.homes, recs := s.recs } = s ∧
     ((∀ r ∈ s.recs, ¬ hit r) →
       ∃ r, u.recs = (if 16 ≤ mine.length then s.recs.map fun x => if old = some x then { x with closed := true } else x else s.recs) ++ [r] ∧
         r.hearth = h ∧ r.ctx = g.ctx ∧ r.cause = cause ∧ r.addr = t.addr ∧ r.time = t.time.getD s.now ∧ r.opened = s.now ∧
         r.tmask = t.tmask ∧ r.lpc = t.pc ∧ r.size = t.size ∧ r.stoker = t.stoker ∧ r.closed = false ∧ r.low = slot ∧
         r.held = decide (16 ≤ mine.length) ∧ ∀ i, i < 128 → r.gslots.getLsbD i = decide (i = slot)) ∧
     ((∃ r ∈ s.recs, hit r) →
       u.recs.length = s.recs.length ∧ ∀ (i : Nat) (r : Rec), s.recs[i]? = some r → (¬ hit r → u.recs[i]? = some r) ∧
         (hit r → ∃ r', u.recs[i]? = some r' ∧ (∀ j, j < 128 → r'.gslots.getLsbD j = (r.gslots.getLsbD j || decide (j = slot))) ∧
           if slot < r.low then
             r'.addr = t.addr ∧ r'.tmask = t.tmask ∧ r'.lpc = t.pc ∧ r'.size = t.size ∧ r'.stoker = t.stoker ∧ r'.low = slot ∧
               { r' with gslots := r.gslots, addr := r.addr, tmask := r.tmask, lpc := r.lpc, size := r.size, stoker := r.stoker,
                         low := r.low } = r
           else { r' with gslots := r.gslots } = r))) ∧
  (∀ (c : Ctx) (code : Nat),
     toHandler c code = true ↔ code = 0x04 ∨ code = 0x05 ∨
       (code ∉ [0x06, 0x0C, 0x0D, 0x0E, 0x0F, 0x16, 0x17, 0x18] ∧ c.hmask.getLsbD code = true))

/-- R55, R70, R84, R117: `trap k` takes the software trap past itself, with k as its number; a word that is no instruction raises the
illegal-instruction trap in its stream; a page that cannot be fetched raises the illegal access at its address, for a `slit` unit whose
marker was fetched as for the whole unit. -/
def Obligations.RaisedTraps : Prop :=
  ∀ (s : State) (k slot : Nat) (g : Machine.Group) (sp : Split) (n : BitVec 7),
    (s.stokerAt k g → exec (.trap n) s = .next (takeTrap s k (g.adv 4)
      { code := 0x04, addr := n.setWidth 64, s3 := n.setWidth 64, tmask := fullMask g.width, pc := g.spc.setWidth 32 })) ∧
    (s.stokerAt k g → s.trapsS s .stokerIllegalInstruction k g { code := 0x01 } (s.unitLen k g)) ∧
    (s.laneAt k slot g sp → exec .laneIllegalInstruction s = .next (s.trapL k slot g sp { code := 0x01 } sp.mask)) ∧
    (s.stokerAt k g → s.trapsS s .fetchPageFault k g
      { code := 0x06, addr := BitVec.ofNat 64 s.ev.a, size := 4, malf := s.malformed k g (BitVec.ofNat 64 s.ev.a) }
      (if s.ev.flag then 12 else 4)) ∧
    (s.laneAt k slot g sp → exec .fetchPageFault s = .next (s.trapL k slot g sp
      { code := 0x06, addr := BitVec.ofNat 64 s.ev.a, size := 12, malf := s.malformed k g (BitVec.ofNat 64 s.ev.a) } sp.mask))

/-- R118, R119, R267: `tret` outside a handler raises the privilege trap; in one it waits for the handler's block and accesses, then
restores the frame, and the streams resume at the faulting instruction, or past it when S[6][0] = 1 and the cause allows it; an instruction
that was issuing again after a save is given up then (log 65). A `ptake` of an empty pool abandons the handler. What is restored is the
state's own copy of the frame, whatever memory at HFRAME holds by then: the model's choice (log 18). -/
def Obligations.TrapReturn : Prop :=
  ∀ (s : State) (k : Nat) (g g1 : Machine.Group) (f : HFrame) (sd : BitVec 6), s.stokerAt k g →
    let resumes := f.cause.code = 0x04 ∨ f.cause.code = 0x14 ∨ f.cause.code = 0x15
    let skip := (g1.sGet 6).val.getLsbD 0 = true ∧ ¬ resumes
    let mine := fun (n : Nat) => skip ∧ f.cause.stoker = false ∧ (f.cause.slot = 0 ↔ n = 0)
    let enter := fun (n : Nat) (x : Split) =>
      { x with
        st := if x.st = .rotated then .ready else x.st, rot := 0, waiting := false, pc := if mine n ∧ f.cause.len ≠ 0 then x.pc + 12 else x.pc,
        outs := if mine n ∧ f.cause.len = 0 then (x.outs.filter (·.again)).drop 1 ++ x.outs.filter (!·.again) else x.outs }
    (g.hnd = none → s.trapsS s .tret k g trapPrivilege 4) ∧
    (g.hnd ≠ none → s.retireAll g = none → s.waitsS s .tret k g) ∧
    (g.hnd ≠ none → s.retireAll g = some g1 → s.pending g.name = true → s.waitsS s .tret k g) ∧
    (g.hnd = some f → s.retireAll g = some g1 → s.pending g.name = false →
      keyed f.s (fun n => n ≤ 15) → keyed f.b (fun n => n ≤ 3) → keyed f.v (fun n => n % 256 ≤ 7) →
      s.does .tret fun t => ∃ g', t.grp k = some g' ∧ (∀ j, j ≠ k → t.grp j = s.grp j) ∧
        ((∀ x ∈ g.frames, x.2 = false) → s.sameMem t) ∧ g'.hnd = none ∧ g'.frames = g.frames.filter (fun x => !x.2) ∧
        g'.mode = f.mode ∧ g'.c = f.c ∧ g'.kern = f.kern ∧ g'.blocks = f.blocks ∧ g'.spilled = f.spilled ∧ g'.w = g1.w ∧
        (∀ n, g'.sGet n = if n = 0 then {} else if n ≤ 15 then tabD f.s n {} else g1.sGet n) ∧
        (∀ n, tabD g'.b n {} = if n ≤ 3 then tabD f.b n {} else tabD g1.b n {}) ∧
        (∀ n, g'.mGet n = if n = 1 then f.m1 else g1.mGet n) ∧
        (∀ th r, r < 256 → g'.vGet th r = if r ≤ 7 then tabD f.v (th * 256 + r) {} else g1.vGet th r) ∧
        g'.spc = (if skip ∧ f.cause.stoker = true then f.spc + BitVec.ofNat 64 f.cause.len else f.spc) ∧
        g'.redo = (if skip ∧ f.cause.stoker = true ∧ f.cause.len = 0 then f.redo.drop 1 else f.redo) ∧
        g'.slot0 = f.slot0.map (enter 0) ∧ g'.slot1 = f.slot1.map (enter 1)) ∧
    (g.hnd = some f → g.frames.length < 4 → s.poolFrame (dieOf (hearthOf k)) = none → s.inFlight g.name = false →
      s.does (.ptake sd) fun t => ∃ g', t.grp k = some g' ∧ g'.susp = some { f.cause with code := 0x06, pool := true } ∧ g'.hnd = none ∧
        g'.spc = f.spc ∧ g'.mode = f.mode ∧ g'.c = f.c ∧ g'.blocks = f.blocks ∧ g'.frames = g.frames.filter (fun x => !x.2))

/-! ### The lanes -/

/-- R36, R58, R142: with no outstanding result on its way to a register, A, B and C read a lane register, or the even pair from it for
a 64-bit type; a scalar of the snapshot, its low 32 bits for a narrow type; word 2, sign-extended for `.i64`, zero-extended for `.n64` and
widened exactly from `.f32` for `.f64`; or a special register. The model's choices (log 70): an immediate of `.i16` or `.n16` is the 32
bits as they stand, and a NaN is widened to the canonical NaN. -/
def Obligations.LaneOperands : Prop :=
  ∀ (e : LEnv) (t : Nat) (sel : BitVec 2) (n : BitVec 8), (∀ r, e.sp.coming t r = none) →
    let wide := e.ty = 6 ∨ e.ty = 7 ∨ e.ty = 11
    let reg := fun (r : Nat) => if wide then
        (⟨(e.g.vGet t r).val.toNat + 2 ^ 32 * (e.g.vGet t (r + 1)).val.toNat, (e.g.vGet t r).pz || (e.g.vGet t (r + 1)).pz⟩ : Opd)
      else ⟨(e.g.vGet t r).val.toNat, (e.g.vGet t r).pz⟩
    let x : SReg := if n = 0 then {} else tabD e.snap.s n.toNat {}
    e.opA t = reg e.f.va.toNat ∧
    (sel = 0 → e.src sel n t e.ty = reg n.toNat) ∧
    (sel = 1 → e.src sel n t e.ty = ⟨if wide then x.val.toNat else x.val.toNat % 2 ^ 32, x.pz⟩) ∧
    (sel = 2 → e.ty ≠ 6 → e.ty ≠ 11 → e.src sel n t e.ty = ⟨e.f.w2.toNat, false⟩) ∧
    (sel = 2 → e.ty = 6 → e.src sel n t e.ty = ⟨(e.f.w2.signExtend 64).toNat, false⟩) ∧
    (sel = 2 → e.ty = 11 → e.src sel n t e.ty = ⟨widened e.f.w2.toNat, false⟩) ∧
    (sel = 3 → n = 0 → t < 128 → e.src sel n t e.ty = ⟨t, false⟩) ∧
    (sel = 3 → n.toNat = 0x0E → wide → e.src sel n t e.ty = ⟨e.time, false⟩)

/-- R142, R146–R149: the integer instructions of class 0x0 in the acting threads: exact results wrapped, or clamped with `.sat`;
shifts by any amount; counts, reversals and bit fields; `sel` and `mov` with the tag of what they select. `div` and `rem` are of
long latency. -/
def Obligations.LaneInteger : Prop :=
  ∀ (s : State) (e : LEnv), e.issues s → 4 ≤ e.ty → e.ty ≤ 7 → e.free (tyRegs e.ty) →
    let w := tyBits e.ty
    let signed := e.ty = 4 ∨ e.ty = 6
    let V := intOf e.ty
    let fit := fitTo e.ty (e.f.sat == 1)
    let field := fun (p n : Nat) => if w ≤ p then 0 else min n (w - p)
    let A := e.opA
    let B := e.opB
    let C := e.opC
    (∀ p ∈ ([(.laneAdd e.f, fun a b => fit (V a + V b)), (.laneSub e.f, fun a b => fit (V a - V b)),
        (.laneMul e.f, fun a b => a * b % 2 ^ w), (.laneMulh e.f, fun a b => modPow w (V a * V b / 2 ^ w)),
        (.laneMin e.f, fun a b => if V b < V a then b else a), (.laneMax e.f, fun a b => if V a < V b then b else a),
        (.laneAnd e.f, fun a b => a &&& b), (.laneOr e.f, fun a b => a ||| b), (.laneXor e.f, fun a b => a ^^^ b),
        (.laneShl e.f, fun a n => if w ≤ n then 0 else a * 2 ^ n % 2 ^ w),
        (.laneShr e.f, fun a n => if signed then modPow w (V a / 2 ^ n) else if w ≤ n then 0 else a % 2 ^ w / 2 ^ n)] :
        List (Instr × (Nat → Nat → Nat))),
      e.puts s p.1 (tyRegs e.ty) fun t => ⟨p.2 (A t).x (B t).x, (A t).pz || (B t).pz⟩) ∧
    (∀ p ∈ ([(.laneDiv e.f, fun a b => if V b = 0 then 2 ^ w - 1 else modPow w ((V a).tdiv (V b))),
        (.laneRem e.f, fun a b => if V b = 0 then a % 2 ^ w else modPow w ((V a).tmod (V b)))] : List (Instr × (Nat → Nat → Nat))),
      e.putsLong s p.1 (tyRegs e.ty) fun t => ⟨p.2 (A t).x (B t).x, (A t).pz || (B t).pz⟩) ∧
    (∀ p ∈ ([(.laneAbs e.f, fun a => if signed then modPow w (V a).natAbs else a), (.laneNeg e.f, fun a => modPow w (-V a)),
        (.laneNot e.f, fun a => 2 ^ w - 1 - a), (.lanePopc e.f, fun a => ((List.range w).filter a.testBit).length),
        (.laneClz e.f, fun a => ((List.range w).takeWhile fun i => !a.testBit (w - 1 - i)).length),
        (.laneBswap e.f, fun a => (List.range (w / 8)).foldl (fun x i => 256 * x + a / 256 ^ i % 256) 0),
        (.laneBrev e.f, fun a => (List.range w).foldl (fun x i => 2 * x + a / 2 ^ i % 2) 0)] : List (Instr × (Nat → Nat))),
      e.puts s p.1 (tyRegs e.ty) fun t => ⟨p.2 (A t).x, (A t).pz⟩) ∧
    (∀ p ∈ ([(.laneMad e.f, fun a b c => fit (V a * V b + V c)),
        (.laneBfe e.f, fun a b c =>
          let m := field (b % 256) (c % 256)
          let y := a / 2 ^ (b % 256) % 2 ^ m
          if signed ∧ 0 < m ∧ y.testBit (m - 1) then modPow w ((y : Int) - 2 ^ m) else y),
        (.laneBfi e.f, fun a b c =>
          let q := c % 256
          let m := field q (c / 256 % 256)
          a % 2 ^ w - a / 2 ^ q % 2 ^ m * 2 ^ q + b % 2 ^ m * 2 ^ q)] : List (Instr × (Nat → Nat → Nat → Nat))),
      e.puts s p.1 (tyRegs e.ty) fun t => ⟨p.2 (A t).x (B t).x (C t).x, (A t).pz || (B t).pz || (C t).pz⟩) ∧
    (e.puts s (.laneSel e.f) (tyRegs e.ty) fun t => if (e.g.mGet e.f.vc.toNat).getLsbD t then A t else B t) ∧
    e.puts s (.laneMov e.f) (tyRegs e.ty) B

/-- R126, R146, R149, R151: a compare writes its relation to the mask register in the acting threads; a NaN is equal to nothing and
unordered, the packed forms ask for both halves, and a poisoned source traps for the threads that hold it. -/
def Obligations.LaneCompare : Prop :=
  ∀ (s : State) (e : LEnv), e.issues s →
    let cc := e.f.vc.toNat
    let N := fun (x : Nat) => (fmtD e.ty).decode ((fmtD e.ty).flush (flushOn e.snap.mode e.ty) x)
    let rel := fun (a b : Nat) =>
      let nan := N a = .nan ∨ N b = .nan
      match cc with
      | 0 => ¬ nan ∧ (N a).lt (N b) = false ∧ (N b).lt (N a) = false
      | 1 => nan ∨ (N a).lt (N b) = true ∨ (N b).lt (N a) = true
      | 2 => ¬ nan ∧ (N a).lt (N b) = true
      | 3 => ¬ nan ∧ (N b).lt (N a) = false
      | 4 => ¬ nan ∧ (N b).lt (N a) = true
      | 5 => ¬ nan ∧ (N a).lt (N b) = false
      | 6 => nan
      | _ => ¬ nan
    let bad := fun t => (e.opA t).pz || (e.opB t).pz
    (e.clean bad →
      (4 ≤ e.ty → e.ty ≤ 7 → cc < 6 →
        e.putsM s (.laneCmp e.f) e.f.vd.toNat fun t => relation cc (intOf e.ty (e.opA t).x) (intOf e.ty (e.opB t).x)) ∧
      (∀ p ∈ ([(.laneCmpF32 e.f, 10), (.laneCmpF64 e.f, 11)] : List (Instr × Nat)), e.ty = p.2 → cc < 8 →
        ∃ val : Nat → Bool, (∀ t, val t = true ↔ rel (e.opA t).x (e.opB t).x) ∧ e.putsM s p.1 e.f.vd.toNat val) ∧
      (e.ty = 8 ∨ e.ty = 9 → cc < 8 →
        ∃ val : Nat → Bool, (∀ t, val t = true ↔ rel ((e.opA t).x % 2 ^ 16) ((e.opB t).x % 2 ^ 16) ∧
          rel ((e.opA t).x / 2 ^ 16 % 2 ^ 16) ((e.opB t).x / 2 ^ 16 % 2 ^ 16)) ∧ e.putsM s (.laneCmpPacked e.f) e.f.vd.toNat val)) ∧
    (¬ e.clean bad → ∀ i ∈ ([.laneCmp e.f, .laneCmpF32 e.f, .laneCmpF64 e.f, .laneCmpPacked e.f] : List Instr),
      e.traps s i { code := 0x0B } (maskOf (e.ts.filter bad)))

/-- R125, R126, R129–R131, R133, R150: the floating instructions of classes 0x1 to 0x3: each result is the exact value rounded once
by EffDir, inputs and results flushed as MODE says; the packed forms act on both halves. The sign of a zero that is a product, a quotient,
an underflowed result or a `rint` is the model's choice (log 71). -/
def Obligations.LaneFloat : Prop :=
  ∀ (s : State) (e : LEnv), e.issues s → e.free (tyRegs e.ty) →
    let m := fmtD e.ty
    let d := if e.f.rnd = 0 then e.snap.mode.toNat % 8 else e.f.rnd.toNat
    let fl := m.flush (flushOn e.snap.mode e.ty)
    let V := fun (x : Nat) => m.decode (fl x)
    let R := fun (x : Machine.Num) => fl (roundTo m x d false)
    let sign := m.signBit
    let A := e.opA
    let B := e.opB
    let C := e.opC
    (∀ p ∈ ([(.laneAddF32 e.f, .laneAddF64 e.f, .laneAddPacked e.f, fun a b => R ((V a).add (V b) d)),
        (.laneSubF32 e.f, .laneSubF64 e.f, .laneSubPacked e.f, fun a b => R ((V a).add (V b).flip d)),
        (.laneMulF32 e.f, .laneMulF64 e.f, .laneMulPacked e.f, fun a b => R ((V a).mul (V b))),
        (.laneMinF32 e.f, .laneMinF64 e.f, .laneMinPacked e.f, fun a b => m.minMax false (fl a) (fl b)),
        (.laneMaxF32 e.f, .laneMaxF64 e.f, .laneMaxPacked e.f, fun a b => m.minMax true (fl a) (fl b)),
        (.laneCopysignF32 e.f, .laneCopysignF64 e.f, .laneCopysignPacked e.f, fun a b => fl a % sign + b / sign * sign)] :
        List (Instr × Instr × Instr × (Nat → Nat → Nat))),
      let out := fun (op : Nat → Nat → Nat) (t : Nat) => (⟨op (A t).x (B t).x, (A t).pz || (B t).pz⟩ : Opd)
      (e.ty = 10 → e.puts s p.1 1 (out p.2.2.2)) ∧ (e.ty = 11 → e.puts s p.2.1 2 (out p.2.2.2)) ∧
      (e.ty = 8 ∨ e.ty = 9 → e.puts s p.2.2.1 1 (out (halves2 p.2.2.2)))) ∧
    (∀ p ∈ ([(.laneAbsF32 e.f, .laneAbsF64 e.f, .laneAbsPacked e.f, fun a => fl a % sign),
        (.laneNegF32 e.f, .laneNegF64 e.f, .laneNegPacked e.f, fun a => if sign ≤ fl a then fl a - sign else fl a + sign),
        (.laneRintF32 e.f, .laneRintF64 e.f, .laneRintPacked e.f, fun a =>
          match V a with
          | .nan => m.canonNaN
          | .inf _ => fl a
          | .fin neg k q x =>
            let i := (Num.fin neg k q x).toIntDir d
            fl (if i = 0 then (if neg then sign else 0) else roundTo m (.ofInt i) d false))] :
        List (Instr × Instr × Instr × (Nat → Nat))),
      let out := fun (op : Nat → Nat) (t : Nat) => (⟨op (A t).x, (A t).pz⟩ : Opd)
      (e.ty = 10 → e.puts s p.1 1 (out p.2.2.2)) ∧ (e.ty = 11 → e.puts s p.2.1 2 (out p.2.2.2)) ∧
      (e.ty = 8 ∨ e.ty = 9 → e.puts s p.2.2.1 1 (out (halves1 p.2.2.2)))) ∧
    (let fma := fun a b c => R (((V a).mul (V b)).add (V c) d)
     let out := fun (op : Nat → Nat → Nat → Nat) (t : Nat) => (⟨op (A t).x (B t).x (C t).x, (A t).pz || (B t).pz || (C t).pz⟩ : Opd)
     (e.ty = 10 → e.puts s (.laneFmaF32 e.f) 1 (out fma)) ∧ (e.ty = 11 → e.puts s (.laneFmaF64 e.f) 2 (out fma)) ∧
     (e.ty = 8 ∨ e.ty = 9 → e.puts s (.laneFmaPacked e.f) 1 (out (halves3 fma)))) ∧
    (e.ty = 11 → (e.putsLong s (.laneDivF64 e.f) 2 fun t => ⟨R ((V (A t).x).div (V (B t).x)), (A t).pz || (B t).pz⟩) ∧
      e.putsLong s (.laneSqrtF64 e.f) 2 fun t => ⟨R (V (A t).x).sqrt, (A t).pz⟩) ∧
    (e.ty = 10 → e.putsLong s (.laneDivF32 e.f) 1 fun t => ⟨R ((V (A t).x).div (V (B t).x)), (A t).pz || (B t).pz⟩)

/-- R133, R140, R141, R157: the approximations of class 0x6 write a result that is the special value of R141, or for an ordinary
input the correctly rounded one or one within the bound of R140 (the device's own choice, log 16), flushed as MODE says; `sqrt`
is correctly rounded. `.f16` acts on both halves. That the bound is measured against the fixed-point value approxVal with its tolerance
approxTol is the model's choice (log 35). -/
def Obligations.Approximations : Prop :=
  ∀ (s : State) (e : LEnv), e.issues s → e.free 1 → e.ty = 8 ∨ e.ty = 10 →
    let m := fmtD e.ty
    let d := if e.f.rnd = 0 then e.snap.mode.toNat % 8 else e.f.rnd.toNat
    let fl := m.flush (flushOn e.snap.mode e.ty)
    ∀ p ∈ ([(.rcp e.f, 0), (.rsqrt e.f, 1), (.laneSqrt e.f, 2), (.exp2 e.f, 3), (.log2 e.f, 4), (.sin e.f, 5), (.cos e.f, 6),
        (.tanh e.f, 7)] : List (Instr × Nat)),
      ∃ r : Nat → Nat,
        (e.putsLong s p.1 1 fun t =>
          let a := e.opA t
          ⟨if e.ty = 8 then fl (r (fl (a.x % 2 ^ 16))) + 2 ^ 16 * fl (r (fl (a.x / 2 ^ 16 % 2 ^ 16))) else fl (r (fl a.x)), a.pz⟩) ∧
        ∀ x, match approxSpecial m p.2 (m.decode x) with
          | some y => r x = y
          | none =>
            if p.2 = 2 then r x = roundTo m (m.decode x).sqrt d false
            else
              let y := approxVal p.2 (m.decode x)
              r x = roundTo m y 1 false ∨ m.within (r x) y (approxTol m p.2 (m.decode x) y) = true

/-- R128, R130, R132, R137, R152–R156: conversions between all types, one value or packed elements, and the packed dot products:
integer sums modulo 2^32, floating sums by the fixed tree of single roundings. The model's choices: the index of `unpack` is one 32-bit
value whatever the type (log 30), and the signs of zero products and of underflowed results (log 71). -/
def Obligations.LaneConvert : Prop :=
  ∀ (s : State) (e : LEnv), e.issues s → e.free (tyRegs e.ty) →
    let mode := e.snap.mode
    let d := if e.f.rnd = 0 then mode.toNat % 8 else e.f.rnd.toNat
    let conv := fun (dt st x : Nat) =>
      let x := x % 2 ^ tyBits st
      let sat := e.f.sat == 1 || (mode.getLsbD 8 && decide (tyBits dt < tyBits st))
      let into := fun (m : Fmt) (v : Machine.Num) => m.flush (flushOn mode dt) (roundTo m v d sat)
      let lo : Int := if dt ∈ [0, 2, 4, 6, 15] then -(2 ^ (tyBits dt - 1)) else 0
      let hi : Int := if dt ∈ [0, 2, 4, 6, 15] then 2 ^ (tyBits dt - 1) - 1 else 2 ^ tyBits dt - 1
      match fmtOf st, fmtOf dt with
      | some a, some b => into b (a.decode (a.flush (flushOn mode st) x))
      | some a, none => modPow (tyBits dt) (match a.decode (a.flush (flushOn mode st) x) with
        | .nan => 0
        | .inf neg => if neg then lo else hi
        | v => max lo (min hi (v.toIntDir d)))
      | none, some b => into b (.ofInt (intOf st x))
      | none, none => fitTo dt sat (intOf st x)
    let placed := fun (dt x : Nat) => if dt = 0 ∨ dt = 2 ∨ dt = 15 then modPow 32 (intOf dt x) else x
    let el := fun (ty x j : Nat) => x / 2 ^ (tyBits ty * j) % 2 ^ tyBits ty
    let st := e.f.vc.toNat
    let A := e.opA
    let B := e.opB
    let C := e.opC
    (st < 16 →
      (e.puts s (.cvt e.f) (tyRegs e.ty) fun t =>
        let a := e.reg64 t e.f.va.toNat (tyIs64 st)
        ⟨placed e.ty (conv e.ty st a.x), a.pz⟩) ∧
      (e.puts s (.unpack e.f) (tyRegs e.ty) fun t =>
        let a := e.reg64 t e.f.va.toNat false
        let b := e.src e.f.bsel e.f.vb t 5
        ⟨placed e.ty (conv e.ty st (el st a.x (b.x % (32 / tyBits st)))), a.pz || b.pz⟩) ∧
      (tyRegs e.ty = 1 → ∃ val, e.puts s (.qpack e.f) 1 val ∧ ∀ t, let n := 32 / tyBits st
        let r := fun i => e.reg64 t (e.f.va.toNat + i) false
        (val t).pz = ((r 0).pz || (r 1).pz || (r 2).pz || (r 3).pz) ∧
        ∀ j, j < 4 * n → el e.ty (val t).x j = conv e.ty st (el st (r (j / n)).x (j % n)))) ∧
    (∀ st ∈ (match e.ty with
        | 8 | 9 => [10]
        | 2 => [4]
        | 3 => [5]
        | 12 | 13 => [8]
        | 0 => [2]
        | 1 => [3]
        | 14 => [12]
        | 15 => [0]
        | _ => []),
      ∃ val, e.puts s (.pack e.f) 1 val ∧ ∀ t, let n := 32 / tyBits st
        (val t).pz = ((A t).pz || (B t).pz) ∧
        ∀ j, j < 2 * n → el e.ty (val t).x j = conv e.ty st (if j < n then el st (A t).x j else el st (B t).x (j - n))) ∧
    (let add := fun (x y : Machine.Num) => f32.decode (roundTo f32 (x.add y 1) 1 false)
     let out := fun (op : Nat → Nat → Nat → Nat) (t : Nat) => (⟨op (A t).x (B t).x (C t).x, (A t).pz || (B t).pz || (C t).pz⟩ : Opd)
     let ints := fun (n a b c : Nat) => modPow 32 ((List.range n).foldl (fun z j => z + intOf e.ty (el e.ty a j) * intOf e.ty (el e.ty b j)) (c : Int))
     let prod := fun (a b j : Nat) => ((fmtD e.ty).decode (el e.ty a j)).mul ((fmtD e.ty).decode (el e.ty b j))
     let four := fun (a b j : Nat) => add (add (prod a b j) (prod a b (j + 1))) (add (prod a b (j + 2)) (prod a b (j + 3)))
     let rounded := fun (c : Nat) (x : Machine.Num) => roundTo f32 ((f32.decode c).add x 1) 1 false
     (e.ty = 0 ∨ e.ty = 1 → e.puts s (.dp8x4 e.f) 1 (out (ints 4))) ∧ (e.ty = 15 → e.puts s (.dp4x8 e.f) 1 (out (ints 8))) ∧
     (e.ty = 12 ∨ e.ty = 13 → e.puts s (.dp8x4 e.f) 1 (out fun a b c => rounded c (four a b 0))) ∧
     (e.ty = 14 → e.puts s (.dp4x8 e.f) 1 (out fun a b c => rounded c (add (four a b 0) (four a b 4)))) ∧
     (e.ty = 8 ∨ e.ty = 9 → e.puts s (.dp16x2 e.f) 1 (out fun a b c => rounded c (add (prod a b 0) (prod a b 1)))))

/-- R146, R158–R161: shuffles deliver A of the thread they name, where it acts, else the thread's own; scans combine in thread
order; reductions follow the fixed tree over thread places and reach every acting thread. -/
def Obligations.CrossLane : Prop :=
  ∀ (s : State) (e : LEnv), e.issues s → e.free (tyRegs e.ty) → e.g.width ≤ 128 →
    let A := e.opA
    let B := fun t => e.src e.f.bsel e.f.vb t 5
    let from_ := fun (t u : Nat) => if u ∈ e.ts then A u else A t
    let d := if e.f.rnd = 0 then e.snap.mode.toNat % 8 else e.f.rnd.toNat
    let V := intOf e.ty
    let add := fun (a b : Nat) => if e.ty = 10 then roundTo f32 ((f32.decode a).add (f32.decode b) d) d false else (a + b) % 2 ^ tyBits e.ty
    let least := fun (a b : Nat) => if e.ty = 10 then f32.minMax false a b else if V b < V a then b else a
    let most := fun (a b : Nat) => if e.ty = 10 then f32.minMax true a b else if V a < V b then b else a
    (∀ p ∈ ([(.shflIdx e.f, fun t => from_ t (B t).x), (.shflUp e.f, fun t => if t < (B t).x then A t else from_ t (t - (B t).x)),
        (.shflDown e.f, fun t => from_ t (t + (B t).x)), (.shflXor e.f, fun t => from_ t (t ^^^ (B t).x))] : List (Instr × (Nat → Opd))),
      (e.clean (fun t => (B t).pz) → e.putsLong s p.1 (tyRegs e.ty) p.2) ∧
      (¬ e.clean (fun t => (B t).pz) → e.traps s p.1 { code := 0x0B } (maskOf (e.ts.filter fun t => (B t).pz)))) ∧
    (e.ty = 10 ∨ (4 ≤ e.ty ∧ e.ty ≤ 7) →
      (∀ p ∈ ([(.scanAdd e.f, add), (.scanMin e.f, least), (.scanMax e.f, most)] : List (Instr × (Nat → Nat → Nat))),
        e.putsLong s p.1 (tyRegs e.ty) fun t => Opd.all p.2 ((e.ts.filter (· ≤ t)).map A)) ∧
      (e.putsLong s (.xscanAdd e.f) (tyRegs e.ty) fun t => Opd.all add ((e.ts.filter (· < t)).map A)) ∧
      (∀ p ∈ ([(.redAdd e.f, add), (.redMin e.f, least), (.redMax e.f, most), (.redAnd e.f, fun a b => a &&& b),
          (.redOr e.f, fun a b => a ||| b)] : List (Instr × (Nat → Nat → Nat))),
        e.putsLong s p.1 (tyRegs e.ty) fun _ =>
          (redNode p.2 (fun t => if t ∈ e.ts then some (A t) else none) 7 0).getD ⟨0, false⟩))

/-- R33, R142, R146, R162: `vred`, `vany`, `vall` and `rfl` leave a pending copy in their block for its retirement and write no
register now; with no acting thread none is made. A poisoned vote traps.
R36, R146, R178: the mask operations in the acting threads, `mtov` with the word of the mask that covers the thread, and `vtom`
whose poisoned source traps. A result in m0 is discarded. -/
def Obligations.ToStoker : Prop :=
  (∀ (s : State) (e : LEnv), e.issues s → e.g.width ≤ 128 →
     let A := e.opA
     let n := e.f.vd.toNat
     let d := if e.f.rnd = 0 then e.snap.mode.toNat % 8 else e.f.rnd.toNat
     let V := intOf e.ty
     let add := fun (a b : Nat) => if e.ty = 10 then roundTo f32 ((f32.decode a).add (f32.decode b) d) d false else (a + b) % 2 ^ tyBits e.ty
     let least := fun (a b : Nat) => if e.ty = 10 then f32.minMax false a b else if V b < V a then b else a
     let most := fun (a b : Nat) => if e.ty = 10 then f32.minMax true a b else if V a < V b then b else a
     let bad := fun t => (A t).pz
     (e.ty = 10 ∨ (4 ≤ e.ty ∧ e.ty ≤ 7) →
       ∀ p ∈ ([(.vredAdd e.f, add), (.vredMin e.f, least), (.vredMax e.f, most)] : List (Instr × (Nat → Nat → Nat))),
         ∀ x, redNode p.2 (fun t => if t ∈ e.ts then some (A t) else none) 7 0 = some x →
           e.lands s p.1 (.scalar n ⟨if e.ty = 4 then (BitVec.ofNat 32 x.x).signExtend 64 else BitVec.ofNat 64 x.x, x.pz⟩)) ∧
     (e.clean bad → e.ts ≠ [] →
       e.lands s (.vany e.f) (.cond n (e.ts.any fun t => (A t).x != 0)) ∧ e.lands s (.vall e.f) (.cond n (e.ts.all fun t => (A t).x != 0))) ∧
     (¬ e.clean bad → e.traps s (.vany e.f) { code := 0x0B } (maskOf (e.ts.filter bad)) ∧
       e.traps s (.vall e.f) { code := 0x0B } (maskOf (e.ts.filter bad))) ∧
     (∀ t ∈ e.ts, (∀ u ∈ e.ts, t ≤ u) → e.lands s (.rfl e.f) (.scalar n ⟨BitVec.ofNat 64 (A t).x, (A t).pz⟩)) ∧
     (e.ts = [] → ∀ i ∈ ([.vredAdd e.f, .vredMin e.f, .vredMax e.f, .vany e.f, .vall e.f, .rfl e.f] : List Instr),
       e.puts s i 0 fun _ => ⟨0, false⟩)) ∧
  (∀ (s : State) (e : LEnv), e.issues s →
     let a := e.g.mGet (e.f.va.toNat % 8)
     let b := e.g.mGet (e.f.vb.toNat % 8)
     let n := e.f.vd.toNat % 8
     (∀ p ∈ ([(.mand e.f, fun x y => x && y), (.mor e.f, fun x y => x || y), (.mxor e.f, fun x y => x != y),
         (.mandn e.f, fun x y => x && !y)] : List (Instr × (Bool → Bool → Bool))),
       e.putsM s p.1 n fun t => p.2 (a.getLsbD t) (b.getLsbD t)) ∧
     (e.free 1 → e.puts s (.mtov e.f) 1 fun t => ⟨a.toNat / 2 ^ (32 * (t / 32)) % 2 ^ 32, false⟩) ∧
     (e.clean (fun t => (e.opA t).pz) → e.putsM s (.vtom e.f) n fun t => (e.opA t).x != 0) ∧
     (¬ e.clean (fun t => (e.opA t).pz) → e.traps s (.vtom e.f) { code := 0x0B } (maskOf (e.ts.filter fun t => (e.opA t).pz))))

/-! ### Lane memory access -/

/-- R13, R64, R104, R164, R165: the checks of a lane access over its acting threads in their order: poison, alignment, limit and locks
of the local spaces; of the global space, where each thread's address lies (bN's translation below its limit, else the TLB), illegal
accesses before absent pages, then permission, frozen, thawing and codec pages and locks. A failed check traps for all the threads it
finds, with the lowest one's address. -/
def Obligations.LaneChecks : Prop :=
  ∀ (e : LEnv) (sp : Space) (a : AccK) (size : Nat) (pz : Nat → Bool) (s1 : State) (ok : List LAcc) (bad : List (Nat × Trap)) (t0 : Nat)
    (rest : List Nat) (x : Trap) (more : List (Nat × Trap)),
    let addr := e.addr sp
    let poisoned := fun t => (e.f.vb.getLsbD 6 && (e.reg t e.f.va.toNat).pz) || pz t
    let misaligned := fun t => (addr t).toNat % size != 0
    let trap := fun (s : State) (code : Nat) (at_ : W64) (ts : List Nat) =>
      s.trapL e.k e.slot e.g e.sp { code := code, addr := at_, wr := a.wr, at_ := a.at_, ldv := a.ldv, size := size } (maskOf ts)
    let ends := e.ends sp a size pz
    (∀ t, addr t = (if sp = .glob then e.breg.base else 0) +
      (if e.f.vb.getLsbD 6 then (e.reg t e.f.va.toNat).val.setWidth 64 <<< (e.f.vb.toNat / 16 % 4) else 0) + e.f.w2.signExtend 64) ∧
    (e.ts.filter poisoned = t0 :: rest →
      ends (e.s.trapL e.k e.slot e.g e.sp { code := 0x0B, addr := addr t0, wr := a.wr, at_ := a.at_, size := size } (maskOf (t0 :: rest)))) ∧
    (e.ts.filter poisoned = [] → e.ts.filter misaligned = t0 :: rest → ends (trap e.s 0x07 (addr t0) (t0 :: rest))) ∧
    (e.ts.filter poisoned = [] → e.ts.filter misaligned = [] →
      (sp = .scratch ∨ sp = .priv →
        let limit := if sp = .scratch then (e.s.wgOf e.g.wg).scratchBytes else e.g.kern.priv
        let beyond := fun t => decide (limit < (addr t).toNat + size)
        let cut := fun t => e.s.spaceCut e.k e.g sp t (addr t).toNat size
        let locked := fun t => e.locked sp t size a.wr
        (e.ts.filter beyond = t0 :: rest → ends (trap e.s (if sp = .scratch then 0x0C else 0x0D) (addr t0) (t0 :: rest))) ∧
        (e.ts.filter beyond = [] → e.ts.filter cut = t0 :: rest → ends (trap e.s 0x06 (addr t0) (t0 :: rest))) ∧
        (e.ts.filter beyond = [] → e.ts.filter cut = [] → e.ts.filter locked = t0 :: rest → ends (trap e.s 0x0A (addr t0) (t0 :: rest))) ∧
        (e.ts.filter beyond = [] → e.ts.filter cut = [] → e.ts.filter locked = [] → e.passes sp a size pz e.s (e.ts.map fun t => ⟨t, addr t, none⟩))) ∧
      (sp = .glob → e.locateAll a size e.ts e.s = (s1, ok, bad) →
        let die := dieOf (hearthOf e.k)
        let c := tabD s1.ctxs e.g.ctx {}
        let reach := fun (y : LAcc) => y.tr.all fun r => (!a.rd || r.rd) && (!a.wr || r.wr) && !s1.fenced die (s1.keyOfTr c r) &&
          !(isHost r.pa && r.creg.isNone && !s1.cxl && !a.pcieOk)
        let frozen := fun (y : LAcc) => y.tr.any fun r => a.wr && (r.fst == 1 || r.fst == 3)
        let thawing := fun (y : LAcc) => y.tr.any fun r => a.wr && r.fst == 2
        let codec := fun (y : LAcc) => y.tr.any fun r => r.creg.isSome && !a.codecOk
        let lock := fun (y : LAcc) => s1.conflict (hearthOf e.k) e.g.ctx e.g.wg e.g.gidx .glob (va57 y.va) size a.wr
        let threads := fun (l : List LAcc) => l.map (·.t)
        (∀ y ∈ ok, y.tr.isSome) ∧ (Memory.wf e.s.mem = true → e.s.drift s1) ∧
        (bad.filter (fun b => b.2.code == 0x06) = (t0, x) :: more →
          ends (s1.trapL e.k e.slot e.g e.sp x (maskOf (t0 :: more.map (·.1))))) ∧
        (bad.filter (fun b => b.2.code == 0x06) = [] → bad = (t0, x) :: more →
          ends (s1.trapL e.k e.slot e.g e.sp x (maskOf (t0 :: more.map (·.1))))) ∧
        (bad = [] →
          (∀ y l, ok.filter (fun y => !reach y) = y :: l → ends (trap s1 0x06 y.va (threads (y :: l)))) ∧
          ((∀ y ∈ ok, reach y = true) → ∀ y l, ok.filter frozen = y :: l → ends (trap s1 0x08 y.va (threads (y :: l)))) ∧
          ((∀ y ∈ ok, reach y = true ∧ frozen y = false) → (∃ y ∈ ok, thawing y = true) → ends (s1.waitL e.k e.slot)) ∧
          ((∀ y ∈ ok, reach y = true ∧ frozen y = false ∧ thawing y = false) → ∀ y l, ok.filter codec = y :: l →
            ends (trap s1 0x09 y.va (threads (y :: l)))) ∧
          ((∀ y ∈ ok, reach y = true ∧ frozen y = false ∧ thawing y = false ∧ codec y = false) → ∀ y l, ok.filter lock = y :: l →
            ends (trap s1 0x0A y.va (threads (y :: l)))) ∧
          ((∀ y ∈ ok, reach y = true ∧ frozen y = false ∧ thawing y = false ∧ codec y = false ∧ lock y = false) →
            e.passes sp a size pz s1 ok)))) ∧
    (∀ (s : State) (t : Nat),
      (e.breg.valid = true → e.breg.stale = false → (e.offset t).toNat < e.breg.limit.toNat →
        e.locate s a size t = (s, .inl ⟨t, e.addr .glob t, some (e.breg.tr s (tabD s.ctxs e.g.ctx {}) (e.offset t))⟩) ∧
        (e.breg.tr s (tabD s.ctxs e.g.ctx {}) (e.offset t)).pa = e.breg.frame.toNat + (e.offset t).toNat) ∧
      (e.breg.valid = false ∨ e.breg.stale = true ∨ e.breg.limit.toNat ≤ (e.offset t).toNat →
        (canonical (e.addr .glob t) = false →
          e.locate s a size t = (s, .inr { code := 0x06, addr := e.addr .glob t, wr := a.wr, at_ := a.at_, ldv := a.ldv, size := size })) ∧
        (∀ tr, canonical (e.addr .glob t) = true → s.translate (hearthOf e.k) e.g.ctx (e.addr .glob t) = (s1, .ok tr) →
          e.locate s a size t = (s1, .inl ⟨t, e.addr .glob t, some tr⟩))))

/-- R144, R163–R167, R200, R217, R219, R224, R228: a lane load whose checks pass completes: its result is outstanding for its window, and
each acting thread's registers are to take the bytes of its space, a narrow value extended by its signedness, one register for each word.
It waits where a line must be waited for, or an earlier `ldv` of the split is still to read the bytes; its checks' end is its own, and with
no acting thread it only passes.
The threads read one after the other, each in the state that the one before leaves. Scratchpad bytes are those of the workgroup; private
bytes are those the group has in L1, read there from memory at PB + PrivAddr where L1 has not got the line; global bytes are what a read of
the thread's translated address gives, memory's where L1 holds the line.
R325: values of another module that do not come in time stay outstanding, and the accesses are out. -/
def Obligations.LaneLoads : Prop :=
  (∀ (s : State) (e : LEnv) (s1 s3 s4 x : State) (l : List LAcc) (vs ws : List (LAcc × List Byte × Bool)) (y : LAcc) (tr : Tr), e.issues s →
    ∀ p ∈ laneLoads e.f,
      let sp := p.2.1
      let size := p.2.2.1
      let signed := p.2.2.2
      let words := (size + 3) / 4
      let h := hearthOf e.k
      let s2 := if sp = .scratch then s1.refillFor e.g.wg l size else s1
      let w := s2.wgOf e.g.wg
      let flat := fun (y : LAcc) (i : Nat) => privFlat e.g.width y.t (y.va.toNat + i)
      let inL1 := ∀ y ∈ l, ∀ i < words, ∃ ln ∈ s1.l1Lines h (l1SetOf (physKey (e.g.pb + flat y (4 * i)))),
        ln.kind = .priv ∧ ln.key = physKey (e.g.pb + flat y (4 * i))
      let pass := e.passes sp accLoad size (fun _ => false) s1 l
      let behind := ∃ o ∈ e.sp.outs, o.complete = false ∧ ∃ r ∈ e.loadParts sp l size signed, o.reads r = true
      let goes := pass ∧ l ≠ [] ∧ ¬ behind
      let read := goes ∧ e.readAll sp size l s2 = (s3, some vs)
      let lost := e.lostLoads s3 l size
      let owes := fun (u : State) (us : List (LAcc × List Byte × Bool)) => (e.in_ u).owes s p.1 words (broughtTo size signed us)
      let free := e.free words ∧ s1.grp e.k = some e.g ∧ s1.recording e.g.ctx = false
      let alone := (∀ q ∈ s1.pend, q.owner ≠ some e.g.name) ∧ ∀ q ∈ s1.served, q.who ≠ s1.reader
      (e.ends sp accLoad size (fun _ => false) x → exec p.1 s = .next x) ∧
      (pass → l = [] → ({ e with s := s1 } : LEnv).puts s p.1 0 fun _ => ⟨0, false⟩) ∧
      (pass → l ≠ [] → behind → exec p.1 s = .next (s1.waitL e.k e.slot)) ∧
      (goes → e.readAll sp size l s2 = (s3, none) → exec p.1 s = .next (s3.waitL e.k e.slot)) ∧
      (read → e.logReads s3 lost vs = (s4, none) → exec p.1 s = .next (s4.waitL e.k e.slot)) ∧
      (read → vs.map (·.1) = l ∧ s2.drift s3 ∧ (∀ y, s2.grp e.k = some y → ∃ y', s3.grp e.k = some y' ∧ y.sameButL1 y')) ∧
      (s3.recording e.g.ctx = false → lost = [] → e.logReads s3 lost vs = (s3, some vs)) ∧
      (read → e.logReads s3 lost vs = (s4, some ws) → e.free words → s4.grp e.k = some (e.in_ s4).g → e.g.sameButL1 (e.in_ s4).g →
        (lost = [] → owes s4 ws) ∧
        (lost ≠ [] → s.does p.1 fun t => t.pend = s4.pend ++ lost ∧ s4.sameMem t ∧ ∃ o,
          t.grp e.k = some ((e.in_ s4).g.setSplit e.slot (some { e.sp.past s4.nextId with outs := (e.sp.past s4.nextId).outs ++ [o] })) ∧
          o.left = e.f.la.toNat ∧ ∀ v ∈ o.vals, v.val = none ↔ lostIn lost v.t = true)) ∧
      -- completion, with the bytes
      (goes → free → sp = .scratch →
        owes s2 (l.map fun y => (y, (List.range size).map (fun i => w.spByte (y.va.toNat + i)), w.spPoisoned y.va.toNat size))) ∧
      (goes → free → sp = .priv → ∃ u us, e.readAll sp size l s1 = (u, some us) ∧ owes u us) ∧
      (goes → free → sp = .priv → inL1 → ∃ u, { u with l1 := s1.l1 } = s1 ∧
        owes u (l.map fun y => (y, (List.range size).map (fun i => e.g.privByte (flat y i)), (List.range size).any fun i =>
          e.g.privPz.contains (flat y i / 32)))) ∧
      (goes → free → sp = .glob → alone →
        (∀ y ∈ l, ∃ tr, y.tr = some tr ∧ tr.creg = none ∧ (s1.l1Copy h (physKey tr.pa) (s1.frozenGen (physKey tr.pa))).isSome ∧
          (∀ ln ∈ s1.l1Lines h (l1SetOf (physKey tr.pa)), ln.key = physKey tr.pa → ln.pz = 0) ∧
          ∀ i < size, s1.poison.contains ((tr.pa + i) / 32) = false) →
        ∃ u, { u with l1 := s1.l1 } = s1 ∧
          owes u (l.map fun y => (y, (List.range size).map (fun i => memGet s1.mem ((y.tr.map (·.pa)).getD 0 + i)), false))) ∧
      (goes → free → sp = .glob → alone → l = [y] → y.tr = some tr → tr.creg = none → isOther tr.pa = false →
        s1.readWaits h (physKey tr.pa) = false →
        ∃ u b, s1.readBytes h (tabD s1.ctxs e.g.ctx {}) e.g.name tr size = (u, some b) ∧ owes u [(y, b)])) ∧
  -- the threads read in turn
  (∀ (e : LEnv) (sp : Space) (size : Nat) (y : LAcc) (r : List LAcc) (u u' : State) (b : List Byte × Bool) (tr : Tr),
    let w := u.wgOf e.g.wg
    let touched := (List.range ((size + 3) / 4)).foldl (fun v i => v.touchPriv e.k (privFlat e.g.width y.t (y.va.toNat + 4 * i)) false) u
    let g := touched.fresh e.k e.g
    let flat := fun (i : Nat) => privFlat g.width y.t (y.va.toNat + i)
    e.readAll sp size [] u = (u, some []) ∧
    (e.readOne sp size u y = (u', none) → e.readAll sp size (y :: r) u = (u', none)) ∧
    (e.readOne sp size u y = (u', some b) → e.readAll sp size (y :: r) u =
      ((e.readAll sp size r u').1, (e.readAll sp size r u').2.map fun us => (y, b) :: us)) ∧
    (y.tr = some tr → e.readOne .glob size u y = u.readBytes (hearthOf e.k) (tabD u.ctxs e.g.ctx {}) e.g.name tr size) ∧
    e.readOne .scratch size u y =
      (u, some ((List.range size).map fun i => w.spByte (y.va.toNat + i), w.spPoisoned y.va.toNat size)) ∧
    e.readOne .priv size u y = (touched, some ((List.range size).map fun i => g.privByte (flat i), (List.range size).any fun i =>
      g.privPz.contains (flat i / 32)))) ∧
  -- a private line in L1, and one that is brought in from memory
  ∀ (u : State) (k x a : Nat) (g : Machine.Group), u.grp k = some g → g.pb % 128 = 0 →
    let key := physKey (g.pb + x)
    let lines := u.l1Lines (hearthOf k) (l1SetOf key)
    let here := ∃ ln ∈ lines, ln.kind = .priv ∧ ln.key = key
    let v := u.touchPriv k x false
    (here → v.grp k = some g) ∧
    (¬ here → (∀ ln ∈ lines, ln.kind = .priv → ln.key % 256 = 0) → x / 128 ∈ g.privBack → a / 128 = x / 128 → a < g.areaBytes →
      u.poison.contains ((g.pb + a) / 32) = false → g.privPz.contains (a / 32) = false → (tabD u.cells ((g.pb + a) / 128) 0).toNat < 8 →
      ∃ g', v.grp k = some g' ∧ g.sameButL1 g' ∧ g'.privByte a = memGet u.mem (g.pb + a))

/-- R144, R163–R168, R217, R220, R228: a lane store whose checks pass and that overlaps no outstanding load puts each byte of the
acting threads, the highest thread's where several write one: in the scratchpad or private memory at once, or on its way to the
homes of the global lines, or at once in lines lent to the hearth (R233); bytes of a codec region go block by block (R168, R282). Poison
goes with the bytes (R317). A release first waits for the group's earlier accesses and the split's own loads. No register changes. -/
def Obligations.LaneStores : Prop :=
  ∀ (s : State) (e : LEnv) (s1 x : State) (l : List LAcc) (n : Nat), e.issues s →
    ∀ p ∈ laneStores e.f,
      let sp := p.2.1
      let size := p.2.2
      let data := e.storeData size
      let bound := e.sp.bound.getD s1.nextId
      let scope := if sp = .glob then e.f.rnd.toNat else if sp = .scratch then min e.f.rnd.toNat 1 else 0
      let waits := e.f.sat = 1 ∧ (s1.pendingBelow e.g.name e.blk bound scope = true ∨
        (scope ≠ 0 ∧ ∃ o ∈ e.sp.outs, o.isLoad = true ∧ o.arrived s1.clk = false))
      let flat := fun (y : LAcc) (i : Nat) => privFlat e.g.width y.t (y.va.toNat + i)
      let inL1 := ∀ y ∈ l, ∀ i < size, ∃ ln ∈ s1.l1Lines (hearthOf e.k) (l1SetOf (physKey (e.g.pb + flat y i))),
        ln.kind = .priv ∧ ln.key = physKey (e.g.pb + flat y i)
      let pass := e.passes sp (accStore (decide (8 ≤ size))) size (fun _ => false) s1 l
      let past := e.g.setSplit e.slot (some (e.sp.past s1.nextId))
      (e.ends sp (accStore (decide (8 ≤ size))) size (fun _ => false) x → exec p.1 s = .next x) ∧
      (pass → waits → s.does p.1 fun t => s1.sameBut t e.k ∧
        t.grp e.k = some (e.g.setSplit e.slot (some { e.sp with bound := some bound, waiting := true }))) ∧
      (pass → ¬ waits → (∀ o ∈ e.sp.outs, o.reqs = []) →
        (sp = .scratch →
          let at_ := storedAt (fun y i => y.va.toNat + i) data l
          ∀ w, tabGet s1.wgs e.g.wg = some w → (∀ y ∈ l, w.missing y.va.toNat size = none) →
          s.does p.1 fun t => t.grp e.k = some past ∧ (∀ j, j ≠ e.k → t.grp j = s1.grp j) ∧
            { t with groups := s1.groups, wgs := s1.wgs, free := s1.free } = s1 ∧ (∀ j, j ≠ e.g.wg → tabGet t.wgs j = tabGet s1.wgs j) ∧
            ∃ w', tabGet t.wgs e.g.wg = some w' ∧ { w' with sp := w.sp, spPz := w.spPz, pages := w.pages } = w ∧
              marksAfter at_ w.spPz w'.spPz ∧
              ∀ a, w'.spPz.contains (a / 32) = false → w'.spByte a = ((at_ a).map (·.1)).getD (w.spByte a)) ∧
        (sp = .priv → s.does p.1 fun t => s1.drift t ∧ t.pend = s1.pend ∧
          (∃ g', t.grp e.k = some g' ∧ past.sameButL1 g') ∧
          ∀ j y, j ≠ e.k → s1.grp j = some y → ∃ y', t.grp j = some y' ∧ y.sameButL1 y') ∧
        (sp = .priv → inL1 → e.g.pb % 128 = 0 →
          let at_ := storedAt flat data l
          s.does p.1 fun t => ∃ g', t.grp e.k = some g' ∧ (∀ j, j ≠ e.k → t.grp j = s1.grp j) ∧ s1.sameMem t ∧ t.pend = s1.pend ∧
            { g' with priv := e.g.priv, privPz := e.g.privPz } = past ∧ marksAfter at_ e.g.privPz g'.privPz ∧
            ∀ a, g'.privPz.contains (a / 32) = false → g'.privByte a = ((at_ a).map (·.1)).getD (e.g.privByte a)) ∧
        (sp = .glob → (∀ y ∈ l, ∃ tr, y.tr = some tr ∧ tr.creg = none ∧ ∀ i < size, s1.lentTo (hearthOf e.k) (physKey (tr.pa + i)) = false) →
          let at_ := storedAt (fun y i => (y.tr.map (·.pa)).getD 0 + i) data l
          Memory.wf s1.mem = true →
          s.does p.1 fun t => t.grp e.k = some past ∧ (∀ j, j ≠ e.k → t.grp j = s1.grp j) ∧ s1.drift t ∧
            ∃ ad qs, t.pend = s1.pend ++ ad ++ qs ∧ (∀ q ∈ ad, q.gathers) ∧
              (∀ q ∈ qs, q.owner = some e.g.name ∧ q.blk = e.blk ∧ q.arrived = false ∧ q.acq = false ∧
                ∃ pa d z, q.kind = .store pa d z ∧ q.key = physKey pa ∧ pa / 128 = (pa + (d.length - 1)) / 128 ∧
                  ∀ i < d.length, ∃ b, d[i]? = some b ∧ at_ (pa + i) = some (b, z)) ∧
              ∀ a b z, at_ a = some (b, z) → ∃ q ∈ qs, ∃ pa d, q.kind = .store pa d z ∧ pa ≤ a ∧ a < pa + d.length ∧ d[a - pa]? = some b) ∧
        (sp = .glob → (∀ y ∈ l, ∃ tr, y.tr = some tr ∧ tr.creg = none ∧ ∀ i < size,
            s1.lentTo (hearthOf e.k) (physKey (tr.pa + i)) = true ∧ tabGet s1.l2 (keyPa (physKey (tr.pa + i))) ≠ none) →
          (∀ y ∈ l, (data y.t).2 = false) → Memory.wf s1.mem = true →
          s.does p.1 fun t => t.grp e.k = some past ∧ (∀ j, j ≠ e.k → t.grp j = s1.grp j) ∧
            (∃ ad, t.pend = s1.pend ++ ad ∧ ∀ q ∈ ad, q.gathers) ∧
            ∀ a, match storedAt (fun y i => (y.tr.map (·.pa)).getD 0 + i) data l a with
              | some b => memGet t.mem a = b.1
              | none => memGet t.mem a ||| 0x30 = memGet s1.mem a ||| 0x30) ∧
        (sp = .glob → (∀ y ∈ l, ∃ tr, y.tr = some tr ∧ tr.creg = some n) → (∀ i, s1.lentTo (hearthOf e.k) (2 * i + 1) = false) →
          Memory.wf s1.mem = true →
          let bytes := e.storeBytes l size fun y i => (y.tr.map (·.pa)).getD 0 + i
          let blocks := (bytes.map fun b => b.1 / 32).foldl addOnce []
          s.does p.1 fun t => t.grp e.k = some past ∧ (∀ j, j ≠ e.k → t.grp j = s1.grp j) ∧ s1.drift t ∧
            ∃ ad qs, t.pend = s1.pend ++ ad ++ qs ∧ (∀ q ∈ ad, q.gathers) ∧
              (∀ q ∈ qs, q.owner = some e.g.name ∧ q.blk = e.blk ∧ q.arrived = false ∧ q.acq = false) ∧
              qs.map (fun q => (q.kind, q.key)) = blocks.map fun i =>
                (.codecStore e.g.ctx n (bytes.filter fun b => b.1 / 32 == i), codecKey (t.region (tabD s1.ctxs e.g.ctx {}) n) (32 * i))))

/-- R144, R146, R169, R170, R228: a lane atomic with poisoned data, or an `acas` with a poisoned comparand, traps; one whose checks
pass sends each thread's operation to its home in thread order, its old values outstanding, an `aadd.f64` of a codec region block by block
(R284), or acts on the scratchpad in thread order, each thread on the state that the one before leaves, and brings the old values at once.
A release first waits. The operations write what R102 and R169 say. -/
def Obligations.LaneAtomics : Prop :=
  ∀ (s : State) (e : LEnv) (s1 x : State) (l : List LAcc) (n : Nat), e.issues s → e.free (tyRegs e.ty) →
    (∀ p ∈ laneAtomics e.f,
      let w := tyBits e.ty / 8
      let sp : Space := if e.f.sp = 0 then .glob else .scratch
      let acc := accAtomic (p.2 == 0 && e.ty == 11) (pcieAtomic p.2 e.ty)
      let pz := fun t => (e.opC t).pz || (p.2 == 7 && (e.comparand t).pz)
      let scope := if sp = .glob then e.f.rnd.toNat else min e.f.rnd.toNat 1
      let bound := e.sp.bound.getD s1.nextId
      let waits := 2 ≤ e.f.ord.toNat ∧ (s1.pendingBelow e.g.name e.blk bound scope = true ∨
        (scope ≠ 0 ∧ ∃ o ∈ e.sp.outs, o.isLoad = true ∧ o.arrived s1.clk = false))
      let turn := fun (u : State × List (Nat × Opd)) (y : LAcc) =>
        let r := u.1.scratchAtomic e.g.wg y.va.toNat w p.2 e.ty (e.opC y.t).x (e.comparand y.t).x
        (r.1, u.2 ++ [(y.t, r.2)])
      let all := l.foldl turn (s1.refillFor e.g.wg l w, [])
      (e.ends sp acc w pz x → exec p.1 s = .next x) ∧
      (e.passes sp acc w pz s1 l → waits → s.does p.1 fun t => s1.sameBut t e.k ∧
        t.grp e.k = some (e.g.setSplit e.slot (some { e.sp with bound := some bound, waiting := true }))) ∧
      (e.passes sp acc w pz s1 l → ¬ waits → sp = .scratch →
        ({ e with s := all.1 } : LEnv).putsLong s p.1 (tyRegs e.ty) fun t => ((all.2.find? (·.1 == t)).map (·.2)).getD ⟨0, false⟩) ∧
      (e.passes sp acc w pz s1 l → ¬ waits → sp = .glob → l = [] → e.puts s p.1 0 fun _ => ⟨0, false⟩) ∧
      (e.passes sp acc w pz s1 l → ¬ waits → sp = .glob → l ≠ [] → Memory.wf s1.mem = true →
        (∀ y ∈ l, ∃ tr, y.tr = some tr ∧ tr.creg = none ∧ s1.lentTo (hearthOf e.k) (physKey tr.pa) = false) →
        s.does p.1 fun t => ∃ o ad qs, s1.drift t ∧ (∀ j, j ≠ e.k → t.grp j = s1.grp j) ∧
          t.grp e.k = some (e.g.setSplit e.slot
            (some { e.sp.past s1.nextId with outs := (e.sp.past s1.nextId).outs ++ [o] })) ∧
          o.id = s1.nextId ∧ o.left = e.f.la.toNat ∧
          (∀ th r v, (⟨th, r, v⟩ ∈ o.vals) ↔ th ∈ e.ts ∧ e.f.vd.toNat ≤ r ∧ r < e.f.vd.toNat + tyRegs e.ty ∧ v = none) ∧
          t.pend = s1.pend ++ ad ++ qs ∧ (∀ q ∈ ad, q.gathers) ∧ qs.length = l.length ∧
          ∀ (i : Nat) (y : LAcc) (q : Pend) (tr : Tr), l[i]? = some y → qs[i]? = some q → y.tr = some tr →
            q.owner = some e.g.name ∧ q.blk = e.blk ∧ q.arrived = false ∧ q.key = physKey tr.pa ∧
            q.acq = (e.f.ord.getLsbD 0 && e.f.rnd != 0) ∧
            q.kind = .atomic tr.pa w p.2 e.ty (BitVec.ofNat 64 (e.opC y.t).x) (BitVec.ofNat 64 (e.comparand y.t).x)
              (.lane o.id y.t e.f.vd.toNat)) ∧
      (e.passes sp acc w pz s1 l → ¬ waits → sp = .glob → l ≠ [] → p.2 = 0 → Memory.wf s1.mem = true →
        (∀ y ∈ l, ∃ tr, y.tr = some tr ∧ tr.creg = some n) → (∀ i, s1.lentTo (hearthOf e.k) (2 * i + 1) = false) →
        let off := fun (y : LAcc) => (y.tr.map (·.pa)).getD 0
        let blocks := (l.map fun y => off y / 32).foldl addOnce []
        s.does p.1 fun t => ∃ o ad qs, s1.drift t ∧ (∀ j, j ≠ e.k → t.grp j = s1.grp j) ∧
          t.grp e.k = some (e.g.setSplit e.slot
            (some { e.sp.past s1.nextId with outs := (e.sp.past s1.nextId).outs ++ [o] })) ∧
          o.id = s1.nextId ∧ o.left = e.f.la.toNat ∧
          (∀ th r v, (⟨th, r, v⟩ ∈ o.vals) ↔ th ∈ e.ts ∧ e.f.vd.toNat ≤ r ∧ r < e.f.vd.toNat + tyRegs e.ty ∧ v = none) ∧
          t.pend = s1.pend ++ ad ++ qs ∧ (∀ q ∈ ad, q.gathers) ∧
          (∀ q ∈ qs, q.owner = some e.g.name ∧ q.blk = e.blk ∧ q.arrived = false ∧ q.acq = (e.f.ord.getLsbD 0 && e.f.rnd != 0)) ∧
          qs.map (fun q => (q.kind, q.key)) = blocks.map fun i =>
            (.codecAdd e.g.ctx n ((l.filter fun y => off y / 32 == i).map fun y =>
              { off := off y, x := BitVec.ofNat 64 (e.opC y.t).x, dst := .lane o.id y.t e.f.vd.toNat }),
              codecKey (t.region (tabD s1.ctxs e.g.ctx {}) n) (32 * i))) ∧
      (e.passes sp acc w pz s1 l → ¬ waits → sp = .glob → l ≠ [] → Memory.wf s1.mem = true → s1.keyOf e.g.name = some e.k →
        (∀ y ∈ l, ∃ tr, y.tr = some tr ∧ tr.creg = none ∧ s1.lentTo (hearthOf e.k) (physKey tr.pa) = true) →
        let past := e.sp.past s1.nextId
        s.does p.1 fun t => (∃ ad, t.pend = s1.pend ++ ad ∧ ∀ q ∈ ad, q.gathers) ∧ (∀ j, j ≠ e.k → t.grp j = s1.grp j) ∧
          (∃ g' sp' o, t.grp e.k = some g' ∧ g'.split e.slot = some sp' ∧ { sp' with outs := past.outs } = past ∧ o ∈ sp'.outs ∧
            o.id = s1.nextId ∧ o.left = e.f.la.toNat ∧ (∀ v ∈ o.vals, v.val ≠ none) ∧
            ∀ th r, (∃ v ∈ o.vals, v.t = th ∧ v.r = r) ↔ th ∈ e.ts ∧ e.f.vd.toNat ≤ r ∧ r < e.f.vd.toNat + tyRegs e.ty) ∧
          ∀ (y : LAcc) (tr : Tr), l = [y] → y.tr = some tr → tabGet s1.l2 (keyPa (physKey tr.pa)) ≠ none →
            s1.poisoned tr.pa w = false → (∀ x ∈ s1.tlb, x.leafPa + 8 ≤ tr.pa ∨ tr.pa + w ≤ x.leafPa) →
            let old := s1.peekNat tr.pa w
            t.peekNat tr.pa w =
              (atomicNew p.2 e.ty w old ((e.opC y.t).x % 2 ^ 64) ((e.comparand y.t).x % 2 ^ 64)).getD old % 2 ^ (8 * w))) ∧
    (∀ (g off w op ty a c : Nat), (s.wgOf g).spPoisoned off w = false →
      (s.scratchAtomic g off w op ty a c).2 = ⟨leNat ((s.wgOf g).spRead off w), false⟩ ∧
      (s.scratchAtomic g off w op ty a c).1 = match atomicNew op ty w (leNat ((s.wgOf g).spRead off w)) a c with
        | some new => s.modWg g fun w' => w'.spWrite off (leBytes w new) false
        | none => s) ∧
    ∀ (ty w old a c : Nat), (ty = 4 ∨ ty = 5) ∧ w = 4 ∨ (ty = 6 ∨ ty = 7) ∧ w = 8 → old < 2 ^ (8 * w) → a < 2 ^ (8 * w) → c < 2 ^ (8 * w) →
      let V := intOf ty
      atomicNew 0 ty w old a c = some ((old + a) % 2 ^ (8 * w)) ∧ atomicNew 1 ty w old a c = some (if V a < V old then a else old) ∧
      atomicNew 2 ty w old a c = some (if V old < V a then a else old) ∧ atomicNew 3 ty w old a c = some (old &&& a) ∧
      atomicNew 4 ty w old a c = some (old ||| a) ∧ atomicNew 5 ty w old a c = some (old ^^^ a) ∧ atomicNew 6 ty w old a c = some a ∧
      (old = c → atomicNew 7 ty w old a c = some a) ∧ (old ≠ c → atomicNew 7 ty w old a c = none) ∧
      (w = 4 → atomicNew 0 10 w old a c = some (roundTo f32 ((f32.decode old).add (f32.decode a) 1) 1 false) ∧
        atomicNew 1 10 w old a c = some (f32.minMax false old a) ∧ atomicNew 2 10 w old a c = some (f32.minMax true old a) ∧
        atomicNew 8 10 w old a c = some (f32.minMax true old (a % 2 ^ 31))) ∧
      (w = 8 → atomicNew 0 11 w old a c = some (roundTo f64 ((f64.decode old).add (f64.decode a) 1) 1 false))

/-- R142, R171, R181, R191–R193, R227: `ldv` checks its operands, its view and its rows before any thread has an effect. Then its result is
outstanding for its window, and it makes one lookup for each token. A live view line is a hit: its lines become the most recently used of
their sets, and each acting thread that reads the row has the element at its column, beside a zero word for an `.f32` output. A projection
of the tag under way is joined. Else a projection starts, which registers its range at once where the table has room and no older miss of
the hearth waits for it. A group whose own store to the row's lines is not performed misses. It waits while an earlier `ldv` of the split
is still to read the bytes and would be overtaken. With no acting thread it only passes. ADDR and SIZE of its traps for poison and for a
range lock are the model's choices (log 80). -/
def Obligations.ViewLoad : Prop :=
  ∀ (s : State) (e : LEnv) (s1 : State) (ill abs_ cod : List (Nat × Trap)) (t0 : Nat) (x : Trap) (more : List (Nat × Trap)) (ts : List Nat)
    (token n id : Nat) (v : LdvWait) (l : List L1Line) (r : List Byte × Bool) (g' : Machine.Group), e.issues s →
    let i : Instr := .ldv e.f
    let h := hearthOf e.k
    let w := tabD e.snap.w (e.f.vc.toNat % 8) {}
    let d := vdesc w.desc.toNat
    let q : LdvEnv := ⟨e, w, d⟩
    let tok := fun t => (e.reg t e.f.va.toNat).val.toNat
    let col := fun t => (e.opB t).x
    let poisoned := fun t => (e.reg t e.f.va.toNat).pz || (e.opB t).pz
    let wide := fun t => decide (d.width ≤ col t)
    let unbound := w.bound = false ∨ (d.ofmt = 10 ∧ (e.f.vd.toNat % 2 = 1 ∨ (e.g.kern.vregs + 7) / 8 * 8 ≤ e.f.vd.toNat + 1))
    let row := fun (token : Nat) => d.base + BitVec.ofNat 64 (token * d.stride)
    let locked := fun t => s1.conflict h e.g.ctx e.g.wg e.g.gidx .glob (va57 (row (tok t))) d.rowBytes false
    let tokens := (e.ts.map tok).foldl addOnce []
    let words := if d.ofmt = 10 then 2 else 1
    let size := tyBits d.ofmt / 8
    let fits := e.ts ≠ [] ∧ e.ts.filter poisoned = [] ∧ ¬ unbound ∧ e.ts.filter wide = []
    let trap := fun (s : State) (y : Trap) (ts : List Nat) => exec i s = .next (s1.trapL e.k e.slot e.g e.sp y (maskOf ts))
    let behind := fun (token : Nat) => ∃ o ∈ e.sp.outs, o.complete = false ∧
      (∃ a ∈ o.span, ∃ b ∈ q.span s1 token, overlaps a.1 a.2 b.1 b.2 = true) ∧
      ((∃ l, q.find s1 token = .line l) ∨ ∀ y ∈ o.ldvs, ¬ (y.2.2.1 = token ∧ y.2.2.2.2 = e.f.vc.toNat % 8))
    let past := e.sp.past s1.nextId
    let reads := fun (token : Nat) => (e.ts.filter fun t => tok t == token).map fun t => (t, e.f.vd.toNat, col t)
    (e.ts = [] → e.puts s i 0 fun _ => ⟨0, false⟩) ∧
    (e.ts.filter poisoned ≠ [] → e.traps s i { code := 0x0B, ldv := true } (maskOf (e.ts.filter poisoned))) ∧
    (e.ts ≠ [] → e.ts.filter poisoned = [] → unbound → e.traps s i { code := 0x02, ldv := true } (maskOf e.ts)) ∧
    (e.ts.filter poisoned = [] → ¬ unbound → e.ts.filter wide = t0 :: ts →
      e.traps s i { code := 0x02, addr := BitVec.ofNat 64 (col t0), ldv := true } (maskOf (t0 :: ts))) ∧
    (fits → q.rowTraps tok e.ts e.s = (s1, ill, abs_, cod) →
      (ill = (t0, x) :: more → trap s x (t0 :: more.map (·.1))) ∧
      (ill = [] → abs_ = (t0, x) :: more → trap s x (t0 :: more.map (·.1))) ∧
      (ill = [] → abs_ = [] → cod = (t0, x) :: more → trap s x (t0 :: more.map (·.1))) ∧
      (ill = [] → abs_ = [] → cod = [] → e.ts.filter locked = t0 :: ts →
        trap s { code := 0x0A, addr := row (tok t0), ldv := true, size := d.rowBytes } (t0 :: ts)) ∧
      (ill = [] → abs_ = [] → cod = [] → e.ts.filter locked = [] →
        ((∃ t ∈ tokens, behind t) → exec i s = .next (s1.waitL e.k e.slot)) ∧
        ((∀ t ∈ tokens, ¬ behind t) → e.free words → ∃ u o,
          exec i s = .next (tokens.foldl (fun v t => v.lookupRow q t { who := e.g.name, out := o.id, elems := reads t }) u) ∧
          u.grp e.k = some (e.g.setSplit e.slot (some { past with outs := past.outs ++ [o] })) ∧ (∀ j, j ≠ e.k → u.grp j = s1.grp j) ∧
          { u with groups := s1.groups, free := s1.free, nextId := s1.nextId } = s1 ∧ o.id = s1.nextId ∧ o.left = e.f.la.toNat ∧
          ∀ th r y, (⟨th, r, y⟩ ∈ o.vals) ↔ th ∈ e.ts ∧ e.f.vd.toNat ≤ r ∧ r < e.f.vd.toNat + words ∧ y = none))) ∧
    -- what a lookup finds
    let line := s.viewLines h w.slot.toNat w.gen.toNat token 0 ((d.width * size + 127) / 128)
    let own := ∃ y ∈ q.span s token, s.ownWrites e.g.name (physKey y.1) = true
    let tag := fun (y : Proj) => y.hearth = h ∧ y.slot = w.slot.toNat ∧ y.gen = w.gen.toNat ∧ y.token = token
    let joins := fun (y : Proj) => tag y ∧ y.stale = false ∧ ∀ t, y.exp = some t → s.now < t
    let found := q.find s token
    (own → found = .nothing) ∧ (¬ own → line = some l → found = .line l) ∧
    (¬ own → line = none → (∀ y ∈ s.projs, ¬ joins y) → found = .nothing) ∧
    (¬ own → line = none → (∃ y ∈ s.projs, joins y) → ∃ y ∈ s.projs, joins y ∧ found = .proj y.id) ∧
    -- and what follows
    let u := s.lookupRow q token v
    let element := fun (y : Nat × Nat × Nat) =>
      (⟨y.1, y.2.1, some ⟨BitVec.ofNat 32 (leNat ((r.1.drop (size * y.2.2)).take size)), r.2⟩⟩ : OutV) ::
        (if d.ofmt = 10 then [⟨y.1, y.2.1 + 1, some ⟨0, r.2⟩⟩] else [])
    let lock := fun (n : Nat) => ∃ y, tabGet u.locks (64 * h + n) = some y ∧ y.base = va57 (row token) ∧ y.len = d.rowBytes ∧
      y.dst = false ∧ y.space = .glob ∧ y.op = s.nextId
    let starts := fun (y : Proj) (b : Bool) => y.id = s.nextId ∧ tag y ∧ y.ctx = e.g.ctx ∧ y.owner = e.g.name ∧ y.desc = w.desc ∧
      y.waiters = [v] ∧ y.locked = b
    let turn := ∀ y ∈ s.projs, y.hearth ≠ h ∨ y.locked = true ∨ s.nextId ≤ y.id
    (found = .line l → r = (l.foldr (fun y acc => y.row ++ acc) [], l.any (·.pz != 0)) →
      { u with l1 := s.l1, groups := s.groups } = s ∧
      (s.keyOf v.who = some n → s.grp n = some g' →
        u.grp n = some ((v.elems.foldr (fun y acc => element y ++ acc) []).foldl (fun g y => g.fill v.out y.t y.r (y.val.getD {})) g') ∧
        ∀ j, j ≠ n → u.grp j = s.grp j)) ∧
    (found = .proj id →
      { u with projs := s.projs } = s ∧ u.projs = s.projs.map fun y => if y.id = id then { y with waiters := y.waiters ++ [v] } else y) ∧
    (found = .nothing → s.freeLock h = some n → turn → (∃ y ∈ u.projs, starts y true) ∧ lock n) ∧
    (found = .nothing → s.freeLock h = none ∨ ¬ turn →
      { u with projs := s.projs, nextId := s.nextId } = s ∧ ∃ y, u.projs = s.projs ++ [y] ∧ starts y false)

/-! ### Lane control -/

/-- R42, R43, R144, R172–R177, R204, R209–R211, R217, R219: a spilled split keeps its place in spill order, and its 48-byte entry is written
at its place after the threads' private bytes, of which none changes while the entry's lines are in L1. `bra`, `join`, `lpause` and `lstop`
first wait for their split's results and write them. `bra` moves a split whole, or divides it: the threads that fall through take the other
slot, or the split there is spilled to the lowest free entry, or the stack is full. `join` waits until the largest set of splits at the
label that covers every J merges. `lpause` demotes the group. `lstop` waits until every split has stopped, and then the block stops and the
next one starts. That a split goes to the lowest free entry, and that a merged split's rotation count is 0, is the model's choice (log 31).
-/
def Obligations.LaneControl : Prop :=
  ∀ (s : State) (e : LEnv) (l : List Split) (b : Block), e.issues s →
    let g := e.g.landSplit e.slot
    let sp : Split := { e.sp with outs := [], waiting := false, bound := none }
    let next := fun (i : Instr) (g' : Machine.Group) => exec i s = .next (e.s.stamp.setG e.k g')
    let spills := fun (i : Instr) (g' : Machine.Group) => exec i s = .next (e.s.stamp.setStack e.k g g')
    let bra : Instr := .bra e.f
    let join : Instr := .join e.f
    let lstop : Instr := .lstop e.f
    let acting := maskOf e.ts
    let fall := sp.mask &&& ~~~acting
    let target := e.sp.pc.setWidth 64 + e.f.w2.signExtend 64
    let to_ : BitVec 32 := target.setWidth 32
    let rot := if target.toNat ≤ sp.pc.toNat ∧ g.oldestAble.isSome then sp.rot + 1 else sp.rot
    let inside := target.toNat < 12 * g.kern.lcinsts
    let taken := { sp with pc := to_, rot := rot }
    let divided := fun (g : Machine.Group) =>
      (g.setSplit e.slot (some { taken with mask := acting })).setSplit (1 - e.slot) (some { pc := sp.pc + 12, mask := fall, busy := sp.busy })
    let trap := fun (i : Instr) (g : Machine.Group) (sp : Split) (code : Nat) =>
      exec i s = .next (e.s.trapL e.k e.slot g sp { code := code } sp.mask)
    let waits := fun (i : Instr) (me : Split) =>
      let g' := g.swapOut e.slot me
      (g'.deadlocked = false → spills i g') ∧ (g'.deadlocked = true → trap i g' me 0x0F)
    let me : Split := { sp with st := .atJoin, j := g.mGet (e.f.va.toNat % 8) ||| sp.mask }
    let gj := g.setSplit e.slot (some me)
    let here := gj.table.filter fun x => x.st == .atJoin && x.pc == sp.pc
    let all := fun (l : List Split) => l.foldl (fun u x => u ||| x.mask) (0 : Mask)
    let covers := fun (l : List Split) => ∀ x ∈ l, x ∈ here ∧ x.j &&& ~~~all l = 0
    let inSet := fun (x : Split) => l.any fun y => y.mask == x.mask
    let stop : Split := { sp with st := .atLstop }
    let gs := g.setSplit e.slot (some stop)
    ((∃ o ∈ e.sp.outs, o.arrived e.s.clk = false) →
      ∀ i ∈ ([bra, join, .lpause e.f, lstop] : List Instr), exec i s = .next (e.s.waitL e.k e.slot)) ∧
    ((∀ o ∈ e.sp.outs, o.arrived e.s.clk = true) →
      (e.ts = [] → next bra (g.setSplit e.slot (some { sp with pc := sp.pc + 12 }))) ∧
      (e.ts ≠ [] → ¬ inside → trap bra g sp 0x02) ∧
      (e.ts ≠ [] → inside → fall = 0 → acting = sp.mask → next bra (g.setSplit e.slot (some taken))) ∧
      (e.ts ≠ [] → inside → acting ≠ sp.mask →
        (g.split (1 - e.slot) = none → spills bra (divided g)) ∧
        (∀ y n, g.split (1 - e.slot) = some y → g.freeEntry = some n → spills bra (divided (g.spill n { y with rot := 0 }))) ∧
        (∀ y, g.split (1 - e.slot) = some y → g.freeEntry = none → trap bra g sp 0x0E)) ∧
      ((∀ l, covers l → l = []) → waits join me) ∧
      (l ≠ [] → covers l → (∀ l', covers l' → ∀ x ∈ l', x ∈ l) → l = here.filter (fun x => l.contains x) →
        next join (({ gj with
          slot0 := gj.slot0.filter fun y => !inSet y, slot1 := gj.slot1.filter fun y => !inSet y,
          spilled := gj.spilled.filter fun p => !inSet p.2 } : Machine.Group).setSplit e.slot
            (some { pc := sp.pc + 12, mask := all l, busy := busyOf l })).fillSlots) ∧
      next (.lpause e.f) (g.demote.setSplit e.slot
        (some { sp with pc := sp.pc + 12, rot := if g.oldestAble.isSome then sp.rot + 1 else sp.rot })) ∧
      ((∃ x ∈ gs.table, x.st ≠ .atLstop) → waits lstop stop) ∧
      ((∀ x ∈ gs.table, x.st = .atLstop) → next lstop gs.stopBlock)) ∧
    (∀ (n : Nat) (y : Split), e.g.spill n y = { e.g with spilled := e.g.spilled ++ [(n, y)] } ∧
      let x := e.g.width * e.g.base.priv + 48 * n
      ((n, y) ∉ e.g.spilled → (∀ o ∈ [x, x + 47], ∃ ln ∈ e.s.l1Lines (hearthOf e.k) (l1SetOf (physKey (e.g.pb + o))),
          ln.kind = .priv ∧ ln.key = physKey (e.g.pb + o)) → e.g.pb % 128 = 0 →
        let t := e.s.setStack e.k e.g (e.g.spill n y)
        { t with groups := e.s.groups, l1 := e.s.l1 } = e.s ∧
          ∃ g', t.grp e.k = some g' ∧ { g' with priv := e.g.priv, privPz := e.g.privPz } = e.g.spill n y ∧
            (∀ i, i < 48 → tabGet g'.priv (x + i) = y.entry[i]?) ∧ ∀ a, a < x → tabGet g'.priv a = tabGet e.g.priv a)) ∧
    (e.g.blocks = [b] → b.st = .executing →
      e.g.stopBlock = { e.g with blocks := [{ b with st := .stopped }], slot0 := none, slot1 := none, spilled := [] }) ∧
    (∀ b' : Block, e.g.blocks = [b, b'] → b.st = .executing → b'.st = .queued →
      e.g.stopBlock = { e.g with
        blocks := [{ b with st := .stopped }, { b' with st := .executing }],
        slot0 := some { pc := BitVec.ofNat 32 (12 * b'.start), mask := fullMask e.g.width }, slot1 := none, spilled := [] })

/-! ### Events -/

/-- R16, R88, R143, R144, R179, R198, R203–R205, R209, R215, R249, R263, R264, R269, R377, R380, R382: the events of one group. A
long-latency result that has come, and no load of bytes that an older load of its split is still to bring, is written when its window has
ended; a group passed over 64 times is escalated once, after those before it; a demotion that has run out ends; a split whose rotation count
has reached 64 changes places with the oldest spilled split that may issue; a raised or pending trap is taken, an imprecise one as a plain
suspension; the timer's trap is raised once GTIMER ns have run; a forced save stops the group at its boundary, takes back what it issues
again and leaves every register but those of complete results alone, and a workgroup whose groups are all saved leaves with its operations.
-/
def Obligations.GroupEvents : Prop :=
  ∀ (s : State) (k : Nat) (g : Machine.Group) (sp : Split) (n : Nat) (x : Split) (t : Trap) (r : List Trap), s.ev.a = k → s.grp k = some g →
    let becomes := fun (i : Instr) (g' : Machine.Group) => exec i s = .next (s.setG k g')
    let came := cameOf s.clk []
    let ripe := fun (o : Out) => o ∈ came sp.outs ∧ o.left = 0
    let timer := (s.gridOf g).gtimer
    let c := tabD s.ctxs g.ctx {}
    let forced := g.saved = false ∧ c.damper = true ∧ (s.gridOf g).kern.preempt = true ∧
      ((∃ d, c.deadline = some d ∧ d ≤ c.run) ∨ s.partSaved g = true)
    let shape := fun (y : Split) => (y.pc, y.mask, y.st, y.j)
    let stopped := fun (g' : Machine.Group) =>
      g'.saved = true ∧ g'.sWait = false ∧ g'.raised = none ∧ g'.launching = none ∧ g'.got = none ∧ g'.wBusy = [] ∧
        g'.redo = s.lostLoads g.name ++ (g.wBusy.map fun p => Redo.vset p.1 p.2.addr p.2.pc) ++ g.redo ∧
        (g.raised = none → g'.spc = g.spc ∧ g'.pendTraps = g.pendTraps) ∧
        (∀ u, g.raised = some u → g'.spc = (if u.code = 0x04 then g.spc - 4 else g.spc) ∧
          g'.pendTraps = if u.code = 0x14 ∨ u.code = 0x15 then u :: g.pendTraps else g.pendTraps) ∧
        g.sameButL1 { g' with
          saved := g.saved, sWait := g.sWait, raised := g.raised, launching := g.launching, got := g.got, wBusy := g.wBusy, redo := g.redo,
          spc := g.spc, pendTraps := g.pendTraps, v := g.v, slot0 := g.slot0, slot1 := g.slot1, spilled := g.spilled, hnd := g.hnd } ∧
        (∃ f : Out → Out, (∀ o, f o = o ∨ f o = o.retry) ∧ g'.hnd = (g.mapOuts f).hnd) ∧
        g'.slot0.map shape = g.slot0.map shape ∧ g'.slot1.map shape = g.slot1.map shape ∧
        g'.spilled.map (fun p => (p.1, shape p.2)) = g.spilled.map (fun p => (p.1, shape p.2))
    let keeps := fun (u : State) => ∀ j y, j ≠ k → s.grp j = some y → ∃ y', u.grp j = some y' ∧ y.sameButRetries y'
    (∀ (l : List Out) (o : Out), l.Nodup → came (l ++ [o]) = came l ++
      if o.complete = true ∧ o.ready ≤ s.clk ∧ ∀ y ∈ l, y ∈ came l ∨ o.shares y = false then [o] else []) ∧
    (g.saved = true → exec .longLatencyResult s = .next s) ∧
    (g.saved = false → g.split s.ev.b = some sp →
      s.does .longLatencyResult fun u => ∃ g', u = s.setG k g' ∧
        { g' with v := g.v } = g.setSplit s.ev.b (some { sp with
          outs := sp.outs.filter fun o => !(o.left == 0 && (came sp.outs).contains o) }) ∧
        (∀ th r, r < 256 → (∀ o ∈ sp.outs, ripe o → ∀ v ∈ o.vals, v.r < 256 ∧ (v.t ≠ th ∨ v.r ≠ r)) → g'.vGet th r = g.vGet th r) ∧
        ∀ o ∈ sp.outs, ripe o → ∀ v ∈ o.vals, ∀ y, v.val = some y →
          (∀ o' ∈ sp.outs, ripe o' → ∀ v' ∈ o'.vals, v'.t * 256 + v'.r = v.t * 256 + v.r → v'.val = v.val) → g'.vGet v.t v.r = y) ∧
    (64 ≤ g.lpass → g.lesc = none →
      exec .escalation s = .next (({ s with nextId := s.nextId + 1 } : State).setG k { g with lesc := some s.nextId })) ∧
    (g.lpass < 64 ∨ g.lesc ≠ none → exec .escalation s = .next s) ∧
    (64 ≤ g.spass → g.sesc = none →
      exec .stokerEscalation s = .next (({ s with nextId := s.nextId + 1 } : State).setG k { g with sesc := some s.nextId })) ∧
    (g.spass < 64 ∨ g.sesc ≠ none → exec .stokerEscalation s = .next s) ∧
    becomes .demotionEnd { g with ldem := if g.ldem = 1 then 0 else g.ldem, sdem := if g.sdem = 1 then 0 else g.sdem } ∧
    (g.split s.ev.b = some sp → 64 ≤ sp.rot → sp.st = .ready →
      g.spilled.find? (fun p => p.2.st == .ready || p.2.st == .rotated) = some (n, x) →
      exec .splitRotation s = .next (s.setStack k g
        ((({ g with spilled := g.spilled.filter (fun p => p.1 != n) } : Machine.Group).setSplit s.ev.b
          (some { x with st := .ready, rot := 0, waiting := false })).spill n { sp with st := .rotated, rot := 0 }))) ∧
    (g.split s.ev.b = some sp → sp.rot < 64 → becomes .splitRotation g) ∧
    (g.saved = true ∨ g.susp ≠ none ∨ (g.raised = none ∧ g.pendTraps = []) → exec .trapTake s = .next s) ∧
    (g.saved = false → g.susp = none → g.raised = some t → exec .trapTake s = .next (takeTrap s k g t)) ∧
    (g.raised = none → g.pendTraps = t :: r → g.saved = false → g.susp = none →
      (t.code ∉ [0x16, 0x17, 0x18] → exec .trapTake s = .next (takeTrap s k { g with pendTraps := r } { t with pc := g.spc.setWidth 32 })) ∧
      (t.code ∈ [0x16, 0x17, 0x18] → s.does .trapTake fun u =>
        u.grp k = some { ({ g with pendTraps := r } : Machine.Group).landAll.giveUp with yielded := none, susp := some t } ∧
        (∀ j, j ≠ k → u.grp j = s.grp j) ∧
        { u with groups := s.groups, wgs := s.wgs, served := s.served, pend := s.pend, homes := s.homes } = s)) ∧
    (g.saved = false → g.timerTaken = false → timer ≠ 0 → timer ≤ g.gtime →
      becomes .groupTimerTrap { g with
        pendTraps := g.pendTraps ++ [{ code := 0x14, tmask := fullMask g.width, time := some s.now }], timerTaken := true }) ∧
    (g.saved = true ∨ g.timerTaken = true ∨ timer = 0 ∨ g.gtime < timer → exec .groupTimerTrap s = .next s) ∧
    (g.saved = false → c.damper = false → exec .forcedSave s = .next s) ∧
    (forced → (∃ j g2, j ≠ k ∧ s.grp j = some g2 ∧ g2.wg = g.wg ∧ g2.saved = false) →
      s.does .forcedSave fun u => (∃ g', u.grp k = some g' ∧ stopped g') ∧ keeps u) ∧
    (forced → (s.groups.map (·.1)).Pairwise (· < ·) → (∀ p ∈ s.groups, p.1 ≠ k → p.2.wg = g.wg → p.2.saved = true) →
      (tabD s.ctxs (s.wgOf g.wg).ctx {}).restoring = false → (∀ m ∈ s.mats, m.wg = g.wg → m.going = false ∧ s.awaitsModule m.id = false) →
      (∀ q ∈ s.copies, q.wg = g.wg → s.awaitsModule q.id = false) →
      (∀ q ∈ s.recs, q.hearth = (s.wgOf g.wg).hearth → q.ctx ≠ (s.wgOf g.wg).ctx) →
      s.does .forcedSave fun u => (∀ p ∈ u.groups, p.2.wg ≠ g.wg) ∧ tabGet u.wgs g.wg = none ∧ (∀ q ∈ u.copies, q.wg ≠ g.wg) ∧
        (∀ m ∈ u.mats, m.wg ≠ g.wg) ∧ ∃ v ∈ u.saved, v.wgid = g.wg ∧ v.back = false ∧ v.copies = s.copies.filter (·.wg == g.wg) ∧
          v.crecs = v.copies.map Copy.record ∧ v.mats = s.mats.filter (·.wg == g.wg) ∧ (∃ g', stopped g' ∧ (k, g') ∈ v.groups) ∧
          (∀ p ∈ s.groups, p.1 ≠ k → p.2.wg = g.wg → ∃ y, (p.1, y) ∈ v.groups ∧ p.2.sameButRetries y) ∧
          ∀ p ∈ v.groups, p.1 = k ∨ ∃ q ∈ s.groups, q.1 = p.1 ∧ q.2.wg = g.wg)

/-- R180, R199, R224, R237, R238, R242, R260–R262, R380, R382: the events of a hearth's and a die's machinery. An alarm that is
reached is raised in every group of its context; a coalescer closes its open records after 256 ns; a die writes its next closed
record, or a continuation record, at TAIL, at once or through its home, and then advances TAIL and raises the fault interrupt when the
ring was empty; a walk's translation enters both translation caches; gathered A and D bits are written back by an OR before they are a
millisecond old; a saved workgroup that fits is placed where it was, and the context's groups resume together once all are placed and their
operations registered; a page of scratchpad that is not resident takes a free slot with its backing's bytes. Where a page's backing lies is
the model's choice (log 23), and so are that workgroups are placed one by one and in which order (log 45), that gathered bits are sent
10 µs early (log 76), that the device's own writes are performed at once where no copy of the line is out (log 77), and that the trace
context's records go by hearth (log 74). -/
def Obligations.UnitEvents : Prop :=
  ∀ (s : State) (d : Nat) (r : Rec) (va e : W64) (pa pgsz at_ : Nat) (v : Saved) (w : Wg) (x : SpPage), s.ev.a = d →
    let q := tabD s.faultq d {}
    let slot := q.base.toNat + q.tail.toNat
    let bytes := if r.headDone then r.cont.headD [] else r.bytes
    let r' := { r with sent := false, headDone := true, cont := if r.headDone then r.cont.drop 1 else r.cont }
    let own := ownFaults d
    let atOnce := bits slot 50 2 = 0 ∧ s.lineQuiet slot = true
    let swapped := fun (t : State) (x : Rec) => ∃ l1 l2, s.recs = l1 ++ r :: l2 ∧ r ∉ l1 ∧ t.recs = l1 ++ x :: l2
    let written := fun (t : State) =>
      t.faultq = tabSet s.faultq d { q with tail := BitVec.ofNat 64 ((q.tail.toNat + 64) % q.size.toNat) } ∧
      t.irqs = (if q.head = q.tail then s.irqs ++ [1 + d] else s.irqs) ∧ t.pend = s.pend ∧
      (r'.cont ≠ [] → swapped t r') ∧
      (r'.cont = [] → (r.kept = true ∨ ∀ y ∈ s.recs, y.hearth = r.hearth → y.held = false) → t.recs = s.recs.erase r) ∧
      (r'.cont = [] → r.kept = false → ∀ l1 y l2, s.recs.erase r = l1 ++ y :: l2 → y.hearth = r.hearth → y.held = true →
        (∀ z ∈ l1, z.hearth = r.hearth → z.held = false) → t.recs = l1 ++ { y with held := false, opened := s.now } :: l2)
    let room := 128 ≤ q.size.toNat ∧ (q.tail.toNat + 64) % q.size.toNat ≠ q.head.toNat
    let walked := s.walkDie (d / 36) s.ev.b (tabD s.ctxs s.ev.b {}) va
    let due := fun (y : Tlb) => (∃ t, y.ga = some t ∧ t + 990000 ≤ s.now) ∨ ∃ t, y.gd = some t ∧ t + 990000 ≤ s.now
    let adBits := fun (y : Tlb) => (if y.ga = none then 0 else 16) ||| (if y.gd = none then 0 else 32)
    let ctx := v.wg.ctx
    let alone := (∀ p ∈ v.groups, p.2.ctx = ctx ∧ p.2.saved = true) ∧ ∀ y ∈ s.saved, y.wg.ctx = ctx →
      (y.wgid = v.wgid ∨ y.back = true) ∧ y.crecs = y.copies.map Copy.record ∧
      s.locksDue ctx y.wg.hearth ≤ (s.freeLocks y.wg.hearth).length
    let sameRegs := fun (g g' : Machine.Group) =>
      g'.s = g.s ∧ g'.c = g.c ∧ g'.b = g.b ∧ g'.v = g.v ∧ g'.m = g.m ∧ g'.mode = g.mode ∧ g'.spc = g.spc ∧ g'.pendTraps = g.pendTraps ∧
        g'.redo = g.redo ∧ g'.arrived = g.arrived
    let back := (tabD s.ctxs w.ctx {}).spback + 4096 * (w.hearth + 144 * x.back)
    let ring := fun (g : Machine.Group) =>
      if g.ctx = d then { g with pendTraps := g.pendTraps ++ [{ code := 0x15, tmask := fullMask g.width, time := some s.now }] }
      else g
    ((∃ T, (tabD s.ctxs d {}).alarm = some T ∧ T ≤ s.now) → s.does .deadlineAlarm fun t =>
      (tabD t.ctxs d {}).alarm = none ∧ (∀ k, t.grp k = (s.grp k).map ring) ∧
        t.saved = s.saved.map (fun y => { y with groups := y.groups.map fun p => (p.1, ring p.2) }) ∧
        { t with ctxs := s.ctxs, groups := s.groups, saved := s.saved } = s) ∧
    ((∀ T, (tabD s.ctxs d {}).alarm = some T → s.now < T) → exec .deadlineAlarm s = .next s) ∧
    (s.does .coalescerDelivery fun t => { t with recs := s.recs } = s ∧ t.recs.length = s.recs.length ∧
      ∀ (i : Nat) (y : Rec), s.recs[i]? = some y → t.recs[i]? =
        some (if y.hearth = d ∧ y.held = false ∧ y.opened + 256 ≤ s.now then { y with closed := true } else y)) ∧
    (s.saved = [] → (∀ y ∈ s.recs, y.headDone = false ∧ y.sent = false) → (∀ y ∈ s.recs, s.recording y.ctx = false) →
      s.nextRec d = s.recs.find? fun y => y.hearth / 36 == d && y.closed && !y.held) ∧
    (s.saved = [] → ∀ y ∈ s.recs, y.hearth / 36 = d → y.closed = true → y.held = false → ∃ z, s.nextRec d = some z ∧
      (y.headDone = true ∨ y.sent = true → z.headDone = true ∨ z.sent = true) ∧
      (s.recording y.ctx = true → z.headDone = true ∨ z.sent = true ∨ (s.recording z.ctx = true ∧ z.hearth ≤ y.hearth))) ∧
    (s.nextRec d = none ∨ ¬ room → exec .faultQueueWrite s = .next s) ∧
    (s.nextRec d = some r → r.sent = true → s.ownBusy own = true → exec .faultQueueWrite s = .next s) ∧
    (s.nextRec d = some r → room → r ∈ s.recs → slot % 128 + bytes.length ≤ 128 → bytes ≠ [] → r.sent = false → ¬ atOnce →
      s.does .faultQueueWrite fun t => { t with pend := s.pend, nextId := s.nextId, recs := s.recs } = s ∧ swapped t { r with sent := true } ∧
        ∃ p : Pend, t.pend = s.pend ++ [p] ∧ p.id = s.nextId ∧ p.key = physKey slot ∧ p.ctx = own ∧ p.owner = none ∧ p.arrived = false ∧
          p.issued = s.clk ∧ p.kind = .store slot bytes false) ∧
    (s.nextRec d = some r → room → r ∈ s.recs → slot % 128 + bytes.length ≤ 128 → bytes ≠ [] → r.sent = false → atOnce →
      s.ownBusy own = false → Memory.wf s.mem = true → s.does .faultQueueWrite fun t => written t ∧
        ∀ a, memGet t.mem a = if slot ≤ a ∧ a < slot + bytes.length then bytes.getD (a - slot) 0 else memGet s.mem a) ∧
    (s.nextRec d = some r → room → r ∈ s.recs → r.sent = true → s.ownBusy own = false →
      s.does .faultQueueWrite fun t => written t ∧ t.mem = s.mem) ∧
    (s.ev.c = va.toNat → canonical va = true → (∀ y ∈ s.tlb, y.covers s.ev.b va = false) →
      (walked = .found e pa pgsz → s.does .pageWalk fun t => ∃ y ∈ t.tlb, ∃ z ∈ t.tlb, y.last = true ∧ y.unit = d / 36 ∧ y.ga = some s.now ∧
        z.last = false ∧ z.unit = d ∧ (∀ p ∈ [y, z], p.ctx = s.ev.b ∧ p.leaf = e ∧ p.leafPa = pa ∧ p.pgsz = pgsz ∧ p.gd = none ∧
          p.va = va - BitVec.ofNat 64 (va.toNat % 2 ^ 57 % pageBytes pgsz)) ∧ t.groups = s.groups) ∧
      ((∀ e pa pgsz, walked ≠ .found e pa pgsz) → exec .pageWalk s = .next s)) ∧
    (s.does .adWriteback fun t =>
      { t with tlb := s.tlb, mem := s.mem, poison := s.poison, cells := s.cells, pend := s.pend, nextId := s.nextId } = s ∧
      t.tlb.length = s.tlb.length ∧
      (∀ (i : Nat) (y : Tlb), s.tlb[i]? = some y → (due y → t.tlb[i]? = some { y with ga := none, gd := none, dd := y.dd || y.gd.isSome }) ∧
        (¬ due y → t.tlb[i]? = some y)) ∧
      (∀ y ∈ s.tlb, due y → s.lineQuiet y.leafPa = false → ∃ q ∈ t.pend, q.owner = none ∧ q.ctx = y.ctx ∧ q.key = physKey y.leafPa ∧
        q.arrived = false ∧ q.issued = s.clk ∧
        q.kind = .atomic y.leafPa 8 opGathered 7 (BitVec.ofNat 64 (adBits y)) y.leaf .none) ∧
      (Memory.wf s.mem = true → (∀ y ∈ s.tlb, due y → s.lineQuiet y.leafPa = true) → t.pend = s.pend ∧
        (∀ a, (∀ y ∈ s.tlb, due y → a < y.leafPa ∨ y.leafPa + 8 ≤ a) → memGet t.mem a = memGet s.mem a) ∧
        ∀ y ∈ s.tlb, due y → (∀ z ∈ s.tlb, due z → z = y ∨ z.leafPa + 8 ≤ y.leafPa ∨ y.leafPa + 8 ≤ z.leafPa) →
          let old := s.peekNat y.leafPa 8
          t.peekNat y.leafPa 8 =
            if old % 4 = 3 ∧ old / 2 ^ 28 % 2 ^ 36 = y.leaf.toNat / 2 ^ 28 % 2 ^ 36 then old ||| adBits y else old)) ∧
    (s.saved.find? (fun y => y.wgid == d && (tabD s.ctxs y.wg.ctx {}).restoring) = some v →
      (s.gridAt v.wg.grid).cores = false → v.back = false → s.returns v = true → (v.groups.map (·.1)).Nodup →
      (∃ y ∈ s.saved, y.wg.ctx = ctx ∧ y.wgid ≠ d ∧ y.back = false) →
      s.does .restoreWorkgroup fun t => tabGet t.wgs d = some v.wg ∧
        { v with groups := [], views := [], recs := [], back := true } ∈ t.saved ∧ (∀ y ∈ s.saved, y.wgid ≠ d → y ∈ t.saved) ∧
        t.copies = s.copies ∧ t.mats = s.mats ∧ t.locks = s.locks ∧ t.recs = v.recs ++ s.recs ∧
        (∀ j, (∀ p ∈ v.groups, p.1 ≠ j) → t.grp j = s.grp j) ∧
        ∀ p ∈ v.groups, ∃ g', t.grp p.1 = some g' ∧ g'.saved = p.2.saved ∧ sameRegs p.2 g') ∧
    (s.saved.find? (fun y => y.wgid == d && (tabD s.ctxs y.wg.ctx {}).restoring) = some v →
      (s.gridAt v.wg.grid).cores = false → v.back = false → s.returns v = true → (v.groups.map (·.1)).Nodup → alone →
      s.does .restoreWorkgroup fun t => tabGet t.wgs d = some v.wg ∧ (∀ y ∈ t.saved, y.wg.ctx ≠ ctx) ∧
        (∀ y ∈ s.saved, y.wg.ctx = ctx → (∀ m ∈ y.mats, { m with next := s.clk + 1, going := false } ∈ t.mats) ∧
          ∀ c ∈ y.copies, c.returned c.record s.clk ∈ t.copies) ∧
        (t.mats.drop s.mats.length).Pairwise (fun a b => a.id ≤ b.id) ∧
        (∀ j, (∀ p ∈ v.groups, p.1 ≠ j) → ∀ g, s.grp j = some g → g.ctx ≠ ctx ∨ g.saved = false → t.grp j = some g) ∧
        ∀ p ∈ v.groups, ∃ g', t.grp p.1 = some g' ∧ sameRegs p.2 g' ∧
          ((∀ q ∈ s.pend, q.isAtomic = true → ∀ p ∈ v.groups ++ s.groups, p.2.ctx = ctx → p.2.saved = true → q.owner ≠ some p.2.name) →
            g'.saved = false ∧ g'.lpass = 0 ∧ g'.spass = 0 ∧
            (tabD t.ctxs ctx {}).restoring = false ∧ (tabD t.ctxs ctx {}).hold = false) ∧
          ((∃ q ∈ s.pend, q.isAtomic = true ∧ q.owner = some p.2.name) → g'.saved = true ∧ (tabD t.ctxs ctx {}).restoring = true)) ∧
    (s.saved.find? (fun y => y.wgid == d && (tabD s.ctxs y.wg.ctx {}).restoring) = some v →
      (s.gridAt v.wg.grid).cores = false → v.back = true ∨ s.returns v = false → exec .restoreWorkgroup s = .next s) ∧
    (s.saved.find? (fun y => y.wgid == d && (tabD s.ctxs y.wg.ctx {}).restoring) = none → exec .restoreWorkgroup s = .next s) ∧
    (tabGet s.wgs d = some w → tabGet w.pages s.ev.b = some x → x.resident = true → exec .scratchpadRefill s = .next s) ∧
    (tabGet s.wgs d = some w → tabGet w.pages s.ev.b = some x → x.resident = false → at_ ∈ s.freePages w.hearth →
      (∀ i ∈ s.freePages w.hearth, at_ ≤ i) → back % 32 = 0 →
      s.does .scratchpadRefill fun t => t.groups = s.groups ∧ t.pend = s.pend ∧ (Memory.wf s.mem = true → s.drift t) ∧
        ∃ w', tabGet t.wgs d = some w' ∧
          tabGet w'.pages s.ev.b = some { x with resident := true, written := false, slot := at_ } ∧
          (∀ i, i < 4096 → t.poison.contains (back / 32 + i / 32) = false → w'.spByte (4096 * s.ev.b + i) = memGet t.mem (back + i)) ∧
          (∀ i, i < 128 → w'.spPz.contains (128 * s.ev.b + i) = t.poison.contains (back / 32 + i)) ∧
          ∀ i, i / 4096 ≠ s.ev.b → w'.spByte i = w.spByte i)

/-- R102, R169, R191, R224, R228, R230–R233, R292, R308–R318: the events of homes, links and errors. A waiting read is served once nothing
is pending at its line, leased, and its reader has the line as it was served; that of a projection waits on for its group's own writes; a
write arrives in order, invalidates the sharers, and is performed once the latest lease has passed, every acknowledgement is in and the line
is not lent, on a codec region after the codec's step and once the backing lines it encodes into are free of copies; an atomic gives its
destination the old value and memory the new one; an ended copy is dropped; a line is lent, recalled and returned; a remote copy is taken,
invalidated and acknowledged; a dead link and a silent sharer are fenced; flits, directory entries, HBM and soft errors follow R316, R312,
R315 and R318; a line leaves L2 under the code of its bytes, and a copy silently. -/
def Obligations.HomeEvents : Prop :=
  ∀ (s : State) (key d h e a b : Nat) (p : Pend) (q : Wait) (g : Machine.Group) (k : Nat) (w : Wg) (line : L2Line) (v : VEnt),
    let x := s.home key
    let set := l1SetOf key
    let r := regionOf key
    let near := isCodecKey key = false ∧ keyPa key / 2 ^ 50 % 4 = 0
    let may := x.exp ≤ s.now ∧ (∀ i ∈ s.invals, i.key ≠ key) ∧ s.rebuilding key = false ∧ x.lent = none ∧ s.snooped key = false ∧
      s.answerReady p = true ∧ ∀ pa ∈ s.underLines key, (s.home (physKey pa)).exp ≤ s.now ∧ ∀ i ∈ s.invals, i.key ≠ physKey pa
    let others := fun (y : State) => y.pend = s.pend.filter fun z => z.id != p.id
    let there := fun (z : Pend) => z ∈ s.pend ∧ z.key = key ∧ z.arrived = true
    let first := there p ∧ ∀ z, there z → z = p ∨ p.arr < z.arr
    let dies := fun (s : State) (key : Nat) => ((dieList (s.sharers (regionOf key))).filter fun c =>
      c != (homeOf key).1 && !s.invals.any fun i => i.die == c && i.key == key).map fun c => ({ die := c, key := key, sent := s.now } : Inval)
    let come : State := { s with
      nextId := s.nextId + 1, pend := s.pend.map fun z => if z.id = p.id then { z with arrived := true, arr := s.nextId } else z }
    let lost := s.ev.c / 48
    let part := s.ev.c % 4
    let silent := ∃ i ∈ s.invals, i.die = d ∧ i.key = key ∧ i.sent + 2000 ≤ s.now
    let acked := ∃ i ∈ s.invals, i.die = d ∧ i.key = key ∧ i.dropped = true ∧ i.ackAt ≤ s.now
    let mine := fun (i : Inval) => i.die == d && i.key == key
    let entry := fun (kind unit : Nat) => (⟨kind, unit, s.now, 0, 0, 0⟩ : LogE)
    (s.ev.a = key →
      (x.waiting = [] ∨ x.lent ≠ none ∨ s.readWaits 0 key = true → exec .homeReadRequest s = .next s) ∧
      ((∀ y ∈ x.waiting, ∃ z ∈ s.projs, y.who = some (readerProj, z.id) ∧ s.ownWrites z.owner key = true) →
        exec .homeReadRequest s = .next s) ∧
      (x.waiting = [q] → x.lent = none → s.readWaits 0 key = false → near → s.frozenGen key = none → dieOf q.h = (homeOf key).1 →
        q.h % 36 / 12 = (homeOf key).2 / 8 → 0 < q.len → (∀ y, q.who = some y → y.1 ≠ readerProj) →
        s.does .homeReadRequest fun t => (t.home key).waiting = [] ∧ (t.home key).exp = max x.exp (s.now + q.len) ∧
          (∃ l ∈ t.l1Lines q.h set, l.holds key = true ∧ l.exp = some (s.now + q.len)) ∧ (Memory.wf s.mem = true → s.drift t) ∧
          ∀ y, q.who = some y → ∃ z ∈ t.served, z.who = y ∧ z.key = key ∧ (z.bytes, z.pz) = t.lineNow key) ∧
      ((∀ z, ¬ there z) → exec .writePerformed s = .next s ∧ exec .homeAtomic s = .next s) ∧
      (s.now < x.exp → exec .writePerformed s = .next s ∧ exec .homeAtomic s = .next s) ∧
      (first → may → p.ready = none → p.codecStep = some (a, b) →
        s.does (if p.isAtomic then .homeAtomic else .writePerformed) fun t => { t with pend := s.pend, codecFree := s.codecFree } = s ∧
          ∃ T, s.clk + a ≤ T ∧ s.clk + b ≤ T ∧ t.pend = s.pend.map fun z => if z.id = p.id then { z with ready := some T } else z) ∧
      (first → may → p.ready = none → x.waiting = [] → isCodecKey key = false → Memory.wf s.mem = true →
        (∀ pa data, p.kind = .store pa data false → s.does .writePerformed fun t => others t ∧ t.groups = s.groups ∧
          ∀ a, memGet t.mem a =
            if pa ≤ a ∧ a < pa + data.length then data.getD (a - pa) 0
            else if a / 128 * 128 = keyPa key ∧ tabGet s.l2 (keyPa key) = none ∧ 8 ≤ (tabD s.cells (keyPa key / 128) 0).toNat ∧
                (keyPa key / 2 ^ 50 % 4 = 1 → s.cxl = true) ∧ keyPa key / 2 ^ 50 % 4 ≠ 3 then 0
            else memGet s.mem a) ∧
        (∀ pa w op ty a b dst, p.kind = .atomic pa w op ty a b dst → s.poisoned pa w = false →
          (∃ l, tabGet s.l2 (keyPa key) = some l ∧ l.place = none) → w = 4 ∨ w = 8 → ty ∉ [8, 9, 10, 11, 12, 13, 14] → op < 8 →
          let old := s.peekNat pa w
          let int := fun (y : Nat) => if ty = 4 ∨ ty = 6 then (BitVec.ofNat (8 * w) y).toInt else ((y % 2 ^ (8 * w) : Nat) : Int)
          s.does .homeAtomic fun t => others t ∧
            t.peekNat pa w = (match op with
              | 0 => old + a.toNat
              | 1 => if int a.toNat < int old then a.toNat else old
              | 2 => if int old < int a.toNat then a.toNat else old
              | 3 => old &&& a.toNat
              | 4 => old ||| a.toNat
              | 5 => old ^^^ a.toNat
              | 6 => a.toNat
              | _ => if old = b.toNat % 2 ^ (8 * w) then a.toNat else old) % 2 ^ (8 * w) ∧
            (∀ i, i < pa ∨ pa + w ≤ i → memGet t.mem i = memGet s.mem i) ∧
            ∀ n signed nm, dst = .scalar n signed → p.owner = some nm → s.recording p.ctx = false → s.keyOf nm = some k →
              s.grp k = some g → g.hnd = none → ∃ g', t.grp k = some g' ∧ { g' with s := g.s, sPend := g.sPend } = g ∧ (∀ j, j ≠ k → t.grp j = s.grp j) ∧
                ∀ i, g'.sGet i =
                  if i = n ∧ i ≠ 0 then
                    ⟨if signed then (BitVec.ofNat (8 * w) old).signExtend 64 else BitVec.ofNat 64 old, false⟩
                  else g.sGet i)) ∧
      (x.lendTo = some h → x.lent = none → x.exp ≤ s.now → x.waiting = [] → (∀ z ∈ s.pend, z.key ≠ key) → s.readWaits 0 key = false →
        s.sharers r = 0 → s.markOn key = none → (s.l1Lines h set).length < 12 →
        s.does .lendLine fun t => (t.home key).lent = some h ∧ (t.home key).lendTo = none ∧
          ∃ l ∈ t.l1Lines h set, l.kind = .lent ∧ l.key = key) ∧
      (x.lendTo = none ∨ s.now < x.exp ∨ s.sharers r ≠ 0 → exec .lendLine s = .next s) ∧
      (x.lent = some h → exec .lineRecall s = .next { s with homes := tabSet s.homes key { x with recalled := true } } ∧
        s.does .lineReturn fun t => (t.home key).lent = none ∧ (t.home key).recalled = false ∧ t.mem = s.mem ∧ t.groups = s.groups ∧
          ∀ i, i < 512 → ∀ l ∈ t.l1Lines h i, l.kind = .lent → l.key ≠ key) ∧
      (x.lent = none → exec .lineRecall s = .next s ∧ exec .lineReturn s = .next s)) ∧
    (s.pend.find? (fun z => z.id == s.ev.a) = none → exec .homeWriteArrival s = .next s) ∧
    (s.pend.find? (fun z => z.id == s.ev.a) = some p →
      let early := s.clk < p.issued + s.transitOf p.ctx p.hearth p.key p.id ∨ p.isLost = true ∨ s.noAnswer p.ctx p.hearth p.key p.id = true ∨
        ∃ z ∈ s.pend, z.id < p.id ∧ z.arrived = false ∧ z.isLost = false ∧ z.key = p.key ∧ z.owner = p.owner ∧ (p.owner ≠ none ∨ z.blk = p.blk)
      (p.arrived = true ∨ early → exec .homeWriteArrival s = .next s) ∧
      (p.arrived = false → ¬ early → keyPa p.key / 2 ^ 50 % 4 ≠ 3 → isCodecKey p.key = false →
        exec .homeWriteArrival s = .next { come with invals := s.invals ++ dies s p.key }) ∧
      (p.arrived = false → ¬ early → keyPa p.key / 2 ^ 50 % 4 ≠ 3 → isCodecKey p.key = true →
        exec .homeWriteArrival s = .next (come.clearWay ((s.backingKeys p.key).map keyPa))) ∧
      (keyPa p.key / 2 ^ 50 % 4 = 3 → s.answerReady p = false → exec .homeWriteArrival s = .next s) ∧
      (p.arrived = false → ¬ early → keyPa p.key / 2 ^ 50 % 4 = 3 → s.answerReady p = true →
        exec .homeWriteArrival s = .next ((({ s with pend := s.pend.filter fun z => z.id != p.id } : State).carry p.key true).perform p))) ∧
    (s.clearWay [] = s ∧ ∀ l pa, let t := s.clearWay l
      let y := t.home (physKey pa)
      s.clearWay (l ++ [pa]) = { t with
        homes := tabSet t.homes (physKey pa) { y with recalled := y.recalled || y.lent.isSome }, invals := t.invals ++ dies t (physKey pa) }) ∧
    (s.ev.flag = true → exec .leaseExpiry s = .next { s with sectors := s.sectors.filter fun (q : Nat × Nat) => s.now < q.2 }) ∧
    (s.ev.flag = false → s.does .leaseExpiry fun t => { t with l1 := s.l1 } = s ∧ ∀ h i, i < 512 →
      t.l1Lines h i = if h = s.ev.a then (s.l1Lines h i).filter fun l => l.exp.all fun e => s.now < e else s.l1Lines h i) ∧
    (s.ev.a = d → s.ev.b = key →
      (d < 4 → d ≠ (homeOf key).1 → near → s.frozenGen key = none → s.fenced d key = false → s.readWaits 0 key = false → x.lent = none →
        (∀ z ∈ s.remotes, z.1 % 4 = d → keyPa (z.1 / 4) ≠ keyPa key) →
        s.does .remoteRead fun t => tabGet t.remotes (4 * key + d) = some 0 ∧ (t.sharers r).getLsbD d = true ∧
          (tabD t.filters (4 * r + d) 0).getLsbD (lineInRegion key) = true) ∧
      (s.fenced d key = true → exec .remoteRead s = .next s) ∧
      (s.does .invalidation fun t => tabGet t.remotes (4 * key + d) = none ∧ t.mem = s.mem ∧
        t.invals = s.invals.map (fun i =>
          if i.die = d ∧ i.key = key ∧ i.dropped = false then
            { i with dropped := true, ackAt := (tabGet s.remotes (4 * key + d)).getD (s.dropExp d (homeOf key).2) }
          else i) ∧
        ∀ c i, c < 36 → i < 512 → ∀ l ∈ t.l1Lines (36 * d + c) i, l.kind = .view → key ∉ l.deps) ∧
      (acked → s.does .invalidationAck fun t => t.invals = s.invals.filter (fun i => !mine i) ∧ t.mem = s.mem ∧
        (d < 4 → tabGet s.filters (4 * r + d) = none → (t.sharers r).getLsbD d = false)) ∧
      (¬ acked → exec .invalidationAck s = .next s) ∧
      (silent → s.does .sharerAckTimeout fun t => t.invals = s.invals.filter (fun i => !mine i) ∧ 0 ∈ t.irqs ∧
        ((d, (homeOf key).1) ∈ t.fences ∨ ((homeOf key).1, d) ∈ t.fences)) ∧
      (¬ silent → exec .sharerAckTimeout s = .next s)) ∧
    (s.ev.a = d → s.ev.b = e → d < 4 → e < 4 → d ≠ e → s.does .linkDeath fun t =>
      (t.link d e).dead = true ∧ (t.link e d).dead = true ∧ (d, e) ∈ t.fences ∧ t.log = s.log ++ [entry 1 (4 * d + e)] ∧ t.mem = s.mem ∧
        ∀ y, ((homeOf y).1 = e → tabGet t.remotes (4 * y + d) = none) ∧ ((homeOf y).1 = d → tabGet t.remotes (4 * y + e) = none)) ∧
    (s.ev.flag = false →
      let q := tabD s.ports s.ev.a {}
      let run := if s.ev.c = 1 then q.run + 1 else 1
      exec .flitCrcFail s = .next { s with
        ports := tabSet s.ports s.ev.a
          (if 9 ≤ run then { q with up := false, dead := true, deaths := min (q.deaths + 1) (2 ^ 64 - 1), change := s.now, run := 0 }
           else { q with run := run, repeat_ := min (q.repeat_ + 1) (2 ^ 64 - 1) }) }) ∧
    (s.ev.flag = true →
      let q := s.link s.ev.a s.ev.b
      let run := if s.ev.c = 1 then q.run + 1 else 1
      (run < 9 → exec .flitCrcFail s = .next { s with
        links := tabSet s.links (4 * s.ev.a + s.ev.b) { q with run := run, repeats := q.repeats + 1 } }) ∧
      (9 ≤ run → exec .flitCrcFail s = .next (s.killLink s.ev.a s.ev.b))) ∧
    (s.does .directoryEccError fun t => (s.ev.a, true) ∈ t.rebuild ∧ t.mem = s.mem ∧
      ∀ c, c < 4 → ((t.sharers s.ev.a).getLsbD c = decide (c ≠ (homeOf (1024 * s.ev.a)).1)) ∧
        (c ≠ (homeOf (1024 * s.ev.a)).1 → ∀ i, i < 4 → ∃ y ∈ t.invals, y.die = c ∧ y.key = 2 * (512 * s.ev.a + 128 * i))) ∧
    (let n := 64 * s.ev.d + 2 * s.ev.a + (if s.ev.flag then 1 else 0)
      let counted := tabSet s.counters n (min (tabD s.counters n 0 + 1) (2 ^ 64 - 1))
      let pa := s.ev.b / 128 * 128
      (s.ev.flag = false → s.ev.a ≠ 11 → exec .softError s = .next { s with counters := counted }) ∧
      (s.ev.a = 11 → s.ev.b / 2 ^ 50 % 4 = 0 → tabGet s.l2 pa = none → s.does .softError fun t => t.counters = counted ∧
        (∃ l, tabGet t.l2 pa = some l ∧ l.dirty = true) ∧ (s.ev.flag = true → ∀ j, j < 4 → pa / 32 + j ∈ t.poison)) ∧
      (s.ev.flag = true → s.does .softError fun t => (s.ev.a ≠ 8 → t.counters = counted) ∧ t.log = s.log ++ [entry 4 s.ev.a] ∧
        (s.ev.a = 0 → s.grp s.ev.b = some g → s.ev.c ≠ 0 →
          t.grp s.ev.b = some { g with s := tabSet g.s s.ev.c { tabD g.s s.ev.c {} with pz := true } }) ∧
        (s.ev.a = 1 → s.grp s.ev.b = some g → t.grp s.ev.b = some { g with v := tabSet g.v s.ev.c { tabD g.v s.ev.c {} with pz := true } }) ∧
        (s.ev.a = 2 → ∀ l rest, (s.l1Lines s.ev.b lost).drop (s.ev.c / 4 % 12) = l :: rest →
          (l.kind = .leased ∨ l.kind = .codec ∨ l.kind = .view → t.l1Lines s.ev.b lost =
            (s.l1Lines s.ev.b lost).map fun x => if x = l then { x with pz := setBit x.pz part true } else x) ∧
          (l.kind = .lent → keyPa l.key / 32 + part ∈ t.poison) ∧
          (l.kind = .priv → s.privOwner s.ev.b l.key = some (k, g) → s.grp k = some g →
            t.grp k = some { g with privPz := addOnce g.privPz ((keyPa l.key - g.pb) / 32 + part) })) ∧
        (s.ev.a = 3 → s.ev.c = 0 → s.ev.b ∈ t.poison) ∧
        (s.ev.a = 3 → ∀ i, s.ev.c = i + 1 →
          (i = 0 ∧ ((tabGet s.sectors (s.ev.b / 4)).isSome ∨ (tabGet s.fsectors (s.ev.b / 4)).isSome)) ∨
            (i = 1 ∧ (tabGet s.remotes (s.ev.b / 4)).isSome) ∨ (i = 2 ∧ (tabGet s.replicas (s.ev.b / 4)).isSome) →
          (t.lostParts i (s.ev.b / 4)).getLsbD (s.ev.b % 4) = true ∧ t.poison = s.poison) ∧
        (s.ev.a = 4 → tabGet s.wgs s.ev.b = some w → ∃ w', tabGet t.wgs s.ev.b = some w' ∧ s.ev.c ∈ w'.spPz ∧ { w' with spPz := w.spPz } = w) ∧
        (s.ev.a = 5 → tabGet s.wgs s.ev.b = some w → ∃ w', tabGet t.wgs s.ev.b = some w' ∧ s.ev.c ∈ w'.accPz ∧ { w' with accPz := w.accPz } = w) ∧
        (s.ev.a = 6 → tabGet s.vstore s.ev.b = some v → tabGet t.vstore s.ev.b = some { v with pz := true }) ∧
        (s.ev.a = 7 → s.ev.c ≠ 1 → t.tlb = s.tlb.eraseIdx s.ev.b ∧ t.walkc = s.walkc) ∧
        (s.ev.a = 7 → s.ev.c = 1 → t.walkc = s.walkc.eraseIdx s.ev.b ∧ t.tlb = s.tlb) ∧
        (s.ev.a = 9 → s.ev.b < 4 → ∀ i, i < 4 → tabGet t.remotes (4 * (2 * (512 * s.ev.c + 128 * i)) + s.ev.b) = none) ∧
        (10 ≤ s.ev.a → s.ev.a ≠ 11 → t.irqs = s.irqs ++ [0] ∧ (s.grp k = some g → k / 128 = s.ev.b → g.susp = none →
          t.grp k = some { g with susp := some { code := 0 } })))) ∧
    (let pa := s.ev.a / 128 * 128
      let b := s.peek pa 128
      let plain := line.cmpr = false ∨ (s.backingOf pa).isSome ∨ s.poisoned pa 128 = true
      (s.ev.flag = true → (s.ev.a = 1 → exec .l2Eviction s = .next { s with
          sectors := s.sectors.filter (fun y => y.1 != s.ev.b), fsectors := s.fsectors.filter fun y => y.1 != s.ev.b }) ∧
        (s.ev.a = 2 → ∀ E, tabGet s.remotes s.ev.b = some E → s.does .l2Eviction fun t => tabGet t.remotes s.ev.b = none ∧
          E ≤ t.dropExp (s.ev.b % 4) (homeOf (s.ev.b / 4)).2 ∧ t.dirs = s.dirs ∧ t.invals = s.invals) ∧
        (s.ev.a = 3 → exec .l2Eviction s = .next { s with replicas := s.replicas.filter fun y => y.1 != s.ev.b })) ∧
      (s.ev.flag = false → tabGet s.l2 pa = none → exec .l2Eviction s = .next s) ∧
      (s.ev.flag = false → tabGet s.l2 pa = some line → line.retained = true →
        (∃ o ∈ s.l2In (line.at_ pa) (l2Set pa), s.retains o = false) → exec .l2Eviction s = .next s) ∧
      (s.ev.flag = false → tabGet s.l2 pa = some line → (s.home (physKey pa)).lent = none →
        (line.retained = true → ∀ o ∈ s.l2In (line.at_ pa) (l2Set pa), s.retains o = true) → pa / 2 ^ 50 % 4 = 0 →
        s.does .l2Eviction fun t => { t with l2 := s.l2, cells := s.cells, metas := s.metas } = s ∧ tabGet t.l2 pa = none ∧
          (∀ i, i ≠ pa / 128 → tabGet t.cells i = tabGet s.cells i) ∧
          let code := tabD t.cells (pa / 128) 0
          (plain → code = 0) ∧
          (¬ plain → ((∀ y ∈ b, y = 0) → code = 1) ∧
            ((∃ y ∈ b, y ≠ 0) → ((∀ i, i < 124 → memGet s.mem (pa + i + 4) = memGet s.mem (pa + i)) → code = 2) ∧
              ((∃ i, i < 124 ∧ memGet s.mem (pa + i + 4) ≠ memGet s.mem (pa + i)) → code ≠ 1 ∧ code ≠ 2) ∧
              code.toNat < 8))))

/-- R3, R6, R7, R233, R300, R306, R319–R328, R333–R335: the events of the host link, the fabric and the boot. The boot ROM runs an image
that is signed, of an allowed version and of the fused key, else the module is in recovery, where only BAR0 answers; coolant, thermal
stop, links and ports follow R6, R7, R319, R328; device time is set by a message before the module runs and never steps back; a trace
record is written while the ring has room, at once or through its home, and STALLED is set as the ring becomes full; a host snoop is
answered once the line's lease has passed, and a seal line the host has written is read again; a request from outside reaches the
home, under CXL.mem from the host and over a live port from another module, and a refused write is counted, logged with its writer and
dropped; the host's atomics complete in BAR2 in plain PCIe; a replay that its log does not bear out is stopped; a remote access without
an answer for 10 µs is a trap of its group. It is the model's choice that a time message acts only before coolant and only forward (log
26), that a timed-out matrix access is a record of each member group (log 28), at which address a write of BAR0 or BAR2 is recorded (log
66), and that the ring is written at once where no copy of its line is out (log 77). What makes an image signed rests on functions of
Config that the statement leaves free. -/
def Obligations.HostEvents : Prop :=
  ∀ (s : State) (p : Pend) (owner : Nat × Nat) (k : Nat) (g : Machine.Group) (n : Snoop) (b : List Byte) (r : List (List Byte)) (c : Copy)
    (m : MatOp) (sp : Split) (o : Out),
    let a := s.ev.a
    let size := leNat (s.flashBytes 8 8)
    let svn := leNat (s.flashBytes 4 4)
    let key := s.flashBytes 16 2592
    let signed := s.flashBytes 0 4 = [0x47, 0x4C, 0x46, 0x57] ∧ Config.sha3 key = Config.fusedDigest ∧ Config.antiRollback.toNat ≤ svn ∧
      Config.mlDsaVerify key (leBytes 64 (Config.sha3 (s.flashBytes 0 16 ++ s.flashBytes 7264 size)).toNat) (s.flashBytes 2608 4627) = true
    let port := tabD s.ports a {}
    let ring := max s.recd.tsize 32
    let full := (s.recd.tail + 32) % ring = s.recd.head
    let place := s.recd.tbase + s.recd.tail
    let atOnce := bits place 50 2 = 0 ∧ s.lineQuiet place = true
    let fits := b ≠ [] ∧ place % 128 + b.length ≤ 128
    let next := (s.recd.tail + 32) % ring
    let appended := fun (t : State) => ∃ full' : Bool, (full' = true ↔ (next + 32) % ring = s.recd.head) ∧
      t.recd = { s.recd with pend := r, sent := false, tail := next, count := s.recd.count + 1, stalled := s.recd.stalled || full' }
    let seals := fun (q : Queue) => s.cxl = true ∧ q.die ≠ none ∧ physKey (q.slotPa q.prog + 255) = physKey (2 ^ 50 + 64 * a)
    let own := ownHbm a = true
    let line := a % 128 + s.ev.data.length ≤ 128 ∧ s.ev.data ≠ []
    let timed := s.pend.find? fun y => y.id == a && y.key / 2 / 128 * 128 / 2 ^ 50 % 4 == 3 && !y.arrived && y.issued + 25000 ≤ s.clk
    let port? := s.portOf (physKey a)
    let arrives := fun (t : State) (kind : PKind) => t.mem = s.mem ∧ t.groups = s.groups ∧
      ∃ y ∈ t.pend, y.key = physKey a ∧ y.kind = kind ∧ y.arrived = true ∧ y.owner = none
    let refused := fun (src : Option Nat) (t : State) => t.refused = min (s.refused + 1) (2 ^ 64 - 1) ∧ t.pend = s.pend ∧ t.mem = s.mem ∧
      t.irqs = s.irqs ++ [0] ∧ t.log = s.log ++ [⟨5, 0, s.now, a, (src.map (· + 1)).getD 0, 0⟩]
    let read := fun (i : Instr) => s.does i fun t => { t with homes := s.homes, ports := s.ports } = s ∧ (t.home (physKey a)).pred = none ∧
      (t.home (physKey a)).lendTo = none ∧ ((s.home (physKey a)).lent ≠ none → (t.home (physKey a)).recalled = true)
    let store := fun (i : Instr) (src : Option Nat) =>
      (s.refuses a src = false → s.does i fun t => arrives t (.store a s.ev.data false)) ∧ (s.refuses a src = true → s.does i (refused src))
    let atomic := fun (i : Instr) (src : Option Nat) =>
      (s.refuses a src = false → s.does i fun t => arrives t (.atomic a (s.ev.d / 1024) (s.ev.d % 16) (s.ev.d / 16 % 64)
        (BitVec.ofNat 64 (leNat (s.ev.data.take 8))) (BitVec.ofNat 64 (leNat ((s.ev.data.drop 8).take 8))) .none)) ∧
      (s.refuses a src = true → s.does i (refused src))
    let w := s.ev.d / 1024
    let listed := (s.ev.d % 16 = 0 ∨ s.ev.d % 16 = 6 ∨ s.ev.d % 16 = 7) ∧ (w = 4 ∨ w = 8)
    let bar := fun (t : State) => leNat ((List.range w).map fun i => tabD t.bar2 (a + i) 0)
    let host := s.ev.b ≠ 1 ∧ s.recovery = false
    let comes := s.recovery = false ∧ port? ≠ none
    let trapped := fun (t : State) (code : Nat) (addr : W64) => ∃ g', t.grp k = some g' ∧ ∃ x ∈ g'.pendTraps, x.code = code ∧ x.addr = addr
    (s.does .boot fun t =>
      (signed → t = { s with
        booted := true, recovery := false, svn := BitVec.ofNat 32 svn, measure := Config.sha3 (s.flashBytes 0 (7264 + size)) }) ∧
      (¬ signed → t = { s with booted := false, recovery := true })) ∧
    exec .coolantConfirm s = .next { s with coolant := true } ∧
    exec .thermalStop s = .next { s with stopped := true, log := s.log ++ [⟨8, 0, s.now, 0, 0, 0⟩], irqs := s.irqs ++ [0] } ∧
    exec .hostLinkTraining s = .next { s with linkLanes := if 16 ≤ a then 16 else 8, cxl := s.ev.flag } ∧
    (a < 36 → exec .portUp s = .next { s with ports := tabSet s.ports a { port with
      up := true, dead := false, lanes := min s.ev.b 4, run := 0, change := if port.up ∧ port.dead = false then port.change else s.now } }) ∧
    (36 ≤ a → exec .portUp s = .next s) ∧
    (s.does .timeAlign fun t => { t with timeBase := s.timeBase, ports := s.ports } = s ∧
      t.now = (if s.coolant then s.now else max s.now a) ∧
      let y := tabD s.ports s.ev.b {}
      t.ports = if s.ev.b < 36 then tabSet s.ports s.ev.b { y with rx := moreFlits y.rx s.clk 4 } else s.ports) ∧
    (s.recd.pend = [] → exec .traceRecord s = .next s) ∧
    (s.recd.pend = b :: r → s.recd.sent = false → full → exec .traceRecord s = .next { s with recd := { s.recd with stalled := true } }) ∧
    (s.recd.pend = b :: r → s.recd.sent = true → s.ownBusy ownTrace = true → exec .traceRecord s = .next s) ∧
    (s.recd.pend = b :: r → s.recd.sent = false → ¬ full → fits → ¬ atOnce → s.does .traceRecord fun t =>
      { t with pend := s.pend, nextId := s.nextId, recd := s.recd } = s ∧ t.recd = { s.recd with sent := true } ∧
        ∃ p : Pend, t.pend = s.pend ++ [p] ∧ p.id = s.nextId ∧ p.key = physKey place ∧ p.ctx = ownTrace ∧ p.owner = none ∧
          p.arrived = false ∧ p.issued = s.clk ∧ p.kind = .store place b false) ∧
    (s.recd.pend = b :: r → s.recd.sent = false → ¬ full → fits → atOnce → s.ownBusy ownTrace = false → Memory.wf s.mem = true →
      s.does .traceRecord fun t => appended t ∧ { t with recd := s.recd, mem := s.mem, poison := s.poison, cells := s.cells } = s ∧
        ∀ i, memGet t.mem i = if place ≤ i ∧ i < place + b.length then b.getD (i - place) 0 else memGet s.mem i) ∧
    (s.recd.pend = b :: r → s.recd.sent = true → s.ownBusy ownTrace = false →
      s.does .traceRecord fun t => appended t ∧ { t with recd := s.recd } = s) ∧
    (s.does .recordedHeadWrite fun t =>
      let head := a % ring / 32 * 32
      let go := if s.recd.replay then s.recd.tail ≠ head else (s.recd.tail + 32) % ring ≠ head
      { t with recd := s.recd } = s ∧
        t.recd = { s.recd with head := head, stalled := t.recd.stalled, hold := t.recd.hold, pend := t.recd.pend } ∧
        (t.recd.stalled = true ↔ s.recd.stalled = true ∧ ¬ go) ∧ (t.recd.hold = true ↔ s.recd.hold = true ∧ ¬ go) ∧
        t.recd.pend = s.recd.pend ++ if s.recd.active && !s.recd.replay then
          [traceBytes 2 0 (s.runClock s.recd.ctx) (leBytes 8 (2 ^ 53 + 0x2020) ++ leBytes 8 8), leBytes 8 a ++ List.replicate 24 0] else []) ∧
    (exec .hostSnoop s = .next { s with
      snoops := s.snoops ++ [{ half := a, inv := s.ev.flag, data := if s.ev.data = [] then none else some s.ev.data }] }) ∧
    (s.snoops.find? (fun x => x.half == a) = none → exec .snoopAnswer s = .next s) ∧
    (s.snoops.find? (fun x => x.half == a) = some n →
      (s.now < (s.home (physKey (2 ^ 50 + 64 * a))).exp → exec .snoopAnswer s = .next s) ∧
      ((s.home (physKey (2 ^ 50 + 64 * a))).exp ≤ s.now → n.data ≠ none → n.inv = true → a < 2 ^ 44 →
        keyed s.l2 (fun x => x % 128 = 0 ∧ x < 2 ^ 52) → (∀ l, tabGet s.l2 (keyPa (physKey (2 ^ 50 + 64 * a))) = some l → l.place = none) → (∃ q ∈ s.queues, seals q.2) →
        s.does .snoopAnswer fun t => t.snoops = s.snoops.erase n ∧ tabGet t.halves a = some .s) ∧
      ((s.home (physKey (2 ^ 50 + 64 * a))).exp ≤ s.now → (n.data = none ∨ ∀ q ∈ s.queues, ¬ seals q.2) → Memory.wf s.mem = true →
        s.does .snoopAnswer fun t =>
        t.snoops = s.snoops.erase n ∧ (∀ h, h ≠ a → tabGet t.halves h = tabGet s.halves h) ∧
          tabGet t.halves a = (if n.inv then none else (tabGet s.halves a).map fun _ => .s) ∧
          ∀ i, memGet t.mem i = match n.data with
            | some d =>
              let at_ := 2 ^ 50 + 64 * a + n.off
              if at_ ≤ i ∧ i < at_ + min (64 - n.off) d.length then d.getD (i - at_) 0 else memGet s.mem i
            | none => memGet s.mem i)) ∧
    (s.ev.b = 1 → s.replayDatum = none → s.replayMissed = false → exec .hostMemoryRequest s = .next s) ∧
    (s.ev.b = 1 → s.replayMissed = true → s.does .hostMemoryRequest fun t => t.recd.mismatch = true ∧ t.irqs = s.irqs ++ [0] ∧
      (∀ j y, s.grp j = some y → y.ctx = s.recd.ctx → ∃ y', t.grp j = some y' ∧ y'.susp ≠ none) ∧
      ∀ v ∈ t.saved, ∀ y ∈ v.groups, y.2.ctx = s.recd.ctx → y.2.susp ≠ none) ∧
    (∀ pa data, s.ev.b = 1 → s.replayDatum = some (pa, data) → s.does .hostMemoryRequest fun t =>
      t.recd.count = s.recd.count + 1 + (data.length + 31) / 32 ∧
        (2 ^ 52 ≤ pa → pa < 2 ^ 53 → ∀ i, tabGet t.bar2 i = if pa ≤ 2 ^ 52 + i ∧ 2 ^ 52 + i < pa + data.length then data[2 ^ 52 + i - pa]? else tabGet s.bar2 i)) ∧
    (s.ev.b ≠ 1 → s.recovery = true ∨ (s.cxl = false ∧ s.ev.c ≠ 1) → exec .hostMemoryRequest s = .next s) ∧
    (host → s.ev.c = 1 →
      (¬ listed → exec .hostMemoryRequest s = .next s) ∧
      (listed → s.cxl = true → own → atomic .hostMemoryRequest none) ∧
      (listed → s.cxl = false → s.recd.active = false → s.ev.d / 16 % 64 ∉ [8, 9, 10, 11, 12, 13, 14] → s.does .hostMemoryRequest fun t =>
        { t with bar2 := s.bar2 } = s ∧ (∀ i, i < a ∨ a + w ≤ i → tabGet t.bar2 i = tabGet s.bar2 i) ∧
          let x := leNat (s.ev.data.take 8)
          bar t = (match s.ev.d % 16 with
            | 0 => bar s + x
            | 6 => x
            | _ => if bar s = leNat ((s.ev.data.drop 8).take 8) % 2 ^ (8 * w) then x else bar s) % 2 ^ (8 * w))) ∧
    (host → s.ev.c ≠ 1 → s.cxl = true → own →
      (s.ev.flag = false → read .hostMemoryRequest) ∧
      (s.ev.flag = true → line → s.recd.active = false → store .hostMemoryRequest none)) ∧
    (¬ comes → exec .fabricRequest s = .next s) ∧
    (comes → own → (s.ev.c = 0 → read .fabricRequest) ∧
      (s.ev.c = 1 → line → s.recd.active = false → store .fabricRequest (some s.ev.b)) ∧
      (2 ≤ s.ev.c → atomic .fabricRequest (some s.ev.b))) ∧
    (¬ own → host → s.ev.c ≠ 1 → s.ev.flag = false → exec .hostMemoryRequest s = .next s) ∧
    (¬ own → comes → s.ev.c ≠ 1 → s.does .fabricRequest fun t => { t with ports := s.ports } = s) ∧
    (timed = none → exec .remoteTimeout s = .next s) ∧
    (timed = some p →
      (s.does .remoteTimeout fun t => t.rtimeout = min (s.rtimeout + 1) (2 ^ 64 - 1) ∧ t.irqs = s.irqs ++ [0] ∧
        (∀ y ∈ t.pend, y.id ≠ p.id) ∧ (Config.timedOutPerformed p.id = false → t.mem = s.mem)) ∧
      (p.owner = some owner → s.keyOf owner = some k → s.grp k = some g → s.does .remoteTimeout fun t => trapped t 0x18 p.va) ∧
      (∀ i w pc, p.owner = some owner → s.keyOf owner = some k → s.grp k = some g → g.hnd = none → p.kind = .lost (.scalar i false) w pc →
        i ≠ 0 → s.does .remoteTimeout fun t => ∃ g', t.grp k = some g' ∧ (g'.sGet i).pz = true) ∧
      (∀ th i w pc, p.owner = some owner → s.keyOf owner = some k → s.grp k = some g → p.kind = .lost (.lane o.id th i) w pc → 0 < w → w ≤ 4 →
        g.slot0 = some sp → sp.outs = [o] → o.vals = [⟨th, i, none⟩] → s.does .remoteTimeout fun t => ∃ g' sp' y, t.grp k = some g' ∧
          g'.slot0 = some sp' ∧ sp'.outs = [{ o with vals := [⟨th, i, some y⟩] }] ∧ y.pz = true) ∧
      (∀ who w pc, p.owner = some owner → p.kind = .lost (.reader who false) w pc → s.does .remoteTimeout fun t =>
        ∃ z ∈ t.served, z.who = who ∧ z.key = p.key ∧ z.pz = 15 ∧ z.lost = true) ∧
      (p.owner = none → s.copies.find? (fun y => y.id == p.blk) = some c → s.keyOf (c.wg, c.gidx) = some k → s.grp k = some g →
        s.does .remoteTimeout fun t => trapped t 0x17 c.addr ∧ (∀ y ∈ t.copies, y.id ≠ c.id) ∧
          ∃ g', t.grp k = some g' ∧ tabD g'.tags c.tag {} = { state := 2, fcause := 4, done := if p.isLost then c.done else (c.done - 1) / 128 * 128 }) ∧
      (p.owner = none → s.copies.find? (fun y => y.id == p.blk) = none → s.mats.find? (fun y => y.id == p.blk) = some m →
        s.keyOf owner = some k → s.grp k = some g → owner.1 = m.wg → owner.2 ∈ m.members → s.does .remoteTimeout fun t => trapped t 0x18 p.va))

/-- R181, R188, R191–R195, R253, R292, R314, R325, R339, R343–R345, R348–R350, R353–R360: the steps of the engines. A projection registers
its range, and takes its latent lines as they come, from a lease of its hearth or as they were served to it; the row formed from them
through the entry's matrix is installed, unless a latent line has died, and brought to the `ldv` instructions that wait for it; a `vset`
copy ends and its register has its new binding; a copy reads the indexes of its next unit once each, takes one unit at a time, ends when
its writes are performed and its last line has come, and stops at a fault with its cause in the tag; an `mma` adds one block to every
element of D, and leaves once drained; an accumulator command takes one unit at a time. That a latent piece comes from a lease of the
hearth or as it was served is the model's choice (log 39), that K-steps go on while any member is resident is too (log 45), and so is the
sign of a zero sum or product (log 71). -/
def Obligations.EngineEvents : Prop :=
  ∀ (s s0 s1 s2 : State) (k : Nat) (g : Machine.Group) (p : Proj) (c c' : Copy) (m : MatOp) (w : Wg) (b : List (Byte × Bool)) (data : List Byte)
    (z : Bool) (cause : Nat) (at_ : W64) (l : List (W64 × Tr × List Byte × Bool)),
    let a := s.ev.a
    let f := copyF c.kind c.desc
    let n := min 128 (f.total - c.done)
    let held := s.behind c.hearth c.id = true ∨ s.precedes c.wg [c.gidx] c.id = true ∨ s.awaitsModule c.id = true
    let moves := fun (s t : State) (done next : Nat) (got : List Nat) =>
      t.copies = s.copies.map fun x => if x.id = c.id then { x with done := done, next := next, got := got } else x
    let holds := s.does .copyUnit fun t => t.mem = s.mem ∧ t.pend = s.pend ∧ moves s t c.done (s.clk + 1) c.got
    let tagged := fun (t : State) (x : TagSt) => ∃ g', t.grp k = some g' ∧ tabD g'.tags c.tag {} = x
    let reads := s.copyIndexes c f (f.needs c n) = (s0, c', .ok ())
    let stops := s1.keyOf (c.wg, c.gidx) = some k → s1.grp k = some g →
      s.does .copyUnit fun t => tagged t { state := 2, fcause := cause, done := c.done } ∧ (∀ x ∈ t.copies, x.id ≠ c.id) ∧
        ∃ g', t.grp k = some g' ∧ c.id ∈ g'.spent ∧ ∃ y ∈ g'.pendTraps, y.code = 0x17 ∧ y.addr = c.addr
    let other := fun (x : Copy) => x.id ≠ c.id ∧ x.wg = g.wg ∧ x.gidx = g.gidx ∧ x.tag = c.tag
    let r := mmaRec m.record
    let put := fun (s : State) (m' : MatOp) =>
      { s with mats := s.mats.map fun x => if x.id = m.id then { m' with late := max m'.late x.late } else x }
    let ended := fun (t : State) => (∀ x ∈ t.mats, x.id ≠ m.id) ∧ ∀ x ∈ t.locks, x.2.op ≠ m.id
    let drains := r.k / r.a.bl ≤ m.kdone
    let here := ∃ y ∈ s.groups, y.2.wg = m.wg ∧ y.2.gidx ∈ m.members ∧ y.2.saved = false
    let size := r.accSize
    let dAt := fun i j => 1024 * r.dunit + (i * r.n + j) * size
    let u := m.u + m.kdone
    let slow := fun (s1 : State) => s1.writesOf m.id = true ∨ ∃ x ∈ s1.mats, x.id = m.id ∧ s1.clk < x.late
    let next := fun (s1 t : State) => (¬ slow s1 ∧ m.n ≤ m.kdone + 1 → ended t) ∧
      (slow s1 ∨ m.kdone + 1 < m.n → t.mats = (put s1 { m with kdone := m.kdone + 1, next := s1.clk + 1 }).mats)
    let unit := fun (s1 : State) (d : List Byte) (z : Bool) => tabGet s1.wgs m.wg = some w → s.does .accUnit fun t => next s1 t ∧ t.mem = s1.mem ∧
      ∃ w', tabGet t.wgs m.wg = some w' ∧ (u ∈ w'.accPz ↔ z = true) ∧
        ∀ i, w'.accByte i = if 1024 * u ≤ i ∧ i < 1024 * u + d.length then d.getD (i - 1024 * u) 0 else w.accByte i
    (s.projs.find? (fun x => x.id == a) = none → exec .projectionComplete s = .next s) ∧
    (s.projs.find? (fun x => x.id == a) = some p →
      (∀ pa n len cmpr, p.locked = true → p.left = [(pa, n, len, cmpr)] → s.recording p.ctx = false →
        let key := physKey pa
        let who := (readerProj, p.id)
        let mine := s.served.find? fun x => x.who == who && x.key == key
        let p1 := { p with late := max p.late (s.clk + s.missClocks p.hearth key) }
        let becomes := fun (t : State) (p' : Proj) => exec .projectionComplete s = .next { t with
          projs := s.projs.map fun x => if x.id = p.id then p' else x }
        (∀ x, mine = some x → s.ownWrites p.owner key = false →
          becomes s (p1.take key ((x.bytes.drop (pa % 128)).take n) (partPz x.pz pa n) x.copy)) ∧
        (mine = none → s.readerOut who key = false → s.lostRead p.ctx p.hearth key s.nextId = true → s.does .projectionComplete fun t =>
          t.mem = s.mem ∧ ∃ q ∈ t.pend, q.kind = .lost (.reader who false) n 0 ∧ q.key = key ∧ q.owner = some p.owner ∧ q.va = p.vaOf ∧
            q.issued = s.clk) ∧
        (mine ≠ none ∨ (s.readerOut who key = false ∧ s.lostRead p.ctx p.hearth key s.nextId = false) →
          (s.ownWrites p.owner key = true → s.does .projectionComplete fun t => { t with homes := s.homes, projs := s.projs } = s ∧
            t.projs = s.projs.map (fun x => if x.id = p.id then p else x) ∧
            ∃ w ∈ (t.home key).waiting, w.h = p.hearth ∧ w.who = some who) ∧
          (∀ l, s.ownWrites p.owner key = false → mine = none → s.l1Copy p.hearth key (s.frozenGen key) = some l → partPz l.pz pa n = false →
            becomes (s.l1Use p.hearth l) (p1.take key (s.seen pa n) (s.poisoned pa n) (some l))))) ∧
      (p.locked = false → p.left ≠ [] → s.mayLock p = false → exec .projectionComplete s = .next s) ∧
      (∀ i, p.locked = false → p.left ≠ [] → s.mayLock p = true → s.freeLock p.hearth = some i → s.does .projectionComplete fun t =>
        (∃ x, tabGet t.locks (64 * p.hearth + i) = some x ∧ x.kind = lockProj ∧ x.op = p.id ∧ x.dst = false ∧ x.space = .glob ∧
          x.base = va57 ((vdesc p.desc.toNat).rowAddr p.token) ∧ x.len = (vdesc p.desc.toNat).rowBytes) ∧ ∃ x ∈ t.projs, x.id = p.id ∧ x.locked = true) ∧
      (p.left = [] → p.ready = 0 → s.clk < p.late → exec .projectionComplete s = .next s) ∧
      (p.left = [] → p.ready = 0 → p.late ≤ s.clk →
        let d := vdesc p.desc.toNat
        let u := (d.len * d.width + 16383) / 16384 + 6
        ∃ T, exec .projectionComplete s = .next { s with projs := s.projs.map fun x => if x.id = p.id then { x with ready := T } else x } ∧
          s.clk + u ≤ T ∧ (∀ q ∈ s.projs, q.hearth = p.hearth → q.ready - 6 + u ≤ T) ∧
          (T = s.clk + u ∨ ∃ q ∈ s.projs, q.hearth = p.hearth ∧ T = q.ready - 6 + u)) ∧
      (p.left = [] → s.clk < p.ready → exec .projectionComplete s = .next s) ∧
      (p.left = [] → p.ready ≠ 0 → p.ready ≤ s.clk →
        let ent := s.vent p.hearth p.slot
        let d := vdesc p.desc.toNat
        let row := projectRow d ent.bytes p.lat
        let pz := p.pz || ent.pz
        s.does .projectionComplete fun t =>
          (∀ x ∈ t.projs, x.id ≠ p.id) ∧ (∀ x ∈ t.locks, ¬ (x.2.kind = 3 ∧ x.2.op = p.id)) ∧
          (∀ j y, s.grp j = some y → (∀ x ∈ p.waiters, s.keyOf x.who ≠ some j) → ∃ y', t.grp j = some y' ∧ y.sameButL1 y') ∧
          (∀ x th r col, p.waiters = [x] → x.elems = [(th, r, col)] → d.ofmt ≠ 10 → s.keyOf x.who = some k → s.grp k = some g →
            let bytes := (row.drop (fmtSize d.ofmt * col)).take (fmtSize d.ofmt)
            ∃ g', t.grp k = some g' ∧ (g.fill x.out th r ⟨BitVec.ofNat 32 (leNat bytes), pz⟩).sameButL1 g') ∧
          (p.install = true → p.stale = false → row ≠ [] → row.length ≤ 128 → ∃ x ∈ t.l1Lines p.hearth ((p.token + 64 * p.slot) % 512),
            x.kind = .view ∧ x.slot = p.slot ∧ x.gen = p.gen ∧ x.token = p.token ∧ x.row = row ∧ x.exp = p.exp ∧ x.deps = p.deps ∧
              x.pz = if pz then 15 else 0))) ∧
    (∀ x, s.grp a = some g → tabGet g.wBusy s.ev.b = some x →
      exec .viewMatrixCopyDone s = .next (s.setG a { g with w := tabSet g.w s.ev.b x.w, wBusy := tabDel g.wBusy s.ev.b })) ∧
    (s.copies.find? (fun x => x.id == a) = none → exec .copyUnit s = .next s) ∧
    (s.copies.find? (fun x => x.id == a) = some c →
      (f.total ≤ c.done → s.writesOf c.id = true ∨ s.clk < c.late → holds) ∧
      (f.total ≤ c.done → s.writesOf c.id = false → c.late ≤ s.clk → s.keyOf (c.wg, c.gidx) = some k → s.grp k = some g → g.name = (c.wg, c.gidx) →
        s.does .copyUnit fun t => (∀ x ∈ t.copies, x.id ≠ c.id) ∧ (∀ x ∈ t.locks, ¬ (x.2.kind = 0 ∧ x.2.op = c.id)) ∧ t.mem = s.mem ∧
          tagged t {} ∧ ∃ g', t.grp k = some g' ∧ (g.yielded = none → { g' with tags := g.tags } = g) ∧
            ∀ target, g.yielded = some (c.tag, target) → (∀ x ∈ s.copies, ¬ other x) →
              (∀ x ∈ s.mats, ¬ (x.wg = g.wg ∧ g.gidx ∈ x.members)) → g'.spc = target ∧ g'.yielded = none) ∧
      (c.done < f.total → held → holds) ∧
      (c.done < f.total → ¬ held →
        (s.copyIndexes c f (f.needs c n) = (s1, c', .wait) → s.does .copyUnit fun t => t.mem = s1.mem ∧ t.pend = s1.pend ∧
          t.copies = s1.copies.map fun x => if x.id = c'.id then { x with done := c'.done, next := s1.clk + 1, got := c'.got } else x) ∧
        (s.copyIndexes c f (f.needs c n) = (s1, c, .fault cause) → stops) ∧
        (∀ x, reads → c'.id = c.id → c'.wg = c.wg → c'.gidx = c.gidx → c'.tag = c.tag → c'.hearth = c.hearth → c'.done = c.done →
          s0.copyRead c' f (n + 1) c.done n = (s1, .ok b) → s1.copyWrite c' f (runsOf (f.writes c.done b)) = (s2, .ok x) →
          (∀ q ∈ s2.pend, ∀ y z w pc, q.kind ≠ .lost (.reader y z) w pc) →
          s.does .copyUnit fun t => t.mem = s2.mem ∧ t.pend = s2.pend ∧ moves s2 t (c.done + n) s2.clk [] ∧
            (∃ turns, tabGet t.cpTurn c.hearth = some (s2.clk, turns + 1, c.id)) ∧
            (s2.keyOf (c.wg, c.gidx) = some k → s2.grp k = some g → tagged t { state := 1, done := c.done + n })) ∧
        (f.needs c n = 0 → s.copyRead c f (n + 1) c.done n = (s1, .fault cause) → stops) ∧
        (f.needs c n = 0 → s.copyRead c f (n + 1) c.done n = (s2, .ok b) →
          s2.copyWrite c f (runsOf (f.writes c.done b)) = (s1, .fault cause) → stops) ∧
        (f.kind = 0 → f.cvt = 0 → f.ssp = 1 → f.dsp = 1 → f.ok w.scratchBytes 0 = true → tabGet s.wgs c.wg = some w → w.spPz = [] →
          (∀ y ∈ w.pages, y.2.resident = true) →
          s.does .copyUnit fun t => ∃ w', tabGet t.wgs c.wg = some w' ∧ ∀ i, w'.spByte i =
            if f.dst + c.done ≤ i ∧ i < f.dst + c.done + n then w.spByte (f.src + (i - f.dst)) else w.spByte i))) ∧
    (s.copyIndexes c f 0 = (s, c, .ok ()) ∧ (f.kind ≠ 2 → f.needs c n = 0) ∧ (f.kind = 2 → f.needs c n = n / 2 ^ f.elog - c.got.length) ∧
      ∀ j, let size := if f.wide then 8 else 4
        let read := s.copySpan c f.isp 9 (f.idx + (c.done / 2 ^ f.elog + c.got.length) * size) size
        (∀ x, read = (s1, .ok x) → s.copyIndexes c f (j + 1) = s1.copyIndexes { c with got := c.got ++ [leNat x] } f j) ∧
        (read = (s1, .wait) → s.copyIndexes c f (j + 1) = (s1.undoTrace s, c, .wait)) ∧
        (read = (s1, .fault cause) → s.copyIndexes c f (j + 1) = (s1, c, .fault cause))) ∧
    (∀ j q i x, let at_ := match f.kind with
          | 0 => f.src + q
          | 1 => f.src + q / f.len * f.sstride + q % f.len
          | _ => f.src + c.got.getD ((q - c.done) / 2 ^ f.elog) 0 * 2 ^ f.elog + q % 2 ^ f.elog
        let piece := min (i + 1) (min (f.run q) (8 - at_ % 8))
        let read := s.copyBytes c f.ssp at_ piece
        (read = (s1, .ok (data, z)) → f.inOwnDst at_ q = false → s1.copyRead c f j (q + piece) (i + 1 - piece) = (s2, .ok x) →
          s.copyRead c f (j + 1) q (i + 1) = (s2, .ok (data.map (·, z) ++ x))) ∧
        (read = (s1, .wait) → s.copyRead c f (j + 1) q (i + 1) = (s1, .wait)) ∧
        (read = (s1, .fault cause) → s.copyRead c f (j + 1) q (i + 1) = (s1, .fault cause))) ∧
    (∀ x i, s.copyBytes c 0 x i = if 2 ^ 64 < x + i then (s, .fault 1)
      else s.engineRead c.hearth c.ctx c.id (c.wg, c.gidx) (BitVec.ofNat 64 x) i) ∧
    (∀ x tr, f.dsp = 0 → f.ssp ≠ 0 → x < 2 ^ 64 → s.engineWrite c.hearth c.ctx (BitVec.ofNat 64 x) = (s1, .ok tr) → tr.creg = none →
      s1.lentTo c.hearth (physKey tr.pa) = false → ∃ t ad q, s.copyWrite c f [(x, data, z)] = (t, .ok ()) ∧ t.pend = s1.pend ++ ad ++ [q] ∧
        (∀ y ∈ ad, y.gathers) ∧ q.kind = .store tr.pa data z ∧ q.key = physKey tr.pa ∧ q.blk = c.id ∧ q.owner = none ∧ q.arrived = false) ∧
    (∀ x, f.dsp = 0 → x < 2 ^ 64 → s.engineWrite c.hearth c.ctx (BitVec.ofNat 64 x) = (s1, .fault cause) →
      s.copyWrite c f [(x, data, z)] = (s1, .fault cause)) ∧
    (s.mats.find? (fun x => x.id == a && x.kind == .mma) = none → exec .mmaKstep s = .next s) ∧
    (s.mats.find? (fun x => x.id == a && x.kind == .mma) = some m →
      (s.matReady m = false → exec .mmaKstep s = .next (put s { m with next := s.clk + 1 })) ∧
      (s.matReady m = true → m.going = false →
        (drains → exec .mmaKstep s = .next (put s { m with going := true, next := s.clk + 16 })) ∧
        (¬ drains → here → exec .mmaKstep s = .next (put s { m with going := true, next := s.clk + r.stepClocks })) ∧
        (¬ drains → ¬ here → exec .mmaKstep s = .next (put s { m with going := false, next := s.clk + 1 }))) ∧
      (s.matReady m = true → m.going = true → drains → s.does .mmaKstep fun t => ended t ∧ t.mem = s.mem ∧
        (m.pz = true → tabGet s.wgs m.wg = some w → ∃ w', tabGet t.wgs m.wg = some w' ∧ { w' with accPz := w.accPz } = w ∧
          ∀ i < r.units, r.dunit + i ∈ w'.accPz)) ∧
      (s.matReady m = true → m.going = true → ¬ drains → tabGet s.wgs m.wg = some w → (∀ y ∈ w.pages, y.2.resident = true) →
        s.does .mmaKstep fun t => t.mem = s.mem ∧ t.groups = s.groups ∧
          (∃ x ∈ t.mats, x.id = m.id ∧ x.kdone = m.kdone + 1 ∧
            x.pz = (m.pz || r.reads w m.kdone)) ∧
          ∃ w', tabGet t.wgs m.wg = some w' ∧ { w' with acc := w.acc } = w ∧
            ∀ i < r.m, ∀ j < r.n, w'.accRead (dAt i j) size =
              leBytes size (r.step (w.accRead (dAt i j) size) (blockOf w r.a r.aoff r.k i m.kdone, scaleOf w r.a r.m i m.kdone)
                (blockOf w r.b r.boff r.k j m.kdone, scaleOf w r.b r.n j m.kdone))) ∧
      (s.matReady m = true → m.going = true → ¬ drains → s.refillFails m.wg r = true →
        s.does .mmaKstep fun t => ∃ x ∈ t.mats, x.id = m.id ∧ x.kdone = m.kdone + 1 ∧ x.pz = true)) ∧
    (s.mats.find? (fun x => x.id == a && x.kind != .mma) = none → exec .accUnit s = .next s) ∧
    (s.mats.find? (fun x => x.id == a && x.kind != .mma) = some m →
      (s.matReady m = false → exec .accUnit s = .next (put s { m with next := s.clk + 1 })) ∧
      (s.matReady m = true → m.n ≤ m.kdone → s.writesOf m.id = true ∨ s.clk < m.late → exec .accUnit s = .next (put s { m with next := s.clk + 1 })) ∧
      (s.matReady m = true → m.n ≤ m.kdone → s.writesOf m.id = false → m.late ≤ s.clk → s.does .accUnit ended) ∧
      (s.matReady m = true → m.kdone < m.n →
        (m.kind = .accz → unit s (List.replicate 1024 0) false) ∧
        (m.kind = .accld →
          let read := s.unitRead m (m.wg, m.members.headD 0) 1025 (m.d + BitVec.ofNat 64 (m.kdone * if m.fmt = 0 then 1024 else 512)) 1024
          (read = (s1, .ok (data, z)) → unit s1 data z) ∧
          (read = (s1, .wait) → exec .accUnit s = .next (put (s1.undoTrace s) { m with next := s1.clk + 1 })) ∧
          (read = (s1, .stop at_ (data, z)) → s1.grp (128 * m.hearth + m.gslot) = some g → s.does .accUnit fun t => ended t ∧
            ∃ g', t.grp (128 * m.hearth + m.gslot) = some g' ∧ ∃ y ∈ g'.pendTraps, y.code = 0x16 ∧ y.addr = at_)) ∧
        (m.kind = .accst →
          let va := m.d + BitVec.ofNat 64 (m.kdone * if m.fmt = 0 then 1024 else 512)
          let pz := (s.wgOf m.wg).accPz.contains u
          let out := accOut m.fmt ((s.wgOf m.wg).accRead (1024 * u) 1024)
          let check := s.unitChecks m (runsFrom ((enumFrom va.toNat out).map fun e => (e.1, e.2, pz)))
          (check = (s1, .ok l) → m.id ≠ 0 → (∀ x ∈ l, s1.lentTo m.hearth (physKey x.2.1.pa) = false) → s.does .accUnit fun t =>
            ∃ qs, t.pend = s1.pend ++ qs ∧ (∀ q ∈ qs, q.blk ≠ m.id → q.gathers) ∧
              let sent := qs.filter (·.blk == m.id)
              sent.length = l.length ∧ ∀ (i : Nat) (q : Pend) (x : W64 × Tr × List Byte × Bool), sent[i]? = some q → l[i]? = some x →
                q.kind = .store x.2.1.pa x.2.2.1 x.2.2.2 ∧ q.owner = none ∧ q.arrived = false) ∧
          (check = (s1, .wait) → exec .accUnit s = .next (put s1 { m with next := s1.clk + 1 }))))) ∧
    (∀ (y : List Byte), accOut 0 y = y) ∧
    (∀ (y : List Byte), y.length = 4 →
      accOut 1 y = leBytes 2 (roundTo bf16 (f32.decode (leNat y)) 1 false) ∧ accOut 2 y = leBytes 2 (roundTo f16 (f32.decode (leNat y)) 1 false))

/-- R24, R27, R242, R322, R368–R374: the dispatcher. A resident queue's next sealed record, once no snoop or write of its lines is pending,
becomes a grid of its queue or is refused with its reason and the queue's interrupt, and under CXL.cache the next slot's seal line is held;
the host's bytes reach a queue's window, after a snoop where the device may hold a copy; a workgroup is placed on a hearth that has room,
its groups with their arguments in s1 up and MODE at its reset values; a grid that is over retires, a child with its own interrupt, and a
root grid's record counts as done once the gathered bits are written, the writes that edges on it carry are acknowledged, and the host
halves of their regions are given back. That a record sealed before coolant is confirmed stays unread until then is the model's choice (log
63). -/
def Obligations.LaunchEvents : Prop :=
  ∀ (s : State) (gr : Grid) (reason pb : Nat),
    let a := s.ev.a
    let q := s.queueAt a
    let b := s.slotBytes a q q.prog
    let off := q.window + s.ev.b
    let half := off / 64
    let s' := if s.cxl then s.readLines (2 ^ 50 + q.window + 256 * (q.prog % max q.nslot 1)) 256 else s
    let nextSeal := q.window + 256 * ((q.prog + 1) % max q.nslot 1) + 255
    let held := fun (t : State) => s.cxl = true → nextSeal < 2 ^ 50 → keyed s'.l2 (fun x => x % 128 = 0 ∧ x < 2 ^ 52) →
      (∀ l, tabGet s'.l2 (keyPa (physKey (2 ^ 50 + nextSeal))) = some l → l.place = none) → tabGet t.halves (nextSeal / 64) ≠ none
    let sealed := q.die ≠ none ∧ s.coolant = true ∧ (tabD s.ctxs q.ctx {}).ending = false ∧ s.cmd.run ≠ some (0x0B, a + 1) ∧
      (s.cxl = true → s.readHeld (2 ^ 50 + q.window + 256 * (q.prog % max q.nslot 1)) 256 = false) ∧
      (b.getD 255 0).toNat = q.prog / max q.nslot 1 % 255 + 1
    let rest : State := { s with grids := tabDel s.grids a }
    let waits := s.gathering gr.ctx = true ∨ ∃ e ∈ s.edgesOn gr.q gr.rec_ (gr.rec_ + 1), s.edgeQuiet e = false
    let spent := gr.live = 0 ∧ gr.gx * gr.gy * gr.gz ≤ gr.next ∧ ∀ x ∈ s.grids, x.2.pgrid ≠ some a
    let c := tabD s.ctxs gr.ctx {}
    let fits := fun h => h < 144 ∧ c.hset.getLsbD h = true ∧ s.kept h = false ∧ s.room h (fun _ => true) gr ≠ 0
    (s.ev.flag = true → s.replayLaunch = none → exec .launchRecord s = .next s) ∧
    (s.ev.flag = false → s.recd.active = false → s.recd.armed = false →
      (¬ sealed → exec .launchRecord s = .next s) ∧
      (sealed → s'.parse (q.die.getD 0) q.ctx b none = .inl gr → s.does .launchRecord fun t =>
        t.queues = tabSet s.queues a { q with prog := q.prog + 1 } ∧
          t.grids = tabSet s.grids s.nextId { gr with q := a, rec_ := q.prog, prio := q.prio, latency := q.latency } ∧
          t.irqs = s.irqs ∧ t.groups = s.groups ∧ held t ∧
          (s.cxl = false → { t with grids := s.grids, queues := s.queues, nextId := s.nextId } = s)) ∧
      (sealed → s'.parse (q.die.getD 0) q.ctx b none = .inr reason → s.does .launchRecord fun t => t.grids = s.grids ∧
        t.irqs = s.irqs ++ [q.vec] ∧ held t ∧
        (t.queueAt a).prog = q.prog + 1 ∧ (t.queueAt a).err = q.prog % 2 ^ 48 + reason * 2 ^ 48 ∧
        (q.done = q.prog → q.fin = [] → (t.queueAt a).done = q.prog + 1))) ∧
    (s.cxl = false → s.recovery = true → exec .queueSealWrite s = .next s) ∧
    (s.cxl = false → s.recovery = false → s.recd.active = false →
      exec .queueSealWrite s = .next { s with bar2 := tabPut s.bar2 (a * 2 ^ 20 + s.ev.b) s.ev.data }) ∧
    (s.cxl = true → s.ev.data ≠ [] → off % 64 + s.ev.data.length ≤ 64 → Memory.wf s.mem = true →
      (tabGet s.halves half = none → (s.home (halfKey half)).exp ≤ s.now →
        s.does .queueSealWrite fun t => { t with mem := s.mem, poison := s.poison } = s ∧
          ∀ i, memGet t.mem i =
            if 2 ^ 50 + off ≤ i ∧ i < 2 ^ 50 + off + s.ev.data.length then s.ev.data.getD (i - (2 ^ 50 + off)) 0 else memGet s.mem i) ∧
      (tabGet s.halves half ≠ none ∨ s.now < (s.home (halfKey half)).exp → exec .queueSealWrite s = .next { s with
        snoops := s.snoops ++ [{ half := half, inv := true, data := some s.ev.data, off := off % 64 }] })) ∧
    (tabGet s.grids a = some gr →
      (s.mayPlace a gr = false → exec .workgroupPlacement s = .next s) ∧
      (s.mayPlace a gr = true → gr.cores = false → gr.cleaned = true → (∀ h, ¬ fits h) → exec .workgroupPlacement s = .next s) ∧
      (s.mayPlace a gr = true → gr.cores = false → gr.cleaned = true → gr.ngrp = 1 →
        s.takeAreas gr.ctx gr.kern.area 1 (s.areas gr.ctx) = some [pb] → (∃ h, fits h) →
        s.does .workgroupPlacement fun t => tabGet t.grids a = some { gr with next := gr.next + 1, live := gr.live + 1 } ∧ t.mem = s.mem ∧
          ∃ h n w g, fits h ∧ n < 128 ∧ s.grp (128 * h + n) = none ∧ t.grp (128 * h + n) = some g ∧
            (∀ j, j ≠ 128 * h + n → t.grp j = s.grp j) ∧
            tabGet t.wgs s.nextId = some w ∧ w.grid = a ∧ w.hearth = h ∧ w.slots = [n] ∧ w.ix = gr.next % gr.gx ∧
            w.iy = gr.next / gr.gx % gr.gy ∧ w.iz = gr.next / (gr.gx * gr.gy) ∧
            g.ctx = gr.ctx ∧ g.wg = s.nextId ∧ g.gidx = 0 ∧ g.kern = gr.kern ∧ g.width = gr.kern.width ∧ g.pb = pb ∧ g.spc = 0 ∧ g.c = 0 ∧
            g.blocks = [] ∧ g.b = [] ∧ g.w = [] ∧ (∀ i, i < 32 → g.mode.getLsbD i = (decide (i = 0) || (decide (i = 9) && gr.kern.checked))) ∧
            (gr.args.length = 8 → (∀ i < 8, g.sGet (1 + i) = ⟨gr.args.getD i 0, false⟩) ∧ ∀ i, 9 ≤ i → g.sGet i = {})) ∧
      (¬ spent → exec .gridRetire s = .next s) ∧
      (spent → gr.parent ≠ none → exec .gridRetire s =
        .next { rest with irqs := if gr.irq then s.irqs ++ [(s.queueAt gr.q).vec] else s.irqs }) ∧
      (spent → gr.parent = none → waits → exec .gridRetire s = .next s) ∧
      (spent → gr.parent = none → ¬ waits → (s.harvest gr.ctx).gathering gr.ctx = true → exec .gridRetire s = .next (s.harvest gr.ctx)) ∧
      (spent → gr.parent = none → ¬ waits → (s.harvest gr.ctx).gathering gr.ctx = false →
        let y := s.queueAt gr.q
        s.does .gridRetire fun t => tabGet t.grids a = none ∧ t.groups = s.groups ∧ (∀ x ∈ t.tlb, x.ctx = gr.ctx → x.ga = none ∧ x.gd = none) ∧
          t.irqs = (if gr.irq ∨ y.irq then s.irqs ++ [y.vec] else s.irqs) ∧
          (y.done = gr.rec_ → y.fin = [] → (t.queueAt gr.q).done = gr.rec_ + 1 ∧
            ∀ x ∈ s.grids, x.1 ≠ a → ∀ e ∈ x.2.edges, e.q = gr.q → e.rec_ = gr.rec_ →
              ∀ z ∈ t.halves, z.2 = .m → e.coversHalf z.1 = false) ∧
          (gr.rec_ ≠ y.done → y.fin = [] → (t.queueAt gr.q).done = y.done)))

/-- R188, R195, R240, R291, R293–R296, R298–R307: the steps of a freeze and of a thaw. A module that has written FST and shot the page down
has answered, and its home marks the page; the freeze completes once every module has, the context's accesses issued before that shootdown
are performed and no write to the page is on its way, whoever issued it, and its homes then hold the page frozen; a pending thaw starts
instead. A die drops its copies of the generation; a thaw whose copies are dropped everywhere leaves the page as its count says; one that is
not answered in time is thaw-failed; a freeze goes on without a silent module, whose writes are refused; a reader's die takes the replicas a
frozen line is read from. That a step which writes a leaf or an entry waits until no copy of those lines is out, and calls such copies
back, is the model's choice (log 77). -/
def Obligations.FreezeSteps : Prop :=
  ∀ (s : State) (p : FrzPage) (i n gen : Nat) (x : FrzArg) (leaf : W64) (pa sz : Nat),
    let ctx := s.ev.a
    let page := BitVec.ofNat 64 s.ev.b
    let c := tabD s.ctxs ctx {}
    let here := s.ev.d = Config.moduleNumber.toNat
    let mine := fun (y : FrzPage) => y.ctx = ctx ∧ y.va = page
    let its := fun (m : Mark) => m.ctx = ctx ∧ m.va = page
    let ready := p.thawing = false ∧ p.mods = [] ∧ (∀ y ∈ s.pend, y.ctx = p.ctx → p.bound ≤ y.id) ∧ s.pageBusy p.ctx p.va p.size = false
    let words := s.pageWords ctx page
    let quiet := s.pageQuiet ctx page = true
    let acked := (s.ev.c, s.ev.d) ∈ p.acks ∨ (p.acks = [] ∧ Config.moduleNumber.toNat ∉ p.mods)
    let heard := { s with
      frz := s.frz.map fun y => if y.ctx = ctx ∧ y.va = page then { p with acks := p.acks.filter fun z => z != (s.ev.c, s.ev.d) } else y }
    let place := s.placeOf ctx page (s.pageSize ctx page)
    let found := s.frz.find? fun y => y.ctx == ctx && y.va == page
    let last := p.acks.filter (fun y => y != (s.ev.c, s.ev.d)) = []
    let late := p.thawing = true ∧ p.acks ≠ [] ∧ p.sent + (if c.frto = 0 then 100 else c.frto) * 1000 ≤ s.now
    let gone := fun (t : State) => ∀ y ∈ t.frz, ¬ mine y
    let ent := fun (t : State) => t.frzEnt c i
    let done := fun (t : State) (pick : FrzOp → Nat → Prop) => ∀ o ∈ (tabD t.ctxs ctx {}).ops, ∀ y ∈ o.pages, y.1 = page → ¬ pick o y.2
    let marked := fun (t : State) (g : Nat) => ∃ m ∈ t.marks, its m ∧ m.frozen = true ∧ m.thawing = false ∧ m.gen = g
    let unmarked := fun (t : State) => ∀ m ∈ t.marks, its m → m.frozen = false ∧ m.thawing = false ∧ m.refuse ≠ []
    let apart := fun (a b size : Nat) => a + 8 ≤ b ∨ b + size ≤ a
    let plain := s.walk c page = .found leaf pa sz ∧ Memory.wf s.mem = true ∧ (∀ y ∈ s.tlb, apart y.leafPa pa 8) ∧
      ∀ j, j < c.frzn → apart pa (frzAt c j) 32 ∧ ∀ y ∈ s.tlb, apart y.leafPa (frzAt c j) 32
    let fst := fun (t : State) (x : Nat) => t.peekNat pa 8 / 2 ^ 17 % 4 = x ∧ t.peekNat pa 8 % 2 ^ 17 = leaf.toNat % 2 ^ 17 ∧
      t.peekNat pa 8 / 2 ^ 19 = leaf.toNat / 2 ^ 19
    let silent := fun (t : State) (m : Nat) => (⟨7, m, s.now, page.toNat, 0, p.gen⟩ : LogE) ∈ t.log
    let hit := s.inPage ctx page (s.pageSize ctx page)
    let e := s.frzEnt c x.ent
    (¬ here → exec .freezeRequest s = .next { s with
      frz := s.frz.map fun y => if y.ctx = ctx ∧ y.va = page then { y with mods := y.mods.filter (· != s.ev.d) } else y }) ∧
    (here → ¬ quiet → exec .freezeRequest s = .next (s.clearWay words)) ∧
    (here → quiet → s.does .freezeRequest fun t => (∀ y ∈ t.frz, mine y → s.ev.d ∉ y.mods ∧ y.bound = t.nextId) ∧ s.nextId ≤ t.nextId ∧
      (s.ev.c = 0 → unmarked t) ∧
      (s.ev.c = 1 → ∃ m ∈ t.marks, its m ∧ m.frozen = false ∧ m.thawing = false ∧ m.size = s.pageSize ctx page ∧
        (m.pa, m.back) = (s.setFst ctx page 1).placeOf ctx page (s.pageSize ctx page)) ∧
      (s.ev.c = 2 → ∃ m ∈ t.marks, its m ∧ m.thawing = true) ∧
      (s.ev.c = 3 → ∃ m ∈ t.marks, its m ∧ m.frozen = true ∧ m.thawing = false) ∧
      (plain → s.ev.c < 4 → fst t s.ev.c) ∧
      (∀ y ∈ t.frz, mine y → y.thawing = true → y.sent = s.now ∧ ∀ m d, (m, d) ∈ y.acks ↔
        d < 4 ∧ (m = Config.moduleNumber.toNat ∨ (m < 1024 ∧ s.inDomain ctx m = true)))) ∧
    (found = none → s.ev.flag = false → exec .freezeComplete s = .next s) ∧
    (found = none → s.ev.flag = true → s.does .freezeComplete fun t => marked t s.ev.c ∧ t.mem = s.mem) ∧
    (found = some p → ¬ ready → exec .freezeComplete s = .next s) ∧
    (found = some p → ready → ¬ quiet → exec .freezeComplete s = .next (s.clearWay words)) ∧
    (found = some p → ready → quiet →
      (p.thawPend = none → s.does .freezeComplete fun t => gone t ∧ marked t p.gen ∧ done t (fun o _ => o.thaw = false)) ∧
      (p.thawPend = some gen → s.does .freezeComplete fun t =>
        (∃ y ∈ t.frz, mine y ∧ y.thawing = true ∧ y.gen = gen ∧ y.sent = s.now ∧ y.coord = p.nextThaw ∧ y.nextFrz = p.nextFrz) ∧
        done t (fun o g => o.thaw = false ∧ g = p.gen)) ∧
      (s.frzFind c page = some i → Memory.wf s.mem = true → s.does .freezeComplete fun t => (ent t).done = true ∧
        (ent t).count = (ent s).count ∧ (ent t).gen = (ent s).gen ∧ (ent t).state = if p.thawPend = none then (ent s).state else 2)) ∧
    (s.does .dropReplicas fun t => t.mem = s.mem ∧ t.groups = s.groups ∧ (∀ y ∈ t.frz, mine y → s.ev.c ∈ y.dropped) ∧
      (∀ key, s.ev.c < 4 → tabGet t.replicas (4 * key + s.ev.c) = some s.ev.d → hit key = false ∧
        (place.1 = none → keyPa key < place.2.1 ∨ place.2.1 + place.2.2 ≤ keyPa key)) ∧
      (∀ y ∈ t.vstore, dieOf (y.1 / 256) = s.ev.c → y.2.ctx = ctx → y.2.fclean = true →
        ∀ v ∈ y.2.pages, v.toNat < page.toNat ∨ page.toNat + s.pageSize ctx page ≤ v.toNat) ∧
      (∀ y ∈ t.projs, dieOf y.hearth = s.ev.c → y.stale = false → ∀ z ∈ y.deps, hit z = false) ∧
      ∀ h j, h < 36 → j < 512 → ∀ l ∈ t.l1Lines (36 * s.ev.c + h) j,
        (l.kind = .leased ∨ l.kind = .codec → l.fgen = some s.ev.d → hit l.key = false) ∧ (l.kind = .view → ∀ y ∈ l.deps, hit y = false)) ∧
    (found = none → exec .dropReplicasAck s = .next s ∧ exec .thawTimeout s = .next s ∧ exec .freezeShootdownTimeout s = .next s) ∧
    (found = some p → p.thawing = false ∨ ¬ acked → exec .dropReplicasAck s = .next s) ∧
    (found = some p → p.thawing = true → acked →
      (¬ last → exec .dropReplicasAck s = .next heard) ∧
      (last → ¬ quiet → exec .dropReplicasAck s = .next (heard.clearWay words)) ∧
      (last → quiet → s.frzFind c page = some i → (ent s).count = 0 → s.does .dropReplicasAck fun t => gone t ∧ unmarked t ∧
        done t (fun _ _ => True) ∧ (plain → fst t 0 ∧ (ent t).state = 0 ∧ (ent t).done = false)) ∧
      (last → quiet → s.frzFind c page = some i → (ent s).count ≠ 0 → s.does .dropReplicasAck fun t =>
        (∃ y ∈ t.frz, mine y ∧ y.thawing = false ∧ y.gen = (ent s).gen ∧ y.coord = p.nextFrz) ∧ unmarked t ∧
        done t (fun o _ => o.thaw = true) ∧ (plain → fst t 1 ∧ (ent t).state = 1 ∧ (ent t).done = false))) ∧
    (found = some p → ¬ late → exec .thawTimeout s = .next s) ∧
    (found = some p → late → ¬ quiet → exec .thawTimeout s = .next (s.clearWay words)) ∧
    (found = some p → late → quiet → s.does .thawTimeout fun t => gone t ∧ 0 ∈ t.irqs ∧ (∃ m ∈ t.marks, its m ∧ m.frozen = true ∧ m.thawing = false) ∧
      done t (fun _ _ => True) ∧ (∀ y ∈ p.acks, silent t y.1) ∧
      (plain → fst t 3 ∧ (s.frzFind c page = some i → (ent t).state = 3 ∧ (ent t).count = (ent s).count))) ∧
    (found = some p → p.thawing = true ∨ p.mods = [] → exec .freezeShootdownTimeout s = .next s) ∧
    (found = some p → p.thawing = false → p.mods ≠ [] → s.does .freezeShootdownTimeout fun t => (∀ y ∈ t.frz, mine y → y.mods = []) ∧
      0 ∈ t.irqs ∧ t.mem = s.mem ∧ (∃ m ∈ t.marks, its m ∧ ∀ y ∈ p.mods, y ∈ m.refuse) ∧ ∀ y ∈ p.mods, silent t y) ∧
    (let key := s.ev.b
      let d := s.ev.a
      let keys := (s.touchHome key false).replicaKeys key
      (s.frozenGen key = some gen → d < 4 → d ≠ (homeOf key).1 → s.fenced d key = false → s.does .replicaFetch fun t =>
        (Memory.wf s.mem = true → s.drift t) ∧ t.groups = s.groups ∧ (isCodecKey key = false → keys = [key]) ∧
          (∀ l b, keys = l ++ [b] → tabGet t.replicas (4 * b + d) = some gen) ∧
          ∀ j, (∀ b ∈ keys, j ≠ 4 * b + d) → tabGet t.replicas j = tabGet s.replicas j ∨ tabGet t.replicas j = none) ∧
      (s.frozenGen key = none ∨ 4 ≤ d ∨ d = (homeOf key).1 ∨ s.fenced d key = true → exec .replicaFetch s = .next s)) ∧
    (x.fresh = false → Memory.wf s.mem = true → e.count < 255 →
      let up := s.frzPageUp ctx n x
      let down := s.thawPageDown ctx n x
      let at_ := fun (t : State) => t.frzEnt c x.ent
      let this := fun (y : FrzPage) => y.ctx = ctx ∧ y.va = x.page
      (0 < e.count → at_ up.1 = { e with count := e.count + 1 } ∧ up.2 = if e.state = 1 ∧ e.done = true then none else some e.gen) ∧
      (e.count = 0 → e.state = 0 → x.pgsz < 4 → x.frame < 2 ^ 64 → at_ up.1 = ⟨1, false, 1, (e.gen + 1) % 256⟩ ∧ up.2 = some ((e.gen + 1) % 256) ∧
        up.1.peekNat (frzAt c x.ent) 8 / 2 ^ 20 % 4 = x.pgsz ∧ up.1.peekNat (frzAt c x.ent + 16) 8 = x.frame ∧
        ∃ y ∈ up.1.frz, this y ∧ y.thawing = false ∧ y.gen = (e.gen + 1) % 256 ∧ y.coord = n) ∧
      (e.count = 0 → e.state ≠ 0 → at_ up.1 = { e with count := 1, gen := (e.gen + 1) % 256, done := false } ∧
        up.2 = some ((e.gen + 1) % 256) ∧ ∀ y ∈ up.1.frz, this y → y.nextFrz = n) ∧
      (1 < e.count → at_ down.1 = { e with count := e.count - 1 } ∧ down.2 = none) ∧
      (e.count = 1 → e.state = 1 → e.done = true → at_ down.1 = { e with count := 0, state := 2 } ∧ down.2 = some e.gen ∧
        ∃ y ∈ down.1.frz, this y ∧ y.thawing = true ∧ y.gen = e.gen ∧ y.coord = n) ∧
      (e.count = 1 → e.state ≠ 1 ∨ e.done = false → at_ down.1 = { e with count := 0 } ∧ down.2 = some e.gen ∧
        (e.state = 1 → ∀ y ∈ down.1.frz, this y → y.thawPend = some e.gen ∧ y.nextThaw = n)))

/-- R230, R240, R244, R261, R267, R306, R307, R311, R322, R327–R335, R367–R370, R377, R380, R382, R383: the host's commands and window
writes. A command written while one runs is ignored with STATUS 3; in recovery all but 0x08 and 0x09 are refused; a command on what does not
exist is refused with STATUS 2; else each has its effect, and STATUS is 0 when it completes. One that reads a line which its holder still
has, or writes one of which a copy is out, waits for that and then goes on. A recording logs each write.
The model's choices among these clauses: a resume of a group that the device itself suspended is refused (log 36); an unknown CMD value is
refused with STATUS 2, command 0x04 names a link by the die at its other end, and what makes residency, a switch-out and recorded mode
refused (log 43); what a report is signed with and its padding (log 47); how a context's groups retire at its end (log 48); a repair ends
with its shootdown in this module (log 51); the place of a write through BAR0 in the log (log 66); an image's bytes come with the write of
CMD (log 67); the device's own writes wait for quiet lines (log 77). -/
def Obligations.Commands : Prop :=
  ∀ (s : State) (c : Ctx) (k : Nat) (g : Machine.Group) (tr : Trap) (i size : Nat) (page : W64) (data : List Byte),
    let e := s.ev
    let calm := s.recd.active = false ∨ s.recd.replay = true
    let idle := calm ∧ s.cmd.run = none ∧ e.flag = false
    let fresh := idle ∧ s.recovery = false
    let done := fun (t : State) => t.cmd.status = 0 ∧ t.cmd.run = none
    let refused := fun (i : Instr) => s.does i fun t => t.cmd.status = 2 ∧ t.cmd.run = none ∧ { t with cmd := s.cmd } = s
    let runs := fun (t : State) (code x : Nat) => t.cmd.status = 1 ∧ t.cmd.run = some (code, x)
    let stays := fun (i : Instr) (code : Nat) => s.does i fun t => runs t code 0 ∧ { t with cmd := s.cmd } = s
    let codes : List (Nat × Instr) := [(1, .shootdown), (2, .resumeGroup), (3, .endGroup), (4, .liftFence), (5, .repairFreeze), (6, .poolAdd),
      (8, .imageUpdate), (9, .attest), (0x0A, .raiseDamper), (0x0C, .restoreContext), (0x0D, .setAlarm), (0x0E, .loadContext),
      (0x0F, .endContext)]
    let twice : List (Nat × Instr) :=
      [(7, .recordedModeRecord), (7, .recordedModeReplay), (0x0B, .queueMakeResident), (0x0B, .queueSwitchOut)]
    let logged := fun (off : Nat) (data : List Byte) (t : State) => t.recd.pend = s.recd.pend ++
      traceBytes 2 0 (s.runClock s.recd.ctx) (leBytes 8 (2 ^ 53 + off) ++ leBytes 8 data.length) :: datumBody data
    let phases : List (Nat × Instr × (State → State)) := [(5, .repairFreeze, State.repairGo), (9, .attest, State.attestOn),
      (0x0B, .queueMakeResident, State.residentGo), (0x0E, .loadContext, State.loadGo)]
    let given := [e.a, e.b, e.c, e.d]
    let live := tabGet s.ctxs e.a = some c ∧ c.ended = false
    let va := BitVec.ofNat 64 e.b
    let base := va.toNat % 2 ^ 57
    let nearIn := fun (t : State) => ∃ p ∈ t.pend, p.ctx = e.a ∧ p.id < t.nextId
    let near := nearIn s
    let own := fun (g : Machine.Group) => ∃ p ∈ s.pend, p.owner = some g.name ∧ p.isLost = false
    let lifted := fun (t : State) => ∀ m ∈ t.marks, m.ctx = e.a → m.va.toNat % 2 ^ 57 ≤ e.b % 2 ^ 57 →
      e.b % 2 ^ 57 < m.va.toNat % 2 ^ 57 + m.size → m.refuse = []
    let slot := e.a < 4 ∧ e.b < 36 ∧ e.c < 128 ∧ k = (36 * e.a + e.b) * 128 + e.c
    let pool := tabD s.pools e.a {}
    let ring := e.b < 2 ^ 52 ∧ e.b % 4096 = 0 ∧ 65536 ≤ e.c ∧ e.c ≤ 2 ^ 39 ∧ (∃ n, e.c = 2 ^ n) ∧ s.recd.active = false ∧ s.recd.armed = false
    let q := queueOf e.a e.c (s.peek e.c 64) (s.queueAt e.b).fin
    let old := s.queueAt e.b
    let block := leBytes 8 old.prog ++ leBytes 8 old.done ++ leBytes 8 old.err
    let atOnce := fun (pa : Nat) => pa / 2 ^ 50 % 4 = 0 ∧ s.lineQuiet pa = true
    let ownSent := fun (n pa : Nat) (data : List Byte) (t : State) => ∃ p : Pend, t.pend = s.pend ++ [p] ∧ p.id = s.nextId ∧ p.key = physKey pa ∧
      p.ctx = n ∧ p.owner = none ∧ p.arrived = false ∧ p.issued = s.clk ∧ p.kind = .store pa data false
    let nonce := 2 ^ 50 + e.a % 2 ^ 50
    let place := 2 ^ 50 + e.b % 2 ^ 50
    let report := s.report (s.peek nonce 64) ++
      (List.range 4627).map fun i => (Config.mlDsaSign (leBytes 64 (Config.sha3 (s.report (s.peek nonce 64))).toNat)).getD i 0
    let okQ := e.a < 4 ∧ e.b < 4096 ∧ (s.queues.filter fun y => y.2.die == some e.a).length < 64 ∧ old.die = none ∧
      queueOk e.b s.cxl (s.peek e.c 64) = true ∧ ∃ y, tabGet s.ctxs q.ctx = some y ∧ y.ended = false
    let desc := s.peek e.b 256
    let okC := e.a < 1024 ∧ s.ctxFree e.a = true ∧ ctxOk desc = true
    let held := ∃ y ∈ s.groups, y.2.ctx = e.a
    let atomics := ∃ p ∈ s.pend, p.isAtomic = true ∧ ∃ y ∈ s.groups, y.2.ctx = e.a ∧ y.2.saved = true ∧ p.owner = some y.2.name
    (calm → s.cmd.run ≠ none → e.flag = false → ∀ x ∈ codes ++ twice, exec x.2 s = .next { s with cmd := { s.cmd with status := 3 } }) ∧
    (calm → s.cmd.run ≠ none → exec .commandBusyWrite s = .next { s with cmd := { s.cmd with status := 3 } }) ∧
    (s.cmd.run = none → exec .commandBusyWrite s = .next s) ∧
    (¬ calm → e.flag = false → ∀ x ∈ codes ++ twice, s.does x.2 (logged 0x1000
      (leBytes 8 x.1 ++ (leBytes 8 e.a ++ (leBytes 8 e.b ++ (leBytes 8 e.c ++ (leBytes 8 e.d ++ e.data))))))) ∧
    (idle → s.recovery = true → ∀ x ∈ codes ++ twice, x.2 ≠ .imageUpdate → x.2 ≠ .attest → refused x.2) ∧
    (idle →
      (s.does .imageUpdate fun t => done t ∧ t.flash = tabPut s.flash e.a (e.data.take e.b) ∧ { t with flash := s.flash, cmd := s.cmd } = s) ∧
      (s.readHeld nonce 64 = true → stays .attest 9) ∧
      (s.readHeld nonce 64 = false → s.does .attest fun t => runs t 9 1 ∧ ∃ ps, t.pend = (s.readLines nonce 64).pend ++ ps ∧
        (∀ y ∈ ps, y.ctx = ownCommand ∧ y.owner = none ∧ y.arrived = false ∧ ∃ pa d, y.kind = .store pa d false ∧ place ≤ pa ∧
          pa + d.length ≤ place + report.length ∧ ∀ i < d.length, d.getD i 0 = report.getD (pa - place + i) 0) ∧
        ∀ i < report.length, ∃ y ∈ ps, ∃ pa d, y.kind = .store pa d false ∧ pa ≤ place + i ∧ place + i < pa + d.length)) ∧
    (fresh →
      ((tabGet s.ctxs e.a = none ∨ ∃ y, tabGet s.ctxs e.a = some y ∧ y.ended = true) →
        ∀ x ∈ ([.shootdown, .recordedModeRecord, .recordedModeReplay, .raiseDamper, .restoreContext, .setAlarm, .endContext] : List Instr), refused x) ∧
      (live →
        (s.does .shootdown fun t => (∀ y ∈ t.tlb, y.ctx = e.a → rangesMeet (y.va.toNat % 2 ^ 57) (pageBytes y.pgsz) base e.c = false) ∧
          (∃ ps, t.pend = s.pend ++ ps ∧ ∀ y ∈ ps, y.ctx = e.a ∧ y.gathers) ∧ (¬ nearIn t → done t) ∧ (nearIn t → runs t 1 t.nextId) ∧
          ∀ k g, s.grp k = some g → g.ctx = e.a → ∃ g', t.grp k = some g' ∧ ∀ n x, tabGet g.b n = some x → x.valid = true → x.limit ≠ 0 →
            rangesMeet (x.base.toNat % 2 ^ 57) x.limit.toNat base e.c = true → tabGet g'.b n = some { x with stale := true }) ∧
        (ring →
          (s.does .recordedModeRecord fun t => done t ∧
            t.recd = { ctx := e.a, active := false, armed := true, replay := false, tbase := e.b, tsize := e.c }) ∧
          (s.does .recordedModeReplay fun t => done t ∧
            t.recd = { ctx := e.a, active := true, armed := false, replay := true, stalled := true, tbase := e.b, tsize := e.c })) ∧
        (¬ ring → refused .recordedModeRecord ∧ refused .recordedModeReplay) ∧
        (let up : Ctx := { c with damper := true, hold := true, deadline := some (c.run + if e.b = 0 then 20000 else e.b) }
          let left := ∃ w ∈ s.wgs, w.2.ctx = e.a ∧ (s.gridAt w.2.grid).kern.preempt = true
          (left → s.does .raiseDamper fun t => runs t 0x0A e.a ∧ t.ctxs = tabSet s.ctxs e.a up) ∧
          (¬ left → s.does .raiseDamper fun t => done t ∧ tabGet t.ctxs e.a = some { up with damper := false, deadline := none })) ∧
        ((∃ v ∈ s.saved, v.wg.ctx = e.a ∧ v.back = false) → s.does .restoreContext fun t => runs t 0x0C e.a ∧
          { t with cmd := s.cmd } = { s with ctxs := tabSet s.ctxs e.a { c with restoring := true } }) ∧
        ((∀ v ∈ s.saved, v.wg.ctx ≠ e.a) →
          (atomics → s.does .restoreContext fun t => runs t 0x0C e.a ∧ t.groups = s.groups) ∧
          (¬ atomics → s.does .restoreContext fun t => done t ∧ tabGet t.ctxs e.a = some { c with restoring := false, hold := false } ∧
            ∀ k g, s.grp k = some g → g.ctx = e.a → g.saved = true → ∃ g', t.grp k = some g' ∧ g'.saved = false ∧ g'.spc = g.spc)) ∧
        (s.does .setAlarm fun t => done t ∧ { t with cmd := s.cmd } = { s with
          ctxs := tabSet s.ctxs e.a { c with alarm := if e.b = 0 then none else some e.b } }) ∧
        ((∃ y ∈ s.queues, y.2.ctx = e.a ∧ y.2.die ≠ none) → refused .endContext) ∧
        ((∀ y ∈ s.queues, y.2.ctx = e.a → y.2.die = none) →
          (¬ held → c.ops = [] → (∀ y ∈ s.frz, y.ctx ≠ e.a) → (∀ v ∈ s.saved, v.wg.ctx ≠ e.a) →
            (s.toThaw c = [] → (∀ y ∈ s.tlb, y.ctx = e.a → y.ga = none ∧ y.gd = none) →
              (∀ p ∈ s.pend, p.ctx = e.a → p.owner = none → p.blk ≠ 0) →
              s.does .endContext fun t => done t ∧ (∃ c', tabGet t.ctxs e.a = some c' ∧ c'.ended = true) ∧ (∀ y ∈ t.tlb, y.ctx ≠ e.a) ∧
                (∀ y ∈ t.grids, y.2.ctx ≠ e.a) ∧ (∀ y ∈ t.copies, y.ctx ≠ e.a) ∧ ∀ y ∈ t.queues, y.2.ctx = e.a → y.2.outlived = true) ∧
            (s.toThaw c = [] → (∃ p ∈ s.pend, p.ctx = e.a ∧ p.owner = none ∧ p.blk = 0 ∧ p.isLost = false) →
              s.does .endContext fun t => runs t 0x0F e.a ∧ ∃ c', tabGet t.ctxs e.a = some c' ∧ c'.ending = true ∧ c'.ended = false) ∧
            (s.toThaw c ≠ [] → s.does .endContext fun t => runs t 0x0F e.a ∧ (Memory.wf s.mem = true → (∀ y ∈ s.thawLines c, s.lineQuiet y = true) →
              ∀ x ∈ s.toThaw c, (s.frzEnt c x.ent).state = 1 → (s.frzEnt c x.ent).done = true →
                ∃ y ∈ t.frz, y.ctx = e.a ∧ y.va = x.page ∧ y.thawing = true ∧ y.gen = (s.frzEnt c x.ent).gen ∧ y.coord = 0))) ∧
          (s.grp k = some g → g.ctx = e.a → own g → (s.groups.map (·.1)).Nodup → s.does .endContext fun t =>
            runs t 0x0F e.a ∧ (∃ c', tabGet t.ctxs e.a = some c' ∧ c'.ending = true ∧ c'.damper = false ∧ c'.alarm = none) ∧
              ∃ g', t.grp k = some g' ∧ g'.susp = some { code := 0 } ∧ g'.blocks = [] ∧ g'.slot0 = none ∧ g'.slot1 = none))) ∧
      (slot → s.grp k = none → (∀ v ∈ s.saved, tabGet v.groups k = none) → refused .resumeGroup ∧ refused .endGroup) ∧
      (4 ≤ e.a ∨ 36 ≤ e.b ∨ 128 ≤ e.c → refused .resumeGroup ∧ refused .endGroup) ∧
      (slot → s.grp k = some g → (∀ x, g.susp = some x → x.code = 0) → refused .resumeGroup) ∧
      (slot → s.grp k = some g → g.susp = some tr → tr.code ≠ 0 →
        let g0 := { g with susp := none }
        let skips := e.d % 2 = 1 ∧ tr.code ∉ [0x04, 0x14, 0x15, 0x16, 0x17, 0x18]
        s.does .resumeGroup fun t => done t ∧ (∀ j, j ≠ k → t.grp j = s.grp j) ∧ t.grp k = some
          (if skips then
            if tr.stoker then if tr.len = 0 then { g0 with redo := g.redo.drop 1 } else { g0 with spc := g.spc + BitVec.ofNat 64 tr.len }
            else g0.setSplit tr.slot ((g.split tr.slot).map fun x => if tr.len = 0 then x.skipAgain else { x with pc := x.pc + 12 })
          else g0)) ∧
      (slot → s.grp k = some g → s.keyOf g.name = some k → g.gidx < 32 →
        (own g → s.does .endGroup fun t => runs t 3 (g.wg * 32 + g.gidx) ∧ ∃ g', t.grp k = some g' ∧
          g'.susp = some { code := 0 } ∧ g'.blocks = [] ∧ g'.slot0 = none ∧ g'.slot1 = none ∧ g'.hnd = none) ∧
        (¬ own g → s.engaged g = true ∨ s.savedOps g.name = true →
          s.does .endGroup fun t => runs t 3 (g.wg * 32 + g.gidx) ∧ (t.grp k).isSome = true) ∧
        (¬ own g → s.engaged g = false → s.savedOps g.name = false → s.does .endGroup fun t => done t ∧ t.grp k = none)) ∧
      (e.a < 4 → e.b < 4 → e.a ≠ e.b → s.does .liftFence fun t => done t ∧ (∀ f ∈ t.fences, f ≠ (e.a, e.b) ∧ f ≠ (e.b, e.a)) ∧
        (∀ f ∈ s.fences, f ≠ (e.a, e.b) → f ≠ (e.b, e.a) → f ∈ t.fences) ∧ (t.link e.a e.b).dead = false ∧ (t.link e.b e.a).dead = false) ∧
      (4 ≤ e.a ∨ 4 ≤ e.b ∨ e.a = e.b → refused .liftFence) ∧
      (tabGet s.ctxs e.a = none → refused .repairFreeze) ∧
      (tabGet s.ctxs e.a = some c →
        let x := s.frzEnt c i
        let here := fun (m : Mark) => m.ctx = e.a ∧ m.va = page
        let sound := ∀ y, s.frzCover c (e.b % 2 ^ 57) = some y → (s.frzEnt c y.1).state ≠ 3
        (sound → s.refusing e.a (e.b % 2 ^ 57) = false → refused .repairFreeze) ∧
        (sound → s.refusing e.a (e.b % 2 ^ 57) = true → s.does .repairFreeze fun t => done t ∧ t.mem = s.mem ∧ lifted t) ∧
        (s.frzCover c (e.b % 2 ^ 57) = some (i, page, size) → x.state = 3 → s.pageQuiet e.a page = false → s.does .repairFreeze fun t =>
          runs t 5 0 ∧ { t with cmd := s.cmd } = s.clearWay (s.pageWords e.a page)) ∧
        (s.frzCover c (e.b % 2 ^ 57) = some (i, page, size) → x.state = 3 → s.pageQuiet e.a page = true → s.tlb = [] → Memory.wf s.mem = true →
          s.does .repairFreeze fun t => t.frzEnt c i =
              (if x.count = 0 ∨ c.ended = true then ⟨0, false, 0, x.gen⟩ else { x with state := 1, done := true }) ∧
            lifted t ∧ (¬ near → done t) ∧ (near → runs t 5 s.nextId) ∧
            (x.count = 0 ∨ c.ended = true → ∀ m ∈ t.marks, here m → m.frozen = false ∧ m.thawing = false) ∧
            (x.count ≠ 0 → c.ended = false → ∃ m ∈ t.marks, here m ∧ m.frozen = true ∧ m.gen = x.gen))) ∧
      (e.a < 4 → pool.count.toNat + e.b ≤ pool.ringsize.toNat → s.does .poolAdd fun t => done t ∧ t.mem = s.mem ∧
        (t.pool e.a).count.toNat = pool.count.toNat + e.b ∧ (t.pool e.a).head = pool.head) ∧
      (4 ≤ e.a ∨ pool.ringsize.toNat < pool.count.toNat + e.b → refused .poolAdd) ∧
      (s.readHeld e.c 64 = true → stays .queueMakeResident 0x0B) ∧
      (s.readHeld e.c 64 = false →
        (okQ → s.does .queueMakeResident fun t => done t ∧ (Memory.wf s.mem = true → s.drift t) ∧ t.groups = s.groups ∧ t.pend = s.pend ∧
          ∃ n < 64, (∀ y ∈ s.queues, y.2.die = some e.a → y.2.place ≠ n) ∧ t.queues = tabSet s.queues e.b { q with place := n }) ∧
        (¬ okQ → refused .queueMakeResident)) ∧
      (old.die = some e.a → old.desc % 64 = 0 → s.ownBusy ownCommand = false →
        (atOnce (old.desc + 24) → Memory.wf s.mem = true → s.does .queueSwitchOut fun t => done t ∧
          t.queues = tabSet s.queues e.b { old with die := none } ∧ t.peekNat (old.desc + 24) 8 = old.prog % 2 ^ 64 ∧
          t.peekNat (old.desc + 32) 8 = old.done % 2 ^ 64 ∧ t.peekNat (old.desc + 40) 8 = old.err % 2 ^ 64 ∧
          ∀ i, i < old.desc + 24 ∨ old.desc + 48 ≤ i → memGet t.mem i = memGet s.mem i) ∧
        (¬ atOnce (old.desc + 24) → s.does .queueSwitchOut fun t => runs t 0x0B (e.b + 1) ∧ t.cmd.held.getD 2 0 = old.done ∧
          ownSent ownCommand (old.desc + 24) block t ∧ { t with cmd := s.cmd, pend := s.pend, nextId := s.nextId } = s)) ∧
      (old.die ≠ some e.a → refused .queueSwitchOut) ∧
      (s.readHeld e.b 256 = true → stays .loadContext 0x0E) ∧
      (s.readHeld e.b 256 = false →
        (okC → (s.does .loadContext fun t => done t ∧ (Memory.wf s.mem = true → s.drift t) ∧ t.groups = s.groups ∧ t.pend = s.pend ∧
            t.ctxs = tabSet s.ctxs e.a (ctxOf desc)) ∧
          (∀ o ∈ [0, 8, 16, 56, 64, 72, 96], leNat ((desc.drop o).take 8) < 2 ^ 52) ∧ leNat ((desc.drop 24).take 8) + 216 * 2 ^ 20 ≤ 2 ^ 50) ∧
        (¬ okC → refused .loadContext))) ∧
    (e.flag = true →
      (s.cmd.run = some (1, i) → (∀ y ∈ s.pend, y.ctx = s.cmd.held.getD 0 0 → i ≤ y.id) → s.does .shootdown done) ∧
      (s.cmd.run = some (1, i) → (∃ y ∈ s.pend, y.ctx = s.cmd.held.getD 0 0 ∧ y.id < i) → exec .shootdown s = .next s) ∧
      (s.cmd.run = some (5, i) → i ≠ 0 → (∀ y ∈ s.pend, y.ctx = s.cmd.held.getD 0 0 → i ≤ y.id) → s.does .repairFreeze done) ∧
      (s.cmd.run = some (9, 1) → exec .attest s =
        .next (if s.ownBusy ownCommand = true then s else { s with cmd := { s.cmd with status := 0, run := none } })) ∧
      (s.cmd.run = some (0x0B, i + 1) →
        let y := s.queueAt i
        (s.ownBusy ownCommand = true → exec .queueSwitchOut s = .next s) ∧
        (s.ownBusy ownCommand = false → s.does .queueSwitchOut fun t => done t ∧ tabGet t.queues i = some { y with die := none } ∧
          (y.done = s.cmd.held.getD 2 0 → t.mem = s.mem ∧ t.pend = s.pend) ∧
          (y.done ≠ s.cmd.held.getD 2 0 → y.desc % 64 = 0 → ¬ atOnce (y.desc + 32) → ownSent ownDone (y.desc + 32) (leBytes 8 y.done) t) ∧
          (y.done ≠ s.cmd.held.getD 2 0 → y.desc % 64 = 0 → atOnce (y.desc + 32) → Memory.wf s.mem = true →
            t.peekNat (y.desc + 32) 8 = y.done % 2 ^ 64))) ∧
      ∀ x ∈ phases, s.cmd.run = some (x.1, 0) → exec x.2.1 s = .next (x.2.2 s)) ∧
    (fresh → ∀ x ∈ phases, exec x.2.1 s = .next (x.2.2 { s with
      cmd := { cmd := BitVec.ofNat 64 x.1, args := given.map (BitVec.ofNat 64), status := 1, run := some (x.1, 0), held := given } })) ∧
    (e.a < 4 →
      (calm → exec .faultQueueHeadWrite s = .next { s with
        faultq := tabSet s.faultq e.a { tabD s.faultq e.a {} with head := BitVec.ofNat 64 e.b } }) ∧
      (¬ calm → s.does .faultQueueHeadWrite (logged (0x1000010 + 0x4000000 * e.a) (leBytes 8 e.b)))) ∧
    (4 ≤ e.a → exec .faultQueueHeadWrite s = .next s) ∧
    (e.flag = false →
      (calm → ∀ n < 4, e.a = 0x1008 + 8 * n → s.does .stateWindowWrite fun t => { t with cmd := s.cmd } = s ∧
        t.cmd = { s.cmd with args := t.cmd.args } ∧
          ∀ j < 4, t.cmd.args.getD j 0 = if j = n then BitVec.ofNat 64 e.b else s.cmd.args.getD j 0) ∧
      (e.a = 0x1000 →
        let arg := fun n => (s.cmd.args.getD n 0).toNat
        let s' := { s with ev := { a := arg 0, b := arg 1, c := arg 2, d := arg 3, data := e.data } }
        (∀ x ∈ codes, e.b = x.1 → exec .stateWindowWrite s = exec x.2 s') ∧
        (e.b = 7 → exec .stateWindowWrite s = exec (if arg 3 % 2 = 1 then .recordedModeReplay else .recordedModeRecord) s') ∧
        (e.b = 0x0B → exec .stateWindowWrite s = exec (if arg 3 % 2 = 1 then .queueMakeResident else .queueSwitchOut) s') ∧
        (e.b = 0 ∨ 0x10 ≤ e.b → s.cmd.run = none → s.does .stateWindowWrite fun t => t.cmd.status = 2 ∧ t.cmd.run = none)) ∧
      (¬ calm → e.a ≠ 0x1000 → e.a ≠ 0x2020 → s.does .stateWindowWrite (logged e.a (leBytes 8 e.b))) ∧
      (calm → e.a < 0x1000 ∨ (0x1028 ≤ e.a ∧ e.a < 0x2020) ∨ (0x2020 < e.a ∧ e.a < 0x1000000) → exec .stateWindowWrite s = .next s) ∧
      (calm → ∀ d < 4,
        let at_ := fun o => e.a = 0x1000000 + 0x4000000 * d + o
        let v := BitVec.ofNat 64 e.b
        let fq := tabD s.faultq d {}
        let fp := tabD s.pools d {}
        let setQ := fun (x : FaultQ) => exec .stateWindowWrite s = .next { s with faultq := tabSet s.faultq d x }
        let setP := fun (x : Pool) => exec .stateWindowWrite s = .next { s with pools := tabSet s.pools d x }
        (fq.head = fq.tail → (at_ 0x00 → setQ { fq with base := v }) ∧ (at_ 0x08 → setQ { fq with size := v })) ∧
        (fq.head ≠ fq.tail → at_ 0x00 ∨ at_ 0x08 → exec .stateWindowWrite s = .next s) ∧
        (at_ 0x10 → setQ { fq with head := v }) ∧
        (fp.count = 0 → (at_ 0x40 → setP { fp with ringbase := v }) ∧ (at_ 0x48 → setP { fp with ringsize := v })) ∧
        (fp.count ≠ 0 → at_ 0x40 ∨ at_ 0x48 → exec .stateWindowWrite s = .next s) ∧
        (at_ 0x60 → setP { fp with lowmark := v, low := decide (fp.count.toNat < v.toNat) }))) ∧
    (e.flag = true →
      (s.replayDatum = none → exec .stateWindowWrite s = .next s) ∧
      (s.replayDatum = some (i, data) →
        let past := s.consumeRecords (1 + (data.length + 31) / 32)
        let word := fun n => leNat ((data.drop (8 * n)).take 8)
        (i < 2 ^ 53 → exec .stateWindowWrite s = .next s) ∧
        (i = 2 ^ 53 + 0x2020 → exec .stateWindowWrite s = .next past) ∧
        (i = 2 ^ 53 + 0x1000 → ∀ x ∈ codes, word 0 = x.1 → exec .stateWindowWrite s = exec x.2 { past with
          cmd := { past.cmd with args := [1, 2, 3, 4].map fun n => BitVec.ofNat 64 (word n) },
          ev := { a := word 1, b := word 2, c := word 3, d := word 4, data := data.drop 40 } })))

/-! ### The step, the encodings and the invariants -/

/-- R84, R326, R7, R145, R179, R198, R205: what one step does. Until it has booted the device boots; once stopped only its clock goes on; an
event that is due is executed; else the stream that takes the next opportunity of the clock issues again what a save took back, or
fetches at its PC and runs the instruction its words decode to, with the issue noted around it unless the instruction waits (one that has
arrived where it waits for others has taken its port); else the clock advances, and with it every instruction that waits is tried. Words
that decode to nothing and pages that cannot be fetched run as the illegal instruction and the fetch fault; a lane instruction that names a
register of an open window traps in checked mode. The model's choices among these clauses: that due events go before issues (log 2), that a
fetch reads the stored bytes of poisoned granules (log 34), that unfetchable literal words of a `slit` take their page fault whatever its
reserved fields hold (log 68), and that the address of a later unfetchable word is its own (log 73). -/
def Obligations.StepRunsDecoded : Prop :=
  ∀ (s s1 s2 : State) (k pos slot : Nat) (g : Machine.Group) (sp : Split) (i : Instr) (q : LaneSig) (f : LaneF) (w0 w1 w2 : Nat)
    (err : DecodeErr) (x : W64) (t : Tr) (r : Redo) (rest : List Redo) (o : Out),
    let stokerSt := { s with cur := some (.stoker k) }
    let laneSt := { s with cur := some (.lane k slot) }
    let stokerPc := g.kern.ib + g.kern.scoff + g.spc
    let lanePc := g.kern.ib + g.kern.lcoff + sp.pc.setWidth 64
    let ran := fun (i : Instr) (s1 : State) (note : State → State) =>
      (∀ u, exec i s1 = .next u → step s = .next (note u)) ∧ ∀ y, exec i s1 = .fault y → step s = .fault y
    let arrives := fun (u : State) => if u.inPlace k = true ∧ stokerSt.inPlace k = false then u.issuedStoker stokerSt pos k else u
    let leftS := fun (time : State → State) (u : State) =>
      if u.stokerWaits k then arrives (u.unread stokerSt k) else ((time u).issuedStoker stokerSt pos k).forget (0, k)
    let leftL := fun (time : State → State) (clocks : Nat) (u : State) =>
      if u.laneWaits k slot then u.unread laneSt k else ((time u).issuedLane laneSt pos k slot clocks).forget (1 + slot, k)
    let noteS := leftS fun u => u.timeStoker stokerSt k g i
    let noteL := leftL (fun u => u.timeLane s1 k slot g sp i) (passClocks i * passesOf g sp i)
    (s.booted = false → s.recovery = false → step s = exec .boot { s with ev := {}, cur := none }) ∧
    (s.booted = true ∨ s.recovery = true → s.stopped = true → step s = .next s.holdReplay.clock) ∧
    (∀ d, s.due = some d → step s = exec d.i { d.s with ev := d.ev, cur := none }) ∧
    (s.due = none → s.nextOffer = none → step s = .next s.tick) ∧
    ((∀ p ∈ s.groups, p.2.sWait = false ∧ ∀ n y, p.2.split n = some y → y.waiting = false) → s.tick = s.holdReplay.clock) ∧
    (s.recd.active = false → s.holdReplay = s) ∧
    s.clock.clk = s.clk + 1 ∧
    (s.due = none → s.nextOffer = some (pos, .stoker k) → s.grp k = some g →
      (g.redo = r :: rest → step s = .next (leftS id (stokerSt.againStoker k g r))) ∧
      (g.redo = [] →
        (stokerSt.fetchWords k g stokerPc 1 = (s1, .ok [w0]) → w0 / 2 ^ 25 % 2 ^ 7 ≠ 0x7F →
          (decodeStoker w0 0 0 = .ok i → ran i s1 noteS) ∧
          (decodeStoker w0 0 0 = .error err → ran .stokerIllegalInstruction s1 (leftS id))) ∧
        (stokerSt.fetchWords k g stokerPc 1 = (s2, .ok [w0]) → w0 / 2 ^ 25 % 2 ^ 7 = 0x7F →
          (s2.fetchWords k g (stokerPc + 4) 2 = (s1, .ok [w1, w2]) →
            (decodeStoker w0 w1 w2 = .ok i → ran i s1 noteS) ∧
            (decodeStoker w0 w1 w2 = .error err → ran .stokerIllegalInstruction s1 (leftS id))) ∧
          (s2.fetchWords k g (stokerPc + 4) 2 = (s1, .error x) →
            ran .fetchPageFault { s1 with ev := { a := x.toNat, flag := true } } (leftS id)) ∧
          (s2.fetchWords k g (stokerPc + 4) 2 = (s1, .wait) → step s = .next (leftS id (s1.modG k fun g => { g with sWait := true })))) ∧
        (stokerSt.fetchWords k g stokerPc 1 = (s1, .error x) →
          ran .fetchPageFault { s1 with ev := { a := stokerPc.toNat } } (leftS id)) ∧
        (stokerSt.fetchWords k g stokerPc 1 = (s1, .wait) → step s = .next (leftS id (s1.modG k fun g => { g with sWait := true }))))) ∧
    (s.due = none → s.nextOffer = some (pos, .lane k slot) → s.grp k = some g → g.split slot = some sp →
      (sp.redo = some o → step s = .next (leftL id o.passes (laneSt.againLane k slot g sp o))) ∧
      (sp.redo = none →
        (laneSt.fetchWords k g lanePc 3 = (s1, .ok [w0, w1, w2]) →
          (decodeLane w0 w1 w2 = .ok i → laneSig i = some (q, f) → withinVregs q f g.kern.vregs = true →
            (g.violates sp i = false → ran i s1 noteL) ∧
            (g.violates sp i = true → step s = .next (leftL id 1 (s1.trapL k slot g sp { code := 0x10, ldv := decide (q.cls = 12) } sp.mask)))) ∧
          (decodeLane w0 w1 w2 = .ok i → laneSig i = some (q, f) → withinVregs q f g.kern.vregs = false →
            ran .laneIllegalInstruction s1 (leftL id 1)) ∧
          (decodeLane w0 w1 w2 = .error err → ran .laneIllegalInstruction s1 (leftL id 1))) ∧
        (laneSt.fetchWords k g lanePc 3 = (s1, .error x) →
          ran .fetchPageFault { s1 with ev := { a := x.toNat } } (leftL id 1)) ∧
        (laneSt.fetchWords k g lanePc 3 = (s1, .wait) → step s = .next (leftL id 1
          (s1.modG k fun g => g.setSplit slot ((g.split slot).map fun sp => { sp with waiting := true })))))) ∧
    (canonical x = false → s.fetchWords k g x 1 = (s, .error x)) ∧
    (canonical x = true → s.translate (hearthOf k) g.ctx x = (s1, .ok t) →
      let fenced := s1.fenced (dieOf (hearthOf k)) (s1.keyOfTr (tabD s1.ctxs g.ctx {}) t)
      (t.rd = false ∨ fenced = true → s.fetchWords k g x 1 = (s1, .error x)) ∧
      (t.rd = true → fenced = false → t.creg = none →
        (isOther t.pa = false → isHost t.pa = false ∨ s1.recording g.ctx = false →
          s.fetchWords k g x 1 = (s1, .ok [leNat ((List.range 4).map fun i => memGet s1.mem (t.pa + i))])) ∧
        (isOther t.pa = true → s1.lostRead g.ctx (hearthOf k) (physKey t.pa) s1.nextId = true → (s.fetchWords k g x 1).2 = .wait)))

/-- R45, R48, R56, R84: decoding and encoding agree. The words of a well-formed instruction decode to it, with every operand at every
value its encoding admits, whatever follows them; and words that decode are the words of that well-formed instruction, so no bit of
them is dropped. -/
def Obligations.EncodeDecode : Prop :=
  (∀ (i : Instr) (rest : List Byte), i.wf = true → encode i ≠ [] →
    decodeBytes (laneSig i).isSome ((encode i).foldr (fun w l => leBytes 4 w ++ l) [] ++ rest) = .ok i) ∧
  ∀ (i : Instr) (w0 w1 w2 : Nat),
    (decodeStoker w0 w1 w2 = .ok i → i.wf = true ∧ encode i = (if w0 / 2 ^ 25 % 2 ^ 7 = 0x7F then [w0, w1, w2] else [w0])) ∧
    (decodeLane w0 w1 w2 = .ok i → i.wf = true ∧ encode i = [w0, w1, w2])

/-- Words the manual writes out (R97, R107, R109, R112, R156, R167, R169, R170, R188, R189, R191, R298, R363) decode to the instructions
they stand for. -/
def Obligations.DecodeWords : Prop :=
  let lane : LaneF := { vd := 0, va := 0, vb := 0, vc := 0, la := 0, rnd := 0, sat := 0, mr := 0, ms := 0, bsel := 0, csel := 0, ty := 0, w2 := 0, ord := 0, sp := 0 }
  (∀ p ∈ ([(0x3E000000, .exit), (0x82000000, .lwait), (0x84000000, .lkill), (0xC0000000, .wgbar), (0xC6000000, .yield),
      (0x90082000, .vset 1 1), (0x92080000, .vdrop 1), (0x94482002, .vqry 9 1 2), (0xB8280003, .cpstat 5 3), (0xD4016000, .tkwt 11),
      (0x52286000, .stB16 5 3 0), (0x5470201C, .stB32 14 1 28)] : List (Nat × Instr)), decodeStoker p.1 0 0 = .ok p.2) ∧
  decodeLane 0x50004010 0x0203000C 0 = .ok (.dp8x4 { lane with vd := 4, va := 1, vb := 2, vc := 3, ty := 12 }) ∧
  decodeLane 0x90100010 0x60023005 0x40 = .ok (.stScratch { lane with va := 1, vb := 0x60, vc := 2, rnd := 1, sat := 1, ty := 5, w2 := 0x40 }) ∧
  decodeLane 0xBC006010 0x6205800A 0 = .ok (.laneAadd { lane with vd := 6, va := 1, vb := 0x62, vc := 5, rnd := 4, ty := 10, ord := 3 }) ∧
  decodeLane 0xB0807000 0x0302000A 0 = .ok (.amaxabs { lane with vd := 7, vb := 3, vc := 2, ty := 10 }) ∧
  decodeLane 0xC0005040 0x02010000 0 = .ok (.ldv { lane with vd := 5, va := 4, vb := 2, vc := 1 })

/-- No instruction is refused, and none stops the machine but where no stream of its kind is issuing: in a stream every instruction of
that stream answers a next state, and every event answers one always. -/
def Obligations.NothingRefused : Prop :=
  ∀ (s : State) (i : Instr) (k slot : Nat) (g : Machine.Group) (sp : Split),
    (∀ r, exec i s ≠ .refused r) ∧ (∀ x, exec i s = .fault x → x = .noStream) ∧
    (s.stokerAt k g → laneSig i = none → i ≠ .laneIllegalInstruction → ∃ t, exec i s = .next t) ∧
    (s.laneAt k slot g sp → (∃ x, laneSig i = some x) ∨ i = .laneIllegalInstruction ∨ i = .fetchPageFault → ∃ t, exec i s = .next t) ∧
    (encode i = [] → i ∉ [.stokerIllegalInstruction, .laneIllegalInstruction, .fetchPageFault] → ∃ t, exec i s = .next t)

/-- R180, R309, R326, R335, R364: what the machine holds right after reset, of what the manual gives a reset value: no entry of the
view matrix store has a generation above 0, no directory or filter entry and no range lock is in use, the recorded-mode registers are
0, nothing runs, and the first step boots. Memory is in its canonical form. -/
def Obligations.ResetState : Prop :=
  let s := State.reset
  (∀ h n, (s.vent h n).gen = 0) ∧ (∀ r, s.sharers r = 0) ∧ s.filters = [] ∧ (∀ n, tabGet s.locks n = none) ∧
  s.recd.ctx = 0 ∧ s.recd.active = false ∧ s.recd.replay = false ∧ s.recd.stalled = false ∧ s.recd.mismatch = false ∧
  s.recd.tbase = 0 ∧ s.recd.tsize = 0 ∧ s.recd.tail = 0 ∧ s.recd.head = 0 ∧ s.recd.count = 0 ∧
  s.groups = [] ∧ s.ctxs = [] ∧ s.cur = none ∧ s.booted = false ∧ s.stopped = false ∧ Memory.wf s.mem = true ∧
  step s = exec .boot { s with ev := {} }

/-- Every step keeps memory in its canonical form: addresses strictly rising and no cell that holds the byte an unlisted address reads
as, so that equal memories are equal data. -/
def Obligations.StepKeepsMemory : Prop :=
  ∀ s t : State, Memory.wf s.mem = true → step s = .next t → Memory.wf t.mem = true
end

