-- ==== Sys2Proof/Laws/Bits.lean ====
section
/-! SUPPORT. The bit operations of R90–R93 in terms of the values they stand for. -/

namespace Sys2Proof.Machine

/-! ### Signed codes as integers -/

theorem testBit_toNat_msb (a : W64) : a.toNat.testBit 63 = a.msb := by
  rw [BitVec.msb_eq_getLsbD_last]; rfl

theorem toInt_of_msb {a : W64} (h : a.msb = true) : a.toInt = -((2 ^ 64 - a.toNat : Nat) : Int) := by
  have := a.isLt
  rw [BitVec.toInt_eq_msb_cond, h]; simp only [if_true]; omega

theorem toInt_of_not_msb {a : W64} (h : a.msb = false) : a.toInt = (a.toNat : Int) := by
  rw [BitVec.toInt_eq_msb_cond, h]; simp

theorem ofInt_neg_nat (q : Nat) (h : q ≤ 2 ^ 64) : BitVec.ofInt 64 (-(q : Int)) = BitVec.ofNat 64 ((2 ^ 64 - q) % 2 ^ 64) := by
  apply BitVec.eq_of_toNat_eq
  rw [BitVec.toNat_ofInt, BitVec.toNat_ofNat]
  omega

theorem ofInt_nat (q : Nat) : BitVec.ofInt 64 (q : Int) = BitVec.ofNat 64 (q % 2 ^ 64) := by
  apply BitVec.eq_of_toNat_eq
  rw [BitVec.toNat_ofInt, BitVec.toNat_ofNat]
  omega

/-! ### Division (R91) -/

/-- A signed quotient is the integers' quotient, truncated toward zero; all ones for a zero divisor. -/
theorem divq_signed (a b : W64) :
    divq true a b = if b = 0 then BitVec.allOnes 64 else BitVec.ofInt 64 (a.toInt.tdiv b.toInt) := by
  unfold divq divN
  have ha := a.isLt
  have hb := b.isLt
  by_cases h0 : b = 0
  · subst h0; rfl
  · have h0' : b.toNat % 2 ^ 64 ≠ 0 := by
      intro h; apply h0; apply BitVec.eq_of_toNat_eq; simp; omega
    have hbn : b.toNat ≠ 0 := by omega
    rw [if_neg h0', if_neg h0]
    simp only [if_true, testBit_toNat_msb, show (64 - 1 : Nat) = 63 from rfl]
    have em : ∀ x : Nat, x < 2 ^ 64 → x % 2 ^ 64 = x := fun x hx => Nat.mod_eq_of_lt hx
    rcases hma : a.msb with _ | _ <;> rcases hmb : b.msb with _ | _
    · rw [toInt_of_not_msb hma, toInt_of_not_msb hmb]
      simp only [Bool.false_eq_true, if_false, if_true, em _ ha, em _ hb, ← Int.ofNat_tdiv]
      exact (ofInt_nat _).symm
    · rw [toInt_of_not_msb hma, toInt_of_msb hmb]
      simp only [Bool.false_eq_true, if_false, if_true, em _ ha, em _ hb, Int.tdiv_neg, ← Int.ofNat_tdiv]
      exact (ofInt_neg_nat _ (le_trans (Nat.div_le_self _ _) ha.le)).symm
    · rw [toInt_of_msb hma, toInt_of_not_msb hmb]
      simp only [Bool.false_eq_true, if_false, if_true, em _ ha, em _ hb, Int.neg_tdiv, ← Int.ofNat_tdiv, Bool.true_eq_false]
      exact (ofInt_neg_nat _ (le_trans (Nat.div_le_self _ _) (by omega))).symm
    · rw [toInt_of_msb hma, toInt_of_msb hmb]
      simp only [if_true, em _ ha, em _ hb, Int.neg_tdiv, Int.tdiv_neg, neg_neg, ← Int.ofNat_tdiv]
      exact (ofInt_nat _).symm

/-- A signed remainder is the integers' remainder with the sign of the dividend; the dividend for a zero divisor. -/
theorem remq_signed (a b : W64) : remq true a b = if b = 0 then a else BitVec.ofInt 64 (a.toInt.tmod b.toInt) := by
  unfold remq remN
  have ha := a.isLt
  have hb := b.isLt
  have em : ∀ x : Nat, x < 2 ^ 64 → x % 2 ^ 64 = x := fun x hx => Nat.mod_eq_of_lt hx
  by_cases h0 : b = 0
  · subst h0; rw [if_pos rfl]; show BitVec.ofNat 64 (a.toNat % 2 ^ 64) = a; rw [em _ ha]; simp
  · have h0' : b.toNat % 2 ^ 64 ≠ 0 := by
      intro h; apply h0; apply BitVec.eq_of_toNat_eq; simp; omega
    have hbn : b.toNat ≠ 0 := by omega
    rw [if_neg h0', if_neg h0]
    simp only [if_true, testBit_toNat_msb, show (64 - 1 : Nat) = 63 from rfl]
    rcases hma : a.msb with _ | _ <;> rcases hmb : b.msb with _ | _
    · rw [toInt_of_not_msb hma, toInt_of_not_msb hmb]
      simp only [Bool.false_eq_true, if_false, em _ ha, em _ hb, ← Int.ofNat_tmod]
      refine ((ofInt_nat _).trans ?_).symm
      rw [Nat.mod_eq_of_lt (lt_of_le_of_lt (Nat.mod_le _ _) ha)]
    · rw [toInt_of_not_msb hma, toInt_of_msb hmb]
      simp only [Bool.false_eq_true, if_false, if_true, em _ ha, em _ hb, Int.tmod_neg, ← Int.ofNat_tmod]
      refine ((ofInt_nat _).trans ?_).symm
      rw [Nat.mod_eq_of_lt (lt_of_le_of_lt (Nat.mod_le _ _) ha)]
    · rw [toInt_of_msb hma, toInt_of_not_msb hmb]
      simp only [Bool.false_eq_true, if_false, if_true, em _ ha, em _ hb, Int.neg_tmod, ← Int.ofNat_tmod]
      exact (ofInt_neg_nat _ (le_trans (Nat.mod_le _ _) (by omega))).symm
    · rw [toInt_of_msb hma, toInt_of_msb hmb]
      simp only [if_true, em _ ha, em _ hb, Int.neg_tmod, Int.tmod_neg, ← Int.ofNat_tmod]
      exact (ofInt_neg_nat _ (le_trans (Nat.mod_le _ _) (by omega))).symm

theorem divq_unsigned (a b : W64) : divq false a b = if b = 0 then BitVec.allOnes 64 else BitVec.ofNat 64 (a.toNat / b.toNat) := by
  unfold divq divN
  by_cases h0 : b = 0
  · subst h0; rfl
  · have h0' : b.toNat % 2 ^ 64 ≠ 0 := by
      intro h; apply h0; apply BitVec.eq_of_toNat_eq; have := b.isLt; simp; omega
    rw [if_neg h0', if_neg h0]
    simp only [Bool.false_eq_true, if_false, Nat.mod_eq_of_lt a.isLt, Nat.mod_eq_of_lt b.isLt]

theorem remq_unsigned (a b : W64) : remq false a b = if b = 0 then a else BitVec.ofNat 64 (a.toNat % b.toNat) := by
  unfold remq remN
  by_cases h0 : b = 0
  · subst h0; simp [Nat.mod_eq_of_lt a.isLt]
  · have h0' : b.toNat % 2 ^ 64 ≠ 0 := by
      intro h; apply h0; apply BitVec.eq_of_toNat_eq; have := b.isLt; simp; omega
    rw [if_neg h0', if_neg h0]
    simp only [Bool.false_eq_true, if_false, Nat.mod_eq_of_lt a.isLt, Nat.mod_eq_of_lt b.isLt]

/-! ### Minimum and maximum (R89) -/

theorem minq_signed (a b : W64) : minq true a b = if a.toInt ≤ b.toInt then a else b := by
  unfold minq; simp [BitVec.sle]

theorem maxq_signed (a b : W64) : maxq true a b = if a.toInt ≤ b.toInt then b else a := by
  unfold maxq; simp [BitVec.sle]

theorem minq_unsigned (a b : W64) : minq false a b = if a.toNat ≤ b.toNat then a else b := by
  unfold minq; simp [BitVec.ule]

theorem maxq_unsigned (a b : W64) : maxq false a b = if a.toNat ≤ b.toNat then b else a := by
  unfold maxq; simp [BitVec.ule]

/-! ### Shifts (R90) -/

theorem shlq_eq (a n : W64) : shlq a n = BitVec.ofNat 64 (if 64 ≤ n.toNat then 0 else a.toNat * 2 ^ n.toNat % 2 ^ 64) := by
  unfold shlq
  split
  · rfl
  · apply BitVec.eq_of_toNat_eq
    rw [BitVec.toNat_shiftLeft, BitVec.toNat_ofNat, Nat.mod_mod, Nat.shiftLeft_eq]

theorem shrq_eq (a n : W64) : shrq a n = BitVec.ofNat 64 (if 64 ≤ n.toNat then 0 else a.toNat / 2 ^ n.toNat) := by
  unfold shrq
  split
  · rfl
  · apply BitVec.eq_of_toNat_eq
    rw [BitVec.toNat_ushiftRight, BitVec.toNat_ofNat, Nat.shiftRight_eq_div_pow]
    exact (Nat.mod_eq_of_lt (lt_of_le_of_lt (Nat.div_le_self _ _) a.isLt)).symm

theorem sarq_eq (a n : W64) : sarq a n =
    if 64 ≤ n.toNat then (if a.getLsbD 63 then BitVec.allOnes 64 else 0) else BitVec.ofInt 64 (a.toInt / 2 ^ n.toNat) := by
  unfold sarq
  rw [BitVec.msb_eq_getLsbD_last]
  split
  · rfl
  · unfold BitVec.sshiftRight
    rw [Int.shiftRight_eq_div_pow]
    norm_cast

/-! ### Relations (R93) -/

theorem sintOf_toNat (a : W64) : sintOf 64 a.toNat = a.toInt := by
  unfold sintOf
  have := a.isLt
  rw [BitVec.toInt_eq_toNat_cond]
  simp only [Nat.mod_eq_of_lt a.isLt]
  split <;> split <;> omega

theorem not_decide_lt (x y : Int) : (!decide (x < y)) = decide (y ≤ x) := by
  by_cases h : x < y
  · simp [h]
  · simp [h]; omega

theorem toNat_eq_iff (a b : W64) : (a.toNat % 2 ^ 64 == b.toNat % 2 ^ 64) = decide (a = b) := by
  simp only [Nat.mod_eq_of_lt a.isLt, Nat.mod_eq_of_lt b.isLt, ← BitVec.toNat_inj]
  rfl

/-- A signed compare is the relation on the integers its sources stand for. -/
theorem intRel_signed (cc : Nat) (a b : W64) : intRel cc true 64 a.toNat b.toNat = relation cc a.toInt b.toInt := by
  unfold intRel relation
  simp only [if_true, sintOf_toNat, not_decide_lt, bne, toNat_eq_iff, BitVec.toInt_inj]
  split <;> simp [BitVec.toInt_inj]

/-- An unsigned compare is the relation on their values. -/
theorem intRel_unsigned (cc : Nat) (a b : W64) : intRel cc false 64 a.toNat b.toNat = relation cc a.toNat b.toNat := by
  unfold intRel relation
  have hn : ∀ x y : Nat, (!decide (x < y)) = decide ((y : Int) ≤ x) := by
    intro x y; by_cases h : x < y <;> simp [h]
    omega
  simp only [Bool.false_eq_true, if_false, Nat.mod_eq_of_lt a.isLt, Nat.mod_eq_of_lt b.isLt, hn, bne, Int.ofNat_lt]
  have he : (a.toNat == b.toNat) = decide (a.toNat = b.toNat) := rfl
  split <;> simp [he]

/-! ### Counts (R92) -/

/-- The zero bits above the highest one bit. -/
theorem clzN_spec (a : W64) : clzN 64 a.toNat ≤ 64 ∧ (∀ i < clzN 64 a.toNat, a.getLsbD (63 - i) = false) ∧
    (clzN 64 a.toNat < 64 → a.getLsbD (63 - clzN 64 a.toNat) = true) := by
  unfold clzN
  simp only [Nat.mod_eq_of_lt a.isLt]
  by_cases h : a.toNat = 0
  · rw [if_pos h]
    have : a = 0 := BitVec.eq_of_toNat_eq h
    subst this; simp
  · rw [if_neg h]
    have hl : Nat.log2 a.toNat < 64 := (Nat.log2_lt h).2 a.isLt
    refine ⟨by omega, ?_, ?_⟩
    · intro i hi
      apply Nat.testBit_lt_two_pow
      exact lt_of_lt_of_le (Nat.lt_log2_self) (Nat.pow_le_pow_right (by norm_num) (by omega))
    · intro _
      rw [show 63 - (64 - 1 - Nat.log2 a.toNat) = Nat.log2 a.toNat by omega]
      exact Nat.testBit_log2 h

theorem find_range_spec (n : Nat) (p : Nat → Bool) : ((List.range n).find? p).getD n ≤ n ∧
    (∀ i < ((List.range n).find? p).getD n, p i = false) ∧
    (((List.range n).find? p).getD n < n → p (((List.range n).find? p).getD n) = true) := by
  rcases h : (List.range n).find? p with _ | x
  · rw [List.find?_eq_none] at h
    refine ⟨le_refl _, fun i hi => ?_, fun hlt => absurd hlt (lt_irrefl _)⟩
    simpa using h i (List.mem_range.2 hi)
  · have hx := List.find?_range_eq_some.1 h
    simp only [Option.getD_some]
    refine ⟨?_, ?_, ?_⟩
    · have := List.mem_range.1 hx.2.1; omega
    · intro i hi; simpa using hx.2.2 i hi
    · intro _; exact hx.1

/-- The zero bits below the lowest one bit. -/
theorem ctzN_spec (a : W64) : ctzN 64 a.toNat ≤ 64 ∧ (∀ i < ctzN 64 a.toNat, a.getLsbD i = false) ∧
    (ctzN 64 a.toNat < 64 → a.getLsbD (ctzN 64 a.toNat) = true) := find_range_spec 64 a.toNat.testBit

end Sys2Proof.Machine
end

