-- ==== Sys2Proof/Laws/State.lean ====
section
/-! SUPPORT. What each update of a state, and of a group, leaves in every field: one lemma per field per update. -/

namespace Sys2Proof.Machine

/-! ### `State.setG` -/

section
variable (s : State) (k : Nat) (g : Group)
@[simp] theorem State.setG_clk : (s.setG k g).clk = s.clk := rfl
@[simp] theorem State.setG_timeBase : (s.setG k g).timeBase = s.timeBase := rfl
@[simp] theorem State.setG_free : (s.setG k g).free = s.free := rfl
@[simp] theorem State.setG_agenda : (s.setG k g).agenda = s.agenda := rfl
@[simp] theorem State.setG_ev : (s.setG k g).ev = s.ev := rfl
@[simp] theorem State.setG_cursor : (s.setG k g).cursor = s.cursor := rfl
@[simp] theorem State.setG_cur : (s.setG k g).cur = s.cur := rfl
@[simp] theorem State.setG_booted : (s.setG k g).booted = s.booted := rfl
@[simp] theorem State.setG_recovery : (s.setG k g).recovery = s.recovery := rfl
@[simp] theorem State.setG_coolant : (s.setG k g).coolant = s.coolant := rfl
@[simp] theorem State.setG_stopped : (s.setG k g).stopped = s.stopped := rfl
@[simp] theorem State.setG_flash : (s.setG k g).flash = s.flash := rfl
@[simp] theorem State.setG_svn : (s.setG k g).svn = s.svn := rfl
@[simp] theorem State.setG_measure : (s.setG k g).measure = s.measure := rfl
@[simp] theorem State.setG_linkLanes : (s.setG k g).linkLanes = s.linkLanes := rfl
@[simp] theorem State.setG_cxl : (s.setG k g).cxl = s.cxl := rfl
@[simp] theorem State.setG_mem : (s.setG k g).mem = s.mem := rfl
@[simp] theorem State.setG_poison : (s.setG k g).poison = s.poison := rfl
@[simp] theorem State.setG_cells : (s.setG k g).cells = s.cells := rfl
@[simp] theorem State.setG_l2 : (s.setG k g).l2 = s.l2 := rfl
@[simp] theorem State.setG_metas : (s.setG k g).metas = s.metas := rfl
@[simp] theorem State.setG_homes : (s.setG k g).homes = s.homes := rfl
@[simp] theorem State.setG_pend : (s.setG k g).pend = s.pend := rfl
@[simp] theorem State.setG_served : (s.setG k g).served = s.served := rfl
@[simp] theorem State.setG_sectors : (s.setG k g).sectors = s.sectors := rfl
@[simp] theorem State.setG_fsectors : (s.setG k g).fsectors = s.fsectors := rfl
@[simp] theorem State.setG_remotes : (s.setG k g).remotes = s.remotes := rfl
@[simp] theorem State.setG_dropexp : (s.setG k g).dropexp = s.dropexp := rfl
@[simp] theorem State.setG_dirs : (s.setG k g).dirs = s.dirs := rfl
@[simp] theorem State.setG_filters : (s.setG k g).filters = s.filters := rfl
@[simp] theorem State.setG_invals : (s.setG k g).invals = s.invals := rfl
@[simp] theorem State.setG_l1 : (s.setG k g).l1 = s.l1 := rfl
@[simp] theorem State.setG_tlb : (s.setG k g).tlb = s.tlb := rfl
@[simp] theorem State.setG_walkc : (s.setG k g).walkc = s.walkc := rfl
@[simp] theorem State.setG_replicas : (s.setG k g).replicas = s.replicas := rfl
@[simp] theorem State.setG_copyPz : (s.setG k g).copyPz = s.copyPz := rfl
@[simp] theorem State.setG_marks : (s.setG k g).marks = s.marks := rfl
@[simp] theorem State.setG_halves : (s.setG k g).halves = s.halves := rfl
@[simp] theorem State.setG_snoops : (s.setG k g).snoops = s.snoops := rfl
@[simp] theorem State.setG_ctxs : (s.setG k g).ctxs = s.ctxs := rfl
@[simp] theorem State.setG_grids : (s.setG k g).grids = s.grids := rfl
@[simp] theorem State.setG_wgs : (s.setG k g).wgs = s.wgs := rfl
@[simp] theorem State.setG_saved : (s.setG k g).saved = s.saved := rfl
@[simp] theorem State.setG_nextId : (s.setG k g).nextId = s.nextId := rfl
@[simp] theorem State.setG_busy : (s.setG k g).busy = s.busy := rfl
@[simp] theorem State.setG_vstore : (s.setG k g).vstore = s.vstore := rfl
@[simp] theorem State.setG_projs : (s.setG k g).projs = s.projs := rfl
@[simp] theorem State.setG_locks : (s.setG k g).locks = s.locks := rfl
@[simp] theorem State.setG_copies : (s.setG k g).copies = s.copies := rfl
@[simp] theorem State.setG_mats : (s.setG k g).mats = s.mats := rfl
@[simp] theorem State.setG_cpTurn : (s.setG k g).cpTurn = s.cpTurn := rfl
@[simp] theorem State.setG_codecFree : (s.setG k g).codecFree = s.codecFree := rfl
@[simp] theorem State.setG_l1Port : (s.setG k g).l1Port = s.l1Port := rfl
@[simp] theorem State.setG_recs : (s.setG k g).recs = s.recs := rfl
@[simp] theorem State.setG_faultq : (s.setG k g).faultq = s.faultq := rfl
@[simp] theorem State.setG_pools : (s.setG k g).pools = s.pools := rfl
@[simp] theorem State.setG_queues : (s.setG k g).queues = s.queues := rfl
@[simp] theorem State.setG_bar2 : (s.setG k g).bar2 = s.bar2 := rfl
@[simp] theorem State.setG_frz : (s.setG k g).frz = s.frz := rfl
@[simp] theorem State.setG_links : (s.setG k g).links = s.links := rfl
@[simp] theorem State.setG_fences : (s.setG k g).fences = s.fences := rfl
@[simp] theorem State.setG_rebuild : (s.setG k g).rebuild = s.rebuild := rfl
@[simp] theorem State.setG_ports : (s.setG k g).ports = s.ports := rfl
@[simp] theorem State.setG_rtimeout : (s.setG k g).rtimeout = s.rtimeout := rfl
@[simp] theorem State.setG_refused : (s.setG k g).refused = s.refused := rfl
@[simp] theorem State.setG_counters : (s.setG k g).counters = s.counters := rfl
@[simp] theorem State.setG_log : (s.setG k g).log = s.log := rfl
@[simp] theorem State.setG_irqs : (s.setG k g).irqs = s.irqs := rfl
@[simp] theorem State.setG_cmd : (s.setG k g).cmd = s.cmd := rfl
@[simp] theorem State.setG_recd : (s.setG k g).recd = s.recd := rfl
end

@[simp] theorem State.setG_groups (s : State) (k : Nat) (g : Group) : (s.setG k g).groups = tabSet s.groups k g := rfl

/-! ### `State.modG` -/

section
variable (s : State) (k : Nat) (f : Group → Group)
@[simp] theorem State.modG_clk : (s.modG k f).clk = s.clk := rfl
@[simp] theorem State.modG_timeBase : (s.modG k f).timeBase = s.timeBase := rfl
@[simp] theorem State.modG_free : (s.modG k f).free = s.free := rfl
@[simp] theorem State.modG_agenda : (s.modG k f).agenda = s.agenda := rfl
@[simp] theorem State.modG_ev : (s.modG k f).ev = s.ev := rfl
@[simp] theorem State.modG_cursor : (s.modG k f).cursor = s.cursor := rfl
@[simp] theorem State.modG_cur : (s.modG k f).cur = s.cur := rfl
@[simp] theorem State.modG_booted : (s.modG k f).booted = s.booted := rfl
@[simp] theorem State.modG_recovery : (s.modG k f).recovery = s.recovery := rfl
@[simp] theorem State.modG_coolant : (s.modG k f).coolant = s.coolant := rfl
@[simp] theorem State.modG_stopped : (s.modG k f).stopped = s.stopped := rfl
@[simp] theorem State.modG_flash : (s.modG k f).flash = s.flash := rfl
@[simp] theorem State.modG_svn : (s.modG k f).svn = s.svn := rfl
@[simp] theorem State.modG_measure : (s.modG k f).measure = s.measure := rfl
@[simp] theorem State.modG_linkLanes : (s.modG k f).linkLanes = s.linkLanes := rfl
@[simp] theorem State.modG_cxl : (s.modG k f).cxl = s.cxl := rfl
@[simp] theorem State.modG_mem : (s.modG k f).mem = s.mem := rfl
@[simp] theorem State.modG_poison : (s.modG k f).poison = s.poison := rfl
@[simp] theorem State.modG_cells : (s.modG k f).cells = s.cells := rfl
@[simp] theorem State.modG_l2 : (s.modG k f).l2 = s.l2 := rfl
@[simp] theorem State.modG_metas : (s.modG k f).metas = s.metas := rfl
@[simp] theorem State.modG_homes : (s.modG k f).homes = s.homes := rfl
@[simp] theorem State.modG_pend : (s.modG k f).pend = s.pend := rfl
@[simp] theorem State.modG_served : (s.modG k f).served = s.served := rfl
@[simp] theorem State.modG_sectors : (s.modG k f).sectors = s.sectors := rfl
@[simp] theorem State.modG_fsectors : (s.modG k f).fsectors = s.fsectors := rfl
@[simp] theorem State.modG_remotes : (s.modG k f).remotes = s.remotes := rfl
@[simp] theorem State.modG_dropexp : (s.modG k f).dropexp = s.dropexp := rfl
@[simp] theorem State.modG_dirs : (s.modG k f).dirs = s.dirs := rfl
@[simp] theorem State.modG_filters : (s.modG k f).filters = s.filters := rfl
@[simp] theorem State.modG_invals : (s.modG k f).invals = s.invals := rfl
@[simp] theorem State.modG_l1 : (s.modG k f).l1 = s.l1 := rfl
@[simp] theorem State.modG_tlb : (s.modG k f).tlb = s.tlb := rfl
@[simp] theorem State.modG_walkc : (s.modG k f).walkc = s.walkc := rfl
@[simp] theorem State.modG_replicas : (s.modG k f).replicas = s.replicas := rfl
@[simp] theorem State.modG_copyPz : (s.modG k f).copyPz = s.copyPz := rfl
@[simp] theorem State.modG_marks : (s.modG k f).marks = s.marks := rfl
@[simp] theorem State.modG_halves : (s.modG k f).halves = s.halves := rfl
@[simp] theorem State.modG_snoops : (s.modG k f).snoops = s.snoops := rfl
@[simp] theorem State.modG_ctxs : (s.modG k f).ctxs = s.ctxs := rfl
@[simp] theorem State.modG_grids : (s.modG k f).grids = s.grids := rfl
@[simp] theorem State.modG_wgs : (s.modG k f).wgs = s.wgs := rfl
@[simp] theorem State.modG_saved : (s.modG k f).saved = s.saved := rfl
@[simp] theorem State.modG_nextId : (s.modG k f).nextId = s.nextId := rfl
@[simp] theorem State.modG_busy : (s.modG k f).busy = s.busy := rfl
@[simp] theorem State.modG_vstore : (s.modG k f).vstore = s.vstore := rfl
@[simp] theorem State.modG_projs : (s.modG k f).projs = s.projs := rfl
@[simp] theorem State.modG_locks : (s.modG k f).locks = s.locks := rfl
@[simp] theorem State.modG_copies : (s.modG k f).copies = s.copies := rfl
@[simp] theorem State.modG_mats : (s.modG k f).mats = s.mats := rfl
@[simp] theorem State.modG_cpTurn : (s.modG k f).cpTurn = s.cpTurn := rfl
@[simp] theorem State.modG_codecFree : (s.modG k f).codecFree = s.codecFree := rfl
@[simp] theorem State.modG_l1Port : (s.modG k f).l1Port = s.l1Port := rfl
@[simp] theorem State.modG_recs : (s.modG k f).recs = s.recs := rfl
@[simp] theorem State.modG_faultq : (s.modG k f).faultq = s.faultq := rfl
@[simp] theorem State.modG_pools : (s.modG k f).pools = s.pools := rfl
@[simp] theorem State.modG_queues : (s.modG k f).queues = s.queues := rfl
@[simp] theorem State.modG_bar2 : (s.modG k f).bar2 = s.bar2 := rfl
@[simp] theorem State.modG_frz : (s.modG k f).frz = s.frz := rfl
@[simp] theorem State.modG_links : (s.modG k f).links = s.links := rfl
@[simp] theorem State.modG_fences : (s.modG k f).fences = s.fences := rfl
@[simp] theorem State.modG_rebuild : (s.modG k f).rebuild = s.rebuild := rfl
@[simp] theorem State.modG_ports : (s.modG k f).ports = s.ports := rfl
@[simp] theorem State.modG_rtimeout : (s.modG k f).rtimeout = s.rtimeout := rfl
@[simp] theorem State.modG_refused : (s.modG k f).refused = s.refused := rfl
@[simp] theorem State.modG_counters : (s.modG k f).counters = s.counters := rfl
@[simp] theorem State.modG_log : (s.modG k f).log = s.log := rfl
@[simp] theorem State.modG_irqs : (s.modG k f).irqs = s.irqs := rfl
@[simp] theorem State.modG_cmd : (s.modG k f).cmd = s.cmd := rfl
@[simp] theorem State.modG_recd : (s.modG k f).recd = s.recd := rfl
end

@[simp] theorem State.modG_groups (s : State) (k : Nat) (f : Group → Group) : (s.modG k f).groups = tabMod s.groups k f := rfl

/-! ### `State.modWg` -/

section
variable (s : State) (n : Nat) (f : Wg → Wg)
@[simp] theorem State.modWg_clk : (s.modWg n f).clk = s.clk := rfl
@[simp] theorem State.modWg_timeBase : (s.modWg n f).timeBase = s.timeBase := rfl
@[simp] theorem State.modWg_free : (s.modWg n f).free = s.free := rfl
@[simp] theorem State.modWg_agenda : (s.modWg n f).agenda = s.agenda := rfl
@[simp] theorem State.modWg_ev : (s.modWg n f).ev = s.ev := rfl
@[simp] theorem State.modWg_cursor : (s.modWg n f).cursor = s.cursor := rfl
@[simp] theorem State.modWg_cur : (s.modWg n f).cur = s.cur := rfl
@[simp] theorem State.modWg_booted : (s.modWg n f).booted = s.booted := rfl
@[simp] theorem State.modWg_recovery : (s.modWg n f).recovery = s.recovery := rfl
@[simp] theorem State.modWg_coolant : (s.modWg n f).coolant = s.coolant := rfl
@[simp] theorem State.modWg_stopped : (s.modWg n f).stopped = s.stopped := rfl
@[simp] theorem State.modWg_flash : (s.modWg n f).flash = s.flash := rfl
@[simp] theorem State.modWg_svn : (s.modWg n f).svn = s.svn := rfl
@[simp] theorem State.modWg_measure : (s.modWg n f).measure = s.measure := rfl
@[simp] theorem State.modWg_linkLanes : (s.modWg n f).linkLanes = s.linkLanes := rfl
@[simp] theorem State.modWg_cxl : (s.modWg n f).cxl = s.cxl := rfl
@[simp] theorem State.modWg_mem : (s.modWg n f).mem = s.mem := rfl
@[simp] theorem State.modWg_poison : (s.modWg n f).poison = s.poison := rfl
@[simp] theorem State.modWg_cells : (s.modWg n f).cells = s.cells := rfl
@[simp] theorem State.modWg_l2 : (s.modWg n f).l2 = s.l2 := rfl
@[simp] theorem State.modWg_metas : (s.modWg n f).metas = s.metas := rfl
@[simp] theorem State.modWg_homes : (s.modWg n f).homes = s.homes := rfl
@[simp] theorem State.modWg_pend : (s.modWg n f).pend = s.pend := rfl
@[simp] theorem State.modWg_served : (s.modWg n f).served = s.served := rfl
@[simp] theorem State.modWg_sectors : (s.modWg n f).sectors = s.sectors := rfl
@[simp] theorem State.modWg_fsectors : (s.modWg n f).fsectors = s.fsectors := rfl
@[simp] theorem State.modWg_remotes : (s.modWg n f).remotes = s.remotes := rfl
@[simp] theorem State.modWg_dropexp : (s.modWg n f).dropexp = s.dropexp := rfl
@[simp] theorem State.modWg_dirs : (s.modWg n f).dirs = s.dirs := rfl
@[simp] theorem State.modWg_filters : (s.modWg n f).filters = s.filters := rfl
@[simp] theorem State.modWg_invals : (s.modWg n f).invals = s.invals := rfl
@[simp] theorem State.modWg_l1 : (s.modWg n f).l1 = s.l1 := rfl
@[simp] theorem State.modWg_tlb : (s.modWg n f).tlb = s.tlb := rfl
@[simp] theorem State.modWg_walkc : (s.modWg n f).walkc = s.walkc := rfl
@[simp] theorem State.modWg_replicas : (s.modWg n f).replicas = s.replicas := rfl
@[simp] theorem State.modWg_copyPz : (s.modWg n f).copyPz = s.copyPz := rfl
@[simp] theorem State.modWg_marks : (s.modWg n f).marks = s.marks := rfl
@[simp] theorem State.modWg_halves : (s.modWg n f).halves = s.halves := rfl
@[simp] theorem State.modWg_snoops : (s.modWg n f).snoops = s.snoops := rfl
@[simp] theorem State.modWg_ctxs : (s.modWg n f).ctxs = s.ctxs := rfl
@[simp] theorem State.modWg_grids : (s.modWg n f).grids = s.grids := rfl
@[simp] theorem State.modWg_groups : (s.modWg n f).groups = s.groups := rfl
@[simp] theorem State.modWg_saved : (s.modWg n f).saved = s.saved := rfl
@[simp] theorem State.modWg_nextId : (s.modWg n f).nextId = s.nextId := rfl
@[simp] theorem State.modWg_busy : (s.modWg n f).busy = s.busy := rfl
@[simp] theorem State.modWg_vstore : (s.modWg n f).vstore = s.vstore := rfl
@[simp] theorem State.modWg_projs : (s.modWg n f).projs = s.projs := rfl
@[simp] theorem State.modWg_locks : (s.modWg n f).locks = s.locks := rfl
@[simp] theorem State.modWg_copies : (s.modWg n f).copies = s.copies := rfl
@[simp] theorem State.modWg_mats : (s.modWg n f).mats = s.mats := rfl
@[simp] theorem State.modWg_cpTurn : (s.modWg n f).cpTurn = s.cpTurn := rfl
@[simp] theorem State.modWg_codecFree : (s.modWg n f).codecFree = s.codecFree := rfl
@[simp] theorem State.modWg_l1Port : (s.modWg n f).l1Port = s.l1Port := rfl
@[simp] theorem State.modWg_recs : (s.modWg n f).recs = s.recs := rfl
@[simp] theorem State.modWg_faultq : (s.modWg n f).faultq = s.faultq := rfl
@[simp] theorem State.modWg_pools : (s.modWg n f).pools = s.pools := rfl
@[simp] theorem State.modWg_queues : (s.modWg n f).queues = s.queues := rfl
@[simp] theorem State.modWg_bar2 : (s.modWg n f).bar2 = s.bar2 := rfl
@[simp] theorem State.modWg_frz : (s.modWg n f).frz = s.frz := rfl
@[simp] theorem State.modWg_links : (s.modWg n f).links = s.links := rfl
@[simp] theorem State.modWg_fences : (s.modWg n f).fences = s.fences := rfl
@[simp] theorem State.modWg_rebuild : (s.modWg n f).rebuild = s.rebuild := rfl
@[simp] theorem State.modWg_ports : (s.modWg n f).ports = s.ports := rfl
@[simp] theorem State.modWg_rtimeout : (s.modWg n f).rtimeout = s.rtimeout := rfl
@[simp] theorem State.modWg_refused : (s.modWg n f).refused = s.refused := rfl
@[simp] theorem State.modWg_counters : (s.modWg n f).counters = s.counters := rfl
@[simp] theorem State.modWg_log : (s.modWg n f).log = s.log := rfl
@[simp] theorem State.modWg_irqs : (s.modWg n f).irqs = s.irqs := rfl
@[simp] theorem State.modWg_cmd : (s.modWg n f).cmd = s.cmd := rfl
@[simp] theorem State.modWg_recd : (s.modWg n f).recd = s.recd := rfl
end

@[simp] theorem State.modWg_wgs (s : State) (n : Nat) (f : Wg → Wg) : (s.modWg n f).wgs = tabMod s.wgs n f := rfl

/-! ### `State.stamp` -/

section
variable (s : State)
@[simp] theorem State.stamp_clk : (s.stamp).clk = s.clk := rfl
@[simp] theorem State.stamp_timeBase : (s.stamp).timeBase = s.timeBase := rfl
@[simp] theorem State.stamp_agenda : (s.stamp).agenda = s.agenda := rfl
@[simp] theorem State.stamp_ev : (s.stamp).ev = s.ev := rfl
@[simp] theorem State.stamp_cursor : (s.stamp).cursor = s.cursor := rfl
@[simp] theorem State.stamp_cur : (s.stamp).cur = s.cur := rfl
@[simp] theorem State.stamp_booted : (s.stamp).booted = s.booted := rfl
@[simp] theorem State.stamp_recovery : (s.stamp).recovery = s.recovery := rfl
@[simp] theorem State.stamp_coolant : (s.stamp).coolant = s.coolant := rfl
@[simp] theorem State.stamp_stopped : (s.stamp).stopped = s.stopped := rfl
@[simp] theorem State.stamp_flash : (s.stamp).flash = s.flash := rfl
@[simp] theorem State.stamp_svn : (s.stamp).svn = s.svn := rfl
@[simp] theorem State.stamp_measure : (s.stamp).measure = s.measure := rfl
@[simp] theorem State.stamp_linkLanes : (s.stamp).linkLanes = s.linkLanes := rfl
@[simp] theorem State.stamp_cxl : (s.stamp).cxl = s.cxl := rfl
@[simp] theorem State.stamp_mem : (s.stamp).mem = s.mem := rfl
@[simp] theorem State.stamp_poison : (s.stamp).poison = s.poison := rfl
@[simp] theorem State.stamp_cells : (s.stamp).cells = s.cells := rfl
@[simp] theorem State.stamp_l2 : (s.stamp).l2 = s.l2 := rfl
@[simp] theorem State.stamp_metas : (s.stamp).metas = s.metas := rfl
@[simp] theorem State.stamp_homes : (s.stamp).homes = s.homes := rfl
@[simp] theorem State.stamp_pend : (s.stamp).pend = s.pend := rfl
@[simp] theorem State.stamp_served : (s.stamp).served = s.served := rfl
@[simp] theorem State.stamp_sectors : (s.stamp).sectors = s.sectors := rfl
@[simp] theorem State.stamp_fsectors : (s.stamp).fsectors = s.fsectors := rfl
@[simp] theorem State.stamp_remotes : (s.stamp).remotes = s.remotes := rfl
@[simp] theorem State.stamp_dropexp : (s.stamp).dropexp = s.dropexp := rfl
@[simp] theorem State.stamp_dirs : (s.stamp).dirs = s.dirs := rfl
@[simp] theorem State.stamp_filters : (s.stamp).filters = s.filters := rfl
@[simp] theorem State.stamp_invals : (s.stamp).invals = s.invals := rfl
@[simp] theorem State.stamp_l1 : (s.stamp).l1 = s.l1 := rfl
@[simp] theorem State.stamp_tlb : (s.stamp).tlb = s.tlb := rfl
@[simp] theorem State.stamp_walkc : (s.stamp).walkc = s.walkc := rfl
@[simp] theorem State.stamp_replicas : (s.stamp).replicas = s.replicas := rfl
@[simp] theorem State.stamp_copyPz : (s.stamp).copyPz = s.copyPz := rfl
@[simp] theorem State.stamp_marks : (s.stamp).marks = s.marks := rfl
@[simp] theorem State.stamp_halves : (s.stamp).halves = s.halves := rfl
@[simp] theorem State.stamp_snoops : (s.stamp).snoops = s.snoops := rfl
@[simp] theorem State.stamp_ctxs : (s.stamp).ctxs = s.ctxs := rfl
@[simp] theorem State.stamp_grids : (s.stamp).grids = s.grids := rfl
@[simp] theorem State.stamp_wgs : (s.stamp).wgs = s.wgs := rfl
@[simp] theorem State.stamp_groups : (s.stamp).groups = s.groups := rfl
@[simp] theorem State.stamp_saved : (s.stamp).saved = s.saved := rfl
@[simp] theorem State.stamp_nextId : (s.stamp).nextId = s.nextId := rfl
@[simp] theorem State.stamp_busy : (s.stamp).busy = s.busy := rfl
@[simp] theorem State.stamp_vstore : (s.stamp).vstore = s.vstore := rfl
@[simp] theorem State.stamp_projs : (s.stamp).projs = s.projs := rfl
@[simp] theorem State.stamp_locks : (s.stamp).locks = s.locks := rfl
@[simp] theorem State.stamp_copies : (s.stamp).copies = s.copies := rfl
@[simp] theorem State.stamp_mats : (s.stamp).mats = s.mats := rfl
@[simp] theorem State.stamp_cpTurn : (s.stamp).cpTurn = s.cpTurn := rfl
@[simp] theorem State.stamp_codecFree : (s.stamp).codecFree = s.codecFree := rfl
@[simp] theorem State.stamp_l1Port : (s.stamp).l1Port = s.l1Port := rfl
@[simp] theorem State.stamp_recs : (s.stamp).recs = s.recs := rfl
@[simp] theorem State.stamp_faultq : (s.stamp).faultq = s.faultq := rfl
@[simp] theorem State.stamp_pools : (s.stamp).pools = s.pools := rfl
@[simp] theorem State.stamp_queues : (s.stamp).queues = s.queues := rfl
@[simp] theorem State.stamp_bar2 : (s.stamp).bar2 = s.bar2 := rfl
@[simp] theorem State.stamp_frz : (s.stamp).frz = s.frz := rfl
@[simp] theorem State.stamp_links : (s.stamp).links = s.links := rfl
@[simp] theorem State.stamp_fences : (s.stamp).fences = s.fences := rfl
@[simp] theorem State.stamp_rebuild : (s.stamp).rebuild = s.rebuild := rfl
@[simp] theorem State.stamp_ports : (s.stamp).ports = s.ports := rfl
@[simp] theorem State.stamp_rtimeout : (s.stamp).rtimeout = s.rtimeout := rfl
@[simp] theorem State.stamp_refused : (s.stamp).refused = s.refused := rfl
@[simp] theorem State.stamp_counters : (s.stamp).counters = s.counters := rfl
@[simp] theorem State.stamp_log : (s.stamp).log = s.log := rfl
@[simp] theorem State.stamp_irqs : (s.stamp).irqs = s.irqs := rfl
@[simp] theorem State.stamp_cmd : (s.stamp).cmd = s.cmd := rfl
@[simp] theorem State.stamp_recd : (s.stamp).recd = s.recd := rfl
end

@[simp] theorem State.stamp_free (s : State) : (s.stamp).free = s.free + 1 := rfl

/-! ### `State.newId` -/

section
variable (s : State)
@[simp] theorem State.newId_clk : (s.newId).clk = s.clk := rfl
@[simp] theorem State.newId_timeBase : (s.newId).timeBase = s.timeBase := rfl
@[simp] theorem State.newId_free : (s.newId).free = s.free := rfl
@[simp] theorem State.newId_agenda : (s.newId).agenda = s.agenda := rfl
@[simp] theorem State.newId_ev : (s.newId).ev = s.ev := rfl
@[simp] theorem State.newId_cursor : (s.newId).cursor = s.cursor := rfl
@[simp] theorem State.newId_cur : (s.newId).cur = s.cur := rfl
@[simp] theorem State.newId_booted : (s.newId).booted = s.booted := rfl
@[simp] theorem State.newId_recovery : (s.newId).recovery = s.recovery := rfl
@[simp] theorem State.newId_coolant : (s.newId).coolant = s.coolant := rfl
@[simp] theorem State.newId_stopped : (s.newId).stopped = s.stopped := rfl
@[simp] theorem State.newId_flash : (s.newId).flash = s.flash := rfl
@[simp] theorem State.newId_svn : (s.newId).svn = s.svn := rfl
@[simp] theorem State.newId_measure : (s.newId).measure = s.measure := rfl
@[simp] theorem State.newId_linkLanes : (s.newId).linkLanes = s.linkLanes := rfl
@[simp] theorem State.newId_cxl : (s.newId).cxl = s.cxl := rfl
@[simp] theorem State.newId_mem : (s.newId).mem = s.mem := rfl
@[simp] theorem State.newId_poison : (s.newId).poison = s.poison := rfl
@[simp] theorem State.newId_cells : (s.newId).cells = s.cells := rfl
@[simp] theorem State.newId_l2 : (s.newId).l2 = s.l2 := rfl
@[simp] theorem State.newId_metas : (s.newId).metas = s.metas := rfl
@[simp] theorem State.newId_homes : (s.newId).homes = s.homes := rfl
@[simp] theorem State.newId_pend : (s.newId).pend = s.pend := rfl
@[simp] theorem State.newId_served : (s.newId).served = s.served := rfl
@[simp] theorem State.newId_sectors : (s.newId).sectors = s.sectors := rfl
@[simp] theorem State.newId_fsectors : (s.newId).fsectors = s.fsectors := rfl
@[simp] theorem State.newId_remotes : (s.newId).remotes = s.remotes := rfl
@[simp] theorem State.newId_dropexp : (s.newId).dropexp = s.dropexp := rfl
@[simp] theorem State.newId_dirs : (s.newId).dirs = s.dirs := rfl
@[simp] theorem State.newId_filters : (s.newId).filters = s.filters := rfl
@[simp] theorem State.newId_invals : (s.newId).invals = s.invals := rfl
@[simp] theorem State.newId_l1 : (s.newId).l1 = s.l1 := rfl
@[simp] theorem State.newId_tlb : (s.newId).tlb = s.tlb := rfl
@[simp] theorem State.newId_walkc : (s.newId).walkc = s.walkc := rfl
@[simp] theorem State.newId_replicas : (s.newId).replicas = s.replicas := rfl
@[simp] theorem State.newId_copyPz : (s.newId).copyPz = s.copyPz := rfl
@[simp] theorem State.newId_marks : (s.newId).marks = s.marks := rfl
@[simp] theorem State.newId_halves : (s.newId).halves = s.halves := rfl
@[simp] theorem State.newId_snoops : (s.newId).snoops = s.snoops := rfl
@[simp] theorem State.newId_ctxs : (s.newId).ctxs = s.ctxs := rfl
@[simp] theorem State.newId_grids : (s.newId).grids = s.grids := rfl
@[simp] theorem State.newId_wgs : (s.newId).wgs = s.wgs := rfl
@[simp] theorem State.newId_groups : (s.newId).groups = s.groups := rfl
@[simp] theorem State.newId_saved : (s.newId).saved = s.saved := rfl
@[simp] theorem State.newId_busy : (s.newId).busy = s.busy := rfl
@[simp] theorem State.newId_vstore : (s.newId).vstore = s.vstore := rfl
@[simp] theorem State.newId_projs : (s.newId).projs = s.projs := rfl
@[simp] theorem State.newId_locks : (s.newId).locks = s.locks := rfl
@[simp] theorem State.newId_copies : (s.newId).copies = s.copies := rfl
@[simp] theorem State.newId_mats : (s.newId).mats = s.mats := rfl
@[simp] theorem State.newId_cpTurn : (s.newId).cpTurn = s.cpTurn := rfl
@[simp] theorem State.newId_codecFree : (s.newId).codecFree = s.codecFree := rfl
@[simp] theorem State.newId_l1Port : (s.newId).l1Port = s.l1Port := rfl
@[simp] theorem State.newId_recs : (s.newId).recs = s.recs := rfl
@[simp] theorem State.newId_faultq : (s.newId).faultq = s.faultq := rfl
@[simp] theorem State.newId_pools : (s.newId).pools = s.pools := rfl
@[simp] theorem State.newId_queues : (s.newId).queues = s.queues := rfl
@[simp] theorem State.newId_bar2 : (s.newId).bar2 = s.bar2 := rfl
@[simp] theorem State.newId_frz : (s.newId).frz = s.frz := rfl
@[simp] theorem State.newId_links : (s.newId).links = s.links := rfl
@[simp] theorem State.newId_fences : (s.newId).fences = s.fences := rfl
@[simp] theorem State.newId_rebuild : (s.newId).rebuild = s.rebuild := rfl
@[simp] theorem State.newId_ports : (s.newId).ports = s.ports := rfl
@[simp] theorem State.newId_rtimeout : (s.newId).rtimeout = s.rtimeout := rfl
@[simp] theorem State.newId_refused : (s.newId).refused = s.refused := rfl
@[simp] theorem State.newId_counters : (s.newId).counters = s.counters := rfl
@[simp] theorem State.newId_log : (s.newId).log = s.log := rfl
@[simp] theorem State.newId_irqs : (s.newId).irqs = s.irqs := rfl
@[simp] theorem State.newId_cmd : (s.newId).cmd = s.cmd := rfl
@[simp] theorem State.newId_recd : (s.newId).recd = s.recd := rfl
end

@[simp] theorem State.newId_nextId (s : State) : (s.newId).nextId = s.nextId + 1 := rfl

/-! ### `State.irq` -/

section
variable (s : State) (v : Nat)
@[simp] theorem State.irq_clk : (s.irq v).clk = s.clk := rfl
@[simp] theorem State.irq_timeBase : (s.irq v).timeBase = s.timeBase := rfl
@[simp] theorem State.irq_free : (s.irq v).free = s.free := rfl
@[simp] theorem State.irq_agenda : (s.irq v).agenda = s.agenda := rfl
@[simp] theorem State.irq_ev : (s.irq v).ev = s.ev := rfl
@[simp] theorem State.irq_cursor : (s.irq v).cursor = s.cursor := rfl
@[simp] theorem State.irq_cur : (s.irq v).cur = s.cur := rfl
@[simp] theorem State.irq_booted : (s.irq v).booted = s.booted := rfl
@[simp] theorem State.irq_recovery : (s.irq v).recovery = s.recovery := rfl
@[simp] theorem State.irq_coolant : (s.irq v).coolant = s.coolant := rfl
@[simp] theorem State.irq_stopped : (s.irq v).stopped = s.stopped := rfl
@[simp] theorem State.irq_flash : (s.irq v).flash = s.flash := rfl
@[simp] theorem State.irq_svn : (s.irq v).svn = s.svn := rfl
@[simp] theorem State.irq_measure : (s.irq v).measure = s.measure := rfl
@[simp] theorem State.irq_linkLanes : (s.irq v).linkLanes = s.linkLanes := rfl
@[simp] theorem State.irq_cxl : (s.irq v).cxl = s.cxl := rfl
@[simp] theorem State.irq_mem : (s.irq v).mem = s.mem := rfl
@[simp] theorem State.irq_poison : (s.irq v).poison = s.poison := rfl
@[simp] theorem State.irq_cells : (s.irq v).cells = s.cells := rfl
@[simp] theorem State.irq_l2 : (s.irq v).l2 = s.l2 := rfl
@[simp] theorem State.irq_metas : (s.irq v).metas = s.metas := rfl
@[simp] theorem State.irq_homes : (s.irq v).homes = s.homes := rfl
@[simp] theorem State.irq_pend : (s.irq v).pend = s.pend := rfl
@[simp] theorem State.irq_served : (s.irq v).served = s.served := rfl
@[simp] theorem State.irq_sectors : (s.irq v).sectors = s.sectors := rfl
@[simp] theorem State.irq_fsectors : (s.irq v).fsectors = s.fsectors := rfl
@[simp] theorem State.irq_remotes : (s.irq v).remotes = s.remotes := rfl
@[simp] theorem State.irq_dropexp : (s.irq v).dropexp = s.dropexp := rfl
@[simp] theorem State.irq_dirs : (s.irq v).dirs = s.dirs := rfl
@[simp] theorem State.irq_filters : (s.irq v).filters = s.filters := rfl
@[simp] theorem State.irq_invals : (s.irq v).invals = s.invals := rfl
@[simp] theorem State.irq_l1 : (s.irq v).l1 = s.l1 := rfl
@[simp] theorem State.irq_tlb : (s.irq v).tlb = s.tlb := rfl
@[simp] theorem State.irq_walkc : (s.irq v).walkc = s.walkc := rfl
@[simp] theorem State.irq_replicas : (s.irq v).replicas = s.replicas := rfl
@[simp] theorem State.irq_copyPz : (s.irq v).copyPz = s.copyPz := rfl
@[simp] theorem State.irq_marks : (s.irq v).marks = s.marks := rfl
@[simp] theorem State.irq_halves : (s.irq v).halves = s.halves := rfl
@[simp] theorem State.irq_snoops : (s.irq v).snoops = s.snoops := rfl
@[simp] theorem State.irq_ctxs : (s.irq v).ctxs = s.ctxs := rfl
@[simp] theorem State.irq_grids : (s.irq v).grids = s.grids := rfl
@[simp] theorem State.irq_wgs : (s.irq v).wgs = s.wgs := rfl
@[simp] theorem State.irq_groups : (s.irq v).groups = s.groups := rfl
@[simp] theorem State.irq_saved : (s.irq v).saved = s.saved := rfl
@[simp] theorem State.irq_nextId : (s.irq v).nextId = s.nextId := rfl
@[simp] theorem State.irq_busy : (s.irq v).busy = s.busy := rfl
@[simp] theorem State.irq_vstore : (s.irq v).vstore = s.vstore := rfl
@[simp] theorem State.irq_projs : (s.irq v).projs = s.projs := rfl
@[simp] theorem State.irq_locks : (s.irq v).locks = s.locks := rfl
@[simp] theorem State.irq_copies : (s.irq v).copies = s.copies := rfl
@[simp] theorem State.irq_mats : (s.irq v).mats = s.mats := rfl
@[simp] theorem State.irq_cpTurn : (s.irq v).cpTurn = s.cpTurn := rfl
@[simp] theorem State.irq_codecFree : (s.irq v).codecFree = s.codecFree := rfl
@[simp] theorem State.irq_l1Port : (s.irq v).l1Port = s.l1Port := rfl
@[simp] theorem State.irq_recs : (s.irq v).recs = s.recs := rfl
@[simp] theorem State.irq_faultq : (s.irq v).faultq = s.faultq := rfl
@[simp] theorem State.irq_pools : (s.irq v).pools = s.pools := rfl
@[simp] theorem State.irq_queues : (s.irq v).queues = s.queues := rfl
@[simp] theorem State.irq_bar2 : (s.irq v).bar2 = s.bar2 := rfl
@[simp] theorem State.irq_frz : (s.irq v).frz = s.frz := rfl
@[simp] theorem State.irq_links : (s.irq v).links = s.links := rfl
@[simp] theorem State.irq_fences : (s.irq v).fences = s.fences := rfl
@[simp] theorem State.irq_rebuild : (s.irq v).rebuild = s.rebuild := rfl
@[simp] theorem State.irq_ports : (s.irq v).ports = s.ports := rfl
@[simp] theorem State.irq_rtimeout : (s.irq v).rtimeout = s.rtimeout := rfl
@[simp] theorem State.irq_refused : (s.irq v).refused = s.refused := rfl
@[simp] theorem State.irq_counters : (s.irq v).counters = s.counters := rfl
@[simp] theorem State.irq_log : (s.irq v).log = s.log := rfl
@[simp] theorem State.irq_cmd : (s.irq v).cmd = s.cmd := rfl
@[simp] theorem State.irq_recd : (s.irq v).recd = s.recd := rfl
end

@[simp] theorem State.irq_irqs (s : State) (v : Nat) : (s.irq v).irqs = s.irqs ++ [v] := rfl

/-! ### `State.logE` -/

section
variable (s : State) (kind unit addr src gen : Nat)
@[simp] theorem State.logE_clk : (s.logE kind unit addr src gen).clk = s.clk := rfl
@[simp] theorem State.logE_timeBase : (s.logE kind unit addr src gen).timeBase = s.timeBase := rfl
@[simp] theorem State.logE_free : (s.logE kind unit addr src gen).free = s.free := rfl
@[simp] theorem State.logE_agenda : (s.logE kind unit addr src gen).agenda = s.agenda := rfl
@[simp] theorem State.logE_ev : (s.logE kind unit addr src gen).ev = s.ev := rfl
@[simp] theorem State.logE_cursor : (s.logE kind unit addr src gen).cursor = s.cursor := rfl
@[simp] theorem State.logE_cur : (s.logE kind unit addr src gen).cur = s.cur := rfl
@[simp] theorem State.logE_booted : (s.logE kind unit addr src gen).booted = s.booted := rfl
@[simp] theorem State.logE_recovery : (s.logE kind unit addr src gen).recovery = s.recovery := rfl
@[simp] theorem State.logE_coolant : (s.logE kind unit addr src gen).coolant = s.coolant := rfl
@[simp] theorem State.logE_stopped : (s.logE kind unit addr src gen).stopped = s.stopped := rfl
@[simp] theorem State.logE_flash : (s.logE kind unit addr src gen).flash = s.flash := rfl
@[simp] theorem State.logE_svn : (s.logE kind unit addr src gen).svn = s.svn := rfl
@[simp] theorem State.logE_measure : (s.logE kind unit addr src gen).measure = s.measure := rfl
@[simp] theorem State.logE_linkLanes : (s.logE kind unit addr src gen).linkLanes = s.linkLanes := rfl
@[simp] theorem State.logE_cxl : (s.logE kind unit addr src gen).cxl = s.cxl := rfl
@[simp] theorem State.logE_mem : (s.logE kind unit addr src gen).mem = s.mem := rfl
@[simp] theorem State.logE_poison : (s.logE kind unit addr src gen).poison = s.poison := rfl
@[simp] theorem State.logE_cells : (s.logE kind unit addr src gen).cells = s.cells := rfl
@[simp] theorem State.logE_l2 : (s.logE kind unit addr src gen).l2 = s.l2 := rfl
@[simp] theorem State.logE_metas : (s.logE kind unit addr src gen).metas = s.metas := rfl
@[simp] theorem State.logE_homes : (s.logE kind unit addr src gen).homes = s.homes := rfl
@[simp] theorem State.logE_pend : (s.logE kind unit addr src gen).pend = s.pend := rfl
@[simp] theorem State.logE_served : (s.logE kind unit addr src gen).served = s.served := rfl
@[simp] theorem State.logE_sectors : (s.logE kind unit addr src gen).sectors = s.sectors := rfl
@[simp] theorem State.logE_fsectors : (s.logE kind unit addr src gen).fsectors = s.fsectors := rfl
@[simp] theorem State.logE_remotes : (s.logE kind unit addr src gen).remotes = s.remotes := rfl
@[simp] theorem State.logE_dropexp : (s.logE kind unit addr src gen).dropexp = s.dropexp := rfl
@[simp] theorem State.logE_dirs : (s.logE kind unit addr src gen).dirs = s.dirs := rfl
@[simp] theorem State.logE_filters : (s.logE kind unit addr src gen).filters = s.filters := rfl
@[simp] theorem State.logE_invals : (s.logE kind unit addr src gen).invals = s.invals := rfl
@[simp] theorem State.logE_l1 : (s.logE kind unit addr src gen).l1 = s.l1 := rfl
@[simp] theorem State.logE_tlb : (s.logE kind unit addr src gen).tlb = s.tlb := rfl
@[simp] theorem State.logE_walkc : (s.logE kind unit addr src gen).walkc = s.walkc := rfl
@[simp] theorem State.logE_replicas : (s.logE kind unit addr src gen).replicas = s.replicas := rfl
@[simp] theorem State.logE_copyPz : (s.logE kind unit addr src gen).copyPz = s.copyPz := rfl
@[simp] theorem State.logE_marks : (s.logE kind unit addr src gen).marks = s.marks := rfl
@[simp] theorem State.logE_halves : (s.logE kind unit addr src gen).halves = s.halves := rfl
@[simp] theorem State.logE_snoops : (s.logE kind unit addr src gen).snoops = s.snoops := rfl
@[simp] theorem State.logE_ctxs : (s.logE kind unit addr src gen).ctxs = s.ctxs := rfl
@[simp] theorem State.logE_grids : (s.logE kind unit addr src gen).grids = s.grids := rfl
@[simp] theorem State.logE_wgs : (s.logE kind unit addr src gen).wgs = s.wgs := rfl
@[simp] theorem State.logE_groups : (s.logE kind unit addr src gen).groups = s.groups := rfl
@[simp] theorem State.logE_saved : (s.logE kind unit addr src gen).saved = s.saved := rfl
@[simp] theorem State.logE_nextId : (s.logE kind unit addr src gen).nextId = s.nextId := rfl
@[simp] theorem State.logE_busy : (s.logE kind unit addr src gen).busy = s.busy := rfl
@[simp] theorem State.logE_vstore : (s.logE kind unit addr src gen).vstore = s.vstore := rfl
@[simp] theorem State.logE_projs : (s.logE kind unit addr src gen).projs = s.projs := rfl
@[simp] theorem State.logE_locks : (s.logE kind unit addr src gen).locks = s.locks := rfl
@[simp] theorem State.logE_copies : (s.logE kind unit addr src gen).copies = s.copies := rfl
@[simp] theorem State.logE_mats : (s.logE kind unit addr src gen).mats = s.mats := rfl
@[simp] theorem State.logE_cpTurn : (s.logE kind unit addr src gen).cpTurn = s.cpTurn := rfl
@[simp] theorem State.logE_codecFree : (s.logE kind unit addr src gen).codecFree = s.codecFree := rfl
@[simp] theorem State.logE_l1Port : (s.logE kind unit addr src gen).l1Port = s.l1Port := rfl
@[simp] theorem State.logE_recs : (s.logE kind unit addr src gen).recs = s.recs := rfl
@[simp] theorem State.logE_faultq : (s.logE kind unit addr src gen).faultq = s.faultq := rfl
@[simp] theorem State.logE_pools : (s.logE kind unit addr src gen).pools = s.pools := rfl
@[simp] theorem State.logE_queues : (s.logE kind unit addr src gen).queues = s.queues := rfl
@[simp] theorem State.logE_bar2 : (s.logE kind unit addr src gen).bar2 = s.bar2 := rfl
@[simp] theorem State.logE_frz : (s.logE kind unit addr src gen).frz = s.frz := rfl
@[simp] theorem State.logE_links : (s.logE kind unit addr src gen).links = s.links := rfl
@[simp] theorem State.logE_fences : (s.logE kind unit addr src gen).fences = s.fences := rfl
@[simp] theorem State.logE_rebuild : (s.logE kind unit addr src gen).rebuild = s.rebuild := rfl
@[simp] theorem State.logE_ports : (s.logE kind unit addr src gen).ports = s.ports := rfl
@[simp] theorem State.logE_rtimeout : (s.logE kind unit addr src gen).rtimeout = s.rtimeout := rfl
@[simp] theorem State.logE_refused : (s.logE kind unit addr src gen).refused = s.refused := rfl
@[simp] theorem State.logE_counters : (s.logE kind unit addr src gen).counters = s.counters := rfl
@[simp] theorem State.logE_irqs : (s.logE kind unit addr src gen).irqs = s.irqs := rfl
@[simp] theorem State.logE_cmd : (s.logE kind unit addr src gen).cmd = s.cmd := rfl
@[simp] theorem State.logE_recd : (s.logE kind unit addr src gen).recd = s.recd := rfl
end

@[simp] theorem State.logE_log (s : State) (kind unit addr src gen : Nat) :
    (s.logE kind unit addr src gen).log = s.log ++ [⟨kind, unit, s.now, addr, src, gen⟩] := rfl

/-! ### `Group.adv` -/

section
variable (g : Group) (len : Nat)
@[simp] theorem Group.adv_ctx : (g.adv len).ctx = g.ctx := rfl
@[simp] theorem Group.adv_wg : (g.adv len).wg = g.wg := rfl
@[simp] theorem Group.adv_gidx : (g.adv len).gidx = g.gidx := rfl
@[simp] theorem Group.adv_kern : (g.adv len).kern = g.kern := rfl
@[simp] theorem Group.adv_width : (g.adv len).width = g.width := rfl
@[simp] theorem Group.adv_s : (g.adv len).s = g.s := rfl
@[simp] theorem Group.adv_c : (g.adv len).c = g.c := rfl
@[simp] theorem Group.adv_b : (g.adv len).b = g.b := rfl
@[simp] theorem Group.adv_w : (g.adv len).w = g.w := rfl
@[simp] theorem Group.adv_v : (g.adv len).v = g.v := rfl
@[simp] theorem Group.adv_m : (g.adv len).m = g.m := rfl
@[simp] theorem Group.adv_mode : (g.adv len).mode = g.mode := rfl
@[simp] theorem Group.adv_blocks : (g.adv len).blocks = g.blocks := rfl
@[simp] theorem Group.adv_slot0 : (g.adv len).slot0 = g.slot0 := rfl
@[simp] theorem Group.adv_slot1 : (g.adv len).slot1 = g.slot1 := rfl
@[simp] theorem Group.adv_spilled : (g.adv len).spilled = g.spilled := rfl
@[simp] theorem Group.adv_last : (g.adv len).last = g.last := rfl
@[simp] theorem Group.adv_hnd : (g.adv len).hnd = g.hnd := rfl
@[simp] theorem Group.adv_susp : (g.adv len).susp = g.susp := rfl
@[simp] theorem Group.adv_yielded : (g.adv len).yielded = g.yielded := rfl
@[simp] theorem Group.adv_pendTraps : (g.adv len).pendTraps = g.pendTraps := rfl
@[simp] theorem Group.adv_raised : (g.adv len).raised = g.raised := rfl
@[simp] theorem Group.adv_launching : (g.adv len).launching = g.launching := rfl
@[simp] theorem Group.adv_got : (g.adv len).got = g.got := rfl
@[simp] theorem Group.adv_lpass : (g.adv len).lpass = g.lpass := rfl
@[simp] theorem Group.adv_spass : (g.adv len).spass = g.spass := rfl
@[simp] theorem Group.adv_lesc : (g.adv len).lesc = g.lesc := rfl
@[simp] theorem Group.adv_sesc : (g.adv len).sesc = g.sesc := rfl
@[simp] theorem Group.adv_ldem : (g.adv len).ldem = g.ldem := rfl
@[simp] theorem Group.adv_sdem : (g.adv len).sdem = g.sdem := rfl
@[simp] theorem Group.adv_lsince : (g.adv len).lsince = g.lsince := rfl
@[simp] theorem Group.adv_ssince : (g.adv len).ssince = g.ssince := rfl
@[simp] theorem Group.adv_lastL : (g.adv len).lastL = g.lastL := rfl
@[simp] theorem Group.adv_lastS : (g.adv len).lastS = g.lastS := rfl
@[simp] theorem Group.adv_laneBusy : (g.adv len).laneBusy = g.laneBusy := rfl
@[simp] theorem Group.adv_gtime : (g.adv len).gtime = g.gtime := rfl
@[simp] theorem Group.adv_timerTaken : (g.adv len).timerTaken = g.timerTaken := rfl
@[simp] theorem Group.adv_saved : (g.adv len).saved = g.saved := rfl
@[simp] theorem Group.adv_wgbars : (g.adv len).wgbars = g.wgbars := rfl
@[simp] theorem Group.adv_gbars : (g.adv len).gbars = g.gbars := rfl
@[simp] theorem Group.adv_arrived : (g.adv len).arrived = g.arrived := rfl
@[simp] theorem Group.adv_frames : (g.adv len).frames = g.frames := rfl
@[simp] theorem Group.adv_tags : (g.adv len).tags = g.tags := rfl
@[simp] theorem Group.adv_sPend : (g.adv len).sPend = g.sPend := rfl
@[simp] theorem Group.adv_wBusy : (g.adv len).wBusy = g.wBusy := rfl
@[simp] theorem Group.adv_redo : (g.adv len).redo = g.redo := rfl
@[simp] theorem Group.adv_sReady : (g.adv len).sReady = g.sReady := rfl
@[simp] theorem Group.adv_sNext : (g.adv len).sNext = g.sNext := rfl
@[simp] theorem Group.adv_priv : (g.adv len).priv = g.priv := rfl
@[simp] theorem Group.adv_privPz : (g.adv len).privPz = g.privPz := rfl
@[simp] theorem Group.adv_privBack : (g.adv len).privBack = g.privBack := rfl
@[simp] theorem Group.adv_spent : (g.adv len).spent = g.spent := rfl
@[simp] theorem Group.adv_pb : (g.adv len).pb = g.pb := rfl
@[simp] theorem Group.adv_stamp : (g.adv len).stamp = g.stamp := rfl
@[simp] theorem Group.adv_sWait : (g.adv len).sWait = g.sWait := rfl
end

@[simp] theorem Group.adv_spc (g : Group) (len : Nat) : (g.adv len).spc = g.spc + BitVec.ofNat 64 len := rfl

/-! ### `Group.sSet` -/

section
variable (g : Group) (n : Nat) (x : SReg)
@[simp] theorem Group.sSet_ctx : (g.sSet n x).ctx = g.ctx := by unfold Group.sSet; split <;> rfl
@[simp] theorem Group.sSet_wg : (g.sSet n x).wg = g.wg := by unfold Group.sSet; split <;> rfl
@[simp] theorem Group.sSet_gidx : (g.sSet n x).gidx = g.gidx := by unfold Group.sSet; split <;> rfl
@[simp] theorem Group.sSet_kern : (g.sSet n x).kern = g.kern := by unfold Group.sSet; split <;> rfl
@[simp] theorem Group.sSet_width : (g.sSet n x).width = g.width := by unfold Group.sSet; split <;> rfl
@[simp] theorem Group.sSet_c : (g.sSet n x).c = g.c := by unfold Group.sSet; split <;> rfl
@[simp] theorem Group.sSet_b : (g.sSet n x).b = g.b := by unfold Group.sSet; split <;> rfl
@[simp] theorem Group.sSet_w : (g.sSet n x).w = g.w := by unfold Group.sSet; split <;> rfl
@[simp] theorem Group.sSet_v : (g.sSet n x).v = g.v := by unfold Group.sSet; split <;> rfl
@[simp] theorem Group.sSet_m : (g.sSet n x).m = g.m := by unfold Group.sSet; split <;> rfl
@[simp] theorem Group.sSet_mode : (g.sSet n x).mode = g.mode := by unfold Group.sSet; split <;> rfl
@[simp] theorem Group.sSet_spc : (g.sSet n x).spc = g.spc := by unfold Group.sSet; split <;> rfl
@[simp] theorem Group.sSet_blocks : (g.sSet n x).blocks = g.blocks := by unfold Group.sSet; split <;> rfl
@[simp] theorem Group.sSet_slot0 : (g.sSet n x).slot0 = g.slot0 := by unfold Group.sSet; split <;> rfl
@[simp] theorem Group.sSet_slot1 : (g.sSet n x).slot1 = g.slot1 := by unfold Group.sSet; split <;> rfl
@[simp] theorem Group.sSet_spilled : (g.sSet n x).spilled = g.spilled := by unfold Group.sSet; split <;> rfl
@[simp] theorem Group.sSet_last : (g.sSet n x).last = g.last := by unfold Group.sSet; split <;> rfl
@[simp] theorem Group.sSet_hnd : (g.sSet n x).hnd = g.hnd := by unfold Group.sSet; split <;> rfl
@[simp] theorem Group.sSet_susp : (g.sSet n x).susp = g.susp := by unfold Group.sSet; split <;> rfl
@[simp] theorem Group.sSet_yielded : (g.sSet n x).yielded = g.yielded := by unfold Group.sSet; split <;> rfl
@[simp] theorem Group.sSet_pendTraps : (g.sSet n x).pendTraps = g.pendTraps := by unfold Group.sSet; split <;> rfl
@[simp] theorem Group.sSet_raised : (g.sSet n x).raised = g.raised := by unfold Group.sSet; split <;> rfl
@[simp] theorem Group.sSet_launching : (g.sSet n x).launching = g.launching := by unfold Group.sSet; split <;> rfl
@[simp] theorem Group.sSet_got : (g.sSet n x).got = g.got := by unfold Group.sSet; split <;> rfl
@[simp] theorem Group.sSet_lpass : (g.sSet n x).lpass = g.lpass := by unfold Group.sSet; split <;> rfl
@[simp] theorem Group.sSet_spass : (g.sSet n x).spass = g.spass := by unfold Group.sSet; split <;> rfl
@[simp] theorem Group.sSet_lesc : (g.sSet n x).lesc = g.lesc := by unfold Group.sSet; split <;> rfl
@[simp] theorem Group.sSet_sesc : (g.sSet n x).sesc = g.sesc := by unfold Group.sSet; split <;> rfl
@[simp] theorem Group.sSet_ldem : (g.sSet n x).ldem = g.ldem := by unfold Group.sSet; split <;> rfl
@[simp] theorem Group.sSet_sdem : (g.sSet n x).sdem = g.sdem := by unfold Group.sSet; split <;> rfl
@[simp] theorem Group.sSet_lsince : (g.sSet n x).lsince = g.lsince := by unfold Group.sSet; split <;> rfl
@[simp] theorem Group.sSet_ssince : (g.sSet n x).ssince = g.ssince := by unfold Group.sSet; split <;> rfl
@[simp] theorem Group.sSet_lastL : (g.sSet n x).lastL = g.lastL := by unfold Group.sSet; split <;> rfl
@[simp] theorem Group.sSet_lastS : (g.sSet n x).lastS = g.lastS := by unfold Group.sSet; split <;> rfl
@[simp] theorem Group.sSet_laneBusy : (g.sSet n x).laneBusy = g.laneBusy := by unfold Group.sSet; split <;> rfl
@[simp] theorem Group.sSet_gtime : (g.sSet n x).gtime = g.gtime := by unfold Group.sSet; split <;> rfl
@[simp] theorem Group.sSet_timerTaken : (g.sSet n x).timerTaken = g.timerTaken := by unfold Group.sSet; split <;> rfl
@[simp] theorem Group.sSet_saved : (g.sSet n x).saved = g.saved := by unfold Group.sSet; split <;> rfl
@[simp] theorem Group.sSet_wgbars : (g.sSet n x).wgbars = g.wgbars := by unfold Group.sSet; split <;> rfl
@[simp] theorem Group.sSet_gbars : (g.sSet n x).gbars = g.gbars := by unfold Group.sSet; split <;> rfl
@[simp] theorem Group.sSet_arrived : (g.sSet n x).arrived = g.arrived := by unfold Group.sSet; split <;> rfl
@[simp] theorem Group.sSet_frames : (g.sSet n x).frames = g.frames := by unfold Group.sSet; split <;> rfl
@[simp] theorem Group.sSet_tags : (g.sSet n x).tags = g.tags := by unfold Group.sSet; split <;> rfl
@[simp] theorem Group.sSet_sPend : (g.sSet n x).sPend = g.sPend := by unfold Group.sSet; split <;> rfl
@[simp] theorem Group.sSet_wBusy : (g.sSet n x).wBusy = g.wBusy := by unfold Group.sSet; split <;> rfl
@[simp] theorem Group.sSet_redo : (g.sSet n x).redo = g.redo := by unfold Group.sSet; split <;> rfl
@[simp] theorem Group.sSet_sReady : (g.sSet n x).sReady = g.sReady := by unfold Group.sSet; split <;> rfl
@[simp] theorem Group.sSet_sNext : (g.sSet n x).sNext = g.sNext := by unfold Group.sSet; split <;> rfl
@[simp] theorem Group.sSet_priv : (g.sSet n x).priv = g.priv := by unfold Group.sSet; split <;> rfl
@[simp] theorem Group.sSet_privPz : (g.sSet n x).privPz = g.privPz := by unfold Group.sSet; split <;> rfl
@[simp] theorem Group.sSet_privBack : (g.sSet n x).privBack = g.privBack := by unfold Group.sSet; split <;> rfl
@[simp] theorem Group.sSet_spent : (g.sSet n x).spent = g.spent := by unfold Group.sSet; split <;> rfl
@[simp] theorem Group.sSet_pb : (g.sSet n x).pb = g.pb := by unfold Group.sSet; split <;> rfl
@[simp] theorem Group.sSet_stamp : (g.sSet n x).stamp = g.stamp := by unfold Group.sSet; split <;> rfl
@[simp] theorem Group.sSet_sWait : (g.sSet n x).sWait = g.sWait := by unfold Group.sSet; split <;> rfl
end

/-! ### `Group.cSet` -/

section
variable (g : Group) (n : Nat) (b : Bool)
@[simp] theorem Group.cSet_ctx : (g.cSet n b).ctx = g.ctx := rfl
@[simp] theorem Group.cSet_wg : (g.cSet n b).wg = g.wg := rfl
@[simp] theorem Group.cSet_gidx : (g.cSet n b).gidx = g.gidx := rfl
@[simp] theorem Group.cSet_kern : (g.cSet n b).kern = g.kern := rfl
@[simp] theorem Group.cSet_width : (g.cSet n b).width = g.width := rfl
@[simp] theorem Group.cSet_s : (g.cSet n b).s = g.s := rfl
@[simp] theorem Group.cSet_b : (g.cSet n b).b = g.b := rfl
@[simp] theorem Group.cSet_w : (g.cSet n b).w = g.w := rfl
@[simp] theorem Group.cSet_v : (g.cSet n b).v = g.v := rfl
@[simp] theorem Group.cSet_m : (g.cSet n b).m = g.m := rfl
@[simp] theorem Group.cSet_mode : (g.cSet n b).mode = g.mode := rfl
@[simp] theorem Group.cSet_spc : (g.cSet n b).spc = g.spc := rfl
@[simp] theorem Group.cSet_blocks : (g.cSet n b).blocks = g.blocks := rfl
@[simp] theorem Group.cSet_slot0 : (g.cSet n b).slot0 = g.slot0 := rfl
@[simp] theorem Group.cSet_slot1 : (g.cSet n b).slot1 = g.slot1 := rfl
@[simp] theorem Group.cSet_spilled : (g.cSet n b).spilled = g.spilled := rfl
@[simp] theorem Group.cSet_last : (g.cSet n b).last = g.last := rfl
@[simp] theorem Group.cSet_hnd : (g.cSet n b).hnd = g.hnd := rfl
@[simp] theorem Group.cSet_susp : (g.cSet n b).susp = g.susp := rfl
@[simp] theorem Group.cSet_yielded : (g.cSet n b).yielded = g.yielded := rfl
@[simp] theorem Group.cSet_pendTraps : (g.cSet n b).pendTraps = g.pendTraps := rfl
@[simp] theorem Group.cSet_raised : (g.cSet n b).raised = g.raised := rfl
@[simp] theorem Group.cSet_launching : (g.cSet n b).launching = g.launching := rfl
@[simp] theorem Group.cSet_got : (g.cSet n b).got = g.got := rfl
@[simp] theorem Group.cSet_lpass : (g.cSet n b).lpass = g.lpass := rfl
@[simp] theorem Group.cSet_spass : (g.cSet n b).spass = g.spass := rfl
@[simp] theorem Group.cSet_lesc : (g.cSet n b).lesc = g.lesc := rfl
@[simp] theorem Group.cSet_sesc : (g.cSet n b).sesc = g.sesc := rfl
@[simp] theorem Group.cSet_ldem : (g.cSet n b).ldem = g.ldem := rfl
@[simp] theorem Group.cSet_sdem : (g.cSet n b).sdem = g.sdem := rfl
@[simp] theorem Group.cSet_lsince : (g.cSet n b).lsince = g.lsince := rfl
@[simp] theorem Group.cSet_ssince : (g.cSet n b).ssince = g.ssince := rfl
@[simp] theorem Group.cSet_lastL : (g.cSet n b).lastL = g.lastL := rfl
@[simp] theorem Group.cSet_lastS : (g.cSet n b).lastS = g.lastS := rfl
@[simp] theorem Group.cSet_laneBusy : (g.cSet n b).laneBusy = g.laneBusy := rfl
@[simp] theorem Group.cSet_gtime : (g.cSet n b).gtime = g.gtime := rfl
@[simp] theorem Group.cSet_timerTaken : (g.cSet n b).timerTaken = g.timerTaken := rfl
@[simp] theorem Group.cSet_saved : (g.cSet n b).saved = g.saved := rfl
@[simp] theorem Group.cSet_wgbars : (g.cSet n b).wgbars = g.wgbars := rfl
@[simp] theorem Group.cSet_gbars : (g.cSet n b).gbars = g.gbars := rfl
@[simp] theorem Group.cSet_arrived : (g.cSet n b).arrived = g.arrived := rfl
@[simp] theorem Group.cSet_frames : (g.cSet n b).frames = g.frames := rfl
@[simp] theorem Group.cSet_tags : (g.cSet n b).tags = g.tags := rfl
@[simp] theorem Group.cSet_sPend : (g.cSet n b).sPend = g.sPend := rfl
@[simp] theorem Group.cSet_wBusy : (g.cSet n b).wBusy = g.wBusy := rfl
@[simp] theorem Group.cSet_redo : (g.cSet n b).redo = g.redo := rfl
@[simp] theorem Group.cSet_sReady : (g.cSet n b).sReady = g.sReady := rfl
@[simp] theorem Group.cSet_sNext : (g.cSet n b).sNext = g.sNext := rfl
@[simp] theorem Group.cSet_priv : (g.cSet n b).priv = g.priv := rfl
@[simp] theorem Group.cSet_privPz : (g.cSet n b).privPz = g.privPz := rfl
@[simp] theorem Group.cSet_privBack : (g.cSet n b).privBack = g.privBack := rfl
@[simp] theorem Group.cSet_spent : (g.cSet n b).spent = g.spent := rfl
@[simp] theorem Group.cSet_pb : (g.cSet n b).pb = g.pb := rfl
@[simp] theorem Group.cSet_stamp : (g.cSet n b).stamp = g.stamp := rfl
@[simp] theorem Group.cSet_sWait : (g.cSet n b).sWait = g.sWait := rfl
end

/-! ### `Group.vSet` -/

section
variable (g : Group) (t r : Nat) (x : LReg)
@[simp] theorem Group.vSet_ctx : (g.vSet t r x).ctx = g.ctx := rfl
@[simp] theorem Group.vSet_wg : (g.vSet t r x).wg = g.wg := rfl
@[simp] theorem Group.vSet_gidx : (g.vSet t r x).gidx = g.gidx := rfl
@[simp] theorem Group.vSet_kern : (g.vSet t r x).kern = g.kern := rfl
@[simp] theorem Group.vSet_width : (g.vSet t r x).width = g.width := rfl
@[simp] theorem Group.vSet_s : (g.vSet t r x).s = g.s := rfl
@[simp] theorem Group.vSet_c : (g.vSet t r x).c = g.c := rfl
@[simp] theorem Group.vSet_b : (g.vSet t r x).b = g.b := rfl
@[simp] theorem Group.vSet_w : (g.vSet t r x).w = g.w := rfl
@[simp] theorem Group.vSet_m : (g.vSet t r x).m = g.m := rfl
@[simp] theorem Group.vSet_mode : (g.vSet t r x).mode = g.mode := rfl
@[simp] theorem Group.vSet_spc : (g.vSet t r x).spc = g.spc := rfl
@[simp] theorem Group.vSet_blocks : (g.vSet t r x).blocks = g.blocks := rfl
@[simp] theorem Group.vSet_slot0 : (g.vSet t r x).slot0 = g.slot0 := rfl
@[simp] theorem Group.vSet_slot1 : (g.vSet t r x).slot1 = g.slot1 := rfl
@[simp] theorem Group.vSet_spilled : (g.vSet t r x).spilled = g.spilled := rfl
@[simp] theorem Group.vSet_last : (g.vSet t r x).last = g.last := rfl
@[simp] theorem Group.vSet_hnd : (g.vSet t r x).hnd = g.hnd := rfl
@[simp] theorem Group.vSet_susp : (g.vSet t r x).susp = g.susp := rfl
@[simp] theorem Group.vSet_yielded : (g.vSet t r x).yielded = g.yielded := rfl
@[simp] theorem Group.vSet_pendTraps : (g.vSet t r x).pendTraps = g.pendTraps := rfl
@[simp] theorem Group.vSet_raised : (g.vSet t r x).raised = g.raised := rfl
@[simp] theorem Group.vSet_launching : (g.vSet t r x).launching = g.launching := rfl
@[simp] theorem Group.vSet_got : (g.vSet t r x).got = g.got := rfl
@[simp] theorem Group.vSet_lpass : (g.vSet t r x).lpass = g.lpass := rfl
@[simp] theorem Group.vSet_spass : (g.vSet t r x).spass = g.spass := rfl
@[simp] theorem Group.vSet_lesc : (g.vSet t r x).lesc = g.lesc := rfl
@[simp] theorem Group.vSet_sesc : (g.vSet t r x).sesc = g.sesc := rfl
@[simp] theorem Group.vSet_ldem : (g.vSet t r x).ldem = g.ldem := rfl
@[simp] theorem Group.vSet_sdem : (g.vSet t r x).sdem = g.sdem := rfl
@[simp] theorem Group.vSet_lsince : (g.vSet t r x).lsince = g.lsince := rfl
@[simp] theorem Group.vSet_ssince : (g.vSet t r x).ssince = g.ssince := rfl
@[simp] theorem Group.vSet_lastL : (g.vSet t r x).lastL = g.lastL := rfl
@[simp] theorem Group.vSet_lastS : (g.vSet t r x).lastS = g.lastS := rfl
@[simp] theorem Group.vSet_laneBusy : (g.vSet t r x).laneBusy = g.laneBusy := rfl
@[simp] theorem Group.vSet_gtime : (g.vSet t r x).gtime = g.gtime := rfl
@[simp] theorem Group.vSet_timerTaken : (g.vSet t r x).timerTaken = g.timerTaken := rfl
@[simp] theorem Group.vSet_saved : (g.vSet t r x).saved = g.saved := rfl
@[simp] theorem Group.vSet_wgbars : (g.vSet t r x).wgbars = g.wgbars := rfl
@[simp] theorem Group.vSet_gbars : (g.vSet t r x).gbars = g.gbars := rfl
@[simp] theorem Group.vSet_arrived : (g.vSet t r x).arrived = g.arrived := rfl
@[simp] theorem Group.vSet_frames : (g.vSet t r x).frames = g.frames := rfl
@[simp] theorem Group.vSet_tags : (g.vSet t r x).tags = g.tags := rfl
@[simp] theorem Group.vSet_sPend : (g.vSet t r x).sPend = g.sPend := rfl
@[simp] theorem Group.vSet_wBusy : (g.vSet t r x).wBusy = g.wBusy := rfl
@[simp] theorem Group.vSet_redo : (g.vSet t r x).redo = g.redo := rfl
@[simp] theorem Group.vSet_sReady : (g.vSet t r x).sReady = g.sReady := rfl
@[simp] theorem Group.vSet_sNext : (g.vSet t r x).sNext = g.sNext := rfl
@[simp] theorem Group.vSet_priv : (g.vSet t r x).priv = g.priv := rfl
@[simp] theorem Group.vSet_privPz : (g.vSet t r x).privPz = g.privPz := rfl
@[simp] theorem Group.vSet_privBack : (g.vSet t r x).privBack = g.privBack := rfl
@[simp] theorem Group.vSet_spent : (g.vSet t r x).spent = g.spent := rfl
@[simp] theorem Group.vSet_pb : (g.vSet t r x).pb = g.pb := rfl
@[simp] theorem Group.vSet_stamp : (g.vSet t r x).stamp = g.stamp := rfl
@[simp] theorem Group.vSet_sWait : (g.vSet t r x).sWait = g.sWait := rfl
end

/-! ### `Group.mSet` -/

section
variable (g : Group) (n : Nat) (x : Mask)
@[simp] theorem Group.mSet_ctx : (g.mSet n x).ctx = g.ctx := by unfold Group.mSet; split <;> rfl
@[simp] theorem Group.mSet_wg : (g.mSet n x).wg = g.wg := by unfold Group.mSet; split <;> rfl
@[simp] theorem Group.mSet_gidx : (g.mSet n x).gidx = g.gidx := by unfold Group.mSet; split <;> rfl
@[simp] theorem Group.mSet_kern : (g.mSet n x).kern = g.kern := by unfold Group.mSet; split <;> rfl
@[simp] theorem Group.mSet_width : (g.mSet n x).width = g.width := by unfold Group.mSet; split <;> rfl
@[simp] theorem Group.mSet_s : (g.mSet n x).s = g.s := by unfold Group.mSet; split <;> rfl
@[simp] theorem Group.mSet_c : (g.mSet n x).c = g.c := by unfold Group.mSet; split <;> rfl
@[simp] theorem Group.mSet_b : (g.mSet n x).b = g.b := by unfold Group.mSet; split <;> rfl
@[simp] theorem Group.mSet_w : (g.mSet n x).w = g.w := by unfold Group.mSet; split <;> rfl
@[simp] theorem Group.mSet_v : (g.mSet n x).v = g.v := by unfold Group.mSet; split <;> rfl
@[simp] theorem Group.mSet_mode : (g.mSet n x).mode = g.mode := by unfold Group.mSet; split <;> rfl
@[simp] theorem Group.mSet_spc : (g.mSet n x).spc = g.spc := by unfold Group.mSet; split <;> rfl
@[simp] theorem Group.mSet_blocks : (g.mSet n x).blocks = g.blocks := by unfold Group.mSet; split <;> rfl
@[simp] theorem Group.mSet_slot0 : (g.mSet n x).slot0 = g.slot0 := by unfold Group.mSet; split <;> rfl
@[simp] theorem Group.mSet_slot1 : (g.mSet n x).slot1 = g.slot1 := by unfold Group.mSet; split <;> rfl
@[simp] theorem Group.mSet_spilled : (g.mSet n x).spilled = g.spilled := by unfold Group.mSet; split <;> rfl
@[simp] theorem Group.mSet_last : (g.mSet n x).last = g.last := by unfold Group.mSet; split <;> rfl
@[simp] theorem Group.mSet_hnd : (g.mSet n x).hnd = g.hnd := by unfold Group.mSet; split <;> rfl
@[simp] theorem Group.mSet_susp : (g.mSet n x).susp = g.susp := by unfold Group.mSet; split <;> rfl
@[simp] theorem Group.mSet_yielded : (g.mSet n x).yielded = g.yielded := by unfold Group.mSet; split <;> rfl
@[simp] theorem Group.mSet_pendTraps : (g.mSet n x).pendTraps = g.pendTraps := by unfold Group.mSet; split <;> rfl
@[simp] theorem Group.mSet_raised : (g.mSet n x).raised = g.raised := by unfold Group.mSet; split <;> rfl
@[simp] theorem Group.mSet_launching : (g.mSet n x).launching = g.launching := by unfold Group.mSet; split <;> rfl
@[simp] theorem Group.mSet_got : (g.mSet n x).got = g.got := by unfold Group.mSet; split <;> rfl
@[simp] theorem Group.mSet_lpass : (g.mSet n x).lpass = g.lpass := by unfold Group.mSet; split <;> rfl
@[simp] theorem Group.mSet_spass : (g.mSet n x).spass = g.spass := by unfold Group.mSet; split <;> rfl
@[simp] theorem Group.mSet_lesc : (g.mSet n x).lesc = g.lesc := by unfold Group.mSet; split <;> rfl
@[simp] theorem Group.mSet_sesc : (g.mSet n x).sesc = g.sesc := by unfold Group.mSet; split <;> rfl
@[simp] theorem Group.mSet_ldem : (g.mSet n x).ldem = g.ldem := by unfold Group.mSet; split <;> rfl
@[simp] theorem Group.mSet_sdem : (g.mSet n x).sdem = g.sdem := by unfold Group.mSet; split <;> rfl
@[simp] theorem Group.mSet_lsince : (g.mSet n x).lsince = g.lsince := by unfold Group.mSet; split <;> rfl
@[simp] theorem Group.mSet_ssince : (g.mSet n x).ssince = g.ssince := by unfold Group.mSet; split <;> rfl
@[simp] theorem Group.mSet_lastL : (g.mSet n x).lastL = g.lastL := by unfold Group.mSet; split <;> rfl
@[simp] theorem Group.mSet_lastS : (g.mSet n x).lastS = g.lastS := by unfold Group.mSet; split <;> rfl
@[simp] theorem Group.mSet_laneBusy : (g.mSet n x).laneBusy = g.laneBusy := by unfold Group.mSet; split <;> rfl
@[simp] theorem Group.mSet_gtime : (g.mSet n x).gtime = g.gtime := by unfold Group.mSet; split <;> rfl
@[simp] theorem Group.mSet_timerTaken : (g.mSet n x).timerTaken = g.timerTaken := by unfold Group.mSet; split <;> rfl
@[simp] theorem Group.mSet_saved : (g.mSet n x).saved = g.saved := by unfold Group.mSet; split <;> rfl
@[simp] theorem Group.mSet_wgbars : (g.mSet n x).wgbars = g.wgbars := by unfold Group.mSet; split <;> rfl
@[simp] theorem Group.mSet_gbars : (g.mSet n x).gbars = g.gbars := by unfold Group.mSet; split <;> rfl
@[simp] theorem Group.mSet_arrived : (g.mSet n x).arrived = g.arrived := by unfold Group.mSet; split <;> rfl
@[simp] theorem Group.mSet_frames : (g.mSet n x).frames = g.frames := by unfold Group.mSet; split <;> rfl
@[simp] theorem Group.mSet_tags : (g.mSet n x).tags = g.tags := by unfold Group.mSet; split <;> rfl
@[simp] theorem Group.mSet_sPend : (g.mSet n x).sPend = g.sPend := by unfold Group.mSet; split <;> rfl
@[simp] theorem Group.mSet_wBusy : (g.mSet n x).wBusy = g.wBusy := by unfold Group.mSet; split <;> rfl
@[simp] theorem Group.mSet_redo : (g.mSet n x).redo = g.redo := by unfold Group.mSet; split <;> rfl
@[simp] theorem Group.mSet_sReady : (g.mSet n x).sReady = g.sReady := by unfold Group.mSet; split <;> rfl
@[simp] theorem Group.mSet_sNext : (g.mSet n x).sNext = g.sNext := by unfold Group.mSet; split <;> rfl
@[simp] theorem Group.mSet_priv : (g.mSet n x).priv = g.priv := by unfold Group.mSet; split <;> rfl
@[simp] theorem Group.mSet_privPz : (g.mSet n x).privPz = g.privPz := by unfold Group.mSet; split <;> rfl
@[simp] theorem Group.mSet_privBack : (g.mSet n x).privBack = g.privBack := by unfold Group.mSet; split <;> rfl
@[simp] theorem Group.mSet_spent : (g.mSet n x).spent = g.spent := by unfold Group.mSet; split <;> rfl
@[simp] theorem Group.mSet_pb : (g.mSet n x).pb = g.pb := by unfold Group.mSet; split <;> rfl
@[simp] theorem Group.mSet_stamp : (g.mSet n x).stamp = g.stamp := by unfold Group.mSet; split <;> rfl
@[simp] theorem Group.mSet_sWait : (g.mSet n x).sWait = g.sWait := by unfold Group.mSet; split <;> rfl
end

/-! ### `Group.setSplit` -/

section
variable (g : Group) (slot : Nat) (x : Option Split)
@[simp] theorem Group.setSplit_ctx : (g.setSplit slot x).ctx = g.ctx := by unfold Group.setSplit; split <;> rfl
@[simp] theorem Group.setSplit_wg : (g.setSplit slot x).wg = g.wg := by unfold Group.setSplit; split <;> rfl
@[simp] theorem Group.setSplit_gidx : (g.setSplit slot x).gidx = g.gidx := by unfold Group.setSplit; split <;> rfl
@[simp] theorem Group.setSplit_kern : (g.setSplit slot x).kern = g.kern := by unfold Group.setSplit; split <;> rfl
@[simp] theorem Group.setSplit_width : (g.setSplit slot x).width = g.width := by unfold Group.setSplit; split <;> rfl
@[simp] theorem Group.setSplit_s : (g.setSplit slot x).s = g.s := by unfold Group.setSplit; split <;> rfl
@[simp] theorem Group.setSplit_c : (g.setSplit slot x).c = g.c := by unfold Group.setSplit; split <;> rfl
@[simp] theorem Group.setSplit_b : (g.setSplit slot x).b = g.b := by unfold Group.setSplit; split <;> rfl
@[simp] theorem Group.setSplit_w : (g.setSplit slot x).w = g.w := by unfold Group.setSplit; split <;> rfl
@[simp] theorem Group.setSplit_v : (g.setSplit slot x).v = g.v := by unfold Group.setSplit; split <;> rfl
@[simp] theorem Group.setSplit_m : (g.setSplit slot x).m = g.m := by unfold Group.setSplit; split <;> rfl
@[simp] theorem Group.setSplit_mode : (g.setSplit slot x).mode = g.mode := by unfold Group.setSplit; split <;> rfl
@[simp] theorem Group.setSplit_spc : (g.setSplit slot x).spc = g.spc := by unfold Group.setSplit; split <;> rfl
@[simp] theorem Group.setSplit_blocks : (g.setSplit slot x).blocks = g.blocks := by unfold Group.setSplit; split <;> rfl
@[simp] theorem Group.setSplit_spilled : (g.setSplit slot x).spilled = g.spilled := by unfold Group.setSplit; split <;> rfl
@[simp] theorem Group.setSplit_last : (g.setSplit slot x).last = g.last := by unfold Group.setSplit; split <;> rfl
@[simp] theorem Group.setSplit_hnd : (g.setSplit slot x).hnd = g.hnd := by unfold Group.setSplit; split <;> rfl
@[simp] theorem Group.setSplit_susp : (g.setSplit slot x).susp = g.susp := by unfold Group.setSplit; split <;> rfl
@[simp] theorem Group.setSplit_yielded : (g.setSplit slot x).yielded = g.yielded := by unfold Group.setSplit; split <;> rfl
@[simp] theorem Group.setSplit_pendTraps : (g.setSplit slot x).pendTraps = g.pendTraps := by unfold Group.setSplit; split <;> rfl
@[simp] theorem Group.setSplit_raised : (g.setSplit slot x).raised = g.raised := by unfold Group.setSplit; split <;> rfl
@[simp] theorem Group.setSplit_launching : (g.setSplit slot x).launching = g.launching := by unfold Group.setSplit; split <;> rfl
@[simp] theorem Group.setSplit_got : (g.setSplit slot x).got = g.got := by unfold Group.setSplit; split <;> rfl
@[simp] theorem Group.setSplit_lpass : (g.setSplit slot x).lpass = g.lpass := by unfold Group.setSplit; split <;> rfl
@[simp] theorem Group.setSplit_spass : (g.setSplit slot x).spass = g.spass := by unfold Group.setSplit; split <;> rfl
@[simp] theorem Group.setSplit_lesc : (g.setSplit slot x).lesc = g.lesc := by unfold Group.setSplit; split <;> rfl
@[simp] theorem Group.setSplit_sesc : (g.setSplit slot x).sesc = g.sesc := by unfold Group.setSplit; split <;> rfl
@[simp] theorem Group.setSplit_ldem : (g.setSplit slot x).ldem = g.ldem := by unfold Group.setSplit; split <;> rfl
@[simp] theorem Group.setSplit_sdem : (g.setSplit slot x).sdem = g.sdem := by unfold Group.setSplit; split <;> rfl
@[simp] theorem Group.setSplit_lsince : (g.setSplit slot x).lsince = g.lsince := by unfold Group.setSplit; split <;> rfl
@[simp] theorem Group.setSplit_ssince : (g.setSplit slot x).ssince = g.ssince := by unfold Group.setSplit; split <;> rfl
@[simp] theorem Group.setSplit_lastL : (g.setSplit slot x).lastL = g.lastL := by unfold Group.setSplit; split <;> rfl
@[simp] theorem Group.setSplit_lastS : (g.setSplit slot x).lastS = g.lastS := by unfold Group.setSplit; split <;> rfl
@[simp] theorem Group.setSplit_laneBusy : (g.setSplit slot x).laneBusy = g.laneBusy := by unfold Group.setSplit; split <;> rfl
@[simp] theorem Group.setSplit_gtime : (g.setSplit slot x).gtime = g.gtime := by unfold Group.setSplit; split <;> rfl
@[simp] theorem Group.setSplit_timerTaken : (g.setSplit slot x).timerTaken = g.timerTaken := by unfold Group.setSplit; split <;> rfl
@[simp] theorem Group.setSplit_saved : (g.setSplit slot x).saved = g.saved := by unfold Group.setSplit; split <;> rfl
@[simp] theorem Group.setSplit_wgbars : (g.setSplit slot x).wgbars = g.wgbars := by unfold Group.setSplit; split <;> rfl
@[simp] theorem Group.setSplit_gbars : (g.setSplit slot x).gbars = g.gbars := by unfold Group.setSplit; split <;> rfl
@[simp] theorem Group.setSplit_arrived : (g.setSplit slot x).arrived = g.arrived := by unfold Group.setSplit; split <;> rfl
@[simp] theorem Group.setSplit_frames : (g.setSplit slot x).frames = g.frames := by unfold Group.setSplit; split <;> rfl
@[simp] theorem Group.setSplit_tags : (g.setSplit slot x).tags = g.tags := by unfold Group.setSplit; split <;> rfl
@[simp] theorem Group.setSplit_sPend : (g.setSplit slot x).sPend = g.sPend := by unfold Group.setSplit; split <;> rfl
@[simp] theorem Group.setSplit_wBusy : (g.setSplit slot x).wBusy = g.wBusy := by unfold Group.setSplit; split <;> rfl
@[simp] theorem Group.setSplit_redo : (g.setSplit slot x).redo = g.redo := by unfold Group.setSplit; split <;> rfl
@[simp] theorem Group.setSplit_sReady : (g.setSplit slot x).sReady = g.sReady := by unfold Group.setSplit; split <;> rfl
@[simp] theorem Group.setSplit_sNext : (g.setSplit slot x).sNext = g.sNext := by unfold Group.setSplit; split <;> rfl
@[simp] theorem Group.setSplit_priv : (g.setSplit slot x).priv = g.priv := by unfold Group.setSplit; split <;> rfl
@[simp] theorem Group.setSplit_privPz : (g.setSplit slot x).privPz = g.privPz := by unfold Group.setSplit; split <;> rfl
@[simp] theorem Group.setSplit_privBack : (g.setSplit slot x).privBack = g.privBack := by unfold Group.setSplit; split <;> rfl
@[simp] theorem Group.setSplit_spent : (g.setSplit slot x).spent = g.spent := by unfold Group.setSplit; split <;> rfl
@[simp] theorem Group.setSplit_pb : (g.setSplit slot x).pb = g.pb := by unfold Group.setSplit; split <;> rfl
@[simp] theorem Group.setSplit_stamp : (g.setSplit slot x).stamp = g.stamp := by unfold Group.setSplit; split <;> rfl
@[simp] theorem Group.setSplit_sWait : (g.setSplit slot x).sWait = g.sWait := by unfold Group.setSplit; split <;> rfl
end

end Sys2Proof.Machine
end

