-- ==== Sys2Proof/Laws/Tab.lean ====
section
/-! SUPPORT. What reading a table or memory after a write gives, and that memory operations keep the canonical form. -/

namespace Sys2Proof.Machine

/-! ### Tables -/

theorem tabGet_tabSet {α : Type} (t : Tab α) (n m : Nat) (x : α) :
    tabGet (tabSet t n x) m = if n = m then some x else tabGet t m := by
  induction t with
  | nil => by_cases h : n = m <;> simp [tabSet, tabGet, h]
  | cons p r ih =>
    obtain ⟨k, v⟩ := p
    unfold tabSet
    split
    · by_cases h : n = m <;> simp [tabGet, h]
    · split
      · by_cases h : n = m <;> simp_all [tabGet]
      · rename_i h1 h2
        simp only [tabGet, ih]
        by_cases h : k = m
        · subst h; simp [h2]
        · simp [h]

@[simp] theorem tabGet_tabSet_same {α : Type} (t : Tab α) (n : Nat) (x : α) : tabGet (tabSet t n x) n = some x := by
  simp [tabGet_tabSet]

theorem tabGet_tabSet_other {α : Type} (t : Tab α) (n m : Nat) (x : α) (h : n ≠ m) :
    tabGet (tabSet t n x) m = tabGet t m := by
  simp [tabGet_tabSet, h]

theorem tabD_tabSet {α : Type} (t : Tab α) (n m : Nat) (x d : α) :
    tabD (tabSet t n x) m d = if n = m then x else tabD t m d := by
  unfold tabD; rw [tabGet_tabSet]; split <;> rfl

@[simp] theorem tabD_tabSet_same {α : Type} (t : Tab α) (n : Nat) (x d : α) : tabD (tabSet t n x) n d = x := by
  simp [tabD]

theorem tabGet_tabDel {α : Type} (t : Tab α) (n m : Nat) : tabGet (tabDel t n) m = if n = m then none else tabGet t m := by
  induction t with
  | nil => simp [tabDel, tabGet]
  | cons p r ih =>
    obtain ⟨k, v⟩ := p
    unfold tabDel at ih ⊢
    by_cases hk : k = n
    · subst hk
      simp only [List.filter, bne_self_eq_false, ih, tabGet]
      split <;> rfl
    · have : (k != n) = true := by simpa using hk
      simp only [List.filter, this, tabGet, ih]
      by_cases h : k = m
      · subst h; simp [Ne.symm hk]
      · simp [h]

theorem tabGet_tabMod {α : Type} (t : Tab α) (n m : Nat) (f : α → α) :
    tabGet (tabMod t n f) m = if n = m then (tabGet t m).map f else tabGet t m := by
  unfold tabMod
  split
  · rename_i x hx
    rw [tabGet_tabSet]
    split
    · rename_i h; subst h; simp [hx]
    · rfl
  · rename_i hx
    split
    · rename_i h; subst h; simp [hx]
    · rfl

theorem tabMod_some {α : Type} (t : Tab α) (n : Nat) (f : α → α) (x : α) (h : tabGet t n = some x) :
    tabMod t n f = tabSet t n (f x) := by
  unfold tabMod; rw [h]

theorem tabSet_tabSet {α : Type} (t : Tab α) (n : Nat) (x y : α) : tabSet (tabSet t n x) n y = tabSet t n y := by
  induction t with
  | nil => simp [tabSet]
  | cons p r ih =>
    obtain ⟨k, v⟩ := p
    by_cases h1 : n < k
    · simp [tabSet, h1]
    · by_cases h2 : n = k
      · subst h2; simp [tabSet]
      · simp [tabSet, h1, h2, ih]

/-! ### Memory -/

/-- The cells lie above an address, and rise. -/
def Memory.above (a : Nat) : List Host.Cell → Prop
  | [] => True
  | (k, v) :: r => a < k ∧ v ≠ 0 ∧ Memory.above k r

theorem Memory.wf_cons (k : Nat) (v : Byte) (r : List Host.Cell) :
    Memory.wf ((k, v) :: r) = true ↔ v ≠ 0 ∧ Memory.above k r := by
  induction r generalizing k v with
  | nil => simp [Memory.wf, Memory.above]
  | cons p r ih =>
    obtain ⟨k', v'⟩ := p
    simp only [Memory.wf, Bool.and_eq_true, bne_iff_ne, decide_eq_true_eq, ih, Memory.above, ne_eq]
    tauto

theorem Memory.above_wf {a : Nat} {m : List Host.Cell} (h : Memory.above a m) : Memory.wf m = true := by
  cases m with
  | nil => rfl
  | cons p r => exact (Memory.wf_cons _ _ _).2 h.2

theorem Memory.above_mono {a b : Nat} {m : List Host.Cell} (hab : b ≤ a) (h : Memory.above a m) : Memory.above b m := by
  cases m with
  | nil => trivial
  | cons p r => exact ⟨Nat.lt_of_le_of_lt hab h.1, h.2⟩

theorem Memory.above_tail {a k : Nat} {v : Byte} {r : List Host.Cell} (h : Memory.above a ((k, v) :: r)) :
    Memory.above a r := Memory.above_mono (Nat.le_of_lt h.1) h.2.2

theorem memSet_above {a n : Nat} {b : Byte} {m : List Host.Cell} (ha : a < n) (h : Memory.above a m) :
    Memory.above a (memSet m n b) := by
  induction m generalizing a with
  | nil => unfold memSet; split <;> simp_all [Memory.above]
  | cons p r ih =>
    obtain ⟨k, v⟩ := p
    unfold memSet
    split
    · rename_i hk
      split
      · exact h
      · exact ⟨ha, by assumption, hk, h.2⟩
    · split
      · rename_i _ hn
        subst hn
        split
        · exact Memory.above_tail h
        · exact ⟨ha, by assumption, h.2.2⟩
      · exact ⟨h.1, h.2.1, ih (by omega) h.2.2⟩

theorem memSet_wf {m : List Host.Cell} (h : Memory.wf m = true) (n : Nat) (b : Byte) : Memory.wf (memSet m n b) = true := by
  cases m with
  | nil => unfold memSet; split <;> simp_all [Memory.wf]
  | cons p r =>
    obtain ⟨k, v⟩ := p
    have hc := (Memory.wf_cons k v r).1 h
    unfold memSet
    split
    · rename_i hk
      split
      · exact h
      · exact (Memory.wf_cons _ _ _).2 ⟨by assumption, hk, hc⟩
    · split
      · rename_i _ hn
        subst hn
        split
        · exact Memory.above_wf hc.2
        · exact (Memory.wf_cons _ _ _).2 ⟨by assumption, hc.2⟩
      · exact (Memory.wf_cons _ _ _).2 ⟨hc.1, memSet_above (by omega) hc.2⟩

theorem memSetBytes_wf {m : List Host.Cell} (h : Memory.wf m = true) (a : Nat) (bs : List Byte) :
    Memory.wf (memSetBytes m a bs) = true := by
  induction bs generalizing m a with
  | nil => exact h
  | cons b bs ih => exact ih (memSet_wf h a b) (a + 1)

theorem filter_above {a : Nat} {m : List Host.Cell} (f : Host.Cell → Bool) (h : Memory.above a m) :
    Memory.above a (m.filter f) := by
  induction m generalizing a with
  | nil => trivial
  | cons p r ih =>
    obtain ⟨k, v⟩ := p
    by_cases hf : f (k, v) = true
    · rw [List.filter_cons_of_pos hf]; exact ⟨h.1, h.2.1, ih h.2.2⟩
    · rw [List.filter_cons_of_neg hf]; exact ih (Memory.above_tail h)

theorem filter_wf {m : List Host.Cell} (f : Host.Cell → Bool) (h : Memory.wf m = true) : Memory.wf (m.filter f) = true := by
  cases m with
  | nil => rfl
  | cons p r =>
    obtain ⟨k, v⟩ := p
    have hc := (Memory.wf_cons k v r).1 h
    by_cases hf : f (k, v) = true
    · rw [List.filter_cons_of_pos hf]; exact (Memory.wf_cons _ _ _).2 ⟨hc.1, filter_above f hc.2⟩
    · rw [List.filter_cons_of_neg hf]; exact Memory.above_wf (filter_above f hc.2)

theorem memGet_above {a n : Nat} {m : List Host.Cell} (h : Memory.above a m) (hn : n ≤ a) : memGet m n = 0 := by
  induction m generalizing a with
  | nil => rfl
  | cons p r ih =>
    obtain ⟨k, v⟩ := p
    have : ¬ k = n := by have := h.1; omega
    simp only [memGet, this, if_false]
    exact ih h.2.2 (by have := h.1; omega)

theorem memGet_memSet {m : List Host.Cell} (h : Memory.wf m = true) (n k : Nat) (b : Byte) :
    memGet (memSet m n b) k = if n = k then b else memGet m k := by
  induction m with
  | nil =>
    unfold memSet
    split <;> by_cases hk : n = k <;> simp_all [memGet]
  | cons p r ih =>
    obtain ⟨k', v⟩ := p
    have hc := (Memory.wf_cons k' v r).1 h
    have ih := ih (Memory.above_wf hc.2)
    unfold memSet
    split
    · rename_i hlt
      split
      · rename_i hb
        subst hb
        by_cases hk : n = k
        · subst hk
          have : ¬ k' = n := by omega
          simp [memGet, this, memGet_above hc.2 (Nat.le_of_lt hlt)]
        · simp [hk]
      · by_cases hk : n = k <;> simp [memGet, hk]
    · split
      · rename_i _ hn
        subst hn
        split
        · rename_i hb
          subst hb
          by_cases hk : n = k
          · subst hk; simp [memGet_above hc.2 (Nat.le_refl _)]
          · simp [memGet, hk]
        · by_cases hk : n = k <;> simp [memGet, hk]
      · rename_i h1 h2
        simp only [memGet, ih]
        by_cases hk : k' = k
        · subst hk; simp [h2]
        · simp [hk]

theorem memGet_memSetBytes_outside {m : List Host.Cell} (h : Memory.wf m = true) (a k : Nat) (bs : List Byte)
    (hk : k < a ∨ a + bs.length ≤ k) : memGet (memSetBytes m a bs) k = memGet m k := by
  induction bs generalizing m a with
  | nil => rfl
  | cons b bs ih =>
    simp only [List.length_cons] at hk
    rw [memSetBytes, ih (memSet_wf h a b) (a + 1) (by omega), memGet_memSet h]
    have : ¬ a = k := by omega
    simp [this]

theorem memGet_memSetBytes {m : List Host.Cell} (h : Memory.wf m = true) (a i : Nat) (bs : List Byte) (hi : i < bs.length) :
    memGet (memSetBytes m a bs) (a + i) = bs[i] := by
  induction bs generalizing m a i with
  | nil => simp at hi
  | cons b bs ih =>
    cases i with
    | zero =>
      rw [memSetBytes, Nat.add_zero, memGet_memSetBytes_outside (memSet_wf h a b) _ _ _ (Or.inl (by omega)), memGet_memSet h]
      simp
    | succ i =>
      have := ih (memSet_wf h a b) (a + 1) i (by simpa using hi)
      rw [memSetBytes, show a + (i + 1) = a + 1 + i by omega, this]; rfl

theorem memSetAll_wf {m : List Host.Cell} (h : Memory.wf m = true) (gs : List Nat) (bs : List Byte) :
    Memory.wf (gs.foldl (fun m g => memSetBytes m (32 * g) bs) m) = true := by
  induction gs generalizing m with
  | nil => exact h
  | cons g gs ih => rw [List.foldl_cons]; exact ih (memSetBytes_wf h _ _)

/-- A write of physical memory keeps the canonical form. -/
theorem poke_wf {s : State} (h : Memory.wf s.mem = true) (pa : Nat) (data : List Byte) (pz : Bool) :
    Memory.wf (s.poke pa data pz).mem = true := by
  unfold State.poke
  split
  · exact memSetAll_wf h _ _
  · exact memSetBytes_wf h _ _

theorem pokeNat_wf {s : State} (h : Memory.wf s.mem = true) (pa n x : Nat) : Memory.wf (s.pokeNat pa n x).mem = true :=
  poke_wf h _ _ _

/-- A write touches no byte outside it. -/
theorem poke_outside {s : State} (h : Memory.wf s.mem = true) (pa k : Nat) (data : List Byte)
    (hk : k < pa ∨ pa + data.length ≤ k) : memGet (s.poke pa data false).mem k = memGet s.mem k := by
  simp only [State.poke, Bool.false_eq_true, if_false]
  exact memGet_memSetBytes_outside h _ _ _ hk

/-- A byte written is the byte read. -/
theorem poke_inside {s : State} (h : Memory.wf s.mem = true) (pa i : Nat) (data : List Byte) (hi : i < data.length) :
    memGet (s.poke pa data false).mem (pa + i) = data[i] := by
  simp only [State.poke, Bool.false_eq_true, if_false]
  exact memGet_memSetBytes h _ _ _ hi

/-- The memory of the device at reset is canonical. -/
theorem reset_wf : Memory.wf State.reset.mem = true := rfl

end Sys2Proof.Machine
end

