-- ==== Sys2Proof/Laws/Ops.lean ====
section
/-! SUPPORT. What the named operations over groups and registers do: reading after writing, and the three wrappers every meaning
goes through. -/

namespace Sys2Proof.Machine

/-! ### The group table -/

@[simp] theorem State.grp_setG_same (s : State) (k : Nat) (g : Group) : (s.setG k g).grp k = some g := by
  simp [State.grp]

theorem State.grp_setG (s : State) (k j : Nat) (g : Group) : (s.setG k g).grp j = if k = j then some g else s.grp j := by
  simp [State.grp, tabGet_tabSet]

theorem State.grp_setG_other (s : State) (k j : Nat) (g : Group) (h : j ≠ k) : (s.setG k g).grp j = s.grp j := by
  simp [State.grp_setG, Ne.symm h]

theorem State.setG_setG (s : State) (k : Nat) (g g' : Group) : (s.setG k g).setG k g' = s.setG k g' := by
  simp [State.setG, tabSet_tabSet]

theorem State.modG_of (s : State) (k : Nat) (g : Group) (f : Group → Group) (h : s.grp k = some g) :
    s.modG k f = s.setG k (f g) := by
  unfold State.modG State.setG
  rw [tabMod_some _ _ _ _ h]

@[simp] theorem State.grp_stamp (s : State) (k : Nat) : s.stamp.grp k = s.grp k := rfl

/-! ### Scalar registers and condition bits -/

/-- s0 reads 0 and is not poisoned. -/
@[simp] theorem Group.sGet_zero (g : Group) : g.sGet 0 = {} := rfl

theorem Group.sGet_sSet (g : Group) (n m : Nat) (x : SReg) :
    (g.sSet n x).sGet m = if m = n ∧ m ≠ 0 then x else g.sGet m := by
  unfold Group.sGet Group.sSet
  by_cases hm : m = 0
  · simp [hm]
  · by_cases hn : n = 0
    · have : ¬ m = n := by omega
      simp [hm, hn]
    · by_cases h : m = n
      · subst h; simp [hm]
      · simp [hm, hn, h, tabD_tabSet, Ne.symm h]

@[simp] theorem Group.sGet_adv (g : Group) (len n : Nat) : (g.adv len).sGet n = g.sGet n := rfl
@[simp] theorem Group.cGet_adv (g : Group) (len n : Nat) : (g.adv len).cGet n = g.cGet n := rfl

/-- What a result of the stoker leaves in the scalar registers. -/
theorem Group.sGet_result (g : Group) (sd : BitVec 6) (x : W64) (pz : Bool) (len m : Nat) :
    (g.result sd x pz len).sGet m = if m = sd.toNat ∧ m ≠ 0 then ⟨x, pz⟩ else g.sGet m := by
  unfold Group.result; rw [Group.sGet_adv, Group.sGet_sSet]

theorem getLsbD_ofNat_two_pow (w n m : Nat) : (BitVec.ofNat w (2 ^ n)).getLsbD m = (decide (n = m) && decide (m < w)) := by
  rw [BitVec.getLsbD_ofNat, Nat.testBit_two_pow, Bool.and_comm]

theorem getLsbD_setBit {w : Nat} (x : BitVec w) (n m : Nat) (b : Bool) (h : m < w) :
    (setBit x n b).getLsbD m = if m = n then b else x.getLsbD m := by
  have e := getLsbD_ofNat_two_pow w n m
  unfold setBit
  by_cases hb : b = true
  · rw [if_pos hb, BitVec.getLsbD_or, e]
    by_cases hm : m = n
    · simp only [hm, decide_true, Bool.true_and, if_true, hb]; simp [hm ▸ h]
    · simp only [hm, if_false, Ne.symm hm, decide_false, Bool.false_and, Bool.or_false]
  · rw [if_neg hb, BitVec.getLsbD_and, BitVec.getLsbD_not, e]
    by_cases hm : m = n
    · subst hm; simp [h, hb]
    · simp only [hm, if_false, Ne.symm hm, decide_false, Bool.not_false, h, decide_true, Bool.and_true]

theorem Group.cGet_cSet (g : Group) (n m : Nat) (b : Bool) (h : m < 8) :
    (g.cSet n b).cGet m = if m = n then b else g.cGet m := getLsbD_setBit _ _ _ _ h

/-! ### Lane registers and masks -/

theorem Group.vGet_vSet (g : Group) (t r t' r' : Nat) (x : LReg) (hr : r < 256) (hr' : r' < 256) :
    (g.vSet t r x).vGet t' r' = if t' = t ∧ r' = r then x else g.vGet t' r' := by
  unfold Group.vGet Group.vSet
  rw [tabD_tabSet]
  by_cases h : t' = t ∧ r' = r
  · obtain ⟨rfl, rfl⟩ := h; simp
  · have : ¬ t * 256 + r = t' * 256 + r' := by omega
    simp [h, this]

/-- m0 reads all ones. -/
@[simp] theorem Group.mGet_zero (g : Group) : g.mGet 0 = fullMask g.width := rfl

theorem Group.mGet_mSet (g : Group) (n m : Nat) (x : Mask) :
    (g.mSet n x).mGet m = if m = n ∧ m ≠ 0 then x else g.mGet m := by
  unfold Group.mGet Group.mSet
  by_cases hm : m = 0
  · by_cases hn : n = 0 <;> simp [hm, hn]
  · by_cases hn : n = 0
    · have : ¬ m = n := by omega
      simp [hm, hn]
    · by_cases h : m = n
      · subst h; simp [hm]
      · simp [hm, hn, h, tabD_tabSet, Ne.symm h]

/-! ### Splits -/

@[simp] theorem Group.split_setSplit_same (g : Group) (slot : Nat) (x : Option Split) : (g.setSplit slot x).split slot = x := by
  unfold Group.split Group.setSplit; split <;> simp

@[simp] theorem Group.split_vSet (g : Group) (t r slot : Nat) (x : LReg) : (g.vSet t r x).split slot = g.split slot := rfl
@[simp] theorem Group.split_adv (g : Group) (len slot : Nat) : (g.adv len).split slot = g.split slot := rfl
@[simp] theorem Group.setSplit_withV (g : Group) (slot : Nat) (x : Option Split) (v : Tab LReg) :
    ({ g with v := v } : Group).setSplit slot x = { g.setSplit slot x with v := v } := by
  unfold Group.setSplit; split <;> rfl

/-! ### The wrappers -/

theorem onStoker_next {s : State} {k : Nat} {g : Group} (h : s.cur = some (.stoker k)) (hg : s.grp k = some g)
    (f : Nat → Group → State) : onStoker s f = .next (f k g) := by
  unfold onStoker; rw [h]; simp [hg]

theorem onLane_next {s : State} {k slot : Nat} {g : Group} {sp : Split} (h : s.cur = some (.lane k slot))
    (hg : s.grp k = some g) (hs : g.split slot = some sp) (f : Nat → Nat → Group → Split → State) :
    onLane s f = .next (f k slot g sp) := by
  unfold onLane; rw [h]; simp [hg, hs]

@[simp] theorem onEvent_next (s : State) (f : State → State) : onEvent s f = .next (f s) := rfl

/-- A stoker meaning never refuses. -/
theorem onStoker_no_refusal (s : State) (f : Nat → Group → State) (r : Refusal) : onStoker s f ≠ .refused r := by
  unfold onStoker; split
  · split <;> simp
  · simp

/-- A lane meaning never refuses. -/
theorem onLane_no_refusal (s : State) (f : Nat → Nat → Group → Split → State) (r : Refusal) : onLane s f ≠ .refused r := by
  unfold onLane; split
  · split
    · split <;> simp
    · simp
  · simp

/-- A lane instruction runs its body in the environment its read of `%time` leaves. -/
theorem laneRun_next {s s1 : State} {k slot time : Nat} {g : Group} {sp : Split} {f : LaneF} (h : s.cur = some (.lane k slot))
    (hg : s.grp k = some g) (hs : g.split slot = some sp) (ht : s.laneTime f k g sp = (s1, some time)) (body : LEnv → State) :
    laneRun s f body = .next (body (s1.laneEnv f k slot g sp time)) := by
  unfold laneRun; rw [onLane_next h hg hs, ht]

/-- An instruction that does not read `%time` has its environment in the state it was issued in. -/
theorem laneTime_of_not (s : State) (f : LaneF) (k : Nat) (g : Group) (sp : Split) (h : readsTime f = false) :
    s.laneTime f k g sp = (s, some 0) := by
  unfold State.laneTime; simp [h]

theorem laneRun_no_refusal (s : State) (f : LaneF) (body : LEnv → State) (r : Refusal) : laneRun s f body ≠ .refused r :=
  onLane_no_refusal _ _ _

end Sys2Proof.Machine
end

