-- ==== Sys2Proof/Laws/Lane.lean ====
section
/-! SUPPORT. What a lane instruction's result leaves: one lemma for each way a result leaves it (R142–R146). -/

namespace Sys2Proof.Machine

/-! ### The acting threads -/

theorem actingOf_nodup (g : Group) (sp : Split) (f : LaneF) : (actingOf g sp f).Nodup :=
  List.Nodup.filter _ List.nodup_range

/-! ### Registers written one after another -/

theorem Group.regWrite_of_free {g : Group} {slot stamp : Nat} {sp : Split} {v : OutV} {x : LReg} (hs : g.split slot = some sp)
    (hv : v.val = some x) (ho : sp.owes v.t v.r = false) : g.regWrite slot stamp v = g.vSet v.t v.r x := by
  unfold Group.regWrite
  simp only [hv, Group.split_vSet, hs, ho, Bool.false_and, Bool.false_eq_true, if_false]

/-- The lane registers after a list of results. -/
def writeAll (v : Tab LReg) (l : List OutV) : Tab LReg :=
  l.foldl (fun t o => match o.val with
    | some x => tabSet t (o.t * 256 + o.r) x
    | none => t) v

theorem foldl_regWrite (l : List OutV) (g : Group) (slot stamp : Nat) (sp : Split) (hs : g.split slot = some sp)
    (hl : ∀ v ∈ l, sp.owes v.t v.r = false) :
    l.foldl (fun g v => g.regWrite slot stamp v) g = { g with v := writeAll g.v l } := by
  induction l generalizing g with
  | nil => rfl
  | cons o l ih =>
    have h1 := hl o (List.mem_cons_self ..)
    have h2 : ∀ v ∈ l, sp.owes v.t v.r = false := fun v hv => hl v (List.mem_cons_of_mem _ hv)
    rw [List.foldl_cons]
    cases hv : o.val with
    | none =>
      have : g.regWrite slot stamp o = g := by unfold Group.regWrite; rw [hv]
      rw [this, ih g hs h2]
      simp [writeAll, hv]
    | some x =>
      rw [Group.regWrite_of_free hs hv h1, ih (g.vSet o.t o.r x) (by simpa using hs) h2]
      simp [writeAll, hv, Group.vSet]

theorem writeAll_append (v : Tab LReg) (l m : List OutV) : writeAll v (l ++ m) = writeAll (writeAll v l) m := by
  simp [writeAll]

theorem writeAll_resultRegs (v : Tab LReg) (t r words : Nat) (o : Opd) (hw : r + words ≤ 256) (t' r' : Nat) (hr' : r' < 256) :
    tabD (writeAll v (resultRegs t r words o.x o.pz)) (t' * 256 + r') {} =
      if t' = t ∧ r ≤ r' ∧ r' < r + words then o.word (r' - r) else tabD v (t' * 256 + r') {} := by
  induction words with
  | zero =>
    have : ¬ (t' = t ∧ r ≤ r' ∧ r' < r + 0) := by omega
    rw [if_neg this]; rfl
  | succ n ih =>
    have ih := ih (by omega)
    have e : resultRegs t r (n + 1) o.x o.pz =
        resultRegs t r n o.x o.pz ++ [⟨t, r + n, some ⟨BitVec.ofNat 32 (o.x / 2 ^ (32 * n)), o.pz⟩⟩] := by
      unfold resultRegs; rw [List.range_succ, List.map_append]; rfl
    rw [e, writeAll_append]
    show tabD (tabSet _ (t * 256 + (r + n)) _) _ _ = _
    rw [tabD_tabSet, ih]
    by_cases h : t' = t ∧ r' = r + n
    · obtain ⟨rfl, rfl⟩ := h
      have : t' = t' ∧ r ≤ r + n ∧ r + n < r + (n + 1) := by omega
      rw [if_pos rfl, if_pos this]
      simp [Opd.word]
    · have hk : ¬ t * 256 + (r + n) = t' * 256 + r' := by omega
      rw [if_neg hk]
      by_cases h2 : t' = t ∧ r ≤ r' ∧ r' < r + n
      · have : t' = t ∧ r ≤ r' ∧ r' < r + (n + 1) := by omega
        rw [if_pos h2, if_pos this]
      · have : ¬ (t' = t ∧ r ≤ r' ∧ r' < r + (n + 1)) := by omega
        rw [if_neg h2, if_neg this]

theorem writeAll_results (ts : List Nat) (hn : ts.Nodup) (v : Tab LReg) (r words : Nat) (val : Nat → Opd) (hw : r + words ≤ 256)
    (t' r' : Nat) (hr' : r' < 256) :
    tabD (writeAll v (ts.foldr (fun t acc => resultRegs t r words (val t).x (val t).pz ++ acc) [])) (t' * 256 + r') {} =
      if t' ∈ ts ∧ r ≤ r' ∧ r' < r + words then (val t').word (r' - r) else tabD v (t' * 256 + r') {} := by
  induction ts generalizing v with
  | nil => simp [writeAll]
  | cons t ts ih =>
    have hn' := (List.nodup_cons.1 hn)
    rw [List.foldr_cons, writeAll_append, ih hn'.2, writeAll_resultRegs _ _ _ _ _ hw _ _ hr']
    by_cases h : t' = t
    · subst h
      have : ¬ t' ∈ ts := hn'.1
      simp [this]
    · simp [h]

theorem mem_resultRegs (t r words x : Nat) (pz : Bool) (o : OutV) :
    o ∈ resultRegs t r words x pz ↔ ∃ i < words, o = ⟨t, r + i, some ⟨BitVec.ofNat 32 (x / 2 ^ (32 * i)), pz⟩⟩ := by
  unfold resultRegs
  simp only [List.mem_map, List.mem_range]
  constructor
  · rintro ⟨i, hi, rfl⟩; exact ⟨i, hi, rfl⟩
  · rintro ⟨i, hi, rfl⟩; exact ⟨i, hi, rfl⟩

theorem mem_results (ts : List Nat) (r words : Nat) (val : Nat → Opd) (o : OutV) :
    o ∈ ts.foldr (fun t acc => resultRegs t r words (val t).x (val t).pz ++ acc) [] ↔
      ∃ t ∈ ts, ∃ i < words, o = ⟨t, r + i, some ((val t).word i)⟩ := by
  induction ts with
  | nil => simp
  | cons t ts ih =>
    rw [List.foldr_cons, List.mem_append, ih, mem_resultRegs]
    constructor
    · rintro (⟨i, hi, rfl⟩ | ⟨u, hu, i, hi, rfl⟩)
      · exact ⟨t, List.mem_cons_self .., i, hi, rfl⟩
      · exact ⟨u, List.mem_cons_of_mem _ hu, i, hi, rfl⟩
    · rintro ⟨u, hu, i, hi, rfl⟩
      rcases List.mem_cons.1 hu with rfl | hu
      · exact Or.inl ⟨i, hi, rfl⟩
      · exact Or.inr ⟨u, hu, i, hi, rfl⟩

/-! ### The results of R142 -/

theorem LEnv.leaves_of_done (e : LEnv) (g : Group) (s : State) (hs : { s with free := e.s.free } = e.s) :
    e.leaves (s.stamp.setG e.k g) g := by
  have hg : s.groups = e.s.groups := by rw [← hs]
  refine ⟨by simp, ?_, fun j hj => ?_⟩
  · rw [← hs]; rfl
  · rw [State.grp_setG_other _ _ _ _ hj]; show tabGet s.groups j = _; rw [hg]; rfl

/-- An element-wise result written at once. -/
theorem LEnv.puts_of_write {s : State} {e : LEnv} {i : Instr} {words : Nat} {val : Nat → Opd} (hi : e.issues s)
    (hf : e.free words) (hx : exec i s = .next (e.write (e.map words val))) : e.puts s i words val := by
  obtain ⟨⟨-, hg, hsp⟩, -, hts, -⟩ := hi
  have hn : e.ts.Nodup := by rw [hts]; exact actingOf_nodup _ _ _
  have ho : ∀ v ∈ e.map words val, e.sp.owes v.t v.r = false := by
    intro v hv
    obtain ⟨t, ht, i, hi, rfl⟩ := (mem_results _ _ _ _ _).1 hv
    exact hf.2 t ht i hi
  refine ⟨_, ((e.map words val).foldl (fun g v => g.regWrite e.slot e.s.free v) e.g).setSplit e.slot
    (some (e.sp.past e.s.nextId)), hx, ?_, ?_, ?_⟩
  · have hs2 : ((e.map words val).foldl (fun g v => g.regWrite e.slot e.s.free v) e.g).split e.slot = some e.sp := by
      rw [foldl_regWrite _ _ _ _ _ hsp ho]; exact hsp
    unfold LEnv.write LEnv.done
    rw [hs2]
    exact e.leaves_of_done _ _ rfl
  · rw [foldl_regWrite _ _ _ _ _ hsp ho]
    unfold Group.setSplit; split <;> rfl
  · intro th r hr
    rw [foldl_regWrite _ _ _ _ _ hsp ho, Group.setSplit_withV]
    exact writeAll_results _ hn _ _ _ _ hf.1 _ _ hr

/-! ### Results that wait (R16, R144) -/

theorem Split.pushOut_of_free (sp : Split) (stamp : Nat) (o : Out) (h : ∀ v ∈ o.vals, sp.owes v.t v.r = false) :
    sp.pushOut stamp o = { sp with outs := sp.outs ++ [o] } := by
  unfold Split.pushOut
  have h1 : o.vals.filter (fun v => sp.owes v.t v.r) = [] := by
    rw [List.filter_eq_nil_iff]; intro v hv; simp [h v hv]
  have h2 : o.vals.filter (fun v => !(sp.owes v.t v.r && !Config.oldOrNew stamp v.t (256 + v.r))) = o.vals := by
    rw [List.filter_eq_self]; intro v hv; simp [h v hv]
  simp only [h1, h2, List.foldl_nil]

theorem LEnv.complete_map (e : LEnv) (words : Nat) (val : Nat → Opd) : (e.map words val).all (·.val.isSome) = true := by
  rw [List.all_eq_true]
  intro v hv
  obtain ⟨t, -, i, -, rfl⟩ := (mem_results _ _ _ _ _).1 hv
  rfl

/-- A result that waits is outstanding for its window. -/
theorem LEnv.owes_of_owe {s : State} {e : LEnv} {i : Instr} {words : Nat} {val : Nat → Opd} {o : Out} (hi : e.issues s)
    (hf : e.free words) (ho : o.vals = e.map words val) (hx : exec i s = .next (e.owe o)) : e.owes s i words val := by
  obtain ⟨⟨-, hg, hsp⟩, -, -, -⟩ := hi
  have hv : ∀ v ∈ o.vals, e.sp.owes v.t v.r = false := by
    intro v hv
    rw [ho] at hv
    obtain ⟨t, ht, i, hi, rfl⟩ := (mem_results _ _ _ _ _).1 hv
    exact hf.2 t ht i hi
  refine ⟨_, { o with id := e.s.nextId, left := e.f.la.toNat, pc := e.sp.pc }, hx, ?_, ?_, ?_, rfl, ?_⟩
  · unfold LEnv.owe LEnv.done
    simp only [hsp, Option.map_some, Group.split_setSplit_same]
    rw [Split.pushOut_of_free _ _ { o with id := e.s.nextId, left := e.f.la.toNat, pc := e.sp.pc } hv, State.grp_setG_same]
    congr 1
    unfold Group.setSplit Split.past
    split <;> simp
  · rfl
  · intro j hj
    unfold LEnv.owe LEnv.done
    rw [State.grp_setG_other _ _ _ _ hj]; rfl
  · intro th r x
    show _ ∈ o.vals ↔ _
    rw [ho]
    show _ ∈ e.ts.foldr _ [] ↔ _
    rw [mem_results]
    constructor
    · rintro ⟨t, ht, i, hi, h⟩
      injection h with h1 h2 h3
      subst h1 h2 h3
      exact ⟨ht, by omega, by omega, by rw [Nat.add_sub_cancel_left]⟩
    · rintro ⟨ht, h1, h2, rfl⟩
      exact ⟨th, ht, r - e.f.vd.toNat, by omega, by congr 1; omega⟩

/-- A result of a long-latency instruction that reads no memory: at once without lookahead, else outstanding. -/
theorem LEnv.putsLong_of {s : State} {e : LEnv} {i : Instr} {words : Nat} {val : Nat → Opd} (hi : e.issues s) (hf : e.free words)
    (hx : exec i s = .next (e.writeLong (e.map words val))) : e.putsLong s i words val :=
  ⟨fun h => LEnv.puts_of_write hi hf (by rw [hx]; unfold LEnv.writeLong; rw [if_pos h]),
    fun h => LEnv.owes_of_owe hi hf rfl (by rw [hx]; unfold LEnv.writeLong; rw [if_neg h])⟩

/-! ### Mask results (R149, R178) -/

theorem getLsbD_foldl_setBit (ts : List Nat) (x : Mask) (f : Nat → Bool) (m : Nat) (hm : m < 128) :
    (ts.foldl (fun a t => setBit a t (f t)) x).getLsbD m = if m ∈ ts then f m else x.getLsbD m := by
  induction ts generalizing x with
  | nil => simp
  | cons t ts ih =>
    rw [List.foldl_cons, ih, getLsbD_setBit _ _ _ _ hm]
    by_cases h : m = t
    · subst h; simp
    · simp [h]

theorem LEnv.putsM_of_writeMask {s : State} {e : LEnv} {i : Instr} {n : Nat} {val : Nat → Bool} (hi : e.issues s)
    (hx : exec i s = .next (e.writeMask n val)) : e.putsM s i n val := by
  obtain ⟨⟨-, hg, hsp⟩, -, -, -⟩ := hi
  set x := e.ts.foldl (fun m t => setBit m t (val t)) (e.g.mGet n) with hxx
  have hs2 : (e.g.mSet n x).split e.slot = some e.sp := by
    unfold Group.mSet; split <;> exact hsp
  refine ⟨_, (e.g.mSet n x).setSplit e.slot (some (e.sp.past e.s.nextId)), hx, ?_, ?_, ?_⟩
  · unfold LEnv.writeMask LEnv.done
    rw [← hxx, hs2]
    exact e.leaves_of_done _ _ rfl
  · unfold Group.mSet Group.setSplit; split <;> split <;> rfl
  · intro m th hth
    have : ((e.g.mSet n x).setSplit e.slot (some (e.sp.past e.s.nextId))).mGet m = (e.g.mSet n x).mGet m := by
      unfold Group.setSplit; split <;> rfl
    rw [this, Group.mGet_mSet]
    by_cases h : m = n ∧ m ≠ 0
    · rw [if_pos h, hxx, getLsbD_foldl_setBit _ _ _ _ hth]
      obtain ⟨rfl, h0⟩ := h
      simp [h0]
    · rw [if_neg h, if_neg]
      rintro ⟨a, b, -⟩; exact h ⟨a, b⟩

end Sys2Proof.Machine
end

