-- ==== Sys2Proof/Laws/Stoker.lean ====
section
/-! SUPPORT. What the stoker's shared operations leave: one lemma for each way an instruction of the stoker ends. -/

namespace Sys2Proof.Machine

theorem State.sameBut_setG (s : State) (k : Nat) (g : Group) : s.sameBut (s.setG k g) k :=
  ⟨rfl, fun _ hj => State.grp_setG_other _ _ _ _ hj⟩

theorem Group.sameButS_result (g : Group) (sd : BitVec 6) (x : W64) (pz : Bool) (len : Nat) :
    g.sameButS (g.result sd x pz len) := by
  unfold Group.sameButS Group.result Group.adv Group.sSet; split <;> rfl

@[simp] theorem Group.spc_result (g : Group) (sd : BitVec 6) (x : W64) (pz : Bool) (len : Nat) :
    (g.result sd x pz len).spc = g.spc + BitVec.ofNat 64 len := by
  unfold Group.result Group.adv Group.sSet; split <;> rfl

/-- A state given as the group's replacement. -/
theorem State.becomes_of {s : State} {i : Instr} {k : Nat} {g' : Group} (h : exec i s = .next (s.setG k g')) :
    s.becomes i k g' := ⟨_, h, by simp, s.sameBut_setG k g'⟩

/-- A scalar result. -/
theorem State.putsS_of {s s1 : State} {i : Instr} {k : Nat} {g : Group} {sd : BitVec 6} {x : SReg} {len : Nat}
    (h : exec i s = .next (s1.setG k (g.result sd x.val x.pz len))) : s.putsS s1 i k g sd x len :=
  ⟨_, g.result sd x.val x.pz len, h, by simp, s1.sameBut_setG _ _, g.sameButS_result _ _ _ _, by simp,
    fun n => g.sGet_result _ _ _ _ n⟩

/-- A condition bit. -/
theorem State.putsC_of {s : State} {i : Instr} {k : Nat} {g : Group} {n : BitVec 3} {b : Bool} {len : Nat}
    (h : exec i s = .next (s.setG k ((g.cSet n.toNat b).adv len))) : s.putsC i k g n b len :=
  ⟨_, (g.cSet n.toNat b).adv len, h, by simp, s.sameBut_setG _ _, rfl, rfl, fun m hm => g.cGet_cSet _ _ _ hm⟩

/-- A wait. -/
theorem State.waitsS_of {s s1 : State} {i : Instr} {k : Nat} {g : Group} (hg : s1.grp k = some g)
    (h : exec i s = .next (s1.waitS k)) : s.waitsS s1 i k g := by
  refine ⟨_, h, ?_, ?_⟩ <;> unfold State.waitS <;> rw [State.modG_of _ _ _ _ hg]
  · simp
  · exact s1.sameBut_setG _ _

/-! ### The operand forms -/

theorem aluR_next {s : State} {k : Nat} {g : Group} (h : s.stokerAt k g) (sd sa sb : BitVec 6) (f : W64 → W64 → W64) :
    aluR s sd sa sb f = .next (s.setG k (g.result sd (f (g.sGet sa.toNat).val (g.sGet sb.toNat).val)
      ((g.sGet sa.toNat).pz || (g.sGet sb.toNat).pz) 4)) := onStoker_next h.1 h.2 _

theorem aluI_next {s : State} {k : Nat} {g : Group} (h : s.stokerAt k g) (sd sa : BitVec 6) (y : W64) (len : Nat)
    (f : W64 → W64 → W64) :
    aluI s sd sa y len f = .next (s.setG k (g.result sd (f (g.sGet sa.toNat).val y) (g.sGet sa.toNat).pz len)) :=
  onStoker_next h.1 h.2 _

theorem shiftR_next {s : State} {k : Nat} {g : Group} (h : s.stokerAt k g) (sd sa sb : BitVec 6) (f : W64 → W64 → W64)
    (hb : (g.sGet sb.toNat).pz = false) :
    shiftR s sd sa sb f = .next (s.setG k (g.result sd (f (g.sGet sa.toNat).val (g.sGet sb.toNat).val)
      (g.sGet sa.toNat).pz 4)) := by
  unfold shiftR; rw [onStoker_next h.1 h.2]; simp [hb]

theorem shiftR_trap {s : State} {k : Nat} {g : Group} (h : s.stokerAt k g) (sd sa sb : BitVec 6) (f : W64 → W64 → W64)
    (hb : (g.sGet sb.toNat).pz = true) : shiftR s sd sa sb f = .next (s.trapS k g (trapPoison 0 0)) := by
  unfold shiftR; rw [onStoker_next h.1 h.2]; simp [hb]

/-! ### Transfers -/

theorem State.transfer_in (s : State) (k : Nat) (g g' : Group) (target : W64) (h : g.inCode target) :
    s.transfer k g g' target = s.setG k { g' with spc := target } := by
  unfold State.transfer; rw [if_pos]; simpa [Group.inCode] using h

theorem State.transfer_out (s : State) (k : Nat) (g g' : Group) (target : W64) (h : ¬ g.inCode target) :
    s.transfer k g g' target = s.trapS k g (trapOperand target) := by
  unfold State.transfer; rw [if_neg]; simpa [Group.inCode] using h

/-! ### Loads, stores and atomics -/

section
variable {s s1 s2 : State} {k : Nat} {g : Group} {t : Tr} {sd a : BitVec 6} {off : W64} {size scope len : Nat} {signed acq : Bool}

/-- A read of a context that is not recorded leaves no record and takes none. -/
theorem State.ownRead_of (h ctx pa : Nat) (b : List Byte) (hr : s.recording ctx = false ∨ (isHost pa || isOther pa) = false) :
    s.ownRead h ctx pa b = (s, some b) := by
  unfold State.ownRead
  rcases hr with h | h <;> simp [h]

/-- A stoker's read, where it is not recorded or in this module, is its hearth's. -/
theorem State.stokerRead_of {x : List Byte × Bool} (hb : s.readBytes (hearthOf k) (tabD s.ctxs g.ctx {}) g.name t size = (s1, some x))
    (hr : s1.recording g.ctx = false ∨ (isHost t.pa || isOther t.pa) = false) : s.stokerRead k g t size = (s1, some x) := by
  unfold State.stokerRead
  rw [hb]
  simp only [State.ownRead_of _ _ _ _ hr]

/-- A load whose checks pass and whose bytes can be read. -/
theorem loadS_next {b : List Byte} {p : Bool} (h : s.stokerAt k g) (hp : (g.sGet a.toNat).pz = false)
    (hc : s.chkScalar k g accLoad ((g.sGet a.toNat).val + off) size = (s1, .ok t)) (ha : s1.unanswered k g t = false)
    (hr : s1.stokerRead k g t size = (s2, some (b, p))) :
    loadS s sd a off size signed len acq = .next (s2.setG k ((s2.fresh k g).result sd
      (if signed then (BitVec.ofNat (8 * size) (leNat b)).signExtend 64 else BitVec.ofNat 64 (leNat b)) p len)) := by
  unfold loadS
  rw [onStoker_next h.1 h.2]
  simp only [hp, hc, hr, ha, Bool.false_eq_true, if_false]

/-- A load of another module's memory that gets no response: its result is pending, and the access is out. -/
theorem loadS_lost (h : s.stokerAt k g) (hp : (g.sGet a.toNat).pz = false)
    (hc : s.chkScalar k g accLoad ((g.sGet a.toNat).val + off) size = (s1, .ok t)) (ha : s1.unanswered k g t = true) :
    loadS s sd a off size signed len acq = .next (s1.lostLoad k g sd ((g.sGet a.toNat).val + off) t size signed len acq) := by
  unfold loadS
  rw [onStoker_next h.1 h.2]
  simp only [hp, hc, ha, Bool.false_eq_true, if_false, if_true]

/-- A load whose checks trap. -/
theorem loadS_trap {x : Trap} (h : s.stokerAt k g) (hp : (g.sGet a.toNat).pz = false)
    (hc : s.chkScalar k g accLoad ((g.sGet a.toNat).val + off) size = (s1, .trap x)) :
    loadS s sd a off size signed len acq = .next (s1.trapS k g x len) := by
  unfold loadS
  rw [onStoker_next h.1 h.2]
  simp only [hp, hc, Bool.false_eq_true, if_false]

/-- A store whose checks pass. -/
theorem storeS_next (h : s.stokerAt k g) (hp : (g.sGet a.toNat).pz = false)
    (hc : s.chkScalar k g (accStore (size == 8)) ((g.sGet a.toNat).val + off) size = (s1, .ok t))
    (hw : s1.stokerPending g.name scope = false) :
    storeS s sd a off size scope len = .next ((s1.setG k (g.adv len)).storeAt k g ((g.sGet a.toNat).val + off) t
      (leBytes size (g.sGet sd.toNat).val.toNat) (g.sGet sd.toNat).pz 0) := by
  unfold storeS
  rw [onStoker_next h.1 h.2]
  simp only [hp, hc, hw, Bool.false_eq_true, if_false]

/-- A store whose checks trap. -/
theorem storeS_trap {x : Trap} (h : s.stokerAt k g) (hp : (g.sGet a.toNat).pz = false)
    (hc : s.chkScalar k g (accStore (size == 8)) ((g.sGet a.toNat).val + off) size = (s1, .trap x)) :
    storeS s sd a off size scope len = .next (s1.trapS k g x len) := by
  unfold storeS
  rw [onStoker_next h.1 h.2]
  simp only [hp, hc, Bool.false_eq_true, if_false]

end

end Sys2Proof.Machine
end

