-- ==== Sys2Proof/Tests/Slice0.lean ====
section
/-! SUPPORT. The model's own tests: words of the manual's encodings decode to their instructions, ill-formed terms are refused, single
instructions give what the manual's rules and examples say, and every statement's hypotheses are met by a small state (test_hyp_…). -/

namespace Sys2Proof.Tests
open Sys2Proof Sys2Proof.Machine

set_option Elab.async false

/-! ### Decoding -/

/-- A lane instruction with every field 0. -/
def f0 : LaneF :=
  { vd := 0, va := 0, vb := 0, vc := 0, la := 0, rnd := 0, sat := 0, mr := 0, ms := 0, bsel := 0, csel := 0, ty := 0, w2 := 0, ord := 0, sp := 0 }

/-- A `slit` marker, the middle of the literal 0x0123456789ABCDEF, and `add s1, s34` with its low 13 bits (R48). -/
theorem test_decode_slit :
    (decodeStoker 0xFE00091A 0x2B3C4D5E 0x080C4DEF).toOption = some (.slit 0x0123456789ABCDEF 4 1 34) := by decide +kernel

/-- Words that are no instruction: reserved bits, unassigned codes, a lone marker (R48, R55, R70). -/
theorem test_decode_refuses : ∀ w ∈ ([0x00000018, 0x00000094, 0x04000008, 0x82000001, 0xFC000000, 0x5C000001] : List Nat),
    (decodeStoker w 0 0).toOption = none ∧ (decodeStoker 0xFE000000 0 0).toOption = none := by decide +kernel

/-- Words of the arithmetic instructions, built from the encodings of R45–R55: each decodes to its instruction. -/
theorem test_decode_stoker_arithmetic : ∀ p ∈ ([(0x000C4980, .add 1 34 19), (0x000C4981, .sub 1 34 19), (0x000C4982, .and 1 34 19), (0x000C4983, .or 1 34 19),
      (0x000C4984, .xor 1 34 19), (0x000C4985, .andn 1 34 19), (0x000C4986, .shl 1 34 19), (0x000C4987, .shrN64 1 34 19),
      (0x000C4988, .shrI64 1 34 19), (0x000C4989, .mul 1 34 19), (0x000C498A, .mulhI64 1 34 19), (0x000C498B, .mulhN64 1 34 19),
      (0x000C498C, .divI64 1 34 19), (0x000C498D, .divN64 1 34 19), (0x000C498E, .remI64 1 34 19), (0x000C498F, .remN64 1 34 19),
      (0x000C4990, .minI64 1 34 19), (0x000C4991, .minN64 1 34 19), (0x000C4992, .maxI64 1 34 19), (0x000C4993, .maxN64 1 34 19),
      (0x000C4014, .popc 1 34), (0x000C4015, .clz 1 34), (0x000C4016, .ctz 1 34), (0x000C4017, .bswap 1 34)] :
    List (Nat × Instr)), (decodeStoker p.1 0 0).toOption = some p.2 := by decide +kernel

/-- Words of the immediate instructions, built from the encodings of R45–R55: each decodes to its instruction. -/
theorem test_decode_stoker_immediate : ∀ p ∈ ([(0x080C5234, .addImm 1 34 4660), (0x0A0C5234, .andImm 1 34 4660), (0x0C0C5234, .orImm 1 34 4660), (0x0E0C5234, .xorImm 1 34 4660),
      (0x100C5234, .shlImm 1 34 4660), (0x120C5234, .shrN64Imm 1 34 4660), (0x140C5234, .shrI64Imm 1 34 4660),
      (0x160C5234, .mulImm 1 34 4660), (0x180C5234, .minI64Imm 1 34 4660), (0x1A0C5234, .minN64Imm 1 34 4660),
      (0x1C0C5234, .maxI64Imm 1 34 4660), (0x1E0C5234, .maxN64Imm 1 34 4660), (0x022C498A, .cmp 5 34 19 1 2),
      (0x20AC5234, .cmpI64Imm 2 5 34 4660), (0x22AC5234, .cmpN64Imm 2 5 34 4660), (0x040C4985, .csel 1 34 19 5)] :
    List (Nat × Instr)), (decodeStoker p.1 0 0).toOption = some p.2 := by decide +kernel

/-- Words of the control instructions, built from the encodings of R45–R55: each decodes to its instruction. -/
theorem test_decode_stoker_control : ∀ p ∈ ([(0x30012345, .br 74565), (0x32012345, .call 74565), (0x34044000, .jr 34), (0x37112345, .bz 34 74565), (0x39112345, .bnz 34 74565),
      (0x3A292345, .bc 5 74565), (0x3C292345, .bnc 5 74565), (0x3E000000, .exit), (0x80001234, .lrun 4660), (0x82000000, .lwait),
      (0x84000000, .lkill), (0xC0000000, .wgbar), (0xC2000000, .gbar), (0xC4000000, .spause), (0xC6000000, .yield), (0xC8080001, .srd 1 1),
      (0xCA044000, .mset 34), (0xCC044000, .launch 34), (0xCE000000, .cwait), (0xE0000002, .trap 2), (0xE2000000, .tret)] :
    List (Nat × Instr)), (decodeStoker p.1 0 0).toOption = some p.2 := by decide +kernel

/-- Words of the memory instructions, built from the encodings of R45–R55: each decodes to its instruction. -/
theorem test_decode_stoker_memory : ∀ p ∈ ([(0x400C5234, .ldN8 1 34 4660), (0x420C5234, .ldI8 1 34 4660), (0x440C5234, .ldN16 1 34 4660), (0x460C5234, .ldI16 1 34 4660),
      (0x480C5234, .ldN32 1 34 4660), (0x4A0C5234, .ldI32 1 34 4660), (0x4C0C5234, .ldB64 1 34 4660), (0x500C5234, .stB8 1 34 4660),
      (0x520C5234, .stB16 1 34 4660), (0x540C5234, .stB32 1 34 4660), (0x560C5234, .stB64 1 34 4660), (0x580C5100, .ldAcq 1 34 4 1),
      (0x5A0C5100, .stRel 1 34 4 1), (0x5C000014, .fence 2 4), (0x702C4980, .xlt 5 34 19), (0x72280000, .xinv 5), (0x7408A002, .xrd 1 5 2)] :
    List (Nat × Instr)), (decodeStoker p.1 0 0).toOption = some p.2 := by decide +kernel

/-- Words of the atomics instructions, built from the encodings of R45–R55: each decodes to its instruction. -/
theorem test_decode_stoker_atomics : ∀ p ∈ ([(0x620C4980, .aadd 1 1 34 19), (0x660C4984, .aaddAr 1 1 34 19 4), (0x620C4988, .aand 1 1 34 19), (0x660C498C, .aandAr 1 1 34 19 4),
      (0x620C4990, .aor 1 1 34 19), (0x660C4994, .aorAr 1 1 34 19 4), (0x620C4998, .axor 1 1 34 19), (0x660C499C, .axorAr 1 1 34 19 4),
      (0x620C49A0, .aminI 1 1 34 19), (0x660C49A4, .aminIAr 1 1 34 19 4), (0x620C49A8, .aminN 1 1 34 19),
      (0x660C49AC, .aminNAr 1 1 34 19 4), (0x620C49B0, .amaxI 1 1 34 19), (0x660C49B4, .amaxIAr 1 1 34 19 4),
      (0x620C49B8, .amaxN 1 1 34 19), (0x660C49BC, .amaxNAr 1 1 34 19 4), (0x620C49C0, .axchg 1 1 34 19),
      (0x660C49C4, .axchgAr 1 1 34 19 4), (0x620C49C8, .acas 1 1 34 19), (0x660C49CC, .acasAr 1 1 34 19 4)] :
    List (Nat × Instr)), (decodeStoker p.1 0 0).toOption = some p.2 := by decide +kernel

/-- Words of the units instructions, built from the encodings of R45–R55: each decodes to its instruction. -/
theorem test_decode_stoker_units : ∀ p ∈ ([(0x902C4000, .vset 5 34), (0x92280000, .vdrop 5), (0x9408A002, .vqry 1 5 2), (0xA0044000, .mma 34), (0xA2044980, .accz 34 19),
      (0xA40C4980, .accld 1 34 19), (0xA60C4981, .accst 1 34 19 1), (0xB0044009, .cpy 34 9), (0xB2044009, .cpy2d 34 9),
      (0xB4044009, .cpyg 34 9), (0xB6000009, .cpwait 9), (0xB8080009, .cpstat 1 9), (0xBB212345, .cpcont 9 74565),
      (0xD00C4980, .frz 1 34 19), (0xD20C4980, .thaw 1 34 19), (0xD4044000, .tkwt 34), (0xD60C4002, .cdctr 1 34 2),
      (0xD8044000, .cdclr 34), (0xE4080000, .ptake 1), (0xE6044980, .pmap 34 19), (0xE8000000, .aharv), (0xEA0C4000, .swrd 1 34)] :
    List (Nat × Instr)), (decodeStoker p.1 0 0).toOption = some p.2 := by decide +kernel

/-- Words of the integer lane instructions (class 0x0, R56–R68). -/
theorem test_decode_lane_class_0 : ∀ p ∈ ([((0x00008140, 0x11000747, 0x0), .laneAdd { f0 with vd := 8, va := 20, vb := 17, mr := 3, ms := 1, bsel := 1, ty := 7 }),
      ((0x00108140, 0x11000747, 0x0), .laneSub { f0 with vd := 8, va := 20, vb := 17, mr := 3, ms := 1, bsel := 1, ty := 7 }),
      ((0x00208140, 0x11000747, 0x0), .laneMul { f0 with vd := 8, va := 20, vb := 17, mr := 3, ms := 1, bsel := 1, ty := 7 }),
      ((0x00308140, 0x11000747, 0x0), .laneMulh { f0 with vd := 8, va := 20, vb := 17, mr := 3, ms := 1, bsel := 1, ty := 7 }),
      ((0x00408140, 0x111E0747, 0x0), .laneMad { f0 with vd := 8, va := 20, vb := 17, vc := 30, mr := 3, ms := 1, bsel := 1, ty := 7 }),
      ((0x00508140, 0x11000747, 0x0), .laneMin { f0 with vd := 8, va := 20, vb := 17, mr := 3, ms := 1, bsel := 1, ty := 7 }),
      ((0x00608140, 0x11000747, 0x0), .laneMax { f0 with vd := 8, va := 20, vb := 17, mr := 3, ms := 1, bsel := 1, ty := 7 }),
      ((0x00708140, 0x00000707, 0x0), .laneAbs { f0 with vd := 8, va := 20, mr := 3, ms := 1, ty := 7 }),
      ((0x00808140, 0x00000707, 0x0), .laneNeg { f0 with vd := 8, va := 20, mr := 3, ms := 1, ty := 7 }),
      ((0x00908140, 0x11000747, 0x0), .laneAnd { f0 with vd := 8, va := 20, vb := 17, mr := 3, ms := 1, bsel := 1, ty := 7 }),
      ((0x00A08140, 0x11000747, 0x0), .laneOr { f0 with vd := 8, va := 20, vb := 17, mr := 3, ms := 1, bsel := 1, ty := 7 }),
      ((0x00B08140, 0x11000747, 0x0), .laneXor { f0 with vd := 8, va := 20, vb := 17, mr := 3, ms := 1, bsel := 1, ty := 7 }),
      ((0x00C08140, 0x00000707, 0x0), .laneNot { f0 with vd := 8, va := 20, mr := 3, ms := 1, ty := 7 }),
      ((0x00D08140, 0x11000747, 0x0), .laneShl { f0 with vd := 8, va := 20, vb := 17, mr := 3, ms := 1, bsel := 1, ty := 7 }),
      ((0x00E08140, 0x11000747, 0x0), .laneShr { f0 with vd := 8, va := 20, vb := 17, mr := 3, ms := 1, bsel := 1, ty := 7 }),
      ((0x00F08140, 0x00000707, 0x0), .lanePopc { f0 with vd := 8, va := 20, mr := 3, ms := 1, ty := 7 }),
      ((0x01008140, 0x00000707, 0x0), .laneClz { f0 with vd := 8, va := 20, mr := 3, ms := 1, ty := 7 }),
      ((0x01108140, 0x111E0747, 0x0), .laneBfe { f0 with vd := 8, va := 20, vb := 17, vc := 30, mr := 3, ms := 1, bsel := 1, ty := 7 }),
      ((0x01208140, 0x111E0747, 0x0), .laneBfi { f0 with vd := 8, va := 20, vb := 17, vc := 30, mr := 3, ms := 1, bsel := 1, ty := 7 }),
      ((0x01308140, 0x11070747, 0x0), .laneSel { f0 with vd := 8, va := 20, vb := 17, vc := 7, mr := 3, ms := 1, bsel := 1, ty := 7 }),
      ((0x01408000, 0x11000747, 0x0), .laneMov { f0 with vd := 8, vb := 17, mr := 3, ms := 1, bsel := 1, ty := 7 }),
      ((0x01505140, 0x11040747, 0x0), .laneCmp { f0 with vd := 5, va := 20, vb := 17, vc := 4, mr := 3, ms := 1, bsel := 1, ty := 7 }),
      ((0x01608146, 0x11000747, 0x0), .laneDiv { f0 with vd := 8, va := 20, vb := 17, la := 6, mr := 3, ms := 1, bsel := 1, ty := 7 }),
      ((0x01708146, 0x11000747, 0x0), .laneRem { f0 with vd := 8, va := 20, vb := 17, la := 6, mr := 3, ms := 1, bsel := 1, ty := 7 }),
      ((0x01808140, 0x00000707, 0x0), .laneBswap { f0 with vd := 8, va := 20, mr := 3, ms := 1, ty := 7 }),
      ((0x01908140, 0x00000707, 0x0), .laneBrev { f0 with vd := 8, va := 20, mr := 3, ms := 1, ty := 7 })] :
    List ((Nat × Nat × Nat) × Instr)), (decodeLane p.1.1 p.1.2.1 p.1.2.2).toOption = some p.2 := by decide +kernel

/-- Words of the f32 lane instructions (class 0x1, R56–R68). -/
theorem test_decode_lane_class_1 : ∀ p ∈ ([((0x10008140, 0x1100874A, 0x0), .laneAddF32 { f0 with vd := 8, va := 20, vb := 17, rnd := 4, mr := 3, ms := 1, bsel := 1, ty := 10 }),
      ((0x10108140, 0x1100874A, 0x0), .laneSubF32 { f0 with vd := 8, va := 20, vb := 17, rnd := 4, mr := 3, ms := 1, bsel := 1, ty := 10 }),
      ((0x10208140, 0x1100874A, 0x0), .laneMulF32 { f0 with vd := 8, va := 20, vb := 17, rnd := 4, mr := 3, ms := 1, bsel := 1, ty := 10 }),
      ((0x10308140, 0x111E874A, 0x0), .laneFmaF32 { f0 with vd := 8, va := 20, vb := 17, vc := 30, rnd := 4, mr := 3, ms := 1, bsel := 1, ty := 10 }),
      ((0x10408140, 0x1100874A, 0x0), .laneMinF32 { f0 with vd := 8, va := 20, vb := 17, rnd := 4, mr := 3, ms := 1, bsel := 1, ty := 10 }),
      ((0x10508140, 0x1100874A, 0x0), .laneMaxF32 { f0 with vd := 8, va := 20, vb := 17, rnd := 4, mr := 3, ms := 1, bsel := 1, ty := 10 }),
      ((0x10608140, 0x0000870A, 0x0), .laneAbsF32 { f0 with vd := 8, va := 20, rnd := 4, mr := 3, ms := 1, ty := 10 }),
      ((0x10708140, 0x0000870A, 0x0), .laneNegF32 { f0 with vd := 8, va := 20, rnd := 4, mr := 3, ms := 1, ty := 10 }),
      ((0x10805140, 0x1104874A, 0x0), .laneCmpF32 { f0 with vd := 5, va := 20, vb := 17, vc := 4, rnd := 4, mr := 3, ms := 1, bsel := 1, ty := 10 }),
      ((0x10908140, 0x0000870A, 0x0), .laneRintF32 { f0 with vd := 8, va := 20, rnd := 4, mr := 3, ms := 1, ty := 10 }),
      ((0x10A08140, 0x1100874A, 0x0), .laneCopysignF32 { f0 with vd := 8, va := 20, vb := 17, rnd := 4, mr := 3, ms := 1, bsel := 1, ty := 10 })] :
    List ((Nat × Nat × Nat) × Instr)), (decodeLane p.1.1 p.1.2.1 p.1.2.2).toOption = some p.2 := by decide +kernel

/-- Words of the packed lane instructions (class 0x2, R56–R68). -/
theorem test_decode_lane_class_2 : ∀ p ∈ ([((0x20008140, 0x11008749, 0x0), .laneAddPacked { f0 with vd := 8, va := 20, vb := 17, rnd := 4, mr := 3, ms := 1, bsel := 1, ty := 9 }),
      ((0x20108140, 0x11008749, 0x0), .laneSubPacked { f0 with vd := 8, va := 20, vb := 17, rnd := 4, mr := 3, ms := 1, bsel := 1, ty := 9 }),
      ((0x20208140, 0x11008749, 0x0), .laneMulPacked { f0 with vd := 8, va := 20, vb := 17, rnd := 4, mr := 3, ms := 1, bsel := 1, ty := 9 }),
      ((0x20308140, 0x111E8749, 0x0), .laneFmaPacked { f0 with vd := 8, va := 20, vb := 17, vc := 30, rnd := 4, mr := 3, ms := 1, bsel := 1, ty := 9 }),
      ((0x20408140, 0x11008749, 0x0), .laneMinPacked { f0 with vd := 8, va := 20, vb := 17, rnd := 4, mr := 3, ms := 1, bsel := 1, ty := 9 }),
      ((0x20508140, 0x11008749, 0x0), .laneMaxPacked { f0 with vd := 8, va := 20, vb := 17, rnd := 4, mr := 3, ms := 1, bsel := 1, ty := 9 }),
      ((0x20608140, 0x00008709, 0x0), .laneAbsPacked { f0 with vd := 8, va := 20, rnd := 4, mr := 3, ms := 1, ty := 9 }),
      ((0x20708140, 0x00008709, 0x0), .laneNegPacked { f0 with vd := 8, va := 20, rnd := 4, mr := 3, ms := 1, ty := 9 }),
      ((0x20805140, 0x11048749, 0x0), .laneCmpPacked { f0 with vd := 5, va := 20, vb := 17, vc := 4, rnd := 4, mr := 3, ms := 1, bsel := 1, ty := 9 }),
      ((0x20908140, 0x00008709, 0x0), .laneRintPacked { f0 with vd := 8, va := 20, rnd := 4, mr := 3, ms := 1, ty := 9 }),
      ((0x20A08140, 0x11008749, 0x0), .laneCopysignPacked { f0 with vd := 8, va := 20, vb := 17, rnd := 4, mr := 3, ms := 1, bsel := 1, ty := 9 })] :
    List ((Nat × Nat × Nat) × Instr)), (decodeLane p.1.1 p.1.2.1 p.1.2.2).toOption = some p.2 := by decide +kernel

/-- Words of the f64 lane instructions (class 0x3, R56–R68). -/
theorem test_decode_lane_class_3 : ∀ p ∈ ([((0x30008140, 0x1100874B, 0x0), .laneAddF64 { f0 with vd := 8, va := 20, vb := 17, rnd := 4, mr := 3, ms := 1, bsel := 1, ty := 11 }),
      ((0x30108140, 0x1100874B, 0x0), .laneSubF64 { f0 with vd := 8, va := 20, vb := 17, rnd := 4, mr := 3, ms := 1, bsel := 1, ty := 11 }),
      ((0x30208140, 0x1100874B, 0x0), .laneMulF64 { f0 with vd := 8, va := 20, vb := 17, rnd := 4, mr := 3, ms := 1, bsel := 1, ty := 11 }),
      ((0x30308140, 0x111E874B, 0x0), .laneFmaF64 { f0 with vd := 8, va := 20, vb := 17, vc := 30, rnd := 4, mr := 3, ms := 1, bsel := 1, ty := 11 }),
      ((0x30408140, 0x1100874B, 0x0), .laneMinF64 { f0 with vd := 8, va := 20, vb := 17, rnd := 4, mr := 3, ms := 1, bsel := 1, ty := 11 }),
      ((0x30508140, 0x1100874B, 0x0), .laneMaxF64 { f0 with vd := 8, va := 20, vb := 17, rnd := 4, mr := 3, ms := 1, bsel := 1, ty := 11 }),
      ((0x30608140, 0x0000870B, 0x0), .laneAbsF64 { f0 with vd := 8, va := 20, rnd := 4, mr := 3, ms := 1, ty := 11 }),
      ((0x30708140, 0x0000870B, 0x0), .laneNegF64 { f0 with vd := 8, va := 20, rnd := 4, mr := 3, ms := 1, ty := 11 }),
      ((0x30805140, 0x1104874B, 0x0), .laneCmpF64 { f0 with vd := 5, va := 20, vb := 17, vc := 4, rnd := 4, mr := 3, ms := 1, bsel := 1, ty := 11 }),
      ((0x30908140, 0x0000870B, 0x0), .laneRintF64 { f0 with vd := 8, va := 20, rnd := 4, mr := 3, ms := 1, ty := 11 }),
      ((0x30A08140, 0x1100874B, 0x0), .laneCopysignF64 { f0 with vd := 8, va := 20, vb := 17, rnd := 4, mr := 3, ms := 1, bsel := 1, ty := 11 }),
      ((0x30B08146, 0x1100874B, 0x0), .laneDivF64 { f0 with vd := 8, va := 20, vb := 17, la := 6, rnd := 4, mr := 3, ms := 1, bsel := 1, ty := 11 }),
      ((0x30C08146, 0x0000870B, 0x0), .laneSqrtF64 { f0 with vd := 8, va := 20, la := 6, rnd := 4, mr := 3, ms := 1, ty := 11 })] :
    List ((Nat × Nat × Nat) × Instr)), (decodeLane p.1.1 p.1.2.1 p.1.2.2).toOption = some p.2 := by decide +kernel

/-- Words of the conversion lane instructions (class 0x4, R56–R68). -/
theorem test_decode_lane_class_4 : ∀ p ∈ ([((0x40008140, 0x0004970A, 0x0), .cvt { f0 with vd := 8, va := 20, vc := 4, rnd := 4, sat := 1, mr := 3, ms := 1, ty := 10 }),
      ((0x40108150, 0x11009748, 0x0), .pack { f0 with vd := 8, va := 21, vb := 17, rnd := 4, sat := 1, mr := 3, ms := 1, bsel := 1, ty := 8 }),
      ((0x40208140, 0x000A970C, 0x0), .qpack { f0 with vd := 8, va := 20, vc := 10, rnd := 4, sat := 1, mr := 3, ms := 1, ty := 12 }),
      ((0x40308150, 0x11019745, 0x0), .unpack { f0 with vd := 8, va := 21, vb := 17, vc := 1, rnd := 4, sat := 1, mr := 3, ms := 1, bsel := 1, ty := 5 })] :
    List ((Nat × Nat × Nat) × Instr)), (decodeLane p.1.1 p.1.2.1 p.1.2.2).toOption = some p.2 := by decide +kernel

/-- Words of the dot product lane instructions (class 0x5, R56–R68). -/
theorem test_decode_lane_class_5 : ∀ p ∈ ([((0x50008140, 0x111E074D, 0x0), .dp8x4 { f0 with vd := 8, va := 20, vb := 17, vc := 30, mr := 3, ms := 1, bsel := 1, ty := 13 }),
      ((0x50108140, 0x111E074F, 0x0), .dp4x8 { f0 with vd := 8, va := 20, vb := 17, vc := 30, mr := 3, ms := 1, bsel := 1, ty := 15 }),
      ((0x50208140, 0x111E0749, 0x0), .dp16x2 { f0 with vd := 8, va := 20, vb := 17, vc := 30, mr := 3, ms := 1, bsel := 1, ty := 9 })] :
    List ((Nat × Nat × Nat) × Instr)), (decodeLane p.1.1 p.1.2.1 p.1.2.2).toOption = some p.2 := by decide +kernel

/-- Words of the approximation lane instructions (class 0x6, R56–R68). -/
theorem test_decode_lane_class_6 : ∀ p ∈ ([((0x60008146, 0x0000870A, 0x0), .rcp { f0 with vd := 8, va := 20, la := 6, rnd := 4, mr := 3, ms := 1, ty := 10 }),
      ((0x60108146, 0x0000870A, 0x0), .rsqrt { f0 with vd := 8, va := 20, la := 6, rnd := 4, mr := 3, ms := 1, ty := 10 }),
      ((0x60208146, 0x0000870A, 0x0), .laneSqrt { f0 with vd := 8, va := 20, la := 6, rnd := 4, mr := 3, ms := 1, ty := 10 }),
      ((0x60308146, 0x0000870A, 0x0), .exp2 { f0 with vd := 8, va := 20, la := 6, rnd := 4, mr := 3, ms := 1, ty := 10 }),
      ((0x60408146, 0x0000870A, 0x0), .log2 { f0 with vd := 8, va := 20, la := 6, rnd := 4, mr := 3, ms := 1, ty := 10 }),
      ((0x60508146, 0x0000870A, 0x0), .sin { f0 with vd := 8, va := 20, la := 6, rnd := 4, mr := 3, ms := 1, ty := 10 }),
      ((0x60608146, 0x0000870A, 0x0), .cos { f0 with vd := 8, va := 20, la := 6, rnd := 4, mr := 3, ms := 1, ty := 10 }),
      ((0x60708146, 0x0000870A, 0x0), .tanh { f0 with vd := 8, va := 20, la := 6, rnd := 4, mr := 3, ms := 1, ty := 10 }),
      ((0x60808146, 0x1100874A, 0x0), .laneDivF32 { f0 with vd := 8, va := 20, vb := 17, la := 6, rnd := 4, mr := 3, ms := 1, bsel := 1, ty := 10 })] :
    List ((Nat × Nat × Nat) × Instr)), (decodeLane p.1.1 p.1.2.1 p.1.2.2).toOption = some p.2 := by decide +kernel

/-- Words of the cross-lane lane instructions (class 0x7, R56–R68). -/
theorem test_decode_lane_class_7 : ∀ p ∈ ([((0x70008146, 0x11000747, 0x0), .shflIdx { f0 with vd := 8, va := 20, vb := 17, la := 6, mr := 3, ms := 1, bsel := 1, ty := 7 }),
      ((0x70108146, 0x11000747, 0x0), .shflUp { f0 with vd := 8, va := 20, vb := 17, la := 6, mr := 3, ms := 1, bsel := 1, ty := 7 }),
      ((0x70208146, 0x11000747, 0x0), .shflDown { f0 with vd := 8, va := 20, vb := 17, la := 6, mr := 3, ms := 1, bsel := 1, ty := 7 }),
      ((0x70308146, 0x11000747, 0x0), .shflXor { f0 with vd := 8, va := 20, vb := 17, la := 6, mr := 3, ms := 1, bsel := 1, ty := 7 }),
      ((0x70408146, 0x0000A70A, 0x0), .scanAdd { f0 with vd := 8, va := 20, la := 6, rnd := 5, mr := 3, ms := 1, ty := 10 }),
      ((0x70508146, 0x0000A70A, 0x0), .scanMin { f0 with vd := 8, va := 20, la := 6, rnd := 5, mr := 3, ms := 1, ty := 10 }),
      ((0x70608146, 0x0000A70A, 0x0), .scanMax { f0 with vd := 8, va := 20, la := 6, rnd := 5, mr := 3, ms := 1, ty := 10 }),
      ((0x70708146, 0x0000A70A, 0x0), .xscanAdd { f0 with vd := 8, va := 20, la := 6, rnd := 5, mr := 3, ms := 1, ty := 10 }),
      ((0x70808146, 0x0000A70A, 0x0), .redAdd { f0 with vd := 8, va := 20, la := 6, rnd := 5, mr := 3, ms := 1, ty := 10 }),
      ((0x70908146, 0x0000A70A, 0x0), .redMin { f0 with vd := 8, va := 20, la := 6, rnd := 5, mr := 3, ms := 1, ty := 10 }),
      ((0x70A08146, 0x0000A70A, 0x0), .redMax { f0 with vd := 8, va := 20, la := 6, rnd := 5, mr := 3, ms := 1, ty := 10 }),
      ((0x70B08146, 0x00000707, 0x0), .redAnd { f0 with vd := 8, va := 20, la := 6, mr := 3, ms := 1, ty := 7 }),
      ((0x70C08146, 0x00000707, 0x0), .redOr { f0 with vd := 8, va := 20, la := 6, mr := 3, ms := 1, ty := 7 }),
      ((0x70D29146, 0x0000A70A, 0x0), .vredAdd { f0 with vd := 41, va := 20, la := 6, rnd := 5, mr := 3, ms := 1, ty := 10 }),
      ((0x70E29146, 0x0000A70A, 0x0), .vredMin { f0 with vd := 41, va := 20, la := 6, rnd := 5, mr := 3, ms := 1, ty := 10 }),
      ((0x70F29146, 0x0000A70A, 0x0), .vredMax { f0 with vd := 41, va := 20, la := 6, rnd := 5, mr := 3, ms := 1, ty := 10 }),
      ((0x71005146, 0x00000700, 0x0), .vany { f0 with vd := 5, va := 20, la := 6, mr := 3, ms := 1 }),
      ((0x71105146, 0x00000700, 0x0), .vall { f0 with vd := 5, va := 20, la := 6, mr := 3, ms := 1 }),
      ((0x71229146, 0x00000707, 0x0), .rfl { f0 with vd := 41, va := 20, la := 6, mr := 3, ms := 1, ty := 7 })] :
    List ((Nat × Nat × Nat) × Instr)), (decodeLane p.1.1 p.1.2.1 p.1.2.2).toOption = some p.2 := by decide +kernel

/-- Words of the global memory lane instructions (class 0x8, R56–R68). -/
theorem test_decode_lane_class_8 : ∀ p ∈ ([((0x80008216, 0x79007707, 0xFFFFFFF0), .ldGlobal { f0 with vd := 8, va := 33, vb := 121, la := 6, rnd := 3, sat := 1, mr := 3, ms := 1, ty := 7, w2 := 0xFFFFFFF0 }),
      ((0x80100210, 0x790B7717, 0xFFFFFFF0), .stGlobal { f0 with va := 33, vb := 121, vc := 11, rnd := 3, sat := 1, mr := 3, ms := 1, csel := 1, ty := 7, w2 := 0xFFFFFFF0 }),
      ((0x80208216, 0x79007700, 0xFFFFFFF0), .ldB128Global { f0 with vd := 8, va := 33, vb := 121, la := 6, rnd := 3, sat := 1, mr := 3, ms := 1, w2 := 0xFFFFFFF0 }),
      ((0x80300210, 0x790C7700, 0xFFFFFFF0), .stB128Global { f0 with va := 33, vb := 121, vc := 12, rnd := 3, sat := 1, mr := 3, ms := 1, w2 := 0xFFFFFFF0 })] :
    List ((Nat × Nat × Nat) × Instr)), (decodeLane p.1.1 p.1.2.1 p.1.2.2).toOption = some p.2 := by decide +kernel

/-- Words of the scratch memory lane instructions (class 0x9, R56–R68). -/
theorem test_decode_lane_class_9 : ∀ p ∈ ([((0x90008216, 0x70007707, 0xFFFFFFF0), .ldScratch { f0 with vd := 8, va := 33, vb := 112, la := 6, rnd := 3, sat := 1, mr := 3, ms := 1, ty := 7, w2 := 0xFFFFFFF0 }),
      ((0x90100210, 0x700B7717, 0xFFFFFFF0), .stScratch { f0 with va := 33, vb := 112, vc := 11, rnd := 3, sat := 1, mr := 3, ms := 1, csel := 1, ty := 7, w2 := 0xFFFFFFF0 }),
      ((0x90208216, 0x70007700, 0xFFFFFFF0), .ldB128Scratch { f0 with vd := 8, va := 33, vb := 112, la := 6, rnd := 3, sat := 1, mr := 3, ms := 1, w2 := 0xFFFFFFF0 }),
      ((0x90300210, 0x700C7700, 0xFFFFFFF0), .stB128Scratch { f0 with va := 33, vb := 112, vc := 12, rnd := 3, sat := 1, mr := 3, ms := 1, w2 := 0xFFFFFFF0 })] :
    List ((Nat × Nat × Nat) × Instr)), (decodeLane p.1.1 p.1.2.1 p.1.2.2).toOption = some p.2 := by decide +kernel

/-- Words of the private memory lane instructions (class 0xa, R56–R68). -/
theorem test_decode_lane_class_10 : ∀ p ∈ ([((0xA0008216, 0x70007707, 0xFFFFFFF0), .ldPrivate { f0 with vd := 8, va := 33, vb := 112, la := 6, rnd := 3, sat := 1, mr := 3, ms := 1, ty := 7, w2 := 0xFFFFFFF0 }),
      ((0xA0100210, 0x700B7717, 0xFFFFFFF0), .stPrivate { f0 with va := 33, vb := 112, vc := 11, rnd := 3, sat := 1, mr := 3, ms := 1, csel := 1, ty := 7, w2 := 0xFFFFFFF0 }),
      ((0xA0208216, 0x70007700, 0xFFFFFFF0), .ldB128Private { f0 with vd := 8, va := 33, vb := 112, la := 6, rnd := 3, sat := 1, mr := 3, ms := 1, w2 := 0xFFFFFFF0 }),
      ((0xA0300210, 0x700C7700, 0xFFFFFFF0), .stB128Private { f0 with va := 33, vb := 112, vc := 12, rnd := 3, sat := 1, mr := 3, ms := 1, w2 := 0xFFFFFFF0 })] :
    List ((Nat × Nat × Nat) × Instr)), (decodeLane p.1.1 p.1.2.1 p.1.2.2).toOption = some p.2 := by decide +kernel

/-- Words of the atomic lane instructions (class 0xb, R56–R68). -/
theorem test_decode_lane_class_11 : ∀ p ∈ ([((0xB8008216, 0x790B871B, 0xFFFFFFF0), .laneAadd { f0 with vd := 8, va := 33, vb := 121, vc := 11, la := 6, rnd := 4, mr := 3, ms := 1, csel := 1, ty := 11, w2 := 0xFFFFFFF0, ord := 2 }),
      ((0xB8108216, 0x790B871A, 0xFFFFFFF0), .laneAmin { f0 with vd := 8, va := 33, vb := 121, vc := 11, la := 6, rnd := 4, mr := 3, ms := 1, csel := 1, ty := 10, w2 := 0xFFFFFFF0, ord := 2 }),
      ((0xB8208216, 0x790B871A, 0xFFFFFFF0), .laneAmax { f0 with vd := 8, va := 33, vb := 121, vc := 11, la := 6, rnd := 4, mr := 3, ms := 1, csel := 1, ty := 10, w2 := 0xFFFFFFF0, ord := 2 }),
      ((0xB8308216, 0x790B8717, 0xFFFFFFF0), .laneAand { f0 with vd := 8, va := 33, vb := 121, vc := 11, la := 6, rnd := 4, mr := 3, ms := 1, csel := 1, ty := 7, w2 := 0xFFFFFFF0, ord := 2 }),
      ((0xB8408216, 0x790B8717, 0xFFFFFFF0), .laneAor { f0 with vd := 8, va := 33, vb := 121, vc := 11, la := 6, rnd := 4, mr := 3, ms := 1, csel := 1, ty := 7, w2 := 0xFFFFFFF0, ord := 2 }),
      ((0xB8508216, 0x790B8717, 0xFFFFFFF0), .laneAxor { f0 with vd := 8, va := 33, vb := 121, vc := 11, la := 6, rnd := 4, mr := 3, ms := 1, csel := 1, ty := 7, w2 := 0xFFFFFFF0, ord := 2 }),
      ((0xB8608216, 0x790B8717, 0xFFFFFFF0), .laneAxchg { f0 with vd := 8, va := 33, vb := 121, vc := 11, la := 6, rnd := 4, mr := 3, ms := 1, csel := 1, ty := 7, w2 := 0xFFFFFFF0, ord := 2 }),
      ((0xB8708216, 0x790B8717, 0xFFFFFFF0), .laneAcas { f0 with vd := 8, va := 33, vb := 121, vc := 11, la := 6, rnd := 4, mr := 3, ms := 1, csel := 1, ty := 7, w2 := 0xFFFFFFF0, ord := 2 }),
      ((0xB8808216, 0x790B871A, 0xFFFFFFF0), .amaxabs { f0 with vd := 8, va := 33, vb := 121, vc := 11, la := 6, rnd := 4, mr := 3, ms := 1, csel := 1, ty := 10, w2 := 0xFFFFFFF0, ord := 2 })] :
    List ((Nat × Nat × Nat) × Instr)), (decodeLane p.1.1 p.1.2.1 p.1.2.2).toOption = some p.2 := by decide +kernel

/-- Words of the view lane instructions (class 0xc, R56–R68). -/
theorem test_decode_lane_class_12 : ∀ p ∈ ([((0xC0008156, 0x11070740, 0x0), .ldv { f0 with vd := 8, va := 21, vb := 17, vc := 7, la := 6, mr := 3, ms := 1, bsel := 1 })] :
    List ((Nat × Nat × Nat) × Instr)), (decodeLane p.1.1 p.1.2.1 p.1.2.2).toOption = some p.2 := by decide +kernel

/-- Words of the control lane instructions (class 0xd, R56–R68). -/
theorem test_decode_lane_class_13 : ∀ p ∈ ([((0xD0000000, 0x00000700, 0xFFFFFFE8), .bra { f0 with mr := 3, ms := 1, w2 := 0xFFFFFFE8 }),
      ((0xD0100060, 0x00000000, 0x0), .join { f0 with va := 6 }), ((0xD0200000, 0x00000000, 0x0), .lpause f0),
      ((0xD0300000, 0x00000000, 0x0), .lstop f0),
      ((0xD0405060, 0x02000700, 0x0), .mand { f0 with vd := 5, va := 6, vb := 2, mr := 3, ms := 1 }),
      ((0xD0505060, 0x02000700, 0x0), .mor { f0 with vd := 5, va := 6, vb := 2, mr := 3, ms := 1 }),
      ((0xD0605060, 0x02000700, 0x0), .mxor { f0 with vd := 5, va := 6, vb := 2, mr := 3, ms := 1 }),
      ((0xD0705060, 0x02000700, 0x0), .mandn { f0 with vd := 5, va := 6, vb := 2, mr := 3, ms := 1 }),
      ((0xD0808060, 0x00000700, 0x0), .mtov { f0 with vd := 8, va := 6, mr := 3, ms := 1 }),
      ((0xD0905140, 0x00000700, 0x0), .vtom { f0 with vd := 5, va := 20, mr := 3, ms := 1 })] :
    List ((Nat × Nat × Nat) × Instr)), (decodeLane p.1.1 p.1.2.1 p.1.2.2).toOption = some p.2 := by decide +kernel

/-- The manual's own worked words (R74's table, the worked forms of R93, R102, R107–R109, R188–R190, R289, R290, R297, R298, R346, R353,
R361–R363 and the programs' tables of words). -/
theorem test_decode_examples : ∀ p ∈ ([(0x1A386020, .minN64Imm 7 3 32), (0x70082500, .xlt 1 1 10), (0x80000025, .lrun 37), (0x82000000, .lwait),
      (0x84000000, .lkill), (0x5660C000, .stB64 12 6 0), (0x52286000, .stB16 5 3 0), (0x54488000, .stB32 9 4 0), (0x381FFFF2, .bnz 3 0x7FFF2), (0x3630000D, .bz 6 13),
      (0x3E000000, .exit), (0x02106202, .cmp 2 3 4 0 2), (0x2348A064, .cmpN64Imm 5 1 5 100), (0x66212184, .aaddAr 1 4 9 3 4),
      (0x64006604, .aaddAr 0 0 3 12 4), (0x662121CC, .acasAr 1 4 9 3 4), (0x58293100, .ldAcq 5 9 4 1), (0x5A293100, .stRel 5 9 4 1),
      (0x5C000014, .fence 2 4), (0xC0000000, .wgbar), (0xC6000000, .yield), (0xC8400001, .srd 8 1), (0xC870000F, .srd 14 15), (0x90082000, .vset 1 1),
      (0x92080000, .vdrop 1), (0x94482002, .vqry 9 1 2), (0x0838DFFF, .addImm 7 6 0x1FFF), (0x10386001, .shlImm 7 3 1), (0x00514100, .add 10 10 2),
      (0xD8004000, .cdclr 2), (0xD6704004, .cdctr 14 2 4), (0xD0582500, .frz 11 1 10), (0xD2A06200, .thaw 20 3 4), (0xD4016000, .tkwt 11),
      (0xE2000000, .tret), (0xA0002000, .mma 1), (0xA2000880, .accz 0 17), (0xA420A300, .accld 4 5 6), (0xA6180880, .accst 3 0 17 0),
      (0xA6180881, .accst 3 0 17 1), (0xB0014000, .cpy 10 0), (0xB4012001, .cpyg 9 1), (0xB2010002, .cpy2d 8 2), (0xB6000003, .cpwait 3), (0xB8280003, .cpstat 5 3), (0xBA600005, .cpcont 3 5)] :
    List (Nat × Instr)), (decodeStoker p.1 0 0).toOption = some p.2 := by decide +kernel

/-- Literals of the worked words: 2^38, 0x4500 and 0x4028100000000000 (R48, R74). -/
theorem test_decode_literals : (decodeStoker 0xFE000000 0x02000000 0x08080000).toOption = some (.slit (2 ^ 38) 4 1 0) ∧
    (decodeStoker 0xFE000000 2 0x08280500).toOption = some (.slit 0x4500 4 5 0) ∧
    (decodeStoker 0xFE020140 0x80000000 0x08280000).toOption = some (.slit 0x4028100000000000 4 5 0) := by decide +kernel

/-- The manual's own worked lane words (R149, R167, R169, R170, R181 and the programs' tables of words). -/
theorem test_decode_lane_examples : ∀ p ∈ ([
      ((0x01401000, 0x000000C5, 0), .laneMov { f0 with vd := 1, bsel := 3, ty := 5 }),
      ((0x01501010, 0x07020045, 0), .laneCmp { f0 with vd := 1, va := 1, vb := 7, bsel := 1, vc := 2, ty := 5 }),
      ((0x80003021, 0x51000203, 0), .ldGlobal { f0 with vd := 3, va := 2, la := 1, vb := 0x51, mr := 1, ty := 3 }),
      ((0xD0300000, 0, 0), .lstop f0),
      ((0x00005030, 0x04001004, 0), .laneAdd { f0 with vd := 5, va := 3, vb := 4, sat := 1, ty := 4 }),
      ((0x00002010, 0x00000084, 0x64), .laneAdd { f0 with vd := 2, va := 1, bsel := 2, ty := 4, w2 := 100 }),
      ((0x90100010, 0x60023005, 0x40), .stScratch { f0 with va := 1, vb := 0x60, vc := 2, rnd := 1, sat := 1, ty := 5, w2 := 64 }),
      ((0xBC006010, 0x6205800A, 0), .laneAadd { f0 with vd := 6, va := 1, vb := 0x62, vc := 5, rnd := 4, ord := 3, ty := 10 }),
      ((0xB0807000, 0x0302000A, 0), .amaxabs { f0 with vd := 7, vb := 3, vc := 2, ty := 10 }),
      ((0xC0005040, 0x02010000, 0), .ldv { f0 with vd := 5, va := 4, vb := 2, vc := 1 }),
      ((0x70104030, 0x00000285, 1), .shflUp { f0 with vd := 4, va := 3, bsel := 2, mr := 1, ty := 5, w2 := 1 }),
      ((0x80004010, 0x41000401, 0xFFFFFFFF), .ldGlobal { f0 with vd := 4, va := 1, vb := 0x41, mr := 2, ty := 1, w2 := 0xFFFFFFFF }),
      ((0xD0402060, 0x03000000, 0), .mand { f0 with vd := 2, va := 6, vb := 3 }),
      ((0x70707060, 0x00000205, 0), .xscanAdd { f0 with vd := 7, va := 6, mr := 1, ty := 5 }),
      ((0x712090E0, 0x00000005, 0), .rfl { f0 with vd := 9, va := 14, ty := 5 }),
      ((0xD0000000, 0x00000200, 0xFFFFFFD0), .bra { f0 with mr := 1, w2 := 0xFFFFFFD0 }),
      ((0xA0100030, 0x60060005, 0), .stPrivate { f0 with va := 3, vb := 0x60, vc := 6, ty := 5 }),
      ((0x80100000, 0x02029C05, 0), .stGlobal { f0 with vb := 2, vc := 2, rnd := 4, sat := 1, mr := 6, ty := 5 }),
      ((0x80003000, 0x02009C05, 0), .ldGlobal { f0 with vd := 3, vb := 2, rnd := 4, sat := 1, mr := 6, ty := 5 })] :
    List ((Nat × Nat × Nat) × Instr)), (decodeLane p.1.1 p.1.2.1 p.1.2.2).toOption = some p.2 := by decide +kernel

/-! ### Ill-formed terms, one for each check of Legal.lean -/

/-- The codes of stoker fields that lie outside their values (R51–R53, R55, R69, R105, R289, R348, R48). -/
theorem test_wf_stoker : ∀ i ∈ ([.cmp 0 1 2 0 6, .cmpI64Imm 7 0 1 0, .cmpN64Imm 6 0 1 0, .ldAcq 1 2 6 0, .ldAcq 1 2 0 2, .stRel 1 2 0 3,
    .fence 0 1, .fence 1 6, .aaddAr 0 1 2 3 7, .acasAr 0 1 2 3 6, .xrd 1 2 3, .accst 1 2 3 3, .srd 1 0, .srd 1 0x12, .cdctr 1 2 5,
    .slit 0 0x18 1 2, .slit 0 0x27 1 2, .slit 0 0x10 48 2] : List Instr), i.wf = false := by decide +kernel

/-- A type the instruction does not take (R59, R66). -/
theorem test_wf_type : (Instr.laneAdd { f0 with ty := 10 }).wf = false := by decide +kernel

/-- Unused bits of the destination, va, vb and vc fields (R57, R64, R65, R67). -/
theorem test_wf_fields : ∀ i ∈ ([.stGlobal { f0 with vd := 1 }, .laneCmp { f0 with vd := 8, ty := 4 }, .rfl { f0 with vd := 64, ty := 5 },
    .laneMov { f0 with va := 1, ty := 5 }, .ldScratch { f0 with va := 1, ty := 5 }, .mand { f0 with va := 8 }, .laneAbs { f0 with vb := 1, ty := 4 },
    .mand { f0 with vb := 8 }, .ldGlobal { f0 with vb := 0x80, ty := 5 }, .ldScratch { f0 with vb := 1, ty := 5 },
    .laneAdd { f0 with bsel := 1, vb := 64, ty := 4 }, .laneAdd { f0 with bsel := 2, vb := 1, ty := 4 },
    .laneAdd { f0 with bsel := 3, vb := 0x12, ty := 4 }, .laneAdd { f0 with vc := 1, ty := 4 }, .laneCmp { f0 with vc := 6, ty := 4 },
    .laneCmpF32 { f0 with vc := 8, ty := 10 }, .laneSel { f0 with vc := 8, ty := 4 }, .cvt { f0 with vc := 16, ty := 4 },
    .stGlobal { f0 with csel := 2, ty := 5 }, .stB128Global { f0 with csel := 1 }] : List Instr), i.wf = false := by decide +kernel

/-- Rounding, saturate and word 2 where they have no use (R57, R60, R61, R67). -/
theorem test_wf_modifiers : ∀ i ∈ ([.laneAdd { f0 with rnd := 1, ty := 4 }, .laneAddF32 { f0 with rnd := 6, ty := 10 },
    .redAdd { f0 with rnd := 1, ty := 4 }, .ldGlobal { f0 with rnd := 1, ty := 5 }, .laneAadd { f0 with rnd := 1, ty := 5 },
    .laneMin { f0 with sat := 1, ty := 4 }, .laneAdd { f0 with sat := 1, ty := 6 }, .laneAdd { f0 with w2 := 1, ty := 4 },
    .bra { f0 with w2 := 8 }, .laneMad { f0 with bsel := 2, csel := 2, ty := 4 }] : List Instr), i.wf = false := by decide +kernel

/-- Lookahead of a short-latency instruction, order bits outside class 0xB, misaligned pairs, v255, conversion pairs and mask prefixes
(R37, R61, R62, R65, R68, R153–R155). -/
theorem test_wf_registers : ∀ i ∈ ([.laneAdd { f0 with la := 1, ty := 4 }, .laneAdd { f0 with ord := 1, ty := 4 },
    .ldGlobal { f0 with sp := 1, ty := 5 }, .laneAdd { f0 with vd := 1, ty := 6 }, .laneAdd { f0 with vd := 255, ty := 4 },
    .qpack { f0 with vc := 10, ty := 14 }, .unpack { f0 with vc := 4, ty := 4 }, .join { f0 with mr := 1 }, .lstop { f0 with ms := 1 }] :
    List Instr), i.wf = false := by decide +kernel

/-! ### The hypotheses of the statements are met

One theorem `test_hyp_<statement>` for each statement with hypotheses: small states and operands, at the ends of the ranges where a
clause has one. -/

/-- A device with the group `placeGroup` and its stoker issuing; virtual page 0 is mapped at 0x20000. -/
def s0 : State := { State.reset.placeCode false [] with cur := some (.stoker 0) }
/-- The same with the first split of its executing block issuing. -/
def l0 : State := { State.reset.placeCode true [] with cur := some (.lane 0 0) }
def g0 : Machine.Group := placeGroup false
def gl : Machine.Group := placeGroup true
/-- The state with another group in place of the one. -/
def on (g : Machine.Group) : State := { s0 with groups := [(0, g)] }
def val (n : Nat) : SReg := ⟨BitVec.ofNat 64 n, false⟩
def lost : SReg := ⟨0, true⟩
/-- The group with s1 and s2 given. -/
def regs (a b : SReg) : Machine.Group := { g0 with s := [(1, a), (2, b)] }
/-- The state with a translation of page 0 whose leaf is given in place of the tables' (R236). -/
def page (leaf : Nat) (s : State := s0) : State :=
  { s with tlb := [{ last := false, unit := 0, ctx := 0, va := 0, leaf := BitVec.ofNat 64 leaf, pgsz := 0, leafPa := 0x1C100 }] }
/-- A write of the group's stoker (block 0) or of a block of its on the way. -/
def way (blk : Nat) : Pend :=
  { id := 1, key := physKey 0x21000, ctx := 0, owner := some (0, 0), arrived := false, issued := 0, va := 0x1000, blk := blk, acq := false,
    kind := .store 0x21000 [0x55] false }
/-- An atomic of the group's stoker whose result s1 has not come. -/
def atomWay : Pend := { way 0 with kind := .atomic 0x21000 4 0 5 1 0 (.scalar 1 false) }
def frame : HFrame :=
  { s := [(1, val 3)], c := 0, b := [], mode := 1, spc := 0x40, m1 := 0, v := [(0, ⟨7, false⟩)], blocks := [], slot0 := none, slot1 := none,
    spilled := [], last := 1, kern := placeKern, cause := { code := 0x05 } }
/-- The group in a handler. -/
def gh : Machine.Group := { g0 with hnd := some frame }

def passed : Chk → Bool
  | .ok _ => true
  | _ => false
/-- The code of a trap that ends a check. -/
def codeOf : Chk → Nat
  | .trap t => t.code
  | _ => 0
/-- A translation that is found, with a property. -/
def found (r : TrRes) (p : Tr → Bool) : Bool :=
  match r with
  | .ok t => p t
  | _ => false
/-- A translation that finds an absent entry, or an illegal walk (malformed or not). -/
def absentAt (r : TrRes) (e : W64) : Bool :=
  match r with
  | .absent x => x == e
  | _ => false
def illegalWalk (r : TrRes) (malf : Bool) : Bool :=
  match r with
  | .illegal m => m == malf
  | _ => false
/-- The outcome of the checks of a scalar access of the group in place. -/
def chk (s : State) (a : AccK) (va : W64) (n : Nat) : Chk := (s.chkScalar 0 g0 a va n).2
/-- The checks of an access pass. -/
def ok (s : State) (a : AccK) (va : W64) (n : Nat) : Bool := passed (chk s a va n)
/-- The bytes a device read of the group gives, none where it traps or waits. -/
def got (s : State) (va : W64) (n : Nat) : Option (List Byte × Bool) :=
  match (s.readRange 0 g0 va n).2 with
  | .inl b => b
  | .inr _ => none
/-- The code of the trap a device read of the group ends in, or 0. -/
def gotTrap (s : State) (va : W64) (n : Nat) : Nat :=
  match (s.readRange 0 g0 va n).2 with
  | .inl _ => 0
  | .inr t => t.code

/-- A stoker issues, whatever its group holds: the hypothesis of AluRegister, BitCounts, Csel, Slit and TranslationReads. -/
theorem stoker_at (g : Machine.Group) : (on g).stokerAt 0 g := ⟨rfl, rfl⟩

theorem test_hyp_AluRegister : s0.stokerAt 0 g0 := ⟨rfl, rfl⟩
theorem test_hyp_BitCounts : s0.stokerAt 0 g0 ∧ 0x14 ≤ 0x17 ∧ 0 < 63 ∧ 63 < 64 := ⟨⟨rfl, rfl⟩, by decide⟩
theorem test_hyp_Csel : s0.stokerAt 0 g0 ∧ 0 < 15 ∧ 15 < 16 := ⟨⟨rfl, rfl⟩, by decide⟩
theorem test_hyp_TranslationReads : s0.stokerAt 0 g0 ∧ (2 : BitVec 2) ≠ 3 := ⟨⟨rfl, rfl⟩, by decide⟩

/-- The count is 63, 64 or the largest. -/
theorem test_hyp_Shifts : ∀ n ∈ [63, 64, 2 ^ 64 - 1],
    (on (regs (val 1) (val n))).stokerAt 0 (regs (val 1) (val n)) ∧ ((regs (val 1) (val n)).sGet 2).pz = false :=
  fun _ _ => ⟨⟨rfl, rfl⟩, rfl⟩

/-- Each relation with clean sources, and each poisoned source. -/
theorem test_hyp_Compare : (on (regs (val 1) (val 2))).stokerAt 0 (regs (val 1) (val 2)) ∧ (∀ cc : BitVec 3, cc = 0 ∨ cc = 5 → cc.toNat < 6) ∧
    ((regs (val 1) (val 2)).sGet 1).pz = false ∧ ((regs (val 1) (val 2)).sGet 2).pz = false ∧ ((regs lost lost).sGet 1).pz = true ∧
    ((regs lost lost).sGet 2).pz = true := by refine ⟨⟨rfl, rfl⟩, ?_⟩; decide

theorem test_hyp_Slit : s0.stokerAt 0 g0 ∧ (g0.sGet 1).pz = false ∧ (5 : BitVec 3).toNat < 6 ∧ ((regs lost lost).sGet 1).pz = true :=
  ⟨⟨rfl, rfl⟩, by decide⟩

/-- Targets at both ends of the code, beyond it and misaligned; both values of the condition and of the tested register. -/
theorem test_hyp_Transfers : s0.stokerAt 0 g0 ∧ g0.inCode 0 ∧ g0.inCode 4092 ∧ ¬ g0.inCode 4096 ∧ ¬ g0.inCode 2 ∧ (g0.sGet 1).pz = false ∧
    (g0.sGet 1).val = 0 ∧ ((regs (val 1) (val 0)).sGet 1).val ≠ 0 ∧ g0.cGet 3 = false ∧ ({ g0 with c := 8 } : Machine.Group).cGet 3 = true := by
  refine ⟨⟨rfl, rfl⟩, ?_⟩; unfold Group.inCode; decide

/-- A misaligned address, one that is not canonical, an absent entry, an illegal walk, and a translation that passes or ends each later
check. -/
theorem test_hyp_ScalarChecks :
    ((0x1001 : W64).toNat % 2 ≠ 0) ∧ canonical 0xFFFFFFFFFFFFFF0 = false ∧
    absentAt ((s0.pokeNat 0x1C100 8 0x40).translate 0 0 0x1000).2 0x40 ∧ illegalWalk (s0.translate 0 0 0x100000).2 false ∧
    illegalWalk ((s0.pokeNat 0x1C100 8 0x20000004F).translate 0 0 0x1000).2 true ∧
    ok s0 accLoad 0xFFF8 8 ∧ codeOf (chk (page 0x20000008) (accLoad) 0 8) = 6 ∧ codeOf (chk (page 0x2002000F) (accStore true) 0 8) = 8 ∧
    chk (page 0x2004000F) (accStore true) 0 8 = .wait ∧ codeOf (chk (page 0x2000008F) (accStore false) 0 4) = 9 ∧
    codeOf (chk { s0 with locks := [(0, { base := 0, len := 8, gslot := 0, dst := true, space := .glob, kind := 0, ctx := 0, wg := 0, gidx := 0, op := 1 })] }
      accLoad 0 8) = 10 := by decide +kernel

/-- A load passes, is answered, and its bytes can be read in memory. -/
def read1 (va : W64) (n : Nat) : Bool :=
  match s0.chkScalar 0 g0 accLoad va n with
  | (s1, .ok t) =>
    match s1.stokerRead 0 g0 t n, s1.readBytes 0 (tabD s1.ctxs 0 {}) (0, 0) t n with
    | (s2, some (b, z)), (_, some (b', _)) =>
      b.length == n && b == b' && !z && t.creg.isNone && s1.pend.isEmpty && s1.served.isEmpty &&
        (s1.l1Lines 0 (l1SetOf (physKey t.pa))).isEmpty && s2.poison.isEmpty && !s1.unanswered 0 g0 t
    | _, _ => false
  | _ => false

/-- A translation into another module's memory. -/
def farTr : Tr :=
  { pa := 3 * 2 ^ 50 + 0x21000, rd := true, wr := true, fst := 0, lcls := 0, cmpr := false, frzr := false, pgsz := 0, page := 0, left := 0xF000, leafPa := 0 }

/-- With every port down nothing of another module answers, whatever port a line hashes to. -/
theorem far_unanswered : s0.unanswered 0 g0 farTr = true := by
  unfold State.unanswered State.lostRead State.noAnswer State.portOf
  rw [show s0.livePorts = [] from rfl]
  simp only [Option.isNone_none, Bool.true_or, Bool.and_true]
  decide +kernel

/-- Loads of every width at the last places of the page, their bytes, a trap, and a load of another module with every port down. -/
theorem test_hyp_ScalarLoads : s0.stokerAt 0 g0 ∧ (g0.sGet 1).pz = false ∧ s0.recording g0.ctx = false ∧
    (∀ p ∈ [(0xFFFF, 1), (0xFFFE, 2), (0xFFFC, 4), (0xFFF8, 8)], ok s0 accLoad (BitVec.ofNat 64 p.1) p.2 ∧
      read1 (BitVec.ofNat 64 p.1) p.2) ∧ s0.unanswered 0 g0 farTr = true ∧ codeOf (chk s0 accLoad 0x100000 8) = 6 :=
  ⟨⟨rfl, rfl⟩, rfl, rfl, by decide +kernel, far_unanswered, by decide +kernel⟩

/-- Stores of every width that pass, a release that must wait, a line lent, a codec page, and a trap. -/
theorem test_hyp_ScalarStores : s0.stokerAt 0 g0 ∧ (g0.sGet 1).pz = false ∧
    (∀ p ∈ [(0xFFFF, 1), (0xFFFE, 2), (0xFFFC, 4), (0xFFF8, 8)], ok s0 (accStore (p.2 == 8)) (BitVec.ofNat 64 p.1) p.2) ∧
    s0.stokerPending (0, 0) 1 = false ∧ ({ s0 with pend := [way 0] } : State).stokerPending (0, 0) 4 = true ∧
    ok { s0 with pend := [way 0] } (accStore true) 0xFFF8 8 ∧ ok (page 0x2000008F) (accStore true) 0xFFF8 8 ∧
    s0.lentTo 0 (physKey 0x2FFF8) = false ∧ Memory.wf s0.mem = true ∧
    ({ s0 with homes := [(physKey 0x2FFF8, { lent := some 0 })] } : State).lentTo 0 (physKey 0x2FFF8) = true ∧
    codeOf (chk s0 (accStore true) 0x100000 8) = 6 := by refine ⟨⟨rfl, rfl⟩, ?_⟩; decide +kernel

/-- Both widths at the last places of the page, poisoned operands, an ordered form that waits, a line lent, and a trap. -/
theorem test_hyp_ScalarAtomics : s0.stokerAt 0 g0 ∧ (g0.sGet 1).pz = false ∧ ((regs lost lost).sGet 1).pz = true ∧
    (∀ op ∈ [0, 7], ok s0 (accAtomic false (pcieAtomic op 5)) 0xFFFC 4 ∧ ok s0 (accAtomic false (pcieAtomic op 7)) 0xFFF8 8) ∧
    ({ s0 with pend := [way 0] } : State).stokerPending g0.name 4 = true ∧ s0.stokerPending g0.name 4 = false ∧
    ({ s0 with pend := [atomWay] } : State).stokerReading g0.name = true ∧ s0.stokerReading g0.name = false ∧
    s0.lentTo 0 (physKey 0x2FFF8) = false ∧
    ({ s0 with homes := [(physKey 0x2FFF8, { lent := some 0 })] } : State).lentTo 0 (physKey 0x2FFF8) = true ∧
    s0.keyOf g0.name = some 0 ∧ s0.grp 0 = some g0 ∧ g0.hnd = none ∧ Memory.wf s0.mem = true ∧
    s0.poisoned 0x2FFF8 8 = false ∧ (tabD s0.cells (0x2FFF8 / 128) 0).toNat < 8 ∧ codeOf (chk s0 (accAtomic false true) 0x100000 8) = 6 := by
  refine ⟨⟨rfl, rfl⟩, ?_⟩; decide +kernel

theorem test_hyp_AlignmentFaults : (on (regs (val 1) (val 2))).stokerAt 0 (regs (val 1) (val 2)) ∧ ((regs (val 1) (val 2)).sGet 1).pz = false ∧
    ((regs (val 1) (val 2)).sGet 2).pz = false ∧ (∀ n ∈ [2, 4, 8], (1 + (0 : BitVec 13).signExtend 64 : W64).toNat % n ≠ 0) :=
  ⟨⟨rfl, rfl⟩, by decide⟩

/-- Poisoned operands; a base that is not canonical, one that no walk finds, one on a thawing page, and one whose page is read. -/
theorem test_hyp_TranslationRegisters : s0.stokerAt 0 g0 ∧ ((regs lost lost).sGet 1).pz = true ∧ (g0.sGet 1).pz = false ∧
    canonical 0x0100000000000000 = false ∧ canonical 0x00FFFFFFFFFFFFFF = true ∧ canonical 0xFFFFFFFFFFFFFFFF = true ∧
    illegalWalk (s0.translate 0 0 0x100000).2 false ∧ found ((page 0x2004000F).translate 0 0 0).2 (fun t => t.fst == 2) ∧
    found (s0.translate 0 0 0xFFF8).2 (fun t => t.fst != 2) := by refine ⟨⟨rfl, rfl⟩, ?_⟩; decide +kernel

/-- The group with blocks. -/
def blocks (l : List Block) : Machine.Group := { g0 with blocks := l }
def blk (id : Nat) (st : BlockSt) : Block := { id := id, start := 0, st := st, snap := {} }

/-- Labels at both ends; no block, the limit reached with and without a block to retire, a stopped block, one with an access on the way. -/
theorem test_hyp_LaneBlocks : s0.stokerAt 0 g0 ∧ g0.kern.lcinsts = 1024 ∧ (1024 : BitVec 25).toNat = 1024 ∧ g0.wBusy = [] ∧ g0.hnd = none ∧
    g0.blocks = [] ∧ (s0.retireOldest (blocks [blk 1 .stopped, blk 2 .executing])).isSome ∧
    s0.retireOldest (blocks [blk 1 .executing, blk 2 .queued]) = none ∧ s0.blockPending g0.name 1 = false ∧
    ({ s0 with pend := [way 1] } : State).blockPending g0.name 1 = true ∧ ({ s0 with pend := [way 1] } : State).retireOldest (blocks [blk 1 .stopped]) = none ∧
    gh.hnd.isSome ∧ (s0.retireOldest { gh with blocks := [blk 1 .stopped] }).isSome := by refine ⟨⟨rfl, rfl⟩, ?_⟩; decide +kernel

theorem test_hyp_SpecialRegisters : s0.stokerAt 0 g0 ∧ s0.recording g0.ctx = false ∧ 0x11 < (0x12 : BitVec 7).toNat ∧
    0x11 < (0x7F : BitVec 7).toNat := ⟨⟨rfl, rfl⟩, by decide⟩

/-- Operands with and without a reserved bit, with each bad direction, and with an upper half. -/
theorem test_hyp_ModeWrite : (on (regs (val 1) (val 0))).stokerAt 0 (regs (val 1) (val 0)) ∧ ((regs (val 1) (val 0)).sGet 1).pz = false ∧
    (∀ n ∈ [1, 5, 0x3F5], n % 8 ≠ 0 ∧ n % 8 ≠ 6 ∧ n % 8 ≠ 7 ∧ n < 2 ^ 32 ∧ (BitVec.ofNat 64 n).getLsbD 3 = false ∧
      ∀ i < 32, 10 ≤ i → (BitVec.ofNat 64 n).getLsbD i = false) ∧
    (∀ n ∈ [8, 1024], (BitVec.ofNat 64 n).getLsbD 3 = true ∨ ∃ i, 10 ≤ i ∧ i < 32 ∧ (BitVec.ofNat 64 n).getLsbD i = true) := by
  refine ⟨⟨rfl, rfl⟩, rfl, by decide, fun n h => ?_⟩
  rcases List.mem_cons.1 h with rfl | h
  · exact .inl rfl
  · rcases List.mem_cons.1 h with rfl | h
    · exact .inr ⟨10, by decide, by decide, rfl⟩
    · cases h

/-- A member of a workgroup of two, where the other has arrived or not; a grid that is co-resident and one that is not. -/
def two (g : Machine.Group) (n : Nat) : State := { on g with groups := [(0, g), (1, { g with gidx := 1, wgbars := n, gbars := n, arrived := none })] }

theorem test_hyp_Barriers : s0.stokerAt 0 g0 ∧ g0.hnd = none ∧ gh.hnd ≠ none ∧ g0.arrived = none ∧
    ({ s0 with pend := [way 0] } : State).stokerPending g0.name 1 = true ∧ s0.stokerPending g0.name 1 = false ∧ s0.stokerPending g0.name 4 = false ∧
    g0.saved = false ∧ tabGet s0.wgs g0.wg = some (s0.wgOf 0) ∧ (s0.gridOf g0).cores = true ∧
    ({ s0 with pend := [atomWay] } : State).stokerReading g0.name = true ∧ s0.stokerReading g0.name = false ∧ (3 : BitVec 2).getLsbD 0 = true ∧
    (∀ p ∈ tabSet (two g0 1).groups 0 { g0 with wgbars := 1 }, p.2.wg = g0.wg → 1 ≤ p.2.wgbars) ∧
    ¬ (∀ p ∈ tabSet (two g0 0).groups 0 { g0 with wgbars := 1 }, p.2.wg = g0.wg → 1 ≤ p.2.wgbars) ∧
    (s0.gridAt (s0.wgOf g0.wg).grid).cores = true ∧ (({ s0 with grids := [] } : State).gridAt 0).cores = false ∧
    (s0.gridAt 0).total ≤ (s0.gridAt 0).next ∧ s0.saved = [] ∧ 2 ≤ (2 : BitVec 2).toNat ∧ (1 : BitVec 3) ≠ 0 := by
  refine ⟨⟨rfl, rfl⟩, ?_⟩; decide +kernel

/-- No block, blocks that retire, one that does not; a raised damper; a group that may exit and one that may not. -/
theorem test_hyp_GroupFlow : s0.stokerAt 0 g0 ∧ g0.raised = none ∧ gh.hnd ≠ none ∧ g0.hnd = none ∧ s0.retireAll g0 = some g0 ∧
    (s0.retireAll (blocks [blk 1 .stopped, blk 2 .stopped])).isSome ∧ s0.retireAll (blocks [blk 1 .stopped, blk 2 .executing]) = none ∧
    (let s := { two g0 0 with ctxs := [(0, { damper := true })], grids := [(0, { s0.gridAt 0 with kern := { placeKern with preempt := true } })] }
     (tabD s.ctxs g0.ctx {}).damper = true ∧ (s.gridAt (s.wgOf g0.wg).grid).kern.preempt = true ∧
       s.groups.any fun p => p.1 != 0 && p.2.wg == g0.wg && !p.2.saved) ∧
    (tabD s0.ctxs g0.ctx {}).damper = false ∧ s0.pending g0.name = false ∧ s0.engaged g0 = false ∧
    ({ s0 with pend := [way 0] } : State).pending g0.name = true := by refine ⟨⟨rfl, rfl⟩, ?_⟩; decide +kernel

/-- The header of a linked image with one kernel at 0x40, and that kernel's entry: 32 threads, 8 lane registers (R78, R79). -/
def image : List Byte :=
  leBytes 4 0x314F5856 ++ leBytes 2 1 ++ leBytes 2 1 ++ leBytes 16 1 ++ leBytes 8 0x40 ++ List.replicate 32 0 ++
    List.replicate 4 0 ++ leBytes 1 32 ++ leBytes 1 8 ++ List.replicate 18 0 ++ leBytes 8 0x100 ++ leBytes 4 16 ++ leBytes 4 1 ++ leBytes 16 0x100
/-- A launch record of one workgroup of that kernel at virtual address 0x1000. -/
def record : List Byte := leBytes 8 0x40 ++ leBytes 4 1 ++ leBytes 4 1 ++ leBytes 4 1 ++ leBytes 1 1 ++ List.replicate 235 0
def img : State := (s0.poke 0x20000 image false).poke 0x21000 record false
/-- How a record parses: none, or the reason it is refused with. -/
def reasonOf (x : Grid ⊕ Nat) : Option Nat :=
  match x with
  | .inl _ => none
  | .inr n => some n

/-- Poisoned, misaligned, by another than the lead, at the deepest grid; a record that cannot be read, one refused, one accepted. -/
theorem test_hyp_Launching : s0.stokerAt 0 g0 ∧ g0.launching = none ∧ gh.hnd ≠ none ∧ g0.hnd = none ∧ ((regs lost (val 0)).sGet 1).pz = true ∧
    ((regs (val 0x1000) (val 0)).sGet 1).val.toNat % 256 = 0 ∧ ((regs (val 0x10FF) (val 0)).sGet 1).val.toNat % 256 ≠ 0 ∧
    g0.kern.team = 0 ∧ (s0.gridAt (s0.wgOf g0.wg).grid).depth < 10 ∧ gotTrap s0 0x100000 256 = 6 ∧
    got img 0x1000 256 = some (record, false) ∧ reasonOf (img.parse 0 0 record (some (0, 0, 0, img.gridAt 0))) = none ∧
    reasonOf (img.parse 0 0 (leBytes 8 0x40 ++ List.replicate 248 0) (some (0, 0, 0, img.gridAt 0))) = some 1 ∧
    reasonOf (s0.parse 0 0 record (some (0, 0, 0, s0.gridAt 0))) = some 2 ∧
    (match img.parse 0 0 record (some (0, 0, 0, img.gridAt 0)) with
      | .inl c => !img.childStuck 0 c && img.childStuck 0 { c with cores := true, kern := { c.kern with scratch := 524289 } }
      | .inr _ => false) = true ∧
    img.children g0 < 64 ∧ img.stokerPending g0.name 4 = false ∧ ({ g0 with launching := some (img.gridAt 0) } : Machine.Group).launching ≠ none ∧ (∀ p ∈ s0.grids, p.2.parent ≠ some (g0.wg, g0.gidx)) := by
  refine ⟨⟨rfl, rfl⟩, ?_⟩; decide +kernel

/-- A view descriptor: four `.bf16` latents a row at 0x1000, two outputs, the matrix at 0x2000 (R183). -/
def viewDesc : List Byte :=
  leBytes 8 0x1000 ++ leBytes 4 8 ++ leBytes 2 4 ++ leBytes 1 9 ++ leBytes 1 9 ++ leBytes 2 2 ++ leBytes 6 10 ++ leBytes 8 0x2000 ++
    List.replicate 32 0
def sv : State := (s0.poke 0x23000 viewDesc false).poke 0x22000 (List.replicate 16 0x3F) false
/-- The group with w1 bound to slot 0 of generation 1. -/
def gw : Machine.Group := { g0 with w := [(1, { bound := true, slot := 0, gen := 1, desc := BitVec.ofNat 512 (leNat viewDesc) })] }
/-- The same device with that entry held and filled from the matrix. -/
def sw : State :=
  { sv with
    groups := [(0, gw)],
    vstore := [(0, { gen := 1, units := 1, matrix := 0x22000, len := 4, width := 2, mfmt := 9, bytes := List.replicate 16 0x3F })] }

/-- A device whose entry 0 is frozen-clean. -/
def fclean (s : State) : State := { s with vstore := [(0, { s.vent 0 0 with fclean := true })] }

/-- Busy and free; poisoned, misaligned, unreadable and illegal descriptors; a held entry with the same key, a free one, no quota. -/
theorem test_hyp_ViewRegisters : s0.stokerAt 0 g0 ∧ tabGet ({ g0 with wBusy := [(1, { w := {}, ready := 5, addr := 0x3000, pc := 0 })] } : Machine.Group).wBusy 1 ≠ none ∧
    tabGet g0.wBusy 1 = none ∧ ((regs lost (val 0)).sGet 1).pz = true ∧ ((regs (val 0x3000) (val 0)).sGet 1).val.toNat % 64 = 0 ∧
    ((regs (val 0x3020) (val 0)).sGet 1).val.toNat % 64 ≠ 0 ∧ gotTrap s0 0x100000 64 = 6 ∧ (vdesc (leNat (List.replicate 64 0))).ok = false ∧
    got sv 0x3000 64 = some (viewDesc, false) ∧ (vdesc (leNat viewDesc)).ok = true ∧ (vdesc (leNat viewDesc)).matBytes = 16 ∧
    got sv 0x2000 16 = some (List.replicate 16 0x3F, false) ∧ passed (sv.chkTlb 0 g0 accLoad 0x2000 2).2 ∧
    (match (sv.chkTlb 0 g0 accLoad 0x2000 2).2 with
      | .ok t => matrixKey t == 0x22000
      | _ => false) = true ∧
    sw.heldWith 0 0 0x22000 (vdesc (leNat viewDesc)) (fun e => !e.pz && e.bytes == List.replicate 16 0x3F) = some 0 ∧
    sw.heldWith 0 0 0x22000 (vdesc (leNat viewDesc)) (·.fclean) = none ∧
    (fclean sw).heldWith 0 0 0x22000 (vdesc (leNat viewDesc)) (·.fclean) = some 0 ∧
    sw.heldSlots 0 (fun _ => true) = [0] ∧ sw.heldSlots 0 (fun x => x.wg == 0) = [0] ∧ (sw.wgOf 0).vquota = 2 ∧
    sv.heldSlots 0 (fun _ => true) = [] ∧ sv.viewUse 0 0 + viewUnits 16 ≤ 2 ∧ (sv.vent 0 0).gen < 2 ^ 32 - 1 ∧
    2 < sv.viewUse 0 0 + viewUnits 16385 ∧ (tabD g0.w 1 {}).bound = false ∧ (tabD gw.w 1 {}).bound = true := by
  refine ⟨⟨rfl, rfl⟩, ?_⟩; decide +kernel

/-- The record of an `mma` of 128 rows, 192 columns and one block of 32 `.bf16` elements, unscaled (R337, R338). -/
def mmaBytes : List Byte :=
  leBytes 4 0 ++ leBytes 4 8192 ++ leBytes 4 0 ++ leBytes 4 32 ++ (leBytes 1 9 ++ leBytes 15 32) ++ (leBytes 1 9 ++ leBytes 15 32) ++ List.replicate 16 0
def gt : Machine.Group := { g0 with kern := { placeKern with team := 2 } }
def wm : Wg := { s0.wgOf 0 with scratch := 524288, accUnits := 2048 }
def sm : State := { (s0.poke 0x23000 mmaBytes false) with groups := [(0, gt)], wgs := [(0, wm)] }

/-- In a handler, arrived already, first of the team, last of it; records that are illegal, cannot be read, or differ; no room. -/
theorem test_hyp_MatrixMultiply : sm.stokerAt 0 gt ∧ gh.hnd ≠ none ∧ gt.hnd = none ∧ sm.arrivedMma gt = false ∧
    ({ sm with wgs := [(0, { wm with teams := [(0, { record := mmaBytes, members := [(0, 0x3000)] })] })] } : State).arrivedMma gt = true ∧
    ((regs (val 0x3000) (val 0)).sGet 1).val.toNat % 64 = 0 ∧ ((regs (val 0x3020) (val 0)).sGet 1).val.toNat % 64 ≠ 0 ∧
    gotTrap sm 0x100000 64 = 6 ∧ got sm 0x3000 64 = some (mmaBytes, false) ∧ tabGet sm.wgs gt.wg = some wm ∧ (mmaRec mmaBytes).ok = true ∧
    (mmaRec mmaBytes).fits 2 wm.scratchBytes wm.accUnits = true ∧ (mmaRec (List.replicate 64 0xFF)).ok = false ∧ wm.retired = [] ∧
    sm.grp 0 = some gt ∧ sm.matRoom 0 ((mmaRec mmaBytes).locks 0 gt 0).length = true ∧
    ({ sm with mats := List.replicate 16 { id := 1, hearth := 0, ctx := 0, wg := 0, members := [], gslot := 0, kind := .accz } } : State).matRoom 0
      ((mmaRec mmaBytes).locks 0 gt 0).length = false := by refine ⟨⟨rfl, rfl⟩, ?_⟩; decide +kernel

/-- Units at the end of the accumulator and beyond it, none; pages that can be used, that trap, that thaw; room and none. -/
theorem test_hyp_AccumulatorCommands : sm.stokerAt 0 gt ∧ 1 ≠ 0 ∧ 2047 + 1 ≤ (sm.wgOf 0).accUnits ∧ (sm.wgOf 0).accUnits < 2048 + 1 ∧
    sm.matRoom 0 1 = true ∧ (sm.pageChecks 0 gt { rd := true } 4 1025 0x1000 1024).2 = none ∧ (0x1002 : W64).toNat % 4 ≠ 0 ∧
    (match (sm.pageChecks 0 gt { rd := true } 4 1025 0x100000 1024).2 with
      | some c => codeOf c
      | none => 0) = 6 ∧
    ((page 0x2004000F).pageChecks 0 g0 { wr := true, codecOk := false } 4 1025 0 1024).2 = some .wait ∧ ((regs lost lost).sGet 1).pz = true := by
  refine ⟨⟨rfl, rfl⟩, ?_⟩; decide +kernel

/-- A descriptor of a copy of 128 bytes from 0x1000 to scratchpad 0 (R353). -/
def copyDesc : List Byte := leBytes 8 0x1000 ++ leBytes 8 0 ++ leBytes 4 128 ++ leBytes 1 4 ++ List.replicate 11 0
def sc : State := s0.poke 0x23000 copyDesc false
def copyOf (n : Nat) : Copy := { id := n, hearth := 0, ctx := 0, wg := 0, gidx := 0, gslot := 0, tag := 3, kind := 0, addr := 0x3000, desc := copyDesc }

/-- In a handler, poisoned, misaligned, unreadable, illegal; a busy tag, sixteen copies, and room with two locks free. -/
theorem test_hyp_CopyCommands : sc.stokerAt 0 g0 ∧ gh.hnd ≠ none ∧ g0.hnd = none ∧ ((regs lost (val 0)).sGet 1).pz = true ∧
    ((regs (val 0x3000) (val 0)).sGet 1).val.toNat % 32 = 0 ∧ ((regs (val 0x3010) (val 0)).sGet 1).val.toNat % 32 ≠ 0 ∧
    gotTrap sc 0x100000 32 = 6 ∧ got sc 0x3000 32 = some (copyDesc, false) ∧
    (copyF 0 copyDesc).ok (sc.wgOf 0).scratchBytes (g0.width * g0.kern.priv) = true ∧ (copyF 0 (List.replicate 32 0)).ok 4096 32768 = false ∧
    (copyF 2 (leBytes 8 0x1000 ++ leBytes 8 0 ++ leBytes 4 128 ++ leBytes 2 4 ++ leBytes 2 2 ++ leBytes 8 0x2000)).ok 4096 32768 = true ∧
    (copyF 1 (leBytes 8 0x1000 ++ leBytes 8 0 ++ leBytes 4 128 ++ leBytes 2 4 ++ leBytes 2 2 ++ leBytes 4 256 ++ leBytes 4 128)).ok 4096 32768 = true ∧
    sc.copies = [] ∧ (sc.freeLocks 0).length = 64 ∧ 16 ≤ ((List.replicate 16 (copyOf 1)).filter fun c => c.hearth == 0).length := by
  refine ⟨⟨rfl, rfl⟩, ?_⟩; decide +kernel

/-- No copy under way and one of the tag; labels inside the code and beyond it; blocks that retire and one that does not. -/
theorem test_hyp_CopyWaits : sc.stokerAt 0 g0 ∧ sc.copies = [] ∧ sc.mats = [] ∧ (∃ c ∈ [copyOf 1], c.wg = g0.wg ∧ c.gidx = g0.gidx ∧ c.tag = 3) ∧
    g0.inCode (g0.spc + 4 * (1023 : BitVec 21).signExtend 64) ∧ ¬ g0.inCode (g0.spc + 4 * (1024 : BitVec 21).signExtend 64) ∧
    sc.retireAll g0 = some g0 ∧ sc.retireAll (blocks [blk 1 .executing]) = none := by
  refine ⟨⟨rfl, rfl⟩, ?_⟩; unfold Group.inCode; decide +kernel

/-- A context whose freeze table of one entry lies at 0x30000, with page 0 marked FRZR (R236, R293). -/
def sf : State :=
  { (page 0x2000010F).pokeNat 0x1C100 8 0x2000010F with ctxs := [(0, { ptroot := 0x10000, frztab := 0x30000, frzn := 1, seq := 1 })] }
/-- How a check of pages ends: how many pages pass, or the code of its trap. -/
def pagesIn (x : List FrzArg ⊕ Trap) : Nat ⊕ Nat :=
  match x with
  | .inl l => .inl l.length
  | .inr t => .inr t.code
def opOf (n : Nat) : FrzOp := { seq := n, thaw := false, pages := [] }

/-- Poisoned operands; ranges that are whole pages and that are not; a page that passes and one that does not; 64 operations; tickets. -/
theorem test_hyp_FreezeCommands : sf.stokerAt 0 g0 ∧ ((regs lost lost).sGet 1).pz = true ∧ (g0.sGet 1).pz = false ∧
    0x10000 % 65536 = 0 ∧ 0x10001 % 65536 ≠ 0 ∧ 2 ^ 32 % 65536 = 0 ∧ pagesIn (sf.frzChecks 0 g0 false 0 65536 1 0 []) = .inl 1 ∧
    pagesIn (sf.frzChecks 0 g0 true 0 65536 1 0 []) = .inr 2 ∧
    pagesIn ((sf.pokeNat 0x30000 8 (1 + 2 + 8 + 16)).frzChecks 0 g0 true 0 65536 1 0 []) = .inl 1 ∧
    pagesIn (sf.frzChecks 0 g0 false 0x10000 65536 1 0x10000 []) = .inr 6 ∧ 64 ≤ (List.replicate 64 (opOf 1)).length ∧
    (tabD sf.ctxs 0 {}).ops.length < 64 ∧ (2 ^ 48 + 1) / 2 ^ 48 = 1 ∧ (2 ^ 48 + 1) % 2 ^ 48 ≤ (tabD sf.ctxs 0 {}).seq ∧
    ¬ ((3 * 2 ^ 48 + 1) / 2 ^ 48 = 1 ∨ (3 * 2 ^ 48 + 1) / 2 ^ 48 = 2) ∧ (∀ o ∈ (tabD sf.ctxs 0 {}).ops, o.seq ≠ 1) ∧ (∃ o ∈ [opOf 1], o.seq = 1) := by
  refine ⟨⟨rfl, rfl⟩, ?_⟩; decide +kernel

/-- The region a counter instruction finds, or the code of its trap. -/
def regionOfEntry (x : Nat ⊕ Trap) : Nat ⊕ Nat :=
  match x with
  | .inl r => .inl r
  | .inr t => .inr t.code

/-- A counter 4 and 5; poisoned; an address in a region, one outside, one that cannot be reached; an access on the way and none. -/
theorem test_hyp_CodecCounters : s0.stokerAt 0 g0 ∧ (4 : BitVec 3).toNat < 5 ∧ 5 ≤ (5 : BitVec 3).toNat ∧ ((regs lost lost).sGet 1).pz = true ∧
    (g0.sGet 1).pz = false ∧ regionOfEntry ((page 0x8F).codecEntry 0 g0 0x1000 false).2 = .inl 0 ∧
    regionOfEntry ((page 0x1F08F).codecEntry 0 g0 0 true).2 = .inl 31 ∧ regionOfEntry (s0.codecEntry 0 g0 0 true).2 = .inr 2 ∧
    regionOfEntry (s0.codecEntry 0 g0 0x100000 false).2 = .inr 6 ∧ s0.stokerPending g0.name 5 = false ∧
    ({ s0 with pend := [way 0] } : State).stokerPending g0.name 5 = true ∧ Memory.wf s0.mem = true := by
  refine ⟨⟨rfl, rfl⟩, ?_⟩; decide +kernel

/-- The device with a supervisor handler in its image, and a context whose HMASK asks for every cause or for none. -/
def sh (mask : Nat) : State := { img with ctxs := [(0, { ptroot := 0x10000, hentry := 0x40, hmask := BitVec.ofNat 32 mask })] }

/-- Privileged and not; a pool with frames and an empty one; frames held; entries absent and mapped; window words with a layout and
without. -/
def sp1 : State := (s0.pokeNat 0x30000 8 0x40000).pokeNat 0x1C108 8 0x40
def spool : State := { sp1 with pools := [(0, { ringbase := 0x30000, ringsize := 4, count := 2, lowmark := 1 })] }
/-- The pool with a full ring and a frame held. -/
def sfull : State := { sp1 with pools := [(0, { ringbase := 0x30000, ringsize := 4, count := 4, held := [0x60000] })] }
def gf (n : Nat) : Machine.Group := { g0 with frames := List.replicate n (0x40000, false), s := [(1, val 0x10000), (2, val 0x40000)] }

theorem test_hyp_Privileged : s0.stokerAt 0 g0 ∧ (tabD s0.ctxs 0 {}).priv = true ∧ gh.hnd.isSome ∧
    ¬ (g0.hnd.isSome ∨ (tabD (sh 0).ctxs 0 {}).priv = true) ∧ 4 ≤ (gf 4).frames.length ∧ (gf 3).frames.length < 4 ∧
    spool.poolFrame 0 = some 0x40000 ∧ s0.poolFrame 0 = none ∧ (spool.pool 0).held = [] ∧
    (sfull.poolFrame 0).isSome ∧ (sfull.pool 0).held = [0x60000] ∧ (sfull.pool 0).head.toNat < 4 ∧ (sfull.pool 0).count = (sfull.pool 0).ringsize ∧
    (spool.pool 0).count ≠ (spool.pool 0).ringsize ∧ s0.inFlight g0.name = false ∧ ({ s0 with pend := [atomWay] } : State).inFlight g0.name = true ∧
    entryFrom sp1 0x10000 walkLevels 4 0x10000 = some (0x40, 0x1C108) ∧ (entryFrom sp1 0x1000 walkLevels 4 0x10000).any (fun x => x.1 % 2 == 1) ∧
    entryFrom sp1 0x10000000000 walkLevels 4 0x10000 = none ∧ (∀ y ∈ (page 0x2000000F).tlb, y.leafPa % 8 = 0) ∧
    (((gf 1).sGet 1).pz = false ∧ ((gf 1).sGet 2).val = (0x40000 : BitVec 52).setWidth 64 ∧ (∃ x ∈ (gf 1).frames, x.1 = 0x40000) ∧
      canonical ((gf 1).sGet 1).val = true) ∧
    Memory.wf sp1.mem = true ∧ ((regs lost (val 0)).sGet 1).pz = true ∧ (0x1FFFFFF8 % 8 = 0 ∧ 0x1FFFFFF8 < 0x20000000) ∧ 0x1FFFFFFC % 8 ≠ 0 ∧
    (s0.windowWord 0x5400).isSome ∧ (s0.windowWord 0).isSome := by refine ⟨⟨rfl, rfl⟩, ?_⟩; decide +kernel

/-- A trap the handler takes always, and one its mask sends to it. -/
theorem test_hyp_HandlerEntry : g0.hnd = none ∧ s0.inFlight g0.name = false ∧ ({ s0 with pend := [atomWay] } : State).inFlight g0.name = true ∧ toHandler (tabD (sh 0x80).ctxs 0 {}) 0x05 = true ∧ toHandler (tabD (sh 0x80).ctxs 0 {}) 0x07 = true ∧
    ((sh 0x80).handlerKern 0 (tabD (sh 0x80).ctxs 0 {})).isSome := by decide +kernel

def recOf (c : Bool) : Rec :=
  { hearth := 0, ctx := 0, cause := causeWord { code := 0x07 } false false false, addr := 0x1FFFF, time := 0, gslots := 2, tmask := 1, lpc := 0,
    size := 4, stoker := true, opened := 0, closed := c, low := 1 }

/-- In a handler, not delivered to it, no handler; no open record, one that takes the trap in, fifteen in use and sixteen. -/
theorem test_hyp_Escalation : s0.inFlight g0.name = false ∧ gh.hnd.isSome ∧ toHandler (tabD s0.ctxs 0 {}) 0x07 = false ∧ toHandler (tabD s0.ctxs 0 {}) 0x05 = true ∧
    s0.handlerKern 0 (tabD s0.ctxs 0 {}) = none ∧ s0.recs = [] ∧
    ((recOf false).hearth = hearthOf 0 ∧ (recOf false).ctx = g0.ctx ∧ (recOf false).cause = causeWord { code := 0x07 } false false false ∧
      (recOf false).addr.toNat / 65536 = (0x10000 : W64).toNat / 65536 ∧ (0x07 : Nat) ∉ [0x0E, 0x0F, 0x16, 0x17]) ∧
    ((List.replicate 15 (recOf true)).filter fun r => r.hearth == 0 && !r.held && !r.kept).length < 16 ∧
    16 ≤ ((List.replicate 16 (recOf true)).filter fun r => r.hearth == 0 && !r.held && !r.kept).length ∧ (recOf false).held = false ∧ 0 % 128 < (recOf false).low := by decide +kernel

theorem test_hyp_RaisedTraps : s0.stokerAt 0 g0 ∧ l0.laneAt 0 0 gl { pc := 0, mask := fullMask 32 } := ⟨⟨rfl, rfl⟩, rfl, rfl, rfl⟩

/-- Outside a handler; in one, with a block that does not retire, with an access on the way, with nothing left; an empty pool. -/
theorem test_hyp_TrapReturn : (on gh).stokerAt 0 gh ∧ gh.hnd = some frame ∧ g0.hnd.isNone ∧ (s0.retireAll gh).isSome ∧
    (s0.retireAll { gh with blocks := [blk 1 .executing] }).isNone ∧ s0.pending gh.name = false ∧
    ({ s0 with pend := [way 0] } : State).pending gh.name = true ∧
    ((frame.s.map (·.1)).Nodup ∧ ∀ p ∈ frame.s, p.1 ≤ 15) ∧ frame.b.isEmpty ∧ ((frame.v.map (·.1)).Nodup ∧ ∀ p ∈ frame.v, p.1 % 256 ≤ 7) ∧
    gh.frames = [] ∧ (s0.poolFrame (dieOf (hearthOf 0))).isNone ∧ s0.inFlight gh.name = false ∧ frame.cause.len ≠ 0 ∧ ({ code := 5, len := 0 } : Trap).len = 0 :=
  ⟨stoker_at gh, rfl, by decide +kernel⟩

/-! The lanes: the split of the executing block, alone with thread 0 where a memory access is meant. -/

def spl : Split := { pc := 0, mask := fullMask 32 }
def one : Split := { pc := 0, mask := 1 }
def onL (g : Machine.Group) : State := { l0 with groups := [(0, g)] }
/-- The group with thread 0's v1 and v2. -/
def lregs (a b : LReg) : Machine.Group := { gl with v := [(1, a), (2, b)] }
def lval (n : Nat) : LReg := ⟨BitVec.ofNat 32 n, false⟩
/-- The environment in which the group's split issues an instruction of the given fields. -/
def env (f : LaneF) (g : Machine.Group := gl) (sp : Split := spl) (s : State := onL { g with slot0 := some sp }) : LEnv :=
  s.laneEnv f 0 0 { g with slot0 := some sp } sp 0

theorem env_issues (f : LaneF) (g : Machine.Group) (sp : Split) (h : readsTime f = false) :
    (env f g sp).issues (onL { g with slot0 := some sp }) := by
  refine ⟨⟨rfl, rfl, rfl⟩, ?_, rfl, rfl⟩
  show State.laneTime _ _ _ _ _ = _
  unfold State.laneTime
  show (if readsTime f && _ then _ else _) = _
  rw [h]; rfl

/-- A split with no outstanding result owes no register. -/
theorem env_free (f : LaneF) (g : Machine.Group) (words : Nat) (h : f.vd.toNat + words ≤ 256) : (env f g).free words :=
  ⟨h, fun _ _ _ _ => rfl⟩

/-- The fields of an instruction of a type that writes v254 or the pair v252 and v253. -/
def fl (ty : Nat) : LaneF := { f0 with ty := BitVec.ofNat 4 ty, vd := if ty = 6 || ty = 7 || ty = 11 then 252 else 254, va := 2, vb := 4 }

/-- A split with no outstanding result; the types of each clause, the last thread. -/
theorem test_hyp_LaneOperands : (∀ sp : Split, sp.outs = [] → ∀ r, sp.coming 0 r = none) ∧ (env (fl 4)).sp.outs.isEmpty ∧ (fl 6).ty.toNat = 6 ∧
    (fl 4).ty.toNat = 4 ∧ 127 < 128 :=
  ⟨fun sp h r => by unfold Split.coming; rw [h]; rfl, by decide +kernel, by decide, by decide, by decide⟩

/-- The four integer types, with the results in the last registers. -/
theorem test_hyp_LaneInteger : ∀ ty ∈ [4, 5, 6, 7], (env (fl ty)).issues (onL { gl with slot0 := some spl }) ∧ 4 ≤ (env (fl ty)).ty ∧
    (env (fl ty)).ty ≤ 7 ∧ (env (fl ty)).free (tyRegs (env (fl ty)).ty) := by
  intro ty h
  rcases List.mem_cons.1 h with rfl | h
  · exact ⟨env_issues _ _ _ rfl, by decide, by decide, env_free _ _ _ (by decide)⟩
  rcases List.mem_cons.1 h with rfl | h
  · exact ⟨env_issues _ _ _ rfl, by decide, by decide, env_free _ _ _ (by decide)⟩
  rcases List.mem_cons.1 h with rfl | h
  · exact ⟨env_issues _ _ _ rfl, by decide, by decide, env_free _ _ _ (by decide)⟩
  rcases List.mem_cons.1 h with rfl | h
  · exact ⟨env_issues _ _ _ rfl, by decide, by decide, env_free _ _ _ (by decide)⟩
  · cases h

/-- The two floating types of one and two registers and the packed ones. -/
theorem test_hyp_LaneFloat : ∀ ty ∈ [8, 9, 10, 11], (env (fl ty)).issues (onL { gl with slot0 := some spl }) ∧
    (env (fl ty)).ty = ty ∧ (env (fl ty)).free (tyRegs (env (fl ty)).ty) := by
  intro ty h
  rcases List.mem_cons.1 h with rfl | h
  · exact ⟨env_issues _ _ _ rfl, by decide, env_free _ _ _ (by decide)⟩
  rcases List.mem_cons.1 h with rfl | h
  · exact ⟨env_issues _ _ _ rfl, by decide, env_free _ _ _ (by decide)⟩
  rcases List.mem_cons.1 h with rfl | h
  · exact ⟨env_issues _ _ _ rfl, by decide, env_free _ _ _ (by decide)⟩
  rcases List.mem_cons.1 h with rfl | h
  · exact ⟨env_issues _ _ _ rfl, by decide, env_free _ _ _ (by decide)⟩
  · cases h

/-- A compare of clean sources with the first and last relation of each type, and one of a poisoned source. -/
theorem test_hyp_LaneCompare : (env (fl 4)).issues (onL { gl with slot0 := some spl }) ∧ (env (fl 4)).clean (fun t => ((env (fl 4)).opA t).pz) ∧
    4 ≤ (env (fl 4)).ty ∧ (env (fl 7)).ty ≤ 7 ∧ (5 : BitVec 8).toNat < 6 ∧ (7 : BitVec 8).toNat < 8 ∧
    ¬ (env { f0 with va := 1, ty := 4 } (lregs ⟨0, true⟩ (lval 0))).clean
      (fun t => ((env { f0 with va := 1, ty := 4 } (lregs ⟨0, true⟩ (lval 0))).opA t).pz) := by
  refine ⟨env_issues _ _ _ rfl, ?_⟩; unfold LEnv.clean; decide +kernel

theorem test_hyp_Approximations : (env (fl 10)).issues (onL { gl with slot0 := some spl }) ∧ (env (fl 10)).free 1 ∧ (env (fl 10)).ty = 10 ∧
    (env (fl 8)).issues (onL { gl with slot0 := some spl }) ∧ (env (fl 8)).free 1 ∧ (env (fl 8)).ty = 8 :=
  ⟨env_issues _ _ _ rfl, env_free _ _ _ (by decide), by decide, env_issues _ _ _ rfl, env_free _ _ _ (by decide), by decide⟩

/-- Types of every group of the conversions, and the last source type. -/
theorem test_hyp_LaneConvert : (∀ ty : BitVec 4, (env (fl ty.toNat)).issues (onL { gl with slot0 := some spl }) ∧
    (env (fl ty.toNat)).free (tyRegs (env (fl ty.toNat)).ty)) ∧ (15 : BitVec 8).toNat < 16 ∧ tyRegs (env (fl 10)).ty = 1 := by
  refine ⟨fun ty => ⟨env_issues _ _ _ rfl, env_free _ _ _ ?_⟩, by decide⟩
  revert ty; decide +kernel

/-- Shuffles with clean and poisoned numbers, and the types of scans and reductions; the group's width is 32. -/
theorem test_hyp_CrossLane : (env (fl 4)).issues (onL { gl with slot0 := some spl }) ∧ (env (fl 4)).free (tyRegs (env (fl 4)).ty) ∧
    (env (fl 4)).g.width ≤ 128 ∧ (env (fl 4)).clean (fun t => ((env (fl 4)).src 0 4 t 5).pz) ∧ (env (fl 10)).ty = 10 ∧
    ¬ (env { f0 with vb := 1, ty := 5 } (lregs ⟨0, true⟩ (lval 0))).clean
      (fun t => ((env { f0 with vb := 1, ty := 5 } (lregs ⟨0, true⟩ (lval 0))).src 0 1 t 5).pz) := by
  refine ⟨env_issues _ _ _ rfl, env_free _ _ _ (by decide), ?_⟩; unfold LEnv.clean; decide +kernel

/-- Threads that act, with clean votes and with a poisoned one; none that acts. -/
theorem test_hyp_ToStoker : (env (fl 4)).issues (onL { gl with slot0 := some spl }) ∧ (env (fl 4)).g.width ≤ 128 ∧ (env (fl 4)).ts ≠ [] ∧
    (env (fl 4)).clean (fun t => ((env (fl 4)).opA t).pz) ∧ 0 ∈ (env (fl 4)).ts ∧ (∀ u ∈ (env (fl 4)).ts, 0 ≤ u) ∧
    (redNode (fun a b => (a + b) % 2 ^ 32) (fun t => if t ∈ (env (fl 4)).ts then some ((env (fl 4)).opA t) else none) 7 0).isSome ∧
    (env { f0 with ms := 1 }).ts = [] ∧ (env (fl 4)).free 1 ∧
    ¬ (env { f0 with va := 1, ty := 4 } (lregs ⟨0, true⟩ (lval 0))).clean
      (fun t => ((env { f0 with va := 1, ty := 4 } (lregs ⟨0, true⟩ (lval 0))).opA t).pz) := by
  refine ⟨env_issues _ _ _ rfl, by decide, by decide +kernel, by unfold LEnv.clean; decide +kernel, by decide +kernel, by decide +kernel,
    by decide +kernel, by decide +kernel, env_free _ _ _ (by decide), ?_⟩
  unfold LEnv.clean; decide +kernel

/-- An index register in va, and a word 2. -/
def ix (w : Nat) (ty : Nat := 5) : LaneF := { f0 with ty := BitVec.ofNat 4 ty, va := 1, vb := 0x40, vc := 2, vd := 4, w2 := BitVec.ofNat 32 w }
/-- The device with thread 0 alone, v1 and v2 given, and page 0 translated by a leaf. -/
def lpage (leaf : Nat) (g : Machine.Group := lregs (lval 0) (lval 7)) : State := page leaf (onL { g with slot0 := some one })
def lenv (f : LaneF) (leaf : Nat := 0x2000000F) (g : Machine.Group := lregs (lval 0) (lval 7)) : LEnv := env f g one (lpage leaf g)
/-- The threads that are located and those that are not, with their trap's code. -/
def located (e : LEnv) (a : AccK) (size : Nat) : List Nat × List (Nat × Nat) :=
  let x := e.locateAll a size e.ts e.s
  (x.2.1.map (·.t), x.2.2.map fun b => (b.1, b.2.code))
/-- A property of every located access. -/
def everyAcc (e : LEnv) (a : AccK) (size : Nat) (p : State → Tr → Bool) : Bool :=
  let x := e.locateAll a size e.ts e.s
  x.2.1.all fun y => y.tr.any (p x.1)
/-- The group whose block's snapshot holds b0: eight bytes at 0x1000. -/
def gb : Machine.Group :=
  { gl with blocks := [{ blk 1 .executing with snap := { b := [(0, { base := 0x1000, frame := 0x21000, limit := 8, valid := true, rd := true, wr := true })] } }] }

/-- Each check in turn, at the ends of the spaces: poison, alignment, limits and locks; then where the address lies, permission, frozen,
thawing and codec pages; and an access that passes each. -/
theorem test_hyp_LaneChecks :
    ((lenv (ix 0) 0x2000000F (lregs ⟨0, true⟩ (lval 0))).ts.filter fun t => ((lenv (ix 0) 0x2000000F (lregs ⟨0, true⟩ (lval 0))).reg t 1).pz) = [0] ∧
    (lenv (ix 2)).ts.filter (fun t => ((lenv (ix 2)).addr .glob t).toNat % 4 != 0) = [0] ∧
    ((lenv (ix 4096)).addr .scratch 0).toNat + 4 > ((lenv (ix 4096)).s.wgOf 0).scratchBytes ∧
    ((lenv (ix 4092)).addr .scratch 0).toNat + 4 ≤ ((lenv (ix 4092)).s.wgOf 0).scratchBytes ∧
    ((lenv (ix 1024)).addr .priv 0).toNat + 4 > (lenv (ix 0)).g.kern.priv ∧ ((lenv (ix 1020)).addr .priv 0).toNat + 4 ≤ (lenv (ix 0)).g.kern.priv ∧
    (lenv (ix 0)).locked .scratch 0 4 true = false ∧
    ({ lenv (ix 0) with s := { lpage 0x2000000F with
      locks := [(0, { base := 0, len := 8, gslot := 0, dst := true, space := .scratch, kind := 0, ctx := 0, wg := 0, gidx := 0, op := 1 })] } } : LEnv).locked .scratch 0 4 true = true ∧
    located (lenv (ix 0x1000)) accLoad 4 = ([0], []) ∧ located (lenv (ix 0x100000)) accLoad 4 = ([], [(0, 6)]) ∧
    located { lenv (ix 0x10000) with s := sp1 } accLoad 4 = ([], [(0, 5)]) ∧
    everyAcc (lenv (ix 0x1000)) accLoad 4 (fun s t => (lenv (ix 0)).permitted s accLoad t) ∧
    everyAcc (lenv (ix 0x1000) 0x20000003) accLoad 4 (fun s t => !(lenv (ix 0)).permitted s accLoad t) ∧
    everyAcc (lenv (ix 0x1000) 0x2002000F) (accStore false) 4 (fun _ t => t.fst == 1) ∧
    everyAcc (lenv (ix 0x1000) 0x2006000F) (accStore false) 4 (fun _ t => t.fst == 3) ∧
    everyAcc (lenv (ix 0x1000) 0x2004000F) (accStore false) 4 (fun _ t => t.fst == 2) ∧
    everyAcc (lenv (ix 0x1000) 0x8F) (accStore false) 4 (fun _ t => t.creg == some 0) ∧ Memory.wf (lpage 0x2000000F).mem = true := by
  decide +kernel

/-- Offsets below bN's limit and at it, and an address that is not canonical. -/
theorem test_hyp_LaneChecks_breg : (env (ix 7) gb one).breg.valid = true ∧ (env (ix 7) gb one).breg.stale = false ∧
    ((env (ix 7) gb one).offset 0).toNat < (env (ix 7) gb one).breg.limit.toNat ∧
    (env (ix 8) gb one).breg.limit.toNat ≤ ((env (ix 8) gb one).offset 0).toNat ∧ (env (ix 0) gl one).breg.valid = false ∧
    canonical ((env (ix 8) gb one).addr .glob 0) = true ∧
    canonical ((env (ix 0) { gb with blocks := [{ blk 1 .executing with snap := { b := [(0, { base := 0x0100000000000000 })] } }] } one).addr .glob 0) = false ∧
    found ((env (ix 8) gb one).s.translate 0 0 0x1008).2 (fun _ => true) := by decide +kernel

/-- The accesses of a load or store of thread 0 pass, in the scratchpad, private memory and the global space. -/
theorem passes_scratch (a : AccK) (size : Nat) (h : size = 4 ∨ size = 16) :
    (lenv (ix 0)).passes .scratch a size (fun _ => false) (lpage 0x2000000F) [⟨0, 0, none⟩] := by
  rcases h with rfl | rfl <;> exact ⟨by decide +kernel, fun go => by rfl⟩
theorem passes_priv (a : AccK) (size : Nat) (h : size = 4 ∨ size = 16) :
    (lenv (ix 0)).passes .priv a size (fun _ => false) (lpage 0x2000000F) [⟨0, 0, none⟩] := by
  rcases h with rfl | rfl <;> exact ⟨by decide +kernel, fun go => by rfl⟩

/-- The translation of the global address 0x1000. -/
def tr0 : Tr :=
  { pa := 0x21000, rd := true, wr := true, fst := 0, lcls := 0, cmpr := false, frzr := false, pgsz := 0, page := 0, left := 0xF000, leafPa := 0x1C100 }
theorem passes_glob (a : AccK) (h : a = accLoad ∨ a = accStore false) :
    (lenv (ix 0x1000)).passes .glob a 4 (fun _ => false) (lpage 0x2000000F) [⟨0, 0x1000, some tr0⟩] := by
  rcases h with rfl | rfl <;> exact ⟨by decide +kernel, fun go => by rfl⟩

theorem lenv_issues (f : LaneF) (leaf : Nat) (g : Machine.Group) (h : readsTime f = false) : (lenv f leaf g).issues (lpage leaf g) := by
  refine ⟨⟨rfl, rfl, rfl⟩, ?_, rfl, rfl⟩
  show State.laneTime _ _ _ _ _ = _
  unfold State.laneTime
  show (if readsTime f && _ then _ else _) = _
  rw [h]; rfl

/-- The bytes a load reads, thread by thread. -/
def loaded (e : LEnv) (sp : Space) (size : Nat) (l : List LAcc) (s : State) : Option (List (Nat × List Byte × Bool)) :=
  (e.readAll sp size l s).2.map fun l => l.map fun v => (v.1.t, v.2)

/-- The device with a line of the private area, or a leased line of memory, in the hearth's L1. -/
def inL1 : State := { lpage 0x2000000F with l1 := [(0, [{ kind := .priv, key := physKey 0 }])] }
def leased : State := { lpage 0x2000000F with l1 := [(l1SetOf (physKey 0x21000), [{ kind := .leased, key := physKey 0x21000, exp := some 900 }])] }
/-- A leaf that names a page of another module, and the translation of 0x1000 through it. -/
def farLeaf : Nat := (3 * 2 ^ 34 + 2) * 2 ^ 28 + 0xF
def farTr0 : Tr := { tr0 with pa := 3 * 2 ^ 50 + 0x21000 }
/-- Replaying a trace that holds no record yet. -/
def replaying (s : State) : State := { s with recd := { ctx := 0, active := true, replay := true, tbase := 0x60000, tsize := 65536 } }
/-- What a load of thread 0 at an address of another module reads and owes, and whether the log has it. -/
def farLoad (s : State) : Option (Nat × Bool) :=
  match (lenv (ix 0x1000) farLeaf).readAll .glob 4 [⟨0, 0x1000, some farTr0⟩] s with
  | (s3, some vs) => some (((lenv (ix 0x1000) farLeaf).lostLoads s3 [⟨0, 0x1000, some farTr0⟩] 4).length, ((lenv (ix 0x1000) farLeaf).logReads s3 [] vs).2.isSome)
  | _ => none

/-- A load of each space whose checks pass and whose bytes are there, in L1 and not, one that waits for a line lent, one of another module
that is not answered, one whose replayed log has no record yet, and one that its checks end. -/
theorem test_hyp_LaneLoads : (lenv (ix 0)).issues (lpage 0x2000000F) ∧ (∃ x, (lenv (ix 0x100000)).ends .glob accLoad 4 (fun _ => false) x) ∧
    (lenv (ix 0)).passes .scratch accLoad 16 (fun _ => false) (lpage 0x2000000F) [⟨0, 0, none⟩] ∧
    (lenv (ix 0)).passes .priv accLoad 4 (fun _ => false) (lpage 0x2000000F) [⟨0, 0, none⟩] ∧
    (lenv (ix 0x1000)).passes .glob accLoad 4 (fun _ => false) (lpage 0x2000000F) [⟨0, 0x1000, some tr0⟩] ∧
    (lenv (ix 0x1000) farLeaf).passes .glob accLoad 4 (fun _ => false) (lpage farLeaf) [⟨0, 0x1000, some farTr0⟩] ∧ (lenv (ix 0)).free 4 ∧
    (loaded (lenv (ix 0)) .scratch 16 [⟨0, 0, none⟩] ((lpage 0x2000000F).refillFor 0 [⟨0, 0, none⟩] 16)).isSome ∧
    (loaded (lenv (ix 0)) .priv 4 [⟨0, 0, none⟩] (lpage 0x2000000F)).isSome ∧
    (∃ ln ∈ inL1.l1Lines 0 (l1SetOf (physKey (gl.pb + privFlat 32 0 0))), ln.kind = .priv ∧ ln.key = physKey (gl.pb + privFlat 32 0 0)) ∧
    loaded (lenv (ix 0x1000)) .glob 4 [⟨0, 0x1000, some tr0⟩] (lpage 0x2000000F) = some [(0, [0, 0, 0, 0], false)] ∧
    (loaded (lenv (ix 0x1000)) .glob 4 [⟨0, 0x1000, some tr0⟩] { lpage 0x2000000F with homes := [(physKey 0x21000, { lent := some 5 })] }).isNone ∧
    leased.readBytes 0 (tabD leased.ctxs 0 {}) (0, 0) tr0 4 = (leased, some ([0, 0, 0, 0], false)) ∧
    farLoad (lpage farLeaf) = some (1, true) ∧ farLoad (replaying (lpage farLeaf)) = some (1, false) ∧ (lpage farLeaf).recording 0 = false :=
  ⟨lenv_issues _ _ _ rfl, ⟨_, fun _ => rfl⟩, passes_scratch _ _ (.inr rfl), passes_priv _ _ (.inl rfl), passes_glob _ (.inl rfl),
    ⟨by decide +kernel, fun _ => rfl⟩, ⟨by decide, fun _ _ _ _ => rfl⟩, by decide +kernel⟩

/-- A store of each space that goes on, in a line lent and not, and a release that waits. -/
theorem test_hyp_LaneStores : (lenv (ix 0)).issues (lpage 0x2000000F) ∧
    (lenv (ix 0)).passes .scratch (accStore true) 16 (fun _ => false) (lpage 0x2000000F) [⟨0, 0, none⟩] ∧
    (lenv (ix 0)).passes .priv (accStore false) 4 (fun _ => false) (lpage 0x2000000F) [⟨0, 0, none⟩] ∧
    (lenv (ix 0x1000)).passes .glob (accStore false) 4 (fun _ => false) (lpage 0x2000000F) [⟨0, 0x1000, some tr0⟩] ∧
    (∃ x, (lenv (ix 0x100000)).ends .glob (accStore false) 4 (fun _ => false) x) ∧
    ((lenv (ix 0)).storeData 4 0).2 = false ∧ (tabGet (lpage 0x2000000F).wgs 0).isSome ∧ ((lpage 0x2000000F).wgOf 0).spPz = [] ∧
    ((lpage 0x2000000F).wgOf 0).missing 0 16 = none ∧ (lenv (ix 0)).g.privPz = [] ∧ (lenv (ix 0)).sp.outs.isEmpty ∧ Memory.wf (lpage 0x2000000F).mem = true ∧
    gl.pb % 128 = 0 ∧ (∀ i < 4, ∃ ln ∈ inL1.l1Lines 0 (l1SetOf (physKey (gl.pb + privFlat 32 0 i))), ln.kind = .priv ∧ ln.key = physKey (gl.pb + privFlat 32 0 i)) ∧
    (∀ i < 4, (lpage 0x2000000F).lentTo 0 (physKey (0x21000 + i)) = false) ∧
    (∀ i < 4, ({ lpage 0x2000000F with homes := [(physKey 0x21000, { lent := some 0 })] } : State).lentTo 0 (physKey (0x21000 + i)) = true ∧
      tabGet ({ lpage 0x2000000F with l2 := [(0x21000, {})] } : State).l2 (keyPa (physKey (0x21000 + i))) ≠ none) ∧
    (lenv (ix 0)).sp.bound.isNone ∧ ({ lpage 0x2000000F with pend := [way 1] } : State).pendingBelow (0, 0) 1 2 4 = true ∧
    (lpage 0x2000000F).pendingBelow (0, 0) 1 2 4 = false :=
  ⟨lenv_issues _ _ _ rfl, passes_scratch _ _ (.inr rfl), passes_priv _ _ (.inl rfl), passes_glob _ (.inr rfl), ⟨_, fun _ => rfl⟩, by decide +kernel⟩

/-- An atomic that its checks end, one that waits, one of each space, one with no acting thread, one in a line lent; the operations of the
integer and floating types at the ends of their operands. -/
theorem test_hyp_LaneAtomics : (lenv (ix 0x1000)).issues (lpage 0x2000000F) ∧ (lenv (ix 0x1000)).free (tyRegs (lenv (ix 0x1000)).ty) ∧
    (∃ x, (lenv (ix 0x100000)).ends .glob (accAtomic false true) 4 (fun _ => false) x) ∧
    (lenv (ix 0x1000)).passes .glob (accAtomic false true) 4 (fun _ => false) (lpage 0x2000000F) [⟨0, 0x1000, some tr0⟩] ∧
    (lenv (ix 0)).passes .scratch (accAtomic false true) 4 (fun _ => false) (lpage 0x2000000F) [⟨0, 0, none⟩] ∧
    (lenv { ix 0 with ms := 1 }).passes .glob (accAtomic false true) 4 (fun _ => false) (lpage 0x2000000F) [] ∧
    pcieAtomic 0 5 = true ∧ ({ lpage 0x2000000F with pend := [way 1] } : State).pendingBelow (0, 0) 1 2 4 = true ∧ 2 ≤ (3 : BitVec 2).toNat ∧
    Memory.wf (lpage 0x2000000F).mem = true ∧ (lpage 0x2000000F).keyOf (0, 0) = some 0 ∧ (lpage 0x2000000F).lentTo 0 (physKey 0x21000) = false ∧
    ({ lpage 0x2000000F with homes := [(physKey 0x21000, { lent := some 0 })] } : State).lentTo 0 (physKey 0x21000) = true ∧
    (lpage 0x2000000F).poisoned 0x21000 4 = false ∧ (lpage 0x2000000F).pendingBelow (0, 0) 1 2 4 = false ∧ (∀ x ∈ (lpage 0x2000000F).tlb, x.leafPa + 8 ≤ 0x21000) ∧
    (tabGet ({ lpage 0x2000000F with l2 := [(0x21000, {})] } : State).l2 (keyPa (physKey 0x21000))).isSome ∧
    ((lpage 0x2000000F).wgOf 0).spPoisoned 4092 4 = false ∧ 2 ^ 32 - 1 < 2 ^ (8 * 4) ∧ 2 ^ 64 - 1 < 2 ^ (8 * 8) := by
  refine ⟨lenv_issues _ _ _ rfl, ⟨by decide, fun _ _ _ _ => rfl⟩, ⟨_, fun _ => rfl⟩, ⟨by decide +kernel, fun _ => rfl⟩,
    ⟨by decide +kernel, fun _ => rfl⟩, ⟨by decide +kernel, fun _ => rfl⟩, ?_⟩
  decide +kernel

/-- The fields of an `ldv` through w1 of the token in v1 and the column in v2, and the group whose snapshot binds w1. -/
def fv : LaneF := { f0 with va := 1, vb := 2, vc := 1, vd := 4, ty := 5 }
def gv (token column : LReg) : Machine.Group :=
  { lregs token column with blocks := [{ blk 1 .executing with snap := { w := gw.w } }] }
def qv (token column : LReg) (s : State) : LdvEnv :=
  ⟨env fv (gv token column) one s, tabD gw.w 1 {}, vdesc (leNat viewDesc)⟩
/-- The device with the view's entry and matrix, thread 0 alone in its split. -/
def lv (token column : LReg) : State :=
  { onL { gv token column with slot0 := some one } with mem := sv.mem, vstore := sw.vstore, clk := 5 }
/-- The threads whose rows fail each kind of check. -/
def rowsFail (q : LdvEnv) (token : Nat) : List Nat × List Nat × List Nat :=
  let x := q.rowTraps (fun _ => token) q.e.ts q.e.s
  (x.2.1.map (·.1), x.2.2.1.map (·.1), x.2.2.2.map (·.1))
/-- The row of token 0 in the hearth's L1. -/
def rowIn (s : State) : State :=
  { s with l1 := [(0, [{ kind := .view, key := 0, slot := 0, gen := 1, token := 0, row := [0, 0, 0x80, 0x3F, 0, 0, 0, 0x40] }])] }
/-- The projection of that row for a reader, and the range locks of the hearth all taken. -/
def projFor (who : Nat × Nat) : Proj :=
  { id := 3, hearth := 0, ctx := 0, owner := (0, 0), slot := 0, gen := 1, token := 0, desc := 0, left := [], waiters := [{ who := who, out := 0, elems := [(0, 4, 1)] }] }
def lv1 : State := lv (lval 0) (lval 1)
/-- A load whose window is open over the latent bytes of that row. -/
def oldOut : Out := { id := 1, left := 3, vals := [⟨0, 9, none⟩], span := [(0x21000, 8)] }
def q1 : LdvEnv := qv (lval 0) (lval 1) lv1
def lockOf : Lock := { base := 0, len := 8, gslot := 0, dst := true, space := .scratch, kind := 0, ctx := 0, wg := 0, gidx := 0, op := 1 }
def fullLocks : State := { lv1 with locks := (List.range 64).map fun i => (i, lockOf) }

/-- No thread, poison, no view, columns inside and beyond; rows that fail each check and that pass; a lookup that is made, that hits, that
joins a projection, that starts one and that finds no lock free. -/
theorem test_hyp_ViewLoad : (env fv (gv (lval 0) (lval 1)) one).issues (onL { gv (lval 0) (lval 1) with slot0 := some one }) ∧
    (env fv (gv (lval 0) (lval 1)) one).free 2 ∧
    (env { fv with ms := 1 } (gv (lval 0) (lval 1)) one).ts.isEmpty ∧ (env fv (gv ⟨0, true⟩ (lval 1)) one).reg 0 1 = ⟨0, true⟩ ∧
    q1.e.ts = [0] ∧ (tabD gl.w 1 {}).bound = false ∧ (tabD gw.w 1 {}).bound = true ∧
    (vdesc (leNat viewDesc)).ofmt = 10 ∧ (vdesc (leNat viewDesc)).width = 2 ∧ (5 : BitVec 8).toNat % 2 = 1 ∧ (gl.kern.vregs + 7) / 8 * 8 ≤ 247 + 1 ∧
    ((env fv (gv (lval 0) (lval 2)) one).opB 0).x = 2 ∧ ((env fv (gv (lval 0) (lval 1)) one).opB 0).x = 1 ∧
    rowsFail q1 0 = ([], [], []) ∧ rowsFail q1 0x20000 = ([0], [], []) ∧
    rowsFail (qv (lval 0) (lval 1) { lv1 with mem := sp1.mem }) 0x2000 = ([], [0], []) ∧
    rowsFail (qv (lval 0) (lval 1) (page 0x8F lv1)) 0 = ([], [], [0]) ∧
    q1.find lv1 0 = .nothing ∧ q1.find (rowIn lv1) 0 = .line ((tabD (rowIn lv1).l1 0 [])) ∧ ((rowIn lv1).viewLines 0 0 1 0 0 1).isSome ∧
    (lv1.viewLines 0 0 1 0 0 1).isNone ∧ q1.find { lv1 with projs := [projFor (0, 7)] } 0 = .proj 3 ∧
    q1.find { rowIn lv1 with pend := [{ way 0 with owner := some gl.name }] } 0 = .nothing ∧
    (lv1.freeLock 0).isSome ∧ (fullLocks.freeLock 0).isNone ∧ lv1.projs = [] ∧
    ({ lv1 with projs := [projFor (0, 7)] } : State).projs.any (fun y => y.hearth == 0 && !y.locked && y.id < 4) ∧
    lv1.keyOf gl.name = some 0 ∧ lv1.grp 0 = some { gv (lval 0) (lval 1) with slot0 := some one } ∧
    one.outs.all (fun o => o.complete) ∧ oldOut.complete = false ∧
    (oldOut.span.any fun x => (q1.span lv1 0).any fun y => overlaps x.1 x.2 y.1 y.2) ∧ oldOut.ldvs = [] :=
  ⟨env_issues _ _ _ rfl, ⟨by decide, fun _ _ _ _ => rfl⟩, by decide +kernel⟩

/-- A group that spills its splits: two resident, and one spilled. -/
def gs (n : Nat) (st : SplitSt) : Machine.Group :=
  { gl with kern := { placeKern with sstack := n }, slot1 := some { pc := 24, mask := 2, st := st, j := 2 },
            spilled := [(0, { pc := 24, mask := 4, st := st, j := 4 })] }
def outOf (n : Nat) : Out := { id := 1, left := 1, ready := n, vals := [⟨0, 3, some (lval 9)⟩] }

/-- The lines of the group's split stack in L1. -/
def inStack : State := { lpage 0x2000000F with l1 := [(256, [{ kind := .priv, key := physKey 0x8000 }])] }

/-- Results that have come and not; no thread, all, or some of the split's; a free slot, a free entry, a full stack; labels inside and beyond;
sets that merge and none; every split stopped and not; one block and two. -/
theorem test_hyp_LaneControl : (env (ix 12)).issues (onL { gl with slot0 := some spl }) ∧ (outOf 5).arrived 4 = false ∧ (outOf 5).arrived 5 = true ∧
    (env { ix 12 with ms := 1 }).ts = [] ∧ maskOf (env (ix 12)).ts = spl.mask ∧
    maskOf (env { ix 12 with mr := 1 } { gl with m := [(1, 1)] }).ts = 1 ∧ spl.mask &&& ~~~(1 : Mask) ≠ 0 ∧
    ((env (ix 12)).sp.pc.setWidth 64 + (env (ix 12)).f.w2.signExtend 64).toNat < 12 * gl.kern.lcinsts ∧
    12 * gl.kern.lcinsts ≤ ((env (ix 12288)).sp.pc.setWidth 64 + (env (ix 12288)).f.w2.signExtend 64).toNat ∧
    gl.split 1 = none ∧ (gs 2 .ready).freeEntry = some 1 ∧ (gs 1 .ready).freeEntry = none ∧
    (gs 1 .ready).oldestAble.isSome ∧ (gs 1 .atJoin).oldestAble = none ∧
    ((gs 1 .atJoin).setSplit 0 (some { pc := 0, mask := 1, st := .atJoin, j := 1 })).deadlocked = true ∧ (gs 1 .ready).deadlocked = false ∧
    (∀ x ∈ ((gs 1 .atLstop).setSplit 0 (some { spl with st := .atLstop })).table, x.st = .atLstop) ∧
    (∃ x ∈ ((gs 1 .ready).setSplit 0 (some { spl with st := .atLstop })).table, x.st ≠ .atLstop) ∧
    ({ spl with st := .atJoin, j := spl.mask } : Split).j &&& ~~~spl.mask = 0 ∧ (gl.blocks.map (·.st)) = [.executing] ∧
    ((gl.enqueue 2 0 0).blocks.map (·.st)) = [.executing, .queued] ∧ (1, spl) ∉ (gs 2 .ready).spilled ∧ (gs 2 .ready).pb % 128 = 0 ∧
    (∀ o ∈ [32 * 1024 + 48, 32 * 1024 + 48 + 47], ∃ ln ∈ inStack.l1Lines 0 (l1SetOf (physKey (gl.pb + o))), ln.kind = .priv ∧ ln.key = physKey (gl.pb + o)) :=
  ⟨env_issues _ _ _ rfl, by and_intros <;> first | rfl | decide +kernel⟩

/-! The events: small states in which each clause's case holds. -/

/-- The group with a trap raised behind those it has. -/
def gtrap (c : Nat) : Machine.Group := { g0 with pendTraps := [{ code := c }] }
/-- A device whose forced save is due for its first group, with another group of its workgroup. -/
def sdue (x : Machine.Group) : State :=
  { s0 with groups := [(0, g0), (1, { x with gidx := 1 })], ctxs := [(0, { damper := true, deadline := some 5, run := 5 })],
            grids := [(0, { s0.gridAt 0 with kern := { placeKern with preempt := true } })] }

theorem test_hyp_GroupEvents : ({ s0 with ev := { a := 0, b := 0, c := 0, d := 0 } } : State).ev.a = 0 ∧ s0.grp 0 = some g0 ∧ gl.saved = false ∧
    ({ g0 with saved := true } : Machine.Group).saved = true ∧
    gl.split 0 = some spl ∧ 64 ≤ ({ g0 with lpass := 64, spass := 64 } : Machine.Group).lpass ∧ g0.lpass = 0 ∧ g0.lesc = none ∧ g0.sesc = none ∧
    (outOf 5).ready = 5 ∧ ({ outOf 0 with left := 0 } : Out).left = 0 ∧
    ((gs 1 .ready).spilled.find? fun p => p.2.st == .ready || p.2.st == .rotated).isSome ∧ ({ spl with rot := 64 } : Split).rot = 64 ∧ spl.st = .ready ∧
    g0.pendTraps = [] ∧ g0.susp = none ∧ g0.timerTaken = false ∧ g0.raised = none ∧
    ({ g0 with raised := some { code := 0x14 } } : Machine.Group).raised = some { code := 0x14 } ∧ (gtrap 0x16).pendTraps = [{ code := 0x16 }] ∧
    (gtrap 0x14).pendTraps = [{ code := 0x14 }] ∧ 0x14 ∉ [0x16, 0x17, 0x18] ∧ 0x16 ∈ [0x16, 0x17, 0x18] ∧
    (({ s0 with grids := [(0, { s0.gridAt 0 with gtimer := 5 })] } : State).gridOf { g0 with gtime := 5 }).gtimer = 5 ∧ (s0.gridOf g0).gtimer = 0 ∧
    (tabD s0.ctxs 0 {}).damper = false ∧ (tabD (sdue g0).ctxs 0 {}).damper = true ∧ ((sdue g0).gridOf g0).kern.preempt = true ∧
    (tabD (sdue g0).ctxs 0 {}).deadline = some 5 ∧ (tabD (sdue g0).ctxs 0 {}).run = 5 ∧
    ({ sdue g0 with saved := [{ wgid := 7, wg := s0.wgOf 0, groups := [], copies := [], mats := [], locks := [], views := [], recs := [] }] }
      : State).partSaved g0 = true ∧
    ((sdue g0).grp 1).any (fun g2 => g2.wg == g0.wg && !g2.saved) ∧ (((sdue { g0 with saved := true }).groups.map (·.1)).Pairwise (· < ·)) ∧
    (∀ p ∈ (sdue { g0 with saved := true }).groups, p.1 ≠ 0 → p.2.wg = g0.wg → p.2.saved = true) ∧ (sdue g0).mats = [] ∧ (sdue g0).recs = [] := by
  and_intros <;> first | rfl | decide +kernel

/-- A saved workgroup of one group, of another workgroup than the one in place. -/
def away : Saved := { wgid := 7, wg := { s0.wgOf 0 with grid := 1 }, groups := [(1, { g0 with wg := 7 })], copies := [], mats := [], locks := [], views := [], recs := [] }
/-- A die's fault queue of two records with room for one. -/
def sq : State := { s0 with faultq := [(0, { base := 0x50000, size := 128 })], recs := [{ recOf true with hearth := 0 }] }
/-- The saved workgroup's context is being restored; its place is free, or another group of it is in place. -/
def sback (taken : List (Nat × Machine.Group)) : State :=
  { s0 with saved := [away], ctxs := [(0, { restoring := true, hset := 1 })], grids := [(1, { s0.gridAt 0 with cores := false })], groups := taken }
def tlbOf (gd : Option Nat) : Tlb := { last := true, unit := 0, ctx := 0, va := 0x1000, leaf := 0, pgsz := 0, leafPa := 8, ga := some 0, gd := gd }
def pageOf (r : Bool) : SpPage := { resident := r, back := 3 }

theorem test_hyp_UnitEvents : (∃ T, (tabD ({ s0 with ctxs := [(0, { alarm := some 0 })] } : State).ctxs 0 {}).alarm = some T ∧ T ≤ s0.now) ∧
    (tabD s0.ctxs 0 {}).alarm = none ∧ s0.saved = [] ∧ (∀ y ∈ sq.recs, y.headDone = false) ∧ sq.nextRec 0 = some (recOf true) ∧ recOf true ∈ sq.recs ∧
    (128 ≤ (tabD sq.faultq 0 {}).size.toNat ∧ (0 + 64) % 128 ≠ (tabD sq.faultq 0 {}).head.toNat) ∧ s0.nextRec 0 = none ∧ Memory.wf s0.mem = true ∧
    (recOf true).cont = [] ∧ (∀ y ∈ sq.recs, y.held = false) ∧ canonical 0x1000 = true ∧ (∀ y ∈ s0.tlb, y.covers 0 0x1000 = false) ∧
    (match s0.walkDie 0 0 (tabD s0.ctxs 0 {}) 0x1000 with
      | .found _ pa sz => pa == 0x1C100 && sz == 0
      | _ => false) = true ∧
    (match s0.walkDie 0 0 (tabD s0.ctxs 0 {}) 0x100000 with
      | .found _ _ _ => false
      | _ => true) = true ∧
    s0.tlb = [] ∧ (tlbOf none).ga = some 0 ∧ (tlbOf (some 3)).gd = some 3 ∧ 0 + 1000000 ≤ ({ s0 with clk := 2500000 } : State).now ∧
    ((sback []).saved.find? (fun y => y.wgid == 7 && (tabD (sback []).ctxs y.wg.ctx {}).restoring) = some away) ∧
    ((sback []).gridAt away.wg.grid).cores = false ∧ (sback []).returns away = true ∧ (sback [(1, g0)]).returns away = false ∧
    (away.groups.map (·.1)).Nodup ∧ (s0.saved.find? (fun y => y.wgid == 7 && (tabD s0.ctxs y.wg.ctx {}).restoring) = none) ∧
    (s0.freePages 0).head? = some 0 ∧ (pageOf false).resident = false ∧ (pageOf true).resident = true ∧
    ((tabD s0.ctxs 0 {}).spback + 4096 * (0 + 144 * (pageOf false).back)) % 32 = 0 := by
  refine ⟨⟨0, rfl, Nat.zero_le _⟩, ?_⟩
  and_intros <;> decide +kernel

/-- The key of a line whose home is the first die, and a hearth of its quarter of that die. -/
def key0 : Nat := physKey 0x21000
def near0 : Nat := 36 * (homeOf key0).1 + 12 * ((homeOf key0).2 / 8)
def arrived : Pend := { way 0 with arrived := true }
def arrivedAtomic : Pend := { arrived with kind := .atomic 0x21000 8 7 7 1 0 (.scalar 3 false) }
/-- A store of one byte through the codec. -/
def arrivedCodec : Pend := { arrived with kind := .codecStore 0 0 [(3, 0x55, false)] }
/-- The device with the line's record at its home, what is on its way, and the invalidations out. -/
def sh0 (x : Home) (pend : List Pend := []) (invals : List Inval := []) : State := { s0 with homes := [(key0, x)], pend := pend, invals := invals }
/-- The device with a line in L2, and a mark over its page. -/
def sl2 (l : L2Line) : State := { s0 with l2 := [(0x21000, l)] }
def smark (m : Mark) : State := { s0 with marks := [m] }
def mark0 : Mark := { ctx := 0, va := 0, size := 65536, pa := some 0x20000, frozen := true, gen := 1 }

/-- Waiting readers, writes that have arrived, lines lent and to be lent, remote copies. -/
theorem test_hyp_HomeEvents : isCodecKey key0 = false ∧ keyPa key0 / 2 ^ 50 % 4 = 0 ∧ near0 < 144 ∧ dieOf near0 = (homeOf key0).1 ∧
    near0 % 36 / 12 = (homeOf key0).2 / 8 ∧ (s0.home key0).waiting = [] ∧ (∀ w ∈ [none, some (0, 0)],
      ((sh0 { waiting := [{ h := near0, len := 256, who := w }] }).home key0).waiting = [{ h := near0, len := 256, who := w }] ∧
        w ≠ some (readerProj, 3)) ∧
    ((sh0 { lent := some 3 }).home key0).lent = some 3 ∧ (sh0 {} [arrived]).readWaits 0 key0 = true ∧ (sh0 {}).readWaits 0 key0 = false ∧
    s0.frozenGen key0 = none ∧ (∀ z ∈ s0.pend, ¬ (z.key = key0 ∧ z.arrived = true)) ∧ s0.now < ((sh0 { exp := 900 }).home key0).exp ∧
    arrived ∈ (sh0 {} [arrived]).pend ∧ arrived.key = key0 ∧ arrived.arrived = true ∧ (∀ z ∈ (sh0 {} [arrived]).pend, z = arrived) ∧
    (s0.home key0).exp ≤ s0.now ∧ (∀ i ∈ s0.invals, i.key ≠ key0) ∧ s0.rebuilding key0 = false ∧ (s0.home key0).lent = none ∧ s0.snooped key0 = false ∧
    arrived.ready = none ∧ arrivedCodec.codecStep = some (0, 16) ∧ arrived.codecStep = none ∧ Memory.wf s0.mem = true ∧
    s0.poisoned 0x21000 8 = false ∧ tabGet (sl2 {}).l2 (keyPa key0) = some {} ∧ tabGet s0.l2 (keyPa key0) = none ∧
    s0.keyOf (0, 0) = some 0 ∧ s0.grp 0 = some g0 ∧ g0.hnd = none ∧ ((sh0 { lendTo := some 3 }).home key0).lendTo = some 3 ∧
    (∀ z ∈ (sh0 { lendTo := some 3 }).pend, z.key ≠ key0) ∧ s0.sharers (regionOf key0) = 0 ∧
    ({ s0 with dirs := [(regionOf key0, 2)] } : State).sharers (regionOf key0) ≠ 0 ∧ s0.markOn key0 = none ∧
    (s0.l1Lines 3 (l1SetOf key0)).length < 12 ∧ (∃ d < 4, d ≠ (homeOf key0).1 ∧ s0.fenced d key0 = false ∧
      ({ s0 with fences := [(d, (homeOf key0).1)] } : State).fenced d key0 = true) ∧ s0.remotes = [] ∧
    tabGet s0.filters (4 * regionOf key0) = none := by
  and_intros <;> decide +kernel

/-- A write that may arrive: its transit is over and nothing of its group goes before it; one that another precedes; a store to another
module with every port down; a lost load; an answer that is there and one that is 2 µs late. -/
theorem test_hyp_HomeEvents_late : ¬ ({ s0 with clk := Config.transit 1 } : State).clk < (way 0).issued + s0.transitOf 0 0 (way 0).key (way 0).id ∧
    s0.noAnswer 0 0 (way 0).key (way 0).id = false ∧ s0.noAnswer 0 0 (physKey (3 * 2 ^ 50)) 1 = true ∧
    ({ way 0 with kind := .lost (.scalar 3 false) 8 0 } : Pend).isLost = true ∧ (way 0).isLost = false ∧
    (∃ q ∈ [way 0], q.id < ({ way 0 with id := 2 } : Pend).id ∧ q.arrived = false ∧ q.isLost = false ∧ q.key = (way 0).key ∧ q.owner = (way 0).owner ∧ (q.owner ≠ none)) ∧
    ((sh0 {} [way 0]).pend.find? fun z => z.id == 1) = some (way 0) ∧
    (∃ i ∈ [({ die := 1, key := key0, sent := 0 } : Inval)], i.die = 1 ∧ i.key = key0 ∧ i.sent + 2000 ≤ ({ s0 with clk := 5000 } : State).now) ∧
    (∃ i ∈ [({ die := 1, key := key0, sent := 0, dropped := true, ackAt := 0 } : Inval)], i.die = 1 ∧ i.key = key0 ∧ i.dropped = true ∧ i.ackAt ≤ s0.now) ∧
    keyPa (way 0).key / 2 ^ 50 % 4 ≠ 3 ∧ keyPa (physKey (3 * 2 ^ 50)) / 2 ^ 50 % 4 = 3 := by
  refine ⟨?_, ?_, ?_, ?_⟩
  · show ¬ Config.transit 1 < 0 + Config.transit 1
    omega
  · unfold State.noAnswer
    rw [show isOther (keyPa (way 0).key) = false by decide +kernel]
    rfl
  · unfold State.noAnswer State.portOf
    rw [show s0.livePorts = [] from rfl]
    decide +kernel
  · and_intros <;> decide +kernel

/-- Flits that fail for the first and the ninth time; groups, workgroups, entries and lines that an error meets; a line of HBM that is in L2
and one that is not; a retained line with and without another that is not; lines with and without compression, and with poison. -/
theorem test_hyp_HomeEvents_errors : ¬ (9 ≤ 1) ∧ 9 ≤ (tabD ({ s0 with ports := [(0, { run := 8 })] } : State).ports 0 {}).run + 1 ∧
    0x21040 / 2 ^ 50 % 4 = 0 ∧ 0x21040 / 128 * 128 = 0x21000 ∧ tabGet s0.l2 0x21000 = none ∧ s0.grp 0 = some g0 ∧ tabGet s0.wgs 0 = some (s0.wgOf 0) ∧
    (tabGet sw.vstore 0).isSome ∧ tabGet (sl2 { retained := true }).l2 0x21000 = some { retained := true } ∧
    (∀ o ∈ (sl2 { retained := true }).l2In (({ retained := true } : L2Line).at_ 0x21000) (l2Set 0x21000), (sl2 { retained := true }).retains o = true) ∧
    (let s := { s0 with l2 := [(0x21000, { retained := true, place := some (0, 0) }), (0x21000 + 2 ^ 40, { place := some (0, 0) })] }
     l2Set 0x21000 = l2Set (0x21000 + 2 ^ 40) ∧ ∃ o ∈ s.l2In (0, 0) (l2Set 0x21000), s.retains o = false) ∧
    (s0.home (physKey 0x21000)).lent = none ∧ ({} : L2Line).cmpr = false ∧ ({ cmpr := true } : L2Line).cmpr = true ∧
    s0.backingOf 0x21000 = none ∧ s0.poisoned 0x21000 128 = false ∧ ({ s0 with poison := [0x21000 / 32] } : State).poisoned 0x21000 128 = true ∧
    tabGet ({ s0 with remotes := [(4 * key0 + 1, 700)] } : State).remotes (4 * key0 + 1) = some 700 := by
  and_intros <;> decide +kernel

/-- The state with an event's operands. -/
def evs (s : State) (a b c d : Nat) (flag : Bool := false) (data : List Byte := []) : State := { s with ev := ⟨a, b, c, d, flag, data⟩ }
/-- A store to another module's memory. -/
def far : Pend := { way 0 with key := physKey (3 * 2 ^ 50), kind := .store (3 * 2 ^ 50) [1] false }
def sfar (p : Pend) : State := { s0 with pend := [p], clk := 25000 }
/-- A result that a load of another module has not brought yet. -/
def oFar : Out := { id := 5, left := 1, vals := [⟨0, 3, none⟩] }
/-- A device that replays a log of one datum of four bytes at clock 6, as its context's clock stands. -/
def slog (run : Nat) : State :=
  { s0.poke 0x60000 (traceBytes 2 0 6 (datumHead 0x21000 [1, 2, 3, 4]) ++ [1, 2, 3, 4]) false with
    recd := { ctx := 0, active := true, replay := true, tbase := 0x60000, tsize := 65536, head := 64 },
    ctxs := [(0, { ptroot := 0x10000, run := run })] }
def snoop1 : Snoop := { half := 1, inv := true, data := some [1] }

/-- With one port live, every line's traffic goes over it. -/
theorem one_port (key : Nat) : ({ s0 with ports := [(0, { up := true })] } : State).portOf key ≠ none := by
  unfold State.portOf
  rw [show ({ s0 with ports := [(0, { up := true })] } : State).livePorts = [0] by decide +kernel]
  simp [Nat.mod_one]

/-- An image without its magic (that an image is signed rests on the constants of Config, which no state fixes), coolant, ports, the ring with
room and full, snoops, a log that is behind, that holds a datum and that has none. -/
theorem test_hyp_HostEvents : s0.flashBytes 0 4 ≠ [0x47, 0x4C, 0x46, 0x57] ∧ 35 < 36 ∧ 36 ≤ 36 ∧ State.reset.coolant = false ∧ s0.coolant = true ∧
    s0.recd.pend = [] ∧ (0 + 32) % 64 ≠ 0 ∧ (32 + 32) % 64 = 0 ∧ Memory.wf s0.mem = true ∧ (s0.snoops.find? fun x => x.half == 1) = none ∧
    (({ s0 with snoops := [snoop1] } : State).snoops.find? fun x => x.half == 1) = some snoop1 ∧
    (s0.home (physKey (2 ^ 50 + 64 * 1))).exp ≤ s0.now ∧
    s0.now < (({ s0 with homes := [(physKey (2 ^ 50 + 64 * 1), { exp := 900 })] } : State).home (physKey (2 ^ 50 + 64 * 1))).exp ∧
    s0.replayDatum = none ∧ s0.replayMissed = false ∧ (slog 6).replayMissed = true ∧ (slog 5).replayDatum = some (0x21000, [1, 2, 3, 4]) := by
  and_intros <;> decide +kernel

/-- Requests from outside: no answer in recovery, without CXL.mem or with no port live; addresses of this module and others, a request within
one line, atomics PCIe has and those it has not, a write that is refused. -/
theorem test_hyp_HostEvents_requests : State.reset.recovery = false ∧ ({ s0 with recovery := true } : State).recovery = true ∧ s0.cxl = false ∧
    ({ s0 with cxl := true } : State).cxl = true ∧ s0.portOf (physKey 0x21000) = none ∧ ownHbm 0x21000 = true ∧ ownHbm (2 ^ 50) = false ∧
    (0x2107F % 128 + ([1] : List Byte).length ≤ 128) ∧ s0.recd.active = false ∧ (5 / 16 % 64 ∉ [8, 9, 10, 11, 12, 13, 14]) ∧
    (∀ d ∈ [4 * 1024 + 16 * 5, 8 * 1024 + 16 * 7 + 6, 8 * 1024 + 16 * 7 + 7],
      (d % 16 = 0 ∨ d % 16 = 6 ∨ d % 16 = 7) ∧ (d / 1024 = 4 ∨ d / 1024 = 8) ∧ d / 16 % 64 ∉ [8, 9, 10, 11, 12, 13, 14]) ∧
    ¬ ((2 : Nat) % 16 = 0 ∨ 2 % 16 = 6 ∨ 2 % 16 = 7) ∧ (∀ x ∈ [none, some 3], s0.refuses 0x21000 x = false) ∧
    (smark mark0).refuses 0x21000 none = true ∧ (smark { mark0 with frozen := false, refuse := [3] }).refuses 0x21000 (some 3) = true := by
  and_intros <;> decide +kernel

/-- Stores and loads of another module that time out: of the stoker, of a lane, of a copy and of a matrix operation; and none. -/
theorem test_hyp_HostEvents_timeouts :
    ((sfar far).pend.find? fun y => y.id == 1 && y.key / 2 / 128 * 128 / 2 ^ 50 % 4 == 3 && !y.arrived && y.issued + 25000 ≤ 25000) = some far ∧
    ((sfar (way 0)).pend.find? fun y => y.id == 1 && y.key / 2 / 128 * 128 / 2 ^ 50 % 4 == 3 && !y.arrived && y.issued + 25000 ≤ 25000) = none ∧
    far.owner = some (0, 0) ∧ s0.keyOf (0, 0) = some 0 ∧ s0.grp 0 = some g0 ∧ g0.hnd = none ∧
    ({ far with kind := .lost (.scalar 3 false) 8 0 } : Pend).kind = .lost (.scalar 3 false) 8 0 ∧
    ({ far with kind := .lost (.lane oFar.id 0 3) 4 0 } : Pend).kind = .lost (.lane 5 0 3) 4 0 ∧
    ({ gl with slot0 := some { spl with outs := [oFar] } } : Machine.Group).slot0 = some { spl with outs := [oFar] } ∧
    (({ s0 with copies := [copyOf 9] } : State).copies.find? fun y => y.id == 9) = some (copyOf 9) ∧
    (s0.copies.find? fun y => y.id == 9) = none ∧ (copyOf 9).wg = 0 ∧ (copyOf 9).gidx = 0 := by
  and_intros <;> decide +kernel

/-- A copy within the scratchpad. -/
def copySp : List Byte := leBytes 8 0 ++ leBytes 8 1024 ++ leBytes 4 256 ++ leBytes 1 5 ++ List.replicate 11 0
/-- A projection of a group of another workgroup: what is left of its latent row, and the clock its row is formed at. -/
def projOf (left : List (Nat × Nat × Nat × Bool)) (ready : Nat) : Proj :=
  { id := 3, hearth := 0, ctx := 0, owner := (7, 0), slot := 0, gen := 1, token := 0, desc := BitVec.ofNat 512 (leNat viewDesc), left := left,
    lat := List.replicate 8 0x3F, waiters := [{ who := (0, 0), out := 0, elems := [(0, 4, 1)] }], ready := ready }
def piece : Nat × Nat × Nat × Bool := (0x21000, 8, 256, false)
def servedTo : Served := { who := (readerProj, 3), key := key0, bytes := List.replicate 128 0, pz := 0, copy := none }
def sproj (p : Proj) : State := { sw with projs := [p] }
def opOf_ (k : MatKind) (done n : Nat) : MatOp :=
  { id := 4, hearth := 0, ctx := 0, wg := 0, members := [0], gslot := 0, kind := k, record := mmaBytes, d := 0x1000, n := n, kdone := done }
def matS (m : MatOp) : State := { sm with mats := [m] }
/-- How an engine's read or check ends: 0 well, 1 waiting, 2 stopped or faulted. -/
def endOf {α : Type} (x : Moved α) : Nat :=
  match x with
  | .ok _ => 0
  | .wait => 1
  | .stop _ _ => 2
def endEng {α : Type} (x : Eng α) : Nat :=
  match x with
  | .ok _ => 0
  | .wait => 1
  | .fault _ => 2

/-- A projection whose last piece is served to it, leased in its hearth's L1, or still overtaken by a write of its group; one whose row is
formed and one that is not yet; a `vset` copy that ends. -/
theorem test_hyp_EngineEvents : ((sproj (projOf [piece] 0)).projs.find? fun x => x.id == 3) = some (projOf [piece] 0) ∧
    (s0.projs.find? fun x => x.id == 3) = none ∧ (projOf [piece] 0).left = [(0x21000, 8, 256, false)] ∧ (projOf [] 9).left = [] ∧
    s0.recording 0 = false ∧ physKey 0x21000 = key0 ∧ s0.ownWrites (7, 0) key0 = false ∧
    ({ s0 with pend := [{ way 0 with owner := some (7, 0) }] } : State).ownWrites (7, 0) key0 = true ∧
    (([servedTo].find? fun x => x.who == (readerProj, (projOf [piece] 0).id) && x.key == key0)) = some servedTo ∧
    (s0.served.find? fun x => x.who == (readerProj, 3) && x.key == key0) = none ∧ (leased.l1Copy 0 key0 (leased.frozenGen key0)).isSome ∧
    (leased.l1Copy 0 key0 (leased.frozenGen key0)).all (fun l => !partPz l.pz 0x21000 8) ∧ s0.clk < (projOf [] 9).ready ∧
    (projOf [] 0).ready ≤ s0.clk ∧ projectRow (vdesc (projOf [] 0).desc.toNat) ((sproj (projOf [] 0)).vent 0 0).bytes (projOf [] 0).lat ≠ [] ∧
    (projectRow (vdesc (projOf [] 0).desc.toNat) ((sproj (projOf [] 0)).vent 0 0).bytes (projOf [] 0).lat).length ≤ 128 ∧
    (projOf [] 0).install = true ∧ s0.grp 0 = some g0 ∧
    (tabGet ({ g0 with wBusy := [(1, { w := {}, ready := 5, addr := 0x3000, pc := 0 })] } : Machine.Group).wBusy 1).isSome := by
  and_intros <;> decide +kernel

/-- A copy that is over with and without writes on the way, held back, one whose unit reads and writes, one that faults. -/
theorem test_hyp_EngineEvents_copies : (({ s0 with copies := [copyOf 9] } : State).copies.find? fun x => x.id == 9) = some (copyOf 9) ∧
    (s0.copies.find? fun x => x.id == 9) = none ∧ (copyF 0 copySp).total = 256 ∧ (copyF 0 copySp).ok 4096 0 = true ∧
    256 ≤ ({ copyOf 9 with done := 256 } : Copy).done ∧ (copyF 0 copySp).kind = 0 ∧ (copyF 0 copySp).cvt = 0 ∧ (copyF 0 copySp).ssp = 1 ∧
    (copyF 0 copySp).dsp = 1 ∧ (sm.wgOf 0).spPz = [] ∧ (sm.wgOf 0).pages = [] ∧ s0.writesOf 4 = false ∧
    ({ s0 with pend := [{ way 4 with owner := none }] } : State).writesOf 4 = true ∧ s0.behind 0 4 = false ∧
    s0.precedes 0 [0] 4 = false ∧ ({ s0 with pend := [way 0] } : State).precedes 0 [0] 4 = true ∧
    endEng (sc.copyRead (copyOf 9) (copyF 0 copyDesc) 129 0 128).2 = 0 ∧
    endEng (sc.copyWrite (copyOf 9) (copyF 0 copyDesc) [(0, [1], false)]).2 = 0 ∧
    endEng (sc.copyRead (copyOf 9) { copyF 0 copyDesc with src := 0x100000 } 129 0 128).2 = 2 ∧
    endEng (sc.copyWrite (copyOf 9) { copyF 0 copyDesc with dsp := 0 } [(0x100000, [1], false)]).2 = 2 ∧
    s0.keyOf ((copyOf 9).wg, (copyOf 9).gidx) = some 0 ∧ g0.name = ((copyOf 9).wg, (copyOf 9).gidx) ∧ g0.yielded = none ∧
    ({ g0 with yielded := some (3, 0x40) } : Machine.Group).yielded = some ((copyOf 9).tag, 0x40) := by
  and_intros <;> decide +kernel

/-- A matrix operation whose turn it is and one that waits, at its first block and drained, with a group in place; units of each command. -/
theorem test_hyp_EngineEvents_matrices :
    ((matS (opOf_ .mma 0 0)).mats.find? fun x => x.id == 4 && x.kind == .mma) = some (opOf_ .mma 0 0) ∧
    (matS (opOf_ .mma 0 0)).matReady (opOf_ .mma 0 0) = true ∧ ({ matS (opOf_ .mma 0 0) with pend := [way 0] } : State).matReady (opOf_ .mma 0 0) = false ∧
    (opOf_ .mma 0 0).going = false ∧ (mmaRec mmaBytes).k / (mmaRec mmaBytes).a.bl = 1 ∧
    (sm.groups.any fun y => y.2.wg == 0 && y.2.gidx == 0 && !y.2.saved) ∧ tabGet sm.wgs 0 = some wm ∧ wm.pages = [] ∧
    ((matS (opOf_ .accld 0 1)).mats.find? fun x => x.id == 4 && x.kind != .mma) = some (opOf_ .accld 0 1) ∧
    endOf ((matS (opOf_ .accld 0 1)).unitRead (opOf_ .accld 0 1) (0, 0) 1025 0x1000 64).2 = 0 ∧
    endOf ((matS (opOf_ .accld 0 1)).unitRead (opOf_ .accld 0 1) (0, 0) 1025 0x100000 64).2 = 2 ∧
    sm.grp (128 * 0 + 0) = some gt ∧ (sm.mats.find? fun x => x.id == 4) = none ∧
    endOf ((matS (opOf_ .accst 0 1)).unitChecks (opOf_ .accst 0 1) [(0x1000, [1], false)]).2 = 0 ∧
    (matS (opOf_ .accst 0 1)).lentTo 0 key0 = false ∧
    endOf ((page 0x2004000F (matS (opOf_ .accst 0 1))).unitChecks (opOf_ .accst 0 1) [(0x1000, [1], false)]).2 = 1 ∧
    (([0, 0, 0x80, 0x3F] : List Byte).length = 4) := by
  and_intros <;> decide +kernel

/-- A grid that may be placed: one group of 32 threads without private memory. -/
def gr0 : Grid := { ctx := 0, kern := { placeKern with priv := 0 }, gx := 1, gy := 1, gz := 1, ngrp := 1, cleaned := true, args := List.replicate 8 0 }
def sg : State :=
  { s0 with ctxs := [(0, { ptroot := 0x10000, hset := 1 })], grids := [(1, gr0)], groups := [], wgs := [],
            queues := [(0, { die := some 0, desc := 0, ctx := 0, prio := 0, latency := false, irq := false, vec := 9, window := 0, nslot := 1, prog := 0, done := 0, err := 0 })] }

/-- A record that is sealed and one that is not, one that parses and one refused; recovery; a window write with and without a copy of the
device; a grid that may be placed where it fits and where nothing fits, one that may not; a grid that is over and one that is not. -/
theorem test_hyp_LaunchEvents : s0.replayLaunch.isNone ∧ s0.recd.active = false ∧ s0.recd.armed = false ∧
    (sg.queueAt 0).die ≠ none ∧ sg.coolant = true ∧ (tabD sg.ctxs 0 {}).ending = false ∧ (0 : Nat) / max 1 1 % 255 + 1 = 1 ∧
    ((sg.slotBytes 0 (sg.queueAt 0) 0).getD 255 0).toNat = 0 ∧
    (({ sg with bar2 := [(255, 1)] } : State).slotBytes 0 (sg.queueAt 0) 0).getD 255 0 = 1 ∧
    reasonOf (sg.parse 0 0 (({ sg with bar2 := [(255, 1)] } : State).slotBytes 0 (sg.queueAt 0) 0) none) = some 1 ∧
    reasonOf (img.parse 0 0 record none) = none ∧
    sg.cxl = false ∧ ({ sg with cxl := true } : State).cxl = true ∧ sg.recovery = false ∧ ({ sg with recovery := true } : State).recovery = true ∧
    (0x7F % 64 + ([1] : List Byte).length ≤ 64) ∧ tabGet sg.halves 1 = none ∧ (sg.home (halfKey 1)).exp ≤ sg.now ∧
    tabGet ({ sg with halves := [(1, .s)] } : State).halves 1 ≠ none ∧ Memory.wf sg.mem = true ∧
    sg.mayPlace 1 gr0 = true ∧ sg.mayPlace 1 { gr0 with next := 1 } = false ∧ gr0.cores = false ∧ gr0.cleaned = true ∧
    (tabD sg.ctxs 0 {}).hset.getLsbD 0 = true ∧ sg.kept 0 = false ∧ sg.room 0 (fun _ => true) gr0 ≠ 0 ∧
    (∀ h ∈ [0, 1, 143], sg.room h (fun _ => true) { gr0 with kern := { placeKern with scratch := 2 ^ 20 } } = 0) ∧
    (sg.takeAreas 0 gr0.kern.area 1 (sg.areas 0)).isSome ∧ ({ gr0 with next := 1 } : Grid).live = 0 ∧ gr0.parent = none ∧
    ({ gr0 with next := 1, parent := some (0, 0) } : Grid).parent ≠ none ∧
    (∀ x ∈ sg.grids, x.2.pgrid ≠ some 1) ∧ (sg.queueAt 0).done = 0 ∧ (sg.queueAt 0).fin = [] := by
  and_intros <;> decide +kernel

/-- A page whose freeze is under way, at generation 1. -/
def fp : FrzPage := { ctx := 0, va := 0, size := 65536, gen := 1 }
/-- The device whose freeze table holds page 0 with a count, a state and a generation, DONE clear or set. -/
def sfp (count state : Nat) (p : FrzPage) (done : Nat := 8) : State :=
  { sf.pokeNat 0x30000 8 (1 + 2 * state + done + 16 * count + 4096) with frz := [p] }
def fthaw : FrzPage := { fp with thawing := true, acks := [(0, 0), (1, 0)] }

/-- A module that is this one and one that is not; no page, one that is ready and one that is not, with and without a pending thaw. -/
theorem test_hyp_FreezeSteps : (evs s0 0 0 0 Config.moduleNumber.toNat).ev.d = Config.moduleNumber.toNat ∧
    (evs s0 0 0 0 (Config.moduleNumber.toNat + 1)).ev.d ≠ Config.moduleNumber.toNat ∧ (s0.frz.find? fun y => y.ctx == 0 && y.va == 0) = none ∧
    ((sfp 1 1 fp).frz.find? fun y => y.ctx == 0 && y.va == 0) = some fp ∧ fp.thawing = false ∧ fp.mods = [] ∧
    ({ fp with mods := [3] } : FrzPage).mods ≠ [] ∧ (sfp 1 1 fp).pageBusy 0 0 65536 = false ∧
    ({ sfp 1 1 fp with pend := [way 0] } : State).pageBusy 0 0 65536 = true ∧ fp.thawPend = none ∧
    ({ fp with thawPend := some 1 } : FrzPage).thawPend = some 1 ∧ (sfp 1 1 fp).frzFind (tabD sf.ctxs 0 {}) 0 = some 0 := by
  refine ⟨rfl, ?_, ?_⟩
  · show Config.moduleNumber.toNat + 1 ≠ Config.moduleNumber.toNat
    omega
  · and_intros <;> decide +kernel

/-- The last answer and one before it, from a module that is asked and one that is not; a thaw that is late and one that is not; leaves and
table entries apart; entries of each count and state; a frozen page, one that thaws, and a reader's die. -/
theorem test_hyp_FreezeSteps_thaws : fthaw.thawing = true ∧ (0, 0) ∈ fthaw.acks ∧ (2, 0) ∉ fthaw.acks ∧
    (fthaw.acks.filter fun y => y != (0, 0)) ≠ [] ∧ (({ fthaw with acks := [(0, 0)] } : FrzPage).acks.filter fun y => y != (0, 0)) = [] ∧
    fthaw.acks ≠ [] ∧ fthaw.sent + (if (tabD sf.ctxs 0 {}).frto = 0 then 100 else (tabD sf.ctxs 0 {}).frto) * 1000 ≤ ({ s0 with clk := 250000 } : State).now ∧
    s0.now < fthaw.sent + 100 * 1000 ∧
    (match ({ sf with tlb := [] } : State).walk (tabD sf.ctxs 0 {}) 0 with
      | .found _ pa sz => pa == 0x1C100 && sz == 0
      | _ => false) = true ∧
    Memory.wf (sfp 1 1 fp).mem = true ∧ (tabD sf.ctxs 0 {}).frzn = 1 ∧ 0x1C100 + 8 ≤ frzAt (tabD sf.ctxs 0 {}) 0 ∧
    (∀ p ∈ [(0, 2, 8), (1, 1, 8), (2, 1, 8), (254, 1, 0), (1, 1, 0), (1, 2, 8)],
      (sfp p.1 p.2.1 fp p.2.2).frzEnt (tabD sf.ctxs 0 {}) 0 = ⟨p.2.1, p.2.2 == 8, p.1, 1⟩) ∧ (sf.frzEnt (tabD sf.ctxs 0 {}) 0).state = 0 ∧
    (sf.frzEnt (tabD sf.ctxs 0 {}) 0).count = 0 ∧
    (smark mark0).frozenGen key0 = some 1 ∧ (smark { mark0 with thawing := true }).frozenGen key0 = none ∧ s0.frozenGen key0 = none ∧
    (∃ d < 4, d ≠ (homeOf key0).1 ∧ s0.fenced d key0 = false) := by
  and_intros <;> decide +kernel

/-- A context descriptor (R367) and a queue descriptor of four records (R368) that keep their tables. -/
def ctxDesc : List Byte := leBytes 8 0x10000 ++ List.replicate 72 0 ++ leBytes 4 1 ++ List.replicate 172 0
def queueDesc : List Byte := leBytes 2 5 ++ leBytes 2 0 ++ leBytes 1 0 ++ leBytes 1 9 ++ List.replicate 10 0 ++ leBytes 4 4 ++ List.replicate 44 0
/-- The device with the group stopped by a trap of a code, and with a store or a lost load of another module on the way. -/
def sstop (code : Nat) : State := on { g0 with susp := some { code := code } }
def spend (k : PKind) : State := { s0 with pend := [{ way 0 with kind := k }], nextId := 2 }
def runs1 (code : Nat) (pend : List Pend) : State := { s0 with cmd := { run := some (code, 2), held := [0, 0, 65536] }, pend := pend }

/-- The command area busy and free, recovery; contexts that live, that do not exist, that have ended; rings in and out of range; writes on the
way; groups that are suspended, stopped by the device, run, or are not there; places out of range. -/
theorem test_hyp_Commands : s0.cmd.run = none ∧ (runs1 1 []).cmd.run ≠ none ∧ s0.recovery = false ∧ tabGet s0.ctxs 5 = none ∧
    (tabGet s0.ctxs 0).any (fun c => !c.ended) ∧ (tabGet ({ s0 with ctxs := [(0, { ended := true })] } : State).ctxs 0).any (·.ended) ∧
    (0x50000 < 2 ^ 52 ∧ 0x50000 % 4096 = 0 ∧ 65536 ≤ 2 ^ 39) ∧ 65536 = 2 ^ 16 ∧ ¬ (65536 ≤ 65535) ∧ s0.recd.active = false ∧
    s0.recd.armed = false ∧ (3 < 4 ∧ 35 < 36 ∧ 127 < 128) ∧ (36 * 3 + 35) * 128 + 127 = 18431 ∧ s0.grp 18431 = none ∧ s0.saved = [] ∧
    s0.grp 0 = some g0 ∧ g0.susp = none ∧ (sstop 0).grp 0 = some { g0 with susp := some { code := 0 } } ∧
    (sstop 7).grp 0 = some { g0 with susp := some { code := 7 } } ∧ s0.keyOf g0.name = some 0 ∧ g0.gidx < 32 ∧ g0.ctx = 0 ∧
    (∃ p ∈ (spend (.store 0x21000 [1] false)).pend, p.owner = some g0.name ∧ p.isLost = false ∧ p.ctx = 0 ∧ p.id < 2) ∧
    (∀ p ∈ (spend (.lost (.scalar 3 false) 8 0)).pend, p.isLost = true) ∧ s0.pend = [] ∧ s0.engaged g0 = false ∧
    ({ s0 with copies := [copyOf 9] } : State).engaged g0 = true ∧ ((s0.groups.map (·.1)).Nodup) ∧
    (∃ w ∈ ({ s0 with grids := [(0, { s0.gridAt 0 with kern := { placeKern with preempt := true } })] } : State).wgs, w.2.ctx = 0) ∧
    (¬ ∃ w ∈ s0.wgs, w.2.ctx = 0 ∧ (s0.gridAt w.2.grid).kern.preempt = true) ∧ (∀ y ∈ s0.queues, y.2.ctx ≠ 0) ∧
    (∃ y ∈ sg.queues, y.2.ctx = 0 ∧ y.2.die ≠ none) ∧ ({ s0 with saved := [away] } : State).saved.any (fun v => v.wg.ctx == 0) ∧
    (∀ y ∈ ({ s0 with groups := [] } : State).groups, y.2.ctx ≠ 0) ∧ (tabD s0.ctxs 0 {}).ops = [] ∧ s0.frz = [] := by
  and_intros <;> decide +kernel

/-- Freeze entries that are sound and one thaw-failed, with a refused module and none; a pool with room and full; queues and contexts that may
and may not be loaded; a command that runs and is over, and one that waits for a write. -/
theorem test_hyp_Commands_tables : (s0.frzCover (tabD s0.ctxs 0 {}) 0).isNone ∧ s0.refusing 0 0 = false ∧
    (smark { mark0 with refuse := [3] }).refusing 0 0 = true ∧
    ((sfp 1 3 fp).frzCover (tabD sf.ctxs 0 {}) 0xFFFF) = some (0, 0, 65536) ∧ ((sfp 1 3 fp).frzEnt (tabD sf.ctxs 0 {}) 0).state = 3 ∧
    ((sfp 1 1 fp).frzEnt (tabD sf.ctxs 0 {}) 0).state ≠ 3 ∧ ((sfp 0 3 fp).frzEnt (tabD sf.ctxs 0 {}) 0).count = 0 ∧
    (spool.pool 0).count.toNat + 2 ≤ (spool.pool 0).ringsize.toNat ∧ (spool.pool 0).ringsize.toNat < (spool.pool 0).count.toNat + 3 ∧
    queueOk 5 false queueDesc = true ∧ queueOk 6 false queueDesc = false ∧ (s0.queueAt 5).die = none ∧ (sg.queueAt 0).die = some 0 ∧
    ctxOk ctxDesc = true ∧ ctxOk (List.replicate 256 0) = false ∧ s0.ctxFree 5 = true ∧ s0.ctxFree 0 = false ∧ s0.toThaw (tabD s0.ctxs 0 {}) = [] ∧
    (runs1 1 []).shootdownOver 2 = true ∧ (runs1 1 [way 0]).shootdownOver 2 = false ∧ (runs1 5 []).cmd.run = some (5, 2) ∧
    (runs1 5 []).shootdownOver 2 = true := by
  and_intros <;> decide +kernel

/-- The placed device as it stands before its step, with the code of the stoker or of the lanes. -/
def placed (lane : Bool) (code : List Byte) : State := State.reset.placeCode lane code
/-- What the state fetches n words from an address up as, or where it cannot. -/
def fetched (s : State) (g : Machine.Group) (va : W64) (n : Nat) : Option (List Nat) :=
  match (s.fetchWords 0 g va n).2 with
  | .ok l => some l
  | _ => none

/-- The device that boots, that has stopped, with nothing due; a stoker and a split that take the next opportunity; words that decode, `slit`
units, illegal words, pages that cannot be fetched; loads to be issued again. -/
theorem test_hyp_StepRunsDecoded : State.reset.booted = false ∧ State.reset.recovery = false ∧ (placed false []).booted = true ∧
    ({ s0 with stopped := true } : State).stopped = true ∧
    (placed false []).due.isNone ∧ State.reset.due.isSome ∧ (placed false []).nextOffer = some (0, .stoker 0) ∧
    (placed true []).nextOffer = some (4, .lane 0 0) ∧ (placed false []).grp 0 = some g0 ∧ (placed true []).grp 0 = some gl ∧ gl.split 0 = some spl ∧
    ({ placed false [] with groups := [] } : State).nextOffer = none ∧
    (∀ p ∈ (placed false []).groups, p.2.sWait = false ∧ p.2.slot0 = none ∧ p.2.slot1 = none) ∧ g0.redo = [] ∧ spl.redo = none ∧
    ({ g0 with redo := [.vset 1 0x3000 0] } : Machine.Group).redo ≠ [] ∧ ({ spl with outs := [{ outOf 0 with again := true }] } : Split).redo = some { outOf 0 with again := true } ∧
    fetched (placed false (leBytes 4 0x3E000000)) g0 0x100 1 = some [0x3E000000] ∧ 0x3E000000 / 2 ^ 25 % 2 ^ 7 ≠ 0x7F ∧
    fetched (placed false (leBytes 4 0xFE00091A)) g0 0x100 1 = some [0xFE00091A] ∧
    fetched (placed false (leBytes 4 0xFE00091A)) g0 0x104 2 = some [0, 0] ∧ 0xFE00091A / 2 ^ 25 % 2 ^ 7 = 0x7F ∧
    (decodeStoker 0x5C000001 0 0).toOption = none ∧ fetched (placed false []) g0 0x10000 1 = none ∧
    fetched (placed true (leBytes 4 0x50004010)) gl 0x100 3 = some [0x50004010, 0, 0] ∧ canonical 0x100 = true ∧
    found ((placed false []).translate 0 0 0x100).2 (fun t => t.rd && t.creg.isNone &&
      !(placed false []).fenced 0 ((placed false []).keyOfTr (tabD (placed false []).ctxs 0 {}) t)) = true := by
  and_intros <;> decide +kernel

/-- Registers within the kernel's and beyond them, and an instruction that names a register of an open window in checked mode. -/
theorem test_hyp_StepRunsDecoded_lane :
    (match laneSig (.laneAdd { f0 with vd := 247, ty := 4 }) with
      | some (q, f) => withinVregs q f 248
      | none => false) = true ∧
    (match laneSig (.laneAdd { f0 with vd := 248, ty := 4 }) with
      | some (q, f) => withinVregs q f 248
      | none => true) = false ∧
    ({ gl with blocks := [{ blk 1 .executing with snap := { mode := 0x201 } }] } : Machine.Group).violates { spl with outs := [outOf 0] }
      (.laneAdd { f0 with va := 3, ty := 4 }) = true ∧
    gl.violates { spl with outs := [outOf 0] } (.laneAdd { f0 with va := 3, ty := 4 }) = false := by decide +kernel

theorem test_hyp_EncodeDecode : (Instr.add 63 63 63).wf = true ∧ encode (.add 63 63 63) ≠ [] ∧
    (decodeStoker 0x01FFFF80 0 0).toOption = some (.add 63 63 63) ∧ (decodeLane 0x50004010 0x0203000C 0).toOption.isSome := by decide +kernel

theorem test_hyp_NothingRefused : s0.stokerAt 0 g0 ∧ laneSig (.add 1 2 3) = none ∧ l0.laneAt 0 0 gl { pc := 0, mask := fullMask 32 } ∧
    (laneSig (.laneAdd f0)).isSome ∧ encode .coolantConfirm = [] := ⟨⟨rfl, rfl⟩, rfl, ⟨rfl, rfl, rfl⟩, rfl, rfl⟩

theorem test_hyp_StepKeepsMemory : Memory.wf (placed false (leBytes 4 0x3E000000)).mem = true ∧
    (match step (placed false (leBytes 4 0x3E000000)) with
      | .next t => Memory.wf t.mem
      | _ => false) = true := by decide +kernel

/-! What the statements ask for besides: reads that wait, copies of lines that are out, operations on their way. -/

/-- A line lent to a hearth that is not the reader's. -/
def lentOut (s : State) (pa : Nat) : State := { s with homes := [(physKey pa, { lent := some 5 })] }
/-- How a command's read of its record ends: 0 read, 1 waiting, 2 trapped. -/
def once (s : State) (g : Machine.Group) (va : W64) (n : Nat) : Nat :=
  match (s.readOnce 0 g va n).2 with
  | .inl (some _) => 0
  | .inl none => 1
  | .inr _ => 2
/-- A group whose `vset` copy into entry 0 ends at clock 9. -/
def copying : Machine.Group :=
  { g0 with gidx := 1, wBusy := [(2, { w := { bound := true, slot := 0, gen := 1 }, ready := 9, addr := 0x3000, pc := 0 })] }

/-- A thawing page for an atomic, a poisoned address, no poisoned copy; an entry with a copy under way and none; records read once, that wait,
that trap, that are held already; lines of the freeze table out and at home; walks across a dead link; an entry's line out. -/
theorem test_hyp_Commands_reads : chk (page 0x2004000F) (accAtomic false true) 0 8 = .wait ∧ ((regs lost (val 0)).sGet 1).pz = true ∧ s0.copyPz = [] ∧
    (∀ l ∈ leased.l1Lines 0 (l1SetOf (physKey 0x21000)), l.pz = 0) ∧ sw.copyEnds 0 0 = none ∧
    ({ sw with groups := [(0, gw), (1, copying)] } : State).copyEnds 0 0 = some 9 ∧
    [once sm gt 0x3000 64, once (lentOut sm 0x23000) gt 0x3000 64, once sm gt 0x100000 64, once sm { gt with got := some mmaBytes } 0x100000 64] = [0, 1, 2, 0] ∧
    [once sc g0 0x3000 32, once (lentOut sc 0x23000) g0 0x3000 32, once sc g0 0x100000 32, once sc { g0 with got := some copyDesc } 0x100000 32] = [0, 1, 2, 0] ∧
    sf.lineQuiet 0x30000 = true ∧ (lentOut sf 0x30000).lineQuiet 0x30000 = false ∧ sp1.walkCut 0 (tabD s0.ctxs 0 {}) 0x10000 0x40000 = false ∧
    ({ sp1 with fences := [(0, 1)] } : State).walkCut 0 (tabD s0.ctxs 0 {}) 0x10000 (2 ^ 38) = true ∧ sp1.lineQuiet 0x1C108 = true ∧
    (lentOut sp1 0x1C108).lineQuiet 0x1C108 = false ∧ s0.gathering 0 = false ∧ ({ s0 with pend := [{ way 0 with owner := none }] } : State).gathering 0 = true ∧
    (∀ y ∈ (page 0x2000000F).tlb, y.ga = none ∧ y.gd = none) := by
  and_intros <;> decide +kernel

/-- A load whose window is open over line bytes a lane load reads, one of a split that waits for it, and none. -/
def awaiting : Machine.Group := { gl with slot0 := some { spl with outs := [{ oldOut with ldvs := [(0, 9, 0, 1, 1)] }] } }
/-- The translation of 0x1000 in codec region 0. -/
def codecTr : Tr := { tr0 with pa := 0x1000, creg := some 0 }

/-- A group with a result under way that its trap awaits, and none. -/
theorem test_hyp_Traps_await : gl.awaits = false ∧ g0.awaits = false ∧ awaiting.awaits = true ∧ (fl 11).ty.toNat = 11 := by
  and_intros <;> decide +kernel

/-- An older `ldv` that is still to read the bytes; a group with nothing on its way and nothing served; a private line that is in the
backing and one not; a line of L1 without poison. -/
theorem test_hyp_LaneLoads_order : oldOut.complete = false ∧ (∃ r ∈ (lenv (ix 0x1000)).loadParts .glob [⟨0, 0x1000, some tr0⟩] 4 false, oldOut.reads r = true) ∧
    (∀ q ∈ (lpage 0x2000000F).pend, q.owner ≠ some (0, 0)) ∧ (∀ q ∈ (lpage 0x2000000F).served, q.who ≠ (lpage 0x2000000F).reader) ∧
    (lpage 0x2000000F).grp 0 = some (lenv (ix 0)).g ∧ tr0.creg = none ∧ isOther tr0.pa = false ∧ (lpage 0x2000000F).readWaits 0 (physKey tr0.pa) = false ∧
    (leased.l1Copy 0 (physKey tr0.pa) (leased.frozenGen (physKey tr0.pa))).isSome ∧ (∀ ln ∈ leased.l1Lines 0 (l1SetOf (physKey tr0.pa)), ln.pz = 0) ∧
    (∀ i < 4, leased.poison.contains ((tr0.pa + i) / 32) = false) ∧ gl.pb % 128 = 0 ∧ 1 ∈ ({ gl with privBack := [1] } : Machine.Group).privBack ∧
    (255 / 128 = 1 ∧ 255 < gl.areaBytes) ∧ (∀ ln ∈ (lpage 0x2000000F).l1Lines 0 (l1SetOf (physKey (gl.pb + 128))), ln.kind = .priv → ln.key % 256 = 0) ∧
    (lpage 0x2000000F).poison.contains ((gl.pb + 255) / 32) = false ∧ gl.privPz = [] ∧ (tabD (lpage 0x2000000F).cells ((gl.pb + 255) / 128) 0).toNat < 8 := by
  and_intros <;> decide +kernel

theorem passes_codec (a : AccK) (ty : Nat) (h : (a = accStore true ∧ ty = 6) ∨ (a = accAtomic true false ∧ ty = 11)) :
    (lenv (ix 0x1000 ty) 0x8F).passes .glob a 8 (fun _ => false) (lpage 0x8F) [⟨0, 0x1000, some codecTr⟩] := by
  rcases h with ⟨rfl, rfl⟩ | ⟨rfl, rfl⟩ <;> exact ⟨by decide +kernel, fun go => by rfl⟩

/-- Stores to a codec region, and atomics on it, in no line lent; a release that waits for a load of its split. -/
theorem test_hyp_LaneStores_codec : (lenv (ix 0x1000 6) 0x8F).passes .glob (accStore true) 8 (fun _ => false) (lpage 0x8F) [⟨0, 0x1000, some codecTr⟩] ∧
    (lenv (ix 0x1000 11) 0x8F).passes .glob (accAtomic (0 == 0 && (lenv (ix 0x1000 11)).ty == 11) (pcieAtomic 0 11)) 8 (fun _ => false) (lpage 0x8F)
      [⟨0, 0x1000, some codecTr⟩] ∧
    codecTr.creg = some 0 ∧ (∀ i, (lpage 0x8F).lentTo 0 (2 * i + 1) = false) ∧ Memory.wf (lpage 0x8F).mem = true ∧ tyRegs 11 = 2 ∧
    (∃ o ∈ [{ oldOut with reqs := [{ t := 0, r := 9, space := .glob, off := 0x21000, size := 4, signed := false }] }],
      (o : Out).isLoad = true ∧ o.arrived 5 = false) :=
  ⟨passes_codec _ _ (.inl ⟨rfl, rfl⟩), passes_codec _ _ (.inr ⟨rfl, rfl⟩), rfl, fun _ => rfl, by decide +kernel, rfl, _, List.mem_singleton.2 rfl, by decide +kernel⟩

/-- Results that came in order and one that an older one still holds back; operations that are in no step and await no module. -/
theorem test_hyp_GroupEvents_order : ([outOf 5, { outOf 6 with id := 6 }] : List Out).Nodup ∧ (outOf 0).complete = true ∧ (outOf 0).ready ≤ s0.clk ∧
    (outOf 0).shares oldOut = false ∧ ({ oldOut with id := 7 } : Out).shares oldOut = true ∧ cameOf 5 [] [oldOut, { oldOut with vals := [], ready := 2 }] = [] ∧
    (tabD (sdue g0).ctxs ((sdue g0).wgOf g0.wg).ctx {}).restoring = false ∧ s0.awaitsModule 4 = false ∧ (sdue g0).copies = [] ∧
    ({ s0 with pend := [{ way 4 with owner := none, key := physKey (3 * 2 ^ 50) }] } : State).awaitsModule 4 = true := by
  and_intros <;> decide +kernel

/-- Two saved workgroups of the context; the other not back, back, or none. -/
def away2 (back : Bool) : Saved := { away with wgid := 8, groups := [], back := back }
def satom : State := { sback [] with pend := [{ atomWay with owner := some (7, 0) }] }

/-- Records sent and still on their way, an entry's line out, bits that are due; the other workgroup not back and back; an atomic of the
group. -/
theorem test_hyp_UnitEvents_own : ({ recOf true with sent := true } : Rec).sent = true ∧ ({ sq with pend := [{ way 0 with ctx := 1025 }] } : State).ownBusy (ownFaults 0) = true ∧
    sq.ownBusy (ownFaults 0) = false ∧ sq.lineQuiet 0x50000 = true ∧ bits 0x50000 50 2 = 0 ∧ (lentOut sq 0x50000).lineQuiet 0x50000 = false ∧
    0x50000 % 128 + (recOf true).bytes.length ≤ 128 ∧ (recOf true).bytes ≠ [] ∧ (∀ y ∈ sq.recs, sq.recording y.ctx = false) ∧
    0 + 990000 ≤ ({ s0 with clk := 2475000 } : State).now ∧ s0.lineQuiet (tlbOf none).leafPa = true ∧ (lentOut s0 8).lineQuiet (tlbOf none).leafPa = false ∧
    away.back = false ∧ (∃ y ∈ [away, away2 false], y.wg.ctx = 0 ∧ y.wgid ≠ 7 ∧ y.back = false) ∧
    ((∀ p ∈ [(1, { g0 with wg := 7, saved := true })], p.2.ctx = 0 ∧ p.2.saved = true) ∧ ∀ y ∈ [away, away2 true], y.wg.ctx = 0 →
      (y.wgid = 7 ∨ y.back = true) ∧ y.crecs = y.copies.map Copy.record ∧ s0.locksDue 0 y.wg.hearth ≤ (s0.freeLocks y.wg.hearth).length) ∧
    (∀ q ∈ (sback []).pend, q.isAtomic = false) ∧ (∃ q ∈ satom.pend, q.isAtomic = true ∧ q.owner = some ({ g0 with wg := 7 } : Machine.Group).name) ∧
    (away2 true).back = true := by
  and_intros <;> decide +kernel

/-- The device with an L1 line, and with copies of the key's line of each kind. -/
def sline (l : L1Line) : State := { s0 with l1 := [(0, [l])] }
def scopies : State := { s0 with sectors := [(key0, 900)], remotes := [(key0, 0)], replicas := [(key0, 1)] }

/-- Lines under a codec key and none; answers that are ready; L1 lines of every kind that an error meets; a private line's owner; copies. -/
theorem test_hyp_HomeEvents_copies : s0.answerReady (way 0) = true ∧ s0.answerReady arrivedAtomic = true ∧ (replaying s0).answerReady { arrivedAtomic with key := physKey (3 * 2 ^ 50), kind := .atomic (3 * 2 ^ 50) 8 7 7 1 0 (.scalar 3 false) } = false ∧
    s0.underLines key0 = [] ∧ arrivedAtomic.isAtomic = true ∧ (∃ z ∈ [arrivedAtomic], z.owner = some (0, 0)) ∧
    (∃ z ∈ (sproj { projFor (0, 0) with owner := (0, 0) }).projs, some (readerProj, z.id) = some (readerProj, 3) ∧ ({ s0 with pend := [way 0] } : State).ownWrites z.owner key0 = true) ∧
    (∀ kind ∈ [L1Kind.leased, .codec, .view, .lent, .priv], (sline { kind := kind, key := physKey 0 }).l1Lines 0 0 = [{ kind := kind, key := physKey 0 }]) ∧
    s0.privOwner 0 (physKey 0) = some (0, g0) ∧ (tabGet scopies.sectors key0).isSome ∧ (tabGet scopies.remotes key0).isSome ∧ (tabGet scopies.replicas key0).isSome ∧
    (∀ z ∈ s0.remotes, keyPa (z.1 / 4) ≠ keyPa key0) ∧ (∃ l, tabGet (sl2 {}).l2 (keyPa key0) = some l ∧ l.place = none) ∧ isCodecKey 0x40001 = true := by
  refine ⟨?_, ?_, ?_, ?_, ?_, ?_, ?_, ?_, ?_, ?_, ?_, ?_, ?_, ⟨{}, by decide +kernel⟩, ?_⟩ <;> decide +kernel

/-- A record to be written, the ring's line out; a queue whose seal line the snooped half holds, and none. -/
def strace (sent : Bool) : State := { s0 with recd := { ctx := 0, active := true, tbase := 0x60000, tsize := 65536, pend := [List.replicate 32 0], sent := sent } }
def squeue : State := { s0 with cxl := true, queues := [(0, { die := some 0, desc := 0, ctx := 0, prio := 0, latency := false, irq := false, vec := 9, window := 0, nslot := 1, prog := 0, done := 0, err := 0 })] }

/-- Trace records at once and through the home, sent and still on their way; halves of a seal line; a datum from the log for BAR2 and BAR0;
a read that the device makes for itself and that times out. -/
theorem test_hyp_HostEvents_trace : (strace false).recd.pend ≠ [] ∧ (strace false).lineQuiet 0x60000 = true ∧ (lentOut (strace false) 0x60000).lineQuiet 0x60000 = false ∧
    bits 0x60000 50 2 = 0 ∧ 0x60000 % 128 + 32 ≤ 128 ∧ (strace false).ownBusy ownTrace = false ∧
    ({ strace true with pend := [{ way 0 with ctx := 1029 }] } : State).ownBusy ownTrace = true ∧ (strace true).recd.sent = true ∧
    physKey ((squeue.queueAt 0).slotPa 0 + 255) = physKey (2 ^ 50 + 64 * 3) ∧ (squeue.queueAt 0).die ≠ none ∧ squeue.cxl = true ∧ snoop1.inv = true ∧ snoop1.data ≠ none ∧
    keyed squeue.l2 (fun x => x % 128 = 0 ∧ x < 2 ^ 52) ∧ tabGet squeue.l2 (keyPa (physKey (2 ^ 50 + 64 * 3))) = none ∧ (∀ q ∈ s0.queues, q.2.die = none) ∧
    2 ^ 52 ≤ 2 ^ 52 + 255 ∧ 2 ^ 52 + 255 < 2 ^ 53 ∧
    ({ far with kind := .lost (.reader (readerProj, 3) false) 8 0 } : Pend).kind = .lost (.reader (readerProj, 3) false) 8 0 := by
  and_intros <;> decide +kernel

/-- The projection with its range registered; another of the hearth that came before it; a view whose rows are one register wide. -/
def plock : Proj := { projOf [piece] 0 with locked := true }
def pfirst : Proj := { projOf [piece] 0 with id := 2 }
def pnarrow : Proj := { projOf [] 0 with desc := BitVec.ofNat 512 (leNat (viewDesc.take 18 ++ leBytes 6 9 ++ viewDesc.drop 24)) }
/-- A gather of 128 bytes whose indexes lie at an address. -/
def gather (idx : Nat) : CopyF := copyF 2 (leBytes 8 0x1000 ++ leBytes 8 0 ++ leBytes 4 128 ++ leBytes 2 4 ++ leBytes 2 2 ++ leBytes 8 idx)
/-- A matrix operation's workgroup whose first page is not resident, its backing across a dead link. -/
def sfar2 : State :=
  { sm with fences := [(0, 1)], ctxs := [(0, { ptroot := 0x10000, spback := 2 ^ 38 })], wgs := [(0, { wm with pages := [(0, pageOf false)] })] }

/-- Projections that may take a lock and that may not, read by the other module's silence, late, with one waiter; indexes that are read,
that wait, that fault; units that are late; a tile whose page cannot be read. -/
theorem test_hyp_EngineEvents_ends : plock.locked = true ∧ plock.left = [piece] ∧ (sproj plock).mayLock (projOf [piece] 0) = true ∧
    ({ sproj plock with projs := [pfirst, projOf [piece] 0] } : State).mayLock (projOf [piece] 0) = false ∧ (sproj plock).freeLock 0 = some 0 ∧
    s0.readerOut (readerProj, 3) key0 = false ∧ ({ s0 with pend := [{ way 0 with key := key0, kind := .lost (.reader (readerProj, 3) false) 8 0 }] } : State).readerOut (readerProj, 3) key0 = true ∧
    s0.lostRead 0 0 key0 1 = false ∧ (projOf [] 0).ready = 0 ∧ s0.clk < ({ projOf [] 0 with late := 9 } : Proj).late ∧ (projOf [] 0).late ≤ s0.clk ∧
    (vdesc pnarrow.desc.toNat).ofmt = 9 ∧ pnarrow.waiters.length = 1 ∧ pnarrow.stale = false ∧ ({ pnarrow with stale := true } : Proj).stale = true ∧
    (gather 0x2000).ok 4096 32768 = true ∧ (gather 0x2000).needs (copyOf 9) 128 ≠ 0 ∧
    [endEng (sc.copyIndexes (copyOf 9) (gather 0x2000) 1).2.2, endEng ((lentOut sc 0x22000).copyIndexes (copyOf 9) (gather 0x2000) 1).2.2,
      endEng (sc.copyIndexes (copyOf 9) (gather 0x100000) 1).2.2] = [0, 1, 2] ∧
    endEng (sc.copyBytes (copyOf 9) 0 (2 ^ 64 - 4) 8).2 = 2 ∧ s0.clk < ({ copyOf 9 with late := 9 } : Copy).late ∧ (copyOf 9).late ≤ s0.clk ∧
    ({ opOf_ .accld 0 1 with late := 9 } : MatOp).late = 9 ∧ sfar2.refillFails 0 (mmaRec mmaBytes) = true ∧ sm.refillFails 0 (mmaRec mmaBytes) = false := by
  and_intros <;> decide +kernel

/-- A launch slot whose lines are held by a snoop, and free; writes of a grid's context on their way; an edge that is not quiet; a child
grid; areas. -/
theorem test_hyp_LaunchEvents_waits : squeue.readHeld (2 ^ 50) 256 = false ∧ ({ squeue with snoops := [{ half := 3, inv := true, data := none }] } : State).readHeld (2 ^ 50) 256 = true ∧
    (0 + 256 * (1 % 1) + 255 < 2 ^ 50) ∧ keyed (squeue.readLines (2 ^ 50) 256).l2 (fun x => x % 128 = 0 ∧ x < 2 ^ 52) ∧
    (∀ p ∈ (squeue.readLines (2 ^ 50) 256).l2, p.2.place = none) ∧ squeue.cmd.run ≠ some (0x0B, 1) ∧
    ({ sg with pend := [{ way 0 with owner := none }] } : State).gathering 0 = true ∧ (sg.harvest 0).gathering 0 = false ∧ sg.edgesOn 0 0 1 = [] ∧
    ({ gr0 with irq := true, parent := some (0, 0) } : Grid).irq = true ∧ sg.takeAreas 0 gr0.kern.area 1 (sg.areas 0) = some [0] := by
  and_intros <;> decide +kernel

/-- A page whose lines are quiet and not; accesses of the context since its shootdown and before it; the last answer after a silent module;
a page that is there and one that is not; the lines a frozen line is read from. -/
theorem test_hyp_FreezeSteps_waits : (sfp 1 1 fp).pageQuiet 0 0 = true ∧ (lentOut (sfp 1 1 fp) 0x30000).pageQuiet 0 0 = false ∧
    (∀ y ∈ [way 0], y.ctx = 0 → 1 ≤ y.id) ∧ fp.bound ≤ 1 ∧ (∃ y ∈ [way 0], y.ctx = 0 ∧ y.id < 2) ∧
    ((5, 0) ∉ fthaw.acks ∧ fthaw.acks ≠ []) ∧ ({ fthaw with acks := [] } : FrzPage).acks = [] ∧ fthaw.mods = [] ∧
    (s0.placeOf 0 0x100000 65536).1 = none ∧ (sf.placeOf 0 0 65536).1 = some 0x20000 ∧ isCodecKey key0 = false ∧
    (s0.touchHome key0 false).replicaKeys key0 = [key0] ∧ tabGet ({ s0 with replicas := [(4 * key0 + 1, 1)] } : State).replicas (4 * key0 + 1) = some 1 ∧
    (∃ y ∈ (fclean sw).vstore, y.2.fclean = true ∧ y.2.ctx = 0) ∧ (∃ y ∈ (sproj plock).projs, dieOf y.hearth = 0 ∧ y.stale = false) := by
  and_intros <;> decide +kernel

/-- Recording and not; a command that waits as it was given; lines a command reads held and free; queues in and out; writes on their way; a
group that saved atomics hold back; the words of a die; a log that names BAR0. -/
def swait (code : Nat) : State := { s0 with cmd := { cmd := BitVec.ofNat 64 code, args := [0, 0, 0, 0], status := 1, run := some (code, 0), held := [0, 0, 0, 0] } }
def slog0 : State :=
  { s0.poke 0x60000 (traceBytes 2 0 6 (datumHead (2 ^ 53 + 0x1000) (List.replicate 40 13)) ++ List.replicate 64 13) false with
    recd := { ctx := 0, active := true, replay := true, tbase := 0x60000, tsize := 65536, head := 96 }, ctxs := [(0, { ptroot := 0x10000, run := 5 })] }
theorem test_hyp_Commands_waits : ¬ ((strace false).recd.active = false ∨ (strace false).recd.replay = true) ∧ (s0.recd.active = false) ∧
    (∀ x ∈ [5, 9, 11, 14], (swait x).cmd.run = some (x, 0) ∧ (swait x).cmd.held = [0, 0, 0, 0]) ∧ s0.readHeld 0x23000 256 = false ∧
    ({ s0 with pend := [{ arrived with key := physKey 0x23000 }] } : State).readHeld 0x23000 64 = true ∧ s0.ownBusy ownCommand = false ∧
    ({ s0 with pend := [{ way 0 with ctx := 1030 }] } : State).ownBusy ownCommand = true ∧ s0.lineQuiet 24 = true ∧ (lentOut s0 0).lineQuiet 24 = false ∧
    (∃ v ∈ [away], v.wg.ctx = 0 ∧ v.back = false) ∧ (∀ v ∈ s0.saved, v.wg.ctx ≠ 0) ∧
    ({ s0 with copies := [copyOf 9] } : State).engaged g0 = true ∧ s0.savedOps g0.name = false ∧
    ({ s0 with saved := [{ away with wgid := 0, copies := [copyOf 9] }] } : State).savedOps g0.name = true ∧
    (∃ p ∈ [atomWay], p.isAtomic = true ∧ ∃ y ∈ (on { g0 with saved := true }).groups, y.2.ctx = 0 ∧ y.2.saved = true ∧ p.owner = some y.2.name) ∧
    (∃ p ∈ [{ way 0 with owner := none }], p.ctx = 0 ∧ p.owner = none ∧ p.blk = 0 ∧ p.isLost = false) ∧ (∀ y ∈ s0.tlb, y.ctx ≠ 0) ∧
    (sfp 1 1 fp).toThaw (tabD sf.ctxs 0 {}) ≠ [] ∧ (∀ y ∈ (sfp 1 1 fp).thawLines (tabD sf.ctxs 0 {}), (sfp 1 1 fp).lineQuiet y = true) ∧
    (sfp 1 3 fp).pageQuiet 0 0 = true ∧ (lentOut (sfp 1 3 fp) 0x30000).pageQuiet 0 0 = false ∧ ({ sfp 1 3 fp with tlb := [] } : State).tlb = [] ∧
    (sq.fq 0).head = (sq.fq 0).tail ∧ ({ head := 64 } : FaultQ).head ≠ ({ head := 64 } : FaultQ).tail ∧ (s0.pool 0).count = 0 ∧ (spool.pool 0).count ≠ 0 ∧
    slog0.replayDatum = some (2 ^ 53 + 0x1000, List.replicate 40 13) ∧ (slog 5).replayDatum = some (0x21000, [1, 2, 3, 4]) ∧ 0x21000 < 2 ^ 53 := by
  and_intros <;> decide +kernel

/-- A fetch from a module that does not answer waits; a group at a barrier and one that is not. -/
def slate : State := lpage farLeaf
theorem test_hyp_StepRunsDecoded_waits : (match (slate.fetchWords 0 gl 0x100 1).2 with
      | .wait => true
      | _ => false) = true ∧ isOther farTr0.pa = true ∧ slate.lostRead 0 0 (physKey farTr0.pa) slate.nextId = true ∧ isOther tr0.pa = false ∧ isHost tr0.pa = false ∧
    s0.inPlace 0 = false ∧ (on { g0 with arrived := some true }).inPlace 0 = true ∧ s0.recd.active = false ∧ canonical 0x0100000000000000 = false := by
  and_intros <;> decide +kernel

/-! ### Single instructions and operations, with results from the manual's rules and worked examples -/

/-- The device after an instruction. -/
def after (i : Instr) (s : State) : State :=
  match Machine.exec i s with
  | .next t => t
  | _ => s
/-- The group after a stoker instruction on s1 and s2. -/
def stoker (i : Instr) (a b : Nat) : Machine.Group := (tabGet (after i (on (regs (val a) (val b)))).groups 0).getD g0
/-- s3 after a stoker instruction on s1 and s2. -/
def alu (i : Instr) (a b : Nat) : Nat := ((stoker i a b).sGet 3).val.toNat
/-- The code of the one trap record. -/
def recordCode (s : State) : List Nat := s.recs.map (·.cause.toNat % 256)

/-- Division by zero and of the least number by −1; shifts by 64; the high product (R89–R91). -/
theorem test_alu_corners : alu (.divN64 3 1 2) 5 0 = 2 ^ 64 - 1 ∧ alu (.divI64 3 1 2) (2 ^ 63) (2 ^ 64 - 1) = 2 ^ 63 ∧
    alu (.remN64 3 1 2) 5 0 = 5 ∧ alu (.remI64 3 1 2) (2 ^ 64 - 7) 2 = 2 ^ 64 - 1 ∧ alu (.shl 3 1 2) 1 64 = 0 ∧
    alu (.shrI64 3 1 2) (2 ^ 63) 64 = 2 ^ 64 - 1 ∧ alu (.mulhI64 3 1 2) (2 ^ 64 - 1) 2 = 2 ^ 64 - 1 ∧ alu (.mulhN64 3 1 2) (2 ^ 64 - 1) 2 = 1 ∧
    alu (.add 3 1 2) (2 ^ 64 - 1) 2 = 1 ∧ alu (.addImm 3 1 0x1FFF) 0 0 = 2 ^ 64 - 1 ∧ alu (.minI64 3 1 2) (2 ^ 64 - 1) 0 = 2 ^ 64 - 1 ∧
    alu (.clz 3 1) 0 0 = 64 ∧ alu (.bswap 3 1) 0x0102030405060708 0 = 0x0807060504030201 := by decide +kernel

/-- A compare, a taken and an untaken branch, a call's link, a jump to no multiple of 4 (R93, R95, R257). -/
theorem test_control : (stoker (.cmp 2 1 2 0 2) (2 ^ 64 - 1) 0).cGet 2 = true ∧ (stoker (.cmp 2 1 2 1 2) (2 ^ 64 - 1) 0).cGet 2 = false ∧
    (stoker (.cmpI64Imm 2 3 1 0) (2 ^ 64 - 1) 0).cGet 3 = true ∧ (stoker (.cmpN64Imm 2 3 1 0) (2 ^ 64 - 1) 0).cGet 3 = false ∧
    (stoker (.bz 1 5) 0 0).spc = 20 ∧ (stoker (.bz 1 5) 1 0).spc = 4 ∧ ((stoker (.call 2) 0 0).sGet 63).val = 4 ∧ (stoker (.call 2) 0 0).spc = 8 ∧
    recordCode (after (.jr 1) (on (regs (val 2) (val 0)))) = [0x02] := by decide +kernel

/-- Two 64 KiB pages with equal attributes, the second contiguous with the first or not (R103's example). -/
def xltLimit (second : Nat) : Nat :=
  ((tabD ((tabGet (after (.xlt 3 1 2) { (on (regs (val 0xFF00) (val 0x400))).pokeNat 0x1C108 8 second with cur := some (.stoker 0) }).groups 0).getD
    g0).b 3 {}).limit).toNat
theorem test_xlt : xltLimit (3 * 2 ^ 28 + 0xF) = 65792 ∧ xltLimit (5 * 2 ^ 28 + 0xF) = 256 := by decide +kernel

/-- The worked block: 128 + 2^−16 after block 0 and 1.0, and again after block 1 (R137, R139). -/
def e4 (l : List Nat) : List Machine.Num := padTo 32 .zero (l.map e4m3.decode)
def block0 (acc : Machine.Num) : Machine.Num := accumulate f32 acc (e4 [0x58, 2, 2, 2]) (e4 [0x58, 2, 2, 2]) (e8m0 0x80) (e8m0 0x7D)
theorem test_dot : roundTo f32 (block0 (f32.decode 0x3F800000)) 1 false = 0x43010001 ∧
    roundTo f32 (accumulate f32 (block0 (f32.decode 0x3F800000)) (e4 [0x38]) (e4 [0xB8]) (e8m0 0x7F) (e8m0 0x7F)) 1 false = 0x43000001 := by
  decide +kernel

/-- The byte 0xC9 of `.e4m3` in `.f16` (the copy engine's example, R353). -/
theorem test_convert : convert 1 1 false 8 12 0xC9 = 0xC480 := by decide +kernel

/-- The rate-16 block (code 0) of the manual and its decoding; a marker block (R278, R279). -/
theorem test_codec : codecEncode 0 [0x3FF0000000000000, 0x7FF0000000000000, 0x7FF0000000000001, 0x4000000000000000] = 0xE010F81800069002 ∧
    codecDecode 0 0xE010F81800069002 =
      some [0x3FF0000000000000, 0x7FF0000000000000, 0x7FF8000000000000, 0x4000000000000000] ∧ codecDecode 0 3 = none := by decide +kernel

/-- The line at 0x10080 is homed on die 0 in slice 8 (R226). -/
theorem test_home : homeOf (physKey 0x10080) = (0, 8) := by decide +kernel

/-- A line of sixteen pointers 8 bytes apart (R313, R314's example): code 4, its base and deltas in 32 bytes, and the line again
from them; with another last pointer code 5. -/
def pointers : List Byte := ((List.range 16).map fun j => leBytes 8 (0x4000001000 + 8 * j)).flatten
theorem test_compress : lineCode pointers = 4 ∧ storedSize 4 = 32 ∧
    lineStored 4 pointers = leBytes 8 0x4000001000 ++ (List.range 16).map (fun j => BitVec.ofNat 8 (8 * j)) ++ List.replicate 8 0 ∧
    lineExpand 4 (lineStored 4 pointers) = pointers ∧ lineExpand 7 (lineStored 7 pointers) = pointers ∧
    lineCode (pointers.take 120 ++ leBytes 8 0x4000002000) = 5 ∧ lineCode (List.replicate 128 0) = 1 ∧ lineCode (List.replicate 32 [1, 2, 3, 4]).flatten = 2 := by decide +kernel

/-- The rows of the key-view program through K1 and K2 (R192, its tables of products). -/
def half (l : List Nat) : List Byte := (l.map (leBytes 2)).flatten
def desc42 : VDesc := vdesc (0x5000000000 + 0x0808000400000008 * 2 ^ 64 + 0x80002 * 2 ^ 128 + 0x5000000080 * 2 ^ 192)
theorem test_project : desc42.ok = true ∧ (desc42.len, desc42.width, desc42.stride) = (4, 2, 8) ∧
    projectRow desc42 (half [0x3C00, 0x3800, 0x3800, 0x3C00, 0x3400, 0x3400, 0x3000, 0xBC00]) (half [0x3C00, 0x4000, 0x4200, 0x4400]) =
      half [0x4280, 0xBA00] ∧
    projectRow desc42 (half [0x5A40, 0xBC00, 0, 0x3800, 0, 0, 0x2C00, 0]) (half [0x4500, 0x4000, 0x4200, 0x4400]) = half [0x63D0, 0xC400] := by
  decide +kernel

/-- A bound view's state word and its second descriptor word (R40, R190). -/
def bound1 : Machine.Group := { g0 with w := [(1, { bound := true, slot := 0, gen := 1, desc := BitVec.ofNat 512 (0x0808000400000008 * 2 ^ 128) })] }
theorem test_vqry : (VwReg.word { bound := true, slot := 0, gen := 1, desc := 0 }).toNat = 0x201 ∧
    (VwReg.word { bound := true, slot := 1, gen := 1, desc := 0 }).toNat = 0x203 ∧
    ((((tabGet (after (.vqry 9 1 2) (on bound1)).groups 0).getD g0).sGet 9).val).toNat = 0 ∧
    ((((tabGet (after (.vqry 9 1 3) (on bound1)).groups 0).getD g0).sGet 9).val).toNat = 0x0808000400000008 := by decide +kernel

/-- The place of thread 9's private word 39 with 32 threads (R217's table). -/
theorem test_private : privFlat 32 9 156 = 0x13A4 ∧ privFlat 32 9 159 = 0x13A7 := by decide +kernel

/-! Lanes: thread 0 alone, v1 and v2 the operands. -/

/-- The group after a lane instruction of thread 0. -/
def lane (i : Instr) (a b : Nat) : Machine.Group :=
  let g := { lregs (lval a) (lval b) with slot0 := some one }
  (tabGet (after i (onL g)).groups 0).getD g0
/-- v4 after it. -/
def v4 (i : Instr) (a b : Nat) : Nat := ((lane i a b).vGet 0 4).val.toNat
def fd (ty : Nat) : LaneF := { f0 with ty := BitVec.ofNat 4 ty, va := 1, vb := 2, vd := 4 }

/-- Saturating, wrapping and immediate adds (R147, the encodings of R149). -/
theorem test_lane_add : v4 (.laneAdd { fd 4 with sat := 1 }) 0x7FFFFFFF 1 = 0x7FFFFFFF ∧ v4 (.laneAdd (fd 4)) 0x7FFFFFFF 1 = 0x80000000 ∧
    v4 (.laneAdd { fd 5 with sat := 1 }) 0xFFFFFFFF 1 = 0xFFFFFFFF ∧ v4 (.laneAdd { fd 4 with bsel := 2, vb := 0, w2 := 100 }) 5 0 = 105 ∧
    v4 (.laneSub { fd 5 with sat := 1 }) 1 2 = 0 := by decide +kernel

/-- Single-precision addition, multiplication and the f16 pair (R129, R150): 1 + 2, 1 × −0, ∞ − ∞, two halves. -/
theorem test_lane_float : v4 (.laneAddF32 (fd 10)) 0x3F800000 0x40000000 = 0x40400000 ∧
    v4 (.laneMulF32 (fd 10)) 0x3F800000 0x80000000 = 0x80000000 ∧ v4 (.laneSubF32 (fd 10)) 0x7F800000 0x7F800000 = 0x7FC00000 ∧
    v4 (.laneAddPacked (fd 8)) 0x3C004000 0x3C003C00 = 0x40004200 := by decide +kernel

/-- A compare writes the thread's mask bit; m0 is not written (R149, R151). -/
theorem test_lane_cmp : (lane (.laneCmp { fd 4 with vd := 1, vc := 2 }) 0xFFFFFFFF 0).mGet 1 % 2 = 1 ∧
    (lane (.laneCmp { fd 5 with vd := 1, vc := 2 }) 0xFFFFFFFF 0).mGet 1 % 2 = 0 ∧
    (lane (.laneCmpF32 { fd 10 with vd := 1, vc := 6 }) 0x7FC00000 0).mGet 1 % 2 = 1 := by decide +kernel

/-- Threads 0, 1 and 2 act with v1 = 1, 2, 4 and −1 in thread 3, which does not. -/
def three (i : Instr) : Machine.Group :=
  let g := { gl with v := [(1, lval 1), (2, lval 1), (257, lval 2), (258, lval 1), (513, lval 4), (514, lval 1), (769, lval 0xFFFFFFFF)],
                     slot0 := some { pc := 0, mask := 7 } }
  (tabGet (after i (onL g)).groups 0).getD g0
def v4s (i : Instr) : List Nat := (List.range 4).map fun t => ((three i).vGet t 4).val.toNat

/-- Shuffles, scans and reductions over the acting threads only (R159–R161). -/
theorem test_cross : v4s (.shflUp (fd 5)) = [1, 1, 2, 0] ∧ v4s (.shflDown (fd 5)) = [2, 4, 4, 0] ∧ v4s (.shflXor (fd 5)) = [2, 1, 4, 0] ∧
    v4s (.shflIdx (fd 5)) = [2, 2, 2, 0] ∧ v4s (.scanAdd { fd 5 with vb := 0 }) = [1, 3, 7, 0] ∧ v4s (.xscanAdd { fd 5 with vb := 0 }) = [0, 1, 3, 0] ∧
    v4s (.redAdd { fd 5 with vb := 0 }) = [7, 7, 7, 0] ∧ v4s (.redMax { fd 4 with vb := 0 }) = [4, 4, 4, 0] := by decide +kernel

/-- Values copied back to the stoker are pending until the block retires (R162, R33): the executing block's landings. -/
theorem test_rfl : ((three (.rfl { fd 5 with vb := 0 })).sGet 4).val = 0 ∧
    ((three (.rfl { fd 5 with vb := 0 })).blocks.any fun b => b.pend.length == 1) = true := by decide +kernel

/-- A branch taken by thread 1 of three: the lower part goes on below the highest slot (R172–R176). -/
def branched : Machine.Group :=
  let g := { gl with m := [(1, 2)], slot0 := some { pc := 0, mask := 7 } }
  (tabGet (after (.bra { f0 with mr := 1, w2 := 36 }) (onL g)).groups 0).getD g0
theorem test_bra : branched.table.map (fun sp => (sp.pc.toNat, sp.mask)) = [(36, 2), (12, 5)] := by decide +kernel

/-- A mask operation acts on the acting threads alone (R178). -/
theorem test_mand :
    let g := { gl with m := [(1, 0xFF), (2, 0x12), (3, 0x30)], slot0 := some { pc := 0, mask := 0x1F } }
    ((tabGet (after (.mand { f0 with vd := 3, va := 1, vb := 2 }) (onL g)).groups 0).getD g0).mGet 3 = 0x32 := by decide +kernel

/-- A scratchpad store and an atomic on the same word (R163, R169): the bytes, then the old value and the sum. -/
def scratched : State := after (.stScratch { fd 5 with va := 1, vb := 0x40, vc := 2, vd := 0 }) (onL { lregs (lval 8) (lval 0x11223344) with slot0 := some one })
theorem test_scratch : ((List.range 4).map fun i => (tabGet (scratched.wgOf 0).sp (8 + i)).getD 0) = [0x44, 0x33, 0x22, 0x11] := by decide +kernel

/-- A stoker's store is forwarded to its load before it is performed, and memory is unchanged (R98, R228). -/
def stored : State := after (.stB32 2 0 0x100) (on (regs (val 0) (val 0xAABBCCDD)))
theorem test_store_forward :
    ((tabGet (after (.ldN16 3 0 0x102) { stored with cur := some (.stoker 0), clk := 9 }).groups 0).getD g0).sGet 3 = val 0xAABB ∧
    stored.pend.length = 1 ∧ stored.peek 0x20100 4 = s0.peek 0x20100 4 := by decide +kernel

/-- `mset` keeps the fields of MODE and refuses reserved bits (R38, R114); `trap` records its number (R117, R257). -/
theorem test_mset_trap : (stoker (.mset 1) 3 0).mode = 3 ∧ recordCode (after (.trap 5) s0) = [0x04] := by decide +kernel

end Sys2Proof.Tests
end

section
/-! # Every step keeps memory in its canonical form (O60)

A lemma for each operation, in the order of the model's files: one that writes memory keeps it canonical (`_wf`, `_keeps`), every other
leaves it as it is (`_mem`). -/

namespace Sys2Proof.Machine

/-- Memory is in its canonical form (R4, R225). -/
abbrev State.Canon (s : State) : Prop := Memory.wf s.mem = true

theorem State.Canon.of_mem {s t : State} (h : s.Canon) (e : t.mem = s.mem) : t.Canon := by
  rw [State.Canon, e]; exact h

/-- A next state, if there is one, has canonical memory. -/
def Res.Keeps (r : Res) : Prop := ∀ t, r = .next t → t.Canon

theorem foldl_mem {α : Type} (f : State → α → State) (hf : ∀ s x, (f s x).mem = s.mem) (s : State) (l : List α) :
    (l.foldl f s).mem = s.mem := by
  induction l generalizing s with
  | nil => rfl
  | cons x l ih => rw [List.foldl_cons, ih, hf]

theorem foldl_canon {α : Type} {f : State → α → State} (hf : ∀ s x, s.Canon → (f s x).Canon) {s : State} (hs : s.Canon) (l : List α) :
    (l.foldl f s).Canon := by
  induction l generalizing s with
  | nil => exact hs
  | cons x l ih => exact ih (hf s x hs)

/-! ### Translate -/

theorem State.pokeRaw_wf {s : State} (hs : s.Canon) (pa : Nat) (data : List Byte) : (s.pokeRaw pa data).Canon := by
  grind [State.pokeRaw, poke_wf]

theorem State.pokeWord_wf {s : State} (hs : s.Canon) (pa n x : Nat) : (s.pokeWord pa n x).Canon := by
  grind [State.pokeWord, State.pokeRaw_wf]

@[simp] theorem State.sendOwn_mem (s : State) (n h pa : Nat) (kind : PKind) : (s.sendOwn n h pa kind).mem = s.mem := rfl

theorem State.storeOwn_wf {s : State} (hs : s.Canon) (n pa : Nat) (data : List Byte) : (s.storeOwn n pa data).Canon := by
  unfold State.storeOwn; exact foldl_canon (fun s p hs => by grind [State.pokeRaw_wf, State.sendOwn_mem]) hs _

@[simp] theorem State.fillWalk_mem (s : State) (d ctx : Nat) (c : Ctx) (va : W64) : (s.fillWalk d ctx c va).mem = s.mem := by
  unfold State.fillWalk; exact foldl_mem _ (fun s p => by grind []) _ _

theorem State.writeBackAD_wf {s : State} (hs : s.Canon) (e : Tlb) : (s.writeBackAD e).Canon := by
  grind [State.writeBackAD, State.pokeRaw_wf, State.sendOwn_mem]

theorem State.tlbFill_wf {s : State} (hs : s.Canon) (e : Tlb) : (s.tlbFill e).Canon := by
  grind [State.tlbFill, State.writeBackAD_wf]

theorem State.translate_wf {s : State} (hs : s.Canon) (h ctx : Nat) (va : W64) : (s.translate h ctx va).1.Canon := by
  grind [State.translate.eq_def, State.fillWalk_mem, State.tlbFill_wf]

theorem State.gatherD_wf {s : State} (hs : s.Canon) (h ctx : Nat) (va : W64) : (s.gatherD h ctx va).Canon := by
  grind [State.gatherD, State.translate_wf]

/-! ### Ops -/

@[simp] theorem State.devError_mem (s : State) (kind unit : Nat) (addr src gen : Nat) :
    (s.devError kind unit addr src gen).mem = s.mem := rfl

@[simp] theorem State.count_mem (s : State) (n : Nat) : (s.count n).mem = s.mem := rfl

@[simp] theorem State.cmdDone_mem (s : State) : s.cmdDone.mem = s.mem := rfl

@[simp] theorem State.cmdRefuse_mem (s : State) : s.cmdRefuse.mem = s.mem := rfl

@[simp] theorem State.cmdEnd_mem (s : State) (code subject : Nat) : (s.cmdEnd code subject).mem = s.mem := by
  unfold State.cmdEnd; split <;> rfl

@[simp] theorem State.setPool_mem (s : State) (d : Nat) (p : Pool) : (s.setPool d p).mem = s.mem := by
  unfold State.setPool; split <;> rfl

theorem State.poolTake_wf {s : State} (hs : s.Canon) (d : Nat) : (s.poolTake d).Canon := by
  grind [State.poolTake, State.pokeRaw_wf, State.setPool_mem]

theorem State.poolReturn_wf {s : State} (hs : s.Canon) (d : Nat) (f : BitVec 52) : (s.poolReturn d f).Canon := by
  grind [State.poolReturn, State.pokeRaw_wf, State.setPool_mem]

theorem State.returnFrames_wf {s : State} (hs : s.Canon) (k : Nat) (g : Group) (handler : Bool) :
    (s.returnFrames k g handler).Canon := by
  unfold State.returnFrames; exact foldl_canon (fun s p hs => by grind [State.poolReturn_wf]) hs _

@[simp] theorem State.coalesce_mem (s : State) (k ctx : Nat) (cause : BitVec 16) (t : Trap) (cont : List (List Byte)) :
    (s.coalesce k ctx cause t cont).mem = s.mem := by
  grind [State.coalesce]

@[simp] theorem State.forgetAll_mem (s : State) (f : Nat × Nat → Bool) : (s.forgetAll f).mem = s.mem := rfl

@[simp] theorem State.forget_mem (s : State) (who : Nat × Nat) : (s.forget who).mem = s.mem := rfl

@[simp] theorem State.forgetGroup_mem (s : State) (k : Nat) : (s.forgetGroup k).mem = s.mem := rfl

theorem State.writeFrame_wf {s : State} (hs : s.Canon) (c : Ctx) (k : Nat) : (s.writeFrame c k).Canon := by
  grind [State.writeFrame, State.pokeRaw_wf, State.stamp_mem]

@[simp] theorem State.escalate_mem (s : State) (k : Nat) (g : Group) (t : Trap) (inh noh : Bool) :
    (s.escalate k g t inh noh).mem = s.mem := by
  grind [State.escalate, State.setG_mem, State.coalesce_mem]

@[simp] theorem State.withdraw_mem (s : State) (g : Group) : (s.withdraw g).mem = s.mem := rfl

theorem State.deliverTrap_wf {s : State} (hs : s.Canon) (k : Nat) (g : Group) (t : Trap) : (s.deliverTrap k g t).Canon := by
  grind [State.deliverTrap, State.setG_mem, State.writeFrame_wf, State.escalate_mem]

theorem takeTrap_wf {s : State} (hs : s.Canon) (k : Nat) (g : Group) (t : Trap) : (takeTrap s k g t).Canon := by
  grind [takeTrap, State.setG_mem, State.forgetGroup_mem, State.withdraw_mem, State.deliverTrap_wf]

theorem State.trapS_wf {s : State} (hs : s.Canon) (k : Nat) (g : Group) (t : Trap) (len : Nat) : (s.trapS k g t len).Canon := by
  grind [State.trapS, takeTrap_wf]

theorem State.trapL_wf {s : State} (hs : s.Canon) (k slot : Nat) (g : Group) (sp : Split) (t : Trap) (threads : Mask) :
    (s.trapL k slot g sp t threads).Canon := by
  grind [State.trapL, takeTrap_wf]

theorem onStoker_keeps {s : State} {f : Nat → Group → State} (hf : ∀ k g, (f k g).Canon) : Res.Keeps (onStoker s f) := by
  unfold Res.Keeps onStoker; grind

theorem onLane_keeps {s : State} {f : Nat → Nat → Group → Split → State} (hf : ∀ k slot g sp, (f k slot g sp).Canon) :
    Res.Keeps (onLane s f) := by
  unfold Res.Keeps onLane; grind

@[simp] theorem State.waitS_mem (s : State) (k : Nat) : (s.waitS k).mem = s.mem := rfl

@[simp] theorem State.waitL_mem (s : State) (k slot : Nat) : (s.waitL k slot).mem = s.mem := rfl

theorem onEvent_keeps {s : State} {f : State → State} (hf : (f s).Canon) : Res.Keeps (onEvent s f) := by
  rintro _ ⟨⟩; exact hf

/-! ### Trace -/

@[simp] theorem State.trace_mem (s : State) (ctx ty die : Nat) (payload : List Byte) :
    (s.trace ctx ty die payload).mem = s.mem := by
  unfold State.trace; split <;> rfl

@[simp] theorem State.traceDatum_mem (s : State) (die pa : Nat) (data : List Byte) : (s.traceDatum die pa data).mem = s.mem := by
  grind [State.traceDatum, State.trace_mem]

@[simp] theorem State.consumeRecords_mem (s : State) (n : Nat) : (s.consumeRecords n).mem = s.mem := rfl

@[simp] theorem State.mismatch_mem (s : State) : s.mismatch.mem = s.mem := by
  unfold State.mismatch; split <;> rfl

@[simp] theorem State.timeRead_mem (s : State) (k ctx : Nat) : (s.timeRead k ctx).1.mem = s.mem := by
  grind [State.timeRead, State.trace_mem, State.consumeRecords_mem, State.mismatch_mem]

@[simp] theorem State.ownRead_mem (s : State) (h ctx pa : Nat) (data : List Byte) : (s.ownRead h ctx pa data).1.mem = s.mem := by
  grind [State.ownRead, State.traceDatum_mem, State.consumeRecords_mem, State.mismatch_mem]

@[simp] theorem State.ownReads_mem (s : State) (h ctx : Nat) (l : List (Nat × List Byte)) :
    (s.ownReads h ctx l).1.mem = s.mem := by
  induction l generalizing s with
  | nil => rfl
  | cons x r ih => grind [State.ownReads, State.ownRead_mem]

@[simp] theorem State.undoTrace_mem (s : State) (s0 : State) : (s.undoTrace s0).mem = s.mem := by
  unfold State.undoTrace; split <;> rfl

/-! ### L2 -/

@[simp] theorem State.modHome_mem (s : State) (key : Nat) (f : Home → Home) : (s.modHome key f).mem = s.mem := rfl

@[simp] theorem State.l1Drop_mem (s : State) (h : Nat) (f : L1Line → Bool) : (s.l1Drop h f).mem = s.mem := rfl

@[simp] theorem State.killViews_mem (s : State) (h key : Nat) : (s.killViews h key).mem = s.mem := rfl

@[simp] theorem State.returnLine_mem (s : State) (key : Nat) : (s.returnLine key).mem = s.mem := by
  unfold State.returnLine; split <;> rfl

@[simp] theorem State.touchMeta_mem (s : State) (pa : Nat) (at_ : Nat × Nat) : (s.touchMeta pa at_).mem = s.mem := by
  unfold State.touchMeta; split <;> rfl

@[simp] theorem State.takeBack_mem (s : State) (d key : Nat) : (s.takeBack d key).mem = s.mem := by
  unfold State.takeBack; split <;> rfl

@[simp] theorem State.dropRemote_mem (s : State) (d key : Nat) : (s.dropRemote d key).mem = s.mem := by
  grind [State.dropRemote, State.takeBack_mem]

@[simp] theorem State.lineOut_mem (s : State) (pa : Nat) : (s.lineOut pa).mem = s.mem := by
  grind [State.lineOut, State.returnLine_mem, State.touchMeta_mem]

@[simp] theorem State.l2Drop_mem (s : State) (o : L2Occ) : (s.l2Drop o).mem = s.mem := by
  grind [State.l2Drop.eq_def, State.dropRemote_mem, State.lineOut_mem]

@[simp] theorem State.l2Fit_mem (s : State) (u : Nat × Nat) (set n : Nat) (fuel : Nat) : (s.l2Fit u set n fuel).mem = s.mem := by
  induction fuel generalizing s with
  | zero => rfl
  | succ n ih => grind [State.l2Fit, State.l2Drop_mem]

@[simp] theorem State.l2Room_mem (s : State) (u : Nat × Nat) (pa : Nat) : (s.l2Room u pa).mem = s.mem := by
  grind [State.l2Room, State.l2Fit_mem]

@[simp] theorem State.l2Trim_mem (s : State) (d : Nat) : (s.l2Trim d).mem = s.mem := by
  unfold State.l2Trim; exact foldl_mem _ (fun s p => by grind [State.l2Fit_mem]) _ _

theorem State.bringIn_wf {s : State} (hs : s.Canon) (pa : Nat) (l : L2Line) : (s.bringIn pa l).Canon := by
  grind [State.bringIn, poke_wf, State.touchMeta_mem, State.l2Room_mem]

@[simp] theorem State.cacheHalves_mem (s : State) (pa : Nat) : (s.cacheHalves pa).mem = s.mem := by
  grind [State.cacheHalves]

theorem State.useLine_wf {s : State} (hs : s.Canon) (pa : Nat) (dirty cmpr : Bool) (place : Option (Nat × Nat)) :
    (s.useLine pa dirty cmpr place).Canon := by
  grind [State.useLine, State.lineOut_mem, State.bringIn_wf, State.cacheHalves_mem]

theorem State.touchL2_wf {s : State} (hs : s.Canon) (key : Nat) (dirty cmpr : Bool) : (s.touchL2 key dirty cmpr).Canon := by
  grind [State.touchL2, State.useLine_wf]

theorem State.touchBacking_wf {s : State} (hs : s.Canon) (r : Region) (pa n : Nat) (dirty : Bool) :
    (s.touchBacking r pa n dirty).Canon := by
  unfold State.touchBacking; exact foldl_canon (fun s p hs => by grind [State.useLine_wf]) hs _

theorem State.touchHome_wf {s : State} (hs : s.Canon) (key : Nat) (cmpr : Bool) : (s.touchHome key cmpr).Canon := by
  grind [State.touchHome, foldl_canon, State.useLine_wf, State.touchL2_wf]

theorem State.writeBackPriv_wf {s : State} (hs : s.Canon) (k : Nat) (g : Group) (line : Nat) :
    (s.writeBackPriv k g line).Canon := by
  grind [State.writeBackPriv, foldl_canon, poke_wf, State.modG_mem, State.touchL2_wf]

theorem State.l1Evicted_wf {s : State} (hs : s.Canon) (h : Nat) (l : L1Line) : (s.l1Evicted h l).Canon := by
  grind [State.l1Evicted, State.modG_mem, State.modHome_mem, State.writeBackPriv_wf]

theorem State.l1Install_wf {s : State} (hs : s.Canon) (h : Nat) (l : L1Line) : (s.l1Install h l).Canon := by
  grind [State.l1Install, State.l1Evicted_wf]

@[simp] theorem State.l1Renew_mem (s : State) (h : Nat) (l l' : L1Line) : (s.l1Renew h l l').mem = s.mem := rfl

theorem State.fetchPriv_wf {s : State} (hs : s.Canon) (k : Nat) (g : Group) (line : Nat) : (s.fetchPriv k g line).Canon := by
  grind [State.fetchPriv, State.modG_mem, State.touchL2_wf]

theorem State.openPriv_wf {s : State} (hs : s.Canon) (k : Nat) (g : Group) (line : Nat) : (s.openPriv k g line).Canon := by
  grind [State.openPriv, State.modG_mem, State.touchL2_wf]

theorem State.touchPriv_wf {s : State} (hs : s.Canon) (k x : Nat) (dirty : Bool) (whole : Bool) :
    (s.touchPriv k x dirty whole).Canon := by
  grind [State.touchPriv, State.l1Install_wf, State.l1Renew_mem, State.fetchPriv_wf, State.openPriv_wf]

/-! ### Home -/

@[simp] theorem State.carry_mem (s : State) (key : Nat) (out : Bool) : (s.carry key out).mem = s.mem := by
  unfold State.carry; split <;> rfl

@[simp] theorem State.sendOut_mem (s : State) (key : Nat) : (s.sendOut key).mem = s.mem := by
  unfold State.sendOut; split <;> rfl

@[simp] theorem State.sendLoads_mem (s : State) (l : List Pend) (next : Nat) : (s.sendLoads l next).mem = s.mem := by
  grind [State.sendLoads, foldl_mem, State.sendOut_mem]

@[simp] theorem State.sendInvals_mem (s : State) (key : Nat) (dies : List Nat) : (s.sendInvals key dies).mem = s.mem := rfl

@[simp] theorem State.dirMake_mem (s : State) (key d : Nat) : (s.dirMake key d).mem = s.mem := by
  grind [State.dirMake, foldl_mem, State.sendInvals_mem]

@[simp] theorem State.filterMake_mem (s : State) (key d : Nat) : (s.filterMake key d).mem = s.mem := by
  grind [State.filterMake, foldl_mem, State.dropRemote_mem]

@[simp] theorem State.wholeCopy_mem (s : State) (kind n : Nat) : (s.wholeCopy kind n).mem = s.mem := rfl

@[simp] theorem State.loseCopy_mem (s : State) (kind n part : Nat) : (s.loseCopy kind n part).mem = s.mem := by
  grind [State.loseCopy.eq_def]

@[simp] theorem State.takeRemote_mem (s : State) (d key : Nat) : (s.takeRemote d key).mem = s.mem := by
  grind [State.takeRemote, State.l2Room_mem, State.dirMake_mem, State.filterMake_mem, State.wholeCopy_mem]

@[simp] theorem State.takeDecode_mem (s : State) (h key : Nat) : (s.takeDecode h key).mem = s.mem := by
  unfold State.takeDecode; split <;> rfl

theorem State.subLease_mem {s t : State} {h key len : Nat} {gen : Option Nat} {l : L1Line} (e : s.subLease h key len gen = some
    (t, l)) :
    t.mem = s.mem := by
  grind [State.subLease.eq_def, State.takeDecode_mem]

@[simp] theorem State.addSector_mem (s : State) (n e : Nat) : (s.addSector n e).mem = s.mem := rfl

@[simp] theorem State.addFsector_mem (s : State) (n g : Nat) : (s.addFsector n g).mem = s.mem := rfl

@[simp] theorem State.addReplica_mem (s : State) (n g : Nat) : (s.addReplica n g).mem = s.mem := rfl

@[simp] theorem State.replicate_mem (s : State) (d key g : Nat) : (s.replicate d key g).mem = s.mem := by
  unfold State.replicate; exact foldl_mem _ (fun s p => by grind [State.l2Room_mem, State.addReplica_mem]) _ _

theorem State.grantLine_wf {s : State} (hs : s.Canon) (h key len : Nat) (gen : Option Nat) (cmpr : Bool) :
    (s.grantLine h key len gen cmpr).1.Canon := by
  grind [State.grantLine.eq_def, State.modHome_mem, State.l2Room_mem, State.touchHome_wf, State.carry_mem, State.takeRemote_mem,
      State.takeDecode_mem, State.addSector_mem, State.addFsector_mem, State.replicate_mem]

@[simp] theorem State.otherAccess_mem (s : State) (h key : Nat) : (s.otherAccess h key).mem = s.mem := rfl

@[simp] theorem State.l1Use_mem (s : State) (h : Nat) (l : L1Line) : (s.l1Use h l).mem = s.mem := by
  unfold State.l1Use; split <;> rfl

@[simp] theorem State.inRunTime_mem (s : State) (key : Nat) (who : Nat × Nat) (l : Option L1Line) :
    (s.inRunTime key who l).1.mem = s.mem := by
  unfold State.inRunTime; split <;> rfl

@[simp] theorem State.queueRead_mem (s : State) (h key len : Nat) (cmpr : Bool) (who : Nat × Nat) :
    (s.queueRead h key len cmpr who).mem = s.mem := rfl

@[simp] theorem State.sendReader_mem (s : State) (h ctx : Nat) (owner : Nat × Nat) (blk : Nat) (who : Nat × Nat) (code : Bool)
    (va : W64) (key n : Nat) : (s.sendReader h ctx owner blk who code va key n).mem = s.mem := by
  grind [State.sendReader, State.newId_mem, State.sendOut_mem]

theorem State.fetchLine_wf {s : State} (hs : s.Canon) (h key len : Nat) (cmpr : Bool) (who : Nat × Nat) :
    (s.fetchLine h key len cmpr who).1.Canon := by
  grind [State.fetchLine, State.subLease_mem, State.grantLine_wf, State.otherAccess_mem, State.inRunTime_mem, State.queueRead_mem]

theorem State.readLine_wf {s : State} (hs : s.Canon) (h key len : Nat) (cmpr : Bool) : (s.readLine h key len cmpr).1.Canon := by
  grind [State.readLine, State.l1Install_wf, State.l1Use_mem, State.fetchLine_wf]

theorem State.setBlock_wf {s : State} (hs : s.Canon) (r : Region) (i code : Nat) : (s.setBlock r i code).Canon := by
  grind [State.setBlock, pokeNat_wf, State.touchBacking_wf]

theorem State.countEncode_wf {s : State} (hs : s.Canon) (c : Ctx) (n : Nat) (partial_ : Bool) (inp out : List Nat) :
    (s.countEncode c n partial_ inp out).Canon := by
  grind [State.countEncode, State.pokeWord_wf]

theorem State.encodeBlock_wf {s : State} (hs : s.Canon) (c : Ctx) (n : Nat) (r : Region) (i : Nat) (partial_ : Bool) (v :
    List Nat) : (s.encodeBlock c n r i partial_ v).Canon := by
  grind [State.encodeBlock, State.setBlock_wf, State.countEncode_wf]

theorem State.codecWriteBlock_wf {s : State} (hs : s.Canon) (c : Ctx) (n : Nat) (r : Region) (ws : List (Nat × Byte × Bool))
    (i : Nat) : (s.codecWriteBlock c n r ws i).Canon := by
  grind [State.codecWriteBlock, State.setBlock_wf, State.encodeBlock_wf]

theorem State.codecWrite_wf {s : State} (hs : s.Canon) (ctx n : Nat) (ws : List (Nat × Byte × Bool)) :
    (s.codecWrite ctx n ws).Canon := by
  unfold State.codecWrite; exact foldl_canon (fun s p hs => by grind [State.codecWriteBlock_wf]) hs _

@[simp] theorem State.modOwner_mem (s : State) (n : Nat × Nat) (f : Group → Group) : (s.modOwner n f).mem = s.mem := by
  unfold State.modOwner; split <;> rfl

@[simp] theorem State.dropProjs_mem (s : State) (gone : Proj → Bool) : (s.dropProjs gone).mem = s.mem := by
  unfold State.dropProjs; exact foldl_mem _ (fun s p => by grind [State.forgetAll_mem, State.modOwner_mem]) _ _

@[simp] theorem State.deliver_mem (s : State) (owner : Option (Nat × Nat)) (d : Dst) (w : Nat) (old : Nat) (pz : Bool) :
    (s.deliver owner d w old pz).mem = s.mem := by
  grind [State.deliver.eq_def, State.modOwner_mem]

theorem State.doAtomic_wf {s : State} (hs : s.Canon) (owner : Option (Nat × Nat)) (pa w op ty : Nat) (x cmp : W64) (d : Dst) :
    (s.doAtomic owner pa w op ty x cmp d).Canon := by
  grind [State.doAtomic, pokeNat_wf, State.stamp_mem, State.deliver_mem]

theorem State.codecAddBlock_wf {s : State} (hs : s.Canon) (owner : Option (Nat × Nat)) (c : Ctx) (n : Nat) (r : Region) (adds :
    List CodecAdd) (i : Nat) : (s.codecAddBlock owner c n r adds i).Canon := by
  dsimp only [State.codecAddBlock]
  split
  · grind [foldl_canon, State.stamp_mem, State.deliver_mem]
  · next old _ =>
    have key := List.foldlRecOn (motive := fun p : List Nat × State => p.2.Canon) (adds.filter fun a => a.off / 32 == i)
      (fun p a =>
        let j := a.off % 32 / 8
        let o := p.1.getD j 0
        (p.1.set j (roundTo f64 ((f64.decode o).add (f64.decode a.x.toNat) 1) 1 false), p.2.deliver owner a.dst 8 o false))
      (b := (old, s)) hs fun p hp a _ => by grind [State.deliver_mem]
    grind [State.encodeBlock_wf]

@[simp] theorem State.oldLogged_mem (s : State) (p : Pend) (pa w : Nat) (d : Dst) : (s.oldLogged p pa w d).1.mem = s.mem := by
  grind [State.oldLogged, State.ownRead_mem]

theorem State.perform_wf {s : State} (hs : s.Canon) (p : Pend) : (s.perform p).Canon := by
  grind [State.perform, foldl_canon, poke_wf, State.traceDatum_mem, State.killViews_mem, State.touchL2_wf, State.codecWrite_wf,
      State.deliver_mem, State.doAtomic_wf, State.codecAddBlock_wf, State.oldLogged_mem]

@[simp] theorem State.dropCopy_mem (s : State) (h key : Nat) : (s.dropCopy h key).mem = s.mem := rfl

@[simp] theorem State.dropOwn_mem (s : State) (h key : Nat) : (s.dropOwn h key).mem = s.mem := rfl

@[simp] theorem State.writeLent_mem (s : State) (h key : Nat) : (s.writeLent h key).mem = s.mem := by
  unfold State.writeLent; split <;> rfl

theorem State.issueWrite_wf {s : State} (hs : s.Canon) (h ctx : Nat) (owner : Option (Nat × Nat)) (va : W64) (key : Nat) (blk :
    Nat) (acq : Bool) (kind : PKind) : (s.issueWrite h ctx owner va key blk acq kind).Canon := by
  grind [State.issueWrite, State.newId_mem, State.killViews_mem, State.perform_wf, State.dropCopy_mem, State.dropOwn_mem,
      State.writeLent_mem]

theorem State.readBytes_wf {s : State} (hs : s.Canon) (h : Nat) (c : Ctx) (owner : Nat × Nat) (t : Tr) (n : Nat) :
    (s.readBytes h c owner t n).1.Canon := by
  grind [State.readBytes, State.readLine_wf]

@[simp] theorem State.invalidate_mem (s : State) (key : Nat) : (s.invalidate key).mem = s.mem := by
  unfold State.invalidate; split <;> rfl

@[simp] theorem State.clearWay_mem (s : State) (pas : List Nat) : (s.clearWay pas).mem = s.mem := by
  unfold State.clearWay; exact foldl_mem _ (fun s p => by grind [State.modHome_mem, State.invalidate_mem]) _ _

theorem State.arrive_wf {s : State} (hs : s.Canon) (p : Pend) : (s.arrive p).Canon := by
  grind [State.arrive, State.newId_mem, State.carry_mem, State.perform_wf, State.invalidate_mem, State.clearWay_mem]

theorem State.serveOne_wf {s : State} (hs : s.Canon) (key : Nat) (w : Wait) : (s.serveOne key w).Canon := by
  grind [State.serveOne, State.l1Install_wf, State.grantLine_wf, State.inRunTime_mem]

theorem State.serveWaiting_wf {s : State} (hs : s.Canon) (key : Nat) : (s.serveWaiting key).Canon := by
  grind [State.serveWaiting, foldl_canon, State.modHome_mem, State.serveOne_wf]

@[simp] theorem State.ownHalf_mem (s : State) (p : Pend) : (s.ownHalf p).mem = s.mem := by
  grind [State.ownHalf]

@[simp] theorem State.predict_mem (s : State) (key : Nat) (h : Option Nat) : (s.predict key h).mem = s.mem := rfl

@[simp] theorem State.codecStart_mem (s : State) (p : Pend) (n : Nat × Nat) : (s.codecStart p n).mem = s.mem := by
  grind [State.codecStart]

theorem State.afterPerform_wf {s : State} (hs : s.Canon) (key : Nat) (h : Option Nat) : (s.afterPerform key h).Canon := by
  grind [State.afterPerform, State.invalidate_mem, State.serveWaiting_wf, State.predict_mem]

@[simp] theorem State.forgetOwn_mem (s : State) (p : Pend) : (s.forgetOwn p).mem = s.mem := by
  unfold State.forgetOwn; split <;> rfl

theorem State.performFirst_wf {s : State} (hs : s.Canon) (key : Nat) (atomic : Bool) : (s.performFirst key atomic).Canon := by
  grind [State.performFirst, State.perform_wf, State.ownHalf_mem, State.predict_mem, State.codecStart_mem,
      State.afterPerform_wf, State.forgetOwn_mem]

theorem State.readLines_wf {s : State} (hs : s.Canon) (pa n : Nat) : (s.readLines pa n).Canon := by
  unfold State.readLines; exact foldl_canon (fun s p hs => by grind [State.touchL2_wf]) hs _

theorem State.holdSeal_wf {s : State} (hs : s.Canon) (q : Queue) : (s.holdSeal q).Canon := by
  grind [State.holdSeal, State.readLines_wf]

theorem State.rereadSeal_wf {s : State} (hs : s.Canon) (key : Nat) : (s.rereadSeal key).Canon := by
  unfold State.rereadSeal; exact foldl_canon (fun s p hs => by grind [State.holdSeal_wf]) hs _

/-! ### Access -/

theorem State.chkTlb_wf {s : State} (hs : s.Canon) (k : Nat) (g : Group) (a : AccK) (va : W64) (size : Nat) (locked : Bool) :
    (s.chkTlb k g a va size locked).1.Canon := by
  grind [State.chkTlb, State.translate_wf]

theorem State.chkScalar_wf {s : State} (hs : s.Canon) (k : Nat) (g : Group) (a : AccK) (va : W64) (size : Nat) (locked : Bool) :
    (s.chkScalar k g a va size locked).1.Canon := by
  grind [State.chkScalar, State.chkTlb_wf]

theorem State.readSpan_wf {s : State} (hs : s.Canon) (k : Nat) (g : Group) (va : W64) (fuel : Nat) (len : Nat) :
    (s.readSpan k g va fuel len).1.Canon := by
  induction fuel generalizing s va len with
  | zero => exact hs
  | succ n ih =>
    cases len with
    | zero => exact hs
    | succ m =>
      have hc := State.chkTlb_wf hs k g accLoad va (min (m + 1) (8 - va.toNat % 8))
      dsimp only [State.readSpan]
      repeat' split
      all_goals grind [State.sendReader_mem, State.readBytes_wf, State.ownRead_mem]

theorem State.readRange_wf {s : State} (hs : s.Canon) (k : Nat) (g : Group) (va : W64) (n : Nat) :
    (s.readRange k g va n).1.Canon := by
  grind [State.readRange, State.undoTrace_mem, State.readSpan_wf]

theorem State.readOnce_wf {s : State} (hs : s.Canon) (k : Nat) (g : Group) (va : W64) (n : Nat) :
    (s.readOnce k g va n).1.Canon := by
  grind [State.readOnce, State.readRange_wf]

@[simp] theorem State.waitGot_mem (s : State) (k : Nat) (g : Group) (b : List Byte) : (s.waitGot k g b).mem = s.mem := rfl

theorem State.refill_wf {s : State} (hs : s.Canon) (wg page : Nat) : (s.refill wg page).Canon := by
  grind [State.refill, foldl_canon, State.touchL2_wf, State.modWg_mem]

theorem State.touchPrivs_wf {s : State} (hs : s.Canon) (k : Nat) (g : Group) (t o n : Nat) (dirty : Bool) :
    (s.touchPrivs k g t o n dirty).Canon := by
  unfold State.touchPrivs; exact foldl_canon (fun s p hs => by grind [State.touchPriv_wf]) hs _

@[simp] theorem State.openPage_mem (s : State) (wg page : Nat) : (s.openPage wg page).mem = s.mem := by
  grind [State.openPage, State.modWg_mem]

theorem State.privWrite_wf {s : State} (hs : s.Canon) (k : Nat) (l : List (Nat × List Byte × Bool)) :
    (s.privWrite k l).Canon := by
  unfold State.privWrite; exact foldl_canon (fun s p hs => by grind [State.modG_mem, State.touchPriv_wf]) hs _

/-! ### Operands -/

theorem aluR_keeps {s : State} (sd sa sb : BitVec 6) (f : W64 → W64 → W64) (hs : s.Canon) : Res.Keeps
    (aluR s sd sa sb f) := onStoker_keeps fun _ _ => hs

theorem aluI_keeps {s : State} (sd sa : BitVec 6) (y : W64) (len : Nat) (f : W64 → W64 → W64) (hs : s.Canon) : Res.Keeps
    (aluI s sd sa y len f) := onStoker_keeps fun _ _ => hs

theorem shiftR_keeps {s : State} (sd sa sb : BitVec 6) (f : W64 → W64 → W64) (hs : s.Canon) : Res.Keeps
    (shiftR s sd sa sb f) := onStoker_keeps fun k g => by grind [State.trapS_wf, State.setG_mem]

@[simp] theorem State.laneTime_mem (s : State) (f : LaneF) (k : Nat) (g : Group) (sp : Split) :
    (s.laneTime f k g sp).1.mem = s.mem := by
  grind [State.laneTime, State.timeRead_mem]

theorem laneRun_keeps {s : State} (hs : s.Canon) (f : LaneF) {body : LEnv → State} (hb : ∀ e : LEnv, e.s.Canon → (body e).Canon) :
    Res.Keeps (laneRun s f body) :=
  onLane_keeps fun k slot g sp => by grind [State.laneTime_mem, State.laneEnv, State.waitL_mem]

@[simp] theorem LEnv.done_mem (s : State) (e : LEnv) (g : Group) : (e.done s g).mem = s.mem := rfl

@[simp] theorem LEnv.write_mem (e : LEnv) (vs : List OutV) : (e.write vs).mem = e.s.mem := rfl

@[simp] theorem LEnv.owe_mem (e : LEnv) (o : Out) : (e.owe o).mem = e.s.mem := rfl

@[simp] theorem LEnv.writeLong_mem (e : LEnv) (vs : List OutV) : (e.writeLong vs).mem = e.s.mem := by
  unfold LEnv.writeLong; split <;> rfl

@[simp] theorem LEnv.writeMask_mem (e : LEnv) (n : Nat) (f : Nat → Bool) : (e.writeMask n f).mem = e.s.mem := rfl

@[simp] theorem LEnv.pend_mem (e : LEnv) (p : PendW) : (e.pend p).mem = e.s.mem := rfl

theorem LEnv.trap_wf {e : LEnv} (hs : e.s.Canon) (t : Trap) (threads : Mask) : (e.trap t threads).Canon := by
  grind [LEnv.trap, State.trapL_wf]

theorem LEnv.trapAll_wf {e : LEnv} (hs : e.s.Canon) (t : Trap) : (e.trapAll t).Canon := by
  grind [LEnv.trapAll, LEnv.trap_wf]

theorem LEnv.guard_wf {e : LEnv} (hs : e.s.Canon) {go : State} (hgo : go.Canon) (f : Nat → Bool) : (e.guard f go).Canon := by
  grind [LEnv.guard, LEnv.trap_wf]

/-! ### StokerMem -/

@[simp] theorem State.sendLost_mem (s : State) (k : Nat) (g : Group) (n : Nat) (va : W64) (t : Tr) (size : Nat) (signed : Bool)
    (pc : W64) (acq : Bool) : (s.sendLost k g n va t size signed pc acq).mem = s.mem := by
  grind [State.sendLost, State.sendOut_mem]

@[simp] theorem State.lostLoad_mem (s : State) (k : Nat) (g : Group) (sd : BitVec 6) (va : W64) (t : Tr) (size : Nat) (signed :
    Bool) (len : Nat) (acq : Bool) : (s.lostLoad k g sd va t size signed len acq).mem = s.mem := by
  grind [State.lostLoad, State.setG_mem, State.sendLost_mem]

theorem State.stokerRead_wf {s : State} (hs : s.Canon) (k : Nat) (g : Group) (t : Tr) (size : Nat) :
    (s.stokerRead k g t size).1.Canon := by
  grind [State.stokerRead, State.ownRead_mem, State.readBytes_wf]

theorem loadS_keeps {s : State} (sd : BitVec 6) (a : BitVec 6) (off : W64) (size : Nat) (signed : Bool) (len : Nat) (acq : Bool)
    (hs : s.Canon) : Res.Keeps (loadS s sd a off size signed len acq) := onStoker_keeps fun k g => by
  grind [State.waitS_mem, State.lostLoad_mem, State.stokerRead_wf, State.chkScalar_wf, State.setG_mem, State.trapS_wf]

theorem State.storeAt_wf {s : State} (hs : s.Canon) (k : Nat) (g : Group) (va : W64) (t : Tr) (data : List Byte) (pz : Bool)
    (blk : Nat) : (s.storeAt k g va t data pz blk).Canon := by
  grind [State.storeAt, State.gatherD_wf, State.issueWrite_wf]

theorem storeS_keeps {s : State} (sd : BitVec 6) (a : BitVec 6) (off : W64) (size scope : Nat) (len : Nat) (hs : s.Canon) :
    Res.Keeps (storeS s sd a off size scope len) := onStoker_keeps fun k g => by
  grind [State.waitS_mem, State.chkScalar_wf, State.setG_mem, State.storeAt_wf, State.trapS_wf]

theorem atomicS_keeps {s : State} (w : BitVec 1) (sd sa sb : BitVec 6) (op : Nat) (signed : Bool) (ar : Option Nat) (hs :
    s.Canon) : Res.Keeps (atomicS s w sd sa sb op signed ar) := onStoker_keeps fun k g => by
  grind [State.waitS_mem, State.chkScalar_wf, State.setG_mem, State.issueWrite_wf, State.trapS_wf, State.gatherD_wf]

theorem execFence_keeps {s : State} (k : BitVec 2) (scope : BitVec 3) (hs : s.Canon) : Res.Keeps
    (execFence k scope s) := onStoker_keeps fun k g => by grind [State.setG_mem, State.waitS_mem]

theorem State.xltScan_wf {s : State} (hs : s.Canon) (h ctx : Nat) (v : W64) (n : Nat) (first : Tr) (fuel : Nat) (len : Nat) :
    (s.xltScan h ctx v n first fuel len).1.Canon := by
  induction fuel generalizing s len with
  | zero => exact hs
  | succ n ih => grind [State.xltScan, State.translate_wf]

theorem execXlt_keeps {s : State} (bn : BitVec 4) (sa sb : BitVec 6) (hs : s.Canon) : Res.Keeps
    (execXlt bn sa sb s) := onStoker_keeps fun k g => by grind [State.translate_wf, State.setG_mem, State.trapS_wf,
    State.xltScan_wf]

theorem execXinv_keeps {s : State} (bn : BitVec 4) (hs : s.Canon) : Res.Keeps
    (execXinv bn s) := onStoker_keeps fun k g => by grind [State.setG_mem]

theorem execXrd_keeps {s : State} (sd : BitVec 6) (bn : BitVec 4) (k : BitVec 2) (hs : s.Canon) : Res.Keeps
    (execXrd sd bn k s) := onStoker_keeps fun k g => by grind [State.setG_mem, State.trapS_wf]

/-! ### LaneMem -/

theorem LEnv.failed_wf (e : LEnv) {s go : State} (hs : s.Canon) (hgo : go.Canon) (l : List (Nat × Trap)) :
    (e.failed s l go).Canon := by
  grind [LEnv.failed.eq_def, LEnv.trap_wf]

theorem LEnv.locate_wf {s : State} (hs : s.Canon) (e : LEnv) (a : AccK) (size t : Nat) : (e.locate s a size t).1.Canon := by
  grind [LEnv.locate, State.translate_wf]

theorem LEnv.locateAll_wf {s : State} (hs : s.Canon) (e : LEnv) (a : AccK) (size : Nat) (l : List Nat) :
    (e.locateAll a size l s).1.Canon := by
  induction l generalizing s with
  | nil => exact hs
  | cons t r ih => grind [LEnv.locateAll, LEnv.locate_wf]

theorem LEnv.checkGlobal_wf (e : LEnv) {s : State} (hs : s.Canon) {go : State → List LAcc → State} (hgo : ∀ t l, t.Canon →
    (go t l).Canon)
    (a : AccK) (size : Nat) (l : List LAcc) : (e.checkGlobal a size s l go).Canon := by
  have hw : (s.waitL e.k e.slot).Canon := hs
  unfold LEnv.checkGlobal
  grind [LEnv.failed_wf]

theorem LEnv.access_wf {e : LEnv} (hs : e.s.Canon) {go : State → List LAcc → State} (hgo : ∀ t l, t.Canon → (go t l).Canon)
    (sp : Space) (a : AccK) (size : Nat) (pz : Nat → Bool) : (e.access sp a size pz go).Canon := by
  unfold LEnv.access
  grind [LEnv.failed_wf, LEnv.locateAll_wf, LEnv.checkGlobal_wf]

theorem State.refillFor_wf {s : State} (hs : s.Canon) (wg : Nat) (l : List LAcc) (size : Nat) :
    (s.refillFor wg l size).Canon := by
  grind [State.refillFor, foldl_canon, State.refill_wf]

theorem LEnv.readOne_wf {s : State} (hs : s.Canon) (e : LEnv) (sp : Space) (size : Nat) (x : LAcc) :
    (e.readOne sp size s x).1.Canon := by
  grind [LEnv.readOne.eq_def, State.readBytes_wf, State.touchPrivs_wf]

theorem LEnv.readAll_wf {s : State} (hs : s.Canon) (e : LEnv) (sp : Space) (size : Nat) (l : List LAcc) :
    (e.readAll sp size l s).1.Canon := by
  induction l generalizing s with
  | nil => exact hs
  | cons x r ih => grind [LEnv.readAll, LEnv.readOne_wf]

@[simp] theorem LEnv.logReads_mem (s : State) (e : LEnv) (lost : List Pend) (vs : List (LAcc × List Byte × Bool)) :
    (e.logReads s lost vs).1.mem = s.mem := by
  grind [LEnv.logReads, State.ownReads_mem, State.undoTrace_mem]

theorem LEnv.load_wf {e : LEnv} (hs : e.s.Canon) (sp : Space) (size : Nat) (signed : Bool) : (e.load sp size signed).Canon := by
  refine LEnv.access_wf hs (fun t l ht => ?_) _ _ _ _
  grind [LEnv.readAll_wf, State.waitL_mem, LEnv.done_mem, LEnv.owe_mem, LEnv.logReads_mem, State.refillFor_wf,
      State.sendLoads_mem]

@[simp] theorem State.rewindow_mem (s : State) (k slot stamp : Nat) (hit : LoadReq → Bool) :
    (s.rewindow k slot stamp hit).mem = s.mem := rfl

theorem LEnv.sendStores_wf {s : State} (hs : s.Canon) (e : LEnv) (l : List LAcc) (size : Nat) :
    (e.sendStores s l size).Canon := by
  grind [LEnv.sendStores, foldl_canon, State.gatherD_wf, State.issueWrite_wf]

theorem LEnv.releasing_wf (e : LEnv) {s go : State} (hs : s.Canon) (hgo : go.Canon) (scope : Nat) :
    (e.releasing scope s go).Canon := by
  grind [LEnv.releasing, State.waitL_mem, State.modG_mem]

theorem LEnv.store_wf {e : LEnv} (hs : e.s.Canon) (sp : Space) (size : Nat) : (e.store sp size).Canon := by
  refine LEnv.access_wf hs (fun t l ht => LEnv.releasing_wf e ht ?_ _) _ _ _ _
  grind [State.rewindow_mem, LEnv.done_mem, State.refillFor_wf, State.modWg_mem, State.privWrite_wf, LEnv.sendStores_wf]

@[simp] theorem State.scratchAtomic_mem (s : State) (wg off w op ty x cmp : Nat) :
    (s.scratchAtomic wg off w op ty x cmp).1.mem = s.mem := by
  grind [State.scratchAtomic, State.stamp_mem, State.modWg_mem]

@[simp] theorem LEnv.scratchAtomics_mem (s : State) (e : LEnv) (op w : Nat) (l : List LAcc) :
    (e.scratchAtomics op w l s).1.mem = s.mem := by
  induction l generalizing s with
  | nil => rfl
  | cons x r ih => grind [LEnv.scratchAtomics, State.scratchAtomic_mem]

theorem LEnv.sendAtomics_wf {s : State} (hs : s.Canon) (e : LEnv) (l : List LAcc) (op w out : Nat) (acq : Bool) :
    (e.sendAtomics s l op w out acq).Canon := by
  grind [LEnv.sendAtomics, foldl_canon, State.gatherD_wf, State.issueWrite_wf]

theorem LEnv.atomic_wf {e : LEnv} (hs : e.s.Canon) (op : Nat) : (e.atomic op).Canon := by
  refine LEnv.access_wf hs (fun t l ht => LEnv.releasing_wf e ht ?_ _) _ _ _ _
  grind [LEnv.sendAtomics_wf, LEnv.done_mem, State.refillFor_wf, LEnv.scratchAtomics_mem, LEnv.writeLong_mem, State.newId_mem]

/-! ### Views -/

@[simp] theorem State.fillEntry_mem (s : State) (h slot : Nat) (e : VEnt) : (s.fillEntry h slot e).mem = s.mem := by
  grind [State.fillEntry, State.l1Drop_mem]

theorem VSet.trap_wf {s : State} (hs : s.Canon) (v : VSet) (t : Trap) : (VSet.trap v s t).Canon := by
  grind [VSet.trap, takeTrap_wf, State.trapS_wf]

theorem VSet.share_wf {s : State} (hs : s.Canon) (v : VSet) (x n : Nat) : (VSet.share v s x n).Canon := by
  grind [VSet.share, State.setG_mem, VSet.trap_wf]

theorem VSet.fill_wf {s : State} (hs : s.Canon) (v : VSet) (x : Nat) (m : List Byte) (pz : Bool) (key : Nat) :
    (VSet.fill v s x m pz key).Canon := by
  grind [VSet.fill, State.setG_mem, State.fillEntry_mem, VSet.trap_wf]

theorem VSet.bind_wf {s : State} (hs : s.Canon) (v : VSet) (x : Nat) : (VSet.bind v s x).Canon := by
  have hc := State.chkTlb_wf hs v.k v.g accLoad (vdesc x).matrix 2
  dsimp only [VSet.bind]
  split
  · exact VSet.trap_wf hs v _
  · split <;> grind [State.waitS_mem, VSet.share_wf, State.readRange_wf, VSet.fill_wf, VSet.trap_wf]

theorem VSet.run_wf {s : State} (hs : s.Canon) (v : VSet) : (VSet.run v s).Canon := by
  grind [VSet.run, State.waitS_mem, State.readRange_wf, VSet.trap_wf, VSet.bind_wf]

theorem execVset_keeps {s : State} (wn : BitVec 3) (sa : BitVec 6) (hs : s.Canon) : Res.Keeps
    (execVset wn sa s) := onStoker_keeps fun k g => by grind [State.trapS_wf, State.waitS_mem, VSet.run_wf]

theorem execVdrop_keeps {s : State} (wn : BitVec 3) (hs : s.Canon) : Res.Keeps
    (execVdrop wn s) := onStoker_keeps fun k g => by grind [State.setG_mem, State.waitS_mem]

theorem execVqry_keeps {s : State} (sd : BitVec 6) (wn k : BitVec 3) (hs : s.Canon) : Res.Keeps
    (execVqry sd wn k s) := onStoker_keeps fun k g => by grind [State.setG_mem, State.waitS_mem]

theorem execViewMatrixCopyDone_keeps {s : State} (hs : s.Canon) : Res.Keeps (execViewMatrixCopyDone s) := onEvent_keeps
    (by grind [State.modG_mem])

theorem State.installRow_wf {s : State} (hs : s.Canon) (p : Proj) (row : List Byte) (pz : Bool) :
    (s.installRow p row pz).Canon := by
  unfold State.installRow; exact foldl_canon (fun s p hs => by grind [State.l1Install_wf]) hs _

theorem State.readLatent_wf {s : State} (hs : s.Canon) (p : Proj) (pa n len : Nat) (cmpr : Bool) :
    (s.readLatent p pa n len cmpr).1.Canon := by
  grind [State.readLatent, State.ownRead_mem, State.l1Use_mem, State.queueRead_mem, State.sendReader_mem, State.fetchLine_wf]

theorem State.readRow_wf {s : State} (hs : s.Canon) (fuel : Nat) (p : Proj) : (s.readRow fuel p).1.Canon := by
  induction fuel generalizing s p with
  | zero => exact hs
  | succ n ih => grind [State.readRow, State.readLatent_wf]

@[simp] theorem State.unlock_mem (s : State) (kind op : Nat) : (s.unlock kind op).mem = s.mem := rfl

@[simp] theorem State.deliverRow_mem (s : State) (d : VDesc) (row : List Byte × Bool) (w : LdvWait) :
    (s.deliverRow d row w).mem = s.mem := by
  grind [State.deliverRow, State.modOwner_mem]

theorem State.advance_wf {s : State} (hs : s.Canon) (p : Proj) : (s.advance p).Canon := by
  grind [State.advance, State.readRow_wf]

@[simp] theorem State.takeUnit_mem (s : State) (p : Proj) : (s.takeUnit p).mem = s.mem := rfl

theorem State.formRow_wf {s : State} (hs : s.Canon) (p : Proj) : (s.formRow p).Canon := by
  grind [State.formRow, foldl_canon, State.forget_mem, State.installRow_wf, State.unlock_mem, State.deliverRow_mem]

theorem execProjectionComplete_keeps {s : State} (hs : s.Canon) : Res.Keeps (execProjectionComplete s) := onEvent_keeps
    (by grind [State.advance_wf, State.takeUnit_mem, State.formRow_wf])

theorem State.rowChecks_wf {s : State} (hs : s.Canon) (h ctx : Nat) (l : List (W64 × Nat)) (acc :
    List Trap × List Trap × List Trap) : (s.rowChecks h ctx l acc).1.Canon := by
  induction l generalizing s acc with
  | nil => exact hs
  | cons x r ih => grind [State.rowChecks, State.translate_wf]

theorem State.lookupRow_wf {s : State} (hs : s.Canon) (q : LdvEnv) (token : Nat) (w : LdvWait) :
    (s.lookupRow q token w).Canon := by
  grind [State.lookupRow, foldl_canon, State.newId_mem, State.l1Use_mem, State.deliverRow_mem, State.advance_wf]

theorem State.lookupRows_wf {s : State} (hs : s.Canon) (q : LdvEnv) (tok : Nat → Nat) (o : Out) :
    (s.lookupRows q tok o).Canon := by
  unfold State.lookupRows; exact foldl_canon (fun s p hs => by grind [State.lookupRow_wf]) hs _

theorem LdvEnv.run_wf {s : State} (hs : s.Canon) (q : LdvEnv) (tok col : Nat → Nat) : (LdvEnv.run q s tok col).Canon := by
  grind [LdvEnv.run, State.waitL_mem, LEnv.owe_mem, State.lookupRows_wf]

theorem LdvEnv.rowTraps_wf {s : State} (hs : s.Canon) (q : LdvEnv) (tok : Nat → Nat) (l : List Nat) :
    (LdvEnv.rowTraps q tok l s).1.Canon := by
  induction l generalizing s with
  | nil => exact hs
  | cons t r ih => grind [LdvEnv.rowTraps, State.rowChecks_wf]

theorem LdvEnv.checked_wf {q : LdvEnv} (hs : q.e.s.Canon) (tok col : Nat → Nat) : (q.checked tok col).Canon := by
  unfold LdvEnv.checked
  grind [LEnv.failed_wf, LdvEnv.run_wf, LdvEnv.rowTraps_wf]

theorem execLdv_keeps {s : State} (f : LaneF) (hs : s.Canon) : Res.Keeps
    (execLdv f s) := laneRun_keeps hs f fun e he => by grind [LEnv.done_mem, LEnv.trap_wf, LdvEnv.checked_wf]

/-! ### Timing -/

@[simp] theorem State.timeStoker_mem (s : State) (s0 : State) (k : Nat) (g : Group) (i : Instr) :
    (s.timeStoker s0 k g i).mem = s.mem := rfl

@[simp] theorem State.takePort_mem (s : State) (k n : Nat) : (s.takePort k n).2.mem = s.mem := by
  unfold State.takePort; split <;> rfl

@[simp] theorem State.timeLane_mem (s : State) (s0 : State) (k slot : Nat) (g : Group) (sp : Split) (i : Instr) :
    (s.timeLane s0 k slot g sp i).mem = s.mem := by
  grind [State.timeLane, State.modG_mem, State.takePort_mem]

/-! ### Issue -/

theorem State.fetch4_wf {s : State} (hs : s.Canon) (k : Nat) (g : Group) (va : W64) : (s.fetch4 k g va).1.Canon := by
  grind [State.fetch4, State.translate_wf, State.ownRead_mem, State.sendReader_mem]

theorem State.fetchWords_wf {s : State} (hs : s.Canon) (k : Nat) (g : Group) (va : W64) (fuel : Nat) :
    (s.fetchWords k g va fuel).1.Canon := by
  induction fuel generalizing s va with
  | zero => exact hs
  | succ n ih => grind [State.fetchWords, State.fetch4_wf]

theorem State.fetchStoker_wf {s : State} (hs : s.Canon) (k : Nat) (g : Group) : (s.fetchStoker k g).1.Canon := by
  grind [State.fetchStoker, State.fetchWords_wf]

theorem State.fetchLane_wf {s : State} (hs : s.Canon) (k : Nat) (g : Group) (sp : Split) : (s.fetchLane k g sp).1.Canon := by
  grind [State.fetchLane, State.fetchWords_wf]

@[simp] theorem State.issuedLane_mem (s : State) (s0 : State) (pos k slot clocks : Nat) :
    (s.issuedLane s0 pos k slot clocks).mem = s.mem := by
  grind [State.issuedLane]

@[simp] theorem State.issuedStoker_mem (s : State) (s0 : State) (pos k : Nat) : (s.issuedStoker s0 pos k).mem = s.mem := rfl

theorem Res.after_keeps {r : Res} (hr : Res.Keeps r) {f : State → State} (hf : ∀ t, t.Canon → (f t).Canon) : Res.Keeps
    (Res.after r f) := by
  cases r with
  | next u => rintro _ ⟨⟩; exact hf _ (hr _ rfl)
  | fault x => rintro _ ⟨⟩
  | refused x => rintro _ ⟨⟩

@[simp] theorem State.putOff_mem (s : State) (d : Nat) : (s.putOff d).mem = s.mem := rfl

@[simp] theorem State.delay_mem (s : State) (ctx : Nat) : (s.delay ctx).mem = s.mem := rfl

@[simp] theorem State.clock_mem (s : State) : s.clock.mem = s.mem := by
  grind [State.clock, State.putOff_mem, State.delay_mem]

/-! ### LaneCtl -/

theorem State.setStack_wf {s : State} (hs : s.Canon) (k : Nat) (old g : Group) : (s.setStack k old g).Canon := by
  grind [State.setStack, foldl_canon, State.setG_mem, State.touchPriv_wf, State.privWrite_wf]

theorem LEnv.settled_wf {e : LEnv} (hs : e.s.Canon) {go : Group → Split → State} (hgo : ∀ g sp, (go g sp).Canon) :
    (e.settled go).Canon := by
  grind [LEnv.settled, State.waitL_mem]

theorem LEnv.divide_wf {e : LEnv} (hs : e.s.Canon) (g : Group) (taken fall : Split) : (e.divide g taken fall).Canon := by
  grind [LEnv.divide, State.stamp_mem, LEnv.trapAll_wf, State.setStack_wf]

theorem execBra_keeps {s : State} (f : LaneF) (hs : s.Canon) : Res.Keeps
    (execBra f s) := laneRun_keeps hs f fun e he => by grind [State.setG_mem, State.stamp_mem, LEnv.trapAll_wf, LEnv.settled_wf,
    LEnv.divide_wf]

theorem LEnv.begin_wf {e : LEnv} (hs : e.s.Canon) (g : Group) (sp : Split) : (e.begin g sp).Canon := by
  grind [LEnv.begin, State.stamp_mem, LEnv.trapAll_wf, State.setStack_wf]

theorem execJoin_keeps {s : State} (f : LaneF) (hs : s.Canon) : Res.Keeps
    (execJoin f s) := laneRun_keeps hs f fun e he => by grind [State.setG_mem, State.stamp_mem, LEnv.settled_wf, LEnv.begin_wf]

theorem execLpause_keeps {s : State} (f : LaneF) (hs : s.Canon) : Res.Keeps
    (execLpause f s) := laneRun_keeps hs f fun e he => by grind [State.setG_mem, State.stamp_mem, LEnv.settled_wf]

theorem execLstop_keeps {s : State} (f : LaneF) (hs : s.Canon) : Res.Keeps
    (execLstop f s) := laneRun_keeps hs f fun e he => by grind [State.setG_mem, State.stamp_mem, LEnv.settled_wf, LEnv.begin_wf]

theorem maskOp_keeps {s : State} (f : LaneF) (op : Bool → Bool → Bool) (hs : s.Canon) : Res.Keeps
    (maskOp s f op) := laneRun_keeps hs f fun e he => by grind [LEnv.writeMask_mem]

theorem execVtom_keeps {s : State} (f : LaneF) (hs : s.Canon) : Res.Keeps
    (execVtom f s) := laneRun_keeps hs f fun e he => by grind [LEnv.writeMask_mem, LEnv.guard_wf]

/-! ### StokerControl -/

theorem State.transfer_wf {s : State} (hs : s.Canon) (k : Nat) (g g' : Group) (target : W64) :
    (s.transfer k g g' target).Canon := by
  grind [State.transfer, State.setG_mem, State.trapS_wf]

theorem execBr_keeps {s : State} (off : BitVec 25) (hs : s.Canon) : Res.Keeps
    (execBr off s) := onStoker_keeps fun k g => by grind [State.transfer_wf]

theorem execCall_keeps {s : State} (off : BitVec 25) (hs : s.Canon) : Res.Keeps
    (execCall off s) := onStoker_keeps fun k g => by grind [State.transfer_wf]

theorem execJr_keeps {s : State} (sa : BitVec 6) (hs : s.Canon) : Res.Keeps
    (execJr sa s) := onStoker_keeps fun k g => by grind [State.trapS_wf, State.transfer_wf]

theorem branchOn_keeps {s : State} (sa : BitVec 6) (off : BitVec 19) (onZero : Bool) (hs : s.Canon) : Res.Keeps
    (branchOn s sa off onZero) := onStoker_keeps fun k g => by grind [State.setG_mem, State.transfer_wf, State.trapS_wf]

theorem branchC_keeps {s : State} (cn : BitVec 3) (off : BitVec 19) (want : Bool) (hs : s.Canon) : Res.Keeps
    (branchC s cn off want) := onStoker_keeps fun k g => by grind [State.setG_mem, State.transfer_wf]

theorem execLrun_keeps {s : State} (idx : BitVec 25) (hs : s.Canon) : Res.Keeps
    (execLrun idx s) := onStoker_keeps fun k g => by grind [State.setG_mem, State.newId_mem, State.trapS_wf, State.waitS_mem]

theorem execLwait_keeps {s : State} (hs : s.Canon) : Res.Keeps
    (execLwait s) := onStoker_keeps fun k g => by grind [State.setG_mem, State.waitS_mem]

@[simp] theorem State.dropLost_mem (s : State) (n : Nat × Nat) : (s.dropLost n).mem = s.mem := rfl

theorem execLkill_keeps {s : State} (hs : s.Canon) : Res.Keeps
    (execLkill s) := onStoker_keeps fun k g => by grind [State.setG_mem, State.stamp_mem, State.forgetGroup_mem,
    State.waitS_mem, State.dropLost_mem]

theorem execSpause_keeps {s : State} (hs : s.Canon) : Res.Keeps
    (execSpause s) := onStoker_keeps fun k g => by grind [State.setG_mem]

theorem execTrap_keeps {s : State} (n : BitVec 7) (hs : s.Canon) : Res.Keeps
    (execTrap n s) := onStoker_keeps fun k g => by grind [takeTrap_wf]

theorem execTret_keeps {s : State} (hs : s.Canon) : Res.Keeps
    (execTret s) := onStoker_keeps fun k g => by grind [State.setG_mem, State.returnFrames_wf, State.trapS_wf, State.waitS_mem]

theorem State.abandon_wf {s : State} (hs : s.Canon) (k : Nat) (g : Group) (f : HFrame) : (s.abandon k g f).Canon := by
  grind [State.abandon, State.returnFrames_wf, State.forgetGroup_mem, State.escalate_mem]

theorem execPtake_keeps {s : State} (sd : BitVec 6) (hs : s.Canon) : Res.Keeps
    (execPtake sd s) := onStoker_keeps fun k g => by grind [State.setG_mem, State.poolTake_wf, State.trapS_wf, State.waitS_mem,
    State.abandon_wf]

theorem State.zero_wf {s : State} (hs : s.Canon) (pa n : Nat) : (s.zero pa n).Canon := filter_wf _ hs

theorem State.install_wf {s : State} (hs : s.Canon) (entryPa : Nat) (frame : Nat) : (s.install entryPa frame).Canon := by
  grind [State.install, State.pokeRaw_wf, State.zero_wf]

theorem execPmap_keeps {s : State} (sa sb : BitVec 6) (hs : s.Canon) : Res.Keeps
    (execPmap sa sb s) := onStoker_keeps fun k g => by grind [State.setG_mem, State.poolReturn_wf, State.trapS_wf,
    State.waitS_mem, State.clearWay_mem, State.install_wf]

theorem State.harvest_wf {s : State} (hs : s.Canon) (ctx : Nat) : (s.harvest ctx).Canon := by
  unfold State.harvest; exact foldl_canon (fun s p hs => by grind [State.writeBackAD_wf]) hs _

theorem execAharv_keeps {s : State} (hs : s.Canon) : Res.Keeps
    (execAharv s) := onStoker_keeps fun k g => by grind [State.setG_mem, State.trapS_wf, State.waitS_mem, State.harvest_wf]

/-! ### Events -/

theorem State.onGroup_wf {s : State} (hs : s.Canon) (k : Nat) {f : Group → State} (hf : ∀ g, (f g).Canon) :
    (s.onGroup k f).Canon := by
  grind [State.onGroup]

theorem execLongLatencyResult_keeps {s : State} (hs : s.Canon) : Res.Keeps (execLongLatencyResult s) := onEvent_keeps
    (by grind [State.setG_mem, State.onGroup_wf])

theorem execEscalation_keeps {s : State} (hs : s.Canon) : Res.Keeps (execEscalation s) := onEvent_keeps
    (by grind [State.setG_mem, State.newId_mem, State.onGroup_wf])

theorem execStokerEscalation_keeps {s : State} (hs : s.Canon) : Res.Keeps (execStokerEscalation s) := onEvent_keeps
    (by grind [State.setG_mem, State.newId_mem, State.onGroup_wf])

theorem execDemotionEnd_keeps {s : State} (hs : s.Canon) : Res.Keeps (execDemotionEnd s) := onEvent_keeps
    (by grind [State.setG_mem, State.onGroup_wf])

theorem execSplitRotation_keeps {s : State} (hs : s.Canon) : Res.Keeps (execSplitRotation s) := onEvent_keeps
    (by grind [State.setStack_wf, State.onGroup_wf])

@[simp] theorem State.suspend_mem (s : State) (k : Nat) (g : Group) (t : Trap) : (s.suspend k g t).mem = s.mem := rfl

theorem execTrapTake_keeps {s : State} (hs : s.Canon) : Res.Keeps (execTrapTake s) := onEvent_keeps (by grind [takeTrap_wf,
    State.onGroup_wf, State.suspend_mem])

theorem execStokerIllegalInstruction_keeps {s : State} (hs : s.Canon) : Res.Keeps
    (execStokerIllegalInstruction s) := onStoker_keeps fun k g => by grind [State.trapS_wf]

theorem execLaneIllegalInstruction_keeps {s : State} (hs : s.Canon) : Res.Keeps
    (execLaneIllegalInstruction s) := onLane_keeps fun k slot g sp => by grind [State.trapL_wf]

theorem execFetchPageFault_keeps {s : State} (hs : s.Canon) : Res.Keeps (execFetchPageFault s) := by
  unfold execFetchPageFault
  split
  · exact onStoker_keeps fun k g => State.trapS_wf hs _ _ _ _
  · exact onLane_keeps fun k slot g sp => State.trapL_wf hs _ _ _ _ _ _

theorem execCoalescerDelivery_keeps {s : State} (hs : s.Canon) : Res.Keeps (execCoalescerDelivery s) := onEvent_keeps
    (by grind [])

@[simp] theorem State.setRec_mem (s : State) (old : Rec) (new : Option Rec) : (s.setRec old new).mem = s.mem := by
  unfold State.setRec; split <;> rfl

@[simp] theorem State.openHeld_mem (s : State) (h : Nat) : (s.openHeld h).mem = s.mem := by
  unfold State.openHeld; split <;> rfl

@[simp] theorem State.advanceTail_mem (s : State) (d : Nat) : (s.advanceTail d).mem = s.mem := by
  grind [State.advanceTail, State.irq_mem]

theorem execFaultQueueWrite_keeps {s : State} (hs : s.Canon) : Res.Keeps (execFaultQueueWrite s) := onEvent_keeps
    (by grind [State.storeOwn_wf, State.setRec_mem, State.openHeld_mem, State.advanceTail_mem])

theorem execPageWalk_keeps {s : State} (hs : s.Canon) : Res.Keeps (execPageWalk s) := onEvent_keeps
    (by grind [State.translate_wf])

theorem execAdWriteback_keeps {s : State} (hs : s.Canon) : Res.Keeps (execAdWriteback s) := onEvent_keeps
    (by grind [State.writeBackAD_wf, foldl_canon])

/-! ### Engines -/

@[simp] theorem State.addLocks_mem (s : State) (h : Nat) (l : List Lock) : (s.addLocks h l).mem = s.mem := by
  unfold State.addLocks; exact foldl_mem _ (fun s p => by grind []) _ _

theorem State.engineTr_wf {s : State} (hs : s.Canon) (h ctx : Nat) (va : W64) : (s.engineTr h ctx va).1.Canon := by
  grind [State.engineTr, State.translate_wf, State.poolTake_wf, State.install_wf]

@[simp] theorem State.engineLost_mem (s : State) (h ctx op : Nat) (va : W64) (t : Tr) (n : Nat) :
    (s.engineLost h ctx op va t n).mem = s.mem := by
  grind [State.engineLost, State.newId_mem, State.sendOut_mem]

@[simp] theorem State.lateBy_mem (s : State) (op clk : Nat) : (s.lateBy op clk).mem = s.mem := by
  unfold State.lateBy; split <;> rfl

theorem State.engineRead_wf {s : State} (hs : s.Canon) (h ctx op : Nat) (owner : Nat × Nat) (va : W64) (n : Nat) :
    (s.engineRead h ctx op owner va n).1.Canon := by
  grind [State.engineRead, State.ownRead_mem, State.readBytes_wf, State.engineTr_wf, State.engineLost_mem, State.lateBy_mem]

theorem State.engineWrite_wf {s : State} (hs : s.Canon) (h ctx : Nat) (va : W64) : (s.engineWrite h ctx va).1.Canon := by
  grind [State.engineWrite, State.engineTr_wf]

theorem State.engineStore_wf {s : State} (hs : s.Canon) (h ctx op : Nat) (va : W64) (t : Tr) (data : List Byte) (pz : Bool) :
    (s.engineStore h ctx op va t data pz).Canon := by
  grind [State.engineStore, State.gatherD_wf, State.issueWrite_wf]

@[simp] theorem State.engineRecord_mem (s : State) (k : Nat) (code : Nat) (addr : W64) (wr : Bool) (at_ : Bool) (size : Nat) :
    (s.engineRecord k code addr wr at_ size).mem = s.mem := by
  grind [State.engineRecord, State.coalesce_mem]

@[simp] theorem State.suspendLater_mem (s : State) (k code : Nat) (addr : W64) (wr : Bool) (at_ : Bool) (size : Nat) :
    (s.suspendLater k code addr wr at_ size).mem = s.mem := rfl

@[simp] theorem State.joinLast_mem (s : State) (slots : List Nat) : (s.joinLast slots).mem = s.mem := by
  unfold State.joinLast; split <;> rfl

@[simp] theorem State.wakeYielded_mem (s : State) : s.wakeYielded.mem = s.mem := rfl

theorem execCpwait_keeps {s : State} (tag : BitVec 4) (hs : s.Canon) : Res.Keeps
    (execCpwait tag s) := onStoker_keeps fun k g => by grind [State.setG_mem, State.waitS_mem]

theorem execCpcont_keeps {s : State} (tag : BitVec 4) (off : BitVec 21) (hs : s.Canon) : Res.Keeps
    (execCpcont tag off s) := onStoker_keeps fun k g => by grind [State.setG_mem, State.trapS_wf, State.waitS_mem]

theorem execCpstat_keeps {s : State} (sd : BitVec 6) (tag : BitVec 4) (hs : s.Canon) : Res.Keeps
    (execCpstat sd tag s) := onStoker_keeps fun k g => by grind [State.setG_mem]

/-! ### Copies -/

@[simp] theorem State.startCopy_mem (s : State) (k : Nat) (g : Group) (tag kind : Nat) (addr : W64) (desc : List Byte) :
    (s.startCopy k g tag kind addr desc).mem = s.mem := by
  grind [State.startCopy, State.setG_mem, State.newId_mem, State.addLocks_mem]

theorem copyCmd_keeps {s : State} (sa : BitVec 6) (tag : BitVec 4) (kind : Nat) (hs : s.Canon) : Res.Keeps
    (copyCmd s sa tag kind) := onStoker_keeps fun k g => by
  grind [State.waitS_mem, State.waitGot_mem, State.readOnce_wf, State.startCopy_mem, State.trapS_wf]

theorem State.copyBytes_wf {s : State} (hs : s.Canon) (c : Copy) (sp : Nat) (addr n : Nat) :
    (s.copyBytes c sp addr n).1.Canon := by
  unfold State.copyBytes
  split
  · grind [State.engineRead_wf]
  · grind [foldl_canon, State.refill_wf]
  · grind [State.touchPriv_wf]

theorem State.copySpan_wf {s : State} (hs : s.Canon) (c : Copy) (sp : Nat) (fuel : Nat) (addr : Nat) (len : Nat) :
    (s.copySpan c sp fuel addr len).1.Canon := by
  induction fuel generalizing s addr len with
  | zero => exact hs
  | succ n ih =>
    cases len with
    | zero => exact hs
    | succ m =>
      dsimp only [State.copySpan]
      repeat' split
      all_goals grind [State.copyBytes_wf]

theorem State.copyIndexes_wf {s : State} (hs : s.Canon) (c : Copy) (f : CopyF) (fuel : Nat) : (s.copyIndexes c f fuel).1.Canon := by
  induction fuel generalizing s c with
  | zero => exact hs
  | succ n ih => grind [State.copyIndexes, State.undoTrace_mem, State.copySpan_wf]

theorem State.copyRead_wf {s : State} (hs : s.Canon) (c : Copy) (f : CopyF) (fuel : Nat) (pos : Nat) (len : Nat) :
    (s.copyRead c f fuel pos len).1.Canon := by
  induction fuel generalizing s pos len with
  | zero => exact hs
  | succ n ih =>
    cases len with
    | zero => exact hs
    | succ m =>
      dsimp only [State.copyRead]
      repeat' split
      all_goals grind [State.copyBytes_wf]

theorem State.copyChecks_wf {s : State} (hs : s.Canon) (c : Copy) (f : CopyF) (l : List (Nat × List Byte × Bool)) :
    (s.copyChecks c f l).1.Canon := by
  induction l generalizing s with
  | nil => exact hs
  | cons x r ih =>
    dsimp only [State.copyChecks]
    repeat' split
    all_goals grind [State.engineWrite_wf]

theorem State.copySend_wf {s : State} (hs : s.Canon) (c : Copy) (f : CopyF) (l : List (W64 × Tr × List Byte × Bool)) :
    (s.copySend c f l).Canon := by
  grind [State.copySend, foldl_canon, State.gatherD_wf, State.issueWrite_wf, State.engineStore_wf]

theorem State.copyWrite_wf {s : State} (hs : s.Canon) (c : Copy) (f : CopyF) (l : List (Nat × List Byte × Bool)) :
    (s.copyWrite c f l).1.Canon := by
  grind [State.copyWrite, foldl_canon, State.modWg_mem, State.refill_wf, State.openPage_mem, State.privWrite_wf,
      State.copyChecks_wf, State.copySend_wf]

@[simp] theorem State.progress_mem (s : State) (c : Copy) (done next : Nat) (got : List Nat) :
    (s.progress c done next got).mem = s.mem := by
  grind [State.progress, State.modOwner_mem]

@[simp] theorem State.endCopy_mem (s : State) (c : Copy) (t : TagSt) : (s.endCopy c t).mem = s.mem := by
  grind [State.endCopy, State.modOwner_mem, State.unlock_mem, State.wakeYielded_mem]

@[simp] theorem State.stopCopy_mem (s : State) (c : Copy) (cause : Nat) (dst : Bool) : (s.stopCopy c cause dst).mem = s.mem := by
  grind [State.stopCopy, State.modG_mem, State.engineRecord_mem, State.suspendLater_mem, State.endCopy_mem]

@[simp] theorem State.stopWrite_mem (s : State) (c : Copy) : (s.stopWrite c).mem = s.mem := by
  grind [State.stopWrite, State.stopCopy_mem]

@[simp] theorem State.holdCopy_mem (s : State) (c : Copy) : (s.holdCopy c).mem = s.mem := by
  grind [State.holdCopy, State.progress_mem]

@[simp] theorem State.countUnit_mem (s : State) (c : Copy) : (s.countUnit c).mem = s.mem := rfl

theorem State.copyStep_wf {s : State} (hs : s.Canon) (c : Copy) : (s.copyStep c).Canon := by
  grind [State.copyStep, State.stamp_mem, State.forget_mem, State.undoTrace_mem, State.copyIndexes_wf, State.copyRead_wf,
      State.copyWrite_wf, State.progress_mem, State.endCopy_mem, State.stopCopy_mem, State.holdCopy_mem, State.countUnit_mem]

theorem execCopyUnit_keeps {s : State} (hs : s.Canon) : Res.Keeps (execCopyUnit s) := onEvent_keeps (by grind [State.copyStep_wf])

/-! ### Matrix -/

@[simp] theorem State.register_mem (s : State) (k : Nat) (g : Group) (addr : W64) (rec_ : List Byte) (others : List Nat) :
    (s.register k g addr rec_ others).mem = s.mem := by
  grind [State.register, foldl_mem, State.setG_mem, State.newId_mem, State.modOwner_mem, State.modWg_mem, State.addLocks_mem]

theorem State.arriveMma_wf {s : State} (hs : s.Canon) (k : Nat) (g : Group) (addr : W64) (rec_ : List Byte) :
    (s.arriveMma k g addr rec_).Canon := by
  grind [State.arriveMma, State.trapS_wf, State.waitS_mem, State.waitGot_mem, State.modWg_mem, State.register_mem]

theorem execMma_keeps {s : State} (sa : BitVec 6) (hs : s.Canon) : Res.Keeps
    (execMma sa s) := onStoker_keeps fun k g => by grind [State.trapS_wf, State.waitS_mem, State.readOnce_wf, State.arriveMma_wf]

theorem State.teamFaults_wf {s : State} (hs : s.Canon) (g : Group) : (s.teamFaults g).Canon := by
  unfold State.teamFaults
  split
  · exact hs
  · split
    · exact foldl_canon (fun t m ht => by grind [State.trapS_wf]) hs _
    · exact hs

theorem State.pageChecks_wf {s : State} (hs : s.Canon) (k : Nat) (g : Group) (a : AccK) (size : Nat) (fuel : Nat) (va : W64)
    (len : Nat) : (s.pageChecks k g a size fuel va len).1.Canon := by
  induction fuel generalizing s va len with
  | zero => exact hs
  | succ n ih =>
    cases len with
    | zero => exact hs
    | succ m => grind [State.pageChecks, State.translate_wf]

@[simp] theorem State.registerAcc_mem (s : State) (k : Nat) (g : Group) (kind : MatKind) (d : W64) (u n fmt bytes : Nat) :
    (s.registerAcc k g kind d u n fmt bytes).mem = s.mem := by
  grind [State.registerAcc, State.setG_mem, State.newId_mem, State.waitS_mem, State.addLocks_mem]

theorem accCmd_keeps {s : State} (kind : MatKind) (sd sa sb : BitVec 6) (fmt : Nat) (hs : s.Canon) : Res.Keeps
    (accCmd s kind sd sa sb fmt) := onStoker_keeps fun k g => by
  grind [State.waitS_mem, State.pageChecks_wf, State.registerAcc_mem, State.trapS_wf]

theorem execAccst_keeps {s : State} (sd sa sb : BitVec 6) (fmt : BitVec 2) (hs : s.Canon) : Res.Keeps
    (execAccst sd sa sb fmt s) := by
  grind [execAccst, onStoker_keeps, State.trapS_wf, accCmd_keeps]

@[simp] theorem State.endMat_mem (s : State) (m : MatOp) : (s.endMat m).mem = s.mem := rfl

@[simp] theorem State.putMat_mem (s : State) (m : MatOp) : (s.putMat m).mem = s.mem := rfl

@[simp] theorem State.setMat_mem (s : State) (m : MatOp) : (s.setMat m).mem = s.mem := rfl

@[simp] theorem State.matPoison_mem (s : State) (m : MatOp) : (s.matPoison m).mem = s.mem := by
  grind [State.matPoison, State.modWg_mem, State.engineRecord_mem, State.joinLast_mem]

theorem State.refillRange_wf {s : State} (hs : s.Canon) (wg off n : Nat) : (s.refillRange wg off n).Canon := by
  unfold State.refillRange; exact foldl_canon (fun s p hs => by grind [State.refill_wf]) hs _

theorem State.refillMma_wf {s : State} (hs : s.Canon) (wg : Nat) (r : MmaRec) : (s.refillMma wg r).Canon := by
  grind [State.refillMma, State.refillRange_wf]

@[simp] theorem State.matGo_mem (s : State) (m : MatOp) : (s.matGo m).mem = s.mem := rfl

theorem State.matStep_wf {s : State} (hs : s.Canon) (m : MatOp) : (s.matStep m).Canon := by
  grind [State.matStep, State.modWg_mem, State.endMat_mem, State.matPoison_mem, State.refillMma_wf, State.matGo_mem]

theorem execMmaKstep_keeps {s : State} (hs : s.Canon) : Res.Keeps (execMmaKstep s) := onEvent_keeps (by grind [State.setMat_mem,
    State.matStep_wf])

@[simp] theorem State.putUnit_mem (s : State) (wg u : Nat) (data : List Byte) (pz : Bool) :
    (s.putUnit wg u data pz).mem = s.mem := rfl

theorem State.unitRead_wf {s : State} (hs : s.Canon) (m : MatOp) (owner : Nat × Nat) (fuel : Nat) (va : W64) (len : Nat) :
    (s.unitRead m owner fuel va len).1.Canon := by
  induction fuel generalizing s va len with
  | zero => exact hs
  | succ n ih =>
    cases len with
    | zero => exact hs
    | succ m =>
      dsimp only [State.unitRead]
      repeat' split
      all_goals grind [State.engineRead_wf]

theorem State.unitChecks_wf {s : State} (hs : s.Canon) (m : MatOp) (l : List (Nat × List Byte × Bool)) :
    (s.unitChecks m l).1.Canon := by
  induction l generalizing s with
  | nil => exact hs
  | cons x r ih =>
    dsimp only [State.unitChecks]
    repeat' split
    all_goals grind [State.engineWrite_wf]

@[simp] theorem State.matFault_mem (s : State) (m : MatOp) (at_ : W64) : (s.matFault m at_).mem = s.mem := by
  grind [State.matFault, foldl_mem, State.modOwner_mem, State.engineRecord_mem, State.suspendLater_mem, State.endMat_mem]

@[simp] theorem State.unitDone_mem (s : State) (m : MatOp) : (s.unitDone m).mem = s.mem := by
  grind [State.unitDone, State.endMat_mem, State.setMat_mem]

theorem State.accStep_wf {s : State} (hs : s.Canon) (m : MatOp) : (s.accStep m).Canon := by
  grind [State.accStep, foldl_canon, State.undoTrace_mem, State.modWg_mem, State.engineStore_wf, State.setMat_mem,
      State.putUnit_mem, State.unitRead_wf, State.unitChecks_wf, State.matFault_mem, State.unitDone_mem]

theorem execAccUnit_keeps {s : State} (hs : s.Canon) : Res.Keeps (execAccUnit s) := onEvent_keeps (by grind [State.endMat_mem,
    State.setMat_mem, State.accStep_wf])

/-! ### MemEvents -/

theorem execHomeReadRequest_keeps {s : State} (hs : s.Canon) : Res.Keeps (execHomeReadRequest s) := onEvent_keeps
    (by grind [State.serveWaiting_wf])

theorem execHomeWriteArrival_keeps {s : State} (hs : s.Canon) : Res.Keeps (execHomeWriteArrival s) := onEvent_keeps
    (by grind [State.arrive_wf])

theorem execWritePerformed_keeps {s : State} (hs : s.Canon) : Res.Keeps (execWritePerformed s) := onEvent_keeps
    (by grind [State.performFirst_wf])

theorem execHomeAtomic_keeps {s : State} (hs : s.Canon) : Res.Keeps (execHomeAtomic s) := onEvent_keeps
    (by grind [State.performFirst_wf])

theorem execLeaseExpiry_keeps {s : State} (hs : s.Canon) : Res.Keeps (execLeaseExpiry s) := onEvent_keeps
    (by grind [State.l1Drop_mem])

theorem execLendLine_keeps {s : State} (hs : s.Canon) : Res.Keeps (execLendLine s) := onEvent_keeps
    (by grind [State.modHome_mem, State.touchL2_wf, State.l1Install_wf, State.dropOwn_mem])

theorem execLineRecall_keeps {s : State} (hs : s.Canon) : Res.Keeps (execLineRecall s) := onEvent_keeps
    (by grind [State.modHome_mem])

@[simp] theorem State.regionDone_mem (s : State) (region : Nat) : (s.regionDone region).mem = s.mem := by
  grind [State.regionDone, State.devError_mem, State.count_mem]

theorem execLineReturn_keeps {s : State} (hs : s.Canon) : Res.Keeps (execLineReturn s) := onEvent_keeps
    (by grind [State.returnLine_mem, State.regionDone_mem])

theorem execScratchpadRefill_keeps {s : State} (hs : s.Canon) : Res.Keeps (execScratchpadRefill s) := onEvent_keeps
    (by grind [State.refill_wf])

@[simp] theorem State.otherDie_mem (s : State) (key : Nat) : (s.otherDie key).mem = s.mem := rfl

theorem execRemoteRead_keeps {s : State} (hs : s.Canon) : Res.Keeps (execRemoteRead s) := onEvent_keeps
    (by grind [State.touchL2_wf, State.takeRemote_mem, State.otherDie_mem])

theorem execInvalidation_keeps {s : State} (hs : s.Canon) : Res.Keeps (execInvalidation s) := onEvent_keeps
    (by grind [State.killViews_mem, State.takeBack_mem, foldl_canon])

@[simp] theorem State.clearSharer_mem (s : State) (d key : Nat) : (s.clearSharer d key).mem = s.mem := by
  grind [State.clearSharer]

theorem execInvalidationAck_keeps {s : State} (hs : s.Canon) : Res.Keeps (execInvalidationAck s) := onEvent_keeps
    (by grind [State.regionDone_mem, State.clearSharer_mem])

@[simp] theorem State.dropHomed_mem (s : State) (d e : Nat) : (s.dropHomed d e).mem = s.mem := by
  grind [State.dropHomed, foldl_mem, State.l1Drop_mem, State.dropRemote_mem]

@[simp] theorem State.cutProjs_mem (s : State) : s.cutProjs.mem = s.mem := by
  grind [State.cutProjs, State.dropProjs_mem]

@[simp] theorem State.killLink_mem (s : State) (d e : Nat) : (s.killLink d e).mem = s.mem := by
  grind [State.killLink, State.logE_mem, State.dropHomed_mem, State.cutProjs_mem]

theorem execLinkDeath_keeps {s : State} (hs : s.Canon) : Res.Keeps (execLinkDeath s) := onEvent_keeps
    (by grind [State.killLink_mem])

theorem execSharerAckTimeout_keeps {s : State} (hs : s.Canon) : Res.Keeps (execSharerAckTimeout s) := onEvent_keeps
    (by grind [State.devError_mem, State.regionDone_mem, State.clearSharer_mem, State.cutProjs_mem])

@[simp] theorem State.directoryError_mem (s : State) (region : Nat) : (s.directoryError region).mem = s.mem := by
  unfold State.directoryError; exact foldl_mem _ (fun s p => by grind [State.sendInvals_mem]) _ _

theorem execDirectoryEccError_keeps {s : State} (hs : s.Canon) : Res.Keeps (execDirectoryEccError s) := onEvent_keeps
    (by grind [State.directoryError_mem])

@[simp] theorem State.evictFilter_mem (s : State) (d region : Nat) : (s.evictFilter d region).mem = s.mem := by
  unfold State.evictFilter; exact foldl_mem _ (fun s p => by grind [State.dropRemote_mem]) _ _

@[simp] theorem State.modPort_mem (s : State) (p : Nat) (f : Port → Port) : (s.modPort p f).mem = s.mem := rfl

theorem execFlitCrcFail_keeps {s : State} (hs : s.Canon) : Res.Keeps (execFlitCrcFail s) := onEvent_keeps
    (by grind [State.killLink_mem, State.modPort_mem])

theorem State.loseL1_wf {s : State} (hs : s.Canon) (h line part : Nat) : (s.loseL1 h line part).Canon := by
  grind [State.loseL1, poke_wf, State.modG_mem]

theorem State.hbmError_wf {s : State} (hs : s.Canon) (pa : Nat) (lost : Bool) : (s.hbmError pa lost).Canon := by
  grind [State.hbmError, poke_wf, State.touchL2_wf, State.touchBacking_wf]

theorem State.lose_wf {s : State} (hs : s.Canon) (structure_ b c : Nat) : (s.lose structure_ b c).Canon := by
  grind [State.lose.eq_def, poke_wf, State.modG_mem, State.irq_mem, State.loseCopy_mem, State.modWg_mem,
      State.directoryError_mem, State.evictFilter_mem, State.loseL1_wf, State.hbmError_wf]

theorem execSoftError_keeps {s : State} (hs : s.Canon) : Res.Keeps (execSoftError s) := onEvent_keeps (by grind [State.logE_mem,
    State.count_mem, State.hbmError_wf, State.lose_wf])

theorem execL2Eviction_keeps {s : State} (hs : s.Canon) : Res.Keeps (execL2Eviction s) := onEvent_keeps
    (by grind [State.lineOut_mem, State.l2Drop_mem])

/-! ### Fabric -/

theorem execBoot_keeps {s : State} (hs : s.Canon) : Res.Keeps (execBoot s) := onEvent_keeps (by grind [])

theorem execCoolantConfirm_keeps {s : State} (hs : s.Canon) : Res.Keeps (execCoolantConfirm s) := onEvent_keeps (by grind [])

theorem execThermalStop_keeps {s : State} (hs : s.Canon) : Res.Keeps (execThermalStop s) := onEvent_keeps
    (by grind [State.devError_mem])

theorem execHostLinkTraining_keeps {s : State} (hs : s.Canon) : Res.Keeps (execHostLinkTraining s) := onEvent_keeps (by grind [])

theorem execPortUp_keeps {s : State} (hs : s.Canon) : Res.Keeps (execPortUp s) := onEvent_keeps (by grind [State.modPort_mem])

theorem execTimeAlign_keeps {s : State} (hs : s.Canon) : Res.Keeps (execTimeAlign s) := onEvent_keeps
    (by grind [State.modPort_mem])

theorem execTraceRecord_keeps {s : State} (hs : s.Canon) : Res.Keeps (execTraceRecord s) := onEvent_keeps
    (by grind [State.storeOwn_wf])

theorem execRecordedHeadWrite_keeps {s : State} (hs : s.Canon) : Res.Keeps (execRecordedHeadWrite s) := onEvent_keeps
    (by grind [State.traceDatum_mem])

theorem State.outsideWrite_wf {s : State} (hs : s.Canon) (src : Option Nat) (pa : Nat) (kind : PKind) :
    (s.outsideWrite src pa kind).Canon := by
  grind [State.outsideWrite, State.devError_mem, State.newId_mem, State.arrive_wf]

@[simp] theorem State.outsideRead_mem (s : State) (pa : Nat) : (s.outsideRead pa).mem = s.mem := rfl

theorem State.outsideStore_wf {s : State} (hs : s.Canon) (src : Option Nat) (pa : Nat) (data : List Byte) :
    (s.outsideStore src pa data).Canon := by
  grind [State.outsideStore, foldl_canon, State.traceDatum_mem, State.outsideWrite_wf]

@[simp] theorem State.bar2Store_mem (s : State) (off : Nat) (data : List Byte) : (s.bar2Store off data).mem = s.mem := by
  grind [State.bar2Store, State.traceDatum_mem]

theorem State.hostAtomicOp_wf {s : State} (hs : s.Canon) (a d : Nat) (data : List Byte) : (s.hostAtomicOp a d data).Canon := by
  grind [State.hostAtomicOp, State.outsideWrite_wf, State.bar2Store_mem]

theorem execHostMemoryRequest_keeps {s : State} (hs : s.Canon) : Res.Keeps (execHostMemoryRequest s) := onEvent_keeps
    (by grind [State.consumeRecords_mem, State.mismatch_mem, State.outsideRead_mem, State.outsideStore_wf, State.bar2Store_mem,
    State.hostAtomicOp_wf])

theorem execFabricRequest_keeps {s : State} (hs : s.Canon) : Res.Keeps (execFabricRequest s) := onEvent_keeps
    (by grind [State.carry_mem, State.outsideWrite_wf, State.outsideRead_mem, State.outsideStore_wf])

theorem execHostSnoop_keeps {s : State} (hs : s.Canon) : Res.Keeps (execHostSnoop s) := onEvent_keeps (by grind [])

theorem execSnoopAnswer_keeps {s : State} (hs : s.Canon) : Res.Keeps (execSnoopAnswer s) := onEvent_keeps (by grind [poke_wf,
    State.rereadSeal_wf])

@[simp] theorem State.timeoutRecord_mem (s : State) (owner : Nat × Nat) (va : W64) (wr at_ : Bool) (size : Nat) :
    (s.timeoutRecord owner va wr at_ size).mem = s.mem := by
  grind [State.timeoutRecord, State.coalesce_mem, State.modOwner_mem]

@[simp] theorem State.timeoutValue_mem (s : State) (p : Pend) : (s.timeoutValue p).mem = s.mem := by
  grind [State.timeoutValue, foldl_mem, State.stamp_mem, State.deliver_mem]

theorem State.maybePerform_wf {s : State} (hs : s.Canon) (p : Pend) : (s.maybePerform p).Canon := by
  grind [State.maybePerform, State.doAtomic_wf, State.perform_wf]

@[simp] theorem State.engineTimeout_mem (s : State) (p : Pend) : (s.engineTimeout p).mem = s.mem := by
  grind [State.engineTimeout, foldl_mem, State.stamp_mem, State.stopCopy_mem, State.stopWrite_mem, State.putUnit_mem,
      State.unitDone_mem, State.timeoutRecord_mem]

theorem execRemoteTimeout_keeps {s : State} (hs : s.Canon) : Res.Keeps (execRemoteTimeout s) := onEvent_keeps
    (by grind [State.devError_mem, State.sendOut_mem, State.timeoutRecord_mem, State.timeoutValue_mem, State.maybePerform_wf,
    State.engineTimeout_mem])

/-! ### Freeze -/

theorem State.shoot_wf {s : State} (hs : s.Canon) (ctx : Nat) (va : W64) (n : Nat) : (s.shoot ctx va n).Canon := by
  unfold State.shoot; exact foldl_canon (fun s p hs => by grind [State.writeBackAD_wf]) hs _

theorem State.setEnt_wf {s : State} (hs : s.Canon) (c : Ctx) (i : Nat) (e : FrzEnt) : (s.setEnt c i e).Canon := by
  grind [State.setEnt, State.pokeWord_wf]

theorem State.modEnt_wf {s : State} (hs : s.Canon) (ctx : Nat) (page : W64) (f : FrzEnt → FrzEnt) :
    (s.modEnt ctx page f).Canon := by
  grind [State.modEnt, State.setEnt_wf]

theorem State.newEnt_wf {s : State} (hs : s.Canon) (c : Ctx) (i : Nat) (page : W64) : (s.newEnt c i page).Canon := by
  grind [State.newEnt, State.pokeWord_wf]

theorem State.setPlace_wf {s : State} (hs : s.Canon) (c : Ctx) (i pgsz frame : Nat) : (s.setPlace c i pgsz frame).Canon := by
  grind [State.setPlace, State.pokeWord_wf]

theorem State.setFst_wf {s : State} (hs : s.Canon) (ctx : Nat) (page : W64) (fst : Nat) : (s.setFst ctx page fst).Canon := by
  grind [State.setFst, State.pokeWord_wf]

theorem State.whenQuiet_wf {s : State} (hs : s.Canon) (ctx : Nat) (page : W64) {f : State → State} (hf : (f s).Canon) :
    (s.whenQuiet ctx page f).Canon := by
  grind [State.whenQuiet, State.clearWay_mem]

@[simp] theorem State.setMark_mem (s : State) (ctx : Nat) (page : W64) (size gen : Nat) (f : Mark → Mark) :
    (s.setMark ctx page size gen f).mem = s.mem := by
  unfold State.setMark; split <;> rfl

@[simp] theorem State.clearMark_mem (s : State) (ctx : Nat) (page : W64) : (s.clearMark ctx page).mem = s.mem := rfl

theorem State.dropThawing_wf {s : State} (hs : s.Canon) (ctx : Nat) (page : W64) : (s.dropThawing ctx page).Canon := by
  unfold State.dropThawing; exact foldl_canon (fun s p hs => by grind [State.writeBackAD_wf]) hs _

@[simp] theorem State.pageDone_mem (s : State) (ctx : Nat) (page : W64) (pick : FrzOp → Nat → Bool) :
    (s.pageDone ctx page pick).mem = s.mem := rfl

@[simp] theorem State.startFreeze_mem (s : State) (ctx coord : Nat) (page : W64) (size gen : Nat) :
    (s.startFreeze ctx coord page size gen).mem = s.mem := rfl

@[simp] theorem State.startThaw_mem (s : State) (ctx coord : Nat) (page : W64) (size gen : Nat) :
    (s.startThaw ctx coord page size gen).mem = s.mem := rfl

@[simp] theorem State.modFrz_mem (s : State) (ctx : Nat) (page : W64) (f : FrzPage → FrzPage) :
    (s.modFrz ctx page f).mem = s.mem := rfl

@[simp] theorem State.endFrz_mem (s : State) (ctx : Nat) (page : W64) : (s.endFrz ctx page).mem = s.mem := rfl

theorem State.frzPageUp_wf {s : State} (hs : s.Canon) (ctx coord : Nat) (x : FrzArg) : (s.frzPageUp ctx coord x).1.Canon := by
  grind [State.frzPageUp, State.setEnt_wf, State.newEnt_wf, State.setPlace_wf, State.startFreeze_mem, State.modFrz_mem]

theorem State.thawPageDown_wf {s : State} (hs : s.Canon) (ctx coord : Nat) (x : FrzArg) :
    (s.thawPageDown ctx coord x).1.Canon := by
  grind [State.thawPageDown, State.setEnt_wf, State.startThaw_mem, State.modFrz_mem]

theorem State.applyOp_wf {s : State} (hs : s.Canon) (ctx coord : Nat) (thaw : Bool) (seq : Nat) (l : List FrzArg) :
    (s.applyOp ctx coord thaw seq l).1.Canon := by
  induction l generalizing s with
  | nil => exact hs
  | cons x r ih => grind [State.applyOp, State.thawPageDown_wf, State.pokeWord_wf, State.frzPageUp_wf]

theorem State.issueOp_wf {s : State} (hs : s.Canon) (ctx coord : Nat) (thaw : Bool) (l : List FrzArg) :
    (s.issueOp ctx coord thaw l).1.Canon := by
  grind [State.issueOp, State.applyOp_wf]

theorem frzCmd_keeps {s : State} (sd sa sb : BitVec 6) (thaw : Bool) (hs : s.Canon) : Res.Keeps
    (frzCmd s sd sa sb thaw) := onStoker_keeps fun k g => by
  grind [State.waitS_mem, State.issueOp_wf, State.setG_mem, State.clearWay_mem, State.trapS_wf]

theorem execTkwt_keeps {s : State} (sa : BitVec 6) (hs : s.Canon) : Res.Keeps
    (execTkwt sa s) := onStoker_keeps fun k g => by grind [State.setG_mem, State.trapS_wf, State.waitS_mem]

theorem State.takeFst_wf {s : State} (hs : s.Canon) (ctx : Nat) (page : W64) (fst : Nat) : (s.takeFst ctx page fst).Canon := by
  grind [State.takeFst.eq_def, State.shoot_wf, State.setFst_wf, State.setMark_mem, State.clearMark_mem, State.dropThawing_wf]

theorem execFreezeRequest_keeps {s : State} (hs : s.Canon) : Res.Keeps (execFreezeRequest s) := onEvent_keeps
    (by grind [State.whenQuiet_wf, State.modFrz_mem, State.takeFst_wf])

@[simp] theorem State.startThawOf_mem (s : State) (p : FrzPage) (page : W64) (gen : Nat) :
    (s.startThawOf p page gen).mem = s.mem := rfl

theorem execFreezeComplete_keeps {s : State} (hs : s.Canon) : Res.Keeps (execFreezeComplete s) := onEvent_keeps
    (by grind [State.modEnt_wf, State.whenQuiet_wf, State.setMark_mem, State.pageDone_mem, State.endFrz_mem,
    State.startThawOf_mem])

theorem execFreezeShootdownTimeout_keeps {s : State} (hs : s.Canon) : Res.Keeps (execFreezeShootdownTimeout s) := onEvent_keeps
    (by grind [State.devError_mem, State.setMark_mem, State.modFrz_mem, foldl_canon])

@[simp] theorem State.dropCopies_mem (s : State) (d ctx : Nat) (page : W64) (size gen : Nat) :
    (s.dropCopies d ctx page size gen).mem = s.mem := by
  unfold State.dropCopies; exact foldl_mem _ (fun s p => by grind [State.l1Drop_mem]) _ _

theorem execDropReplicas_keeps {s : State} (hs : s.Canon) : Res.Keeps (execDropReplicas s) := onEvent_keeps
    (by grind [State.modFrz_mem, State.dropCopies_mem])

theorem State.thawDone_wf {s : State} (hs : s.Canon) (p : FrzPage) : (s.thawDone p).Canon := by
  grind [State.thawDone, State.modEnt_wf, State.setFst_wf, State.clearMark_mem, State.dropThawing_wf, State.pageDone_mem,
      State.startFreeze_mem, State.endFrz_mem]

theorem execDropReplicasAck_keeps {s : State} (hs : s.Canon) : Res.Keeps (execDropReplicasAck s) := onEvent_keeps
    (by grind [State.whenQuiet_wf, State.modFrz_mem, State.thawDone_wf])

theorem execThawTimeout_keeps {s : State} (hs : s.Canon) : Res.Keeps (execThawTimeout s) := onEvent_keeps
    (by grind [State.devError_mem, State.modEnt_wf, State.setFst_wf, State.whenQuiet_wf, State.setMark_mem,
    State.dropThawing_wf, State.pageDone_mem, State.endFrz_mem, foldl_canon])

theorem execReplicaFetch_keeps {s : State} (hs : s.Canon) : Res.Keeps (execReplicaFetch s) := onEvent_keeps
    (by grind [State.touchHome_wf, State.replicate_mem])

theorem State.codecEntry_wf {s : State} (hs : s.Canon) (k : Nat) (g : Group) (va : W64) (wr : Bool) :
    (s.codecEntry k g va wr).1.Canon := by
  grind [State.codecEntry, State.translate_wf]

theorem counterOp_keeps {s : State} (hs : s.Canon) (sa : BitVec 6) (wr : Bool) {f : State → Nat → Group → Nat → State}
    (hf : ∀ t k g n, t.Canon → (f t k g n).Canon) : Res.Keeps (counterOp s sa wr f) :=
  onStoker_keeps fun k g => by grind [State.waitS_mem, State.codecEntry_wf, State.trapS_wf]

theorem execCdctr_keeps {s : State} (sd sa : BitVec 6) (k : BitVec 3) (hs : s.Canon) : Res.Keeps (execCdctr sd sa k s) := by
  grind [execCdctr, onStoker_keeps, State.setG_mem, State.trapS_wf, counterOp_keeps]

/-! ### Launch -/

@[simp] theorem State.seat_mem (s : State) (gid : Nat) (g : Grid) (wg h : Nat) (i : Nat) (l : List Nat) :
    (s.seat gid g wg h i l).mem = s.mem := by
  induction l generalizing s i with
  | nil => rfl
  | cons x r ih => grind [State.seat, State.modWg_mem]

@[simp] theorem State.placeOn_mem (s : State) (gid : Nat) (g : Grid) (h : Nat) (pbs : List Nat) :
    (s.placeOn gid g h pbs).mem = s.mem := by
  grind [State.placeOn, State.newId_mem, State.l2Trim_mem, State.seat_mem]

theorem State.placeNext_mem {s t : State} (gid : Nat) (e : s.placeNext gid = some t) : t.mem = s.mem := by
  grind [State.placeNext, State.stamp_mem, State.placeOn_mem]

theorem State.placeAll_mem {s t : State} (gid : Nat) (fuel : Nat) (e : s.placeAll gid fuel = some t) : t.mem = s.mem := by
  induction fuel generalizing s with
  | zero => grind [State.placeAll]
  | succ n ih => grind [State.placeAll, State.placeNext_mem, Option.bind_eq_some_iff]

@[simp] theorem State.giveBack_mem (s : State) (q lo hi : Nat) : (s.giveBack q lo hi).mem = s.mem := rfl

@[simp] theorem State.cleanEdge_mem (s : State) (e : Edge) : (s.cleanEdge e).mem = s.mem := rfl

@[simp] theorem State.clean_mem (s : State) (gid : Nat) : (s.clean gid).mem = s.mem := by
  grind [State.clean, foldl_mem, State.cleanEdge_mem]

theorem State.placeGrid_mem {s t : State} (gid : Nat) (e : s.placeGrid gid = some t) : t.mem = s.mem := by
  grind [State.placeGrid, State.placeNext_mem, State.placeAll_mem, State.clean_mem]

theorem execWorkgroupPlacement_keeps {s : State} (hs : s.Canon) : Res.Keeps (execWorkgroupPlacement s) := onEvent_keeps (by
  cases e : s.placeGrid s.ev.a with
  | none => exact hs
  | some t => grind [State.placeGrid_mem])

theorem State.writeDone_wf {s : State} (hs : s.Canon) (q : Queue) : (s.writeDone q).Canon := by
  grind [State.writeDone, State.storeOwn_wf]

theorem State.finish_wf {s : State} (hs : s.Canon) (qn rec_ : Nat) : (s.finish qn rec_).Canon := by
  grind [State.finish, State.giveBack_mem, State.writeDone_wf]

theorem State.consume_wf {s : State} (hs : s.Canon) (qn : Nat) (addr : Nat) (b : List Byte) : (s.consume qn addr b).Canon := by
  dsimp only [State.consume]
  split
  · grind [State.newId_mem, State.trace_mem]
  · exact State.finish_wf (by grind [State.irq_mem, State.trace_mem]) _ _

theorem execLaunchRecord_keeps {s : State} (hs : s.Canon) : Res.Keeps (execLaunchRecord s) := onEvent_keeps
    (by grind [State.consumeRecords_mem, State.readLines_wf, State.holdSeal_wf, State.consume_wf])

@[simp] theorem State.beget_mem (s : State) (k : Nat) (g : Group) (child : Grid) : (s.beget k g child).mem = s.mem := by
  unfold State.beget; split <;> rfl

theorem execLaunch_keeps {s : State} (sa : BitVec 6) (hs : s.Canon) : Res.Keeps
    (execLaunch sa s) := onStoker_keeps fun k g => by grind [State.trapS_wf, State.waitS_mem, State.readRange_wf, State.beget_mem]

theorem execCwait_keeps {s : State} (hs : s.Canon) : Res.Keeps
    (execCwait s) := onStoker_keeps fun k g => by grind [State.setG_mem, State.trapS_wf, State.waitS_mem]

@[simp] theorem State.openBarrier_mem (s : State) (g : Group) (grid : Bool) : (s.openBarrier g grid).mem = s.mem := rfl

theorem barrier_keeps {s : State} (grid : Bool) (hs : s.Canon) : Res.Keeps (barrier s grid) := onStoker_keeps fun k g => by
  grind [State.waitS_mem, State.setG_mem, State.trapS_wf, State.openBarrier_mem]

@[simp] theorem State.endWg_mem (s : State) (n : Nat) : (s.endWg n).mem = s.mem := by
  grind [State.endWg]

@[simp] theorem State.lastClock_mem (s : State) (ctx : Nat) : (s.lastClock ctx).mem = s.mem := rfl

theorem State.retire_wf {s : State} (hs : s.Canon) (k : Nat) (g : Group) : (s.retire k g).Canon := by
  grind [State.retire, State.returnFrames_wf, State.forgetGroup_mem, State.l1Drop_mem, State.modWg_mem, State.teamFaults_wf,
      State.openBarrier_mem, State.endWg_mem, State.lastClock_mem]

theorem execExit_keeps {s : State} (hs : s.Canon) : Res.Keeps
    (execExit s) := onStoker_keeps fun k g => by grind [State.trapS_wf, State.waitS_mem, State.retire_wf]

theorem execGridRetire_keeps {s : State} (hs : s.Canon) : Res.Keeps (execGridRetire s) := onEvent_keeps
    (by grind [State.irq_mem, State.harvest_wf, State.finish_wf])

/-! ### Save -/

@[simp] theorem State.returnLent_mem (s : State) (h : Nat) : (s.returnLent h).mem = s.mem := by
  unfold State.returnLent; exact foldl_mem _ (fun s p => by grind [State.returnLine_mem]) _ _

@[simp] theorem State.closeRecs_mem (s : State) (h ctx : Nat) : (s.closeRecs h ctx).mem = s.mem := rfl

@[simp] theorem State.abandonProjs_mem (s : State) (h ctx : Nat) : (s.abandonProjs h ctx).mem = s.mem := by
  grind [State.abandonProjs, State.dropProjs_mem]

theorem State.flushPriv_wf {s : State} (hs : s.Canon) (k : Nat) (g : Group) : (s.flushPriv k g).Canon := by
  unfold State.flushPriv; exact foldl_canon (fun s p hs => by grind [State.l1Drop_mem, State.l1Evicted_wf]) hs _

@[simp] theorem State.unlost_mem (s : State) (n : Nat × Nat) : (s.unlost n).mem = s.mem := rfl

theorem State.saveGroup_wf {s : State} (hs : s.Canon) (k : Nat) (g : Group) : (s.saveGroup k g).Canon := by
  grind [State.saveGroup, State.setG_mem, State.modG_mem, State.forgetGroup_mem, State.withdraw_mem, State.returnLent_mem,
      State.closeRecs_mem, State.abandonProjs_mem, State.flushPriv_wf, State.unlost_mem]

@[simp] theorem State.retain_mem (s : State) (pa : Nat) : (s.retain pa).mem = s.mem := rfl

theorem State.backUpPage_wf {s : State} (hs : s.Canon) (w : Wg) (page : Nat) (x : SpPage) : (s.backUpPage w page x).Canon := by
  grind [State.backUpPage, foldl_canon, poke_wf, State.touchL2_wf, State.retain_mem]

theorem State.backUp_wf {s : State} (hs : s.Canon) (w : Wg) : (s.backUp w).Canon := by
  unfold State.backUp; exact foldl_canon (fun s p hs => by grind [State.backUpPage_wf]) hs _

@[simp] theorem State.damperDone_mem (s : State) (ctx : Nat) : (s.damperDone ctx).mem = s.mem := by
  grind [State.damperDone, State.cmdEnd_mem]

theorem State.moveOut_wf {s : State} (hs : s.Canon) (h ctx : Nat) : (s.moveOut h ctx).Canon := by
  unfold State.moveOut; exact foldl_canon (fun s p hs => by grind [State.pokeRaw_wf, State.stamp_mem]) hs _

theorem State.saveWg_wf {s : State} (hs : s.Canon) (n : Nat) : (s.saveWg n).Canon := by
  grind [State.saveWg, State.backUp_wf, State.moveOut_wf]

theorem State.settle_wf {s : State} (hs : s.Canon) (wg ctx : Nat) : (s.settle wg ctx).Canon := by
  grind [State.settle, State.damperDone_mem, State.saveWg_wf]

theorem execYield_keeps {s : State} (hs : s.Canon) : Res.Keeps
    (execYield s) := onStoker_keeps fun k g => by grind [State.setG_mem, State.trapS_wf, State.waitS_mem, State.lastClock_mem,
    State.saveGroup_wf, State.settle_wf]

theorem execForcedSave_keeps {s : State} (hs : s.Canon) : Res.Keeps (execForcedSave s) := onEvent_keeps
    (by grind [State.saveGroup_wf, State.settle_wf])

theorem State.viewMoves_mem (s : State) (h : Nat) (vs : List (Nat × VEnt)) : (s.viewMoves h vs).2.mem = s.mem :=
  List.foldlRecOn (motive := fun p : List
      (Nat × Nat × Nat × Nat) × State => p.2.mem = s.mem) _ _ rfl fun p hp a _ => by grind [State.fillEntry_mem]

theorem State.restoreOne_mem {s t : State} (v : Saved) (e : s.restoreOne v = some t) : t.mem = s.mem := by
  grind [State.restoreOne, foldl_mem, State.setG_mem, State.l2Trim_mem, State.returnLent_mem, State.viewMoves_mem]

theorem State.restoreAll_mem {s t : State} (v : Saved) (e : s.restoreAll v = some t) : t.mem = s.mem := by
  have key := List.foldlRecOn (motive := fun o : Option State => ∀ t, o = some t → t.mem = s.mem) (s.restoreSet v)
    (fun o x => o.bind fun s => s.restoreOne x) (b := some s) (by grind) fun o ho x _ => by
      grind [State.restoreOne_mem, Option.bind_eq_some_iff]
  exact key t e

@[simp] theorem State.registerOps_mem (s : State) (ctx : Nat) : (s.registerOps ctx).mem = s.mem := by
  unfold State.registerOps; exact foldl_mem _ (fun s p => by grind [State.addLocks_mem]) _ _

@[simp] theorem State.resumeAll_mem (s : State) (ctx : Nat) : (s.resumeAll ctx).mem = s.mem := by
  grind [State.resumeAll, State.cmdEnd_mem]

@[simp] theorem State.restoreOn_mem (s : State) (ctx : Nat) : (s.restoreOn ctx).mem = s.mem := by
  grind [State.restoreOn, State.registerOps_mem, State.resumeAll_mem]

theorem execRestoreWorkgroup_keeps {s : State} (hs : s.Canon) : Res.Keeps (execRestoreWorkgroup s) := onEvent_keeps
    (by grind [State.restoreAll_mem, State.restoreOn_mem])

theorem execGroupTimerTrap_keeps {s : State} (hs : s.Canon) : Res.Keeps (execGroupTimerTrap s) := onEvent_keeps
    (by grind [State.setG_mem])

theorem execDeadlineAlarm_keeps {s : State} (hs : s.Canon) : Res.Keeps (execDeadlineAlarm s) := onEvent_keeps (by grind [])

/-! ### Commands -/

@[simp] theorem State.traceWindow_mem (s : State) (off : Nat) (data : List Byte) : (s.traceWindow off data).mem = s.mem := by
  grind [State.traceWindow, State.traceDatum_mem]

theorem State.command_wf {s : State} (hs : s.Canon) (code : Nat) {f : State → State} (hf : ∀ t, t.Canon → (f t).Canon) :
    (s.command code f).Canon := by
  grind [State.command, State.traceWindow_mem, State.cmdRefuse_mem]

@[simp] theorem State.cmdOn_mem (s : State) (code subject : Nat) : (s.cmdOn code subject).mem = s.mem := rfl

theorem State.onCtx_wf {s : State} (hs : s.Canon) (n : Nat) {f : Ctx → State} (hf : ∀ c, (f c).Canon) : (s.onCtx n f).Canon := by
  grind [State.onCtx, State.cmdRefuse_mem]

@[simp] theorem State.shootdownEnd_mem (s : State) (code : Nat) : (s.shootdownEnd code).mem = s.mem := by
  grind [State.shootdownEnd, State.cmdDone_mem]

theorem cmdShootdown_wf {s : State} (hs : s.Canon) : (cmdShootdown s).Canon := by
  unfold cmdShootdown
  split
  · grind [State.shootdownEnd_mem]
  · exact State.command_wf hs _ fun _ ht => State.onCtx_wf ht _ fun _ => by grind [State.shoot_wf, State.cmdOn_mem,
      State.shootdownEnd_mem]

theorem cmdLiftFence_wf {s : State} (hs : s.Canon) :
    (cmdLiftFence s).Canon := State.command_wf hs _ fun t ht => by grind [State.cmdDone_mem, State.cmdRefuse_mem]

theorem cmdPoolAdd_wf {s : State} (hs : s.Canon) :
    (cmdPoolAdd s).Canon := State.command_wf hs _ fun t ht => by grind [State.cmdDone_mem, State.cmdRefuse_mem, State.setPool_mem]

@[simp] theorem State.modNamed_mem (s : State) (k : Nat) (f : Group → Group) : (s.modNamed k f).mem = s.mem := by
  unfold State.modNamed; split <;> rfl

theorem cmdResumeGroup_wf {s : State} (hs : s.Canon) :
    (cmdResumeGroup s).Canon := State.command_wf hs _ fun t ht => by grind [State.cmdDone_mem, State.cmdRefuse_mem,
    State.modNamed_mem]

@[simp] theorem State.clearGroup_mem (s : State) (k : Nat) : (s.clearGroup k).mem = s.mem := by
  grind [State.clearGroup, State.forgetGroup_mem, State.withdraw_mem, State.unlost_mem, State.modNamed_mem]

theorem State.retireSaved_wf {s : State} (hs : s.Canon) (v : Saved) (n : Nat × Nat) : (s.retireSaved v n).Canon := by
  grind [State.retireSaved, foldl_canon, State.returnFrames_wf]

theorem State.retireNamed_wf {s : State} (hs : s.Canon) (n : Nat × Nat) : (s.retireNamed n).Canon := by
  grind [State.retireNamed, State.retire_wf, State.retireSaved_wf]

theorem State.endGroupOn_wf {s : State} (hs : s.Canon) : s.endGroupOn.Canon := by
  grind [State.endGroupOn, State.cmdDone_mem, State.retireNamed_wf]

theorem cmdEndGroup_wf {s : State} (hs : s.Canon) : (cmdEndGroup s).Canon := by
  unfold cmdEndGroup
  split
  · exact State.endGroupOn_wf hs
  · exact State.command_wf hs _ fun t ht => by grind [State.cmdRefuse_mem, State.endGroupOn_wf, State.clearGroup_mem,
      State.cmdOn_mem]

@[simp] theorem State.liftRefusal_mem (s : State) (ctx va : Nat) : (s.liftRefusal ctx va).mem = s.mem := rfl

theorem State.repair_wf {s : State} (hs : s.Canon) (ctx : Nat) (c : Ctx) (i : Nat) (page : W64) (size : Nat) :
    (s.repair ctx c i page size).Canon := by
  grind [State.repair, State.shoot_wf, State.setEnt_wf, State.setFst_wf, State.setMark_mem, State.clearMark_mem]

theorem State.repairGo_wf {s : State} (hs : s.Canon) : s.repairGo.Canon := by
  grind [State.repairGo, State.cmdDone_mem, State.cmdRefuse_mem, State.whenQuiet_wf, State.cmdOn_mem, State.shootdownEnd_mem,
      State.liftRefusal_mem, State.repair_wf]

theorem cmdRepairFreeze_wf {s : State} (hs : s.Canon) : (cmdRepairFreeze s).Canon := by
  have := State.command_wf hs 5 fun t ht => State.repairGo_wf ht
  grind [cmdRepairFreeze, State.repairGo_wf, State.shootdownEnd_mem]

theorem State.startRecorded_wf {s : State} (hs : s.Canon) (replay : Bool) :
    (s.startRecorded replay).Canon := State.command_wf hs _ fun _ ht => State.onCtx_wf ht _ fun _ => by grind [State.cmdDone_mem,
    State.cmdRefuse_mem]

theorem cmdRecord_wf {s : State} (hs : s.Canon) : (cmdRecord s).Canon := by
  grind [cmdRecord, State.startRecorded_wf]

theorem cmdReplay_wf {s : State} (hs : s.Canon) : (cmdReplay s).Canon := by
  grind [cmdReplay, State.startRecorded_wf]

theorem cmdImageUpdate_wf {s : State} (hs : s.Canon) : (cmdImageUpdate s).Canon := State.command_wf hs _ fun _ ht => ht

theorem State.attestOn_wf {s : State} (hs : s.Canon) : s.attestOn.Canon := by
  grind [State.attestOn, State.storeOwn_wf, State.cmdDone_mem, State.readLines_wf, State.cmdOn_mem]

theorem cmdAttest_wf {s : State} (hs : s.Canon) : (cmdAttest s).Canon := by
  have := State.command_wf hs 9 fun t ht => State.attestOn_wf ht
  grind [cmdAttest, State.attestOn_wf]

theorem cmdRaiseDamper_wf {s : State} (hs : s.Canon) : (cmdRaiseDamper s).Canon := by
  unfold cmdRaiseDamper
  split
  · grind [State.damperDone_mem]
  · exact State.command_wf hs _ fun _ ht => State.onCtx_wf ht _ fun _ => by grind [State.damperDone_mem, State.cmdOn_mem]

theorem cmdRestoreContext_wf {s : State} (hs : s.Canon) : (cmdRestoreContext s).Canon := by
  unfold cmdRestoreContext
  split
  · grind [State.restoreOn_mem]
  · exact State.command_wf hs _ fun _ ht => State.onCtx_wf ht _ fun _ => by grind [State.restoreOn_mem, State.cmdOn_mem]

theorem cmdSetAlarm_wf {s : State} (hs : s.Canon) :
    (cmdSetAlarm s).Canon := State.command_wf hs _ fun _ ht => State.onCtx_wf ht _ fun _ => ht

theorem State.residentGo_wf {s : State} (hs : s.Canon) : s.residentGo.Canon := by
  grind [State.residentGo, State.cmdDone_mem, State.cmdRefuse_mem, State.readLines_wf, State.holdSeal_wf]

theorem cmdMakeResident_wf {s : State} (hs : s.Canon) : (cmdMakeResident s).Canon := by
  have := State.command_wf hs 0x0B fun t ht => State.residentGo_wf ht
  grind [cmdMakeResident, State.residentGo_wf]

theorem State.switchedOut_wf {s : State} (hs : s.Canon) (qn : Nat) : (s.switchedOut qn).Canon := by
  grind [State.switchedOut, State.cmdDone_mem, State.writeDone_wf]

theorem cmdSwitchOut_wf {s : State} (hs : s.Canon) : (cmdSwitchOut s).Canon := by
  unfold cmdSwitchOut
  split
  · grind [State.switchedOut_wf]
  · exact State.command_wf hs _ fun t ht => by grind [State.storeOwn_wf, State.cmdRefuse_mem, State.cmdOn_mem,
      State.switchedOut_wf]

theorem State.loadGo_wf {s : State} (hs : s.Canon) : s.loadGo.Canon := by
  grind [State.loadGo, State.cmdDone_mem, State.cmdRefuse_mem, State.readLines_wf]

theorem cmdLoadContext_wf {s : State} (hs : s.Canon) : (cmdLoadContext s).Canon := by
  have := State.command_wf hs 0x0E fun t ht => State.loadGo_wf ht
  grind [cmdLoadContext, State.loadGo_wf]

theorem State.beginEnd_wf {s : State} (hs : s.Canon) (n : Nat) (c : Ctx) : (s.beginEnd n c).Canon := by
  grind [State.beginEnd, foldl_canon, State.returnFrames_wf, State.clearGroup_mem]

theorem State.thawLast_wf {s : State} (hs : s.Canon) (n : Nat) (c : Ctx) (x : FrzArg) : (s.thawLast n c x).Canon := by
  grind [State.thawLast, State.setEnt_wf, State.thawPageDown_wf]

@[simp] theorem State.finishEnd_mem (s : State) (n : Nat) : (s.finishEnd n).mem = s.mem := by
  grind [State.finishEnd, State.cmdEnd_mem]

theorem State.endOn_wf {s : State} (hs : s.Canon) (n : Nat) : (s.endOn n).Canon := by
  grind [State.endOn, foldl_canon, State.clearWay_mem, State.harvest_wf, State.retireNamed_wf, State.thawLast_wf,
      State.finishEnd_mem]

theorem cmdEndContext_wf {s : State} (hs : s.Canon) : (cmdEndContext s).Canon := by
  unfold cmdEndContext
  split
  · grind [State.endOn_wf]
  · exact State.command_wf hs _ fun _ ht => State.onCtx_wf ht _ fun _ => by
      grind [State.cmdRefuse_mem, State.beginEnd_wf, State.cmdOn_mem, State.endOn_wf]

theorem execShootdown_keeps {s : State} (hs : s.Canon) : Res.Keeps (execShootdown s) := onEvent_keeps (by grind [cmdShootdown_wf])

theorem execResumeGroup_keeps {s : State} (hs : s.Canon) : Res.Keeps (execResumeGroup s) := onEvent_keeps
    (by grind [cmdResumeGroup_wf])

theorem execEndGroup_keeps {s : State} (hs : s.Canon) : Res.Keeps (execEndGroup s) := onEvent_keeps (by grind [cmdEndGroup_wf])

theorem execLiftFence_keeps {s : State} (hs : s.Canon) : Res.Keeps (execLiftFence s) := onEvent_keeps (by grind [cmdLiftFence_wf])

theorem execRepairFreeze_keeps {s : State} (hs : s.Canon) : Res.Keeps (execRepairFreeze s) := onEvent_keeps
    (by grind [cmdRepairFreeze_wf])

theorem execPoolAdd_keeps {s : State} (hs : s.Canon) : Res.Keeps (execPoolAdd s) := onEvent_keeps (by grind [cmdPoolAdd_wf])

theorem execRecordedModeRecord_keeps {s : State} (hs : s.Canon) : Res.Keeps (execRecordedModeRecord s) := onEvent_keeps
    (by grind [cmdRecord_wf])

theorem execRecordedModeReplay_keeps {s : State} (hs : s.Canon) : Res.Keeps (execRecordedModeReplay s) := onEvent_keeps
    (by grind [cmdReplay_wf])

theorem execImageUpdate_keeps {s : State} (hs : s.Canon) : Res.Keeps (execImageUpdate s) := onEvent_keeps
    (by grind [cmdImageUpdate_wf])

theorem execAttest_keeps {s : State} (hs : s.Canon) : Res.Keeps (execAttest s) := onEvent_keeps (by grind [cmdAttest_wf])

theorem execRaiseDamper_keeps {s : State} (hs : s.Canon) : Res.Keeps (execRaiseDamper s) := onEvent_keeps
    (by grind [cmdRaiseDamper_wf])

theorem execQueueMakeResident_keeps {s : State} (hs : s.Canon) : Res.Keeps (execQueueMakeResident s) := onEvent_keeps
    (by grind [cmdMakeResident_wf])

theorem execQueueSwitchOut_keeps {s : State} (hs : s.Canon) : Res.Keeps (execQueueSwitchOut s) := onEvent_keeps
    (by grind [cmdSwitchOut_wf])

theorem execRestoreContext_keeps {s : State} (hs : s.Canon) : Res.Keeps (execRestoreContext s) := onEvent_keeps
    (by grind [cmdRestoreContext_wf])

theorem execSetAlarm_keeps {s : State} (hs : s.Canon) : Res.Keeps (execSetAlarm s) := onEvent_keeps (by grind [cmdSetAlarm_wf])

theorem execLoadContext_keeps {s : State} (hs : s.Canon) : Res.Keeps (execLoadContext s) := onEvent_keeps
    (by grind [cmdLoadContext_wf])

theorem execEndContext_keeps {s : State} (hs : s.Canon) : Res.Keeps (execEndContext s) := onEvent_keeps
    (by grind [cmdEndContext_wf])

theorem execCommandBusyWrite_keeps {s : State} (hs : s.Canon) : Res.Keeps (execCommandBusyWrite s) := onEvent_keeps
    (by grind [State.traceWindow_mem])

theorem State.byCode_wf {s : State} (hs : s.Canon) (v : Nat) : (s.byCode v).Canon := by
  unfold State.byCode
  split <;>
    grind [cmdShootdown_wf, cmdResumeGroup_wf, cmdEndGroup_wf, cmdLiftFence_wf, cmdRepairFreeze_wf, cmdPoolAdd_wf, cmdReplay_wf,
      cmdRecord_wf, cmdImageUpdate_wf, cmdAttest_wf, cmdRaiseDamper_wf, cmdMakeResident_wf, cmdSwitchOut_wf, cmdRestoreContext_wf,
      cmdSetAlarm_wf, cmdLoadContext_wf, cmdEndContext_wf, State.command_wf, State.cmdRefuse_mem]

@[simp] theorem State.writeDie_mem (s : State) (d off : Nat) (v : W64) : (s.writeDie d off v).mem = s.mem := by
  grind [State.writeDie.eq_def]

theorem execFaultQueueHeadWrite_keeps {s : State} (hs : s.Canon) : Res.Keeps (execFaultQueueHeadWrite s) := onEvent_keeps
    (by grind [State.traceWindow_mem, State.writeDie_mem])

theorem State.writeRecHead_wf {s : State} (hs : s.Canon) (v : Nat) : (s.writeRecHead v).Canon := by
  unfold State.writeRecHead execRecordedHeadWrite onEvent
  grind [State.traceDatum_mem]

theorem State.writeWindow_wf {s : State} (hs : s.Canon) (off v : Nat) : (s.writeWindow off v).Canon := by
  grind [State.writeWindow, State.traceWindow_mem, State.byCode_wf, State.writeDie_mem, State.writeRecHead_wf]

theorem State.replayWindow_wf {s : State} (hs : s.Canon) (off : Nat) (data : List Byte) : (s.replayWindow off data).Canon := by
  grind [State.replayWindow, State.byCode_wf, State.writeWindow_wf]

theorem execStateWindowWrite_keeps {s : State} (hs : s.Canon) : Res.Keeps (execStateWindowWrite s) := onEvent_keeps
    (by grind [State.consumeRecords_mem, State.writeWindow_wf, State.replayWindow_wf])

theorem State.hostStore_wf {s : State} (hs : s.Canon) (off : Nat) (b : List Byte) : (s.hostStore off b).Canon := by
  unfold State.hostStore; exact foldl_canon (fun s p hs => by grind [poke_wf]) hs _

theorem execQueueSealWrite_keeps {s : State} (hs : s.Canon) : Res.Keeps (execQueueSealWrite s) := onEvent_keeps
    (by grind [State.bar2Store_mem, State.hostStore_wf])

/-! ### StokerAlu -/

theorem compare_keeps {s : State} (hs : s.Canon) (cn : BitVec 3) (a b : SReg) (cc : BitVec 3) (signed : Bool) (len k : Nat)
    (g : Group) : (compare s cn a b cc signed len k g).Canon := by
  grind [compare, State.setG_mem, State.trapS_wf]

theorem execCmp_keeps {s : State} (cn : BitVec 3) (sa sb : BitVec 6) (ty : BitVec 1) (cc : BitVec 3) (hs : s.Canon) : Res.Keeps
    (execCmp cn sa sb ty cc s) := onStoker_keeps fun k g => by grind [compare_keeps]

theorem execCmpI64Imm_keeps {s : State} (cc cn : BitVec 3) (sa : BitVec 6) (imm : BitVec 13) (hs : s.Canon) : Res.Keeps
    (execCmpI64Imm cc cn sa imm s) := onStoker_keeps fun k g => by grind [compare_keeps]

theorem execCmpN64Imm_keeps {s : State} (cc cn : BitVec 3) (sa : BitVec 6) (imm : BitVec 13) (hs : s.Canon) : Res.Keeps
    (execCmpN64Imm cc cn sa imm s) := onStoker_keeps fun k g => by grind [compare_keeps]

theorem execCsel_keeps {s : State} (sd sa sb : BitVec 6) (cn : BitVec 3) (hs : s.Canon) : Res.Keeps
    (execCsel sd sa sb cn s) := onStoker_keeps fun k g => by grind [State.setG_mem]

theorem execSrd_keeps {s : State} (sd : BitVec 6) (num : BitVec 7) (hs : s.Canon) : Res.Keeps
    (execSrd sd num s) := onStoker_keeps fun k g => by grind [State.setG_mem, State.trapS_wf, State.waitS_mem, State.timeRead_mem]

theorem execMset_keeps {s : State} (sa : BitVec 6) (hs : s.Canon) : Res.Keeps
    (execMset sa s) := onStoker_keeps fun k g => by grind [State.setG_mem, State.trapS_wf]

/-! ### Window -/

theorem execSwrd_keeps {s : State} (sd sa : BitVec 6) (hs : s.Canon) : Res.Keeps
    (execSwrd sd sa s) := onStoker_keeps fun k g => by grind [State.setG_mem, State.stamp_mem, State.trapS_wf]

theorem execSlit_keeps {s : State} (v : BitVec 64) (op : BitVec 7) (sd sa : BitVec 6) (hs : s.Canon) : Res.Keeps
    (execSlit v op sd sa s) := by
  grind [execSlit, onStoker_keeps, State.trapS_wf, aluI_keeps, loadS_keeps, storeS_keeps, compare_keeps]

/-! ### Again -/

theorem State.againLoad_wf {s : State} (hs : s.Canon) (k : Nat) (g : Group) (n : Nat) (signed : Bool) (va pc : W64) (size : Nat)
    (acq : Bool) : (s.againLoad k g n signed va pc size acq).Canon := by
  grind [State.againLoad, State.setG_mem, takeTrap_wf, State.waitS_mem, State.chkScalar_wf, State.sendLost_mem,
      State.stokerRead_wf]

theorem State.againStoker_wf {s : State} (hs : s.Canon) (k : Nat) (g : Group) (r : Redo) : (s.againStoker k g r).Canon := by
  grind [State.againStoker.eq_def, VSet.run_wf, State.againLoad_wf]

theorem State.againGlobal_wf {s : State} (hs : s.Canon) (k : Nat) (g : Group) (o : Out) (first : Nat) (q : LoadReq) (a :
    Again) : (s.againGlobal k g o first q a).1.Canon := by
  grind [State.againGlobal, State.translate_wf, State.chkTlb_wf, State.stokerRead_wf]

theorem State.againPart_wf {s : State} (hs : s.Canon) (k : Nat) (g : Group) (o : Out) (first : Nat) (q : LoadReq) (a : Again) :
    (s.againPart k g o first q a).1.Canon := by
  grind [State.againPart, foldl_canon, State.refill_wf, State.touchPrivs_wf, State.againGlobal_wf]

theorem State.againRows_wf {s : State} (hs : s.Canon) (k slot : Nat) (g : Group) (sp : Split) (o : Out) (a : Again) :
    (s.againRows k slot g sp o a).1.Canon := by
  grind [State.againRows, LdvEnv.rowTraps_wf]

theorem State.againLane_wf {s : State} (hs : s.Canon) (k slot : Nat) (g : Group) (sp : Split) (o : Out) :
    (s.againLane k slot g sp o).Canon := by
  have key := List.foldlRecOn (motive := fun x : State × Again => x.1.Canon) o.reqs
    (fun x q => x.1.againPart k g o s.nextId q x.2) (b := (s, {})) hs fun x hx q _ => State.againPart_wf hx _ _ _ _ _ _
  dsimp only [State.againLane]
  have hr : (if o.ldvs.isEmpty then List.foldl (fun x q => x.1.againPart k g o s.nextId q x.2) (s, {}) o.reqs else (List.foldl
      (fun x q => x.1.againPart k g o s.nextId q x.2) (s, {}) o.reqs).1.againRows k slot g sp o (List.foldl
      (fun x q => x.1.againPart k g o s.nextId q x.2) (s, {}) o.reqs).2).1.Canon := by
    grind [State.againRows_wf]
  split
  · grind [takeTrap_wf]
  · grind [State.waitL_mem, State.lookupRows_wf, State.takePort_mem, State.setG_mem, State.sendLoads_mem]

/-! ### LaneInt -/

theorem LEnv.compare_wf {e : LEnv} (hs : e.s.Canon) (rel : Nat → Nat → Bool) : (e.compare rel).Canon := by
  grind [LEnv.compare, LEnv.writeMask_mem, LEnv.guard_wf]

/-! ### LaneFloat -/

@[simp] theorem LEnv.approx_mem (e : LEnv) (op : Nat) : (e.approx op).mem = e.s.mem := by
  grind [LEnv.approx, LEnv.writeLong_mem]

/-! ### LaneConv -/

theorem execCvt_keeps {s : State} (f : LaneF) (hs : s.Canon) : Res.Keeps
    (execCvt f s) := laneRun_keeps hs f fun e he => by grind [LEnv.write_mem]

theorem execPack_keeps {s : State} (f : LaneF) (hs : s.Canon) : Res.Keeps
    (execPack f s) := laneRun_keeps hs f fun e he => by grind [LEnv.write_mem, LEnv.trapAll_wf]

theorem execQpack_keeps {s : State} (f : LaneF) (hs : s.Canon) : Res.Keeps
    (execQpack f s) := laneRun_keeps hs f fun e he => by grind [LEnv.write_mem]

theorem execUnpack_keeps {s : State} (f : LaneF) (hs : s.Canon) : Res.Keeps
    (execUnpack f s) := laneRun_keeps hs f fun e he => by grind [LEnv.write_mem]

/-! ### LaneCross -/

theorem LEnv.shuffle_wf {e : LEnv} (hs : e.s.Canon) (j : Nat → Nat → Option Nat) : (e.shuffle j).Canon := by
  grind [LEnv.shuffle, LEnv.writeLong_mem, LEnv.guard_wf]

@[simp] theorem LEnv.scan_mem (e : LEnv) (op : Nat → Nat → Nat) (excl : Bool) : (e.scan op excl).mem = e.s.mem := by
  grind [LEnv.scan, LEnv.writeLong_mem]

@[simp] theorem LEnv.red_mem (e : LEnv) (op : Nat → Nat → Nat) : (e.red op).mem = e.s.mem := by
  grind [LEnv.red, LEnv.writeLong_mem]

@[simp] theorem LEnv.vred_mem (e : LEnv) (op : Nat → Nat → Nat) : (e.vred op).mem = e.s.mem := by
  unfold LEnv.vred; split <;> rfl

theorem LEnv.vote_wf {e : LEnv} (hs : e.s.Canon) (holds : Bool) : (e.vote holds).Canon := by
  grind [LEnv.vote, LEnv.pend_mem, LEnv.guard_wf]

theorem execRfl_keeps {s : State} (f : LaneF) (hs : s.Canon) : Res.Keeps
    (execRfl f s) := laneRun_keeps hs f fun e he => by grind [LEnv.done_mem, LEnv.pend_mem]

/-! ### Run -/

@[simp] theorem State.unread_mem (t : State) (s : State) (k : Nat) : (t.unread s k).mem = t.mem := by
  grind [State.unread, State.undoTrace_mem]

theorem State.issuedBy_mem (s : State) (who : Nat × Nat) (f : State → State) : (s.issuedBy who f).mem = (f s).mem := rfl

@[simp] theorem State.holdReplay_mem (s : State) : s.holdReplay.mem = s.mem := by
  unfold State.holdReplay; split <;> rfl

theorem exec_keeps {s : State} (i : Instr) (hs : s.Canon) : Res.Keeps (exec i s) := by
  cases i with
  | add | sub | and | or | xor | andn | mul | mulhI64 | mulhN64 | divI64 | divN64 | remI64 | remN64 | minI64 | minN64
  | maxI64 | maxN64 => unfold exec; exact aluR_keeps _ _ _ _ hs
  | shl | shrN64 | shrI64 => unfold exec; exact shiftR_keeps _ _ _ _ hs
  | popc | clz | ctz | bswap | addImm | andImm | orImm | xorImm | shlImm | shrN64Imm | shrI64Imm | mulImm | minI64Imm
  | minN64Imm | maxI64Imm | maxN64Imm => unfold exec; exact aluI_keeps _ _ _ _ _ hs
  | cmp => unfold exec; exact execCmp_keeps _ _ _ _ _ hs
  | cmpI64Imm => unfold exec; exact execCmpI64Imm_keeps _ _ _ _ hs
  | cmpN64Imm => unfold exec; exact execCmpN64Imm_keeps _ _ _ _ hs
  | csel => unfold exec; exact execCsel_keeps _ _ _ _ hs
  | br => unfold exec; exact execBr_keeps _ hs
  | call => unfold exec; exact execCall_keeps _ hs
  | jr => unfold exec; exact execJr_keeps _ hs
  | bz | bnz => unfold exec; exact branchOn_keeps _ _ _ hs
  | bc | bnc => unfold exec; exact branchC_keeps _ _ _ hs
  | ldN8 | ldI8 | ldN16 | ldI16 | ldN32 | ldI32 | ldB64 | ldAcq => unfold exec; exact loadS_keeps _ _ _ _ _ _ _ hs
  | stB8 | stB16 | stB32 | stB64 | stRel => unfold exec; exact storeS_keeps _ _ _ _ _ _ hs
  | fence => unfold exec; exact execFence_keeps _ _ hs
  | aadd | aaddAr | aand | aandAr | aor | aorAr | axor | axorAr | aminI | aminIAr | aminN | aminNAr | amaxI | amaxIAr
  | amaxN | amaxNAr | axchg | axchgAr | acas | acasAr => unfold exec; exact atomicS_keeps _ _ _ _ _ _ _ hs
  | xlt => unfold exec; exact execXlt_keeps _ _ _ hs
  | xinv => unfold exec; exact execXinv_keeps _ hs
  | xrd => unfold exec; exact execXrd_keeps _ _ _ hs
  | lrun => unfold exec; exact execLrun_keeps _ hs
  | vset => unfold exec; exact execVset_keeps _ _ hs
  | vdrop => unfold exec; exact execVdrop_keeps _ hs
  | vqry => unfold exec; exact execVqry_keeps _ _ _ hs
  | mma => unfold exec; exact execMma_keeps _ hs
  | accz | accld => unfold exec; exact accCmd_keeps _ _ _ _ _ hs
  | accst => unfold exec; exact execAccst_keeps _ _ _ _ hs
  | cpy | cpy2d | cpyg => unfold exec; exact copyCmd_keeps _ _ _ hs
  | cpwait => unfold exec; exact execCpwait_keeps _ hs
  | cpstat => unfold exec; exact execCpstat_keeps _ _ hs
  | cpcont => unfold exec; exact execCpcont_keeps _ _ hs
  | srd => unfold exec; exact execSrd_keeps _ _ hs
  | mset => unfold exec; exact execMset_keeps _ hs
  | launch => unfold exec; exact execLaunch_keeps _ hs
  | frz | thaw => unfold exec; exact frzCmd_keeps _ _ _ _ hs
  | tkwt => unfold exec; exact execTkwt_keeps _ hs
  | cdctr => unfold exec; exact execCdctr_keeps _ _ _ hs
  | cdclr => unfold exec; exact counterOp_keeps hs _ _ fun t k g n ht => by exact (State.pokeRaw_wf ht _ _).of_mem (State.setG_mem _ _ _)
  | trap => unfold exec; exact execTrap_keeps _ hs
  | ptake => unfold exec; exact execPtake_keeps _ hs
  | pmap => unfold exec; exact execPmap_keeps _ _ hs
  | swrd => unfold exec; exact execSwrd_keeps _ _ hs
  | slit => unfold exec; exact execSlit_keeps _ _ _ _ hs
  | laneAdd | laneSub | laneMul | laneMulh | laneMad | laneMin | laneMax | laneAbs | laneNeg | laneAnd | laneOr | laneXor
  | laneNot | laneShl | laneShr | lanePopc | laneClz | laneBfe | laneBfi | laneSel | laneMov | laneBswap | laneBrev
  | laneAddF32 | laneSubF32 | laneMulF32 | laneFmaF32 | laneMinF32 | laneMaxF32 | laneAbsF32 | laneNegF32 | laneRintF32
  | laneCopysignF32 | laneAddPacked | laneSubPacked | laneMulPacked | laneFmaPacked | laneMinPacked | laneMaxPacked
  | laneAbsPacked | laneNegPacked | laneRintPacked | laneCopysignPacked | laneAddF64 | laneSubF64 | laneMulF64 | laneFmaF64
  | laneMinF64 | laneMaxF64 | laneAbsF64 | laneNegF64 | laneRintF64 | laneCopysignF64 | dp8x4 | dp4x8 | dp16x2 | mtov =>
    unfold exec; exact laneRun_keeps hs _ fun e he => he.of_mem (e.write_mem _)
  | laneCmp | laneCmpF32 | laneCmpPacked | laneCmpF64 => unfold exec; exact laneRun_keeps hs _ fun e he => LEnv.compare_wf he _
  | laneDiv | laneRem | laneDivF64 | laneSqrtF64 | laneDivF32 =>
    unfold exec; exact laneRun_keeps hs _ fun e he => he.of_mem (e.writeLong_mem _)
  | cvt => unfold exec; exact execCvt_keeps _ hs
  | pack => unfold exec; exact execPack_keeps _ hs
  | qpack => unfold exec; exact execQpack_keeps _ hs
  | unpack => unfold exec; exact execUnpack_keeps _ hs
  | rcp | rsqrt | laneSqrt | exp2 | log2 | sin | cos | tanh => unfold exec; exact laneRun_keeps hs _ fun e he => he.of_mem (e.approx_mem _)
  | shflIdx | shflUp | shflDown | shflXor => unfold exec; exact laneRun_keeps hs _ fun e he => LEnv.shuffle_wf he _
  | scanAdd | scanMin | scanMax | xscanAdd => unfold exec; exact laneRun_keeps hs _ fun e he => he.of_mem (e.scan_mem _ _)
  | redAdd | redMin | redMax | redAnd | redOr => unfold exec; exact laneRun_keeps hs _ fun e he => he.of_mem (e.red_mem _)
  | vredAdd | vredMin | vredMax => unfold exec; exact laneRun_keeps hs _ fun e he => he.of_mem (e.vred_mem _)
  | vany | vall => unfold exec; exact laneRun_keeps hs _ fun e he => LEnv.vote_wf he _
  | rfl => unfold exec; exact execRfl_keeps _ hs
  | ldGlobal | ldB128Global | ldScratch | ldB128Scratch | ldPrivate | ldB128Private =>
    unfold exec; exact laneRun_keeps hs _ fun e he => LEnv.load_wf he _ _ _
  | stGlobal | stB128Global | stScratch | stB128Scratch | stPrivate | stB128Private =>
    unfold exec; exact laneRun_keeps hs _ fun e he => LEnv.store_wf he _ _
  | laneAadd | laneAmin | laneAmax | laneAand | laneAor | laneAxor | laneAxchg | laneAcas | amaxabs =>
    unfold exec; exact laneRun_keeps hs _ fun e he => LEnv.atomic_wf he _
  | ldv => unfold exec; exact execLdv_keeps _ hs
  | bra => unfold exec; exact execBra_keeps _ hs
  | join => unfold exec; exact execJoin_keeps _ hs
  | lpause => unfold exec; exact execLpause_keeps _ hs
  | lstop => unfold exec; exact execLstop_keeps _ hs
  | mand | mor | mxor | mandn => unfold exec; exact maskOp_keeps _ _ hs
  | vtom => unfold exec; exact execVtom_keeps _ hs
  | exit => unfold exec; exact execExit_keeps hs
  | lwait => unfold exec; exact execLwait_keeps hs
  | lkill => unfold exec; exact execLkill_keeps hs
  | wgbar | gbar => unfold exec; exact barrier_keeps _ hs
  | spause => unfold exec; exact execSpause_keeps hs
  | yield => unfold exec; exact execYield_keeps hs
  | cwait => unfold exec; exact execCwait_keeps hs
  | tret => unfold exec; exact execTret_keeps hs
  | aharv => unfold exec; exact execAharv_keeps hs
  | longLatencyResult => unfold exec; exact execLongLatencyResult_keeps hs
  | escalation => unfold exec; exact execEscalation_keeps hs
  | stokerEscalation => unfold exec; exact execStokerEscalation_keeps hs
  | demotionEnd => unfold exec; exact execDemotionEnd_keeps hs
  | splitRotation => unfold exec; exact execSplitRotation_keeps hs
  | trapTake => unfold exec; exact execTrapTake_keeps hs
  | coalescerDelivery => unfold exec; exact execCoalescerDelivery_keeps hs
  | faultQueueWrite => unfold exec; exact execFaultQueueWrite_keeps hs
  | pageWalk => unfold exec; exact execPageWalk_keeps hs
  | adWriteback => unfold exec; exact execAdWriteback_keeps hs
  | homeReadRequest => unfold exec; exact execHomeReadRequest_keeps hs
  | homeWriteArrival => unfold exec; exact execHomeWriteArrival_keeps hs
  | writePerformed => unfold exec; exact execWritePerformed_keeps hs
  | leaseExpiry => unfold exec; exact execLeaseExpiry_keeps hs
  | homeAtomic => unfold exec; exact execHomeAtomic_keeps hs
  | lendLine => unfold exec; exact execLendLine_keeps hs
  | lineRecall => unfold exec; exact execLineRecall_keeps hs
  | lineReturn => unfold exec; exact execLineReturn_keeps hs
  | projectionComplete => unfold exec; exact execProjectionComplete_keeps hs
  | viewMatrixCopyDone => unfold exec; exact execViewMatrixCopyDone_keeps hs
  | scratchpadRefill => unfold exec; exact execScratchpadRefill_keeps hs
  | remoteRead => unfold exec; exact execRemoteRead_keeps hs
  | invalidation => unfold exec; exact execInvalidation_keeps hs
  | invalidationAck => unfold exec; exact execInvalidationAck_keeps hs
  | linkDeath => unfold exec; exact execLinkDeath_keeps hs
  | sharerAckTimeout => unfold exec; exact execSharerAckTimeout_keeps hs
  | flitCrcFail => unfold exec; exact execFlitCrcFail_keeps hs
  | directoryEccError => unfold exec; exact execDirectoryEccError_keeps hs
  | softError => unfold exec; exact execSoftError_keeps hs
  | l2Eviction => unfold exec; exact execL2Eviction_keeps hs
  | hostSnoop => unfold exec; exact execHostSnoop_keeps hs
  | snoopAnswer => unfold exec; exact execSnoopAnswer_keeps hs
  | hostMemoryRequest => unfold exec; exact execHostMemoryRequest_keeps hs
  | fabricRequest => unfold exec; exact execFabricRequest_keeps hs
  | remoteTimeout => unfold exec; exact execRemoteTimeout_keeps hs
  | timeAlign => unfold exec; exact execTimeAlign_keeps hs
  | freezeRequest => unfold exec; exact execFreezeRequest_keeps hs
  | freezeComplete => unfold exec; exact execFreezeComplete_keeps hs
  | dropReplicas => unfold exec; exact execDropReplicas_keeps hs
  | dropReplicasAck => unfold exec; exact execDropReplicasAck_keeps hs
  | thawTimeout => unfold exec; exact execThawTimeout_keeps hs
  | freezeShootdownTimeout => unfold exec; exact execFreezeShootdownTimeout_keeps hs
  | replicaFetch => unfold exec; exact execReplicaFetch_keeps hs
  | copyUnit => unfold exec; exact execCopyUnit_keeps hs
  | mmaKstep => unfold exec; exact execMmaKstep_keeps hs
  | accUnit => unfold exec; exact execAccUnit_keeps hs
  | launchRecord => unfold exec; exact execLaunchRecord_keeps hs
  | queueSealWrite => unfold exec; exact execQueueSealWrite_keeps hs
  | workgroupPlacement => unfold exec; exact execWorkgroupPlacement_keeps hs
  | gridRetire => unfold exec; exact execGridRetire_keeps hs
  | forcedSave => unfold exec; exact execForcedSave_keeps hs
  | restoreWorkgroup => unfold exec; exact execRestoreWorkgroup_keeps hs
  | groupTimerTrap => unfold exec; exact execGroupTimerTrap_keeps hs
  | deadlineAlarm => unfold exec; exact execDeadlineAlarm_keeps hs
  | shootdown => unfold exec; exact execShootdown_keeps hs
  | resumeGroup => unfold exec; exact execResumeGroup_keeps hs
  | endGroup => unfold exec; exact execEndGroup_keeps hs
  | liftFence => unfold exec; exact execLiftFence_keeps hs
  | repairFreeze => unfold exec; exact execRepairFreeze_keeps hs
  | poolAdd => unfold exec; exact execPoolAdd_keeps hs
  | recordedModeRecord => unfold exec; exact execRecordedModeRecord_keeps hs
  | recordedModeReplay => unfold exec; exact execRecordedModeReplay_keeps hs
  | traceRecord => unfold exec; exact execTraceRecord_keeps hs
  | imageUpdate => unfold exec; exact execImageUpdate_keeps hs
  | attest => unfold exec; exact execAttest_keeps hs
  | raiseDamper => unfold exec; exact execRaiseDamper_keeps hs
  | queueMakeResident => unfold exec; exact execQueueMakeResident_keeps hs
  | queueSwitchOut => unfold exec; exact execQueueSwitchOut_keeps hs
  | restoreContext => unfold exec; exact execRestoreContext_keeps hs
  | setAlarm => unfold exec; exact execSetAlarm_keeps hs
  | loadContext => unfold exec; exact execLoadContext_keeps hs
  | endContext => unfold exec; exact execEndContext_keeps hs
  | commandBusyWrite => unfold exec; exact execCommandBusyWrite_keeps hs
  | recordedHeadWrite => unfold exec; exact execRecordedHeadWrite_keeps hs
  | faultQueueHeadWrite => unfold exec; exact execFaultQueueHeadWrite_keeps hs
  | stateWindowWrite => unfold exec; exact execStateWindowWrite_keeps hs
  | boot => unfold exec; exact execBoot_keeps hs
  | coolantConfirm => unfold exec; exact execCoolantConfirm_keeps hs
  | thermalStop => unfold exec; exact execThermalStop_keeps hs
  | stokerIllegalInstruction => unfold exec; exact execStokerIllegalInstruction_keeps hs
  | laneIllegalInstruction => unfold exec; exact execLaneIllegalInstruction_keeps hs
  | fetchPageFault => unfold exec; exact execFetchPageFault_keeps hs
  | portUp => unfold exec; exact execPortUp_keeps hs
  | hostLinkTraining => unfold exec; exact execHostLinkTraining_keeps hs

theorem runFetched_keeps {s : State} (f : Fetched) (illegal : Instr) (hs : s.Canon) : Res.Keeps (runFetched s f illegal) := by
  unfold runFetched
  split
  · exact exec_keeps _ hs
  · exact exec_keeps _ hs
  · exact exec_keeps _ hs
  · rintro _ ⟨⟩; grind [State.waitS_mem, State.waitL_mem]

theorem issueStoker_keeps {s : State} (pos k : Nat) (g : Group) (hs : s.Canon) : Res.Keeps (issueStoker s pos k g) := by
  unfold issueStoker
  extract_lets t after
  have ht : t.Canon := hs
  have hafter : ∀ i u, u.Canon → (after i u).Canon := fun i u hu => by
    simp only [after]; grind [State.timeStoker_mem, State.issuedStoker_mem, State.unread_mem, State.issuedBy_mem]
  split
  · rintro _ ⟨⟩; exact hafter none _ (State.againStoker_wf ht _ _ _)
  · have hf := State.fetchStoker_wf ht k g
    split
    · exact Res.after_keeps (exec_keeps _ (by grind)) (hafter (some _))
    · exact Res.after_keeps (runFetched_keeps _ _ (by grind)) (hafter none)

theorem issueLane_keeps {s : State} (pos k slot : Nat) (g : Group) (sp : Split) (hs : s.Canon) :
    Res.Keeps (issueLane s pos k slot g sp) := by
  unfold issueLane
  extract_lets t after
  have ht : t.Canon := hs
  have hafter : ∀ (time : State → State) clocks, (∀ u, (time u).mem = u.mem) → ∀ u, u.Canon → (after time clocks u).Canon :=
    fun time clocks htime u hu => by
      simp only [after]; grind [State.issuedLane_mem, State.unread_mem, State.issuedBy_mem]
  split
  · rintro _ ⟨⟩; exact hafter _ _ (fun _ => rfl) _ (State.againLane_wf ht _ _ _ _ _)
  · have hf := State.fetchLane_wf ht k g sp
    split
    · split
      · rintro _ ⟨⟩; exact hafter _ _ (fun _ => rfl) _ (State.trapL_wf (by grind) _ _ _ _ _ _)
      · exact Res.after_keeps (exec_keeps _ (by grind)) (hafter _ _ fun u => by grind [State.timeLane_mem])
    · exact Res.after_keeps (runFetched_keeps _ _ (by grind)) (hafter _ _ fun _ => rfl)

theorem issue_keeps {s : State} (pos : Nat) (st : Stream) (hs : s.Canon) : Res.Keeps (issue s pos st) := by
  unfold issue
  repeat' split
  · exact issueStoker_keeps _ _ _ hs
  · rintro _ ⟨⟩
  · exact issueLane_keeps _ _ _ _ _ hs
  · rintro _ ⟨⟩
  · rintro _ ⟨⟩

theorem State.retryStoker_wf {s : State} (hs : s.Canon) (k : Nat) : (s.retryStoker k).Canon := by
  have hi := fun g g' => issueStoker_keeps (s := s.setG k g) 0 k g' hs
  grind [State.retryStoker, Res.Keeps, State.setG_mem]

theorem State.retryLane_wf {s : State} (hs : s.Canon) (k slot : Nat) : (s.retryLane k slot).Canon := by
  have hi := fun g g' sp => issueLane_keeps (s := s.setG k g) 0 k slot g' sp hs
  grind [State.retryLane, Res.Keeps, State.setG_mem]

theorem State.tick_wf {s : State} (hs : s.Canon) : s.tick.Canon :=
  foldl_canon (fun _ _ ht => State.retryLane_wf (State.retryLane_wf (State.retryStoker_wf ht _) _ _) _ _)
    (by grind [State.clock_mem, State.holdReplay_mem]) _

/-- A due event, if there is one, is executed in a state with the same memory. -/
def State.AsksHere (s : State) (o : Option DueEv) : Prop := ∀ d, o = some d → d.s.mem = s.mem

namespace State.AsksHere

theorem orElse {s : State} {a : Option DueEv} {b : Unit → Option DueEv} (ha : s.AsksHere a) (hb : s.AsksHere (b ())) :
    s.AsksHere (a.orElse b) := by
  cases a with
  | none => exact hb
  | some x => exact ha

theorem map {s : State} {α : Type} (o : Option α) {f : α → DueEv} (hf : ∀ x, (f x).s = s) : s.AsksHere (o.map f) := by
  cases o with
  | none => rintro _ ⟨⟩
  | some x => rintro _ ⟨⟩; rw [hf]

theorem ite {s : State} {c : Prop} [Decidable c] {a b : Option DueEv} (ha : s.AsksHere a) (hb : s.AsksHere b) :
    s.AsksHere (if c then a else b) := by split <;> assumption

theorem some {s : State} {d : DueEv} (h : d.s = s) : s.AsksHere (.some d) := by rintro _ ⟨⟩; rw [h]

theorem none {s : State} : s.AsksHere .none := by rintro _ ⟨⟩

end State.AsksHere

theorem State.dueOutside_here (s : State) : s.AsksHere s.dueOutside := by
  unfold State.AsksHere; grind [State.dueOutside]

theorem State.dueReplay_here (s : State) : s.AsksHere s.dueReplay := by
  unfold State.dueReplay
  split
  · exact .some (by split <;> rfl)
  · exact .ite (.some rfl) (.map _ fun _ => rfl)

theorem State.dueGroup_here (s : State) : s.AsksHere s.dueGroup := by
  unfold State.dueGroup
  iterate 7 refine .orElse (.map _ fun _ => rfl) ?_
  exact .map _ fun _ => rfl

theorem State.dueHome_here (s : State) : s.AsksHere s.dueHome := by
  unfold State.dueHome
  iterate 6 refine .orElse (.map _ fun _ => rfl) ?_
  exact .map _ fun _ => rfl

theorem State.dueCopies_here (s : State) : s.AsksHere s.dueCopies := by
  unfold State.dueCopies
  iterate 5 refine .orElse (.map _ fun _ => rfl) ?_
  exact .ite (.some rfl) .none

theorem State.dueEngine_here (s : State) : s.AsksHere s.dueEngine := by
  unfold State.dueEngine
  iterate 3 refine .orElse (.map _ fun _ => rfl) ?_
  exact .map _ fun _ => rfl

theorem State.duePage_here (s : State) (p : FrzPage) : s.AsksHere (s.duePage p) := by
  dsimp only [State.duePage]
  repeat' split
  all_goals (rintro _ ⟨⟩ <;> rfl)

theorem State.duePages_here (s : State) : s.AsksHere (s.frz.findSome? s.duePage) := by
  intro d e
  obtain ⟨p, -, hp⟩ := List.exists_of_findSome?_eq_some e
  exact s.duePage_here p d hp

theorem State.dueFault_here (s : State) : s.AsksHere s.dueFault := by
  unfold State.dueFault
  iterate 2 refine .orElse (.map _ fun _ => rfl) ?_
  exact .ite (.some rfl) .none

theorem State.dueDispatch_here (s : State) : s.AsksHere s.dueDispatch := by
  unfold State.dueDispatch
  iterate 5 refine .orElse (.map _ fun _ => rfl) ?_
  exact .map _ fun _ => rfl

theorem State.dueHost_here (s : State) : s.AsksHere s.dueHost := by
  unfold State.dueHost
  exact .orElse (.map _ fun _ => rfl) (.ite (.some rfl) .none)

theorem State.due_here (s : State) : s.AsksHere s.due := by
  unfold State.due
  refine .ite (.some rfl) (.ite .none ?_)
  exact .orElse s.dueOutside_here <| .orElse s.dueReplay_here <| .orElse s.dueGroup_here <| .orElse s.dueHome_here <|
    .orElse s.dueCopies_here <| .orElse s.dueEngine_here <| .orElse s.duePages_here <| .orElse s.dueFault_here <|
    .orElse s.dueDispatch_here s.dueHost_here

theorem step_keeps {s : State} (hs : s.Canon) : Res.Keeps (step s) := by
  unfold step
  split
  · next d hd => exact exec_keeps _ (hs.of_mem (s.due_here d hd))
  · split
    · exact issue_keeps _ _ hs
    · rintro _ ⟨⟩; exact State.tick_wf hs

/-- Settles O60, by the same claim of every instruction: an event, an issue and a tick of the clock each keep memory canonical. -/
theorem stepKeepsMemory : Obligations.StepKeepsMemory := fun _ t hs e => step_keeps hs t e

end Sys2Proof.Machine
end

section
/-! # No instruction is refused (O58)

Every arm of `exec` has one of four forms: it runs in the issuing stoker, in the issuing split, answers a next state at once (an event),
or is the page fault of a fetch, which runs in whichever stream is issuing. Each clause of the obligation follows from the form. -/

namespace Sys2Proof.Machine

/-- The form of an instruction's arm of `exec`, with what its encoding says about it: a stoker's instruction has words of a stoker, a
split's has a lane signature (or is a stream's illegal instruction), and an event is not the illegal instruction of a split. -/
inductive ExecForm (s : State) (i : Instr) : Prop
  | stoker (hl : laneSig i = none) (hw : encode i ≠ [] ∨ i = .stokerIllegalInstruction) (f : Nat → Group → State)
      (h : exec i s = onStoker s f)
  | lane (hl : (laneSig i).isSome ∨ i = .laneIllegalInstruction) (f : Nat → Nat → Group → Split → State) (h : exec i s = onLane s f)
  | event (t : State) (hw : i ≠ .laneIllegalInstruction) (h : exec i s = .next t)
  | fetch (hi : i = .fetchPageFault)

/-- Every instruction has one of the forms; the arms that choose between two computations have one form in either case. -/
theorem exec_form (s : State) (i : Instr) : ExecForm s i := by
  cases i with
  | add | sub | and | or | xor | andn | shl | shrN64 | shrI64 | mul | mulhI64 | mulhN64 | divI64 | divN64 | remI64 | remN64
  | minI64 | minN64 | maxI64 | maxN64 | popc | clz | ctz | bswap | addImm | andImm | orImm | xorImm | shlImm | shrN64Imm
  | shrI64Imm | mulImm | minI64Imm | minN64Imm | maxI64Imm | maxN64Imm | cmp | cmpI64Imm | cmpN64Imm | csel | br | call | jr
  | bz | bnz | bc | bnc | ldN8 | ldI8 | ldN16 | ldI16 | ldN32 | ldI32 | ldB64 | stB8 | stB16 | stB32 | stB64 | ldAcq | stRel
  | fence | aadd | aaddAr | aand | aandAr | aor | aorAr | axor | axorAr | aminI | aminIAr | aminN | aminNAr | amaxI
  | amaxIAr | amaxN | amaxNAr | axchg | axchgAr | acas | acasAr | xlt | xinv | xrd | lrun | vset | vdrop | vqry | mma | accz
  | accld | cpy | cpy2d | cpyg | cpwait | cpstat | cpcont | srd | mset | launch | frz | thaw | tkwt | cdclr | trap | ptake
  | pmap | swrd | exit | lwait | lkill | wgbar | gbar | spause | yield | cwait | tret | aharv =>
    exact .stoker rfl (.inl nofun) _ rfl
  | stokerIllegalInstruction => exact .stoker rfl (.inr rfl) _ rfl
  | laneAdd | laneSub | laneMul | laneMulh | laneMad | laneMin | laneMax | laneAbs | laneNeg | laneAnd | laneOr | laneXor
  | laneNot | laneShl | laneShr | lanePopc | laneClz | laneBfe | laneBfi | laneSel | laneMov | laneCmp | laneDiv | laneRem
  | laneBswap | laneBrev | laneAddF32 | laneSubF32 | laneMulF32 | laneFmaF32 | laneMinF32 | laneMaxF32 | laneAbsF32
  | laneNegF32 | laneCmpF32 | laneRintF32 | laneCopysignF32 | laneAddPacked | laneSubPacked | laneMulPacked | laneFmaPacked
  | laneMinPacked | laneMaxPacked | laneAbsPacked | laneNegPacked | laneCmpPacked | laneRintPacked | laneCopysignPacked
  | laneAddF64 | laneSubF64 | laneMulF64 | laneFmaF64 | laneMinF64 | laneMaxF64 | laneAbsF64 | laneNegF64 | laneCmpF64
  | laneRintF64 | laneCopysignF64 | laneDivF64 | laneSqrtF64 | cvt | pack | qpack | unpack | dp8x4 | dp4x8 | dp16x2 | rcp
  | rsqrt | laneSqrt | exp2 | log2 | sin | cos | tanh | laneDivF32 | shflIdx | shflUp | shflDown | shflXor | scanAdd
  | scanMin | scanMax | xscanAdd | redAdd | redMin | redMax | redAnd | redOr | vredAdd | vredMin | vredMax | vany | vall
  | rfl | ldGlobal | stGlobal | ldB128Global | stB128Global | ldScratch | stScratch | ldB128Scratch | stB128Scratch
  | ldPrivate | stPrivate | ldB128Private | stB128Private | laneAadd | laneAmin | laneAmax | laneAand | laneAor | laneAxor
  | laneAxchg | laneAcas | amaxabs | ldv | bra | join | lpause | lstop | mand | mor | mxor | mandn | mtov | vtom =>
    exact .lane (.inl rfl) _ rfl
  | laneIllegalInstruction => exact .lane (.inr rfl) _ rfl
  | longLatencyResult | escalation | stokerEscalation | demotionEnd | splitRotation | trapTake | coalescerDelivery
  | faultQueueWrite | pageWalk | adWriteback | homeReadRequest | homeWriteArrival | writePerformed | leaseExpiry
  | homeAtomic | lendLine | lineRecall | lineReturn | projectionComplete | viewMatrixCopyDone | scratchpadRefill
  | remoteRead | invalidation | invalidationAck | linkDeath | sharerAckTimeout | flitCrcFail | directoryEccError | softError
  | l2Eviction | hostSnoop | snoopAnswer | hostMemoryRequest | fabricRequest | remoteTimeout | timeAlign | freezeRequest
  | freezeComplete | dropReplicas | dropReplicasAck | thawTimeout | freezeShootdownTimeout | replicaFetch | copyUnit
  | mmaKstep | accUnit | launchRecord | queueSealWrite | workgroupPlacement | gridRetire | forcedSave | restoreWorkgroup
  | groupTimerTrap | deadlineAlarm | shootdown | resumeGroup | endGroup | liftFence | repairFreeze | poolAdd
  | recordedModeRecord | recordedModeReplay | traceRecord | imageUpdate | attest | raiseDamper | queueMakeResident
  | queueSwitchOut | restoreContext | setAlarm | loadContext | endContext | commandBusyWrite | recordedHeadWrite
  | faultQueueHeadWrite | stateWindowWrite | boot | coolantConfirm | thermalStop | portUp | hostLinkTraining =>
    exact .event _ nofun rfl
  | fetchPageFault => exact .fetch rfl
  | accst sd sa sb fmt =>
    by_cases hf : fmt = 3
    · exact .stoker rfl (.inl nofun) _ (show execAccst sd sa sb fmt s = _ by unfold execAccst; rw [if_pos hf])
    · exact .stoker rfl (.inl nofun) _ (show execAccst sd sa sb fmt s = _ by unfold execAccst; rw [if_neg hf]; rfl)
  | cdctr sd sa k =>
    by_cases hk : 5 ≤ k.toNat
    · exact .stoker rfl (.inl nofun) _ (show execCdctr sd sa k s = _ by unfold execCdctr; rw [if_pos hk])
    · exact .stoker rfl (.inl nofun) _ (show execCdctr sd sa k s = _ by unfold execCdctr; rw [if_neg hk]; rfl)
  | slit v op sd sa =>
    obtain ⟨f, hf⟩ : ∃ f, execSlit v op sd sa s = onStoker s f := by unfold execSlit; split <;> exact ⟨_, rfl⟩
    exact .stoker rfl (.inl nofun) f hf

theorem encode_ne_nil_of_lane {i : Instr} (h : (laneSig i).isSome) : encode i ≠ [] := by
  obtain ⟨⟨q, f⟩, hq⟩ := Option.isSome_iff_exists.1 h
  unfold encode; rw [hq]; exact nofun

/-- A stoker's instruction answers a next state where a stoker is issuing. -/
theorem onStoker_eq (s : State) (f : Nat → Group → State) : (∃ t, onStoker s f = .next t) ∨ onStoker s f = .fault .noStream := by
  unfold onStoker; split
  · split <;> simp
  · simp

/-- A split's instruction answers a next state where a split is issuing. -/
theorem onLane_eq (s : State) (f : Nat → Nat → Group → Split → State) : (∃ t, onLane s f = .next t) ∨ onLane s f = .fault .noStream := by
  unfold onLane; split
  · split
    · split <;> simp
    · simp
  · simp

/-- The page fault of a fetch runs in the issuing stoker. -/
theorem fetchPageFault_stoker {s : State} {k : Nat} (h : s.cur = some (.stoker k)) :
    ∃ f, exec .fetchPageFault s = onStoker s f := by
  show ∃ f, execFetchPageFault s = onStoker s f
  unfold execFetchPageFault; rw [h]; exact ⟨_, rfl⟩

/-- Where no stoker is issuing, the page fault of a fetch runs in the issuing split. -/
theorem fetchPageFault_lane {s : State} (h : ∀ k, s.cur ≠ some (.stoker k)) : ∃ f, exec .fetchPageFault s = onLane s f := by
  show ∃ f, execFetchPageFault s = onLane s f
  unfold execFetchPageFault
  split
  · next k hk => exact absurd hk (h k)
  · exact ⟨_, rfl⟩

/-- Whatever is executed answers a next state, or the one fault. -/
theorem exec_eq (s : State) (i : Instr) : (∃ t, exec i s = .next t) ∨ exec i s = .fault .noStream := by
  cases exec_form s i with
  | stoker _ _ f h => rw [h]; exact onStoker_eq s f
  | lane _ f h => rw [h]; exact onLane_eq s f
  | event t _ h => exact .inl ⟨t, h⟩
  | fetch hi =>
    subst hi
    by_cases h : ∃ k, s.cur = some (.stoker k)
    · obtain ⟨k, hk⟩ := h
      obtain ⟨f, hf⟩ := fetchPageFault_stoker hk
      rw [hf]; exact onStoker_eq s f
    · obtain ⟨f, hf⟩ := fetchPageFault_lane (not_exists.1 h)
      rw [hf]; exact onLane_eq s f

theorem exec_next_of_stokerAt {s : State} {i : Instr} {k : Nat} {g : Group} (h : s.stokerAt k g) (hl : laneSig i = none)
    (hi : i ≠ .laneIllegalInstruction) : ∃ t, exec i s = .next t := by
  cases exec_form s i with
  | stoker _ _ f hf => exact ⟨_, hf.trans (onStoker_next h.1 h.2 f)⟩
  | lane hx f hf => simp [hl, hi] at hx
  | event t _ ht => exact ⟨t, ht⟩
  | fetch hi =>
    subst hi
    obtain ⟨f, hf⟩ := fetchPageFault_stoker h.1
    exact ⟨_, hf.trans (onStoker_next h.1 h.2 f)⟩

theorem exec_next_of_laneAt {s : State} {i : Instr} {k slot : Nat} {g : Group} {sp : Split} (h : s.laneAt k slot g sp)
    (hi : (∃ x, laneSig i = some x) ∨ i = .laneIllegalInstruction ∨ i = .fetchPageFault) : ∃ t, exec i s = .next t := by
  obtain ⟨hcur, hg, hsp⟩ := h
  cases exec_form s i with
  | stoker hl hw f hf =>
    rcases hi with ⟨x, hx⟩ | rfl | rfl
    · simp [hl] at hx
    · exact absurd hw (by decide)
    · exact absurd hw (by decide)
  | lane hx f hf => exact ⟨_, hf.trans (onLane_next hcur hg hsp f)⟩
  | event t _ ht => exact ⟨t, ht⟩
  | fetch hi =>
    subst hi
    obtain ⟨f, hf⟩ := fetchPageFault_lane (s := s) fun j => by simp [hcur]
    exact ⟨_, hf.trans (onLane_next hcur hg hsp f)⟩

theorem exec_next_of_event {s : State} {i : Instr} (hw : encode i = [])
    (hi : i ∉ [.stokerIllegalInstruction, .laneIllegalInstruction, .fetchPageFault]) : ∃ t, exec i s = .next t := by
  simp only [List.mem_cons, List.not_mem_nil, or_false, not_or] at hi
  obtain ⟨hs, hl, hf⟩ := hi
  cases exec_form s i with
  | stoker _ hx f h => simp [hw, hs] at hx
  | lane hx f h => exact absurd hw (encode_ne_nil_of_lane (hx.resolve_right hl))
  | event t _ h => exact ⟨t, h⟩
  | fetch h => exact absurd h hf

/-- Settles O58, by the form of the instruction's arm of `exec`. -/
theorem nothingRefused : Obligations.NothingRefused := by
  intro s i k slot g sp
  refine ⟨fun r h => ?_, fun x h => ?_, exec_next_of_stokerAt, exec_next_of_laneAt, exec_next_of_event⟩
  · rcases exec_eq s i with ⟨t, e⟩ | e <;> simp [e] at h
  · rcases exec_eq s i with ⟨t, e⟩ | e <;> simp_all
end Sys2Proof.Machine
end

section
/-! # What one step does (O55)

The layers below say what a fetch gives, what the clock leaves unchanged where nothing waits or the device has stopped, and what an issue
answers in each of its cases; `stepRunsDecoded` puts a clause together from one lemma of each. -/

namespace Sys2Proof.Machine

/-! ### A fetch leaves the issuing stream as it is -/

theorem State.writeBackAD_cur (s : State) (e : Tlb) : (s.writeBackAD e).cur = s.cur := by
  grind [State.writeBackAD, State.pokeRaw, State.poke, State.sendOwn]

theorem State.tlbFill_cur (s : State) (e : Tlb) : (s.tlbFill e).cur = s.cur := by
  grind [State.tlbFill, State.writeBackAD_cur]

theorem State.fillWalk_cur (s : State) (d ctx : Nat) (c : Ctx) (va : W64) : (s.fillWalk d ctx c va).cur = s.cur := by
  unfold State.fillWalk
  refine List.foldlRecOn (motive := fun t : State => t.cur = s.cur) _ _ rfl fun t ht p _ => ?_
  grind

theorem State.translate_cur (s : State) (h ctx : Nat) (va : W64) : (s.translate h ctx va).1.cur = s.cur := by
  grind [State.translate, State.tlbFill_cur, State.fillWalk_cur]

theorem State.trace_cur (s : State) (ctx ty die : Nat) (p : List Byte) : (s.trace ctx ty die p).cur = s.cur := by
  grind [State.trace]

theorem State.consumeRecords_cur (s : State) (n : Nat) : (s.consumeRecords n).cur = s.cur := by grind [State.consumeRecords]

theorem State.mismatch_cur (s : State) : s.mismatch.cur = s.cur := by
  unfold State.mismatch; split <;> rfl

theorem State.traceDatum_cur (s : State) (die pa : Nat) (data : List Byte) : (s.traceDatum die pa data).cur = s.cur := by
  grind [State.traceDatum, State.trace_cur]

theorem State.ownRead_cur (s : State) (h ctx pa : Nat) (data : List Byte) : (s.ownRead h ctx pa data).1.cur = s.cur := by
  grind [State.ownRead, State.traceDatum_cur, State.consumeRecords_cur, State.mismatch_cur]

theorem State.sendReader_cur (s : State) (h ctx : Nat) (owner : Nat × Nat) (blk : Nat) (who : Nat × Nat) (code : Bool) (va : W64) (key n : Nat) :
    (s.sendReader h ctx owner blk who code va key n).cur = s.cur := by
  grind [State.sendReader, State.sendOut, State.newId]

theorem State.fetch4_cur (s : State) (k : Nat) (g : Group) (va : W64) : (s.fetch4 k g va).1.cur = s.cur := by
  grind [State.fetch4, State.translate_cur, State.ownRead_cur, State.sendReader_cur]

theorem State.fetchWords_cur (s : State) (k : Nat) (g : Group) (va : W64) (n : Nat) : (s.fetchWords k g va n).1.cur = s.cur := by
  induction n generalizing s va with
  | zero => rfl
  | succ n ih => grind [State.fetchWords, State.fetch4_cur]

/-! ### What a fetch of one word gives (R84, R311, R325) -/

theorem memGetBytes_eq_map (m : List Host.Cell) (a n : Nat) :
    memGetBytes m a n = (List.range n).map fun i => memGet m (a + i) := by
  induction n generalizing a with
  | zero => rfl
  | succ n ih => simp [memGetBytes, ih, List.range_succ_eq_map, Function.comp_def, Nat.add_right_comm, Nat.add_assoc]

theorem State.fetchWords_one (s : State) (k : Nat) (g : Group) (va : W64) : s.fetchWords k g va 1 =
    match s.fetch4 k g va with
    | (s1, .word w) => (s1, .ok [w])
    | (s1, .fault) => (s1, .error va)
    | (s1, .wait) => (s1, .wait) := by
  unfold State.fetchWords
  rcases s.fetch4 k g va with ⟨s1, _ | _ | _⟩ <;> rfl

/-- A single word cannot be fetched but at its own address. -/
theorem State.fetchWords_one_error {s s1 : State} {k : Nat} {g : Group} {va x : W64} (h : s.fetchWords k g va 1 = (s1, .error x)) : x = va := by
  rw [fetchWords_one] at h
  split at h <;> simp_all

theorem State.fetch4_of_not_canonical {s : State} {k : Nat} {g : Group} {va : W64} (h : canonical va = false) :
    s.fetch4 k g va = (s, .fault) := by
  unfold State.fetch4; simp [h]

section
variable {s s1 : State} {k : Nat} {g : Group} {va : W64} {t : Tr} (hva : canonical va = true)
  (ht : s.translate (hearthOf k) g.ctx va = (s1, .ok t))
include hva ht

theorem State.fetch4_of_unreadable (h : t.rd = false ∨ s1.fenced (dieOf (hearthOf k)) (s1.keyOfTr (tabD s1.ctxs g.ctx {}) t) = true) :
    s.fetch4 k g va = (s1, .fault) := by
  unfold State.fetch4
  simp only [hva, ht, if_true]
  rw [if_neg]
  rcases h with h | h
  · simp only [h, Bool.false_and, Bool.false_eq_true, not_false_eq_true]
  · simp only [h, Bool.not_true, Bool.and_false, Bool.false_eq_true, not_false_eq_true]

theorem State.fetch4_of_memory (hrd : t.rd = true)
    (hf : s1.fenced (dieOf (hearthOf k)) (s1.keyOfTr (tabD s1.ctxs g.ctx {}) t) = false) (hc : t.creg = none)
    (ho : isOther t.pa = false) (hr : isHost t.pa = false ∨ s1.recording g.ctx = false) :
    s.fetch4 k g va = (s1, .word (leNat (s1.peek t.pa 4))) := by
  unfold State.fetch4
  have hown : s1.ownRead (hearthOf k) g.ctx t.pa (s1.peek t.pa 4) = (s1, some (s1.peek t.pa 4)) :=
    State.ownRead_of _ _ _ _ (by rcases hr with h | h <;> simp [h, ho])
  simp only [hva, ht, hrd, hf, hc, ho, hown, Bool.not_false, Bool.and_self, Bool.false_and, if_true, Bool.false_eq_true, if_false]

theorem State.fetch4_of_lost (hrd : t.rd = true)
    (hf : s1.fenced (dieOf (hearthOf k)) (s1.keyOfTr (tabD s1.ctxs g.ctx {}) t) = false) (hc : t.creg = none)
    (ho : isOther t.pa = true) (hl : s1.lostRead g.ctx (hearthOf k) (physKey t.pa) s1.nextId = true) :
    (s.fetch4 k g va).2 = .wait := by
  unfold State.fetch4
  simp only [hva, ht, hrd, hf, hc, ho, hl, Bool.not_false, Bool.and_self, Bool.or_true, if_true]
end

/-! ### The clock where no instruction waits -/

theorem State.holdReplay_groups (s : State) : s.holdReplay.groups = s.groups := by unfold State.holdReplay; split <;> rfl

theorem State.holdReplay_of_inactive {s : State} (h : s.recd.active = false) : s.holdReplay = s := by simp [State.holdReplay, h]

theorem State.clock_clk (s : State) : s.clock.clk = s.clk + 1 := by
  unfold State.clock
  dsimp only
  split <;> split <;> rfl

/-- No instruction of a group waits. -/
def Group.Idle (g : Group) : Prop := g.sWait = false ∧ ∀ n y, g.split n = some y → y.waiting = false

theorem Group.idle_iff (g : Group) : g.Idle ↔ g.sWait = false ∧ (∀ y ∈ g.slot0, y.waiting = false) ∧ ∀ y ∈ g.slot1, y.waiting = false := by
  unfold Group.Idle Group.split
  constructor
  · rintro ⟨h, hy⟩; exact ⟨h, fun y => hy 0 y, fun y => hy 1 y⟩
  · rintro ⟨h, h0, h1⟩; refine ⟨h, fun n y e => ?_⟩
    split at e
    · exact h0 y e
    · exact h1 y e

theorem Group.Idle.delay {g : Group} (h : g.Idle) (late : Nat → Nat) : (g.delay late).Idle := by
  rw [idle_iff] at h ⊢
  obtain ⟨hw, h0, h1⟩ := h
  refine ⟨hw, ?_, ?_⟩ <;> simp [Group.delay, Group.mapOuts, Split.delay, Split.mapOuts] <;> assumption

theorem Group.Idle.tick {g : Group} (h : g.Idle) (clk lfree sfree : Nat) (lready sready still : Bool) :
    (g.tick clk lfree sfree lready sready still).Idle := h

theorem State.delay_idle {s : State} (h : ∀ p ∈ s.groups, p.2.Idle) (ctx : Nat) : ∀ p ∈ (s.delay ctx).groups, p.2.Idle := by
  intro p hp
  obtain ⟨q, hq, rfl⟩ := List.mem_map.1 hp
  split
  · exact (h q hq).delay _
  · exact h q hq

theorem State.delay_ite_idle {s : State} (h : ∀ p ∈ s.groups, p.2.Idle) (c : Bool) (ctx : Nat) :
    ∀ p ∈ (if c then s.delay ctx else s).groups, p.2.Idle := by
  split
  · exact delay_idle h ctx
  · exact h

theorem State.putOff_ite_idle {s : State} (h : ∀ p ∈ s.groups, p.2.Idle) (c : Bool) (d : Nat) :
    ∀ p ∈ (if c then s.putOff d else s).groups, p.2.Idle := by
  split <;> exact h

theorem State.clock_idle {s : State} (h : ∀ p ∈ s.groups, p.2.Idle) : ∀ p ∈ s.clock.groups, p.2.Idle := by
  intro p hp
  obtain ⟨q, hq, rfl⟩ := List.mem_map.1 hp
  exact .tick (delay_ite_idle (putOff_ite_idle h _ _) _ _ q hq) _ _ _ _ _ _

theorem tabGet_mem {α : Type} {t : Tab α} {n : Nat} {x : α} (h : tabGet t n = some x) : (n, x) ∈ t := by
  induction t with
  | nil => cases h
  | cons p r ih =>
    unfold tabGet at h
    split at h
    · next e => cases h; subst e; exact .head _
    · exact .tail _ (ih h)

theorem State.retryStoker_of_idle {s : State} (h : ∀ p ∈ s.groups, p.2.Idle) (k : Nat) : s.retryStoker k = s := by
  unfold State.retryStoker
  split
  · next g hg =>
    have hw : g.sWait = false := (h _ (tabGet_mem hg)).1
    exact if_neg (by simp [hw])
  · rfl

theorem State.retryLane_of_idle {s : State} (h : ∀ p ∈ s.groups, p.2.Idle) (k slot : Nat) : s.retryLane k slot = s := by
  unfold State.retryLane
  split
  · next g hg =>
    split
    · next sp hsp =>
      have hw : sp.waiting = false := (h _ (tabGet_mem hg)).2 _ _ hsp
      exact if_neg (by simp [hw])
    · rfl
  · rfl

theorem State.tick_of_idle {s : State} (h : ∀ p ∈ s.groups, p.2.Idle) : s.tick = s.holdReplay.clock := by
  have hi := clock_idle (s := s.holdReplay) (by rwa [holdReplay_groups])
  unfold State.tick
  dsimp only
  refine List.foldlRecOn (motive := fun t : State => t = s.holdReplay.clock) _ _ rfl fun t ht k _ => ?_
  subst ht
  simp only [retryStoker_of_idle hi, retryLane_of_idle hi]

/-! ### The stopped device (R7) -/

theorem State.holdReplay_stopped (s : State) : s.holdReplay.stopped = s.stopped := by unfold State.holdReplay; split <;> rfl

theorem State.clock_stopped (s : State) : s.clock.stopped = s.stopped := by
  unfold State.clock
  dsimp only
  split <;> split <;> rfl

section
variable {s : State} (h : s.stopped = true)
include h

theorem State.held_of_stopped (g : Group) : s.held g = true := by simp [State.held, h]

theorem State.offer_of_stopped (p j : Nat) : s.offer p j = none := by
  have hs : ∀ k g, s.stokerReady k g = false := fun k g => by simp [State.stokerReady, held_of_stopped h]
  have hl : ∀ k g, s.laneReady k g = false := fun k g => by simp [State.laneReady, held_of_stopped h]
  unfold State.offer
  simp [hs, hl, bestOf]

theorem State.nextOffer_of_stopped : s.nextOffer = none := by
  unfold State.nextOffer
  simp [offer_of_stopped h]

theorem State.retryStoker_of_stopped (k : Nat) : s.retryStoker k = s := by
  unfold State.retryStoker
  split
  · exact if_neg (by simp [held_of_stopped h])
  · rfl

theorem State.retryLane_of_stopped (k slot : Nat) : s.retryLane k slot = s := by
  unfold State.retryLane
  split
  · split
    · exact if_neg (by simp [held_of_stopped h])
    · rfl
  · rfl

theorem State.tick_of_stopped : s.tick = s.holdReplay.clock := by
  have ht : s.holdReplay.clock.stopped = true := by rw [clock_stopped, holdReplay_stopped, h]
  unfold State.tick
  dsimp only
  refine List.foldlRecOn (motive := fun t : State => t = s.holdReplay.clock) _ _ rfl fun t e k _ => ?_
  subst e
  rw [retryStoker_of_stopped ht, retryLane_of_stopped ht, retryLane_of_stopped ht]

theorem State.due_of_stopped (hb : s.booted = true ∨ s.recovery = true) : s.due = none := by
  unfold State.due
  rcases hb with hb | hb <;> simp [hb, h]
end

/-! ### The step without an issue -/

theorem step_of_due {s : State} {d : DueEv} (h : s.due = some d) : step s = exec d.i { d.s with ev := d.ev, cur := none } := by
  unfold step; rw [h]

theorem step_of_none {s : State} (h : s.due = none) (ho : s.nextOffer = none) : step s = .next s.tick := by
  unfold step; rw [h, ho]

theorem step_unbooted {s : State} (hb : s.booted = false) (hr : s.recovery = false) : step s = exec .boot { s with ev := {}, cur := none } :=
  step_of_due (d := s.event .boot) (by simp [State.due, hb, hr])

theorem step_of_stopped {s : State} (hb : s.booted = true ∨ s.recovery = true) (h : s.stopped = true) : step s = .next s.holdReplay.clock := by
  rw [step_of_none (State.due_of_stopped h hb) (State.nextOffer_of_stopped h), State.tick_of_stopped h]

/-- The answer `r` is that of `e`, with what an issue notes after a next state. -/
def Ran (r : Res) (e : Res) (note : State → State) : Prop :=
  (∀ u, e = .next u → r = .next (note u)) ∧ ∀ y, e = .fault y → r = .fault y

theorem ran_after {r e : Res} {note : State → State} (h : r = Res.after e note) : Ran r e note := by
  subst h
  exact ⟨by rintro u rfl; rfl, by rintro y rfl; rfl⟩

/-! ### The step that issues -/

theorem step_of_stoker {s : State} {pos k : Nat} {g : Group} (h : s.due = none) (ho : s.nextOffer = some (pos, .stoker k)) (hg : s.grp k = some g) :
    step s = issueStoker s pos k g := by
  unfold step issue; simp only [h, ho, hg]

theorem step_of_lane {s : State} {pos k slot : Nat} {g : Group} {sp : Split} (h : s.due = none) (ho : s.nextOffer = some (pos, .lane k slot))
    (hg : s.grp k = some g) (hsp : g.split slot = some sp) : step s = issueLane s pos k slot g sp := by
  unfold step issue; simp only [h, ho, hg, hsp]

/-- What the issue of a stoker leaves, with the timing `time` of its instruction. -/
def State.leftStoker (s0 : State) (pos k : Nat) (time : State → State) (u : State) : State :=
  if u.stokerWaits k then
    if (u.unread s0 k).inPlace k = true ∧ s0.inPlace k = false then (u.unread s0 k).issuedStoker s0 pos k else u.unread s0 k
  else ((time u).issuedStoker s0 pos k).forget (0, k)

/-- What the issue of a split leaves, with the timing `time` of its instruction and the clocks it holds its slot. -/
def State.leftLane (s0 : State) (pos k slot : Nat) (time : State → State) (clocks : Nat) (u : State) : State :=
  if u.laneWaits k slot then u.unread s0 k else ((time u).issuedLane s0 pos k slot clocks).forget (1 + slot, k)

section
variable {s s1 : State} {pos k : Nat} {g : Group}

theorem State.leftStoker_eq (s0 : State) (pos k : Nat) (time : State → State) (u : State) : s0.leftStoker pos k time u =
    if u.stokerWaits k then
      let t := u.unread s0 k
      if t.inPlace k && !s0.inPlace k then t.issuedStoker s0 pos k else t
    else (time u).issuedBy (0, k) fun t => t.issuedStoker s0 pos k := by
  unfold leftStoker issuedBy
  simp only [Bool.and_eq_true, Bool.not_eq_true']

theorem issueStoker_of_redo {r : Redo} {rest : List Redo} (h : g.redo = r :: rest) : issueStoker s pos k g =
    .next (State.leftStoker { s with cur := some (.stoker k) } pos k id (State.againStoker { s with cur := some (.stoker k) } k g r)) := by
  unfold issueStoker; rw [h, State.leftStoker_eq]; rfl

theorem issueStoker_of_instr {i : Instr} (h : g.redo = []) (hf : State.fetchStoker { s with cur := some (.stoker k) } k g = (s1, .instr i)) :
    issueStoker s pos k g = Res.after (exec i s1) (State.leftStoker { s with cur := some (.stoker k) } pos k
      fun u => u.timeStoker { s with cur := some (.stoker k) } k g i) := by
  unfold issueStoker
  simp only [h, hf]
  congr 1; funext u; rw [State.leftStoker_eq]

theorem issueStoker_of_no_instr {f : Fetched} (h : g.redo = []) (hf : State.fetchStoker { s with cur := some (.stoker k) } k g = (s1, f))
    (hn : ∀ i, f ≠ .instr i) : issueStoker s pos k g =
    Res.after (runFetched s1 f .stokerIllegalInstruction) (State.leftStoker { s with cur := some (.stoker k) } pos k id) := by
  unfold issueStoker
  simp only [h, hf]
  congr 1; funext u; rw [State.leftStoker_eq]; rfl

end

section
variable {s s1 : State} {pos k slot : Nat} {g : Group} {sp : Split}

theorem issueLane_of_redo {o : Out} (h : sp.redo = some o) : issueLane s pos k slot g sp =
    .next (State.leftLane { s with cur := some (.lane k slot) } pos k slot id o.passes
      (State.againLane { s with cur := some (.lane k slot) } k slot g sp o)) := by
  unfold issueLane; rw [h]; rfl

theorem issueLane_of_instr {i : Instr} (h : sp.redo = none)
    (hf : State.fetchLane { s with cur := some (.lane k slot) } k g sp = (s1, .instr i)) (hv : g.violates sp i = false) :
    issueLane s pos k slot g sp = Res.after (exec i s1) (State.leftLane { s with cur := some (.lane k slot) } pos k slot
      (fun u => u.timeLane s1 k slot g sp i) (passClocks i * passesOf g sp i)) := by
  unfold issueLane
  simp only [h, hf, hv]
  rfl

theorem issueLane_of_violation {i : Instr} (h : sp.redo = none)
    (hf : State.fetchLane { s with cur := some (.lane k slot) } k g sp = (s1, .instr i)) (hv : g.violates sp i = true) :
    issueLane s pos k slot g sp = .next (State.leftLane { s with cur := some (.lane k slot) } pos k slot id 1
      (s1.trapL k slot g sp { code := 0x10, ldv := isLdv i } sp.mask)) := by
  unfold issueLane
  simp only [h, hf, hv]
  rfl

theorem issueLane_of_no_instr {f : Fetched} (h : sp.redo = none)
    (hf : State.fetchLane { s with cur := some (.lane k slot) } k g sp = (s1, f)) (hn : ∀ i, f ≠ .instr i) :
    issueLane s pos k slot g sp =
      Res.after (runFetched s1 f .laneIllegalInstruction) (State.leftLane { s with cur := some (.lane k slot) } pos k slot id 1) := by
  unfold issueLane
  simp only [h, hf]
  rfl

end

/-! ### What the streams fetch (R45, R70, R84) -/

section
variable {s s1 s2 : State} {k : Nat} {g : Group} {sp : Split} {w0 w1 w2 : Nat} {x : W64}

theorem bits_marker (w : Nat) : bits w 25 7 = w / 2 ^ 25 % 2 ^ 7 := by simp [bits]

theorem State.fetchStoker_of_word (h : s.fetchWords k g (g.kern.ib + g.kern.scoff + g.spc) 1 = (s1, .ok [w0]))
    (hm : w0 / 2 ^ 25 % 2 ^ 7 ≠ 0x7F) : s.fetchStoker k g = (s1, .of (decodeStoker w0 0 0)) := by
  unfold State.fetchStoker
  simp only [h, bits_marker]
  rw [if_neg hm]

section
variable (h : s.fetchWords k g (g.kern.ib + g.kern.scoff + g.spc) 1 = (s2, .ok [w0])) (hm : w0 / 2 ^ 25 % 2 ^ 7 = 0x7F)
include h hm

theorem State.fetchStoker_of_unit (h2 : s2.fetchWords k g (g.kern.ib + g.kern.scoff + g.spc + 4) 2 = (s1, .ok [w1, w2])) :
    s.fetchStoker k g = (s1, .of (decodeStoker w0 w1 w2)) := by
  unfold State.fetchStoker; simp only [h, bits_marker, hm, if_true, h2]

theorem State.fetchStoker_of_unit_error (h2 : s2.fetchWords k g (g.kern.ib + g.kern.scoff + g.spc + 4) 2 = (s1, .error x)) :
    s.fetchStoker k g = (s1, .fault x true) := by
  unfold State.fetchStoker; simp only [h, bits_marker, hm, if_true, h2]

theorem State.fetchStoker_of_unit_wait (h2 : s2.fetchWords k g (g.kern.ib + g.kern.scoff + g.spc + 4) 2 = (s1, .wait)) :
    s.fetchStoker k g = (s1, .wait) := by
  unfold State.fetchStoker; simp only [h, bits_marker, hm, if_true, h2]

end

theorem State.fetchStoker_of_error (h : s.fetchWords k g (g.kern.ib + g.kern.scoff + g.spc) 1 = (s1, .error x)) :
    s.fetchStoker k g = (s1, .fault x false) := by
  unfold State.fetchStoker; simp only [h]

theorem State.fetchStoker_of_wait (h : s.fetchWords k g (g.kern.ib + g.kern.scoff + g.spc) 1 = (s1, .wait)) :
    s.fetchStoker k g = (s1, .wait) := by
  unfold State.fetchStoker; simp only [h]

theorem State.fetchLane_of_error (h : s.fetchWords k g (g.kern.ib + g.kern.lcoff + zx64 sp.pc) 3 = (s1, .error x)) :
    s.fetchLane k g sp = (s1, .fault x false) := by
  unfold State.fetchLane; simp only [h]

theorem State.fetchLane_of_wait (h : s.fetchWords k g (g.kern.ib + g.kern.lcoff + zx64 sp.pc) 3 = (s1, .wait)) :
    s.fetchLane k g sp = (s1, .wait) := by
  unfold State.fetchLane; simp only [h]

section
variable {i : Instr} {q : LaneSig} {f : LaneF} {err : DecodeErr}
variable (h : s.fetchWords k g (g.kern.ib + g.kern.lcoff + zx64 sp.pc) 3 = (s1, .ok [w0, w1, w2]))
include h

theorem State.fetchLane_of_within (hd : decodeLane w0 w1 w2 = .ok i) (hq : laneSig i = some (q, f))
    (hw : withinVregs q f g.kern.vregs = true) : s.fetchLane k g sp = (s1, .instr i) := by
  unfold State.fetchLane; simp only [h, hd, hq, hw, if_true]

theorem State.fetchLane_of_beyond (hd : decodeLane w0 w1 w2 = .ok i) (hq : laneSig i = some (q, f))
    (hw : withinVregs q f g.kern.vregs = false) : s.fetchLane k g sp = (s1, .illegal) := by
  unfold State.fetchLane; simp only [h, hd, hq, hw, Bool.false_eq_true, if_false]

theorem State.fetchLane_of_undecoded (hd : decodeLane w0 w1 w2 = .error err) : s.fetchLane k g sp = (s1, .illegal) := by
  unfold State.fetchLane; simp only [h, hd]

end
end

theorem runFetched_illegal (s : State) (i : Instr) : runFetched s .illegal i = exec i s := by simp only [runFetched]

theorem runFetched_fault (s : State) (va : W64) (unit : Bool) (i : Instr) :
    runFetched s (.fault va unit) i = exec .fetchPageFault { s with ev := { a := va.toNat, flag := unit } } := by simp only [runFetched]

theorem runFetched_wait_stoker {s : State} {k : Nat} {i : Instr} (h : s.cur = some (.stoker k)) :
    runFetched s .wait i = .next (s.waitS k) := by
  unfold runFetched; simp only [h]

theorem runFetched_wait_lane {s : State} {k slot : Nat} {i : Instr} (h : s.cur = some (.lane k slot)) :
    runFetched s .wait i = .next (s.waitL k slot) := by
  unfold runFetched; simp only [h]

section
variable {s s1 s2 : State} {pos k : Nat} {g : Group} {w0 w1 w2 : Nat} {i : Instr} {err : DecodeErr} {x : W64} {r : Res}
variable (hr : r = issueStoker s pos k g) (h : g.redo = [])
include hr h

theorem ran_of_decoded (hf : State.fetchStoker { s with cur := some (.stoker k) } k g = (s1, .of (decodeStoker w0 w1 w2))) :
    (decodeStoker w0 w1 w2 = .ok i → Ran r (exec i s1) (State.leftStoker { s with cur := some (.stoker k) } pos k
      fun u => u.timeStoker { s with cur := some (.stoker k) } k g i)) ∧
    (decodeStoker w0 w1 w2 = .error err →
      Ran r (exec .stokerIllegalInstruction s1) (State.leftStoker { s with cur := some (.stoker k) } pos k id)) := by
  subst hr
  refine ⟨fun hd => ?_, fun hd => ?_⟩ <;> rw [hd, Fetched.of] at hf
  · exact ran_after (issueStoker_of_instr h hf)
  · exact ran_after (by rw [issueStoker_of_no_instr h hf (by simp), runFetched_illegal])

theorem ran_of_unfetched {unit : Bool} (hf : State.fetchStoker { s with cur := some (.stoker k) } k g = (s1, .fault x unit)) :
    Ran r (exec .fetchPageFault { s1 with ev := { a := x.toNat, flag := unit } })
      (State.leftStoker { s with cur := some (.stoker k) } pos k id) :=
  ran_after (by rw [hr, issueStoker_of_no_instr h hf (by simp), runFetched_fault])

theorem eq_of_fetch_waits (hf : State.fetchStoker { s with cur := some (.stoker k) } k g = (s1, .wait))
    (hc : s1.cur = some (.stoker k)) :
    r = .next (State.leftStoker { s with cur := some (.stoker k) } pos k id (s1.modG k fun g => { g with sWait := true })) := by
  rw [hr, issueStoker_of_no_instr h hf (by simp), runFetched_wait_stoker hc]; rfl

end

theorem isLdv_of_laneSig {i : Instr} {q : LaneSig} {f : LaneF} (h : laneSig i = some (q, f)) : isLdv i = decide (q.cls = 12) := by
  simp only [isLdv, h, Option.any_some]; rfl

section
variable {s s1 : State} {pos k slot : Nat} {g : Group} {sp : Split} {x : W64} {r : Res}
variable (hr : r = issueLane s pos k slot g sp) (h : sp.redo = none)
include hr h

theorem ran_of_illegal_lane (hf : State.fetchLane { s with cur := some (.lane k slot) } k g sp = (s1, .illegal)) :
    Ran r (exec .laneIllegalInstruction s1) (State.leftLane { s with cur := some (.lane k slot) } pos k slot id 1) :=
  ran_after (by rw [hr, issueLane_of_no_instr h hf (by simp), runFetched_illegal])

theorem ran_of_unfetched_lane {unit : Bool} (hf : State.fetchLane { s with cur := some (.lane k slot) } k g sp = (s1, .fault x unit)) :
    Ran r (exec .fetchPageFault { s1 with ev := { a := x.toNat, flag := unit } })
      (State.leftLane { s with cur := some (.lane k slot) } pos k slot id 1) :=
  ran_after (by rw [hr, issueLane_of_no_instr h hf (by simp), runFetched_fault])

theorem eq_of_fetch_waits_lane (hf : State.fetchLane { s with cur := some (.lane k slot) } k g sp = (s1, .wait))
    (hc : s1.cur = some (.lane k slot)) :
    r = .next (State.leftLane { s with cur := some (.lane k slot) } pos k slot id 1
      (s1.modG k fun g => g.setSplit slot ((g.split slot).map fun sp => { sp with waiting := true }))) := by
  rw [hr, issueLane_of_no_instr h hf (by simp), runFetched_wait_lane hc]; rfl

theorem eq_of_violation {i : Instr} {q : LaneSig} {f : LaneF} (hf : State.fetchLane { s with cur := some (.lane k slot) } k g sp = (s1, .instr i))
    (hq : laneSig i = some (q, f)) (hv : g.violates sp i = true) :
    r = .next (State.leftLane { s with cur := some (.lane k slot) } pos k slot id 1
      (s1.trapL k slot g sp { code := 0x10, ldv := decide (q.cls = 12) } sp.mask)) := by
  rw [hr, issueLane_of_violation h hf hv, isLdv_of_laneSig hq]

end

theorem State.cur_of_fetchWords {s s1 : State} {k n : Nat} {g : Group} {va : W64} {x : Words} (h : s.fetchWords k g va n = (s1, x)) :
    s1.cur = s.cur := by
  have := s.fetchWords_cur k g va n; rwa [h] at this

/-- Settles O55, clause by clause: the step without an issue, then the fetch of the issuing stream and what the issue makes of it. -/
theorem stepRunsDecoded : Obligations.StepRunsDecoded := by
  intro s s1 s2 k pos slot g sp i q f w0 w1 w2 err x t r rest o stokerSt laneSt stokerPc lanePc ran arrives leftS leftL noteS noteL
  refine ⟨step_unbooted, step_of_stopped, fun d => step_of_due, step_of_none, State.tick_of_idle, State.holdReplay_of_inactive, s.clock_clk,
    fun hd ho hg => ?_, fun hd ho hg hsp => ?_, fun hx => ?_, fun hx ht => ?_⟩
  · have hst := step_of_stoker hd ho hg
    refine ⟨fun hr => hst.trans (issueStoker_of_redo hr), fun hr => ⟨fun h hm => ?_, fun h hm => ?_, fun h => ?_, fun h => ?_⟩⟩
    · exact ran_of_decoded hst hr (State.fetchStoker_of_word h hm)
    · refine ⟨fun h2 => ?_, fun h2 => ?_, fun h2 => ?_⟩
      · exact ran_of_decoded hst hr (State.fetchStoker_of_unit h hm h2)
      · exact ran_of_unfetched hst hr (State.fetchStoker_of_unit_error h hm h2)
      · exact eq_of_fetch_waits hst hr (State.fetchStoker_of_unit_wait h hm h2)
          ((State.cur_of_fetchWords h2).trans (State.cur_of_fetchWords h))
    · obtain rfl := State.fetchWords_one_error h
      exact ran_of_unfetched hst hr (State.fetchStoker_of_error h)
    · exact eq_of_fetch_waits hst hr (State.fetchStoker_of_wait h) (State.cur_of_fetchWords h)
  · have hst := step_of_lane hd ho hg hsp
    refine ⟨fun hr => hst.trans (issueLane_of_redo hr), fun hr => ⟨fun h => ?_, fun h => ?_, fun h => ?_⟩⟩
    · refine ⟨fun hd hq hw => ⟨fun hv => ?_, fun hv => ?_⟩, fun hd hq hw => ?_, fun hd => ?_⟩
      · exact ran_after (hst.trans (issueLane_of_instr hr (State.fetchLane_of_within h hd hq hw) hv))
      · exact eq_of_violation hst hr (State.fetchLane_of_within h hd hq hw) hq hv
      · exact ran_of_illegal_lane hst hr (State.fetchLane_of_beyond h hd hq hw)
      · exact ran_of_illegal_lane hst hr (State.fetchLane_of_undecoded h hd)
    · exact ran_of_unfetched_lane hst hr (State.fetchLane_of_error h)
    · exact eq_of_fetch_waits_lane hst hr (State.fetchLane_of_wait h) (State.cur_of_fetchWords h)
  · rw [State.fetchWords_one, State.fetch4_of_not_canonical hx]
  · refine ⟨fun h => ?_, fun hrd hfe hc => ⟨fun hi hh => ?_, fun hi hl => ?_⟩⟩
    · rw [State.fetchWords_one, State.fetch4_of_unreadable hx ht h]
    · rw [State.fetchWords_one, State.fetch4_of_memory hx ht hrd hfe hc hi hh]
      simp only [State.peek, memGetBytes_eq_map]
    · have hw := State.fetch4_of_lost hx ht hrd hfe hc hi hl
      rw [State.fetchWords_one]
      revert hw
      rcases s.fetch4 k g x with ⟨t, c⟩
      rintro rfl; rfl

end Sys2Proof.Machine
end

section
/-! # A remote timeout where the group table does not rise (O50)

`HostEvents` speaks of every state, also of one whose group table is not in rising key order. There a change to the group at a key may be
written before another entry, and with it the first group of a name may come to stand at another key. The statement's last clause then
fails: a timed-out write of a matrix operation leaves a member group, named by the key it had before, without its record. -/

namespace Sys2Proof.Machine

/-- A group of workgroup 0 with nothing under way. -/
def twinGroup (i : Nat) : Group := { ctx := 0, wg := 0, gidx := i, kern := {}, width := 32 }

/-- A matrix operation of groups 0 and 1. -/
def twinOp : MatOp := { id := 4, hearth := 0, ctx := 0, wg := 0, members := [0, 1], gslot := 0, kind := .accld }

/-- A write of it to another module that has been out for 10 µs. -/
def twinStore : Pend :=
  { id := 1, key := physKey (3 * 2 ^ 50), ctx := 0, owner := none, arrived := false, issued := 0, va := 0x1000, blk := 4, acq := false,
    kind := .store (3 * 2 ^ 50) [1] false }

/-- A state whose group table does not rise: group 1 stands at key 7 and, after it, again at key 5, which it shares with group 0. -/
def twins : State :=
  { State.reset with
    clk := 25000, ev := { a := 1 }, pend := [twinStore], mats := [twinOp], groups := [(7, twinGroup 1), (5, twinGroup 1), (5, twinGroup 0)] }

/-- What a remote timeout makes of a state, from where the access may have been performed on. -/
def State.timedOutAs (p : Pend) (s : State) : State :=
  let s := (s.timeoutValue p).engineTimeout p
  ({ s with rtimeout := min (s.rtimeout + 1) (2 ^ 64 - 1) } : State).devError logTimeout 0

theorem exec_remoteTimeout_twins : exec .remoteTimeout twins =
    .next (.timedOutAs twinStore ((({ twins with pend := [] } : State).sendOut twinStore.key).maybePerform twinStore)) := rfl

/-- Whether the write has been performed or not, the record of group 0 changes key 5, and with it writes group 1's second entry before its
first; then group 1's record goes there too, and the group at key 7 has none. -/
theorem twins_untrapped : (State.timedOutAs twinStore
    ((({ twins with pend := [] } : State).sendOut twinStore.key).maybePerform twinStore)).grp 7 = some (twinGroup 1) := by
  unfold State.maybePerform
  split <;> decide +kernel

/-- Refutes O50: where the group table does not rise, the record of a timed-out write of a matrix operation can miss a member group. -/
theorem not_hostEvents : ¬ Obligations.HostEvents := by
  intro h
  obtain ⟨-, -, -, -, -, -, -, -, -, -, -, -, -, -, -, -, -, -, -, -, -, -, -, -, -, -, -, -, h⟩ :=
    h twins twinStore (0, 1) 7 (twinGroup 1) { half := 0, inv := false, data := none } [] []
    { id := 0, hearth := 0, ctx := 0, wg := 0, gidx := 0, gslot := 0, tag := 0, kind := 0, addr := 0, desc := [] }
    twinOp { pc := 0, mask := 0 } { id := 0, left := 0, vals := [] }
  obtain ⟨-, -, -, -, -, -, h⟩ := h rfl
  obtain ⟨t, ht, g', hg, x, hx, -⟩ := h rfl rfl rfl rfl rfl rfl (by decide)
  rw [exec_remoteTimeout_twins] at ht
  cases ht
  cases hg.symm.trans twins_untrapped
  exact absurd hx List.not_mem_nil

end Sys2Proof.Machine
end

section
/-! # The dispatcher (O52)

A record, a workgroup and a grid each change a few fields of the state. The lemmas below say for the operations they share — lines used at a
slice, halves given back, writes that go to their homes — which fields those leave as they are, and then what each event answers. -/

namespace Sys2Proof.Machine

/-! ### A host line used at its slice -/

theorem mem_tabSet {α : Type} {t : Tab α} {n : Nat} {x : α} {p : Nat × α} (h : p ∈ tabSet t n x) : p = (n, x) ∨ p ∈ t := by
  induction t with
  | nil => simpa [tabSet] using h
  | cons q r ih =>
    unfold tabSet at h
    split at h
    · simpa using h
    · split at h
      · exact (List.mem_cons.1 h).imp id (List.mem_cons_of_mem _)
      · rcases List.mem_cons.1 h with rfl | h
        · exact .inr (.head _)
        · exact (ih h).imp id (List.mem_cons_of_mem _)

theorem tabGet_none_of_ne {α : Type} {t : Tab α} {n : Nat} (h : tabGet t n = none) {p : Nat × α} (hp : p ∈ t) : p.1 ≠ n := by
  induction t with
  | nil => cases hp
  | cons q r ih =>
    unfold tabGet at h
    split at h
    · cases h
    · next hne =>
      rcases List.mem_cons.1 hp with rfl | hp
      · exact hne
      · exact ih h hp

theorem victimOf_mem {α : Type} {clk : Nat} {l : List α} {x : α} (h : victimOf clk l = some x) : x ∈ l :=
  List.mem_of_mem_drop (List.mem_of_mem_head? h)

/-- Two states agree but for memory and the copies of its lines. -/
def State.OnlyLines (s t : State) : Prop :=
  { t with
    mem := s.mem, poison := s.poison, cells := s.cells, l2 := s.l2, metas := s.metas, homes := s.homes, sectors := s.sectors,
    fsectors := s.fsectors, remotes := s.remotes, dropexp := s.dropexp, filters := s.filters, l1 := s.l1, replicas := s.replicas,
    halves := s.halves } = s

theorem State.OnlyLines.refl (s : State) : s.OnlyLines s := rfl

theorem State.OnlyLines.trans {s t u : State} (h : s.OnlyLines t) (h' : t.OnlyLines u) : s.OnlyLines u := by
  unfold State.OnlyLines at *
  rw [← h'] at h
  exact h

/-- A fold of operations that only touch lines. -/
theorem State.OnlyLines.foldl {α : Type} {f : State → α → State} (hf : ∀ (s : State) x, s.OnlyLines (f s x)) (l : List α) (s : State) :
    s.OnlyLines (l.foldl f s) :=
  List.foldlRecOn (motive := fun t : State => s.OnlyLines t) l f (.refl s) fun t ht x _ => ht.trans (hf t x)

theorem State.OnlyLines.queues {s t : State} (h : s.OnlyLines t) : t.queues = s.queues := (congrArg State.queues h :)

theorem State.OnlyLines.cxl {s t : State} (h : s.OnlyLines t) : t.cxl = s.cxl := (congrArg State.cxl h :)

theorem State.OnlyLines.grids {s t : State} (h : s.OnlyLines t) : t.grids = s.grids := (congrArg State.grids h :)

theorem State.OnlyLines.groups {s t : State} (h : s.OnlyLines t) : t.groups = s.groups := (congrArg State.groups h :)

theorem State.OnlyLines.irqs {s t : State} (h : s.OnlyLines t) : t.irqs = s.irqs := (congrArg State.irqs h :)

theorem State.OnlyLines.recd {s t : State} (h : s.OnlyLines t) : t.recd = s.recd := (congrArg State.recd h :)

theorem State.OnlyLines.nextId {s t : State} (h : s.OnlyLines t) : t.nextId = s.nextId := (congrArg State.nextId h :)

theorem State.returnLine_only (s : State) (key : Nat) : s.OnlyLines (s.returnLine key) := by
  unfold State.returnLine; split <;> exact rfl

theorem State.touchMeta_only (s : State) (pa : Nat) (u : Nat × Nat) : s.OnlyLines (s.touchMeta pa u) := by
  unfold State.touchMeta; split <;> exact rfl

theorem State.takeBack_only (s : State) (d key : Nat) : s.OnlyLines (s.takeBack d key) := by
  unfold State.takeBack; dsimp only; split <;> exact rfl

theorem State.dropRemote_only (s : State) (d key : Nat) : s.OnlyLines (s.dropRemote d key) := by
  unfold State.dropRemote
  split
  · exact (s.takeBack_only d key).trans rfl
  · exact .refl s

theorem State.lineOut_only (s : State) (pa : Nat) : s.OnlyLines (s.lineOut pa) := by
  unfold State.lineOut
  split
  · exact .refl s
  · next l _ =>
    refine (s.returnLine_only (physKey pa)).trans ((State.touchMeta_only _ pa (l.at_ pa)).trans ?_)
    dsimp only
    split <;> exact rfl

theorem State.l2Drop_only (s : State) (o : L2Occ) : s.OnlyLines (s.l2Drop o) := by
  cases o with
  | line pa => exact s.lineOut_only pa
  | sector n => exact rfl
  | remote n => exact s.dropRemote_only _ _
  | replica n => exact rfl

theorem State.l2Fit_only (s : State) (u : Nat × Nat) (set n fuel : Nat) : s.OnlyLines (s.l2Fit u set n fuel) := by
  induction fuel generalizing s with
  | zero => exact .refl s
  | succ fuel ih =>
    unfold State.l2Fit
    dsimp only
    split
    · exact .refl s
    · split
      · exact (s.l2Drop_only _).trans (ih _)
      · exact .refl s

theorem State.poke_only (s : State) (pa : Nat) (data : List Byte) (pz : Bool) : s.OnlyLines (s.poke pa data pz) := by
  unfold State.poke; split <;> exact rfl

theorem State.bringIn_only (s : State) (pa : Nat) (l : L2Line) : s.OnlyLines (s.bringIn pa l) := by
  unfold State.bringIn
  refine (State.l2Fit_only s (l.at_ pa) (l2Set pa) (s.l2Limit (l.at_ pa).1 (l2Set pa) - 1) 16).trans ((State.touchMeta_only _ pa (l.at_ pa)).trans ?_)
  unfold State.l2Room
  generalize State.touchMeta _ pa (l.at_ pa) = u
  dsimp only
  split
  · exact .trans (t := { u with l2 := tabSet u.l2 pa l }) rfl (State.poke_only _ _ _ _)
  · exact rfl

theorem State.cacheHalves_only (s : State) (pa : Nat) : s.OnlyLines (s.cacheHalves pa) :=
  .foldl (fun s i => by dsimp only; split <;> exact rfl) _ _

theorem State.useLine_only (s : State) (pa : Nat) (dirty cmpr : Bool) (place : Option (Nat × Nat)) :
    s.OnlyLines (s.useLine pa dirty cmpr place) := by
  unfold State.useLine
  split
  · exact .refl s
  · refine .trans (t := if isHost pa then s.cacheHalves pa else s) (by split; exacts [s.cacheHalves_only pa, .refl s]) ?_
    generalize (if isHost pa = true then s.cacheHalves pa else s) = u
    dsimp only
    split
    · split
      · exact .trans (State.lineOut_only _ _) (State.bringIn_only _ _ _)
      · split <;> exact rfl
    · exact State.bringIn_only _ _ _

theorem State.touchL2_only (s : State) (key : Nat) (dirty cmpr : Bool) : s.OnlyLines (s.touchL2 key dirty cmpr) := by
  unfold State.touchL2
  split
  · exact .refl s
  · exact s.useLine_only _ _ _ _

theorem State.readLines_only (s : State) (pa n : Nat) : s.OnlyLines (s.readLines pa n) :=
  .foldl (fun s _ => s.touchL2_only _ _ _) _ _

theorem State.holdSeal_only (s : State) (q : Queue) : s.OnlyLines (s.holdSeal q) := by
  unfold State.holdSeal
  split
  · exact s.readLines_only _ _
  · exact .refl s

/-- Every line of L2 stands at the number of a line. -/
def State.L2Lines (s : State) : Prop := ∀ p ∈ s.l2, p.1 % 128 = 0 ∧ p.1 < 2 ^ 52

theorem State.L2Lines.of_sub {s t : State} (h : s.L2Lines) (hs : ∀ p ∈ t.l2, p ∈ s.l2) : t.L2Lines := fun p hp => h p (hs p hp)

@[simp] theorem State.returnLine_l2 (s : State) (key : Nat) : (s.returnLine key).l2 = s.l2 := by
  unfold State.returnLine; split <;> rfl

@[simp] theorem State.returnLine_halves (s : State) (key : Nat) : (s.returnLine key).halves = s.halves := by
  unfold State.returnLine; split <;> rfl

@[simp] theorem State.touchMeta_l2 (s : State) (pa : Nat) (u : Nat × Nat) : (s.touchMeta pa u).l2 = s.l2 := by
  unfold State.touchMeta; split <;> rfl

@[simp] theorem State.touchMeta_halves (s : State) (pa : Nat) (u : Nat × Nat) : (s.touchMeta pa u).halves = s.halves := by
  unfold State.touchMeta; split <;> rfl

@[simp] theorem State.poke_l2 (s : State) (pa : Nat) (data : List Byte) (pz : Bool) : (s.poke pa data pz).l2 = s.l2 := by
  unfold State.poke; split <;> rfl

@[simp] theorem State.poke_halves (s : State) (pa : Nat) (data : List Byte) (pz : Bool) : (s.poke pa data pz).halves = s.halves := by
  unfold State.poke; split <;> rfl

theorem State.dropRemote_frame (s : State) (d key : Nat) : (s.dropRemote d key).l2 = s.l2 ∧ (s.dropRemote d key).halves = s.halves := by
  grind [State.dropRemote, State.takeBack]

theorem State.lineOut_l2 (s : State) (p : Nat) : ∀ x ∈ (s.lineOut p).l2, x ∈ s.l2 := by
  grind [State.lineOut, State.returnLine_l2, State.touchMeta_l2, tabDel]

/-- What leaves a set of a slice stood in it. -/
theorem State.l2In_line {s : State} {u : Nat × Nat} {set p : Nat} (h : L2Occ.line p ∈ s.l2In u set) : ∃ l, (p, l) ∈ s.l2 := by
  simp only [State.l2In, List.mem_append, List.mem_map, reduceCtorEq, and_false, exists_false, or_false, L2Occ.line.injEq] at h
  obtain ⟨q, hq, rfl⟩ := h
  exact ⟨q.2, List.mem_of_mem_filter hq⟩

section
variable {pa : Nat} (ha : pa % 128 = 0) (hlo : 2 ^ 50 ≤ pa) (hhi : pa < 2 ^ 51) {i : Nat} (hi : i < 2)
include ha hlo hhi hi

/-- A line of L2 leaves the halves of a host line that is not in L2 as they are. -/
theorem State.l2Drop_halves {s : State} (hs : s.L2Lines) (hn : ∀ p ∈ s.l2, p.1 ≠ pa) {o : L2Occ}
    (ho : ∀ p, o = .line p → ∃ l, (p, l) ∈ s.l2) :
    (∀ x ∈ (s.l2Drop o).l2, x ∈ s.l2) ∧ tabGet (s.l2Drop o).halves (pa % 2 ^ 50 / 64 + i) = tabGet s.halves (pa % 2 ^ 50 / 64 + i) := by
  cases o with
  | line p =>
    obtain ⟨l, hl⟩ := ho p rfl
    have h1 := hs _ hl
    have h2 := hn _ hl
    refine ⟨s.lineOut_l2 p, ?_⟩
    change tabGet (s.lineOut p).halves _ = _
    unfold State.lineOut
    split
    · rfl
    · dsimp only
      split
      · next hp =>
        have hp : p / 2 ^ 50 % 4 = 1 := by simpa [isHost, bits] using hp
        rw [tabGet_tabDel, if_neg (by omega), tabGet_tabDel, if_neg (by omega), State.touchMeta_halves, State.returnLine_halves]
      · rw [State.touchMeta_halves, State.returnLine_halves]
  | sector n => exact ⟨fun _ h => h, rfl⟩
  | remote n => exact ⟨by simp [State.l2Drop, (s.dropRemote_frame _ _).1], by simp [State.l2Drop, (s.dropRemote_frame _ _).2]⟩
  | replica n => exact ⟨fun _ h => h, rfl⟩

theorem State.l2Fit_halves {s : State} (hs : s.L2Lines) (hn : ∀ p ∈ s.l2, p.1 ≠ pa) (u : Nat × Nat) (set n fuel : Nat) :
    (∀ x ∈ (s.l2Fit u set n fuel).l2, x ∈ s.l2) ∧
      tabGet (s.l2Fit u set n fuel).halves (pa % 2 ^ 50 / 64 + i) = tabGet s.halves (pa % 2 ^ 50 / 64 + i) := by
  induction fuel generalizing s with
  | zero => exact ⟨fun _ h => h, rfl⟩
  | succ fuel ih =>
    unfold State.l2Fit
    dsimp only
    split
    · exact ⟨fun _ h => h, rfl⟩
    · split
      · next o ho =>
        have hmem : o ∈ s.l2In u set := by
          have := victimOf_mem ho
          split at this
          · exact this
          · exact List.mem_of_mem_filter this
        obtain ⟨h1, h2⟩ := l2Drop_halves ha hlo hhi hi hs hn (o := o) fun p hp => l2In_line (hp ▸ hmem)
        obtain ⟨h3, h4⟩ := ih (hs.of_sub h1) fun p hp => hn p (h1 p hp)
        exact ⟨fun x hx => h1 x (h3 x hx), h4.trans h2⟩
      · exact ⟨fun _ h => h, rfl⟩

theorem State.bringIn_halves {s : State} (hs : s.L2Lines) (hn : ∀ p ∈ s.l2, p.1 ≠ pa) (l : L2Line) :
    (∀ x ∈ (s.bringIn pa l).l2, x = (pa, l) ∨ x ∈ s.l2) ∧ tabGet (s.bringIn pa l).l2 pa = some l ∧
      tabGet (s.bringIn pa l).halves (pa % 2 ^ 50 / 64 + i) = tabGet s.halves (pa % 2 ^ 50 / 64 + i) := by
  obtain ⟨h1, h2⟩ := l2Fit_halves ha hlo hhi hi hs hn (l.at_ pa) (l2Set pa) (s.l2Limit (l.at_ pa).1 (l2Set pa) - 1) 16
  unfold State.bringIn State.l2Room
  generalize hu : State.touchMeta _ pa (l.at_ pa) = u
  have hul : u.l2 = (s.l2Fit (l.at_ pa) (l2Set pa) (s.l2Limit (l.at_ pa).1 (l2Set pa) - 1) 16).l2 := by rw [← hu, touchMeta_l2]
  have huh : u.halves = (s.l2Fit (l.at_ pa) (l2Set pa) (s.l2Limit (l.at_ pa).1 (l2Set pa) - 1) 16).halves := by rw [← hu, touchMeta_halves]
  have hmem : ∀ x ∈ tabSet u.l2 pa l, x = (pa, l) ∨ x ∈ s.l2 := fun x hx => (mem_tabSet hx).imp id fun hx => h1 x (hul ▸ hx)
  dsimp only
  split
  · rw [poke_l2, poke_halves]
    exact ⟨hmem, by simp, by rw [huh, h2]⟩
  · exact ⟨hmem, by simp, by rw [huh, h2]⟩
end

/-- What a half is held as once its line is used: one that was not held is shared, else as it was. -/
def heldAs (h : Option Half) : Half := if h.getD .i = .i then .s else h.getD .i

theorem State.cacheHalves_l2 (s : State) (pa : Nat) : (s.cacheHalves pa).l2 = s.l2 := by
  unfold State.cacheHalves
  simp only [List.foldl_cons, List.foldl_nil]
  split <;> split <;> rfl

theorem State.shareHalf_halves (s : State) (n m : Nat) :
    tabGet (if tabD s.halves n .i = .i then { s with halves := tabSet s.halves n .s } else s).halves m =
      if n = m then some (heldAs (tabGet s.halves m)) else tabGet s.halves m := by
  unfold heldAs tabD
  by_cases hn : n = m
  · subst hn
    cases h : tabGet s.halves n with
    | none => simp
    | some x => cases x <;> simp [h]
  · split <;> simp [tabGet_tabSet, hn]

/-- A host line brought to its slice holds both its halves. -/
theorem State.cacheHalves_halves (s : State) {pa : Nat} (ha : pa % 128 = 0) {i : Nat} (hi : i < 2) :
    tabGet (s.cacheHalves pa).halves (pa % 2 ^ 50 / 64 + i) = some (heldAs (tabGet s.halves (pa % 2 ^ 50 / 64 + i))) := by
  have hn : pa / 128 * 2 % 2 ^ 44 = pa % 2 ^ 50 / 64 := by omega
  unfold State.cacheHalves
  simp only [List.foldl_cons, List.foldl_nil, hn, State.shareHalf_halves]
  obtain rfl | rfl : i = 0 ∨ i = 1 := by omega
  · simp
  · simp

/-- The line of a slice stands at its home. -/
def State.AtHome (s : State) (pa : Nat) : Prop := ∀ l, tabGet s.l2 pa = some l → l.place = none

section
variable {s : State} {pa : Nat} (ha : pa % 128 = 0) (hlo : 2 ^ 50 ≤ pa) (hhi : pa < 2 ^ 51) (hc : s.cxl = true)
  (hs : s.L2Lines) (hp : s.AtHome pa)
include ha hlo hhi hc hs hp

/-- A host line used at its home holds both its halves, and stays at its home. -/
theorem State.useLine_halves (dirty cmpr : Bool) : (s.useLine pa dirty cmpr none).L2Lines ∧ (s.useLine pa dirty cmpr none).AtHome pa ∧
    ∀ i < 2, tabGet (s.useLine pa dirty cmpr none).halves (pa % 2 ^ 50 / 64 + i) = some (heldAs (tabGet s.halves (pa % 2 ^ 50 / 64 + i))) := by
  have hhost : isHost pa = true := by simp [isHost, bits]; omega
  have hother : isOther pa = false := by simp [isOther, bits]; omega
  have hh := fun i (hi : i < 2) => s.cacheHalves_halves ha hi
  have hl := s.cacheHalves_l2 pa
  unfold State.useLine
  simp only [hhost, hother, hc, Bool.not_true, Bool.and_false, Bool.or_self, Bool.false_eq_true, if_false, if_true]
  generalize s.cacheHalves pa = u at hh hl ⊢
  split
  · next l hl' =>
    have hplace : l.place = none := hp l (hl ▸ hl')
    simp only [hplace, bne_self_eq_false, Bool.false_eq_true, if_false]
    split
    · exact ⟨fun x hx => hs x (hl ▸ hx), fun l' h => hp l' (hl ▸ h), hh⟩
    · refine ⟨fun x hx => ?_, fun l' h => ?_, hh⟩
      · rcases mem_tabSet hx with rfl | hx
        · exact ⟨ha, by omega⟩
        · exact hs x (hl ▸ hx)
      · rw [tabGet_tabSet_same] at h
        exact Option.some.inj h ▸ rfl
  · next hl' =>
    have hn : ∀ x ∈ u.l2, x.1 ≠ pa := fun x => tabGet_none_of_ne hl'
    have hu : u.L2Lines := fun x hx => hs x (hl ▸ hx)
    have hb := fun i (hi : i < 2) => bringIn_halves ha hlo hhi hi hu hn { dirty := dirty, cmpr := cmpr, place := none }
    obtain ⟨h1, h2, -⟩ := hb 0 (by omega)
    refine ⟨fun x hx => ?_, fun l' h => ?_, fun i hi => (hb i hi).2.2.trans (hh i hi)⟩
    · rcases h1 x hx with rfl | hx
      · exact ⟨ha, by omega⟩
      · exact hu x hx
    · rw [h2] at h
      exact Option.some.inj h ▸ rfl
end

theorem keyPa_physKey (pa : Nat) : keyPa (physKey pa) = pa / 128 * 128 := by unfold keyPa physKey; omega

theorem isCodecKey_physKey (pa : Nat) : isCodecKey (physKey pa) = false := by simp [isCodecKey, physKey]

theorem linesOf_one (pa : Nat) : linesOf pa 1 = [pa / 128 * 128] := by simp [linesOf, Nat.mul_comm]

theorem State.readLines_one (s : State) (pa : Nat) :
    s.readLines pa 1 = s.useLine (pa / 128 * 128) false (s.cmprMark (physKey (pa / 128 * 128))) none := by
  unfold State.readLines State.touchL2
  simp only [linesOf_one, List.foldl_cons, List.foldl_nil, isCodecKey_physKey, keyPa_physKey, Bool.false_eq_true, if_false]
  congr 1
  omega

section
variable {s : State} {h : Nat} (hh : h < 2 ^ 44) (hc : s.cxl = true) (hs : s.L2Lines) (hp : s.AtHome (keyPa (physKey (2 ^ 50 + 64 * h))))
include hh hc hs hp

/-- A dispatcher that holds the seal line of a queue's next slot holds its halves. -/
theorem State.holdSeal_halves {q : Queue} (hd : q.die ≠ none) (hq : physKey (q.slotPa q.prog + 255) = physKey (2 ^ 50 + 64 * h)) :
    (s.holdSeal q).L2Lines ∧ (s.holdSeal q).AtHome (keyPa (physKey (2 ^ 50 + 64 * h))) ∧
      tabGet (s.holdSeal q).halves h = some (heldAs (tabGet s.halves h)) := by
  have hd' : q.die.isSome = true := Option.isSome_iff_ne_none.2 hd
  have hline : (q.slotPa q.prog + 255) / 128 * 128 = (2 ^ 50 + 64 * h) / 128 * 128 := by unfold physKey at hq; omega
  unfold State.holdSeal
  simp only [hc, hd', Bool.and_self, if_true, State.readLines_one, hline, keyPa_physKey] at hp ⊢
  obtain ⟨h1, h2, h3⟩ := State.useLine_halves (pa := (2 ^ 50 + 64 * h) / 128 * 128) (by omega) (by omega) (by omega) hc hs hp false
    (s.cmprMark (physKey ((2 ^ 50 + 64 * h) / 128 * 128)))
  refine ⟨h1, h2, ?_⟩
  have := h3 (h % 2) (by omega)
  rwa [show (2 ^ 50 + 64 * h) / 128 * 128 % 2 ^ 50 / 64 + h % 2 = h by omega] at this

end

/-- A byte after an unpoisoned write. -/
theorem memGet_poke {s : State} (h : Memory.wf s.mem = true) (pa : Nat) (data : List Byte) (i : Nat) :
    memGet (s.poke pa data false).mem i = if pa ≤ i ∧ i < pa + data.length then data.getD (i - pa) 0 else memGet s.mem i := by
  split
  · next hi =>
    obtain ⟨j, rfl⟩ := Nat.exists_eq_add_of_le hi.1
    have hj : j < data.length := by omega
    rw [poke_inside h pa j data hj, Nat.add_sub_cancel_left, List.getD_eq_getElem _ _ hj]
  · exact poke_outside h pa i data (by omega)

/-! ### Launch records (R368–R370) -/

theorem exec_launchRecord_replayed_none {s : State} (hf : s.ev.flag = true) (hr : s.replayLaunch = none) : exec .launchRecord s = .next s := by
  show execLaunchRecord s = _
  simp only [execLaunchRecord, onEvent_next, hf, hr, if_true]

/-- The state in which a record is parsed: under CXL.cache its lines have been read. -/
def State.slotRead (s : State) (q : Queue) : State := if s.cxl then s.readLines (q.slotPa q.prog) 256 else s

theorem State.slotRead_only (s : State) (q : Queue) : s.OnlyLines (s.slotRead q) := by
  unfold State.slotRead
  split
  · exact s.readLines_only _ _
  · exact .refl s

theorem exec_launchRecord (s : State) (hf : s.ev.flag = false) : exec .launchRecord s = .next (
    if s.sealedQ s.ev.a (s.queueAt s.ev.a) then
      let t := (s.slotRead (s.queueAt s.ev.a)).consume s.ev.a (s.slotAddr s.ev.a (s.queueAt s.ev.a) (s.queueAt s.ev.a).prog)
        (s.slotBytes s.ev.a (s.queueAt s.ev.a) (s.queueAt s.ev.a).prog)
      t.holdSeal (t.queueAt s.ev.a)
    else s) := by
  show execLaunchRecord s = _
  simp only [execLaunchRecord, onEvent_next, hf, Bool.false_eq_true, if_false]
  rfl

theorem sealedQ_iff {s : State} (ha : s.recd.active = false) (a : Nat) (q : Queue) : s.sealedQ a q = true ↔
    q.die ≠ none ∧ s.coolant = true ∧ (tabD s.ctxs q.ctx {}).ending = false ∧ s.cmd.run ≠ some (0x0B, a + 1) ∧
      (s.cxl = true → s.readHeld (q.slotPa q.prog) 256 = false) ∧
      ((s.slotBytes a q q.prog).getD 255 0).toNat = q.prog / max q.nslot 1 % 255 + 1 := by
  simp only [State.sealedQ, State.recording, ha, State.leaving, sealOf, Bool.and_eq_true, Bool.not_eq_true', Bool.false_and, Bool.not_false, and_true,
    Option.isSome_iff_ne_none, beq_eq_false_iff_ne, beq_iff_eq, and_assoc, ne_eq, Bool.and_eq_false_iff]
  cases s.cxl <;> simp

/-- A grid as its record gives it, of its queue. -/
def Queue.gridOf (q : Queue) (a : Nat) (g : Grid) : Grid := { g with q := a, rec_ := q.prog, prio := q.prio, latency := q.latency }

section
variable {s : State} {a addr : Nat} {b : List Byte} (harm : s.recd.armed = false) (ha : s.recd.active = false)
include harm ha

theorem State.consume_accepted {g : Grid} (hp : s.parse ((s.queueAt a).die.getD 0) (s.queueAt a).ctx b none = .inl g) :
    s.consume a addr b = { s with
      queues := tabSet s.queues a { s.queueAt a with prog := (s.queueAt a).prog + 1 }, nextId := s.nextId + 1,
      grids := tabSet s.grids s.nextId ((s.queueAt a).gridOf a g) } := by
  have ht : s.trace (s.queueAt a).ctx 1 ((s.queueAt a).die.getD 0) (leBytes 8 a ++ leBytes 8 addr) = s := by
    simp [State.trace, State.recording, ha]
  unfold State.consume
  simp only [harm, Bool.false_and, Bool.false_eq_true, if_false, ht, hp]
  rfl

theorem State.consume_refused {reason : Nat} (hp : s.parse ((s.queueAt a).die.getD 0) (s.queueAt a).ctx b none = .inr reason) :
    s.consume a addr b = ({ s with
      irqs := s.irqs ++ [(s.queueAt a).vec], queues := tabSet s.queues a { s.queueAt a with
        prog := (s.queueAt a).prog + 1, err := (s.queueAt a).prog % 2 ^ 48 + reason * 2 ^ 48 } } : State).finish a (s.queueAt a).prog := by
  have ht : s.trace (s.queueAt a).ctx 1 ((s.queueAt a).die.getD 0) (leBytes 8 a ++ leBytes 8 addr) = s := by
    simp [State.trace, State.recording, ha]
  unfold State.consume
  simp only [harm, Bool.false_and, Bool.false_eq_true, if_false, ht, hp]
  rfl

end

/-- A queue with one more record that has retired or been refused. -/
def Queue.passed (q : Queue) (r : Nat) : Queue :=
  let d := advanceDone (q.fin ++ [r]).length q.done (q.fin ++ [r])
  { q with done := d.1, fin := d.2 }

/-- A record of a resident queue passes: modified halves go back. -/
theorem State.finish_resident {s : State} {a r : Nat} (hd : (s.queueAt a).die ≠ none) :
    s.finish a r = ({ s with queues := tabSet s.queues a ((s.queueAt a).passed r) } : State).giveBack a (s.queueAt a).done
      ((s.queueAt a).passed r).done := by
  have hd' : (s.queueAt a).die.isNone = false := Option.isNone_eq_false_iff.2 (Option.isSome_iff_ne_none.2 hd)
  unfold State.finish State.writeDone
  simp only [hd', Bool.false_eq_true, if_false]
  rfl

theorem Queue.passed_next {q : Queue} (hf : q.fin = []) : (q.passed q.done).done = q.done + 1 := by
  simp [Queue.passed, hf, advanceDone]

theorem Queue.passed_other {q : Queue} {r : Nat} (hf : q.fin = []) (h : r ≠ q.done) : (q.passed r).done = q.done := by
  simp [Queue.passed, hf, advanceDone, h.symm]

theorem State.queueAt_of_set {s : State} {t : Tab Queue} {a : Nat} {q : Queue} (h : s.queues = tabSet t a q) : s.queueAt a = q := by
  unfold State.queueAt; rw [h]; exact tabD_tabSet_same _ _ _ _

/-- Where a queue's next seal line is held. -/
def State.HoldsNext (s t : State) (a : Nat) : Prop :=
  let q := s.queueAt a
  let nextSeal := q.window + 256 * ((q.prog + 1) % max q.nslot 1) + 255
  s.cxl = true → nextSeal < 2 ^ 50 → keyed (s.slotRead q).l2 (fun x => x % 128 = 0 ∧ x < 2 ^ 52) →
    (s.slotRead q).AtHome (keyPa (physKey (2 ^ 50 + nextSeal))) → tabGet t.halves (nextSeal / 64) ≠ none

theorem State.holdSeal_next {s u : State} {a : Nat} (hc : u.cxl = s.cxl) (hl : u.l2 = (s.slotRead (s.queueAt a)).l2)
    (hd : (s.queueAt a).die ≠ none) {q : Queue} (hq : q.die = (s.queueAt a).die) (hw : q.window = (s.queueAt a).window)
    (hn : q.nslot = (s.queueAt a).nslot) (hp : q.prog = (s.queueAt a).prog + 1) : s.HoldsNext (u.holdSeal q) a := by
  have hnext : ∀ x, q.slotPa q.prog + 255 = 2 ^ 50 + x → x < 2 ^ 50 → s.cxl = true →
      keyed (s.slotRead (s.queueAt a)).l2 (fun x => x % 128 = 0 ∧ x < 2 ^ 52) →
      (s.slotRead (s.queueAt a)).AtHome (keyPa (physKey (2 ^ 50 + x))) → tabGet (u.holdSeal q).halves (x / 64) ≠ none := by
    intro x hslot hlt hcxl hk hat
    have hkey : physKey (2 ^ 50 + x) = physKey (2 ^ 50 + 64 * (x / 64)) := by unfold physKey; omega
    rw [hkey] at hat
    have := State.holdSeal_halves (s := u) (h := x / 64) (by omega) (hc.trans hcxl) (fun p hp => hk.2 p (hl ▸ hp)) (fun l h => hat l (hl ▸ h))
      (q := q) (hq ▸ hd) (by rw [hslot, hkey])
    rw [this.2.2]
    exact nofun
  exact fun hcxl hlt => hnext _ (by unfold Queue.slotPa; rw [hw, hn, hp]; omega) hlt hcxl

theorem State.holdSeal_of_pcie {s : State} (h : s.cxl = false) (q : Queue) : s.holdSeal q = s := by simp [State.holdSeal, h]

theorem exec_launchRecord_unsealed {s : State} (hf : s.ev.flag = false) (hs : s.sealedQ s.ev.a (s.queueAt s.ev.a) = false) :
    exec .launchRecord s = .next s := by
  rw [exec_launchRecord s hf, hs]; rfl

section
variable {s : State} (hf : s.ev.flag = false) (harm : s.recd.armed = false) (ha : s.recd.active = false)
  (hs : s.sealedQ s.ev.a (s.queueAt s.ev.a) = true)
include hf ha harm hs

/-- A record that parses becomes a grid of its queue. -/
theorem exec_launchRecord_accepted {gr : Grid}
    (hp : (s.slotRead (s.queueAt s.ev.a)).parse ((s.queueAt s.ev.a).die.getD 0) (s.queueAt s.ev.a).ctx
      (s.slotBytes s.ev.a (s.queueAt s.ev.a) (s.queueAt s.ev.a).prog) none = .inl gr) :
    s.does .launchRecord fun t =>
      t.queues = tabSet s.queues s.ev.a { s.queueAt s.ev.a with prog := (s.queueAt s.ev.a).prog + 1 } ∧
        t.grids = tabSet s.grids s.nextId ((s.queueAt s.ev.a).gridOf s.ev.a gr) ∧ t.irqs = s.irqs ∧ t.groups = s.groups ∧
        s.HoldsNext t s.ev.a ∧ (s.cxl = false → { t with grids := s.grids, queues := s.queues, nextId := s.nextId } = s) := by
  have hdie : (s.queueAt s.ev.a).die ≠ none := ((sealedQ_iff ha _ _).1 hs).1
  have ho := s.slotRead_only (s.queueAt s.ev.a)
  have hq : (s.slotRead (s.queueAt s.ev.a)).queueAt s.ev.a = s.queueAt s.ev.a := congrArg (fun t => tabD t s.ev.a _) ho.queues
  have hres := exec_launchRecord s hf
  rw [hs, if_pos rfl, State.consume_accepted (g := gr) (ho.recd ▸ harm) (ho.recd ▸ ha) (by rw [hq]; exact hp), hq, ho.queues, ho.grids,
    ho.nextId] at hres
  dsimp only at hres
  generalize hu : State.mk .. = u at hres
  have huq : u.queues = tabSet s.queues s.ev.a { s.queueAt s.ev.a with prog := (s.queueAt s.ev.a).prog + 1 } := by rw [← hu]
  have hug : u.grids = tabSet s.grids s.nextId ((s.queueAt s.ev.a).gridOf s.ev.a gr) := by rw [← hu]
  have hul : u.l2 = (s.slotRead (s.queueAt s.ev.a)).l2 := by rw [← hu]
  rw [State.queueAt_of_set huq] at hres
  have hseal := u.holdSeal_only { s.queueAt s.ev.a with prog := (s.queueAt s.ev.a).prog + 1 }
  refine ⟨_, hres, hseal.queues.trans huq, hseal.grids.trans hug, ?_, ?_, ?_, ?_⟩
  · rw [hseal.irqs, ← hu, ← ho.irqs]
  · rw [hseal.groups, ← hu, ← ho.groups]
  · exact State.holdSeal_next (by rw [← hu]; exact ho.cxl) hul hdie rfl rfl rfl rfl
  · intro hc
    have hr : s.slotRead (s.queueAt s.ev.a) = s := by simp [State.slotRead, hc]
    have huc : u.cxl = false := by rw [← hu]; exact ho.cxl.trans hc
    rw [State.holdSeal_of_pcie huc, ← hu, hr]

/-- A record that is refused leaves its reason in its queue's ERR, and raises the queue's interrupt. -/
theorem exec_launchRecord_refused {reason : Nat}
    (hp : (s.slotRead (s.queueAt s.ev.a)).parse ((s.queueAt s.ev.a).die.getD 0) (s.queueAt s.ev.a).ctx
      (s.slotBytes s.ev.a (s.queueAt s.ev.a) (s.queueAt s.ev.a).prog) none = .inr reason) :
    s.does .launchRecord fun t => t.grids = s.grids ∧ t.irqs = s.irqs ++ [(s.queueAt s.ev.a).vec] ∧ s.HoldsNext t s.ev.a ∧
      (t.queueAt s.ev.a).prog = (s.queueAt s.ev.a).prog + 1 ∧
      (t.queueAt s.ev.a).err = (s.queueAt s.ev.a).prog % 2 ^ 48 + reason * 2 ^ 48 ∧
      ((s.queueAt s.ev.a).done = (s.queueAt s.ev.a).prog → (s.queueAt s.ev.a).fin = [] →
        (t.queueAt s.ev.a).done = (s.queueAt s.ev.a).prog + 1) := by
  have hdie : (s.queueAt s.ev.a).die ≠ none := ((sealedQ_iff ha _ _).1 hs).1
  have ho := s.slotRead_only (s.queueAt s.ev.a)
  have hq : (s.slotRead (s.queueAt s.ev.a)).queueAt s.ev.a = s.queueAt s.ev.a := congrArg (fun t => tabD t s.ev.a _) ho.queues
  have hres := exec_launchRecord s hf
  rw [hs, if_pos rfl, State.consume_refused (reason := reason) (ho.recd ▸ harm) (ho.recd ▸ ha) (by rw [hq]; exact hp), hq] at hres
  generalize hv : State.mk .. = v at hres
  have hvq : v.queueAt s.ev.a = { s.queueAt s.ev.a with
      prog := (s.queueAt s.ev.a).prog + 1, err := (s.queueAt s.ev.a).prog % 2 ^ 48 + reason * 2 ^ 48 } :=
    State.queueAt_of_set (t := (s.slotRead (s.queueAt s.ev.a)).queues) (by rw [← hv])
  rw [State.finish_resident (by rw [hvq]; exact hdie), State.giveBack] at hres
  dsimp only at hres
  generalize hu : State.mk .. = u at hres
  generalize hy : (v.queueAt s.ev.a).passed (s.queueAt s.ev.a).prog = y at hu
  have huq : u.queueAt s.ev.a = y := State.queueAt_of_set (t := v.queues) (by rw [← hu])
  have hseal := u.holdSeal_only (u.queueAt s.ev.a)
  have htq : (u.holdSeal (u.queueAt s.ev.a)).queueAt s.ev.a = y := (congrArg (fun t => tabD t s.ev.a _) hseal.queues).trans huq
  refine ⟨_, hres, ?_, ?_, ?_, ?_, ?_, fun hdone hfinl => ?_⟩
  · rw [hseal.grids, ← hu, ← hv]; exact ho.grids
  · rw [hseal.irqs, ← hu, ← hv, ho.irqs]
  · rw [huq]
    refine State.holdSeal_next ?_ ?_ hdie ?_ ?_ ?_ ?_
    · rw [← hu, ← hv]; exact ho.cxl
    · rw [← hu, ← hv]
    all_goals rw [← hy, hvq]; rfl
  · rw [htq, ← hy, hvq]; rfl
  · rw [htq, ← hy, hvq]; rfl
  · rw [htq, ← hy, hvq, ← hdone]
    exact Queue.passed_next hfinl
end

/-! ### Writes of a queue's window (R27, R322) -/

theorem exec_queueSealWrite_recovery {s : State} (hc : s.cxl = false) (hr : s.recovery = true) : exec .queueSealWrite s = .next s := by
  show execQueueSealWrite s = _
  simp only [execQueueSealWrite, onEvent_next, hc, hr, Bool.false_eq_true, if_false, if_true]

theorem exec_queueSealWrite_pcie {s : State} (hc : s.cxl = false) (hr : s.recovery = false) (ha : s.recd.active = false) :
    exec .queueSealWrite s = .next { s with bar2 := tabPut s.bar2 (s.ev.a * 2 ^ 20 + s.ev.b) s.ev.data } := by
  show execQueueSealWrite s = _
  simp only [execQueueSealWrite, onEvent_next, hc, hr, Bool.false_eq_true, if_false, State.bar2Store, State.traceDatum, ha, Bool.false_and]

/-- Numbers that are all one, each kept once. -/
theorem addOnce_same {l : List Nat} {h : Nat} (hl : ∀ x ∈ l, x = h) : l.foldl addOnce [h] = [h] := by
  induction l with
  | nil => rfl
  | cons x r ih =>
    obtain rfl := hl x (.head _)
    rw [List.foldl_cons, show addOnce [x] x = [x] by simp [addOnce]]
    exact ih fun y hy => hl y (.tail _ hy)

theorem enumFrom_fst {α : Type} (l : List α) (n : Nat) : ∀ p ∈ enumFrom n l, n ≤ p.1 ∧ p.1 < n + l.length := by
  induction l generalizing n with
  | nil => intro p hp; cases hp
  | cons x r ih =>
    intro p hp
    rw [List.length_cons]
    rcases List.mem_cons.1 hp with rfl | hp
    · exact ⟨Nat.le_refl _, by omega⟩
    · have := ih (n + 1) p hp
      omega

/-- The halves that bytes within one half touch. -/
theorem halvesOf_one {off : Nat} {b : List Byte} (hb : b ≠ []) (hl : off % 64 + b.length ≤ 64) :
    ((enumFrom off b).map fun p => p.1 / 64).foldl addOnce [] = [off / 64] := by
  obtain ⟨x, r, rfl⟩ := List.exists_cons_of_ne_nil hb
  rw [List.length_cons] at hl
  rw [enumFrom, List.map_cons, List.foldl_cons, show addOnce [] (off / 64) = [off / 64] from rfl]
  refine addOnce_same fun y hy => ?_
  obtain ⟨p, hp, rfl⟩ := List.mem_map.1 hy
  have := enumFrom_fst r (off + 1) p hp
  omega

/-- Bytes the host writes within one half. -/
theorem State.hostStore_one {s : State} {off : Nat} {b : List Byte} (hb : b ≠ []) (hl : off % 64 + b.length ≤ 64) : s.hostStore off b =
    if (tabGet s.halves (off / 64)).isSome || s.now < (s.home (halfKey (off / 64))).exp then
      { s with snoops := s.snoops ++ [{ half := off / 64, inv := true, data := some b, off := off % 64 }] }
    else s.poke (2 ^ 50 + off) b false := by
  have hstart : max off (64 * (off / 64)) = off := by omega
  have htake : b.take (64 * (off / 64) + 64 - off) = b := List.take_of_length_le (by omega)
  have hoff : off - 64 * (off / 64) = off % 64 := by omega
  unfold State.hostStore
  simp only [halvesOf_one hb hl, List.foldl_cons, List.foldl_nil, hstart, Nat.sub_self, List.drop_zero, htake, hoff]

section
variable {s : State} {off : Nat} (hoff : (s.queueAt s.ev.a).window + s.ev.b = off) (hc : s.cxl = true) (hb : s.ev.data ≠ [])
  (hl : off % 64 + s.ev.data.length ≤ 64)
include hoff hc hb hl

theorem exec_queueSealWrite_cxl : exec .queueSealWrite s = .next (
    if (tabGet s.halves (off / 64)).isSome || s.now < (s.home (halfKey (off / 64))).exp then
      { s with snoops := s.snoops ++ [{ half := off / 64, inv := true, data := some s.ev.data, off := off % 64 }] }
    else s.poke (2 ^ 50 + off) s.ev.data false) := by
  show execQueueSealWrite s = _
  simp only [execQueueSealWrite, onEvent_next, hc, if_true, hoff, State.hostStore_one hb hl]

theorem exec_queueSealWrite_snoops (h : tabGet s.halves (off / 64) ≠ none ∨ s.now < (s.home (halfKey (off / 64))).exp) :
    exec .queueSealWrite s = .next { s with
      snoops := s.snoops ++ [{ half := off / 64, inv := true, data := some s.ev.data, off := off % 64 }] } := by
  rw [exec_queueSealWrite_cxl hoff hc hb hl, if_pos]
  rw [Bool.or_eq_true, Option.isSome_iff_ne_none, decide_eq_true_eq]
  exact h

theorem exec_queueSealWrite_writes (hm : Memory.wf s.mem = true) (hh : tabGet s.halves (off / 64) = none)
    (he : (s.home (halfKey (off / 64))).exp ≤ s.now) :
    s.does .queueSealWrite fun t => { t with mem := s.mem, poison := s.poison } = s ∧ ∀ i, memGet t.mem i =
      if 2 ^ 50 + off ≤ i ∧ i < 2 ^ 50 + off + s.ev.data.length then s.ev.data.getD (i - (2 ^ 50 + off)) 0 else memGet s.mem i := by
  have hres := exec_queueSealWrite_cxl hoff hc hb hl
  rw [if_neg] at hres
  · exact ⟨_, hres, rfl, memGet_poke hm _ _⟩
  · rw [Bool.or_eq_true, Option.isSome_iff_ne_none, decide_eq_true_eq, not_or, not_not]
    exact ⟨hh, by omega⟩
end

/-! ### Placement (R24, R36, R371) -/

theorem State.gridAt_of {s : State} {a : Nat} {gr : Grid} (h : tabGet s.grids a = some gr) : s.gridAt a = gr := by
  simp [State.gridAt, tabD, h]

theorem pick_mem {α : Type} {first : Bool} {stamp : Nat} {l : List α} {x : α} (h : pick first stamp l = some x) : x ∈ l := by
  unfold pick at h
  split at h
  · cases h
  · cases h; exact List.mem_singleton_self _
  · next y r _ =>
    split at h
    · cases h; exact .head _
    · cases h
      generalize hd : (y :: r).drop _ = d
      cases d with
      | nil => exact .head _
      | cons z d => exact List.mem_of_mem_drop (hd ▸ List.mem_cons_self)

theorem pick_some {α : Type} (first : Bool) (stamp : Nat) {l : List α} (h : l ≠ []) : ∃ x, pick first stamp l = some x := by
  unfold pick
  split
  · contradiction
  · exact ⟨_, rfl⟩
  · split <;> exact ⟨_, rfl⟩

theorem foldl_min_zero (l : List Nat) : l.foldl min 0 = 0 := by
  induction l with
  | nil => rfl
  | cons x r ih => rw [List.foldl_cons, Nat.zero_min, ih]

theorem sumOf_ne_zero {l : List Nat} (h : sumOf l ≠ 0) : ∃ x ∈ l, x ≠ 0 := by
  by_contra hn
  push Not at hn
  refine h (List.foldlRecOn (motive := fun t => t = 0) l _ rfl fun t ht x hx => ?_)
  rw [ht, hn x hx]

/-- A hearth with room for a workgroup has room for a group in one of its partitions. -/
theorem State.partRoom_of_room {s : State} {h : Nat} {f : Nat → Bool} {g : Grid} (hr : s.room h f g ≠ 0) :
    ∃ p < 4, s.partRoom h p f g.kern ≠ 0 := by
  have hs : sumOf ((List.range 4).map fun p => s.partRoom h p f g.kern) ≠ 0 := fun h0 => by
    refine hr ?_
    unfold State.room State.wgRoom
    rw [h0, Nat.zero_div]
    exact foldl_min_zero _
  obtain ⟨x, hx, hne⟩ := sumOf_ne_zero hs
  obtain ⟨p, hp, rfl⟩ := List.mem_map.1 hx
  exact ⟨p, List.mem_range.1 hp, hne⟩

theorem mem_of_tabGet {α : Type} {t : Tab α} {n : Nat} (h : (tabGet t n).isSome) : ∃ x, (n, x) ∈ t := by
  obtain ⟨x, hx⟩ := Option.isSome_iff_exists.1 h
  exact ⟨x, tabGet_mem hx⟩

/-- A partition with room for a group has a free slot. -/
theorem State.freeSlots_ne_nil {s : State} {h p : Nat} {f : Nat → Bool} (hf : f = fun _ => true) {k : Kern} (hr : s.partRoom h p f k ≠ 0) :
    s.freeSlots h p ≠ [] := by
  subst hf
  intro hnil
  have hlen : (s.partGroups h p fun _ => true).length < 32 := by
    by_contra hfull
    have hzero : 32 - (s.partGroups h p fun _ => true).length = 0 := by omega
    unfold State.partRoom at hr
    simp only [hzero, Nat.zero_min, ne_eq, not_true_eq_false] at hr
  have hsub : (List.range 32).map (· + (128 * h + 32 * p)) ⊆ (s.groups.filter fun x => x.1 / 32 == 4 * h + p).map (·.1) := by
    intro n hn
    obtain ⟨i, hi, rfl⟩ := List.mem_map.1 hn
    have hi := List.mem_range.1 hi
    have hfree : i + 32 * p ∉ s.freeSlots h p := by simp [hnil]
    unfold State.freeSlots at hfree
    rw [List.mem_filter, not_and] at hfree
    have hsome := hfree (List.mem_map_of_mem (List.mem_range.2 hi))
    rw [Bool.not_eq_true, Option.isNone_eq_false_iff] at hsome
    obtain ⟨x, hx⟩ := mem_of_tabGet hsome
    refine List.mem_map.2 ⟨_, List.mem_filter.2 ⟨hx, ?_⟩, by dsimp only; omega⟩
    rw [beq_iff_eq]
    omega
  have hnd : ((List.range 32).map (· + (128 * h + 32 * p))).Nodup := List.Nodup.map (add_left_injective _) List.nodup_range
  have := (List.subperm_of_subset hnd hsub).length_le
  simp only [List.length_map, List.length_range] at this
  have heq : (s.partGroups h p fun _ => true).length = (s.groups.filter fun x => x.1 / 32 == 4 * h + p).length := by
    simp [State.partGroups]
  omega

theorem mem_freeSlots {s : State} {h p n : Nat} (hn : n ∈ s.freeSlots h p) : 32 * p ≤ n ∧ n < 32 * p + 32 ∧ s.grp (128 * h + n) = none := by
  unfold State.freeSlots at hn
  obtain ⟨hn, hg⟩ := List.mem_filter.1 hn
  obtain ⟨i, hi, rfl⟩ := List.mem_map.1 hn
  have hi := List.mem_range.1 hi
  exact ⟨by omega, by omega, Option.isNone_iff_eq_none.1 hg⟩

/-- The one group of a workgroup takes a free slot of its hearth. -/
theorem State.seat_one {s : State} {g : Grid} {h : Nat} (hr : ∃ p < 4, s.partRoom h p (fun _ => true) g.kern ≠ 0) (gid wg pb : Nat) :
    ∃ n < 128, s.grp (128 * h + n) = none ∧ s.seat gid g wg h 0 [pb] = { s with
      wgs := tabMod s.wgs wg fun w => { w with slots := w.slots ++ [n] },
      groups := tabSet s.groups (128 * h + n) (newGroup g wg 0 pb s.free s.clk) } := by
  obtain ⟨p0, hp0, hroom⟩ := hr
  have hparts : (List.range 4).filter (fun p => s.partRoom h p (fun _ => true) g.kern != 0) ≠ [] :=
    List.ne_nil_of_mem (List.mem_filter.2 ⟨List.mem_range.2 hp0, by simpa using hroom⟩)
  obtain ⟨p, hp⟩ := pick_some (s.recording g.ctx) (s.free + 2 * 0) hparts
  obtain ⟨hp4, hproom⟩ := List.mem_filter.1 (pick_mem hp)
  obtain ⟨n, hn⟩ := pick_some (s.recording g.ctx) (s.free + 2 * 0 + 1) (s.freeSlots_ne_nil (h := h) (p := p) rfl (by simpa using hproom))
  obtain ⟨hlo, hhi, hfree⟩ := mem_freeSlots (pick_mem hn)
  have hp4 := List.mem_range.1 hp4
  refine ⟨n, by omega, hfree, ?_⟩
  unfold State.seat
  simp only [hp, hn]
  rfl

theorem State.l2Trim_only (s : State) (d : Nat) : s.OnlyLines (s.l2Trim d) :=
  .foldl (fun s _ => s.l2Fit_only _ _ _ _) _ _

theorem State.OnlyLines.wgs {s t : State} (h : s.OnlyLines t) : t.wgs = s.wgs := (congrArg State.wgs h :)

/-- A table filled from a list of values, from one number up. -/
theorem tabD_foldl_enumFrom {α β : Type} (f : α → β) (d : β) (l : List α) (n : Nat) (t : Tab β) (i : Nat) :
    tabD ((enumFrom n l).foldl (fun t a => tabSet t a.1 (f a.2)) t) i d =
      if n ≤ i then (l[i - n]?.map f).getD (tabD t i d) else tabD t i d := by
  induction l generalizing n t with
  | nil => simp [enumFrom]
  | cons x r ih =>
    rw [enumFrom, List.foldl_cons, ih]
    have hset : tabD (tabSet t n (f x)) i d = if n = i then f x else tabD t i d := by
      unfold tabD
      rw [tabGet_tabSet]
      split <;> rfl
    rw [hset]
    by_cases hlt : n < i
    · obtain ⟨k, rfl⟩ := Nat.exists_eq_add_of_lt hlt
      rw [if_pos (show n + 1 ≤ n + k + 1 by omega), if_neg (show n ≠ n + k + 1 by omega), if_pos (show n ≤ n + k + 1 by omega),
        show n + k + 1 - n = k + 1 by omega, show n + k + 1 - (n + 1) = k by omega, List.getElem?_cons_succ]
    · by_cases heq : n = i
      · subst heq
        simp
      · rw [if_neg (by omega), if_neg heq, if_neg (by omega)]

section
variable (g : Grid) (wg gidx pb stamp clk : Nat)

/-- A new group's MODE has its bit 0, and bit 9 where its kernel is checked. -/
theorem newGroup_mode {i : Nat} (hi : i < 32) :
    (newGroup g wg gidx pb stamp clk).mode.getLsbD i = (decide (i = 0) || (decide (i = 9) && g.kern.checked)) := by
  unfold newGroup
  dsimp only
  cases g.kern.checked
  · revert i
    decide
  · revert i
    decide

/-- A new group's arguments stand in its scalar registers from s1 up. -/
theorem newGroup_args (h : g.args.length = 8) :
    (∀ i < 8, (newGroup g wg gidx pb stamp clk).sGet (1 + i) = ⟨g.args.getD i 0, false⟩) ∧
      ∀ i, 9 ≤ i → (newGroup g wg gidx pb stamp clk).sGet i = {} := by
  have hread := tabD_foldl_enumFrom (fun a => ({ val := a } : SReg)) {} g.args 1 []
  refine ⟨fun i hi => ?_, fun i hi => ?_⟩
  · unfold Group.sGet newGroup
    rw [if_neg (by omega), hread, if_pos (by omega), Nat.add_sub_cancel_left, List.getElem?_eq_getElem (by omega)]
    rw [List.getD_eq_getElem _ _ (by omega)]
    rfl
  · unfold Group.sGet newGroup
    rw [if_neg (by omega), hread, if_pos (by omega), List.getElem?_eq_none (by omega)]
    rfl
end

theorem exec_workgroupPlacement (s : State) : exec .workgroupPlacement s = .next ((s.placeGrid s.ev.a).getD s) := rfl

theorem exec_workgroupPlacement_waits {s : State} {gr : Grid} (hg : tabGet s.grids s.ev.a = some gr) (h : s.mayPlace s.ev.a gr = false) :
    exec .workgroupPlacement s = .next s := by
  rw [exec_workgroupPlacement]
  simp only [State.placeGrid, State.gridAt_of hg, h, Bool.false_eq_true, if_false, Option.getD_none]

/-- A hearth of the grid's context that a workgroup of it fits on. -/
def State.Fits (s : State) (gr : Grid) (h : Nat) : Prop :=
  h < 144 ∧ (tabD s.ctxs gr.ctx {}).hset.getLsbD h = true ∧ s.kept h = false ∧ s.room h (fun _ => true) gr ≠ 0

/-- The hearths a workgroup of a grid may be placed on. -/
def State.fitting (s : State) (gr : Grid) : List Nat :=
  (tabD s.ctxs gr.ctx {}).hearths.filter fun h => !s.kept h && s.room h (fun _ => true) gr != 0

theorem State.mem_fitting {s : State} {gr : Grid} {h : Nat} : h ∈ s.fitting gr ↔ s.Fits gr h := by
  simp only [State.fitting, State.Fits, Ctx.hearths, List.mem_filter, List.mem_range, Bool.and_eq_true, Bool.not_eq_true', bne_iff_ne, ne_eq,
    and_assoc]

section
variable {s : State} {a : Nat} {gr : Grid} (hg : tabGet s.grids a = some gr)
include hg

theorem State.placeNext_eq : s.placeNext a =
    match s.takeAreas gr.ctx gr.kern.area gr.ngrp (s.areas gr.ctx), pick (s.recording gr.ctx) s.free (s.fitting gr) with
    | some pbs, some h => some (s.stamp.placeOn a gr h pbs)
    | _, _ => none := by
  unfold State.placeNext
  rw [State.gridAt_of hg]
  rfl

/-- A grid that is placed one workgroup at a time. -/
theorem State.placeGrid_next (hm : s.mayPlace a gr = true) (hcores : gr.cores = false) (hclean : gr.cleaned = true) :
    s.placeGrid a = s.placeNext a := by
  have hc : s.clean a = s := by simp only [State.clean, State.gridAt_of hg, hclean, if_true]
  simp only [State.placeGrid, State.gridAt_of hg, hm, hc, hcores, if_true, Bool.false_eq_true, if_false]

theorem State.placeNext_none (h : ∀ h, ¬ s.Fits gr h) : s.placeNext a = none := by
  have hnil : s.fitting gr = [] := List.eq_nil_iff_forall_not_mem.2 fun x hx => h x (mem_fitting.1 hx)
  rw [placeNext_eq hg, hnil, show pick _ _ ([] : List Nat) = none from rfl]
  cases s.takeAreas gr.ctx gr.kern.area gr.ngrp (s.areas gr.ctx) <;> rfl

theorem State.placeNext_some {pbs : List Nat} (ht : s.takeAreas gr.ctx gr.kern.area gr.ngrp (s.areas gr.ctx) = some pbs)
    (h : ∃ h, s.Fits gr h) : ∃ h, s.Fits gr h ∧ s.placeNext a = some (s.stamp.placeOn a gr h pbs) := by
  obtain ⟨h0, hfit⟩ := h
  obtain ⟨h, hp⟩ := pick_some (s.recording gr.ctx) s.free (List.ne_nil_of_mem (mem_fitting.2 hfit))
  exact ⟨h, mem_fitting.1 (pick_mem hp), by rw [placeNext_eq hg, ht, hp]⟩
end

/-- A workgroup of one group placed on a hearth: a row of the table of workgroups, and its group in a free slot. -/
def State.Seated (s t : State) (a h : Nat) (gr : Grid) (pb : Nat) : Prop :=
  tabGet t.grids a = some { gr with next := gr.next + 1, live := gr.live + 1 } ∧
    ∃ n w stamp clk, n < 128 ∧ s.grp (128 * h + n) = none ∧ t.groups = tabSet s.groups (128 * h + n) (newGroup gr s.nextId 0 pb stamp clk) ∧
      tabGet t.wgs s.nextId = some w ∧ w.grid = a ∧ w.hearth = h ∧ w.slots = [n] ∧ w.ix = gr.next % gr.gx ∧
      w.iy = gr.next / gr.gx % gr.gy ∧ w.iz = gr.next / (gr.gx * gr.gy)

theorem State.Seated.of_lines {s t u : State} {a h : Nat} {gr : Grid} {pb : Nat} (ht : s.Seated t a h gr pb) (hu : t.OnlyLines u) :
    s.Seated u a h gr pb := by
  unfold State.Seated at *
  rwa [hu.grids, hu.groups, hu.wgs]

theorem State.placeOn_one {s : State} {gr : Grid} {h : Nat} (hr : s.room h (fun _ => true) gr ≠ 0) (a pb : Nat) :
    s.Seated (s.stamp.placeOn a gr h [pb]) a h gr pb := by
  unfold State.placeOn
  dsimp only
  generalize hw : Wg.mk .. = w
  generalize hv : ({ s.stamp.newId with
    wgs := tabSet s.stamp.wgs s.stamp.nextId w,
    grids := tabSet s.stamp.grids a { gr with next := gr.next + 1, live := gr.live + 1 } } : State) = v
  have hvg : v.groups = s.groups := by rw [← hv]; rfl
  have hroom : ∃ p < 4, v.partRoom h p (fun _ => true) gr.kern ≠ 0 := by
    have := partRoom_of_room hr
    unfold State.partRoom State.partGroups at *
    rwa [hvg]
  obtain ⟨n, hn, hfree, hseat⟩ := seat_one hroom a s.nextId pb
  rw [show s.stamp.nextId = s.nextId from rfl, hseat]
  have hseated : s.Seated { v with
      wgs := tabMod v.wgs s.nextId fun w => { w with slots := w.slots ++ [n] },
      groups := tabSet v.groups (128 * h + n) (newGroup gr s.nextId 0 pb v.free v.clk), free := s.stamp.free + 2 * gr.ngrp + 1 } a h gr pb := by
    refine ⟨?_, n, { w with slots := w.slots ++ [n] }, v.free, v.clk, hn, ?_, by rw [hvg], ?_, ?_⟩
    · rw [← hv]; exact tabGet_tabSet_same _ _ _
    · unfold State.grp at hfree ⊢; rwa [← hvg]
    · rw [← hv]
      show tabGet (tabMod (tabSet s.wgs s.nextId w) s.nextId _) s.nextId = _
      simp [tabMod]
    · rw [← hw]
      exact ⟨rfl, rfl, rfl, rfl, rfl, rfl⟩
  split
  · exact hseated.of_lines (State.l2Trim_only _ _)
  · exact hseated

section
variable {s : State} {gr : Grid} (hg : tabGet s.grids s.ev.a = some gr) (hm : s.mayPlace s.ev.a gr = true) (hcores : gr.cores = false)
  (hclean : gr.cleaned = true)
include hg hm hcores hclean

theorem exec_workgroupPlacement_none (h : ∀ h, ¬ s.Fits gr h) : exec .workgroupPlacement s = .next s := by
  rw [exec_workgroupPlacement, State.placeGrid_next hg hm hcores hclean, State.placeNext_none hg h, Option.getD_none]

/-- A workgroup of one group goes to a hearth that it fits on; memory stays as it is. -/
theorem exec_workgroupPlacement_one {pb : Nat} (hone : gr.ngrp = 1)
    (ht : s.takeAreas gr.ctx gr.kern.area 1 (s.areas gr.ctx) = some [pb]) (h : ∃ h, s.Fits gr h) :
    s.does .workgroupPlacement fun t => t.mem = s.mem ∧ ∃ h, s.Fits gr h ∧ s.Seated t s.ev.a h gr pb := by
  obtain ⟨h, hfit, hplace⟩ := State.placeNext_some (pbs := [pb]) hg (hone ▸ ht) h
  refine ⟨s.stamp.placeOn s.ev.a gr h [pb], ?_, State.placeOn_mem _ _ _ _ _, h, hfit, State.placeOn_one hfit.2.2.2 _ _⟩
  rw [exec_workgroupPlacement, State.placeGrid_next hg hm hcores hclean, hplace, Option.getD_some]
end

/-! ### Retirement of grids (R242, R372–R374) -/

/-- Two states agree but for memory and the requests on their way. -/
def State.OnlyOwn (s t : State) : Prop :=
  { t with mem := s.mem, poison := s.poison, cells := s.cells, nextId := s.nextId, pend := s.pend } = s

theorem State.OnlyOwn.foldl {α : Type} {f : State → α → State} (hf : ∀ (s : State) x, s.OnlyOwn (f s x)) (l : List α) (s : State) :
    s.OnlyOwn (l.foldl f s) :=
  List.foldlRecOn (motive := fun t : State => s.OnlyOwn t) l f rfl fun t ht x _ => by
    have := hf t x
    unfold State.OnlyOwn at *
    rw [← this] at ht
    exact ht

theorem State.pokeRaw_only (s : State) (pa : Nat) (data : List Byte) : s.OnlyOwn (s.pokeRaw pa data) := by
  unfold State.pokeRaw State.poke; split <;> exact rfl

theorem State.storeOwn_only (s : State) (n pa : Nat) (data : List Byte) : s.OnlyOwn (s.storeOwn n pa data) :=
  .foldl (fun s p => by split; exacts [s.pokeRaw_only _ _, rfl]) _ _

theorem State.writeBackAD_only (s : State) (e : Tlb) : s.OnlyOwn (s.writeBackAD e) := by
  unfold State.writeBackAD
  generalize (if e.ga.isSome then 16 else 0) ||| (if e.gd.isSome then 32 else 0) = y
  dsimp only
  split
  · exact rfl
  · split
    · split
      · exact s.pokeRaw_only _ _
      · exact rfl
    · exact rfl

theorem State.writeDone_only (s : State) (q : Queue) : s.OnlyOwn (s.writeDone q) := by
  unfold State.writeDone
  split
  · exact s.storeOwn_only _ _ _
  · exact rfl

/-- A gathering of a context's bits changes memory, the requests on their way, and the translations that are held. -/
theorem State.harvest_only (s : State) (ctx : Nat) : s.OnlyOwn { s.harvest ctx with tlb := s.tlb } := by
  have h := State.OnlyOwn.foldl (fun s e => s.writeBackAD_only e) (s.tlb.filter (·.ctx == ctx)) s
  unfold State.harvest
  generalize (s.tlb.filter _).foldl State.writeBackAD s = t at h ⊢
  unfold State.OnlyOwn at *
  rw [← h]

/-- Nothing gathered of a context is left in the translations that are held. -/
theorem State.harvest_tlb (s : State) (ctx : Nat) : ∀ x ∈ (s.harvest ctx).tlb, x.ctx = ctx → x.ga = none ∧ x.gd = none := by
  intro x hx hc
  obtain ⟨e, -, rfl⟩ := List.mem_map.1 hx
  split at hc
  · next he => rw [if_pos he]; exact ⟨rfl, rfl⟩
  · next he => exact absurd hc he

theorem tabGet_tabDel_same {α : Type} (t : Tab α) (n : Nat) : tabGet (tabDel t n) n = none := by
  rw [tabGet_tabDel, if_pos rfl]

/-- What a record's retirement leaves: its queue's count, and the host halves of its regions given back. -/
def State.Passed (s t : State) (a r : Nat) : Prop :=
  t.queueAt a = (s.queueAt a).passed r ∧
    ∀ p ∈ s.grids, ∀ e ∈ p.2.edges, e.q = a → (s.queueAt a).done ≤ e.rec_ → e.rec_ < ((s.queueAt a).passed r).done →
      ∀ z ∈ t.halves, z.2 = .m → e.coversHalf z.1 = false

theorem State.mem_edgesOn {s : State} {q lo hi : Nat} {e : Edge} : e ∈ s.edgesOn q lo hi ↔
    ∃ p ∈ s.grids, e ∈ p.2.edges ∧ e.q = q ∧ lo ≤ e.rec_ ∧ e.rec_ < hi := by
  simp [State.edgesOn, and_assoc]

/-- Modified halves of a region that is given back are shared afterwards. -/
theorem State.giveBack_halves (s : State) (q lo hi : Nat) {e : Edge} (he : e ∈ s.edgesOn q lo hi) :
    ∀ z ∈ (s.giveBack q lo hi).halves, z.2 = .m → e.coversHalf z.1 = false := by
  intro z hz hm
  obtain ⟨p, -, rfl⟩ := List.mem_map.1 hz
  split at hm
  · cases hm
  · next hn =>
    rw [if_neg hn]
    rw [Bool.and_eq_true, decide_eq_true_eq, not_and, List.any_eq_true] at hn
    exact Bool.eq_false_of_not_eq_true fun hc => hn hm ⟨e, he, hc⟩

theorem State.finish_eq (s : State) (a r : Nat) : s.finish a r =
    (({ s with queues := tabSet s.queues a ((s.queueAt a).passed r) } : State).giveBack a (s.queueAt a).done
      ((s.queueAt a).passed r).done).writeDone ((s.queueAt a).passed r) := rfl

theorem State.finish_only (s : State) (a r : Nat) :
    { s.finish a r with
      mem := s.mem, poison := s.poison, cells := s.cells, nextId := s.nextId, pend := s.pend, queues := s.queues, halves := s.halves } = s := by
  rw [State.finish_eq]
  generalize hu : State.giveBack _ _ _ _ = u
  have h := u.writeDone_only ((s.queueAt a).passed r)
  generalize u.writeDone _ = v at h ⊢
  unfold State.OnlyOwn at h
  have hv : { u with
      mem := s.mem, poison := s.poison, cells := s.cells, nextId := s.nextId, pend := s.pend, queues := s.queues, halves := s.halves } = s := by
    rw [← hu]; rfl
  rw [← h] at hv
  exact hv

theorem State.finish_passed (s : State) (a r : Nat) : s.Passed (s.finish a r) a r := by
  rw [State.finish_eq]
  generalize hu : State.giveBack _ _ _ _ = u
  have h := u.writeDone_only ((s.queueAt a).passed r)
  generalize u.writeDone _ = v at h ⊢
  have hq : v.queues = u.queues := (congrArg State.queues h :)
  have hh : v.halves = u.halves := (congrArg State.halves h :)
  refine ⟨State.queueAt_of_set (t := s.queues) (by rw [hq, ← hu]; rfl), fun p hp e he hea hlo hhi => ?_⟩
  rw [hh, ← hu]
  exact State.giveBack_halves _ _ _ _ (State.mem_edgesOn.2 ⟨p, hp, he, hea, hlo, hhi⟩)

/-- What keeps a root grid from retiring: its context's gathered bits are on their way, or writes that edges on its record carry. -/
def State.Waits (s : State) (gr : Grid) : Prop :=
  s.gathering gr.ctx = true ∨ ∃ e ∈ s.edgesOn gr.q gr.rec_ (gr.rec_ + 1), s.edgeQuiet e = false

/-- A grid whose workgroups have all been placed and are over, and which has no child. -/
def State.Spent (s : State) (gr : Grid) : Prop :=
  gr.live = 0 ∧ gr.gx * gr.gy * gr.gz ≤ gr.next ∧ ∀ x ∈ s.grids, x.2.pgrid ≠ some s.ev.a

theorem State.gridOver_iff {s : State} {gr : Grid} : s.gridOver s.ev.a gr = true ↔ s.Spent gr ∧ (gr.parent ≠ none ∨ ¬ s.Waits gr) := by
  unfold State.gridOver State.Spent State.Waits Grid.total
  rw [Bool.and_eq_true, Bool.and_eq_true, Bool.and_eq_true, beq_iff_eq, decide_eq_true_iff, Bool.or_eq_true, Option.isSome_iff_ne_none]
  simp [and_assoc]

/-- The state in which the event's grid has left the table of grids. -/
def State.withoutGrid (s : State) : State := { s with grids := tabDel s.grids s.ev.a }

theorem exec_gridRetire {s : State} {gr : Grid} (hg : tabGet s.grids s.ev.a = some gr) : exec .gridRetire s = .next (
    if s.gridOver s.ev.a gr then
      if gr.parent.isSome then
        if gr.irq then (s.withoutGrid).irq (s.queueAt gr.q).vec else s.withoutGrid
      else
        let h := s.harvest gr.ctx
        if h.gathering gr.ctx then h
        else
          let t := (h.withoutGrid).finish gr.q gr.rec_
          if gr.irq || (s.queueAt gr.q).irq then t.irq (s.queueAt gr.q).vec else t
    else s) := by
  show execGridRetire s = _
  unfold execGridRetire
  rw [onEvent_next, hg]
  rfl

section
variable {s : State} {gr : Grid} (hg : tabGet s.grids s.ev.a = some gr)
include hg

theorem exec_gridRetire_waits (h : s.gridOver s.ev.a gr = false) : exec .gridRetire s = .next s := by
  rw [exec_gridRetire hg, h]; rfl

theorem exec_gridRetire_child (hs : s.Spent gr) (hp : gr.parent ≠ none) : exec .gridRetire s =
    .next { s.withoutGrid with irqs := if gr.irq then s.irqs ++ [(s.queueAt gr.q).vec] else s.irqs } := by
  rw [exec_gridRetire hg, if_pos (State.gridOver_iff.2 ⟨hs, .inl hp⟩), if_pos (Option.isSome_iff_ne_none.2 hp)]
  cases gr.irq <;> rfl

variable (hs : s.Spent gr) (hp : gr.parent = none) (hw : ¬ s.Waits gr)
include hs hp hw

/-- A root grid that is over first has its context's gathered bits written. -/
theorem exec_gridRetire_gathering (h : (s.harvest gr.ctx).gathering gr.ctx = true) : exec .gridRetire s = .next (s.harvest gr.ctx) := by
  rw [exec_gridRetire hg, if_pos (State.gridOver_iff.2 ⟨hs, .inr hw⟩), hp]
  dsimp only
  rw [h]
  rfl

theorem exec_gridRetire_finish (h : (s.harvest gr.ctx).gathering gr.ctx = false) : exec .gridRetire s = .next (
    let t := (s.harvest gr.ctx).withoutGrid.finish gr.q gr.rec_
    if gr.irq ∨ (s.queueAt gr.q).irq then t.irq (s.queueAt gr.q).vec else t) := by
  rw [exec_gridRetire hg, if_pos (State.gridOver_iff.2 ⟨hs, .inr hw⟩), hp]
  dsimp only
  rw [h]
  simp only [Option.isSome_none, Bool.false_eq_true, if_false, Bool.or_eq_true]

/-- A root grid's record counts as done, and its regions' host halves are given back. -/
theorem exec_gridRetire_done (h : (s.harvest gr.ctx).gathering gr.ctx = false) : s.does .gridRetire fun t =>
    tabGet t.grids s.ev.a = none ∧ t.groups = s.groups ∧ t.tlb = (s.harvest gr.ctx).tlb ∧
      t.irqs = (if gr.irq ∨ (s.queueAt gr.q).irq then s.irqs ++ [(s.queueAt gr.q).vec] else s.irqs) ∧
      (s.withoutGrid).Passed t gr.q gr.rec_ := by
  have hres := exec_gridRetire_finish hg hs hp hw h
  have hown := s.harvest_only gr.ctx
  generalize s.harvest gr.ctx = u at hres hown
  have hfin := (u.withoutGrid).finish_only gr.q gr.rec_
  have hpass := (u.withoutGrid).finish_passed gr.q gr.rec_
  generalize (u.withoutGrid).finish gr.q gr.rec_ = t at hres hfin hpass
  have hgrids : t.grids = tabDel s.grids s.ev.a :=
    (congrArg State.grids hfin :).trans (congrArg (fun x : State => tabDel x.grids x.ev.a) hown :)
  have hgroups : t.groups = s.groups := (congrArg State.groups hfin :).trans (congrArg State.groups hown :)
  have hirqs : t.irqs = s.irqs := (congrArg State.irqs hfin :).trans (congrArg State.irqs hown :)
  have hpassed : (s.withoutGrid).Passed t gr.q gr.rec_ := by
    have hq : u.queues = s.queues := (congrArg State.queues hown :)
    have hgr : u.withoutGrid.grids = s.withoutGrid.grids := (congrArg (fun x : State => tabDel x.grids x.ev.a) hown :)
    unfold State.Passed at *
    rw [hgr] at hpass
    unfold State.withoutGrid State.queueAt at *
    rwa [hq] at hpass
  have htlb : t.tlb = u.tlb := (congrArg State.tlb hfin :)
  refine ⟨_, hres, ?_⟩
  dsimp only
  split
  · exact ⟨by rw [State.irq, hgrids]; exact tabGet_tabDel_same _ _, hgroups, htlb, by rw [State.irq, hirqs], hpassed⟩
  · exact ⟨by rw [hgrids]; exact tabGet_tabDel_same _ _, hgroups, htlb, hirqs, hpassed⟩
end

/-! ### The statement -/

/-- A grid that is not over, or that waits, does not retire. -/
theorem State.not_gridOver {s : State} {gr : Grid} (h : ¬ s.Spent gr ∨ gr.parent = none ∧ s.Waits gr) : s.gridOver s.ev.a gr = false := by
  rw [← Bool.not_eq_true, State.gridOver_iff]
  rintro ⟨hs, hp⟩
  rcases h with h | ⟨hn, hw⟩
  · exact h hs
  · exact hp.elim (· hn) (· hw)

/-- Settles O52, clause by clause: the dispatcher's records, the host's bytes, the placement of a workgroup and the retirement of a grid. -/
theorem launchEvents : Obligations.LaunchEvents := by
  unfold Obligations.LaunchEvents
  intro s gr reason pb a q b off half s' nextSeal held sealed rest waits spent c fits
  have hsealed (ha : s.recd.active = false) : sealed ↔ s.sealedQ s.ev.a (s.queueAt s.ev.a) = true := (sealedQ_iff ha _ _).symm
  refine ⟨exec_launchRecord_replayed_none, fun hf ha harm => ⟨fun h => ?_, fun h hp => ?_, fun h hp => ?_⟩, exec_queueSealWrite_recovery,
    exec_queueSealWrite_pcie, fun hc hb hl hm => ⟨?_, ?_⟩, fun hg => ⟨exec_workgroupPlacement_waits hg, ?_, ?_, ?_, ?_, ?_, ?_, ?_⟩⟩
  · exact exec_launchRecord_unsealed hf (Bool.eq_false_of_not_eq_true fun hs => h ((hsealed ha).2 hs))
  · exact exec_launchRecord_accepted hf harm ha ((hsealed ha).1 h) hp
  · exact exec_launchRecord_refused hf harm ha ((hsealed ha).1 h) hp
  · exact exec_queueSealWrite_writes rfl hc hb hl hm
  · exact exec_queueSealWrite_snoops rfl hc hb hl
  · exact exec_workgroupPlacement_none hg
  · intro hm hcores hclean hone ht hfit
    obtain ⟨t, ht, hmem, h, hfits, hgrid, n, w, stamp, clk, hn, hfree, hgroups, hwg, hw⟩ :=
      exec_workgroupPlacement_one hg hm hcores hclean hone ht hfit
    obtain ⟨hwgrid, hhearth, hslots, hix, hiy, hiz⟩ := hw
    refine ⟨t, ht, hgrid, hmem, h, n, w, newGroup gr s.nextId 0 pb stamp clk, hfits, hn, hfree, ?_, ?_, hwg, hwgrid, hhearth, hslots, hix, hiy, hiz,
      rfl, rfl, rfl, rfl, rfl, rfl, rfl, rfl, rfl, rfl, rfl, fun i hi => newGroup_mode gr _ _ _ _ _ hi, newGroup_args gr _ _ _ _ _⟩
    · unfold State.grp
      rw [hgroups, tabGet_tabSet_same]
    · intro j hj
      unfold State.grp
      rw [hgroups, tabGet_tabSet, if_neg hj.symm]
  · exact fun h => exec_gridRetire_waits hg (State.not_gridOver (.inl h))
  · exact exec_gridRetire_child hg
  · exact fun _ hp hw => exec_gridRetire_waits hg (State.not_gridOver (.inr ⟨hp, hw⟩))
  · exact exec_gridRetire_gathering hg
  · intro hs hp hw hgath y
    obtain ⟨t, ht, hgrids, hgroups, htlb, hirqs, hqueue, hhalves⟩ := exec_gridRetire_done hg hs hp hw hgath
    refine ⟨t, ht, hgrids, hgroups, htlb ▸ s.harvest_tlb gr.ctx, hirqs, fun hdone hfin => ?_, fun hne hfin => ?_⟩
    · have hnext : (y.passed gr.rec_).done = gr.rec_ + 1 := hdone ▸ Queue.passed_next hfin
      refine ⟨hqueue ▸ hnext, fun x hx hxa e he heq herec => hhalves x ?_ e he heq (by rw [herec]; exact Nat.le_of_eq hdone) ?_⟩
      · exact List.mem_filter.2 ⟨hx, bne_iff_ne.2 hxa⟩
      · rw [herec]
        exact Nat.lt_of_lt_of_eq (Nat.lt_succ_self _) hnext.symm
    · exact hqueue ▸ Queue.passed_other hfin hne

end Sys2Proof.Machine
end

section
/-! # Translation leaves memory as it is but for A and D bits (R242)

An entry that leaves a translation cache writes its gathered bits back over the page table's entry. Nothing else of a translation writes
memory, so it reads as before but for bits 4 and 5 of bytes. -/

namespace Sys2Proof.Machine

/-- Memory reads as before, but for the A and D bits of translation entries (R242). -/
def State.SameButAD (s t : State) : Prop := ∀ a, memGet t.mem a ||| 0x30 = memGet s.mem a ||| 0x30

theorem State.SameButAD.of_mem {s t : State} (h : t.mem = s.mem) : s.SameButAD t := fun a => by rw [h]

theorem State.SameButAD.trans {s t u : State} (h : s.SameButAD t) (h' : t.SameButAD u) : s.SameButAD u :=
  fun a => (h' a).trans (h a)

theorem State.SameButAD.drift {s t : State} (h : s.SameButAD t) : s.drift t := fun a => .inl (h a)

theorem length_leBytes (n x : Nat) : (leBytes n x).length = n := by
  induction n generalizing x with
  | zero => rfl
  | succ n ih => simp [leBytes, ih]

theorem getElem_leBytes (n x i : Nat) (h : i < (leBytes n x).length) : (leBytes n x)[i] = BitVec.ofNat 8 (x / 256 ^ i) := by
  induction n generalizing x i with
  | zero => simp [leBytes] at h
  | succ n ih =>
    cases i with
    | zero => simp [leBytes]
    | succ i => simp [leBytes, ih, Nat.div_div_eq_div_mul, Nat.pow_succ']

theorem byte_peekNat (s : State) (pa n i : Nat) (h : i < n) : BitVec.ofNat 8 (s.peekNat pa n / 256 ^ i) = memGet s.mem (pa + i) := by
  unfold State.peekNat State.peek
  induction n generalizing pa i with
  | zero => omega
  | succ n ih =>
    have hlt : (memGet s.mem pa).toNat < 256 := (memGet s.mem pa).isLt
    cases i with
    | zero =>
      apply BitVec.eq_of_toNat_eq
      simp only [memGetBytes, leNat, BitVec.toNat_ofNat, Nat.pow_zero, Nat.div_one, Nat.add_zero]
      omega
    | succ i =>
      have hdiv : leNat (memGetBytes s.mem pa (n + 1)) / 256 = leNat (memGetBytes s.mem (pa + 1) n) := by
        simp only [memGetBytes, leNat]
        omega
      rw [Nat.pow_succ', ← Nat.div_div_eq_div_mul, hdiv, ih _ _ (by omega), Nat.add_right_comm, Nat.add_assoc pa]

/-- The bits that an entry gathers, A and D, are bits 4 and 5 of a leaf (R236, R242): an OR of them shows in no other bit of a byte. -/
theorem byte_orAD (x i : Nat) (a d : Bool) :
    BitVec.ofNat 8 ((x ||| ((if a then 16 else 0) ||| (if d then 32 else 0))) / 256 ^ i) ||| 0x30 =
      BitVec.ofNat 8 (x / 256 ^ i) ||| 0x30 := by
  rw [show (256 : Nat) ^ i = 2 ^ (8 * i) by rw [Nat.pow_mul], ← Nat.shiftRight_eq_div_pow, ← Nat.shiftRight_eq_div_pow,
    Nat.shiftRight_or_distrib, BitVec.ofNat_or, BitVec.or_assoc]
  congr 1
  cases i with
  | zero => cases a <;> cases d <;> rfl
  | succ i =>
    rw [Nat.shiftRight_eq_zero]
    · rfl
    · calc _ < 2 ^ 8 := by cases a <;> cases d <;> decide
        _ ≤ _ := Nat.pow_le_pow_right (by decide) (by omega)

theorem State.pokeRaw_mem (s : State) (pa : Nat) (data : List Byte) : (s.pokeRaw pa data).mem = (s.poke pa data false).mem := rfl

/-- An entry whose gathered bits are written over it reads as before but for A and D. -/
theorem State.pokeRaw_orAD {s : State} (hs : s.Canon) (pa : Nat) (a d : Bool) :
    s.SameButAD (s.pokeRaw pa (leBytes 8 (s.peekNat pa 8 ||| ((if a then 16 else 0) ||| (if d then 32 else 0))))) := by
  intro b
  by_cases hin : pa ≤ b ∧ b < pa + 8
  · obtain ⟨i, rfl⟩ := Nat.exists_eq_add_of_le hin.1
    have hi : i < 8 := by omega
    rw [pokeRaw_mem, poke_inside hs _ _ _ (by rwa [length_leBytes]), getElem_leBytes, byte_orAD, byte_peekNat _ _ _ _ hi]
  · rw [pokeRaw_mem, poke_outside hs _ _ _ (by rw [length_leBytes]; omega)]

theorem orBits_eq_some {x y leaf z : Nat} (h : orBits x y leaf = some z) : z = x ||| y :=
  (Option.some.inj (Option.ite_none_right_eq_some.1 h).2).symm

theorem State.writeBackAD_sameButAD {s : State} (hs : s.Canon) (e : Tlb) : s.SameButAD (s.writeBackAD e) := by
  unfold State.writeBackAD
  generalize hy : (if e.ga.isSome then 16 else 0) ||| (if e.gd.isSome then 32 else 0) = y
  dsimp only
  split
  · exact .of_mem rfl
  · split
    · split
      · next hx =>
        rw [orBits_eq_some hx, ← hy]
        exact State.pokeRaw_orAD hs _ _ _
      · exact .of_mem rfl
    · exact .of_mem rfl

theorem State.tlbFill_sameButAD {s : State} (hs : s.Canon) (e : Tlb) : s.SameButAD (s.tlbFill e) := by
  unfold State.tlbFill
  generalize (if e.last then 12 else 8) = ways
  dsimp only
  split
  · exact .of_mem rfl
  · split
    · exact .of_mem rfl
    · exact (State.writeBackAD_sameButAD hs _).trans (.of_mem rfl)

theorem State.translate_sameButAD {s : State} (hs : s.Canon) (h ctx : Nat) (va : W64) : s.SameButAD (s.translate h ctx va).1 := by
  unfold State.translate
  dsimp only
  split
  · exact .of_mem rfl
  · split
    · exact State.tlbFill_sameButAD hs _
    · split
      · have hfill : s.SameButAD (s.fillWalk (dieOf h) ctx (tabD s.ctxs ctx {}) va) := .of_mem (s.fillWalk_mem ..)
        have hcanon := hs.of_mem (s.fillWalk_mem (dieOf h) ctx (tabD s.ctxs ctx {}) va)
        generalize s.fillWalk (dieOf h) ctx (tabD s.ctxs ctx {}) va = t at hfill hcanon ⊢
        have hlast := fun e => State.tlbFill_sameButAD hcanon e
        have hfirst := fun e f => State.tlbFill_sameButAD (State.tlbFill_wf hcanon e) f
        exact hfill.trans ((hlast _).trans (hfirst _ _))
      all_goals exact .of_mem rfl

end Sys2Proof.Machine
end

section
/-! # The checks of a lane access (O41)

A check is a filter of the acting threads, or of the accesses located for them: where it finds some they trap together, else the next
check follows. The first layer says this of one check; the lemmas after it go through the checks of R164 in their order, each under the
hypotheses that those before it found nothing. -/

namespace Sys2Proof.Machine

/-! ### Where the threads' addresses lie (check 4) -/

theorem LEnv.addr_eq (e : LEnv) (sp : Space) (t : Nat) :
    e.addr sp t = (if sp = .glob then e.breg.base else 0) +
      (if e.f.vb.getLsbD 6 then (e.reg t e.f.va.toNat).val.setWidth 64 <<< (e.f.vb.toNat / 16 % 4) else 0) + e.f.w2.signExtend 64 :=
  (BitVec.add_assoc _ _ _).symm

theorem TReg.holds_iff (b : TReg) (off : W64) : b.holds off = true ↔ b.valid = true ∧ b.stale = false ∧ off.toNat < b.limit.toNat := by
  simp [TReg.holds, and_assoc]

theorem TReg.not_holds_iff (b : TReg) (off : W64) :
    b.holds off = false ↔ b.valid = false ∨ b.stale = true ∨ b.limit.toNat ≤ off.toNat := by
  simp [TReg.holds, imp_iff_not_or, or_assoc]

section
variable {e : LEnv} {a : AccK} {size t : Nat} (s : State)

theorem LEnv.locate_of_holds (h : e.breg.holds (e.offset t) = true) :
    e.locate s a size t = (s, .inl ⟨t, e.addr .glob t, some (e.breg.tr s (tabD s.ctxs e.g.ctx {}) (e.offset t))⟩) := by
  unfold LEnv.locate
  exact if_pos h

theorem LEnv.locate_of_not_canonical (h : e.breg.holds (e.offset t) = false) (hva : canonical (e.addr .glob t) = false) :
    e.locate s a size t = (s, .inr (accTrap 0x06 a (e.addr .glob t) size)) := by
  unfold LEnv.locate
  simp [h, hva]

theorem LEnv.locate_of_tlb {s1 : State} {tr : Tr} (h : e.breg.holds (e.offset t) = false) (hva : canonical (e.addr .glob t) = true)
    (ht : s.translate (hearthOf e.k) e.g.ctx (e.addr .glob t) = (s1, .ok tr)) :
    e.locate s a size t = (s1, .inl ⟨t, e.addr .glob t, some tr⟩) := by
  unfold LEnv.locate
  simp [h, hva, ht]
end

theorem LEnv.locate_sameButAD {s : State} (hs : s.Canon) (e : LEnv) (a : AccK) (size t : Nat) :
    s.SameButAD (e.locate s a size t).1 := by
  have htr := State.translate_sameButAD hs (hearthOf e.k) e.g.ctx (e.addr .glob t)
  unfold LEnv.locate
  dsimp only
  split
  · exact .of_mem rfl
  · split
    · split <;> next h => rwa [h] at htr
    · exact .of_mem rfl

/-- A thread that is located has its own number and a translation. -/
theorem LEnv.locate_inl {e : LEnv} {s s1 : State} {a : AccK} {size t : Nat} {y : LAcc} (h : e.locate s a size t = (s1, .inl y)) :
    y.t = t ∧ y.tr.isSome := by
  unfold LEnv.locate at h
  dsimp only at h
  split at h
  · cases h; exact ⟨rfl, rfl⟩
  · split at h
    · split at h <;> cases h
      exact ⟨rfl, rfl⟩
    · cases h

/-- What check 4 on a list of threads gives: each access found has its translation, and where no thread fails there is one for each,
in their order. -/
theorem LEnv.locateAll_spec (e : LEnv) (a : AccK) (size : Nat) (ts : List Nat) (s : State) :
    (∀ y ∈ (e.locateAll a size ts s).2.1, y.tr.isSome) ∧
    ((e.locateAll a size ts s).2.2 = [] → (e.locateAll a size ts s).2.1.map (·.t) = ts) := by
  induction ts generalizing s with
  | nil => exact ⟨nofun, fun _ => rfl⟩
  | cons t r ih =>
    obtain ⟨hsome, hall⟩ := ih (e.locate s a size t).1
    unfold LEnv.locateAll
    rcases hx : e.locate s a size t with ⟨s1, y | x⟩
    · rw [hx] at hsome hall
      obtain ⟨ht, htr⟩ := locate_inl hx
      refine ⟨fun z hz => ?_, fun hbad => ?_⟩
      · rcases List.mem_cons.1 hz with rfl | hz
        · exact htr
        · exact hsome z hz
      · exact congrArg₂ List.cons ht (hall hbad)
    · rw [hx] at hsome
      exact ⟨hsome, nofun⟩

theorem LEnv.locateAll_sameButAD {s : State} (hs : s.Canon) (e : LEnv) (a : AccK) (size : Nat) (ts : List Nat) :
    s.SameButAD (e.locateAll a size ts s).1 := by
  induction ts generalizing s with
  | nil => exact .of_mem rfl
  | cons t r ih =>
    have hone := LEnv.locate_sameButAD hs e a size t
    have hrest := ih (LEnv.locate_wf hs e a size t)
    unfold LEnv.locateAll
    rcases hx : e.locate s a size t with ⟨s1, y | x⟩ <;> (rw [hx] at hone hrest; exact hone.trans hrest)

/-! ### A check that some threads fail (R165) -/

@[simp] theorem LEnv.failed_nil (e : LEnv) (s go : State) : e.failed s [] go = go := rfl

theorem LEnv.failed_cons (e : LEnv) (s go : State) (t : Nat) (x : Trap) (l : List (Nat × Trap)) :
    e.failed s ((t, x) :: l) go = s.trapL e.k e.slot e.g e.sp x (maskOf (t :: l.map (·.1))) := rfl

/-- The threads `thread y` of the elements that a check finds trap together, with the first one's trap. -/
theorem LEnv.failed_of_filter {α : Type} {l : List α} {p : α → Bool} {y : α} {more : List α} (h : l.filter p = y :: more) (e : LEnv)
    (s go : State) (thread : α → Nat) (x : α → Trap) :
    e.failed s ((l.filter p).map fun z => (thread z, x z)) go =
      s.trapL e.k e.slot e.g e.sp (x y) (maskOf ((y :: more).map thread)) := by
  rw [h, List.map_cons, failed_cons, List.map_map]
  rfl

theorem LEnv.failed_of_none {α : Type} {l : List α} {p : α → Bool} (h : l.filter p = []) (e : LEnv) (s go : State)
    (f : α → Nat × Trap) : e.failed s ((l.filter p).map f) go = go := by
  rw [h]
  rfl

/-- The acting threads that a check finds, each with a trap at its address. -/
def LEnv.finds (e : LEnv) (sp : Space) (x : Trap) (p : Nat → Bool) : List (Nat × Trap) :=
  (e.ts.filter p).map fun t => (t, { x with addr := e.addr sp t })

theorem LEnv.failed_finds {e : LEnv} {p : Nat → Bool} {t0 : Nat} {rest : List Nat} (h : e.ts.filter p = t0 :: rest) (sp : Space) (x : Trap)
    (s go : State) : e.failed s (e.finds sp x p) go =
      s.trapL e.k e.slot e.g e.sp { x with addr := e.addr sp t0 } (maskOf (t0 :: rest)) :=
  (failed_of_filter h e s go id _).trans (by rw [List.map_id])

theorem LEnv.failed_finds_none {e : LEnv} {p : Nat → Bool} (h : e.ts.filter p = []) (sp : Space) (x : Trap) (s go : State) :
    e.failed s (e.finds sp x p) go = go := failed_of_none h e s go _

/-- The accesses that a check finds, each with its thread's trap. -/
def LAcc.found (l : List LAcc) (a : AccK) (size code : Nat) (p : LAcc → Bool) : List (Nat × Trap) :=
  (l.filter p).map fun y => (y.t, accTrap code a y.va size)

section
variable {l : List LAcc} {p : LAcc → Bool} (e : LEnv) (a : AccK) (size code : Nat) (s go : State)

theorem LEnv.failed_found {y : LAcc} {more : List LAcc} (h : l.filter p = y :: more) :
    e.failed s (LAcc.found l a size code p) go =
      s.trapL e.k e.slot e.g e.sp (accTrap code a y.va size) (maskOf ((y :: more).map (·.t))) :=
  failed_of_filter h e s go _ _

theorem LEnv.failed_found_none (h : ∀ y ∈ l, p y = false) : e.failed s (LAcc.found l a size code p) go = go :=
  failed_of_none (List.filter_eq_nil_iff.2 fun y hy => by simp [h y hy]) e s go _
end

/-! ### The checks on located accesses (checks 5 to 7) -/

/-- An access may be made, and no dead link or host memory is in its way (R104, R164, R311, R321). -/
def LEnv.reaches (e : LEnv) (s : State) (a : AccK) (y : LAcc) : Bool := y.tr.all fun r => e.permitted s a r

/-- A write to a frozen page. -/
def LAcc.frozen (a : AccK) (y : LAcc) : Bool := y.tr.any fun r => a.wr && (r.fst == 1 || r.fst == 3)

/-- A write to a thawing page. -/
def LAcc.thawing (a : AccK) (y : LAcc) : Bool := y.tr.any fun r => a.wr && r.fst == 2

/-- An access that a codec region does not take. -/
def LAcc.codec (a : AccK) (y : LAcc) : Bool := y.tr.any fun r => r.creg.isSome && !a.codecOk

/-- An access that a range lock of the global space is in the way of. -/
def LEnv.lockedOut (e : LEnv) (s : State) (a : AccK) (size : Nat) (y : LAcc) : Bool :=
  s.conflict (hearthOf e.k) e.g.ctx e.g.wg e.g.gidx .glob (va57 y.va) size a.wr

theorem LAcc.filterMap_eq_found {l : List LAcc} (hl : ∀ y ∈ l, y.tr.isSome) {a : AccK} {size code : Nat}
    {g : LAcc → Option (Nat × Trap)} {p : LAcc → Bool}
    (h : ∀ t va r, g ⟨t, va, some r⟩ = if p ⟨t, va, some r⟩ then some (t, accTrap code a va size) else none) :
    l.filterMap g = found l a size code p := by
  unfold found
  rw [← List.filterMap_eq_map, List.filterMap_filter]
  refine List.filterMap_congr fun ⟨t, va, tr⟩ hy => ?_
  obtain ⟨r, rfl⟩ := Option.isSome_iff_exists.1 (hl _ hy)
  exact h t va r

theorem LAcc.thawing_eq (a : AccK) : (fun y : LAcc => a.wr && y.tr.any (·.fst == 2)) = LAcc.thawing a := by
  funext y
  unfold LAcc.thawing
  cases y.tr with
  | none => exact Bool.and_false _
  | some r => rfl

section
variable {e : LEnv} {a : AccK} {size : Nat} {s : State} {l : List LAcc} (hl : ∀ y ∈ l, y.tr.isSome)
include hl

/-- Checks 5 to 7 in their order. -/
theorem LEnv.checkGlobal_eq (go : State → List LAcc → State) :
    e.checkGlobal a size s l go =
      e.failed s (LAcc.found l a size 0x06 fun y => !e.reaches s a y)
        (e.failed s (LAcc.found l a size 0x08 (LAcc.frozen a))
          (if l.any (LAcc.thawing a) then s.waitL e.k e.slot
          else
            e.failed s (LAcc.found l a size 0x09 (LAcc.codec a))
              (e.failed s (LAcc.found l a size 0x0A (e.lockedOut s a size)) (go s l)))) := by
  unfold checkGlobal
  dsimp only
  rw [LAcc.filterMap_eq_found hl (p := fun y => !e.reaches s a y) fun _ _ _ => rfl,
    LAcc.filterMap_eq_found hl (p := LAcc.frozen a) fun _ _ _ => rfl, LAcc.thawing_eq,
    LAcc.filterMap_eq_found hl (p := LAcc.codec a) fun _ _ _ => rfl,
    LAcc.filterMap_eq_found hl (p := e.lockedOut s a size) fun _ _ _ => rfl]

variable {y : LAcc} {more : List LAcc} (go : State → List LAcc → State)

theorem LEnv.checkGlobal_unreached (h : l.filter (fun y => !e.reaches s a y) = y :: more) :
    e.checkGlobal a size s l go =
      s.trapL e.k e.slot e.g e.sp (accTrap 0x06 a y.va size) (maskOf ((y :: more).map (·.t))) := by
  rw [checkGlobal_eq hl, failed_found _ _ _ _ _ _ h]

section
variable (hreach : ∀ y ∈ l, e.reaches s a y = true)
include hreach

theorem LEnv.checkGlobal_reached :
    e.checkGlobal a size s l go =
      e.failed s (LAcc.found l a size 0x08 (LAcc.frozen a))
        (if l.any (LAcc.thawing a) then s.waitL e.k e.slot
        else
          e.failed s (LAcc.found l a size 0x09 (LAcc.codec a))
            (e.failed s (LAcc.found l a size 0x0A (e.lockedOut s a size)) (go s l))) := by
  rw [checkGlobal_eq hl, failed_found_none _ _ _ _ _ _ fun y hy => by rw [hreach y hy]; rfl]

theorem LEnv.checkGlobal_frozen (h : l.filter (LAcc.frozen a) = y :: more) :
    e.checkGlobal a size s l go =
      s.trapL e.k e.slot e.g e.sp (accTrap 0x08 a y.va size) (maskOf ((y :: more).map (·.t))) := by
  rw [checkGlobal_reached hl go hreach, failed_found _ _ _ _ _ _ h]

variable (hfrozen : ∀ y ∈ l, LAcc.frozen a y = false)
include hfrozen

theorem LEnv.checkGlobal_thawing (h : ∃ y ∈ l, LAcc.thawing a y = true) : e.checkGlobal a size s l go = s.waitL e.k e.slot := by
  rw [checkGlobal_reached hl go hreach, failed_found_none _ _ _ _ _ _ hfrozen, if_pos (List.any_eq_true.2 h)]

variable (hthawing : ∀ y ∈ l, LAcc.thawing a y = false)
include hthawing

theorem LEnv.checkGlobal_thawed :
    e.checkGlobal a size s l go =
      e.failed s (LAcc.found l a size 0x09 (LAcc.codec a))
        (e.failed s (LAcc.found l a size 0x0A (e.lockedOut s a size)) (go s l)) := by
  rw [checkGlobal_reached hl go hreach, failed_found_none _ _ _ _ _ _ hfrozen, if_neg]
  simpa using hthawing

theorem LEnv.checkGlobal_codec (h : l.filter (LAcc.codec a) = y :: more) :
    e.checkGlobal a size s l go =
      s.trapL e.k e.slot e.g e.sp (accTrap 0x09 a y.va size) (maskOf ((y :: more).map (·.t))) := by
  rw [checkGlobal_thawed hl go hreach hfrozen hthawing, failed_found _ _ _ _ _ _ h]

variable (hcodec : ∀ y ∈ l, LAcc.codec a y = false)
include hcodec

theorem LEnv.checkGlobal_locked (h : l.filter (e.lockedOut s a size) = y :: more) :
    e.checkGlobal a size s l go =
      s.trapL e.k e.slot e.g e.sp (accTrap 0x0A a y.va size) (maskOf ((y :: more).map (·.t))) := by
  rw [checkGlobal_thawed hl go hreach hfrozen hthawing, failed_found_none _ _ _ _ _ _ hcodec, failed_found _ _ _ _ _ _ h]

theorem LEnv.checkGlobal_passes (h : ∀ y ∈ l, e.lockedOut s a size y = false) : e.checkGlobal a size s l go = go s l := by
  rw [checkGlobal_thawed hl go hreach hfrozen hthawing, failed_found_none _ _ _ _ _ _ hcodec, failed_found_none _ _ _ _ _ _ h]
end
end

/-! ### The checks in order (R164) -/

/-- The index register or the data of a thread is poisoned where the access would consume it (R146). -/
def LEnv.consumes (e : LEnv) (pz : Nat → Bool) (t : Nat) : Bool := (e.f.vb.getLsbD 6 && (e.reg t e.f.va.toNat).pz) || pz t

/-- A thread's address is not a multiple of the access's size. -/
def LEnv.misaligned (e : LEnv) (sp : Space) (size t : Nat) : Bool := (e.addr sp t).toNat % size != 0

/-- A thread's bytes end beyond the limit of their space. -/
def LEnv.beyond (e : LEnv) (sp : Space) (size t : Nat) : Bool := decide ((e.limit sp).1 < (e.addr sp t).toNat + size)

/-- Some of a thread's bytes lie across a dead link (R311). -/
def LEnv.cut (e : LEnv) (sp : Space) (size t : Nat) : Bool := e.s.spaceCut e.k e.g sp t (e.addr sp t).toNat size

theorem LEnv.limit_fst (e : LEnv) (sp : Space) :
    (e.limit sp).1 = if sp = .scratch then (e.s.wgOf e.g.wg).scratchBytes else e.g.kern.priv := by
  cases sp <;> rfl

theorem LEnv.limit_snd (e : LEnv) (sp : Space) : (e.limit sp).2 = if sp = .scratch then 0x0C else 0x0D := by
  cases sp <;> rfl

section
variable {e : LEnv} {sp : Space} {a : AccK} {size t0 : Nat} {pz : Nat → Bool} {rest : List Nat}

theorem LEnv.ends_poisoned (h : e.ts.filter (e.consumes pz) = t0 :: rest) :
    e.ends sp a size pz
      (e.s.trapL e.k e.slot e.g e.sp (trapPoison (e.addr sp t0) size a.wr a.at_) (maskOf (t0 :: rest))) :=
  fun _ => failed_finds h sp (trapPoison 0 size a.wr a.at_) _ _

variable (hpz : e.ts.filter (e.consumes pz) = [])
include hpz

theorem LEnv.ends_misaligned (h : e.ts.filter (e.misaligned sp size) = t0 :: rest) :
    e.ends sp a size pz (e.s.trapL e.k e.slot e.g e.sp (accTrap 0x07 a (e.addr sp t0) size) (maskOf (t0 :: rest))) :=
  fun _ => (failed_finds_none hpz sp _ _ _).trans (failed_finds h sp (accTrap 0x07 a 0 size) _ _)

variable (hal : e.ts.filter (e.misaligned sp size) = [])
include hal

/-- The limit, dead links and locks of a space other than the global one, in their order. -/
theorem LEnv.access_local (hsp : sp = .scratch ∨ sp = .priv) (go : State → List LAcc → State) :
    e.access sp a size pz go =
      e.failed e.s (e.finds sp (accTrap (e.limit sp).2 a 0 size) (e.beyond sp size))
        (e.failed e.s (e.finds sp (accTrap 0x06 a 0 size) (e.cut sp size))
          (e.failed e.s (e.finds sp (accTrap 0x0A a 0 size) fun t => e.locked sp t size a.wr)
            (go e.s (e.ts.map fun t => ⟨t, e.addr sp t, none⟩)))) := by
  rcases hsp with rfl | rfl <;>
    exact (failed_finds_none hpz _ _ _ _).trans (failed_finds_none hal _ _ _ _)

section
variable (hsp : sp = .scratch ∨ sp = .priv)
include hsp

theorem LEnv.ends_beyond (h : e.ts.filter (e.beyond sp size) = t0 :: rest) :
    e.ends sp a size pz
      (e.s.trapL e.k e.slot e.g e.sp (accTrap (e.limit sp).2 a (e.addr sp t0) size) (maskOf (t0 :: rest))) :=
  fun go => (access_local hpz hal hsp go).trans (failed_finds h sp (accTrap (e.limit sp).2 a 0 size) _ _)

variable (hbeyond : e.ts.filter (e.beyond sp size) = [])
include hbeyond

theorem LEnv.ends_cut (h : e.ts.filter (e.cut sp size) = t0 :: rest) :
    e.ends sp a size pz (e.s.trapL e.k e.slot e.g e.sp (accTrap 0x06 a (e.addr sp t0) size) (maskOf (t0 :: rest))) := fun go => by
  rw [access_local hpz hal hsp, failed_finds_none hbeyond]
  exact failed_finds h sp (accTrap 0x06 a 0 size) _ _

variable (hcut : e.ts.filter (e.cut sp size) = [])
include hcut

theorem LEnv.ends_locked (h : e.ts.filter (fun t => e.locked sp t size a.wr) = t0 :: rest) :
    e.ends sp a size pz (e.s.trapL e.k e.slot e.g e.sp (accTrap 0x0A a (e.addr sp t0) size) (maskOf (t0 :: rest))) := fun go => by
  rw [access_local hpz hal hsp, failed_finds_none hbeyond, failed_finds_none hcut]
  exact failed_finds h sp (accTrap 0x0A a 0 size) _ _

theorem LEnv.passes_local (h : e.ts.filter (fun t => e.locked sp t size a.wr) = []) :
    e.passes sp a size pz e.s (e.ts.map fun t => ⟨t, e.addr sp t, none⟩) := by
  refine ⟨by rw [List.map_map]; exact List.map_id _, fun go => ?_⟩
  rw [access_local hpz hal hsp, failed_finds_none hbeyond, failed_finds_none hcut, failed_finds_none h]
end
end

section
variable {e : LEnv} {a : AccK} {size t0 : Nat} {pz : Nat → Bool} {s1 : State} {ok : List LAcc} {bad more : List (Nat × Trap)} {x : Trap}
  (hpz : e.ts.filter (e.consumes pz) = []) (hal : e.ts.filter (e.misaligned .glob size) = [])
  (hloc : e.locateAll a size e.ts e.s = (s1, ok, bad))
include hpz hal hloc

/-- Checks 4 to 7 of the global space, in their order. -/
theorem LEnv.access_glob (go : State → List LAcc → State) :
    e.access .glob a size pz go =
      e.failed s1 (bad.filter fun b => b.2.code == 0x06) (e.failed s1 bad (e.checkGlobal a size s1 ok go)) := by
  unfold access
  dsimp only
  rw [hloc]
  exact (failed_finds_none hpz .glob (trapPoison 0 size a.wr a.at_) _ _).trans
    (failed_finds_none hal .glob (accTrap 0x07 a 0 size) _ _)

theorem LEnv.ends_illegal (h : bad.filter (fun b => b.2.code == 0x06) = (t0, x) :: more) :
    e.ends .glob a size pz (s1.trapL e.k e.slot e.g e.sp x (maskOf (t0 :: more.map (·.1)))) := fun go => by
  rw [access_glob hpz hal hloc, h, failed_cons]

theorem LEnv.ends_absent (hill : bad.filter (fun b => b.2.code == 0x06) = []) (h : bad = (t0, x) :: more) :
    e.ends .glob a size pz (s1.trapL e.k e.slot e.g e.sp x (maskOf (t0 :: more.map (·.1)))) := fun go => by
  rw [access_glob hpz hal hloc, hill, failed_nil, h, failed_cons]

/-- Where every thread is located, checks 5 to 7 decide. -/
theorem LEnv.access_located (h : bad = []) (go : State → List LAcc → State) :
    e.access .glob a size pz go = e.checkGlobal a size s1 ok go := by
  subst h
  exact access_glob hpz hal hloc go
end

/-- Settles O41, clause by clause: the checks of every space, those of the local spaces, those of the global space, and where a thread's
address lies. -/
theorem laneChecks : Obligations.LaneChecks := by
  unfold Obligations.LaneChecks
  intro e sp a size pz s1 ok bad t0 rest x more addr poisoned misaligned trap ends
  refine ⟨e.addr_eq sp, LEnv.ends_poisoned, LEnv.ends_misaligned, fun hpz hal => ⟨fun hsp => ?_, ?_⟩, fun s t => ⟨?_, fun h => ?_⟩⟩
  · dsimp only
    rw [← e.limit_fst sp, ← e.limit_snd sp]
    exact ⟨LEnv.ends_beyond hpz hal hsp, LEnv.ends_cut hpz hal hsp, LEnv.ends_locked hpz hal hsp, LEnv.passes_local hpz hal hsp⟩
  · rintro rfl hloc
    obtain ⟨hsome, hall⟩ := e.locateAll_spec a size e.ts e.s
    have hdrift := fun hs => (LEnv.locateAll_sameButAD (s := e.s) hs e a size e.ts).drift
    rw [hloc] at hsome hall hdrift
    refine ⟨hsome, hdrift, LEnv.ends_illegal hpz hal hloc, LEnv.ends_absent hpz hal hloc, fun hbad => ?_⟩
    have hacc := LEnv.access_located hpz hal hloc hbad
    refine ⟨fun y l h go => ?_, fun hr y l h go => ?_, fun hr h go => ?_, fun hr y l h go => ?_, fun hr y l h go => ?_,
      fun hr => ⟨hall hbad, fun go => ?_⟩⟩
    · exact (hacc go).trans (LEnv.checkGlobal_unreached hsome go h)
    · exact (hacc go).trans (LEnv.checkGlobal_frozen hsome go hr h)
    · obtain ⟨hreach, hfrozen⟩ := forall₂_and.1 hr
      exact (hacc go).trans (LEnv.checkGlobal_thawing hsome go hreach hfrozen h)
    · obtain ⟨hreach, hr⟩ := forall₂_and.1 hr
      obtain ⟨hfrozen, hthawing⟩ := forall₂_and.1 hr
      exact (hacc go).trans (LEnv.checkGlobal_codec hsome go hreach hfrozen hthawing h)
    · obtain ⟨hreach, hr⟩ := forall₂_and.1 hr
      obtain ⟨hfrozen, hr⟩ := forall₂_and.1 hr
      obtain ⟨hthawing, hcodec⟩ := forall₂_and.1 hr
      exact (hacc go).trans (LEnv.checkGlobal_locked hsome go hreach hfrozen hthawing hcodec h)
    · obtain ⟨hreach, hr⟩ := forall₂_and.1 hr
      obtain ⟨hfrozen, hr⟩ := forall₂_and.1 hr
      obtain ⟨hthawing, hr⟩ := forall₂_and.1 hr
      obtain ⟨hcodec, hlock⟩ := forall₂_and.1 hr
      exact (hacc go).trans (LEnv.checkGlobal_passes hsome go hreach hfrozen hthawing hcodec hlock)
  · intro hv hst hlt
    exact ⟨LEnv.locate_of_holds s ((e.breg.holds_iff _).2 ⟨hv, hst, hlt⟩), rfl⟩
  · have hnot := (e.breg.not_holds_iff _).2 h
    exact ⟨LEnv.locate_of_not_canonical s hnot, fun tr => LEnv.locate_of_tlb s hnot⟩

end Sys2Proof.Machine
end

section
/-! # Integer arithmetic of the stoker (O1) -/

namespace Sys2Proof.Machine

/-- An operation on two registers puts its value, poisoned when a source is (R87, R89). -/
theorem State.putsS.of_aluR {s : State} {i : Instr} {k : Nat} {g : Group} {sd sa sb : BitVec 6} {f : W64 → W64 → W64} {x : W64}
    (h : s.stokerAt k g) (hi : exec i s = aluR s sd sa sb f) (hx : f (g.sGet sa.toNat).val (g.sGet sb.toNat).val = x) :
    s.putsS s i k g sd ⟨x, (g.sGet sa.toNat).pz || (g.sGet sb.toNat).pz⟩ 4 :=
  State.putsS_of (by rw [hi, aluR_next h, hx])

/-- An operation on a register and a literal puts its value with the register's tag (R87, R89). -/
theorem State.putsS.of_aluI {s : State} {i : Instr} {k : Nat} {g : Group} {sd sa : BitVec 6} {y : W64} {f : W64 → W64 → W64} {x : W64}
    (h : s.stokerAt k g) (hi : exec i s = aluI s sd sa y 4 f) (hx : f (g.sGet sa.toNat).val y = x) :
    s.putsS s i k g sd ⟨x, (g.sGet sa.toNat).pz⟩ 4 :=
  State.putsS_of (by rw [hi, aluI_next h, hx])

/-- Settles O1: each instruction is its operation on its operands, and the operation is what R89 and R91 say. -/
theorem aluRegister : Obligations.AluRegister := by
  unfold Obligations.AluRegister
  refine ⟨fun s k g sd sa sb h => ?_, fun s k g sd sa imm h => ?_⟩
  · simp only [List.forall_mem_cons]
    exact ⟨.of_aluR h rfl rfl, .of_aluR h rfl rfl, .of_aluR h rfl rfl, .of_aluR h rfl rfl, .of_aluR h rfl rfl, .of_aluR h rfl rfl,
      .of_aluR h rfl rfl, .of_aluR h rfl rfl, .of_aluR h rfl rfl, .of_aluR h rfl (divq_signed _ _),
      .of_aluR h rfl (divq_unsigned _ _), .of_aluR h rfl (remq_signed _ _), .of_aluR h rfl (remq_unsigned _ _),
      .of_aluR h rfl (minq_signed _ _), .of_aluR h rfl (minq_unsigned _ _), .of_aluR h rfl (maxq_signed _ _),
      .of_aluR h rfl (maxq_unsigned _ _), List.forall_mem_nil _⟩
  · simp only [List.forall_mem_cons]
    exact ⟨.of_aluI h rfl rfl, .of_aluI h rfl rfl, .of_aluI h rfl rfl, .of_aluI h rfl rfl, .of_aluI h rfl rfl,
      .of_aluI h rfl (minq_signed _ _), .of_aluI h rfl (minq_unsigned _ _), .of_aluI h rfl (maxq_signed _ _),
      .of_aluI h rfl (maxq_unsigned _ _), List.forall_mem_nil _⟩

end Sys2Proof.Machine
end

section
/-! # `xlt` fills a translation register (O13) -/

namespace Sys2Proof.Machine

/-- The group past an `xlt` that has filled bN. -/
def Group.xlt (g : Group) (bn : BitVec 4) (r : TReg) : Group := { g with b := tabSet g.b bn.toNat r, spc := g.spc + 4 }

section
variable {s : State} {k : Nat} {g : Group} {bn : BitVec 4} {sa sb : BitVec 6} (h : s.stokerAt k g)
include h

theorem xlt_poisoned (hp : (g.sGet sa.toNat).pz = true ∨ (g.sGet sb.toNat).pz = true) :
    s.trapsS s (.xlt bn sa sb) k g (trapPoison 0 0) 4 := by
  refine (onStoker_next h.1 h.2 _).trans ?_
  rcases hp with hp | hp <;> simp [hp]

variable (ha : (g.sGet sa.toNat).pz = false) (hb : (g.sGet sb.toNat).pz = false)
include ha hb

theorem xlt_not_canonical (hv : canonical (g.sGet sa.toNat).val = false) :
    exec (.xlt bn sa sb) s = .next (s.setG k (g.xlt bn { base := (g.sGet sa.toNat).val, valid := true })) := by
  refine (onStoker_next h.1 h.2 _).trans ?_
  simp only [ha, hb, hv, Bool.or_self, Bool.false_eq_true, if_false]
  rfl

variable (hv : canonical (g.sGet sa.toNat).val = true) {s1 : State}
include hv

/-- A page that a walk does not find, or finds thawing, is not taken. -/
theorem xlt_untaken {r : TrRes} (ht : s.translate (hearthOf k) g.ctx (g.sGet sa.toNat).val = (s1, r))
    (hr : ∀ t, r = .ok t → t.fst = 2) :
    exec (.xlt bn sa sb) s = .next (s1.setG k (g.xlt bn { base := (g.sGet sa.toNat).val, valid := true })) := by
  refine (onStoker_next h.1 h.2 _).trans ?_
  simp only [ha, hb, hv, ht, Bool.or_self, Bool.false_eq_true, if_false, if_true]
  cases r with
  | ok t => simp only [hr t rfl, if_true]; rfl
  | absent e => rfl
  | illegal m => rfl

theorem xlt_taken {s2 : State} {t : Tr} {len : Nat}
    (ht : s.translate (hearthOf k) g.ctx (g.sGet sa.toNat).val = (s1, .ok t)) (hf : t.fst ≠ 2)
    (hs : s1.xltScan (hearthOf k) g.ctx (g.sGet sa.toNat).val (max (g.sGet sb.toNat).val.toNat 1) t
      ((g.sGet sb.toNat).val.toNat / 65536 + 1) t.left = (s2, len)) :
    exec (.xlt bn sa sb) s = .next (s2.setG k (g.xlt bn
      { base := (g.sGet sa.toNat).val, frame := BitVec.ofNat 52 t.pa, creg := BitVec.ofNat 5 (t.creg.getD 0),
        limit := BitVec.ofNat 32 (min len (2 ^ 32 - 1)), valid := true, rd := t.rd, wr := t.wr, codec := t.creg.isSome,
        frozen := decide (t.fst = 1 ∨ t.fst = 3), cmpr := t.cmpr, pgsz := BitVec.ofNat 2 t.pgsz })) := by
  refine (onStoker_next h.1 h.2 _).trans ?_
  simp only [ha, hb, hv, ht, hf, hs, Bool.or_self, Bool.false_eq_true, if_false, if_true, Bool.decide_or, ← beq_eq_decide]
  rfl
end

/-- Settles O13: what bN holds where the operand is poisoned, the base is not canonical, the page is not taken, and where it is. -/
theorem translationRegisters : Obligations.TranslationRegisters := by
  unfold Obligations.TranslationRegisters
  intro s s1 s2 k g bn sa sb t len r h v span put
  have fills {s1 : State} {x : TReg} (hx : exec (.xlt bn sa sb) s = .next (s1.setG k (g.xlt bn x))) : put s1 x :=
    ⟨_, hx, s1.sameBut_setG k _, s1.grp_setG_same k _⟩
  refine ⟨xlt_poisoned h, fun ha hb => ⟨fun hv => ?_, fun hv ht hr => ?_, fun hv ht hf hs => ?_⟩⟩
  · exact fills (xlt_not_canonical h ha hb hv)
  · exact fills (xlt_untaken h ha hb hv ht hr)
  · exact fills (xlt_taken h ha hb hv ht hf hs)

end Sys2Proof.Machine
end

section
/-! # Special registers and MODE (O16, O17) -/

namespace Sys2Proof.Machine

/-! ### `srd` (R113) -/

/-- Outside a recording a read of `%time` gives device time and leaves no record (R41, R333). -/
theorem State.timeRead_of_not_recording {s : State} {ctx : Nat} (k : Nat) (hr : s.recording ctx = false) :
    s.timeRead k ctx = (s, some s.now) := by
  simp [State.timeRead, State.trace, hr]

section
variable {s : State} {k : Nat} {g : Group} {sd : BitVec 6} (h : s.stokerAt k g)
include h

theorem srd_illegal {n : BitVec 7} (hn : n = 0 ∨ 0x11 < n.toNat) : s.trapsS s (.srd sd n) k g trapIllegal 4 := by
  refine (onStoker_next h.1 h.2 _).trans ?_
  rw [if_pos (by simpa using hn)]

theorem srd_special {n : BitVec 7} {x : Nat} (hn : n ≠ 0 ∧ n.toNat ≤ 0x11 ∧ n ≠ 0x0E) (hx : s.special k g g.mode n.toNat = x) :
    s.putsS s (.srd sd n) k g sd ⟨BitVec.ofNat 64 x, false⟩ 4 := by
  obtain ⟨h0, hle, ht⟩ := hn
  refine State.putsS_of ((onStoker_next h.1 h.2 _).trans ?_)
  rw [if_neg (by simpa using ⟨h0, hle⟩), if_neg ht, hx]

theorem srd_time (hr : s.recording g.ctx = false) : s.putsS s (.srd sd 0x0E) k g sd ⟨BitVec.ofNat 64 s.now, false⟩ 4 := by
  refine State.putsS_of ((onStoker_next h.1 h.2 _).trans ?_)
  rw [if_neg (by decide), if_pos rfl, State.timeRead_of_not_recording k hr]
end

/-- Settles O16: each number of R69 names its value, `%time` device time, and the others are no instruction. -/
theorem specialRegisters : Obligations.SpecialRegisters := by
  unfold Obligations.SpecialRegisters
  intro s k g sd n h w gr get
  refine ⟨?_, srd_time h, srd_illegal h⟩
  simp only [List.forall_mem_cons]
  have reads {n : BitVec 7} {x : Nat} := srd_special (sd := sd) (n := n) (x := x) h
  exact ⟨reads (by decide) rfl, reads (by decide) rfl, reads (by decide) rfl, reads (by decide) rfl, reads (by decide) rfl,
    reads (by decide) rfl, reads (by decide) rfl, reads (by decide) rfl, reads (by decide) rfl, reads (by decide) rfl,
    reads (by decide) rfl, reads (by decide) rfl, reads (by decide) rfl, reads (by decide) rfl, reads (by decide) rfl,
    reads (by decide) rfl, List.forall_mem_nil _⟩

/-! ### `mset` (R114) -/

theorem lt_two_pow_ten_iff (x : W64) : x.toNat < 2 ^ 10 ↔ x.toNat < 2 ^ 32 ∧ ∀ i, 10 ≤ i → i < 32 → x.getLsbD i = false := by
  refine ⟨fun hx => ⟨by omega, fun i hi _ => ?_⟩, fun ⟨hx, hbits⟩ => Nat.lt_pow_two_of_testBit _ fun i hi => ?_⟩
  · exact Nat.testBit_lt_two_pow (hx.trans_le (Nat.pow_le_pow_right (by decide) hi))
  · rcases Nat.lt_or_ge i 32 with h | h
    · exact hbits i hi h
    · exact Nat.testBit_lt_two_pow (hx.trans_le (Nat.pow_le_pow_right (by decide) h))

/-- MODE refuses a nonzero upper half, a reserved bit, and a rounding code that names no direction (R38). -/
theorem modeOk_eq_false_iff (x : W64) : modeOk x = false ↔
    2 ^ 32 ≤ x.toNat ∨ (x.getLsbD 3 = true ∨ ∃ i, 10 ≤ i ∧ i < 32 ∧ x.getLsbD i = true) ∨
      x.toNat % 8 = 0 ∨ x.toNat % 8 = 6 ∨ x.toNat % 8 = 7 := by
  have hdir : ¬ (1 ≤ x.toNat % 8 ∧ x.toNat % 8 ≤ 5) ↔ x.toNat % 8 = 0 ∨ x.toNat % 8 = 6 ∨ x.toNat % 8 = 7 := by omega
  have hok : modeOk x = true ↔ x.toNat < 2 ^ 10 ∧ x.getLsbD 3 = false ∧ 1 ≤ x.toNat % 8 ∧ x.toNat % 8 ≤ 5 := by
    simp [modeOk, and_assoc]
  rw [← Bool.not_eq_true, hok, lt_two_pow_ten_iff, ← hdir]
  simp only [not_and_or, not_lt, not_forall, Bool.not_eq_false, exists_prop]
  rw [or_assoc, or_assoc, or_left_comm (b := x.getLsbD 3 = true)]

theorem lt_two_pow_ten_of_modeOk {x : W64} (h : modeOk x = true) : x.toNat < 2 ^ 10 := by
  simp only [modeOk, Bool.and_eq_true, decide_eq_true_eq] at h
  exact h.1.1.1

/-- The bits of MODE after `mset`: CHK, bit 9, as it was (R114). -/
theorem getLsbD_newMode (old : BitVec 32) {x : W64} {i : Nat} (hi : i < 32) (hx : x.toNat < 2 ^ 10) :
    (newMode old x).getLsbD i = if i = 9 then old.getLsbD 9 else x.getLsbD i := by
  have hlow : (0x1FF : BitVec 32).getLsbD i = decide (i < 9) := by
    rw [show (0x1FF : BitVec 32) = BitVec.ofNat 32 (2 ^ 9 - 1) from rfl, BitVec.getLsbD_ofNat, Nat.testBit_two_pow_sub_one]
    simp [hi]
  have hchk : (0x200 : BitVec 32).getLsbD i = decide (9 = i) := by
    rw [show (0x200 : BitVec 32) = BitVec.ofNat 32 (2 ^ 9) from rfl, getLsbD_ofNat_two_pow]
    simp [hi]
  have hhigh := ((lt_two_pow_ten_iff x).1 hx).2 i
  unfold newMode
  rw [BitVec.getLsbD_or, BitVec.getLsbD_and, BitVec.getLsbD_and, BitVec.getLsbD_setWidth, hlow, hchk]
  rcases Nat.lt_trichotomy i 9 with h | rfl | h
  · simp [h, hi, h.ne, h.ne']
  · simp
  · simp [hhigh h hi, h.ne, h.ne', h.not_gt]

/-- Settles O17: `mset` as MODE takes the value or refuses it. -/
theorem modeWrite : Obligations.ModeWrite := by
  unfold Obligations.ModeWrite
  intro s k g sa h hp x rnd bad
  refine ⟨fun hb => ?_, fun hb => ?_⟩
  · refine (onStoker_next h.1 h.2 _).trans ?_
    have hok : modeOk (g.sGet sa.toNat).val = false := (modeOk_eq_false_iff x).2 hb
    rw [if_neg (by simp [hp]), if_neg (by simp [hok])]
  · have hok : modeOk x = true := by simpa using mt (modeOk_eq_false_iff x).1 hb
    refine ⟨newMode g.mode x, State.becomes_of ((onStoker_next h.1 h.2 _).trans ?_), fun i hi => ?_⟩
    · rw [if_neg (by simp [hp]), if_pos hok]
      rfl
    · exact getLsbD_newMode g.mode hi (lt_two_pow_ten_of_modeOk hok)

end Sys2Proof.Machine
end

section
/-! # `launch` and `cwait` (O20)

A lemma for each check of `launch` in its order, then what the record that is read leads to. -/

namespace Sys2Proof.Machine

/-! ### `launch` (R115) -/

section
variable {s : State} {k : Nat} {g : Group} {sa : BitVec 6} (h : s.stokerAt k g)
include h

theorem launch_again {child : Grid} (hl : g.launching = some child) : exec (.launch sa) s = .next (s.beget k g child) := by
  refine (onStoker_next h.1 h.2 _).trans ?_
  simp only [hl]

variable (hl : g.launching = none)
include hl

theorem launch_in_handler (hh : g.hnd ≠ none) : s.trapsS s (.launch sa) k g (trapOperand 0) 4 := by
  refine (onStoker_next h.1 h.2 _).trans ?_
  simp only [hl, Option.isSome_iff_ne_none.2 hh, if_true]

variable (hh : g.hnd = none)
include hh

theorem launch_poisoned (hp : (g.sGet sa.toNat).pz = true) :
    s.trapsS s (.launch sa) k g (trapPoison (g.sGet sa.toNat).val 256) 4 := by
  refine (onStoker_next h.1 h.2 _).trans ?_
  simp only [hl, hh, hp, Option.isSome_none, Bool.false_eq_true, if_false, if_true]

variable (hp : (g.sGet sa.toNat).pz = false)
include hp

theorem launch_misaligned (ha : (g.sGet sa.toNat).val.toNat % 256 ≠ 0) :
    s.trapsS s (.launch sa) k g (trapOperand (g.sGet sa.toNat).val) 4 := by
  refine (onStoker_next h.1 h.2 _).trans ?_
  simp only [hl, hh, hp, Option.isSome_none, Bool.false_eq_true, if_false, bne_iff_ne.2 ha, if_true]

variable (ha : (g.sGet sa.toNat).val.toNat % 256 = 0)
include ha

/-- A group that may not launch, by its place in its team or its grid's depth, takes the launch fault unread (log 64). -/
theorem launch_barred (hb : ¬ (g.kern.team = 0 ∨ g.gidx % g.kern.team = 0) ∨ 10 ≤ (s.gridAt (s.wgOf g.wg).grid).depth) :
    s.trapsS s (.launch sa) k g { code := 0x12, addr := (g.sGet sa.toNat).val } 4 := by
  refine (onStoker_next h.1 h.2 _).trans ?_
  simp only [hl, hh, hp, ha, Option.isSome_none, Bool.false_eq_true, if_false, bne_self_eq_false]
  rw [if_pos (by simpa [not_or] using hb)]

end

/-- A group may launch, as far as it can be told before its record is read (R115, R216). -/
structure State.MayLaunch (s : State) (g : Group) (sa : BitVec 6) : Prop where
  hnd : g.hnd = none
  launching : g.launching = none
  clean : (g.sGet sa.toNat).pz = false
  aligned : (g.sGet sa.toNat).val.toNat % 256 = 0
  lead : g.kern.team = 0 ∨ g.gidx % g.kern.team = 0
  depth : (s.gridAt (s.wgOf g.wg).grid).depth < 10

/-- The child of a launching group, with what it has from its parent's grid (R115). -/
def Grid.born (child : Grid) (gid : Nat) (gr : Grid) (parent : Nat × Nat) : Grid :=
  { child with
    q := gr.q, rec_ := gr.rec_, parent := some parent, pgrid := some gid, depth := gr.depth + 1, prio := gr.prio, latency := gr.latency }

/-- A `launch` from its parsed record on. -/
def State.launchParsed (s : State) (k : Nat) (g : Group) (a : W64) (gid : Nat) (gr : Grid) : Grid ⊕ Nat → State
  | .inr _ => s.trapS k g { code := 0x12, addr := a }
  | .inl child => if s.childStuck gid child then s.trapS k g { code := 0x12, addr := a } else s.beget k g (child.born gid gr g.name)

/-- A `launch` from what reading its record gave on. -/
def launchRead (k : Nat) (g : Group) (a : W64) (gid : Nat) (gr : Grid) : State × (Option (List Byte × Bool) ⊕ Trap) → State
  | (s, .inr t) => s.trapS k (s.fresh k g) t
  | (s, .inl none) => s.waitS k
  | (s, .inl (some (b, _))) =>
    let g := s.fresh k g
    s.launchParsed k g a gid gr (s.parse (dieOf (hearthOf k)) g.ctx b (some (g.wg, g.gidx, gid, gr)))

theorem State.MayLaunch.exec_launch {s : State} {k : Nat} {g : Group} {sa : BitVec 6} (hm : s.MayLaunch g sa) (h : s.stokerAt k g) :
    exec (.launch sa) s = .next (launchRead k g (g.sGet sa.toNat).val (s.wgOf g.wg).grid (s.gridAt (s.wgOf g.wg).grid)
      (s.readRange k g (g.sGet sa.toNat).val 256)) := by
  have hbar : ((g.kern.team != 0 && g.gidx % g.kern.team != 0) || decide (10 ≤ (s.gridAt (s.wgOf g.wg).grid).depth)) = false := by
    simpa [or_iff_not_imp_left] using ⟨or_iff_not_imp_left.1 hm.lead, hm.depth⟩
  refine (onStoker_next h.1 h.2 _).trans ?_
  simp only [hm.hnd, hm.launching, hm.clean, hm.aligned, hbar, Option.isSome_none, Bool.false_eq_true, if_false, bne_self_eq_false]
  rcases s.readRange k g (g.sGet sa.toNat).val 256 with ⟨s1, ((_ | ⟨b, pz⟩) | t)⟩ <;> rfl

/-! ### The child starts (R115) -/

section
variable (s : State) (k : Nat) (g : Group) (child : Grid)

theorem State.beget_waits (h : 64 ≤ s.children g ∨ s.stokerPending g.name 4 = true) :
    s.beget k g child = s.setG k { g with sWait := true, launching := some child } := by
  unfold State.beget
  exact if_pos (by simpa [scopeDev] using h)

theorem State.beget_starts (hc : s.children g < 64) (hp : s.stokerPending g.name 4 = false) :
    s.beget k g child =
      ({ s.newId with grids := tabSet s.grids s.nextId child } : State).setG k { g with launching := none, spc := g.spc + 4 } := by
  unfold State.beget
  exact if_neg (by simpa [scopeDev] using ⟨hc, hp⟩)
end

/-! ### `cwait` (R116) -/

theorem State.children_eq_zero_iff (s : State) (g : Group) :
    s.children g = 0 ↔ ∀ p ∈ s.grids, p.2.parent ≠ some (g.wg, g.gidx) := by
  simp [State.children, Group.name]

section
variable {s : State} {k : Nat} {g : Group} (h : s.stokerAt k g)
include h

theorem cwait_in_handler (hh : g.hnd ≠ none) : s.trapsS s .cwait k g (trapOperand 0) 4 := by
  refine (onStoker_next h.1 h.2 _).trans ?_
  simp only [Option.isSome_iff_ne_none.2 hh, if_true]

theorem cwait_next (hh : g.hnd = none) : exec .cwait s = .next (if s.children g = 0 then s.setG k (g.adv 4) else s.waitS k) := by
  refine (onStoker_next h.1 h.2 _).trans ?_
  simp only [hh, Option.isSome_none, Bool.false_eq_true, if_false]
end

/-- Settles O20: the checks of `launch` in their order, what the record read leads to, and `cwait` by the group's children. -/
theorem launching : Obligations.Launching := by
  unfold Obligations.Launching
  intro s s1 k g sa b pz child reason tr h a gid gr lead first may read g1 parsed born begets fault
  have reads (hm : may) : exec (.launch sa) s = .next (launchRead k g a gid gr read) := by
    obtain ⟨⟨hh, hl⟩, hp, ha, hlead, hd⟩ := hm
    exact State.MayLaunch.exec_launch ⟨hh, hl, hp, ha, hlead, hd⟩ h
  have parses (hm : may) (hr : read = (s1, .inl (some (b, pz)))) :
      exec (.launch sa) s = .next (s1.launchParsed k g1 a gid gr parsed) := by
    rw [reads hm, hr]
    rfl
  have begetting {s1 : State} {g : Group} {child : Grid} (hx : exec (.launch sa) s = .next (s1.beget k g child)) : begets s1 g child := by
    refine ⟨fun hc hp => ?_, fun hw => ?_⟩
    · rw [State.beget_starts _ _ _ _ hc hp] at hx
      exact ⟨_, hx, State.grp_setG_same _ _ _, fun j hj => State.grp_setG_other _ _ _ _ hj, rfl,
        fun j hj => tabGet_tabSet_other _ _ _ _ hj.symm, tabGet_tabSet_same _ _ _⟩
    · rw [hx, State.beget_waits _ _ _ _ hw]
  refine ⟨fun hh hl => launch_in_handler h hl hh, fun ⟨hh, hl⟩ hp => launch_poisoned h hl hh hp,
    fun ⟨hh, hl⟩ hp ha => launch_misaligned h hl hh hp ha, fun ⟨hh, hl⟩ hp ha hb => launch_barred h hl hh hp ha hb,
    fun hm hr => ?_, fun hm hr => ?_, fun hm hr hq => ?_, fun hm hr hq hst => ?_, fun hm hr hq hst => ?_,
    fun hl => begetting (launch_again h hl), cwait_in_handler h, fun hh hc => ?_, fun hh hc => ?_⟩
  · exact (reads hm).trans (by rw [hr]; rfl)
  · exact (reads hm).trans (by rw [hr]; rfl)
  · exact (parses hm hr).trans (by rw [hq]; rfl)
  · exact (parses hm hr).trans (by rw [hq, State.launchParsed, if_pos hst])
  · exact begetting ((parses hm hr).trans (by rw [hq, State.launchParsed, if_neg (by simp [hst])]; rfl))
  · exact State.becomes_of ((cwait_next h hh).trans (by rw [if_pos ((s.children_eq_zero_iff g).2 hc)]))
  · refine State.waitsS_of h.2 ((cwait_next h hh).trans ?_)
    rw [if_neg fun h0 => ?_]
    obtain ⟨p, hp, hpar⟩ := hc
    exact (s.children_eq_zero_iff g).1 h0 p hp hpar

end Sys2Proof.Machine
end

section
/-! # The view registers (O21)

A `vset` goes through its checks (`VSet.run`, `VSet.bind`) to an entry that it shares or fills; the lemmas follow that course. -/

namespace Sys2Proof.Machine

/-! ### Held and free entries (R180, R185) -/

theorem State.heldWith_some {s : State} {h ctx key n : Nat} {d : VDesc} {f : VEnt → Bool} (hs : s.heldWith h ctx key d f = some n) :
    n ∈ s.heldSlots h (fun _ => true) ∧ (s.vent h n).ctx = ctx ∧ (s.vent h n).matrix = key ∧ (s.vent h n).len = d.len ∧
      (s.vent h n).width = d.width ∧ (s.vent h n).mfmt = d.mfmt ∧ f (s.vent h n) = true := by
  refine ⟨List.mem_of_find?_eq_some hs, ?_⟩
  simpa [and_assoc] using List.find?_some hs

theorem State.heldWith_none {s : State} {h ctx key : Nat} {d : VDesc} {f : VEnt → Bool} (hs : s.heldWith h ctx key d f = none) (n : Nat) :
    ¬ (n ∈ s.heldSlots h (fun _ => true) ∧ (s.vent h n).ctx = ctx ∧ (s.vent h n).matrix = key ∧ (s.vent h n).len = d.len ∧
      (s.vent h n).width = d.width ∧ (s.vent h n).mfmt = d.mfmt ∧ f (s.vent h n) = true) := by
  rintro ⟨hn, hkey⟩
  have hno := List.find?_eq_none.1 hs n hn
  simp [hkey] at hno

theorem State.freeSlot_eq_some {s : State} {h n : Nat} (hn : n < 256) (hfree : n ∉ s.heldSlots h fun _ => true)
    (hlow : ∀ m < n, m ∈ s.heldSlots h fun _ => true) : s.freeSlot h = some n := by
  refine List.find?_range_eq_some.2 ⟨by simpa using hfree, List.mem_range.2 hn, fun m hm => ?_⟩
  simpa using hlow m hm

theorem State.freeSlot_eq_none {s : State} {h : Nat} (hall : ∀ n < 256, n ∈ s.heldSlots h fun _ => true) : s.freeSlot h = none :=
  List.find?_eq_none.2 fun n hn => by simpa using hall n (List.mem_range.1 hn)

/-- A filled entry whose generation can rise: nothing else of the machine changes (R187). -/
theorem State.fillEntry_eq {s : State} {h n : Nat} {e : VEnt} (hg : (s.vent h n).gen < 2 ^ 32 - 1) :
    s.fillEntry h n e = { s with vstore := tabSet s.vstore (256 * h + n) { e with gen := (s.vent h n).gen + 1 } } := by
  unfold State.fillEntry
  simp only [Nat.not_le.2 hg, if_false]

/-! ### The course of a `vset` (R188) -/

/-- A group that stands in the table is as it stands. -/
theorem State.fresh_of {s : State} {k : Nat} {g : Group} (h : s.grp k = some g) : s.fresh k g = g := by
  rw [fresh, h, Option.getD_some]

/-- A `vset` as it is issued. -/
def Group.vset (g : Group) (k : Nat) (wn : BitVec 3) (sa : BitVec 6) : VSet :=
  { k := k, g := g, wn := wn.toNat, addr := (g.sGet sa.toNat).val, pc := g.spc, again := false }

section
variable {v : VSet} {s s1 : State}

theorem VSet.trap_issued (h : v.again = false) (t : Trap) : v.trap s t = s.trapS v.k (s.fresh v.k v.g) t 4 := by
  unfold VSet.trap
  rw [if_neg (by simp [h])]

theorem VSet.past_issued (h : v.again = false) : v.past s = { s.fresh v.k v.g with spc := (s.fresh v.k v.g).spc + 4 } := by
  unfold VSet.past
  simp only [h, Bool.false_eq_true, if_false]
  rfl

section
variable (hb : tabGet v.g.wBusy v.wn = none)
include hb

theorem VSet.run_misaligned (ha : v.addr.toNat % 64 ≠ 0) : v.run s = v.trap s (trapOperand v.addr) := by
  unfold VSet.run
  simp only [hb, Option.isSome_none, Bool.false_eq_true, if_false, bne_iff_ne.2 ha, if_true]

variable (ha : v.addr.toNat % 64 = 0)
include ha

theorem VSet.run_traps {t : Trap} (hr : s.readRange v.k v.g v.addr 64 = (s1, .inr t)) : v.run s = v.trap s1 t := by
  unfold VSet.run
  simp only [hb, ha, hr, Option.isSome_none, Bool.false_eq_true, if_false, bne_self_eq_false]

theorem VSet.run_waits (hr : s.readRange v.k v.g v.addr 64 = (s1, .inl none)) : v.run s = s1.waitS v.k := by
  unfold VSet.run
  simp only [hb, ha, hr, Option.isSome_none, Bool.false_eq_true, if_false, bne_self_eq_false]

theorem VSet.run_binds {b : List Byte} {pz : Bool} (hr : s.readRange v.k v.g v.addr 64 = (s1, .inl (some (b, pz)))) :
    v.run s = v.bind s1 (leNat b) := by
  unfold VSet.run
  simp only [hb, ha, hr, Option.isSome_none, Bool.false_eq_true, if_false, bne_self_eq_false]
end

section
variable {x : Nat}

theorem VSet.bind_illegal (hd : (vdesc x).ok = false) : v.bind s x = v.trap s (trapOperand v.addr) := by
  unfold VSet.bind
  simp only [hd, Bool.not_false, if_true]

variable (hd : (vdesc x).ok = true)
include hd

theorem VSet.bind_barred {t : Trap} (hc : s.chkTlb v.k v.g accLoad (vdesc x).matrix 2 = (s1, .trap t)) : v.bind s x = v.trap s1 t := by
  unfold VSet.bind
  simp only [hd, hc, Bool.not_true, Bool.false_eq_true, if_false]

variable {t : Tr} (hc : s.chkTlb v.k v.g accLoad (vdesc x).matrix 2 = (s1, .ok t))
include hc

/-- A frozen-clean entry with the key is used unread. -/
theorem VSet.bind_clean {n : Nat} (hh : s1.heldWith (hearthOf v.k) v.g.ctx (matrixKey t) (vdesc x) (·.fclean) = some n) :
    v.bind s x = v.share s1 x n := by
  unfold VSet.bind
  simp only [hd, hc, hh, Bool.not_true, Bool.false_eq_true, if_false]

variable (hh : s1.heldWith (hearthOf v.k) v.g.ctx (matrixKey t) (vdesc x) (·.fclean) = none) {s2 : State}
include hh

theorem VSet.bind_traps {y : Trap} (hr : s1.readRange v.k v.g (vdesc x).matrix (vdesc x).matBytes = (s2, .inr y)) :
    v.bind s x = v.trap s2 y := by
  unfold VSet.bind
  simp only [hd, hc, hh, hr, Bool.not_true, Bool.false_eq_true, if_false]

theorem VSet.bind_waits (hr : s1.readRange v.k v.g (vdesc x).matrix (vdesc x).matBytes = (s2, .inl none)) : v.bind s x = s2.waitS v.k := by
  unfold VSet.bind
  simp only [hd, hc, hh, hr, Bool.not_true, Bool.false_eq_true, if_false]

variable {m : List Byte} {pz : Bool} (hr : s1.readRange v.k v.g (vdesc x).matrix (vdesc x).matBytes = (s2, .inl (some (m, pz))))
include hr

theorem VSet.bind_equal {n : Nat} (he : s2.heldWith (hearthOf v.k) v.g.ctx (matrixKey t) (vdesc x)
    (fun e => !pz && !e.pz && e.bytes == m) = some n) : v.bind s x = v.share s2 x n := by
  unfold VSet.bind
  simp only [hd, hc, hh, hr, he, Bool.not_true, Bool.false_eq_true, if_false]

theorem VSet.bind_fills (he : s2.heldWith (hearthOf v.k) v.g.ctx (matrixKey t) (vdesc x)
    (fun e => !pz && !e.pz && e.bytes == m) = none) : v.bind s x = v.fill s2 x m pz (matrixKey t) := by
  unfold VSet.bind
  simp only [hd, hc, hh, hr, he, Bool.not_true, Bool.false_eq_true, if_false]
end

/-! ### Sharing an entry (R186, R188) -/

/-- The workgroup of a `vset` may hold an entry: one of its groups does, or its quota has room for it. -/
def VSet.mayHold (v : VSet) (s : State) (n : Nat) : Prop :=
  n ∈ s.heldSlots (hearthOf v.k) (fun x => x.wg == v.g.wg) ∨
    s.viewUse (hearthOf v.k) v.g.wg + (s.vent (hearthOf v.k) n).units ≤ (s.wgOf v.g.wg).vquota

section
variable {n : Nat} (x : Nat)

theorem VSet.share_barred (hm : ¬ v.mayHold s n) : v.share s x n = v.trap s { code := 0x13, addr := v.addr } := by
  unfold VSet.share
  exact if_pos (by simpa [mayHold, State.inQuota, not_or] using hm)

variable (hm : v.mayHold s n)
include hm

theorem VSet.share_unbarred :
    (!(s.heldSlots (hearthOf v.k) fun g' => g'.wg == v.g.wg).contains n &&
      !s.inQuota (hearthOf v.k) v.g (s.vent (hearthOf v.k) n).units) = false := by
  simpa [mayHold, State.inQuota, or_iff_not_imp_left] using hm

theorem VSet.share_binds (hc : s.copyEnds (hearthOf v.k) n = none) :
    v.share s x n =
      s.setG v.k { v.past s with w := tabSet v.g.w v.wn (vbound n (s.vent (hearthOf v.k) n).gen x) } := by
  unfold VSet.share
  simp only [share_unbarred hm, hc, Bool.false_eq_true, if_false]

theorem VSet.share_waits_for_copy {clk : Nat} (hc : s.copyEnds (hearthOf v.k) n = some clk) :
    v.share s x n =
      s.setG v.k { v.past s with
        wBusy := tabSet v.g.wBusy v.wn
          { w := vbound n (s.vent (hearthOf v.k) n).gen x, ready := clk, addr := v.addr, pc := v.pc } } := by
  unfold VSet.share
  simp only [share_unbarred hm, hc, Bool.false_eq_true, if_false]
end

/-! ### Filling an entry (R186–R188) -/

/-- The quota has room for the matrix of a descriptor. -/
def VSet.hasRoom (v : VSet) (s : State) (x : Nat) : Prop :=
  s.viewUse (hearthOf v.k) v.g.wg + viewUnits (vdesc x).matBytes ≤ (s.wgOf v.g.wg).vquota

/-- What a matrix leaves in its entry, but for the generation. -/
def VSet.entry (v : VSet) (s : State) (x : Nat) (m : List Byte) (pz : Bool) (key : Nat) : VEnt :=
  let d := vdesc x
  let h := hearthOf v.k
  { ctx := v.g.ctx, pz := pz, fclean := s.allFrozen h v.g.ctx d.matrix 16 d.matBytes, units := viewUnits d.matBytes,
    pages := s.pagesFrom h v.g.ctx d.matrix 16 d.matBytes, matrix := key, len := d.len, width := d.width, mfmt := d.mfmt, bytes := m }

section
variable {x : Nat} (m : List Byte) (pz : Bool) (key : Nat)

theorem VSet.fill_barred (hf : ¬ v.hasRoom s x ∨ s.freeSlot (hearthOf v.k) = none) :
    v.fill s x m pz key = v.trap s { code := 0x13, addr := v.addr } := by
  unfold VSet.fill
  by_cases hroom : v.hasRoom s x
  · have hnone := hf.resolve_left (not_not.2 hroom)
    simp only [hnone, ite_self]
  · exact if_pos (by simpa [hasRoom, State.inQuota] using hroom)

theorem VSet.fill_next {n : Nat} (hroom : v.hasRoom s x) (hf : s.freeSlot (hearthOf v.k) = some n)
    (hg : (s.vent (hearthOf v.k) n).gen < 2 ^ 32 - 1) :
    v.fill s x m pz key =
      ({ s with
          vstore := tabSet s.vstore (256 * hearthOf v.k + n)
            { v.entry s x m pz key with gen := (s.vent (hearthOf v.k) n).gen + 1 } } : State).setG v.k
        { v.past s with
          wBusy := tabSet v.g.wBusy v.wn
            { w := vbound n ((s.vent (hearthOf v.k) n).gen + 1) x, ready := s.clk + ((vdesc x).matBytes + 255) / 256,
              addr := v.addr, pc := v.pc } } := by
  have hq : (!s.inQuota (hearthOf v.k) v.g (viewUnits (vdesc x).matBytes)) = false := by
    simpa [hasRoom, State.inQuota] using hroom
  unfold VSet.fill
  simp only [hq, hf, Bool.false_eq_true, if_false, State.fillEntry_eq hg]
  simp only [State.vent, tabD_tabSet_same]
  rfl
end
end

/-! ### `vset`, `vdrop` and `vqry` -/

theorem VwReg.word_of_bound {w : VwReg} (h : w.bound = true) : w.word = (0 : BitVec 23) ++ w.gen ++ w.slot ++ (1 : BitVec 1) := by
  have hgen := w.gen.isLt
  have hslot := w.slot.isLt
  apply BitVec.eq_of_toNat_eq
  simp only [word, h, if_true, BitVec.toNat_append, BitVec.toNat_ofNat]
  rw [← Nat.shiftLeft_add_eq_or_of_lt hgen, ← Nat.shiftLeft_add_eq_or_of_lt hslot, ← Nat.shiftLeft_add_eq_or_of_lt (by decide)]
  have hzero : (0 : BitVec 23).toNat = 0 := rfl
  have hone : (1 : BitVec 1).toNat = 1 := rfl
  rw [hzero, hone]
  simp only [Nat.shiftLeft_eq]
  omega

theorem ofNat_bits (x : BitVec 512) (lo : Nat) : BitVec.ofNat 64 (bits x.toNat lo 64) = x.extractLsb' lo 64 := by
  apply BitVec.eq_of_toNat_eq
  simp [bits, BitVec.extractLsb'_toNat, Nat.shiftRight_eq_div_pow]

section
variable {s : State} {k : Nat} {g : Group} {wn : BitVec 3} (h : s.stokerAt k g)
include h

/-- While the copy of a view register is under way, what uses the register waits (R188). -/
theorem view_waits (hb : tabGet g.wBusy wn.toNat ≠ none) (sa sd : BitVec 6) (n : BitVec 3) :
    ∀ i ∈ ([.vset wn sa, .vdrop wn, .vqry sd wn n] : List Instr), s.waitsS s i k g := by
  have hsome := Option.isSome_iff_ne_none.2 hb
  simp only [List.forall_mem_cons]
  refine ⟨?_, ?_, ?_, List.forall_mem_nil _⟩ <;>
    exact State.waitsS_of h.2 ((onStoker_next h.1 h.2 _).trans (by rw [if_pos hsome]))

variable (hb : tabGet g.wBusy wn.toNat = none)
include hb

theorem vset_poisoned {sa : BitVec 6} (hp : (g.sGet sa.toNat).pz = true) :
    s.trapsS s (.vset wn sa) k g (trapPoison (g.sGet sa.toNat).val 64) 4 := by
  refine (onStoker_next h.1 h.2 _).trans ?_
  simp only [hb, hp, Option.isSome_none, Bool.false_eq_true, if_false, if_true]

theorem vset_next {sa : BitVec 6} (hp : (g.sGet sa.toNat).pz = false) : exec (.vset wn sa) s = .next ((g.vset k wn sa).run s) := by
  refine (onStoker_next h.1 h.2 _).trans ?_
  simp only [hb, hp, Option.isSome_none, Bool.false_eq_true, if_false]
  rfl

theorem vdrop_next : exec (.vdrop wn) s = .next (s.setG k { g with w := tabSet g.w wn.toNat {}, spc := g.spc + 4 }) := by
  refine (onStoker_next h.1 h.2 _).trans ?_
  simp only [hb, Option.isSome_none, Bool.false_eq_true, if_false]
  rfl

theorem vqry_unbound {sd : BitVec 6} {n : BitVec 3} (hw : (tabD g.w wn.toNat {}).bound = false) :
    s.putsS s (.vqry sd wn n) k g sd ⟨0, false⟩ 4 := by
  refine State.putsS_of ((onStoker_next h.1 h.2 _).trans ?_)
  simp only [hb, hw, Option.isSome_none, Bool.false_eq_true, if_false]

theorem vqry_bound {sd : BitVec 6} {n : BitVec 3} (hw : (tabD g.w wn.toNat {}).bound = true) :
    s.putsS s (.vqry sd wn n) k g sd
      ⟨if n = 0 then (tabD g.w wn.toNat {}).word else (tabD g.w wn.toNat {}).desc.extractLsb' (64 * (n.toNat - 1)) 64, false⟩ 4 := by
  refine State.putsS_of ((onStoker_next h.1 h.2 _).trans ?_)
  simp only [hb, hw, Option.isSome_none, Bool.false_eq_true, if_false, if_true, ofNat_bits]
end

/-- Settles O21: the course of a `vset` by its checks to the entry it shares or fills, then `vdrop` and `vqry`. -/
theorem viewRegisters : Obligations.ViewRegisters := by
  unfold Obligations.ViewRegisters
  refine ⟨?_, fun s h ctx key n d f => ⟨State.heldWith_some, State.heldWith_none⟩⟩
  intro s s1 s2 s3 k g sa sd wn n b m pz0 pz t slot tr hs a h d key i bound idle asks desc legal found clean body read equal fault shares
    room held w
  let v := g.vset k wn sa
  have traps (s1 : State) (t : Trap) : v.trap s1 t = s1.trapS k (s1.fresh k g) t 4 := VSet.trap_issued rfl t
  have hx (ha : asks) : exec i s = .next (v.run s) := by
    obtain ⟨hidle, hpz, -⟩ := ha
    exact vset_next hs hidle hpz
  have hbind (hl : legal) : exec i s = .next (v.bind s1 (leNat b)) := by
    obtain ⟨ha, hread, -⟩ := hl
    have ⟨hidle, _, haligned⟩ := ha
    exact (hx ha).trans (congrArg _ (VSet.run_binds hidle haligned hread))
  have sharing {s1 : State} (he : exec i s = .next (v.share s1 (leNat b) slot)) : shares s1 := by
    refine ⟨fun hm hc => ?_, fun clk hm hc => ?_, fun hm => ?_⟩
    · exact ⟨_, he.trans (congrArg _ (VSet.share_binds (v := v) _ hm hc)), s1.sameBut_setG _ _, State.grp_setG_same _ _ _⟩
    · exact ⟨_, he.trans (congrArg _ (VSet.share_waits_for_copy (v := v) _ hm hc)), s1.sameBut_setG _ _, State.grp_setG_same _ _ _⟩
    · exact he.trans (congrArg _ ((VSet.share_barred (v := v) _ hm).trans (traps _ _)))
  have hfill (hr : read) (he : equal = none) : exec i s = .next (v.fill s3 (leNat b) m pz key) := by
    obtain ⟨⟨hl, hc⟩, hh, hm⟩ := hr
    have ⟨_, _, hok⟩ := hl
    rw [hbind hl, VSet.bind_fills (v := v) hok hc hh hm he]
  refine ⟨fun hb => view_waits hs hb sa sd n, fun hb hp => vset_poisoned hs hb hp, fun hb hp ha => ?_, fun hq hr => ?_, fun hq hr => ?_,
    fun hq hr hd => ?_, fun hl hc => ?_, fun hf hc => ?_, fun hf hc hr => ?_, fun hf hc hr => ?_, fun hr he => ?_,
    fun hr he hroom hn hfree hlow hg => ?_, fun hr he hf => ?_, fun hb => State.becomes_of (vdrop_next hs hb),
    fun hb hw => vqry_unbound hs hb hw, fun hb hw => ?_⟩
  · have hfresh : s.fresh k g = g := State.fresh_of hs.2
    have htrap := traps s (trapOperand a)
    rw [hfresh] at htrap
    exact (vset_next hs hb hp).trans (congrArg _ ((VSet.run_misaligned (v := v) hb ha).trans htrap))
  · have ⟨hidle, _, haligned⟩ := hq
    exact (hx hq).trans (congrArg _ ((VSet.run_traps (v := v) hidle haligned hr).trans (traps _ _)))
  · have ⟨hidle, _, haligned⟩ := hq
    exact (hx hq).trans (congrArg _ (VSet.run_waits (v := v) hidle haligned hr))
  · have ⟨hidle, _, haligned⟩ := hq
    have hillegal := (VSet.run_binds (v := v) hidle haligned hr).trans (VSet.bind_illegal hd)
    exact (hx hq).trans (congrArg _ (hillegal.trans (traps _ _)))
  · have ⟨_, _, hok⟩ := hl
    exact (hbind hl).trans (congrArg _ ((VSet.bind_barred (v := v) hok hc).trans (traps _ _)))
  · obtain ⟨hl, ht⟩ := hf
    have ⟨_, _, hok⟩ := hl
    exact sharing ((hbind hl).trans (congrArg _ (VSet.bind_clean (v := v) hok ht hc)))
  · obtain ⟨hl, ht⟩ := hf
    have ⟨_, _, hok⟩ := hl
    exact (hbind hl).trans (congrArg _ ((VSet.bind_traps (v := v) hok ht hc hr).trans (traps _ _)))
  · obtain ⟨hl, ht⟩ := hf
    have ⟨_, _, hok⟩ := hl
    exact (hbind hl).trans (congrArg _ (VSet.bind_waits (v := v) hok ht hc hr))
  · obtain ⟨⟨hl, ht⟩, hc, hm⟩ := hr
    have ⟨_, _, hok⟩ := hl
    exact sharing ((hbind hl).trans (congrArg _ (VSet.bind_equal (v := v) hok ht hc hm he)))
  · have hnext := (hfill hr he).trans (congrArg _ (VSet.fill_next (v := v) m pz key hroom (State.freeSlot_eq_some hn hfree hlow) hg))
    exact ⟨_, hnext, fun _ => rfl, fun j hj => State.grp_setG_other _ _ _ _ hj, fun j hj => tabGet_tabSet_other _ _ _ _ hj.symm,
      tabD_tabSet_same _ _ _ _, State.grp_setG_same _ _ _⟩
  · have hbar : ¬ v.hasRoom s3 (leNat b) ∨ s3.freeSlot h = none := hf.imp_right State.freeSlot_eq_none
    exact (hfill hr he).trans (congrArg _ ((VSet.fill_barred (v := v) m pz key hbar).trans (traps _ _)))
  · rw [← VwReg.word_of_bound hw]
    exact vqry_bound hs hb hw

end Sys2Proof.Machine
end

section
/-! # Lane blocks (O15)

What `lrun` enqueues, what retiring the oldest block lands, and what `lkill` leaves: it writes lane registers and drops blocks and splits,
and touches nothing else of the group. -/

namespace Sys2Proof.Machine

/-! ### `lrun` (R106) -/

/-- A block enqueued with the snapshot of this moment, and the stoker past its `lrun`. -/
def State.runBlock (s : State) (k : Nat) (idx : BitVec 25) (g : Group) : State :=
  s.newId.setG k ((g.enqueue s.nextId idx.toNat g.entryMask).adv 4)

section
variable {s : State} {k : Nat} {g : Group} {idx : BitVec 25} (h : s.stokerAt k g)
include h

theorem lrun_beyond (hi : g.kern.lcinsts ≤ idx.toNat) : s.trapsS s (.lrun idx) k g (trapOperand (idx.setWidth 64)) 4 := by
  refine (onStoker_next h.1 h.2 _).trans ?_
  rw [if_pos hi]

variable (hi : idx.toNat < g.kern.lcinsts) (hb : g.wBusy = [])
include hi hb

theorem lrun_in_room (hl : g.blocks.length < g.blockLimit) : exec (.lrun idx) s = .next (s.runBlock k idx g) := by
  refine (onStoker_next h.1 h.2 _).trans ?_
  simp only [Nat.not_le.2 hi, hb, hl, List.isEmpty_nil, Bool.not_true, Bool.false_eq_true, if_false, if_true]
  rfl

variable (hl : g.blockLimit ≤ g.blocks.length)
include hl

theorem lrun_retires {g1 : Group} (hr : s.retireOldest g = some g1) : exec (.lrun idx) s = .next (s.runBlock k idx g1) := by
  refine (onStoker_next h.1 h.2 _).trans ?_
  simp only [Nat.not_le.2 hi, hb, Nat.not_lt.2 hl, hr, List.isEmpty_nil, Bool.not_true, Bool.false_eq_true, if_false]
  rfl

theorem lrun_waits (hr : s.retireOldest g = none) : s.waitsS s (.lrun idx) k g := by
  refine State.waitsS_of h.2 ((onStoker_next h.1 h.2 _).trans ?_)
  simp only [Nat.not_le.2 hi, hb, Nat.not_lt.2 hl, hr, List.isEmpty_nil, Bool.not_true, Bool.false_eq_true, if_false]
end

/-- A block that is enqueued while none executes starts at its label; else it queues (R29). -/
theorem Group.enqueue_eq (g : Group) (id idx : Nat) (mask : Mask) :
    let b : Block := { id := id, start := idx, st := if g.execBlock.isNone then .executing else .queued, snap := g.snap }
    g.enqueue id idx mask =
      if g.execBlock.isNone then
        { g with blocks := g.blocks ++ [b], slot0 := some { pc := BitVec.ofNat 32 (12 * idx), mask := mask }, slot1 := none, spilled := [] }
      else { g with blocks := g.blocks ++ [b] } := by
  unfold enqueue
  split <;> rfl

/-! ### Retirement (R30, R33) -/

section
variable {s : State} {g : Group} {b : Block} {rest : List Block} (hb : g.blocks = b :: rest)
include hb

theorem State.retireOldest_of_stopped (hst : b.st = .stopped) (hp : s.blockPending g.name b.id = false) :
    s.retireOldest g = some (({ g with blocks := rest } : Group).landPend b.pend) := by
  unfold retireOldest
  simp only [hb, hst, hp, BEq.rfl, Bool.not_false, Bool.and_self, if_true]

theorem State.retireOldest_of_busy (h : b.st ≠ .stopped ∨ s.blockPending g.name b.id = true) : s.retireOldest g = none := by
  unfold retireOldest
  simp only [hb]
  rw [if_neg]
  rcases h with h | h <;> simp [h]
end

theorem State.retireOldest_of_none {s : State} {g : Group} (hb : g.blocks = []) : s.retireOldest g = some g := by
  unfold retireOldest
  rw [hb]

section
variable {s : State} {k : Nat} {g : Group} (h : s.stokerAt k g)
include h

theorem lwait_retires {g1 : Group} (hr : s.retireOldest g = some g1) : s.becomes .lwait k (g1.adv 4) := by
  refine State.becomes_of ((onStoker_next h.1 h.2 _).trans ?_)
  simp only [hr]

theorem lwait_waits (hr : s.retireOldest g = none) : s.waitsS s .lwait k g := by
  refine State.waitsS_of h.2 ((onStoker_next h.1 h.2 _).trans ?_)
  simp only [hr]
end

/-! ### Results in flight write lane registers alone -/

/-- Two groups agree in everything but their lane registers. -/
def Group.OnlyV (g g' : Group) : Prop := ∃ v, g' = { g with v := v }

theorem Group.OnlyV.refl (g : Group) : g.OnlyV g := ⟨g.v, rfl⟩

theorem Group.OnlyV.trans {g g' g'' : Group} : g.OnlyV g' → g'.OnlyV g'' → g.OnlyV g'' := by
  rintro ⟨v, rfl⟩ ⟨v', rfl⟩
  exact ⟨v', rfl⟩

theorem Group.OnlyV.foldl {α : Type} {f : Group → α → Group} (hf : ∀ (g : Group) x, g.OnlyV (f g x)) (l : List α) (g : Group) :
    g.OnlyV (l.foldl f g) := by
  induction l generalizing g with
  | nil => exact .refl g
  | cons x l ih => exact (hf g x).trans (ih _)

theorem Group.vSet_onlyV (g : Group) (t r : Nat) (x : LReg) : g.OnlyV (g.vSet t r x) := ⟨_, rfl⟩

theorem Group.writeOut_onlyV (g : Group) (o : Out) : g.OnlyV (g.writeOut o) := by
  refine OnlyV.foldl (fun g v => ?_) _ _
  split
  · exact g.vSet_onlyV _ _ _
  · exact .refl g

theorem Group.killOuts_onlyV (g : Group) (stamp : Nat) (sp : Split) : g.OnlyV (g.killOuts stamp sp) := by
  refine OnlyV.foldl (fun g o => OnlyV.foldl (fun g v => ?_) _ _) _ _
  split
  · split
    · exact g.vSet_onlyV _ _ _
    · exact .refl g
  · exact .refl g

/-- Landing the results of a slot leaves everything but lane registers and that slot. -/
theorem Group.landSplit_eq (g : Group) (slot : Nat) : ∃ v a b, g.landSplit slot = { g with v := v, slot0 := a, slot1 := b } := by
  unfold landSplit
  split
  · next sp _ =>
    obtain ⟨v, hv⟩ := OnlyV.foldl writeOut_onlyV (sp.outs.filter (·.complete)) g
    dsimp only
    rw [hv]
    unfold setSplit
    split
    · exact ⟨_, _, _, rfl⟩
    · exact ⟨_, _, _, rfl⟩
  · exact ⟨_, _, _, rfl⟩

theorem Group.landAll_eq (g : Group) : ∃ v a b l, g.landAll = { g with v := v, slot0 := a, slot1 := b, spilled := l } := by
  obtain ⟨v, a, b, h0⟩ := g.landSplit_eq 0
  obtain ⟨v', a', b', h1⟩ := (g.landSplit 0).landSplit_eq 1
  unfold landAll
  dsimp only
  obtain ⟨w, hw⟩ := OnlyV.foldl writeOut_onlyV
    (((g.landSplit 0).landSplit 1).spilled.foldr (fun p acc => (p.2.outs.filter (·.complete)) ++ acc) []) ((g.landSplit 0).landSplit 1)
  rw [hw, h1, h0]
  exact ⟨_, _, _, _, rfl⟩

/-! ### `lkill` (R108) -/

/-- The blocks that `lkill` leaves while their accesses are still to be performed: stopped, and nothing of them lands. -/
def killedBlocks (l : List Block) : List Block := (l.filter (·.st != .queued)).map fun b => { b with st := .stopped, pend := [] }

theorem Group.kill_eq (g : Group) (stamp : Nat) :
    ∃ v a b l, g.kill stamp = { g with v := v, blocks := killedBlocks g.blocks, slot0 := a, slot1 := b, spilled := l } := by
  unfold kill
  dsimp only
  obtain ⟨v, hv⟩ := OnlyV.foldl (fun g sp => g.killOuts_onlyV stamp sp) (g.slot0.toList ++ g.slot1.toList ++ g.spilled.map (·.2)) g
  rw [hv]
  exact ⟨_, _, _, _, rfl⟩

theorem Group.clearSplits_eq (g : Group) :
    ∃ v, g.clearSplits = { g with v := v, slot0 := none, slot1 := none, spilled := [], blocks := [] } := by
  obtain ⟨v, a, b, l, h⟩ := g.landAll_eq
  unfold clearSplits
  rw [h]
  exact ⟨_, rfl⟩

theorem State.blockPending_iff (s : State) (n : Nat × Nat) (blk : Nat) :
    s.blockPending n blk = true ↔ ∃ p ∈ s.pend, p.owner = some n ∧ p.blk = blk := by
  simp [blockPending]

theorem Pend.forget_owner (p : Pend) (f : Nat × Nat → Bool) : (p.forget f).owner = p.owner := by
  unfold forget; split <;> [split <;> rfl; rfl]

theorem Pend.forget_blk (p : Pend) (f : Nat × Nat → Bool) : (p.forget f).blk = p.blk := by
  unfold forget; split <;> [split <;> rfl; rfl]

theorem State.blockPending_forgetGroup (s : State) (k : Nat) (n : Nat × Nat) (blk : Nat) :
    (s.forgetGroup k).blockPending n blk = s.blockPending n blk := by
  simp [blockPending, forgetGroup, forgetAll, List.any_map, Function.comp_def, Pend.forget_owner, Pend.forget_blk]

/-- While `lkill` waits, it waits for accesses of its blocks; loads without response are dropped and not waited for. -/
theorem State.blockPending_dropLost {s : State} {n : Nat × Nat} {blk : Nat} :
    (s.dropLost n).blockPending n blk = true ↔ ∃ p ∈ s.pend, p.owner = some n ∧ p.blk = blk ∧ (blk = 0 ∨ p.isLost = false) := by
  simp only [blockPending_iff, dropLost, List.mem_filter]
  refine exists_congr fun p => ?_
  by_cases ho : p.owner = some n <;> by_cases hb : p.blk = blk <;> simp [ho, hb]

/-- The group and the rest of the machine as an `lkill` discards the blocks. -/
def State.killing (s : State) (k : Nat) (g : Group) : State := ((s.dropLost g.name).forgetGroup k).stamp

section
variable {s : State} {k : Nat} {g : Group} (h : s.stokerAt k g)
include h

theorem lkill_idle (hb : g.blocks = []) : s.becomes .lkill k (g.adv 4) := by
  refine State.becomes_of ((onStoker_next h.1 h.2 _).trans ?_)
  simp only [hb, List.isEmpty_nil, if_true]

theorem lkill_next (hb : g.blocks ≠ []) :
    exec .lkill s = .next (if (killedBlocks g.blocks).any fun b => (s.dropLost g.name).blockPending g.name b.id
      then ((s.killing k g).setG k (g.kill s.free)).waitS k else (s.killing k g).setG k ((g.kill s.free).clearSplits.adv 4)) := by
  obtain ⟨v, a, b, l, hkill⟩ := g.kill_eq s.free
  have hname : (g.kill s.free).name = g.name := by rw [hkill]; rfl
  have hblocks : (g.kill s.free).blocks = killedBlocks g.blocks := by rw [hkill]
  refine (onStoker_next h.1 h.2 _).trans ?_
  simp only [List.isEmpty_iff, hb, if_false, hname, hblocks, State.blockPending_forgetGroup]
  rfl
end

theorem mem_killedBlocks {l : List Block} {y : Block} (h : y ∈ killedBlocks l) :
    y.st = .stopped ∧ y.pend = [] ∧ ∃ x ∈ l, x.id = y.id := by
  obtain ⟨x, hx, rfl⟩ := List.mem_map.1 h
  exact ⟨rfl, rfl, x, (List.mem_filter.1 hx).1, rfl⟩

theorem killedBlocks_of_mem {l : List Block} {x : Block} (hx : x ∈ l) (hst : x.st ≠ .queued) :
    ({ x with st := .stopped, pend := [] } : Block) ∈ killedBlocks l :=
  List.mem_map.2 ⟨x, List.mem_filter.2 ⟨hx, by simpa using hst⟩, rfl⟩

/-- Settles O15, clause by clause: `lrun`, the entry mask, retirement by `lwait`, landing in order, and `lkill`. -/
theorem laneBlocks : Obligations.LaneBlocks := by
  unfold Obligations.LaneBlocks
  intro s k g g1 idx b rest l n v c h limit starts landed
  have starting {g : Group} (hx : exec (.lrun idx) s = .next (s.runBlock k idx g)) : starts g := by
    refine ⟨_, hx, _, State.grp_setG_same _ _ _, rfl, fun j hj => State.grp_setG_other _ _ _ _ hj, ?_⟩
    rw [Group.enqueue_eq]
    cases hex : g.execBlock with
    | none => exact ⟨rfl, rfl, rfl, rfl, rfl, rfl⟩
    | some b => exact ⟨rfl, rfl, rfl, rfl, rfl, rfl⟩
  refine ⟨lrun_beyond h, fun hi hb => ⟨fun hl => ?_, fun hl hr => ?_, fun hl hr => ?_⟩, fun hh => ?_, fun hb => ?_,
    fun hb hst hp => ?_, fun hb hw => ?_, ?_, ?_, fun hb hp => ?_, fun hp => ?_⟩
  · exact starting (lrun_in_room h hi hb hl)
  · exact starting (lrun_retires h hi hb hl hr)
  · exact lrun_waits h hi hb hl hr
  · rw [Group.entryMask, hh]
  · exact ⟨lwait_retires h (State.retireOldest_of_none hb), lkill_idle h hb⟩
  · have hr := State.retireOldest_of_stopped hb hst hp
    exact ⟨hr, lwait_retires h hr⟩
  · have hr := State.retireOldest_of_busy hb hw
    exact ⟨hr, lwait_waits h hr⟩
  · rw [Group.landPend, List.foldl_append]
    rfl
  · rw [Group.landPend, List.foldl_append]
    rfl
  · have hx := lkill_next h hb
    rw [if_neg] at hx
    · obtain ⟨v, a, b, l, hkill⟩ := g.kill_eq s.free
      obtain ⟨w, hclear⟩ := (g.kill s.free).clearSplits_eq
      rw [hclear, hkill] at hx
      exact ⟨_, hx, _, State.grp_setG_same _ _ _, fun _ => rfl, fun j hj => State.grp_setG_other _ _ _ _ hj, rfl, rfl, rfl, rfl,
        rfl, rfl, rfl, rfl⟩
    · rw [List.any_eq_true]
      rintro ⟨y, hy, hpend⟩
      obtain ⟨-, -, x, hxb, hid⟩ := mem_killedBlocks hy
      obtain ⟨p, hpm, ho, hblk, -⟩ := State.blockPending_dropLost.1 hpend
      exact absurd ((s.blockPending_iff _ _).2 ⟨p, hpm, ho, hblk.trans hid.symm⟩) (by simp [hp x hxb])
  · obtain ⟨x, hxb, hst, p, hpm, ho, hblk, hlost⟩ := hp
    have hx := lkill_next h (List.ne_nil_of_mem hxb)
    have hpend := State.blockPending_dropLost.2 ⟨p, hpm, ho, hblk, .inr hlost⟩
    rw [if_pos (List.any_eq_true.2 ⟨_, killedBlocks_of_mem hxb hst, hpend⟩)] at hx
    obtain ⟨v, a, b, l, hkill⟩ := g.kill_eq s.free
    rw [State.waitS, State.modG_of _ _ _ _ (State.grp_setG_same _ _ _), hkill] at hx
    refine ⟨_, hx, _, State.grp_setG_same _ _ _, rfl, rfl, rfl, rfl, fun y hy => ?_⟩
    obtain ⟨hstop, hnone, -⟩ := mem_killedBlocks hy
    exact ⟨hstop, hnone⟩

end Sys2Proof.Machine
end

section
/-! # Results to the stoker and the mask instructions (O40) -/

namespace Sys2Proof.Machine

/-! ### A lane instruction and its environment -/

/-- A lane instruction that issues with an environment runs its body in it. -/
theorem LEnv.laneRun_eq {s : State} {e : LEnv} (hi : e.issues s) (body : LEnv → State) : laneRun s e.f body = .next (body e) := by
  obtain ⟨⟨hcur, hg, hsp⟩, htime, hts, hsnap⟩ := hi
  have henv : e.s.laneEnv e.f e.k e.slot e.g e.sp e.time = e := by
    unfold State.laneEnv
    rw [← hts, ← hsnap]
  rw [laneRun_next hcur hg hsp htime, henv]

theorem LEnv.split_eq {s : State} {e : LEnv} (hi : e.issues s) : e.g.split e.slot = some e.sp := by
  obtain ⟨⟨-, -, hsp⟩, -⟩ := hi
  exact hsp

theorem LEnv.ts_eq {s : State} {e : LEnv} (hi : e.issues s) : e.ts = actingOf e.g e.sp e.f := by
  obtain ⟨-, -, hts, -⟩ := hi
  exact hts

@[simp] theorem Group.split_modExec (g : Group) (f : Block → Block) (slot : Nat) : (g.modExec f).split slot = g.split slot := rfl

/-! ### Pending copies (R33, R162) -/

section
variable {s : State} {e : LEnv} {i : Instr} (hi : e.issues s)
include hi

theorem LEnv.lands_of_pend {p : PendW} (hts : e.ts ≠ []) (hx : exec i s = .next (e.pend p)) : e.lands s i p := by
  have hpend : e.pend p = e.s.stamp.setG e.k
      ((e.g.modExec fun b => { b with pend := b.pend ++ [p] }).setSplit e.slot (some (e.sp.past e.s.nextId))) := by
    unfold pend done
    simp only [List.isEmpty_iff, hts, if_false, Group.split_modExec, split_eq hi, Option.map_some]
  rw [hpend] at hx
  exact ⟨_, hx, rfl, State.grp_setG_same _ _ _, fun j hj => State.grp_setG_other _ _ _ _ hj⟩

/-- With no acting thread an instruction of R162 is past, and has written nothing (R142). -/
theorem LEnv.puts_none_of_done (hts : e.ts = []) (hx : exec i s = .next (e.done e.s e.g)) : e.puts s i 0 fun _ => ⟨0, false⟩ := by
  refine puts_of_write hi ⟨by have := e.f.vd.isLt; omega, fun _ _ _ h => absurd h (Nat.not_lt_zero _)⟩ (hx.trans ?_)
  simp only [write, map, hts, List.foldr_nil, List.foldl_nil]
end

theorem LEnv.pend_none {e : LEnv} {p : PendW} (hts : e.ts = []) : e.pend p = e.done e.s e.g := by
  unfold pend
  simp only [hts, List.isEmpty_nil, if_true]

/-! ### The check for poison (R146) -/

section
variable {e : LEnv} {f : Nat → Bool}

theorem LEnv.guard_clean (h : e.clean f) (go : State) : e.guard f go = go := by
  have hnone : e.consuming f = [] := List.filter_eq_nil_iff.2 fun t ht => by simp [h t ht]
  unfold guard
  rw [hnone]

theorem LEnv.guard_poisoned (h : ¬ e.clean f) (go : State) :
    e.guard f go = e.s.trapL e.k e.slot e.g e.sp { code := 0x0B } (maskOf (e.ts.filter f)) := by
  have hsome : e.consuming f ≠ [] := fun hnone => h fun t ht => by simpa using List.filter_eq_nil_iff.1 hnone t ht
  unfold guard
  split
  · next hnone => exact absurd hnone hsome
  · rfl
end

/-! ### The tree of R161 -/

/-- The leaf at a place of a list, none beyond it. -/
def leafAt (l : List (Option Opd)) (i : Nat) : Option Opd := l[i]?.join

theorem leafAt_nil (i : Nat) : leafAt [] i = none := rfl

theorem redNode_none {op : Nat → Nat → Nat} {leaf : Nat → Option Opd} (n i : Nat)
    (h : ∀ j, i * 2 ^ n ≤ j → j < (i + 1) * 2 ^ n → leaf j = none) : redNode op leaf n i = none := by
  induction n generalizing i with
  | zero => exact h i (by omega) (by omega)
  | succ n ih =>
    rw [Nat.pow_succ] at h
    have h0 := ih (2 * i) fun j hlo hhi => h j (by nlinarith) (by nlinarith)
    have h1 := ih (2 * i + 1) fun j hlo hhi => h j (by nlinarith) (by nlinarith)
    rw [redNode, h0, h1]

/-- One level of the tree computed first. -/
theorem redNode_succ (op : Nat → Nat → Nat) (leaf : Nat → Option Opd) (n i : Nat) :
    redNode op leaf (n + 1) i = redNode op (redNode op leaf 1) n i := by
  induction n generalizing i with
  | zero => rfl
  | succ n ih => rw [redNode, ih, ih]; rfl

theorem leafAt_redPairs (op : Nat → Nat → Nat) (l : List (Option Opd)) (i : Nat) :
    leafAt (redPairs op l) i = redNode op (leafAt l) 1 i := by
  induction l using redPairs.induct generalizing i with
  | case1 a b r ih =>
    cases i with
    | zero => cases a <;> cases b <;> rfl
    | succ i => exact ih i
  | case2 l h =>
    match l, i with
    | [], i => rfl
    | [x], 0 => cases x <;> rfl
    | [x], i + 1 => rfl
    | a :: b :: r, i => exact absurd rfl (h a b r)

theorem length_redPairs (op : Nat → Nat → Nat) (l : List (Option Opd)) : (redPairs op l).length = (l.length + 1) / 2 := by
  induction l using redPairs.induct with
  | case1 a b r ih => simp only [redPairs, List.length_cons, ih]; omega
  | case2 l h =>
    match l with
    | [] => rfl
    | [x] => simp [redPairs]
    | a :: b :: r => exact absurd rfl (h a b r)

theorem redNode_single (op : Nat → Nat → Nat) (x : Option Opd) (n : Nat) : redNode op (leafAt [x]) n 0 = x := by
  induction n with
  | zero => rfl
  | succ n ih =>
    have hright : redNode op (leafAt [x]) n (2 * 0 + 1) = none := redNode_none n _ fun j hlo _ => by
      have hj : 1 ≤ j := by have := Nat.one_le_two_pow (n := n); omega
      obtain ⟨j, rfl⟩ := Nat.exists_eq_add_of_le' hj
      rfl
    rw [redNode, hright, Nat.mul_zero, ih]
    cases x <;> rfl

/-- The tree over a list's places is the tree of R161 over its leaves. -/
theorem redTree_eq (op : Nat → Nat → Nat) (m n : Nat) (l : List (Option Opd)) (hl : l.length ≤ 2 ^ n) (hn : n ≤ m) :
    redTree op m l = redNode op (leafAt l) n 0 := by
  induction m generalizing n l with
  | zero =>
    obtain rfl : n = 0 := by omega
    rw [redTree, List.head?_eq_getElem?]
    rfl
  | succ m ih =>
    match l, hl with
    | [], _ =>
      rw [redNode_none (leaf := leafAt []) n 0 fun _ _ _ => rfl]
      exact ih 0 [] (by decide) (by omega)
    | [x], _ => exact (redNode_single op x n).symm
    | a :: b :: r, hl =>
      cases n with
      | zero => simp at hl
      | succ n =>
        rw [redNode_succ, ← funext (leafAt_redPairs op (a :: b :: r))]
        refine ih n _ ?_ (by omega)
        rw [length_redPairs, Nat.pow_succ] at *
        omega

section
variable {s : State} {e : LEnv} (hi : e.issues s)
include hi

theorem LEnv.lt_width_of_mem {t : Nat} (ht : t ∈ e.ts) : t < e.g.width := by
  rw [ts_eq hi] at ht
  exact List.mem_range.1 (List.mem_filter.1 ht).1

/-- The combination of A over the acting threads is the root of the tree over thread places (R161). -/
theorem LEnv.reduce_eq (hw : e.g.width ≤ 128) (op : Nat → Nat → Nat) :
    e.reduce op = redNode op (fun t => if t ∈ e.ts then some (e.opA t) else none) 7 0 := by
  have hleaf : (leafAt ((List.range e.g.width).map fun t => if e.ts.contains t then some (e.opA t) else none)) =
      fun t => if t ∈ e.ts then some (e.opA t) else none := by
    funext t
    unfold leafAt
    by_cases ht : t < e.g.width
    · simp [ht]
    · have hno : t ∉ e.ts := fun h => ht (lt_width_of_mem hi h)
      simp [ht, hno]
  unfold reduce
  rw [redTree_eq op 8 7 _ (by simpa using hw) (by decide), hleaf]
end

/-! ### The combinations of R160 -/

theorem two_mul_lt_two_pow {w : Nat} (hw : 0 < w) (y : Nat) : 2 * y < 2 ^ w ↔ y < 2 ^ (w - 1) := by
  obtain ⟨n, rfl⟩ := Nat.exists_eq_add_of_le' hw
  rw [Nat.pow_succ, Nat.add_sub_cancel]
  omega

theorem tyBits_pos (ty : Nat) : 0 < tyBits ty := by
  unfold tyBits
  split <;> decide

theorem intVal_eq_intOf (ty x : Nat) : intVal ty x = intOf ty x := by
  have hsigned : tySigned ty = decide (ty ∈ [0, 2, 4, 6, 15]) := by
    simp [tySigned, Bool.decide_or, ← Bool.beq_eq_decide_eq, Bool.or_assoc]
  unfold intVal intOf
  rw [hsigned, BitVec.toNat_ofNat, BitVec.toInt_eq_toNat_cond, BitVec.toNat_ofNat]
  unfold sintOf
  by_cases h : ty ∈ [0, 2, 4, 6, 15]
  · simp [h, two_mul_lt_two_pow (tyBits_pos ty)]
  · simp [h]

section
variable (e : LEnv) (a b : Nat)

theorem LEnv.sum_eq {d : Nat} (hd : d = if e.f.rnd = 0 then e.snap.mode.toNat % 8 else e.f.rnd.toNat) :
    e.sum a b = if e.ty = 10 then roundTo f32 ((f32.decode a).add (f32.decode b) d) d false else (a + b) % 2 ^ tyBits e.ty := by
  have hdir : e.fenv.dir = d := by
    rw [hd]
    show effDir e.snap.mode e.f.rnd.toNat = _
    unfold effDir
    simp only [BitVec.toNat_eq]
    rfl
  unfold sum
  rw [hdir]

theorem LEnv.lesser_eq : e.lesser a b = if e.ty = 10 then f32.minMax false a b else if intOf e.ty b < intOf e.ty a then b else a := by
  unfold lesser intLess
  simp only [decide_eq_true_eq, intVal_eq_intOf]

theorem LEnv.greater_eq : e.greater a b = if e.ty = 10 then f32.minMax true a b else if intOf e.ty a < intOf e.ty b then b else a := by
  unfold greater intLess
  simp only [decide_eq_true_eq, intVal_eq_intOf]
end

/-! ### Results to the stoker (R162) -/

section
variable {s : State} {e : LEnv} {i : Instr} (hi : e.issues s)

theorem LEnv.reduce_none (hts : e.ts = []) (op : Nat → Nat → Nat) :
    redNode op (fun t => if t ∈ e.ts then some (e.opA t) else none) 7 0 = none :=
  redNode_none 7 0 fun _ _ _ => by simp [hts]

include hi

theorem LEnv.lands_of_vred {op : Nat → Nat → Nat} {x : Opd} (hw : e.g.width ≤ 128)
    (hx : redNode op (fun t => if t ∈ e.ts then some (e.opA t) else none) 7 0 = some x) (he : exec i s = .next (e.vred op)) :
    e.lands s i (.scalar e.f.vd.toNat ⟨if e.ty = 4 then (BitVec.ofNat 32 x.x).signExtend 64 else BitVec.ofNat 64 x.x, x.pz⟩) := by
  refine lands_of_pend hi (fun hts => ?_) (he.trans ?_)
  · rw [reduce_none hts] at hx
    cases hx
  · unfold vred
    rw [reduce_eq hi hw, hx]

theorem LEnv.puts_none_of_vred {op : Nat → Nat → Nat} (hw : e.g.width ≤ 128) (hts : e.ts = []) (he : exec i s = .next (e.vred op)) :
    e.puts s i 0 fun _ => ⟨0, false⟩ := by
  refine puts_none_of_done hi hts (he.trans ?_)
  unfold vred
  rw [reduce_eq hi hw, reduce_none hts]

theorem LEnv.lands_of_vote {holds : Bool} (hts : e.ts ≠ []) (hc : e.clean fun t => (e.opA t).pz)
    (he : exec i s = .next (e.vote holds)) : e.lands s i (.cond e.f.vd.toNat holds) :=
  lands_of_pend hi hts (he.trans (congrArg _ (guard_clean hc _)))

theorem LEnv.puts_none_of_vote {holds : Bool} (hts : e.ts = []) (he : exec i s = .next (e.vote holds)) :
    e.puts s i 0 fun _ => ⟨0, false⟩ := by
  have hc : e.clean fun t => (e.opA t).pz := fun t ht => by simp [hts] at ht
  exact puts_none_of_done hi hts (he.trans (congrArg _ ((guard_clean hc _).trans (pend_none hts))))

/-- The acting threads stand in order, so the first of them is the lowest-numbered. -/
theorem LEnv.head_eq_of_least {t u : Nat} {l : List Nat} (hts : e.ts = u :: l) (ht : t ∈ e.ts) (hleast : ∀ v ∈ e.ts, t ≤ v) :
    t = u := by
  have hsorted : e.ts.Pairwise (· < ·) := by
    rw [ts_eq hi]
    exact List.pairwise_lt_range.filter _
  rw [hts] at hsorted ht hleast
  obtain ⟨hfirst, -⟩ := List.pairwise_cons.1 hsorted
  rcases List.mem_cons.1 ht with rfl | hl
  · rfl
  · exact absurd (hfirst t hl) (Nat.not_lt.2 (hleast u (List.mem_cons_self ..)))
end

theorem LEnv.traps_of_vote {s : State} {e : LEnv} {i : Instr} {holds : Bool} (hc : ¬ e.clean fun t => (e.opA t).pz)
    (he : exec i s = .next (e.vote holds)) : e.traps s i { code := 0x0B } (maskOf (e.ts.filter fun t => (e.opA t).pz)) :=
  he.trans (congrArg _ (guard_poisoned hc _))

/-! ### What each instruction runs -/

section
variable {s : State} {e : LEnv} (hi : e.issues s)
include hi

theorem LEnv.exec_vredAdd : exec (.vredAdd e.f) s = .next (e.vred e.sum) := laneRun_eq hi fun e => e.vred e.sum
theorem LEnv.exec_vredMin : exec (.vredMin e.f) s = .next (e.vred e.lesser) := laneRun_eq hi fun e => e.vred e.lesser
theorem LEnv.exec_vredMax : exec (.vredMax e.f) s = .next (e.vred e.greater) := laneRun_eq hi fun e => e.vred e.greater
theorem LEnv.exec_vany : exec (.vany e.f) s = .next (e.vote (e.ts.any fun t => (e.opA t).x != 0)) :=
  laneRun_eq hi fun e => e.vote (e.ts.any fun t => (e.opA t).x != 0)
theorem LEnv.exec_vall : exec (.vall e.f) s = .next (e.vote (e.ts.all fun t => (e.opA t).x != 0)) :=
  laneRun_eq hi fun e => e.vote (e.ts.all fun t => (e.opA t).x != 0)

theorem LEnv.exec_rfl : exec (.rfl e.f) s = .next (match e.ts with
    | t :: _ => e.pend (.scalar e.f.vd.toNat ⟨BitVec.ofNat 64 (e.opA t).x, (e.opA t).pz⟩)
    | [] => e.done e.s e.g) := laneRun_eq hi fun e' => match e'.ts with
    | t :: _ => e'.pend (.scalar e.f.vd.toNat ⟨BitVec.ofNat 64 (e'.opA t).x, (e'.opA t).pz⟩)
    | [] => e'.done e'.s e'.g

theorem LEnv.lands_rfl {t : Nat} (ht : t ∈ e.ts) (hleast : ∀ u ∈ e.ts, t ≤ u) :
    e.lands s (.rfl e.f) (.scalar e.f.vd.toNat ⟨BitVec.ofNat 64 (e.opA t).x, (e.opA t).pz⟩) := by
  refine lands_of_pend hi (List.ne_nil_of_mem ht) ((exec_rfl hi).trans (congrArg _ ?_))
  split
  · next u l hts => rw [head_eq_of_least hi hts ht hleast]
  · next hts => simp [hts] at ht

theorem LEnv.puts_none_rfl (hts : e.ts = []) : e.puts s (.rfl e.f) 0 fun _ => ⟨0, false⟩ := by
  refine puts_none_of_done hi hts ((exec_rfl hi).trans (congrArg _ ?_))
  rw [hts]

theorem LEnv.exec_mtov : exec (.mtov e.f) s =
    .next (e.write (e.map 1 fun t => ⟨(e.g.mGet (e.f.va.toNat % 8)).toNat / 2 ^ (32 * (t / 32)) % 2 ^ 32, false⟩)) :=
  laneRun_eq hi fun e' => e'.write (e'.map 1 fun t => ⟨(e'.g.mGet (e.f.va.toNat % 8)).toNat / 2 ^ (32 * (t / 32)) % 2 ^ 32, false⟩)

theorem LEnv.exec_vtom : exec (.vtom e.f) s =
    .next (e.guard (fun t => (e.opA t).pz) (e.writeMask (e.f.vd.toNat % 8) fun t => (e.opA t).x != 0)) :=
  laneRun_eq hi fun e' => e'.guard (fun t => (e'.opA t).pz) (e'.writeMask (e.f.vd.toNat % 8) fun t => (e'.opA t).x != 0)

theorem LEnv.putsM_of_maskOp {i : Instr} {op : Bool → Bool → Bool} (he : exec i s = maskOp s e.f op) :
    e.putsM s i (e.f.vd.toNat % 8) fun t =>
      op ((e.g.mGet (e.f.va.toNat % 8)).getLsbD t) ((e.g.mGet (e.f.vb.toNat % 8)).getLsbD t) :=
  putsM_of_writeMask hi (he.trans (laneRun_eq hi _))
end

/-- Settles O40, by the tree over thread places and the effect of a pending copy. -/
theorem toStoker : Obligations.ToStoker := by
  refine ⟨fun s e hi hw => ⟨fun _ => ?_, fun hc hts => ⟨?_, ?_⟩, fun hc => ⟨?_, ?_⟩, fun t ht hl => LEnv.lands_rfl hi ht hl,
      fun hts => ?_⟩,
    fun s e hi => ⟨?_, fun hfree => ?_, fun hc => ?_, fun hc => ?_⟩⟩
  case refine_1 =>
    simp only [List.forall_mem_cons, ← LEnv.sum_eq e _ _ rfl, ← LEnv.lesser_eq, ← LEnv.greater_eq]
    exact ⟨fun x hx => LEnv.lands_of_vred hi hw hx (LEnv.exec_vredAdd hi), fun x hx => LEnv.lands_of_vred hi hw hx (LEnv.exec_vredMin hi),
      fun x hx => LEnv.lands_of_vred hi hw hx (LEnv.exec_vredMax hi), fun _ h => nomatch h⟩
  case refine_2 => exact LEnv.lands_of_vote hi hts hc (LEnv.exec_vany hi)
  case refine_3 => exact LEnv.lands_of_vote hi hts hc (LEnv.exec_vall hi)
  case refine_4 => exact LEnv.traps_of_vote hc (LEnv.exec_vany hi)
  case refine_5 => exact LEnv.traps_of_vote hc (LEnv.exec_vall hi)
  case refine_6 =>
    simp only [List.forall_mem_cons]
    exact ⟨LEnv.puts_none_of_vred hi hw hts (LEnv.exec_vredAdd hi), LEnv.puts_none_of_vred hi hw hts (LEnv.exec_vredMin hi),
      LEnv.puts_none_of_vred hi hw hts (LEnv.exec_vredMax hi), LEnv.puts_none_of_vote hi hts (LEnv.exec_vany hi),
      LEnv.puts_none_of_vote hi hts (LEnv.exec_vall hi), LEnv.puts_none_rfl hi hts, fun _ h => nomatch h⟩
  case refine_7 =>
    simp only [List.forall_mem_cons]
    exact ⟨LEnv.putsM_of_maskOp hi rfl, LEnv.putsM_of_maskOp hi rfl, LEnv.putsM_of_maskOp hi rfl,
      LEnv.putsM_of_maskOp (op := fun x y => x && !y) hi rfl, fun _ h => nomatch h⟩
  case refine_8 => exact LEnv.puts_of_write hi hfree (LEnv.exec_mtov hi)
  case refine_9 => exact LEnv.putsM_of_writeMask hi ((LEnv.exec_vtom hi).trans (congrArg _ (LEnv.guard_clean hc _)))
  case refine_10 => exact (LEnv.exec_vtom hi).trans (congrArg _ (LEnv.guard_poisoned hc _))

end Sys2Proof.Machine
end

section
/-! # Lane control (O46) -/

namespace Sys2Proof.Machine

/-! ### Waiting for results (R144) -/

/-- A split whose outstanding results have all been written. -/
def Split.settled (sp : Split) : Split := { sp with outs := [], waiting := false, bound := none }

section
variable {e : LEnv} {go : Group → Split → State}

theorem LEnv.settled_waits (h : ∃ o ∈ e.sp.outs, o.arrived e.s.clk = false) : e.settled go = e.s.waitL e.k e.slot := by
  obtain ⟨o, ho, hno⟩ := h
  have hnot : ¬ (e.sp.outs.all fun o => o.arrived e.s.clk) = true := fun hall => by
    rw [List.all_eq_true.1 hall o ho] at hno
    cases hno
  unfold settled
  rw [if_neg hnot]

theorem LEnv.settled_goes (h : ∀ o ∈ e.sp.outs, o.arrived e.s.clk = true) :
    e.settled go = go (e.g.landSplit e.slot) e.sp.settled := by
  unfold settled
  rw [if_pos (List.all_eq_true.2 h)]
  rfl
end

/-! ### What each instruction runs once its split is settled -/

/-- The state after a `bra` of a settled split. -/
def LEnv.braFrom (e : LEnv) (g : Group) (sp : Split) : State :=
  let go := maskOf e.ts
  let moved : Split := { sp with pc := e.target.setWidth 32 }
  let taken := if e.target.toNat ≤ sp.pc.toNat then g.countRot moved else moved
  if e.ts.isEmpty then e.s.stamp.setG e.k (g.setSplit e.slot (some { sp with pc := sp.pc + 12 }))
  else if 12 * g.kern.lcinsts ≤ e.target.toNat then ({ e with g := g, sp := sp } : LEnv).trapAll (trapOperand 0)
  else if go = sp.mask then e.s.stamp.setG e.k (g.setSplit e.slot (some taken))
  else e.divide g { taken with mask := go } { pc := sp.pc + 12, mask := sp.mask &&& ~~~go, busy := sp.busy }

/-- The threads of several splits. -/
def maskUnion (l : List Split) : Mask := l.foldl (fun u x => u ||| x.mask) 0

/-- A group whose splits of a set are one split past the join (R174). -/
def Group.merge (g : Group) (slot : Nat) (pc : BitVec 32) (l : List Split) : Group :=
  let inSet := fun (x : Split) => l.any fun y => y.mask == x.mask
  (({ g with
    slot0 := g.slot0.filter fun y => !inSet y, slot1 := g.slot1.filter fun y => !inSet y,
    spilled := g.spilled.filter fun p => !inSet p.2 } : Group).setSplit slot
      (some { pc := pc + 12, mask := maskUnion l, busy := busyOf l })).fillSlots

/-- The splits of a group that wait at a join. -/
def Group.atJoin (g : Group) (pc : BitVec 32) : List Split := g.table.filter fun x => x.st == .atJoin && x.pc == pc

/-- The split that begins to wait at a join. -/
def Group.joiner (g : Group) (n : Nat) (sp : Split) : Split := { sp with st := .atJoin, j := g.mGet n ||| sp.mask }

/-- The state after a `join` of a settled split with the mask register n. -/
def LEnv.joinFrom (e : LEnv) (n : Nat) (g : Group) (sp : Split) : State :=
  let me := g.joiner n sp
  let g := g.setSplit e.slot (some me)
  match mergeSet (g.atJoin sp.pc).length (g.atJoin sp.pc) with
  | [] => e.begin g me
  | l => e.s.stamp.setG e.k (g.merge e.slot sp.pc l)

/-- The state after an `lstop` of a settled split. -/
def LEnv.lstopFrom (e : LEnv) (g : Group) (sp : Split) : State :=
  let me := { sp with st := .atLstop }
  let g := g.setSplit e.slot (some me)
  if g.table.all fun x => x.st == .atLstop then e.s.stamp.setG e.k g.stopBlock else e.begin g me

section
variable {s : State} {e : LEnv} (hi : e.issues s)
include hi

theorem LEnv.exec_bra : exec (.bra e.f) s = .next (e.settled e.braFrom) := laneRun_eq hi fun e => e.settled e.braFrom

theorem LEnv.exec_join : exec (.join e.f) s = .next (e.settled (e.joinFrom (e.f.va.toNat % 8))) :=
  laneRun_eq hi fun e' => e'.settled (e'.joinFrom (e.f.va.toNat % 8))

theorem LEnv.exec_lpause : exec (.lpause e.f) s = .next (e.settled fun g sp =>
    e.s.stamp.setG e.k (g.demote.setSplit e.slot (some (g.countRot { sp with pc := sp.pc + 12 })))) :=
  laneRun_eq hi fun e => e.settled fun g sp =>
    e.s.stamp.setG e.k (g.demote.setSplit e.slot (some (g.countRot { sp with pc := sp.pc + 12 })))

theorem LEnv.exec_lstop : exec (.lstop e.f) s = .next (e.settled e.lstopFrom) := laneRun_eq hi fun e => e.settled e.lstopFrom
end

/-! ### `bra` (R172, R173) -/

theorem Group.countRot_eq (g : Group) (sp : Split) :
    g.countRot sp = { sp with rot := if g.oldestAble.isSome then sp.rot + 1 else sp.rot } := by
  unfold countRot
  split <;> rfl

/-- The split a `bra` takes to its target, its rotation counted on a backward branch (R209). -/
def LEnv.taken (e : LEnv) (g : Group) (sp : Split) : Split :=
  { sp with
    pc := e.target.setWidth 32, rot := if e.target.toNat ≤ sp.pc.toNat ∧ g.oldestAble.isSome then sp.rot + 1 else sp.rot }

theorem LEnv.taken_eq (e : LEnv) (g : Group) (sp : Split) :
    (if e.target.toNat ≤ sp.pc.toNat then g.countRot { sp with pc := e.target.setWidth 32 } else { sp with pc := e.target.setWidth 32 }) =
      e.taken g sp := by
  unfold taken
  rw [Group.countRot_eq]
  by_cases h : e.target.toNat ≤ sp.pc.toNat <;> simp [h]

section
variable {e : LEnv} {g : Group} {sp : Split}

theorem LEnv.braFrom_idle (hts : e.ts = []) :
    e.braFrom g sp = e.s.stamp.setG e.k (g.setSplit e.slot (some { sp with pc := sp.pc + 12 })) := by
  unfold braFrom
  simp only [hts, List.isEmpty_nil, if_true]

variable (hts : e.ts ≠ [])
include hts

theorem LEnv.braFrom_beyond (h : ¬ e.target.toNat < 12 * g.kern.lcinsts) :
    e.braFrom g sp = e.s.trapL e.k e.slot g sp { code := 0x02 } sp.mask := by
  unfold braFrom
  simp only [List.isEmpty_iff, hts, Nat.not_lt.1 h, if_false, if_true]
  rfl

variable (hin : e.target.toNat < 12 * g.kern.lcinsts)
include hin

theorem LEnv.braFrom_whole (h : maskOf e.ts = sp.mask) :
    e.braFrom g sp = e.s.stamp.setG e.k (g.setSplit e.slot (some (e.taken g sp))) := by
  unfold braFrom
  simp only [List.isEmpty_iff, hts, Nat.not_le.2 hin, h, if_false, if_true, taken_eq]

theorem LEnv.braFrom_divides (h : maskOf e.ts ≠ sp.mask) :
    e.braFrom g sp = e.divide g { e.taken g sp with mask := maskOf e.ts }
      { pc := sp.pc + 12, mask := sp.mask &&& ~~~maskOf e.ts, busy := sp.busy } := by
  unfold braFrom
  simp only [List.isEmpty_iff, hts, Nat.not_le.2 hin, h, if_false, taken_eq]
end

section
variable {e : LEnv} {g : Group} {taken fall : Split}

/-- A division put in the two slots of a group. -/
def Group.halves (g : Group) (slot : Nat) (taken fall : Split) : Group := (g.setSplit slot (some taken)).setSplit (1 - slot) (some fall)

theorem LEnv.divide_free (h : g.split (1 - e.slot) = none) :
    e.divide g taken fall = e.s.stamp.setStack e.k g (g.halves e.slot taken fall) := by
  unfold divide
  simp only [h]
  rfl

theorem LEnv.divide_spills {y : Split} {n : Nat} (h : g.split (1 - e.slot) = some y) (hn : g.freeEntry = some n) :
    e.divide g taken fall = e.s.stamp.setStack e.k g ((g.spill n { y with rot := 0 }).halves e.slot taken fall) := by
  unfold divide
  simp only [h, hn]
  rfl

theorem LEnv.divide_full {y : Split} (h : g.split (1 - e.slot) = some y) (hn : g.freeEntry = none) :
    e.divide g taken fall = e.s.trapL e.k e.slot g e.sp { code := 0x0E } e.sp.mask := by
  unfold divide
  simp only [h, hn]
  rfl
end

/-! ### The set of splits that merge (R174) -/

theorem getLsbD_maskUnion (l : List Split) (i : Nat) : (maskUnion l).getLsbD i = l.any fun x => x.mask.getLsbD i := by
  have hgen : ∀ u : Mask, (l.foldl (fun u x => u ||| x.mask) u).getLsbD i = (u.getLsbD i || l.any fun x => x.mask.getLsbD i) := by
    induction l with
    | nil => simp
    | cons x l ih => intro u; rw [List.foldl_cons, ih, BitVec.getLsbD_or, List.any_cons, Bool.or_assoc]
  rw [maskUnion, hgen]
  simp

theorem within_iff (j u : Mask) : j &&& ~~~u = 0 ↔ ∀ i, j.getLsbD i = true → u.getLsbD i = true := by
  constructor
  · intro h i hj
    have hlt : i < 128 := BitVec.lt_of_getLsbD hj
    have hbit : (j.getLsbD i && !u.getLsbD i) = false := by simpa [hlt] using congrArg (fun x : Mask => x.getLsbD i) h
    simpa [hj] using hbit
  · intro h
    refine BitVec.eq_of_getLsbD_eq fun i hlt => ?_
    have hi := h i
    cases hj : j.getLsbD i <;> simp_all

/-- Every J of a list of splits lies within their threads. -/
def Joined (l : List Split) : Prop := ∀ x ∈ l, x.j &&& ~~~maskUnion l = 0

theorem within_mono {l c : List Split} (hsub : ∀ x ∈ c, x ∈ l) {j : Mask} (h : j &&& ~~~maskUnion c = 0) :
    j &&& ~~~maskUnion l = 0 := by
  rw [within_iff] at h ⊢
  intro i hj
  have hi := h i hj
  rw [getLsbD_maskUnion, List.any_eq_true] at hi ⊢
  obtain ⟨x, hx, hbit⟩ := hi
  exact ⟨x, hsub x hx, hbit⟩

theorem mergeSet_eq_filter (n : Nat) (l : List Split) : ∃ p : Split → Bool, mergeSet n l = l.filter p := by
  induction n generalizing l with
  | zero => exact ⟨fun _ => true, by rw [List.filter_true]; rfl⟩
  | succ n ih =>
    rw [mergeSet]
    split
    · exact ⟨fun _ => true, by rw [List.filter_true]⟩
    · obtain ⟨p, hp⟩ := ih (l.filter fun sp => sp.j &&& ~~~maskUnion l == 0)
      exact ⟨_, hp.trans (List.filter_filter ..)⟩

theorem joined_mergeSet (n : Nat) (l : List Split) (hl : l.length ≤ n) : Joined (mergeSet n l) := by
  induction n generalizing l with
  | zero =>
    obtain rfl := List.length_eq_zero_iff.1 (Nat.le_zero.1 hl)
    exact fun x hx => nomatch hx
  | succ n ih =>
    rw [mergeSet]
    split
    · next h =>
      intro x hx
      have hall := List.length_filter_eq_length_iff.1 h x hx
      exact beq_iff_eq.1 hall
    · next h =>
      have hle := List.length_filter_le (fun sp : Split => sp.j &&& ~~~maskUnion l == 0) l
      exact ih _ (by unfold maskUnion at hle; omega)

theorem Joined.subset_mergeSet {c : List Split} (hc : Joined c) (n : Nat) (l : List Split) (hsub : ∀ x ∈ c, x ∈ l) :
    ∀ x ∈ c, x ∈ mergeSet n l := by
  induction n generalizing l with
  | zero => exact hsub
  | succ n ih =>
    rw [mergeSet]
    split
    · exact hsub
    · exact ih _ fun x hx => List.mem_filter.2 ⟨hsub x hx, beq_iff_eq.2 (within_mono hsub (hc x hx))⟩

/-- The largest set found is the one whose members are exactly those of the greatest joined set. -/
theorem mergeSet_eq {here l : List Split} (hc : Joined l) (hsub : ∀ x ∈ l, x ∈ here)
    (hmax : ∀ c, Joined c → (∀ x ∈ c, x ∈ here) → ∀ x ∈ c, x ∈ l) (hl : l = here.filter fun x => l.contains x) :
    mergeSet here.length here = l := by
  obtain ⟨p, hp⟩ := mergeSet_eq_filter here.length here
  have hin : ∀ x ∈ mergeSet here.length here, x ∈ here := fun x hx => by
    rw [hp] at hx
    exact (List.mem_filter.1 hx).1
  have hmem : ∀ x, x ∈ mergeSet here.length here ↔ x ∈ l :=
    fun x => ⟨hmax _ (joined_mergeSet _ _ le_rfl) hin x, hc.subset_mergeSet _ _ hsub x⟩
  rw [hl, hp]
  refine List.filter_congr fun x hx => ?_
  rw [Bool.eq_iff_iff, List.contains_iff_mem, ← hmem, hp, List.mem_filter]
  exact ⟨fun h => ⟨hx, h⟩, fun h => h.2⟩

/-! ### A split that begins to wait (R173, R175, R211) -/

theorem Group.swapOut_setSplit (g : Group) (slot : Nat) (x : Option Split) (sp : Split) :
    (g.setSplit slot x).swapOut slot sp = g.swapOut slot sp := by
  have hover : ∀ (h : Group) (y : Option Split), (h.setSplit slot x).setSplit slot y = h.setSplit slot y := fun h y => by
    unfold setSplit
    split <;> rfl
  have hunspill : ∀ n, (g.setSplit slot x).unspill n = (g.unspill n).setSplit slot x := fun n => by
    unfold unspill setSplit
    split <;> rfl
  have hold : (g.setSplit slot x).oldestAble = g.oldestAble := by
    unfold oldestAble
    rw [setSplit_spilled]
  unfold swapOut
  rw [hold]
  split
  · rw [hunspill, hover]
  · exact hover g _

theorem State.setStack_setSplit (s : State) (k : Nat) (old g : Group) (slot : Nat) (x : Option Split) :
    s.setStack k (old.setSplit slot x) g = s.setStack k old g := by
  unfold setStack
  rw [Group.setSplit_spilled]

section
variable {e : LEnv} {g : Group} {x : Option Split} {me : Split}

theorem LEnv.begin_waits (h : (g.swapOut e.slot me).deadlocked = false) :
    e.begin (g.setSplit e.slot x) me = e.s.stamp.setStack e.k g (g.swapOut e.slot me) := by
  unfold begin
  simp only [Group.swapOut_setSplit, h, Bool.false_eq_true, if_false, State.setStack_setSplit]

theorem LEnv.begin_deadlocks (h : (g.swapOut e.slot me).deadlocked = true) :
    e.begin (g.setSplit e.slot x) me = e.s.trapL e.k e.slot (g.swapOut e.slot me) me { code := 0x0F } me.mask := by
  unfold begin
  simp only [Group.swapOut_setSplit, h, if_true]
  rfl
end

/-! ### `join` (R174, R175) -/

section
variable {e : LEnv} {n : Nat} {g : Group} {sp : Split}

/-- The splits that wait at the label of a `join`, the joining one among them. -/
def LEnv.waiting (e : LEnv) (n : Nat) (g : Group) (sp : Split) : List Split := (g.setSplit e.slot (some (g.joiner n sp))).atJoin sp.pc

theorem LEnv.joinFrom_waits (h : ∀ l, Joined l → (∀ x ∈ l, x ∈ e.waiting n g sp) → l = []) :
    e.joinFrom n g sp = e.begin (g.setSplit e.slot (some (g.joiner n sp))) (g.joiner n sp) := by
  obtain ⟨p, hp⟩ := mergeSet_eq_filter (e.waiting n g sp).length (e.waiting n g sp)
  have hnil : mergeSet (e.waiting n g sp).length (e.waiting n g sp) = [] :=
    h _ (joined_mergeSet _ _ le_rfl) fun x hx => by
      rw [hp] at hx
      exact (List.mem_filter.1 hx).1
  unfold waiting at hnil
  unfold joinFrom
  simp only [hnil]

theorem LEnv.joinFrom_merges {l : List Split} (hne : l ≠ []) (hc : Joined l) (hsub : ∀ x ∈ l, x ∈ e.waiting n g sp)
    (hmax : ∀ c, Joined c → (∀ x ∈ c, x ∈ e.waiting n g sp) → ∀ x ∈ c, x ∈ l)
    (hl : l = (e.waiting n g sp).filter fun x => l.contains x) :
    e.joinFrom n g sp = e.s.stamp.setG e.k ((g.setSplit e.slot (some (g.joiner n sp))).merge e.slot sp.pc l) := by
  have hset := mergeSet_eq hc hsub hmax hl
  unfold waiting at hset
  unfold joinFrom
  cases l with
  | nil => exact absurd rfl hne
  | cons x l => simp only [hset]
end

/-! ### `lstop` (R176) -/

section
variable {e : LEnv} {g : Group} {sp : Split}

theorem LEnv.lstopFrom_stops (h : ∀ x ∈ (g.setSplit e.slot (some { sp with st := .atLstop })).table, x.st = .atLstop) :
    e.lstopFrom g sp = e.s.stamp.setG e.k (g.setSplit e.slot (some { sp with st := .atLstop })).stopBlock := by
  unfold lstopFrom
  exact if_pos (List.all_eq_true.2 fun x hx => beq_iff_eq.2 (h x hx))

theorem LEnv.lstopFrom_waits (h : ∃ x ∈ (g.setSplit e.slot (some { sp with st := .atLstop })).table, x.st ≠ .atLstop) :
    e.lstopFrom g sp = e.begin (g.setSplit e.slot (some { sp with st := .atLstop })) { sp with st := .atLstop } := by
  obtain ⟨x, hx, hst⟩ := h
  unfold lstopFrom
  exact if_neg fun hall => hst (beq_iff_eq.1 (List.all_eq_true.1 hall x hx))
end

/-- The last block in flight stops, and none follows. -/
theorem Group.stopBlock_last {g : Group} {b : Block} (hb : g.blocks = [b]) (hx : b.st = .executing) :
    g.stopBlock = { g with blocks := [{ b with st := .stopped }], slot0 := none, slot1 := none, spilled := [] } := by
  unfold stopBlock
  simp [hb, Block.become, hx]

/-- The block stops and the queued one behind it starts (R29). -/
theorem Group.stopBlock_next {g : Group} {b b' : Block} (hb : g.blocks = [b, b']) (hx : b.st = .executing) (hq : b'.st = .queued) :
    g.stopBlock = { g with
      blocks := [{ b with st := .stopped }, { b' with st := .executing }],
      slot0 := some { pc := BitVec.ofNat 32 (12 * b'.start), mask := fullMask g.width }, slot1 := none, spilled := [] } := by
  unfold stopBlock
  simp [hb, Block.become, hx, hq, startBlock]

/-! ### Tables written in a range -/

theorem tabGet_append {α : Type} (t u : Tab α) (n : Nat) : tabGet (t ++ u) n = (tabGet t n).or (tabGet u n) := by
  induction t with
  | nil => rfl
  | cons p t ih =>
    obtain ⟨k, v⟩ := p
    rw [List.cons_append, tabGet, tabGet, ih]
    split <;> rfl

theorem tabGet_filter_key {α : Type} (t : Tab α) (p : Nat → Bool) (n : Nat) :
    tabGet (t.filter fun x => p x.1) n = if p n then tabGet t n else none := by
  induction t with
  | nil => simp [tabGet]
  | cons x t ih =>
    obtain ⟨k, v⟩ := x
    rw [List.filter_cons]
    by_cases hk : k = n
    · subst hk
      cases hp : p k <;> simp [hp, tabGet, ih]
    · cases hp : p k <;> simp [tabGet, ih, hk]

theorem tabGet_enumFrom {α : Type} (l : List α) (m n : Nat) : tabGet (enumFrom m l) n = if m ≤ n then l[n - m]? else none := by
  induction l generalizing m with
  | nil => simp [enumFrom, tabGet]
  | cons x l ih =>
    rw [enumFrom, tabGet, ih]
    rcases Nat.lt_trichotomy m n with h | rfl | h
    · obtain ⟨d, rfl⟩ := Nat.exists_eq_add_of_lt h
      have hd : m + d + 1 - m = d + 1 := by omega
      have hd' : m + d + 1 - (m + 1) = d := by omega
      simp [hd, hd', show ¬ m = m + d + 1 by omega, show m + 1 ≤ m + d + 1 by omega, show m ≤ m + d + 1 by omega]
    · simp
    · simp [show ¬ m = n by omega, show ¬ m + 1 ≤ n by omega, show ¬ m ≤ n by omega]

theorem tabGet_tabPut_below {α : Type} (t : Tab α) (l : List α) {m n : Nat} (h : n < m) : tabGet (tabPut t m l) n = tabGet t n := by
  unfold tabPut
  rw [tabGet_append, tabGet_append, tabGet_enumFrom, tabGet_filter_key t (fun k => decide (k < m)),
    tabGet_filter_key t (fun k => decide (m + l.length ≤ k))]
  simp [h, Nat.not_le.2 h, show ¬ m + l.length ≤ n by omega]

theorem tabGet_tabPut_in {α : Type} (t : Tab α) (l : List α) {m i : Nat} (h : i < l.length) : tabGet (tabPut t m l) (m + i) = l[i]? := by
  unfold tabPut
  rw [tabGet_append, tabGet_append, tabGet_enumFrom, tabGet_filter_key t (fun k => decide (k < m)),
    tabGet_filter_key t (fun k => decide (m + l.length ≤ k))]
  simp [h]

/-! ### Lines of a group's own area held in L1 (R219) -/

/-- A hearth's L1 holds the line of a key for the bytes of a group's own area (R217). -/
def State.holdsPriv (s : State) (h key : Nat) : Prop := ∃ ln ∈ s.l1Lines h (l1SetOf key), ln.kind = .priv ∧ ln.key = key

theorem L1Line.l1Set_of_priv {ln : L1Line} (h : ln.kind = .priv) : l1Set ln = l1SetOf ln.key := by
  unfold l1Set
  rw [h]

theorem State.holdsPriv_l1Renew {s : State} {h key : Nat} {ln : L1Line} (hk : s.holdsPriv h key) (hp : ln.kind = .priv) (d : Bool) :
    (s.l1Renew h ln { ln with dirty := d }).holdsPriv h key := by
  obtain ⟨x, hx, hkind, hkey⟩ := hk
  unfold holdsPriv l1Lines l1Renew
  simp only [tabD_tabSet]
  split
  · next hset =>
    by_cases hxl : x = ln
    · subst hxl
      exact ⟨_, List.mem_cons_self .., hkind, hkey⟩
    · refine ⟨x, List.mem_cons_of_mem _ (List.mem_filter.2 ⟨?_, by simpa using hxl⟩), hkind, hkey⟩
      rw [hset]
      exact hx
  · exact ⟨x, hx, hkind, hkey⟩

/-- A line that L1 holds is used without being read: only the order and the marks of its set change. -/
theorem State.touchPriv_held {s : State} {k x : Nat} {g : Group} (hg : s.grp k = some g)
    (hl : s.holdsPriv (hearthOf k) (physKey (g.pb + x))) (dirty whole : Bool) :
    ∃ ln d, ln.kind = .priv ∧ s.touchPriv k x dirty whole = s.l1Renew (hearthOf k) ln { ln with dirty := d } := by
  obtain ⟨y, hy, hkind, hkey⟩ := hl
  have hfound : ((s.l1Lines (hearthOf k) (l1SetOf (physKey (g.pb + x)))).find?
      fun l => l.kind == .priv && l.key == physKey (g.pb + x)) ≠ none := fun hnone => by
      have hno := List.find?_eq_none.1 hnone y hy
      simp [hkind, hkey] at hno
  obtain ⟨ln, hln⟩ := Option.ne_none_iff_exists'.1 hfound
  have htest := List.find?_some hln
  simp only [Bool.and_eq_true, beq_iff_eq] at htest
  refine ⟨ln, ln.dirty || dirty, htest.1, ?_⟩
  unfold touchPriv
  simp only [hg, hln]

/-- A state after uses of lines of some keys that L1 holds and writes to a group's own bytes: the group, and nothing but L1. -/
structure State.Touched (s : State) (k : Nat) (g : Group) (keys : List Nat) (t : State) : Prop where
  grp : t.grp k = some g
  rest : { t with groups := s.groups, l1 := s.l1 } = s
  held : ∀ key ∈ keys, t.holdsPriv (hearthOf k) key

/-- One run of bytes written to a line that L1 holds. -/
theorem State.Touched.write {s t : State} {k : Nat} {g : Group} {keys : List Nat} (h : s.Touched k g keys t) {line : Nat}
    (hl : physKey (g.pb + 128 * line) ∈ keys) (whole : Bool) (f : Group → Group) :
    s.Touched k (f g) keys ((t.touchPriv k (128 * line) true whole).modG k f) := by
  obtain ⟨ln, d, hp, heq⟩ := touchPriv_held h.grp (h.held _ hl) true whole
  have hgrp : (t.l1Renew (hearthOf k) ln { ln with dirty := d }).grp k = some g := h.grp
  rw [heq, modG_of _ _ _ _ hgrp]
  exact ⟨grp_setG_same _ _ _, h.rest, fun key hkey => holdsPriv_l1Renew (h.held key hkey) hp d⟩

/-! ### The entry of a spilled split (R43) -/

theorem Split.length_entry (sp : Split) : sp.entry.length = 48 := by
  simp only [entry, List.length_append, length_leBytes]

section
variable {x : Nat} {b : List Byte}

theorem stackRuns_one (hb : b.length = 48) (hx : x % 128 ≤ 80) : stackRuns x b = [(x, b, false)] := by
  have htake : b.take (128 - x % 128) = b := List.take_of_length_le (by omega)
  have hdrop : b.drop (128 - x % 128) = [] := List.drop_eq_nil_of_le (by omega)
  have hne : b ≠ [] := fun h => by simp [h] at hb
  unfold stackRuns
  simp [htake, hdrop, hne]

theorem stackRuns_two (hb : b.length = 48) (hx : 80 < x % 128) :
    stackRuns x b = [(x, b.take (128 - x % 128), false), (x + (128 - x % 128), b.drop (128 - x % 128), false)] := by
  have htake : b.take (128 - x % 128) ≠ [] := fun h => by
    have hlen := congrArg List.length h
    rw [List.length_take, List.length_nil] at hlen
    omega
  have hdrop : b.drop (128 - x % 128) ≠ [] := fun h => by
    have hlen := congrArg List.length h
    rw [List.length_drop, List.length_nil] at hlen
    omega
  have hat : x / 128 * 128 + 128 = x + (128 - x % 128) := by omega
  unfold stackRuns
  simp [htake, hdrop, hat]
end

theorem State.setStack_spill (s : State) (k : Nat) {g : Group} {n : Nat} {y : Split} (h : (n, y) ∉ g.spilled) :
    s.setStack k g (g.spill n y) = (s.setG k (g.spill n y)).privWrite k (stackRuns (g.stackAt n) y.entry) := by
  have hin : (g.spilled.filter fun p => !(g.spill n y).spilled.contains p) = [] :=
    List.filter_eq_nil_iff.2 fun p hp => by simp [Group.spill, hp]
  have hout : ((g.spill n y).spilled.filter fun p => !g.spilled.contains p) = [(n, y)] := by
    rw [Group.spill, List.filter_append, List.filter_eq_nil_iff.2 fun p hp => by simp [hp]]
    simp [h]
  unfold setStack
  simp only [hin, hout, List.foldl_nil, List.foldr_cons, List.foldr_nil, List.append_nil]
  rfl

/-- A group whose own bytes from x up are a list's; those below are as they were, and nothing else has changed but poison marks. -/
structure Group.Entered (g : Group) (x : Nat) (b : List Byte) (g' : Group) : Prop where
  rest : { g' with priv := g.priv, privPz := g.privPz } = g
  bytes : ∀ i, i < b.length → tabGet g'.priv (x + i) = b[i]?
  below : ∀ a, a < x → tabGet g'.priv a = tabGet g.priv a

theorem Group.entered_one (g : Group) (x : Nat) (b : List Byte) : g.Entered x b (g.privWriteFlat x b false) :=
  ⟨rfl, fun _ hi => tabGet_tabPut_in _ _ hi, fun _ ha => tabGet_tabPut_below _ _ ha⟩

theorem Group.entered_two (g : Group) (x n : Nat) (b : List Byte) (hn : n ≤ b.length) :
    g.Entered x b ((g.privWriteFlat x (b.take n) false).privWriteFlat (x + n) (b.drop n) false) := by
  have hlen : (b.take n).length = n := List.length_take_of_le hn
  refine ⟨rfl, fun i hi => ?_, fun a ha => ?_⟩
  · show tabGet (tabPut (tabPut g.priv x (b.take n)) (x + n) (b.drop n)) (x + i) = b[i]?
    by_cases hin : i < n
    · rw [tabGet_tabPut_below _ _ (by omega), tabGet_tabPut_in _ _ (by omega), List.getElem?_take_of_lt hin]
    · obtain ⟨j, rfl⟩ := Nat.exists_eq_add_of_le (Nat.not_lt.1 hin)
      rw [← Nat.add_assoc, tabGet_tabPut_in _ _ (by rw [List.length_drop]; omega), List.getElem?_drop]
  · show tabGet (tabPut (tabPut g.priv x (b.take n)) (x + n) (b.drop n)) a = tabGet g.priv a
    rw [tabGet_tabPut_below _ _ (by omega), tabGet_tabPut_below _ _ ha]

/-- An offset into a group's own area and the first of its line have one key. -/
theorem physKey_line {pb : Nat} (hpb : pb % 128 = 0) (x : Nat) : physKey (pb + 128 * (x / 128)) = physKey (pb + x) := by
  unfold physKey
  omega

section
variable {s t : State} {k : Nat} {g : Group} {x : Nat} {b : List Byte}
  (hpb : g.pb % 128 = 0) (hb : b.length = 48) (ht : s.Touched k g [physKey (g.pb + x), physKey (g.pb + (x + 47))] t)
include hpb hb ht

/-- The entry of a spilled split written where its lines are in L1. -/
theorem State.Touched.entry : ∃ g', s.Touched k g' [physKey (g.pb + x), physKey (g.pb + (x + 47))] (t.privWrite k (stackRuns x b)) ∧
    g.Entered x b g' := by
  have hfirst : physKey (g.pb + 128 * (x / 128)) ∈ [physKey (g.pb + x), physKey (g.pb + (x + 47))] := by
    rw [physKey_line hpb]
    exact List.mem_cons_self ..
  by_cases hx : x % 128 ≤ 80
  · refine ⟨_, ?_, g.entered_one x b⟩
    rw [stackRuns_one hb hx]
    have hw := ht.write hfirst (b.length = 128) fun g => g.privWriteFlat x b false
    simpa [privWrite, addOnce] using hw
  · have hcut : 128 - x % 128 ≤ b.length := by omega
    refine ⟨_, ?_, g.entered_two x (128 - x % 128) b hcut⟩
    rw [stackRuns_two hb (Nat.not_le.1 hx)]
    have hnext : (x + (128 - x % 128)) / 128 = x / 128 + 1 := by omega
    have hlast : physKey (g.pb + 128 * (x / 128 + 1)) ∈ [physKey (g.pb + x), physKey (g.pb + (x + 47))] := by
      rw [← show (x + 47) / 128 = x / 128 + 1 by omega, physKey_line hpb]
      exact List.mem_cons_of_mem _ (List.mem_cons_self ..)
    have hw := (ht.write hfirst ((b.take (128 - x % 128)).length = 128) fun g => g.privWriteFlat x (b.take (128 - x % 128)) false).write
      hlast ((b.drop (128 - x % 128)).length = 128) fun g => g.privWriteFlat (x + (128 - x % 128)) (b.drop (128 - x % 128)) false
    simpa [privWrite, addOnce, hnext] using hw
end

theorem State.setStack_spill_held {s : State} {k n : Nat} {g : Group} {y : Split} (h : (n, y) ∉ g.spilled)
    (hheld : ∀ o ∈ [g.stackAt n, g.stackAt n + 47], s.holdsPriv (hearthOf k) (physKey (g.pb + o))) (hpb : g.pb % 128 = 0) :
    { s.setStack k g (g.spill n y) with groups := s.groups, l1 := s.l1 } = s ∧
      ∃ g', (s.setStack k g (g.spill n y)).grp k = some g' ∧ (g.spill n y).Entered (g.stackAt n) y.entry g' := by
  have hstart : s.Touched k (g.spill n y) [physKey (g.pb + g.stackAt n), physKey (g.pb + (g.stackAt n + 47))]
      (s.setG k (g.spill n y)) := by
    refine ⟨State.grp_setG_same _ _ _, rfl, fun key hkey => ?_⟩
    rcases List.mem_pair.1 hkey with rfl | rfl
    · exact hheld _ (List.mem_cons_self ..)
    · exact hheld _ (List.mem_cons_of_mem _ (List.mem_cons_self ..))
  obtain ⟨g', ht, hg'⟩ := State.Touched.entry (g := g.spill n y) hpb y.length_entry hstart
  rw [State.setStack_spill s k h]
  exact ⟨ht.rest, g', ht.grp, hg'⟩

/-! ### The obligation -/

section
variable {s : State} {e : LEnv} (hi : e.issues s)
include hi

theorem LEnv.control_waits (h : ∃ o ∈ e.sp.outs, o.arrived e.s.clk = false) :
    ∀ i ∈ ([.bra e.f, .join e.f, .lpause e.f, .lstop e.f] : List Instr), exec i s = .next (e.s.waitL e.k e.slot) := by
  simp only [List.forall_mem_cons, exec_bra hi, exec_join hi, exec_lpause hi, exec_lstop hi, settled_waits h]
  exact ⟨trivial, trivial, trivial, trivial, fun _ h => nomatch h⟩

variable (h : ∀ o ∈ e.sp.outs, o.arrived e.s.clk = true)
include h

theorem LEnv.exec_bra_settled : exec (.bra e.f) s = .next (e.braFrom (e.g.landSplit e.slot) e.sp.settled) := by
  rw [exec_bra hi, settled_goes h]

theorem LEnv.exec_join_settled :
    exec (.join e.f) s = .next (e.joinFrom (e.f.va.toNat % 8) (e.g.landSplit e.slot) e.sp.settled) := by
  rw [exec_join hi, settled_goes h]

theorem LEnv.exec_lstop_settled : exec (.lstop e.f) s = .next (e.lstopFrom (e.g.landSplit e.slot) e.sp.settled) := by
  rw [exec_lstop hi, settled_goes h]

theorem LEnv.exec_lpause_settled :
    exec (.lpause e.f) s = .next (e.s.stamp.setG e.k ((e.g.landSplit e.slot).demote.setSplit e.slot (some { e.sp.settled with
      pc := e.sp.pc + 12, rot := if (e.g.landSplit e.slot).oldestAble.isSome then e.sp.rot + 1 else e.sp.rot }))) := by
  rw [exec_lpause hi, settled_goes h, Group.countRot_eq]
  rfl
end

/-- Settles O46: each instruction by its equation on a settled split, `join` by the greatest joined set, and the entry of a spilled
split by the lines of it that L1 holds. -/
theorem laneControl : Obligations.LaneControl := by
  intro s e l b hi g sp next spills bra join lstop acting fall target to_ rot inside taken divided trap waits me gj here all covers inSet
    stop gs
  have hcovers : ∀ {c}, covers c ↔ Joined c ∧ ∀ x ∈ c, x ∈ here := fun {c} =>
    ⟨fun hc => ⟨fun x hx => (hc x hx).2, fun x hx => (hc x hx).1⟩, fun hc x hx => ⟨hc.2 x hx, hc.1 x hx⟩⟩
  have hbegins : ∀ {i : Instr} {x : Option Split} {me : Split}, me.mask = sp.mask →
      exec i s = .next (e.begin (g.setSplit e.slot x) me) → waits i me := fun {i x me} hmask hx =>
    ⟨fun hd => hx.trans (congrArg _ (LEnv.begin_waits hd)),
      fun hd => (hx.trans (congrArg _ (LEnv.begin_deadlocks hd))).trans (by rw [hmask])⟩
  refine ⟨LEnv.control_waits hi, fun h => ?_, fun n y => ⟨rfl, fun hnew hheld hpb => ?_⟩, Group.stopBlock_last,
    fun b' => Group.stopBlock_next⟩
  · have hbra : ∀ {u}, e.braFrom g e.sp.settled = u → exec bra s = .next u := fun hu => hu ▸ LEnv.exec_bra_settled hi h
    refine ⟨fun hts => hbra (LEnv.braFrom_idle hts), fun hts hin => hbra (LEnv.braFrom_beyond hts hin),
      fun hts hin _ hall => hbra (LEnv.braFrom_whole hts hin hall), fun hts hin hpart => ?_, fun hno => ?_, fun hne hc hmax hl => ?_,
      LEnv.exec_lpause_settled hi h, fun hst => ?_, fun hst => ?_⟩
    · have hdiv := LEnv.braFrom_divides (g := g) (sp := e.sp.settled) hts hin hpart
      exact ⟨fun hfree => hbra (hdiv.trans (LEnv.divide_free hfree)), fun y n hy hn => hbra (hdiv.trans (LEnv.divide_spills hy hn)),
        fun y hy hn => hbra (hdiv.trans (LEnv.divide_full hy hn))⟩
    · refine hbegins rfl ((LEnv.exec_join_settled hi h).trans (congrArg _ (LEnv.joinFrom_waits fun c hc hin => ?_)))
      exact hno c (hcovers.2 ⟨hc, hin⟩)
    · obtain ⟨hjoined, hin⟩ := hcovers.1 hc
      exact (LEnv.exec_join_settled hi h).trans (congrArg _
        (LEnv.joinFrom_merges hne hjoined hin (fun c hc' hin' => hmax c (hcovers.2 ⟨hc', hin'⟩)) hl))
    · exact hbegins rfl ((LEnv.exec_lstop_settled hi h).trans (congrArg _ (LEnv.lstopFrom_waits hst)))
    · exact (LEnv.exec_lstop_settled hi h).trans (congrArg _ (LEnv.lstopFrom_stops hst))
  · obtain ⟨hrest, g', hgrp, hg'⟩ := State.setStack_spill_held hnew hheld hpb
    exact ⟨hrest, g', hgrp, hg'.rest, fun i hlt => hg'.bytes i (by rw [Split.length_entry]; exact hlt), hg'.below⟩

end Sys2Proof.Machine
end

section
/-! # Decoding and encoding agree (O56)

The decoder reads the fields of a word where the encoder places them. It accepts what it reads only when that encodes to the same words, so
the converse is by its definition. -/

namespace Sys2Proof.Machine

/-! ### The fields of a stoker word (R45) -/

theorem fld_eq_iff {w lo n : Nat} {x : BitVec n} : fld w lo n = x ↔ w / 2 ^ lo % 2 ^ n = x.toNat := by
  rw [← BitVec.toNat_inj, BitVec.toNat_ofNat]

theorem encF_nil (op fn : Nat) : encF op fn [] = op * 2 ^ 25 + fn := by
  rw [encF, List.foldr_nil]

theorem encF_cons (op fn x lo : Nat) (fs : List (Nat × Nat)) : encF op fn ((x, lo) :: fs) = x * 2 ^ lo + encF op fn fs := by
  rw [encF, List.foldr_cons, encF]

theorem encF_op (op fn : Nat) (fs : List (Nat × Nat)) : encF op fn fs = op * 2 ^ 25 + encF 0 fn fs := by
  induction fs with
  | nil => simp only [encF_nil]; omega
  | cons p fs ih => rw [encF_cons, encF_cons, ih]; omega

/-- The opcode stands in a word whatever its fields, as long as they lie below it. -/
theorem bits_encF_op {op fn w : Nat} {fs : List (Nat × Nat)} (h : encF op fn fs = w) (hlow : encF 0 fn fs < 2 ^ 25) (hop : op < 2 ^ 7) :
    bits w 25 7 = op := by
  rw [← h, encF_op, bits]
  omega

/-- The opcodes of the atomics of group scope, one for each width (R53). -/
theorem candidateStoker_plain {w : Nat} (h : bits w 26 6 = 0x18) : candidateStoker w = candidateAtomic false w := by
  have hop : bits w 25 7 = 0x30 ∨ bits w 25 7 = 0x31 := by
    simp only [bits] at h ⊢
    omega
  rcases hop with hop | hop <;> rw [candidateStoker, hop] <;> rfl

/-- The opcodes of the ordered atomics, one for each width (R53). -/
theorem candidateStoker_ordered {w : Nat} (h : bits w 26 6 = 0x19) : candidateStoker w = candidateAtomic true w := by
  have hop : bits w 25 7 = 0x32 ∨ bits w 25 7 = 0x33 := by
    simp only [bits] at h ⊢
    omega
  rcases hop with hop | hop <;> rw [candidateStoker, hop] <;> rfl

/-! ### The formats of the large families: what is read from a word written so (R50–R53) -/

section
variable {w fn : Nat} {d a b : BitVec 6}

/-- The register operations of opcode 0x00 with two sources. -/
theorem reads_registers (h : encF 0 fn [(d.toNat, 19), (a.toNat, 13), (b.toNat, 7)] = w) (hfn : fn < 2 ^ 7) :
    candidateStoker w = candidateAlu w ∧ bits w 0 7 = fn ∧ fld w 19 6 = d ∧ fld w 13 6 = a ∧ fld w 7 6 = b := by
  have hop := bits_encF_op h (by simp only [encF_cons, encF_nil]; omega) (by decide)
  refine ⟨by rw [candidateStoker, hop]; rfl, ?_⟩
  simp only [encF_cons, encF_nil, bits, fld_eq_iff] at h ⊢
  omega

/-- Those with one source: the field of the second is 0. -/
theorem reads_register (h : encF 0 fn [(d.toNat, 19), (a.toNat, 13)] = w) (hfn : fn < 2 ^ 7) :
    candidateStoker w = candidateAlu w ∧ bits w 0 7 = fn ∧ fld w 19 6 = d ∧ fld w 13 6 = a := by
  have hb : encF 0 fn [(d.toNat, 19), (a.toNat, 13), ((0#6).toNat, 7)] = w := by
    simpa only [encF_cons, BitVec.toNat_ofNat, Nat.zero_mod, Nat.zero_mul, Nat.zero_add] using h
  obtain ⟨hop, hf, hd, ha, -⟩ := reads_registers hb hfn
  exact ⟨hop, hf, hd, ha⟩

/-- The atomics of group scope: the width is the lowest bit of the opcode. -/
theorem reads_atomic {wd : BitVec 1} (h : encF 0x30 fn [(wd.toNat, 25), (d.toNat, 19), (a.toNat, 13), (b.toNat, 7)] = w) (hfn : fn < 2 ^ 7) :
    candidateStoker w = candidateAtomic false w ∧ bits w 3 4 = fn / 8 ∧ fld w 25 1 = wd ∧ fld w 19 6 = d ∧ fld w 13 6 = a ∧
      fld w 7 6 = b := by
  simp only [encF_cons, encF_nil] at h
  refine ⟨candidateStoker_plain (by rw [bits]; omega), ?_⟩
  simp only [bits, fld_eq_iff]
  omega

/-- The ordered atomics, whose scope stands below the function code. -/
theorem reads_ordered {wd : BitVec 1} {sc : BitVec 3}
    (h : encF 0x32 fn [(wd.toNat, 25), (d.toNat, 19), (a.toNat, 13), (b.toNat, 7), (sc.toNat, 0)] = w) (hfn : fn < 2 ^ 7) (h8 : fn % 8 = 0) :
    candidateStoker w = candidateAtomic true w ∧ bits w 3 4 = fn / 8 ∧ fld w 25 1 = wd ∧ fld w 19 6 = d ∧ fld w 13 6 = a ∧
      fld w 7 6 = b ∧ fld w 0 3 = sc := by
  simp only [encF_cons, encF_nil] at h
  refine ⟨candidateStoker_ordered (by rw [bits]; omega), ?_⟩
  simp only [bits, fld_eq_iff]
  omega

/-- The SI format. -/
theorem reads_literal {op : Nat} {x : BitVec 13} (h : encF op 0 [(d.toNat, 19), (a.toNat, 13), (x.toNat, 0)] = w) (hop : op < 2 ^ 7) :
    bits w 25 7 = op ∧ fld w 19 6 = d ∧ fld w 13 6 = a ∧ fld w 0 13 = x := by
  simp only [encF_cons, encF_nil, bits, fld_eq_iff] at h ⊢
  omega
end

/-- What the word of an instruction names is that instruction (R49–R53): the opcode, and the function code where there is one, select the arm
of the decoder, and each field is read where it was placed. -/
theorem candidateStoker_encodeStoker {i : Instr} {w : Nat} (h : encodeStoker i = some w) : candidateStoker w = some i := by
  -- `injection` leaves the instructions that have a word.
  cases i <;> injection h <;> rename_i h
  case add | sub | and | or | xor | andn | shl | shrN64 | shrI64 | mul | mulhI64 | mulhN64 | divI64 | divN64 | remI64 | remN64 | minI64
    | minN64 | maxI64 | maxN64 =>
    obtain ⟨hop, hfn, hd, ha, hb⟩ := reads_registers h (by decide)
    rw [hop, candidateAlu, hfn, hd, ha, hb]
    rfl
  case aadd | aand | aor | axor | aminI | aminN | amaxI | amaxN | axchg | acas =>
    obtain ⟨hop, hfn, hw, hd, ha, hb⟩ := reads_atomic h (by decide)
    rw [hop, candidateAtomic, hfn, hw, hd, ha, hb]
    rfl
  case aaddAr | aandAr | aorAr | axorAr | aminIAr | aminNAr | amaxIAr | amaxNAr | axchgAr | acasAr =>
    obtain ⟨hop, hfn, hw, hd, ha, hb, hs⟩ := reads_ordered h (by decide) (by decide)
    rw [hop, candidateAtomic, hfn, hw, hd, ha, hb, hs]
    rfl
  case addImm | andImm | orImm | xorImm | shlImm | shrN64Imm | shrI64Imm | mulImm | minI64Imm | minN64Imm | maxI64Imm | maxN64Imm | ldN8
    | ldI8 | ldN16 | ldI16 | ldN32 | ldI32 | ldB64 | stB8 | stB16 | stB32 | stB64 =>
    obtain ⟨hop, hd, ha, hx⟩ := reads_literal h (by decide)
    rw [candidateStoker, hop, hd, ha, hx]
    rfl
  case popc | clz | ctz | bswap =>
    obtain ⟨hop, hfn, hd, ha⟩ := reads_register h (by decide)
    rw [hop, candidateAlu, hfn, hd, ha]
    rfl
  all_goals
    have hop := bits_encF_op h (by simp only [encF_cons, encF_nil]; omega) (by decide)
    rw [candidateStoker, hop]
    refine congrArg some ?_
    simp only [encF_cons, encF_nil] at h
    congr <;> rw [fld_eq_iff] <;> omega

theorem encodeStoker_lt {i : Instr} {w : Nat} (h : encodeStoker i = some w) : w < 2 ^ 32 := by
  cases i <;> injection h <;> rename_i h <;> simp only [encF_cons, encF_nil] at h <;> omega

/-! ### Lane words (R56, R66–R68) -/

theorem laneCtor_of_laneSig {i : Instr} {q : LaneSig} {f : LaneF} (h : laneSig i = some (q, f)) :
    q.cls < 16 ∧ q.op < 32 ∧ ∃ c, laneCtor q.cls q.op = some c ∧ c f = i := by
  cases i <;> cases h <;> exact ⟨by decide, by decide, _, rfl, rfl⟩

/-- The three words of a lane instruction give back its class, its operation and its fields; outside class 0xB the order and space bits are
0 and the operation takes all eight bits. -/
theorem reads_lane {q : LaneSig} {f : LaneF} {w0 w1 w2 : Nat} (h : encodeLane q f = [w0, w1, w2]) (hcls : q.cls < 16) (hop : q.op < 32)
    (hatom : q.cls = 11 ∨ (f.ord = 0 ∧ f.sp = 0)) :
    bits w0 28 4 = q.cls ∧ (if q.cls == 11 then bits w0 20 5 else bits w0 20 8) = q.op ∧ laneFields w0 w1 w2 = f := by
  obtain ⟨vd, va, vb, vc, la, rnd, sat, mr, ms, bsel, csel, ty, x, ord, sp⟩ := f
  simp only [encodeLane, List.cons.injEq, and_true] at h
  obtain ⟨h0, h1, h2⟩ := h
  have hc : bits w0 28 4 = q.cls := by
    rw [bits]
    omega
  simp only at hatom
  simp only [bits] at hc
  refine ⟨hc, ?_, ?_⟩
  · rcases hatom with h11 | ⟨rfl, rfl⟩
    · simp only [h11, bits, beq_self_eq_true, if_true]
      omega
    · simp only [BitVec.ofNat_eq_ofNat, BitVec.toNat_ofNat, Nat.zero_mod] at h0
      split <;> simp only [bits] <;> omega
  · simp only [laneFields, bits, hc, LaneF.mk.injEq, fld_eq_iff, beq_iff_eq]
    refine ⟨?_, ?_, ?_, ?_, ?_, ?_, ?_, ?_, ?_, ?_, ?_, ?_, ?_, ?_, ?_⟩
    iterate 13 omega
    all_goals
      split
      · rw [fld_eq_iff]
        omega
      · rcases hatom with h11 | ⟨rfl, rfl⟩
        · contradiction
        · rfl

/-! ### Words in memory (R45, R56) -/

/-- The bytes of words in memory, each word little-endian. -/
def wordBytes (ws : List Nat) : List Byte := ws.foldr (fun w l => leBytes 4 w ++ l) []

theorem leNat_leBytes (n x : Nat) : leNat (leBytes n x) = x % 256 ^ n := by
  induction n generalizing x with
  | zero => rw [leBytes, leNat, Nat.pow_zero, Nat.mod_one]
  | succ n ih => rw [leBytes, leNat, ih, BitVec.toNat_ofNat, Nat.pow_succ' (m := 256), Nat.mod_mul]

theorem wordAt_zero {w : Nat} (h : w < 2 ^ 32) (l : List Byte) : wordAt (leBytes 4 w ++ l) 0 = w := by
  rw [wordAt, Nat.mul_zero, List.drop_zero, List.take_left' (length_leBytes 4 w), leNat_leBytes]
  exact Nat.mod_eq_of_lt h

theorem wordAt_succ (w k : Nat) (l : List Byte) : wordAt (leBytes 4 w ++ l) (k + 1) = wordAt l k := by
  rw [wordAt, wordAt, Nat.mul_succ, Nat.add_comm, ← List.drop_drop, List.drop_left' (length_leBytes 4 w)]

/-! ### Decoding -/

/-- What is accepted is well formed and has the very words read (R55, R70). -/
theorem accept_eq_ok {ws : List Nat} {c : Option Instr} {i : Instr} :
    accept ws c = .ok i ↔ c = some i ∧ encode i = ws ∧ i.wf = true := by
  cases c with
  | none => simp [accept]
  | some j =>
    rw [accept, Option.some.injEq]
    constructor
    · intro h
      split at h
      · next he =>
        split at h
        · next hw =>
          cases h
          exact ⟨rfl, he, hw⟩
        · cases h
      · cases h
    · rintro ⟨rfl, he, hw⟩
      rw [if_pos he, if_pos hw]

theorem encode_of_laneSig {i : Instr} {q : LaneSig} {f : LaneF} (h : laneSig i = some (q, f)) : encode i = encodeLane q f := by
  unfold encode
  rw [h]

theorem decodeLane_of_encode {i : Instr} {q : LaneSig} {f : LaneF} {w0 w1 w2 : Nat} (hi : laneSig i = some (q, f)) (hwf : i.wf = true)
    (hw : encode i = [w0, w1, w2]) : decodeLane w0 w1 w2 = .ok i := by
  obtain ⟨hcls, hop, c, hc, rfl⟩ := laneCtor_of_laneSig hi
  have hatom : q.cls = 11 ∨ (f.ord = 0 ∧ f.sp = 0) := by
    simp only [Instr.wf, legal, hi, laneLegal, Bool.and_eq_true, Bool.or_eq_true, beq_iff_eq] at hwf
    tauto
  obtain ⟨hrc, hro, hrf⟩ := reads_lane ((encode_of_laneSig hi).symm.trans hw) hcls hop hatom
  refine accept_eq_ok.2 ⟨?_, hw, hwf⟩
  simp only [candidateLane, hrc, hro, hrf, hc, Option.map_some]

theorem decodeStoker_of_encode {i : Instr} {w0 : Nat} (w1 w2 : Nat) (hwf : i.wf = true) (hs : encodeStoker i = some w0)
    (hw : encode i = [w0]) : decodeStoker w0 w1 w2 = .ok i := by
  have hc := candidateStoker_encodeStoker hs
  have hop : bits w0 25 7 ≠ 0x7F := fun hm => by
    rw [candidateStoker, hm] at hc
    cases hc
  rw [decodeStoker, if_neg hop]
  exact accept_eq_ok.2 ⟨hc, hw, hwf⟩

theorem encode_slit (v : W64) (op : BitVec 7) (sd sa : BitVec 6) : encode (.slit v op sd sa) =
    [0x7F * 2 ^ 25 + v.toNat / 2 ^ 45, v.toNat / 2 ^ 13 % 2 ^ 32,
      op.toNat * 2 ^ 25 + sd.toNat * 2 ^ 19 + sa.toNat * 2 ^ 13 + v.toNat % 2 ^ 13] := rfl

theorem decodeStoker_of_slit {v : W64} {op : BitVec 7} {sd sa : BitVec 6} {w0 w1 w2 : Nat} (hwf : (Instr.slit v op sd sa).wf = true)
    (hw : encode (.slit v op sd sa) = [w0, w1, w2]) : decodeStoker w0 w1 w2 = .ok (.slit v op sd sa) := by
  have hsi : isSI op.toNat = true := (Bool.and_eq_true_iff.1 (show stokerLegal (.slit v op sd sa) = true from hwf)).1
  rw [encode_slit] at hw
  simp only [List.cons.injEq, and_true] at hw
  obtain ⟨h0, h1, h2⟩ := hw
  have hm : bits w0 25 7 = 0x7F := by
    rw [bits]
    omega
  have hop : bits w2 25 7 = op.toNat := by
    rw [bits]
    omega
  rw [decodeStoker, if_pos hm, hop, if_pos hsi]
  refine accept_eq_ok.2 ⟨?_, by rw [encode_slit, h0, h1, h2], hwf⟩
  rw [Option.some.injEq, Instr.slit.injEq, fld_eq_iff, fld_eq_iff, fld_eq_iff, ← BitVec.toNat_inj, BitVec.toNat_ofNat]
  omega

theorem encodeLane_words {q : LaneSig} {f : LaneF} (hcls : q.cls < 16) (hop : q.op < 32) :
    ∃ w0 w1 w2, encodeLane q f = [w0, w1, w2] ∧ w0 < 2 ^ 32 ∧ w1 < 2 ^ 32 ∧ w2 < 2 ^ 32 :=
  ⟨_, _, _, rfl, by omega, by omega, by omega⟩

/-- An instruction of the stoker that has words is a `slit` or has one word (R45, R48). -/
theorem encode_stoker_cases {i : Instr} (hi : laneSig i = none) (hne : encode i ≠ []) :
    (∃ v op sd sa, i = .slit v op sd sa) ∨ ∃ w, encodeStoker i = some w ∧ encode i = [w] := by
  have he : (∃ v op sd sa, i = .slit v op sd sa) ∨ encode i = (encodeStoker i).toList := by
    unfold encode
    rw [hi]
    dsimp only
    split
    · exact .inl ⟨_, _, _, _, rfl⟩
    · exact .inr rfl
  refine he.imp_right fun he => ?_
  cases hs : encodeStoker i with
  | none => exact absurd (by rw [he, hs]; rfl) hne
  | some w => exact ⟨w, rfl, by rw [he, hs]; rfl⟩

/-! ### Decoding the bytes of an instruction, whatever follows them (R84) -/

theorem decodeBytes_lane {i : Instr} {q : LaneSig} {f : LaneF} (rest : List Byte) (hi : laneSig i = some (q, f)) (hwf : i.wf = true) :
    decodeBytes true (wordBytes (encode i) ++ rest) = .ok i := by
  obtain ⟨hcls, hop, -⟩ := laneCtor_of_laneSig hi
  obtain ⟨w0, w1, w2, hw, h0, h1, h2⟩ := encodeLane_words (f := f) hcls hop
  rw [← encode_of_laneSig hi] at hw
  rw [hw, decodeBytes, if_pos rfl]
  simp only [wordBytes, List.foldr_cons, List.append_assoc, wordAt_zero h0, wordAt_zero h1, wordAt_zero h2, wordAt_succ]
  exact decodeLane_of_encode hi hwf hw

theorem decodeBytes_word {i : Instr} {w : Nat} (rest : List Byte) (hwf : i.wf = true) (hs : encodeStoker i = some w) (hw : encode i = [w]) :
    decodeBytes false (wordBytes (encode i) ++ rest) = .ok i := by
  rw [hw, decodeBytes, if_neg (by decide)]
  simp only [wordBytes, List.foldr_cons, List.append_assoc, wordAt_zero (encodeStoker_lt hs), wordAt_succ]
  exact decodeStoker_of_encode _ _ hwf hs hw

theorem decodeBytes_slit {v : W64} {op : BitVec 7} {sd sa : BitVec 6} (rest : List Byte) (hwf : (Instr.slit v op sd sa).wf = true) :
    decodeBytes false (wordBytes (encode (.slit v op sd sa)) ++ rest) = .ok (.slit v op sd sa) := by
  obtain ⟨w0, w1, w2, hw, h0, h1, h2⟩ : ∃ w0 w1 w2, encode (.slit v op sd sa) = [w0, w1, w2] ∧ w0 < 2 ^ 32 ∧ w1 < 2 ^ 32 ∧ w2 < 2 ^ 32 :=
    ⟨_, _, _, rfl, by omega, by omega, by omega⟩
  rw [hw, decodeBytes, if_neg (by decide)]
  simp only [wordBytes, List.foldr_cons, List.append_assoc, wordAt_zero h0, wordAt_zero h1, wordAt_zero h2, wordAt_succ]
  exact decodeStoker_of_slit hwf hw

theorem encode_of_decodeStoker {i : Instr} {w0 w1 w2 : Nat} (h : decodeStoker w0 w1 w2 = .ok i) :
    i.wf = true ∧ encode i = if w0 / 2 ^ 25 % 2 ^ 7 = 0x7F then [w0, w1, w2] else [w0] := by
  rw [decodeStoker, bits] at h
  split_ifs at h ⊢
  · exact (accept_eq_ok.1 h).2.symm
  · exact (accept_eq_ok.1 h).2.symm

/-- Settles O56: a lane instruction, a word of the stoker and a `slit` unit each decode from their bytes; and what the decoder accepts it has
compared with its own words. -/
theorem encodeDecode : Obligations.EncodeDecode := by
  unfold Obligations.EncodeDecode
  refine ⟨fun i rest hwf hne => ?_, fun i w0 w1 w2 => ⟨encode_of_decodeStoker, fun h => (accept_eq_ok.1 h).2.symm⟩⟩
  cases hi : laneSig i with
  | some p => exact decodeBytes_lane rest hi hwf
  | none =>
    obtain ⟨v, op, sd, sa, rfl⟩ | ⟨w, hs, hw⟩ := encode_stoker_cases hi hne
    · exact decodeBytes_slit rest hwf
    · exact decodeBytes_word rest hwf hs hw

end Sys2Proof.Machine
end

section
/-! # Compares, and operands that must not be poisoned (O5, O6) -/

namespace Sys2Proof.Machine

section
variable {s : State} {i : Instr} {k len : Nat} {g : Group} {cn cc : BitVec 3} {a b : SReg} {signed : Bool}

/-- A compare of values that are not poisoned writes its relation (R93). -/
theorem State.putsC.of_compare {x : Bool} (hi : exec i s = .next (compare s cn a b cc signed len k g)) (ha : a.pz = false) (hb : b.pz = false)
    (hx : intRel cc.toNat signed 64 a.val.toNat b.val.toNat = x) : s.putsC i k g cn x len :=
  State.putsC_of (by rw [hi, compare, if_neg (by simp [ha, hb]), hx])

/-- A compare of a poisoned value traps (R87). -/
theorem State.trapsS.of_compare (hi : exec i s = .next (compare s cn a b cc signed len k g)) (hp : a.pz = true ∨ b.pz = true) :
    s.trapsS s i k g (trapPoison 0 0) len := by
  unfold State.trapsS
  rw [hi, compare, if_pos (by simpa using hp)]

/-- An instruction that looks at its operand's tag first traps where it is poisoned (R87). -/
theorem State.trapsS.of_poisoned {f : Nat → Group → State} {body : State} (h : s.stokerAt k g) (hi : exec i s = onStoker s f)
    (hf : f k g = if a.pz then s.trapS k g (trapPoison 0 0) else body) (hp : a.pz = true) : s.trapsS s i k g (trapPoison 0 0) 4 := by
  unfold State.trapsS
  rw [hi, onStoker_next h.1 h.2, hf, if_pos hp]
end

/-- Settles O5: the relations are those of the integers that the sources stand for; each of the other instructions looks at the tag of the
operand that decides before it does anything. -/
theorem compares : Obligations.Compare := by
  unfold Obligations.Compare
  refine ⟨fun s k g cn cc sa sb imm h _ ha => ?_, fun s k g sd sa sb cn cc ty off imm h => ⟨?_, ?_⟩⟩
  · have hn := onStoker_next h.1 h.2
    exact ⟨fun hb => ⟨.of_compare (hn _) ha hb (intRel_signed _ _ _), .of_compare (hn _) ha hb (intRel_unsigned _ _ _)⟩,
      .of_compare (hn _) ha rfl (intRel_signed _ _ _), .of_compare (hn _) ha rfl (intRel_unsigned _ _ _)⟩
  · simp only [List.forall_mem_cons]
    exact ⟨shiftR_trap h _ _ _ _, shiftR_trap h _ _ _ _, shiftR_trap h _ _ _ _,
      fun hp => .of_compare (onStoker_next h.1 h.2 _) (.inr hp), List.forall_mem_nil _⟩
  · simp only [List.forall_mem_cons]
    have hn := onStoker_next h.1 h.2
    exact ⟨fun hp => .of_compare (hn _) (.inl hp), fun hp => .of_compare (hn _) (.inl hp), fun hp => .of_compare (hn _) (.inl hp),
      .of_poisoned h rfl rfl, .of_poisoned h rfl rfl, .of_poisoned h rfl rfl, .of_poisoned h rfl rfl, List.forall_mem_nil _⟩

/-- An operation on a register and the literal of a `slit` puts its value with the register's tag, past the three words (R48, R87). -/
theorem State.putsS.of_slit {s : State} {k : Nat} {g : Group} {op : BitVec 7} {sd sa : BitVec 6} {v x : W64} {f : W64 → W64 → W64}
    (h : s.stokerAt k g) (hi : exec (.slit v op sd sa) s = aluI s sd sa v 12 f) (hx : f (g.sGet sa.toNat).val v = x) :
    s.putsS s (.slit v op sd sa) k g sd ⟨x, (g.sGet sa.toNat).pz⟩ 12 :=
  State.putsS_of (by rw [hi, aluI_next h, hx])

/-- The destination field of a compare word holds cc above cN (R51). -/
theorem setWidth_ushiftRight_append (cc cn : BitVec 3) : ((cc ++ cn : BitVec 6) >>> 3).setWidth 3 = cc := by
  revert cc cn
  decide

section
variable {s : State} {k : Nat} {g : Group} {sa : BitVec 6} {v : W64} {cc cn : BitVec 3} (h : s.stokerAt k g)
include h

theorem exec_slit_cmpI64 :
    exec (.slit v 0x10 (cc ++ cn) sa) s = .next (compare s cn (g.sGet sa.toNat) ⟨v, false⟩ cc true 12 k g) := by
  refine (onStoker_next h.1 h.2 _).trans ?_
  rw [BitVec.setWidth_append_eq_right, setWidth_ushiftRight_append]

theorem exec_slit_cmpN64 :
    exec (.slit v 0x11 (cc ++ cn) sa) s = .next (compare s cn (g.sGet sa.toNat) ⟨v, false⟩ cc false 12 k g) := by
  refine (onStoker_next h.1 h.2 _).trans ?_
  rw [BitVec.setWidth_append_eq_right, setWidth_ushiftRight_append]
end

/-- Settles O6: each SI opcode selects the operation of its own, and the literal stands where the short form has its immediate. -/
theorem slit : Obligations.Slit := by
  unfold Obligations.Slit
  intro s k g sd sa v cc cn h a pz
  have hn := onStoker_next h.1 h.2
  refine ⟨?_, fun hp _ => ⟨?_, ?_⟩, fun hp op hop => ?_⟩
  · simp only [List.forall_mem_cons]
    exact ⟨.of_slit h rfl rfl, .of_slit h rfl rfl, .of_slit h rfl rfl, .of_slit h rfl rfl, .of_slit h rfl (shlq_eq _ _),
      .of_slit h rfl (shrq_eq _ _), .of_slit h rfl (sarq_eq _ _), .of_slit h rfl rfl, .of_slit h rfl (minq_signed _ _),
      .of_slit h rfl (minq_unsigned _ _), .of_slit h rfl (maxq_signed _ _), .of_slit h rfl (maxq_unsigned _ _), List.forall_mem_nil _⟩
  · exact .of_compare (exec_slit_cmpI64 h) hp rfl (intRel_signed _ _ _)
  · exact .of_compare (exec_slit_cmpN64 h) hp rfl (intRel_unsigned _ _ _)
  · rcases hop with rfl | rfl
    · exact .of_compare (hn _) (.inl hp)
    · exact .of_compare (hn _) (.inl hp)

end Sys2Proof.Machine
end

section
/-! # Traps an instruction raises as such, words that are none, and pages that cannot be fetched (O31) -/

namespace Sys2Proof.Machine

/-- The illegal access of a fetch, with the size of what was fetched. -/
def State.fetchTrap (s : State) (k : Nat) (g : Group) (size : Nat) : Trap :=
  { code := 0x06, addr := BitVec.ofNat 64 s.ev.a, size := size, malf := s.malformed k g (BitVec.ofNat 64 s.ev.a) }

theorem exec_fetchPageFault_stoker {s : State} {k : Nat} {g : Group} (h : s.stokerAt k g) :
    s.trapsS s .fetchPageFault k g (s.fetchTrap k g 4) (if s.ev.flag then 12 else 4) := by
  unfold State.trapsS
  rw [← onStoker_next h.1 h.2 fun k g => s.trapS k g (s.fetchTrap k g 4) (if s.ev.flag then 12 else 4)]
  show execFetchPageFault s = _
  unfold execFetchPageFault
  rw [h.1]
  rfl

theorem exec_fetchPageFault_lane {s : State} {k slot : Nat} {g : Group} {sp : Split} (h : s.laneAt k slot g sp) :
    exec .fetchPageFault s = .next (s.trapL k slot g sp (s.fetchTrap k g 12) sp.mask) := by
  obtain ⟨hcur, hg, hsp⟩ := h
  rw [← onLane_next hcur hg hsp fun k slot g sp => s.trapL k slot g sp (s.fetchTrap k g 12) sp.mask]
  show execFetchPageFault s = _
  unfold execFetchPageFault
  rw [hcur]
  rfl

/-- Settles O31: each instruction is its trap in the stream that issues. -/
theorem raisedTraps : Obligations.RaisedTraps := by
  unfold Obligations.RaisedTraps
  intro s k slot g sp n
  exact ⟨fun h => onStoker_next h.1 h.2 _, fun h => onStoker_next h.1 h.2 _, fun ⟨hcur, hg, hsp⟩ => onLane_next hcur hg hsp _,
    exec_fetchPageFault_stoker, exec_fetchPageFault_lane⟩

end Sys2Proof.Machine
end

section
/-! # A barrier of a grid with a group whose workgroup is in no table (O18)

`Barriers` speaks of every state, also of one in which a group that waits belongs to a workgroup that is not placed. The model looks for the
grid of such a workgroup among the saved ones (`State.gridNo`), the statement takes grid 0 for it (`State.wgOf`). Where the two differ, the
group stands among those of grid 0 by the statement's words, and by the model it waits for the groups of its saved grid. -/

namespace Sys2Proof.Machine

/-- A group of a workgroup, at its stoker's first instruction. -/
def strayGroup (wg n : Nat) (arrived : Option Bool) : Group :=
  { ctx := 0, wg := wg, gidx := 0, kern := {}, width := 32, gbars := n, arrived := arrived }

/-- The only workgroup of a grid. -/
def strayWg (grid : Nat) : Wg := { grid := grid, ctx := 0, ix := 0, iy := 0, iz := 0, hearth := 0, slots := [0] }

/-- A co-resident grid of one workgroup, of which `next` are placed. -/
def strayGrid (next : Nat) : Grid := { ctx := 0, kern := {}, gx := 1, gy := 1, gz := 1, ngrp := 1, cores := true, next := next }

/-- The stoker of a group of grid 0 issues, and a group of workgroup 7 waits at its first `gbar`. Workgroup 7 is saved, and belongs to grid 5,
which is not placed. -/
def strays : State :=
  { State.reset with
    cur := some (.stoker 0), groups := [(0, strayGroup 0 0 none), (1, strayGroup 7 1 (some true))], wgs := [(0, strayWg 0)],
    grids := [(0, strayGrid 1), (5, strayGrid 0)],
    saved := [{ wgid := 7, wg := strayWg 5, groups := [], copies := [], mats := [], locks := [], views := [], recs := [] }] }

/-- The state after the last party of grid 0 has arrived. -/
def straysPast : State := (strays.setG 0 (strayGroup 0 1 (some true))).openBarrier (strayGroup 0 1 (some true)) true

theorem exec_gbar_strays : exec .gbar strays = .next straysPast := rfl

theorem straysPast_waits : straysPast.grp 1 = some (strayGroup 7 1 (some true)) := by decide +kernel

/-- Refutes O18: the last party of grid 0 arrives, and a group that the statement counts to grid 0 waits on for the groups of its own grid. -/
theorem not_barriers : ¬ Obligations.Barriers := by
  intro h
  obtain ⟨h, -⟩ := h
  obtain ⟨-, h⟩ := h strays 0 (strayGroup 0 0 none) (strayWg 0) ⟨rfl, rfl⟩ rfl rfl
  obtain ⟨-, -, -, h⟩ := h rfl
  obtain ⟨-, h⟩ := h rfl
  obtain ⟨h, -⟩ := h (.inr ⟨rfl, rfl⟩)
  obtain ⟨t, ht, -, -, hgo⟩ := h (by decide +kernel)
  rw [exec_gbar_strays] at ht
  cases ht
  obtain ⟨-, hgo⟩ := hgo 1 (strayGroup 7 1 (some true)) (by decide) rfl
  cases straysPast_waits.symm.trans (hgo rfl rfl rfl rfl rfl)

end Sys2Proof.Machine
end

section
/-! # Words of memory and the frame pool (R244)

A frame taken from a die's pool or given back to it: which words of the pool change, which of memory, and that nothing else does. -/

namespace Sys2Proof.Machine

/-! ### Words of memory -/

theorem State.peekNat_of_bytes {s t : State} {pa n : Nat} (h : ∀ i, i < n → memGet t.mem (pa + i) = memGet s.mem (pa + i)) :
    t.peekNat pa n = s.peekNat pa n := by
  unfold State.peekNat State.peek
  rw [memGetBytes_eq_map, memGetBytes_eq_map]
  congr 1
  exact List.map_congr_left fun i hi => h i (List.mem_range.1 hi)

theorem State.memGet_pokeRaw_outside {s : State} (hs : s.Canon) {pa i : Nat} {data : List Byte} (h : i < pa ∨ pa + data.length ≤ i) :
    memGet (s.pokeRaw pa data).mem i = memGet s.mem i := by
  rw [State.pokeRaw_mem, poke_outside hs _ _ _ h]

theorem State.peekNat_pokeRaw {s : State} (hs : s.Canon) (pa n x : Nat) : (s.pokeRaw pa (leBytes n x)).peekNat pa n = x % 256 ^ n := by
  have hb : memGetBytes (s.pokeRaw pa (leBytes n x)).mem pa n = leBytes n x := by
    rw [memGetBytes_eq_map]
    refine List.ext_getElem (by simp [length_leBytes]) fun i _ hi => ?_
    rw [List.getElem_map, List.getElem_range, State.pokeRaw_mem, poke_inside hs _ _ _ hi]
  rw [State.peekNat, State.peek, hb, leNat_leBytes]

/-- A frame's number is less than a word of eight bytes holds. -/
theorem mod_word_frame (f : BitVec 52) : f.toNat % 256 ^ 8 = f.toNat := Nat.mod_eq_of_lt (by omega)

/-- What a write of the device's own leaves. -/
theorem State.pokeRaw_eq (s : State) (pa : Nat) (data : List Byte) :
    ∃ m q c, s.pokeRaw pa data = { s with mem := m, poison := q, cells := c } := ⟨_, _, _, rfl⟩

/-! ### The frame pool (R244) -/

section
variable (s : State) (d : Nat) (p : Pool)

theorem State.setPool_pool_same : ∃ low, (s.setPool d p).pool d = { p with low := low } := by
  unfold State.setPool State.pool
  split
  · exact ⟨true, tabD_tabSet_same _ _ _ _⟩
  · dsimp only
    rw [tabD_tabSet_same]
    split
    · exact ⟨_, rfl⟩
    · exact ⟨_, rfl⟩

theorem State.setPool_pool_other {j : Nat} (h : j ≠ d) : (s.setPool d p).pool j = s.pool j := by
  unfold State.setPool State.pool
  split <;> exact (tabD_tabSet _ _ _ _ _).trans (if_neg h.symm)

/-- The interrupt of a low pool, once as COUNT falls below the mark. -/
theorem State.setPool_irqs : (s.setPool d p).irqs = s.irqs ++ if p.count.toNat < p.lowmark.toNat ∧ p.low = false then [5 + d] else [] := by
  have hc : (decide (p.count.toNat < p.lowmark.toNat) && !p.low) = true ↔ p.count.toNat < p.lowmark.toNat ∧ p.low = false := by simp
  unfold State.setPool
  simp only [hc]
  split
  · rfl
  · exact (List.append_nil _).symm
end

/-- Two states agree but for the pools, memory and the interrupts raised. -/
def State.OnlyPool (s t : State) : Prop :=
  { t with pools := s.pools, mem := s.mem, poison := s.poison, cells := s.cells, irqs := s.irqs } = s

theorem State.OnlyPool.refl (s : State) : s.OnlyPool s := rfl

theorem State.OnlyPool.groups {s t : State} (h : s.OnlyPool t) : t.groups = s.groups := by
  have hg := congrArg State.groups h
  exact hg

theorem State.pokeRaw_onlyPool (s : State) (pa : Nat) (data : List Byte) : s.OnlyPool (s.pokeRaw pa data) := by
  obtain ⟨m, q, c, h⟩ := s.pokeRaw_eq pa data
  rw [h]
  rfl

theorem State.setPool_onlyPool {s u : State} (hu : s.OnlyPool u) (d : Nat) (p : Pool) : s.OnlyPool (u.setPool d p) := by
  unfold State.OnlyPool State.setPool
  split <;> exact hu

section
variable {s : State} {d : Nat}

/-- The entry that a frame given back is written to: the one before HEAD. -/
def Pool.before (p : Pool) : Nat := (p.head.toNat + p.ringsize.toNat - 1) % max p.ringsize.toNat 1

/-- The pool's words after the frame at HEAD has gone. -/
def Pool.taken (p : Pool) : Pool :=
  { p with head := BitVec.ofNat 64 ((p.head.toNat + 1) % max p.ringsize.toNat 1), count := p.count - 1 }

theorem State.poolTake_idle (h : (s.pool d).held = []) : s.poolTake d = s.setPool d (s.pool d).taken := by
  unfold State.poolTake
  dsimp only
  split
  · rfl
  · next hh => cases h.symm.trans hh

/-- The pool's words after a frame held back has taken the place of the one at HEAD. -/
def Pool.refilled (p : Pool) (rest : List (BitVec 52)) : Pool :=
  { p.taken with head := BitVec.ofNat 64 p.taken.before, count := p.taken.count + 1, held := rest }

theorem State.poolTake_held {x : BitVec 52} {rest : List (BitVec 52)} (h : (s.pool d).held = x :: rest) : s.poolTake d =
    (s.pokeRaw ((s.pool d).ringbase.toNat + 8 * (s.pool d).taken.before) (leBytes 8 x.toNat)).setPool d ((s.pool d).refilled rest) := by
  unfold State.poolTake
  dsimp only
  split
  · next hh => cases h.symm.trans hh
  · next hh =>
    cases h.symm.trans hh
    rfl

/-- HEAD stands where it stood once a frame held back is written before it. -/
theorem Pool.before_taken {p : Pool} (h : p.head.toNat < max p.ringsize.toNat 1) : p.taken.before = p.head.toNat := by
  have hr := p.ringsize.isLt
  have hh : (BitVec.ofNat 64 ((p.head.toNat + 1) % max p.ringsize.toNat 1)).toNat = (p.head.toNat + 1) % max p.ringsize.toNat 1 := by
    rw [BitVec.toNat_ofNat]
    have := Nat.mod_lt (p.head.toNat + 1) (show 0 < max p.ringsize.toNat 1 by omega)
    exact Nat.mod_eq_of_lt (by omega)
  unfold Pool.before Pool.taken
  dsimp only
  rw [hh]
  generalize p.ringsize.toNat = n at *
  generalize p.head.toNat = m at *
  rcases Nat.eq_zero_or_pos n with rfl | hn
  · simp only [Nat.zero_max, Nat.lt_one_iff] at h
    rw [h]
    rfl
  · rw [Nat.max_eq_left hn] at h ⊢
    rcases Nat.lt_or_ge (m + 1) n with hlt | hge
    · rw [Nat.mod_eq_of_lt hlt, show m + 1 + n - 1 = m + n by omega, Nat.add_mod_right, Nat.mod_eq_of_lt h]
    · rw [show m + 1 = n by omega, Nat.mod_self, Nat.zero_add, Nat.mod_eq_of_lt (by omega)]
      omega

/-- What is left of the machine, of the other pools and of the pool's other words when a frame is taken. -/
theorem State.poolTake_rest (s : State) (d : Nat) : s.OnlyPool (s.poolTake d) ∧ (∀ j, j ≠ d → (s.poolTake d).pool j = s.pool j) ∧
    { (s.poolTake d).pool d with head := (s.pool d).head, count := (s.pool d).count, low := (s.pool d).low, held := (s.pool d).held } =
      s.pool d := by
  cases hh : (s.pool d).held with
  | nil =>
    rw [State.poolTake_idle hh]
    obtain ⟨low, hp⟩ := s.setPool_pool_same d (s.pool d).taken
    refine ⟨State.setPool_onlyPool (.refl s) _ _, fun j hj => s.setPool_pool_other d _ hj, ?_⟩
    rw [hp, ← hh]
    rfl
  | cons x rest =>
    rw [State.poolTake_held hh]
    obtain ⟨low, hp⟩ := State.setPool_pool_same _ d ((s.pool d).refilled rest)
    refine ⟨State.setPool_onlyPool (s.pokeRaw_onlyPool _ _) _ _, fun j hj => State.setPool_pool_other _ d _ hj, ?_⟩
    rw [hp, ← hh]
    rfl

theorem State.poolReturn_full {f : BitVec 52} (h : (s.pool d).count = (s.pool d).ringsize) :
    s.poolReturn d f = s.setPool d { s.pool d with held := (s.pool d).held ++ [f] } := if_pos h

theorem State.poolReturn_room {f : BitVec 52} (h : (s.pool d).count ≠ (s.pool d).ringsize) : s.poolReturn d f =
    (s.pokeRaw ((s.pool d).ringbase.toNat + 8 * (s.pool d).before) (leBytes 8 f.toNat)).setPool d
      { s.pool d with head := BitVec.ofNat 64 (s.pool d).before, count := (s.pool d).count + 1 } := if_neg h

/-- A frame written to an entry of the ring. -/
theorem State.ring_written (hs : s.Canon) (pa : Nat) (f : BitVec 52) (q : Pool) :
    ((s.pokeRaw pa (leBytes 8 f.toNat)).setPool d q).peekNat pa 8 = f.toNat ∧
      ∀ i, i < pa ∨ pa + 8 ≤ i → memGet ((s.pokeRaw pa (leBytes 8 f.toNat)).setPool d q).mem i = memGet s.mem i := by
  rw [State.peekNat, State.peek, State.setPool_mem]
  refine ⟨(State.peekNat_pokeRaw hs pa 8 _).trans (mod_word_frame f), fun i hi => ?_⟩
  exact State.memGet_pokeRaw_outside hs (by rwa [length_leBytes])

theorem State.poolTake_mem_idle (h : (s.pool d).held = []) : s.sameMem (s.poolTake d) ∧
    ((s.poolTake d).pool d).head = BitVec.ofNat 64 (((s.pool d).head.toNat + 1) % max (s.pool d).ringsize.toNat 1) ∧
    ((s.poolTake d).pool d).count = (s.pool d).count - 1 ∧ ((s.poolTake d).pool d).held = [] ∧
    (s.poolTake d).irqs = s.irqs ++
      if ((s.pool d).count - 1).toNat < (s.pool d).lowmark.toNat ∧ (s.pool d).low = false then [5 + d] else [] := by
  rw [State.poolTake_idle h]
  obtain ⟨low, hp⟩ := s.setPool_pool_same d (s.pool d).taken
  refine ⟨fun a => by rw [State.setPool_mem], ?_, ?_, ?_, s.setPool_irqs d _⟩ <;> rw [hp]
  · rfl
  · rfl
  · exact h

theorem State.poolTake_mem_held (hs : s.Canon) {x : BitVec 52} {rest : List (BitVec 52)} (h : (s.pool d).held = x :: rest)
    (hh : (s.pool d).head.toNat < max (s.pool d).ringsize.toNat 1) :
    ((s.poolTake d).pool d).head = (s.pool d).head ∧ ((s.poolTake d).pool d).count = (s.pool d).count ∧
    ((s.poolTake d).pool d).held = rest ∧
    (s.poolTake d).peekNat ((s.pool d).ringbase.toNat + 8 * (s.pool d).head.toNat) 8 = x.toNat ∧
    ∀ i, i < (s.pool d).ringbase.toNat + 8 * (s.pool d).head.toNat ∨ (s.pool d).ringbase.toNat + 8 * (s.pool d).head.toNat + 8 ≤ i →
      memGet (s.poolTake d).mem i = memGet s.mem i := by
  rw [State.poolTake_held h, Pool.before_taken hh]
  obtain ⟨low, hp⟩ := State.setPool_pool_same _ d ((s.pool d).refilled rest)
  refine ⟨?_, ?_, ?_, s.ring_written hs _ x _⟩ <;> rw [hp]
  · show BitVec.ofNat 64 (s.pool d).taken.before = _
    rw [Pool.before_taken hh, BitVec.ofNat_toNat, BitVec.setWidth_eq]
  · exact BitVec.sub_add_cancel _ _
  · rfl

theorem State.poolReturn_pool_other (f : BitVec 52) {j : Nat} (hj : j ≠ d) : (s.poolReturn d f).pool j = s.pool j := by
  by_cases h : (s.pool d).count = (s.pool d).ringsize
  · rw [State.poolReturn_full h, State.setPool_pool_other _ d _ hj]
  · rw [State.poolReturn_room h]
    exact State.setPool_pool_other _ d _ hj

theorem State.poolReturn_onlyPool (s : State) (d : Nat) (f : BitVec 52) : s.OnlyPool (s.poolReturn d f) := by
  by_cases h : (s.pool d).count = (s.pool d).ringsize
  · rw [State.poolReturn_full h]
    exact State.setPool_onlyPool (.refl s) d _
  · rw [State.poolReturn_room h]
    exact State.setPool_onlyPool (s.pokeRaw_onlyPool _ _) d _

/-- A frame given back while the ring is full is held. -/
theorem State.poolReturn_mem_full {f : BitVec 52} (h : (s.pool d).count = (s.pool d).ringsize) : s.sameMem (s.poolReturn d f) ∧
    ((s.poolReturn d f).pool d).count = (s.pool d).count ∧ ((s.poolReturn d f).pool d).head = (s.pool d).head ∧
    ((s.poolReturn d f).pool d).held = (s.pool d).held ++ [f] := by
  rw [State.poolReturn_full h]
  obtain ⟨low, hp⟩ := s.setPool_pool_same d { s.pool d with held := (s.pool d).held ++ [f] }
  refine ⟨fun a => by rw [State.setPool_mem], ?_⟩
  rw [hp]
  exact ⟨rfl, rfl, rfl⟩

theorem State.poolReturn_mem_room (hs : s.Canon) {f : BitVec 52} (h : (s.pool d).count ≠ (s.pool d).ringsize) :
    ((s.poolReturn d f).pool d).head = BitVec.ofNat 64 (s.pool d).before ∧ ((s.poolReturn d f).pool d).count = (s.pool d).count + 1 ∧
    ((s.poolReturn d f).pool d).held = (s.pool d).held ∧
    (s.poolReturn d f).peekNat ((s.pool d).ringbase.toNat + 8 * (s.pool d).before) 8 = f.toNat ∧
    ∀ i, i < (s.pool d).ringbase.toNat + 8 * (s.pool d).before ∨ (s.pool d).ringbase.toNat + 8 * (s.pool d).before + 8 ≤ i →
      memGet (s.poolReturn d f).mem i = memGet s.mem i := by
  rw [State.poolReturn_room h]
  obtain ⟨low, hp⟩ := State.setPool_pool_same (s.pokeRaw ((s.pool d).ringbase.toNat + 8 * (s.pool d).before) (leBytes 8 f.toNat)) d
    { s.pool d with head := BitVec.ofNat 64 (s.pool d).before, count := (s.pool d).count + 1 }
  refine ⟨?_, ?_, ?_, s.ring_written hs _ f _⟩ <;> rw [hp]
end

end Sys2Proof.Machine
end

section
/-! # Installing the entry of a first-touch page (R120, R236) -/

namespace Sys2Proof.Machine

theorem memGet_filter_key (m : List Host.Cell) (p : Nat → Bool) (a : Nat) :
    memGet (m.filter fun c => p c.1) a = if p a then memGet m a else 0 := by
  induction m with
  | nil => simp [memGet]
  | cons c m ih =>
    obtain ⟨k, v⟩ := c
    rw [List.filter_cons]
    by_cases hk : k = a
    · subst hk
      by_cases hp : p k <;> simp [hp, memGet, ih]
    · by_cases hp : p k <;> simp [hp, memGet, hk, ih]

theorem entryFrom_eq_peekNat {s : State} {va e pa : Nat} {ls : List (Nat × Nat × Nat)} {lvl table : Nat}
    (h : entryFrom s va ls lvl table = some (e, pa)) : e = s.peekNat pa 8 := by
  induction ls generalizing lvl table with
  | nil => cases h
  | cons l ls ih =>
    obtain ⟨lo, n, align⟩ := l
    rw [entryFrom] at h
    split at h
    · obtain ⟨rfl, rfl⟩ := Prod.mk.inj (Option.some.inj h)
      rfl
    · split at h
      · cases h
      · exact ih h

/-- The fields of a first-touch entry that its installation keeps: RD, WR, codec, and those that the marking names (R236). -/
theorem testBit_kept (i : Nat) : (0x1FE8C : Nat).testBit i = (decide (i ∈ [2, 3, 7]) || (decide (9 ≤ i) && decide (i ≤ 16))) := by
  rcases Nat.lt_or_ge i 17 with h | h
  · interval_cases i <;> rfl
  · rw [Nat.testBit_lt_two_pow (lt_of_lt_of_le (by decide : (0x1FE8C : Nat) < 2 ^ 17) (Nat.pow_le_pow_right (by decide) h))]
    simp
    omega

theorem testBit_three (i : Nat) : (3 : Nat).testBit i = decide (i < 2) := Nat.testBit_two_pow_sub_one 2 i

/-- The bits of a first-touch entry that is installed (R120, R236). -/
theorem testBit_installLeaf (e : Nat) (f : BitVec 52) (i : Nat) : (installLeaf e f.toNat).testBit i =
    if 28 ≤ i then f.getLsbD (i - 12) else i < 2 || ((i ∈ [2, 3, 7] || (9 ≤ i && i ≤ 16)) && e.testBit i) := by
  have hf : (f.toNat / 65536 * 2 ^ 28).testBit i = (decide (28 ≤ i) && f.getLsbD (i - 12)) := by
    rw [Nat.testBit_mul_two_pow, show (65536 : Nat) = 2 ^ 16 from rfl, Nat.testBit_div_two_pow]
    by_cases hi : 28 ≤ i
    · rw [show i - 28 + 16 = i - 12 by omega]
      rfl
    · simp only [hi, decide_false, Bool.false_and]
  rw [installLeaf, Nat.testBit_or, Nat.testBit_or, Nat.testBit_and, hf, testBit_kept, testBit_three]
  by_cases hi : 28 ≤ i
  · have hk : (decide (i ∈ [2, 3, 7]) || (decide (9 ≤ i) && decide (i ≤ 16))) = false := by
      simp
      omega
    rw [hk, Bool.and_false]
    simp [hi, show ¬ i < 2 by omega]
  · simp only [hi, decide_false, Bool.false_and, Bool.or_false, if_false]
    rw [Bool.and_comm, Bool.or_comm]

theorem installLeaf_lt (e : Nat) (f : BitVec 52) : installLeaf e f.toNat < 2 ^ 64 := by
  have hk : e &&& 0x1FE8C < 2 ^ 64 := lt_of_le_of_lt Nat.and_le_right (by decide)
  exact Nat.or_lt_two_pow (Nat.or_lt_two_pow hk (by decide)) (by omega)

section
variable {s : State} (hs : s.Canon) (pa : Nat) (f : BitVec 52)

theorem State.install_rest : { s.install pa f.toNat with mem := s.mem, poison := s.poison, cells := s.cells } = s := by
  unfold State.install
  obtain ⟨m, q, c, h⟩ := (s.zero f.toNat 65536).pokeRaw_eq pa (leBytes 8 (installLeaf (s.peekNat pa 8) f.toNat))
  rw [h]
  rfl

include hs in
theorem State.peekNat_install : (s.install pa f.toNat).peekNat pa 8 = installLeaf (s.peekNat pa 8) f.toNat := by
  unfold State.install
  rw [State.peekNat_pokeRaw (State.zero_wf hs _ _)]
  exact Nat.mod_eq_of_lt (installLeaf_lt _ f)

include hs in
theorem State.memGet_install {i : Nat} (h : i < pa ∨ pa + 8 ≤ i) :
    memGet (s.install pa f.toNat).mem i = if f.toNat ≤ i ∧ i < f.toNat + 65536 then 0 else memGet s.mem i := by
  unfold State.install
  rw [State.memGet_pokeRaw_outside (State.zero_wf hs _ _) (by rwa [length_leBytes])]
  refine (memGet_filter_key s.mem (fun i => !(f.toNat ≤ i && i < f.toNat + 65536)) i).trans ?_
  by_cases hi : f.toNat ≤ i ∧ i < f.toNat + 65536 <;> simp [hi]

/-- No granule lies within the eight bytes of an entry; those within the frame are healed (R317). -/
theorem State.poison_install (n : Nat) : (s.install pa f.toNat).poison.contains n =
    (s.poison.contains n && !(decide (f.toNat ≤ 32 * n) && decide (32 * n + 32 ≤ f.toNat + 65536))) := by
  have hp : ∀ data : List Byte, data.length = 8 → ((s.zero f.toNat 65536).pokeRaw pa data).poison.contains n =
      (s.poison.contains n && !(decide (f.toNat ≤ 32 * n) && decide (32 * n + 32 ≤ f.toNat + 65536))) := fun data hd => by
    have hw : (decide (pa ≤ 32 * n) && decide (32 * n + 32 ≤ pa + 8)) = false := by
      rw [← Bool.decide_and]
      exact decide_eq_false (by omega)
    rw [Bool.eq_iff_iff]
    simp only [State.pokeRaw, State.poke, State.zero, hd, Bool.false_eq_true, if_false, List.contains_iff_mem, List.mem_filter,
      Bool.and_eq_true, hw, Bool.not_false, and_true]
  exact hp _ (length_leBytes _ _)
end

end Sys2Proof.Machine
end

section
/-! # Gathered bits written back (R121, R242)

A write-back sets the A and D bits of its entry, or, while a copy of the entry's line is out, is sent to the line's home. Since bits are
only ever set, the write-backs of a context's entries do not disturb each other. -/

namespace Sys2Proof.Machine

/-- The A and D bits that are set. -/
def adBits (a d : Bool) : Nat := (if a then 16 else 0) ||| (if d then 32 else 0)

/-- An entry has gathered a bit. -/
def Tlb.gathers (e : Tlb) : Prop := e.ga ≠ none ∨ e.gd ≠ none

theorem adBits_lt (a d : Bool) : adBits a d < 64 := by
  cases a <;> cases d <;> decide

theorem adBits_or (a d a' d' : Bool) : adBits a d ||| adBits a' d' = adBits (a || a') (d || d') := by
  cases a <;> cases d <;> cases a' <;> cases d' <;> rfl

theorem adBits_eq_zero_iff (e : Tlb) : adBits e.ga.isSome e.gd.isSome = 0 ↔ ¬ e.gathers := by
  unfold Tlb.gathers
  cases e.ga <;> cases e.gd <;> simp [adBits]

theorem testBit_adBits_four (a d : Bool) : (adBits a d).testBit 4 = a := by
  cases a <;> cases d <;> rfl

theorem testBit_adBits_five (a d : Bool) : (adBits a d).testBit 5 = d := by
  cases a <;> cases d <;> rfl

theorem or_adBits_mod (x : Nat) (a d : Bool) : (x ||| adBits a d) % 4 = x % 4 := by
  rw [show (4 : Nat) = 2 ^ 2 from rfl, Nat.or_mod_two_pow]
  cases a <;> cases d <;> simp [adBits]

theorem or_adBits_div (x : Nat) (a d : Bool) : (x ||| adBits a d) / 2 ^ 28 = x / 2 ^ 28 := by
  rw [Nat.or_div_two_pow, Nat.div_eq_of_lt ((adBits_lt a d).trans (by decide)), Nat.or_zero]

/-- Entries of page tables hold what they held, but for A and D bits that are set. -/
def State.Marked (s t : State) : Prop := ∀ pa, pa % 8 = 0 → ∃ a d, t.peekNat pa 8 = s.peekNat pa 8 ||| adBits a d

theorem State.Marked.of_mem {s t : State} (h : t.mem = s.mem) : s.Marked t := fun pa _ =>
  ⟨false, false, by rw [State.peekNat, State.peek, h]; exact (Nat.or_zero _).symm⟩

theorem State.Marked.trans {s t u : State} (h : s.Marked t) (h' : t.Marked u) : s.Marked u := fun pa hpa => by
  obtain ⟨a, d, he⟩ := h pa hpa
  obtain ⟨a', d', he'⟩ := h' pa hpa
  exact ⟨a || a', d || d', by rw [he', he, Nat.or_assoc, adBits_or]⟩

theorem leNat_lt (l : List Byte) : leNat l < 256 ^ l.length := by
  induction l with
  | nil => exact Nat.one_pos
  | cons b l ih =>
    have := b.isLt
    rw [leNat, List.length_cons, Nat.pow_succ']
    omega

theorem State.peekNat_lt (s : State) (pa : Nat) : s.peekNat pa 8 < 2 ^ 64 := by
  rw [State.peekNat, State.peek, memGetBytes_eq_map]
  refine (leNat_lt _).trans_eq ?_
  rw [List.length_map, List.length_range]
  rfl

section
variable {s : State} {e : Tlb}

theorem State.writeBackAD_of_none (h : ¬ e.gathers) : s.writeBackAD e = s := if_pos ((adBits_eq_zero_iff e).2 h)

section
variable (h : e.gathers)
include h

theorem State.writeBackAD_of_busy (hq : s.lineQuiet e.leafPa = false) : s.writeBackAD e =
    s.sendOwn e.ctx (if e.last then 36 * e.unit else e.unit) e.leafPa
      (.atomic e.leafPa 8 opGathered 7 (BitVec.ofNat 64 (adBits e.ga.isSome e.gd.isSome)) e.leaf .none) :=
  (if_neg (mt (adBits_eq_zero_iff e).1 (not_not.2 h))).trans (if_neg (by simp [hq]))

theorem State.writeBackAD_of_quiet (hq : s.lineQuiet e.leafPa = true) : s.writeBackAD e =
    if s.peekNat e.leafPa 8 % 4 = 3 ∧ bits (s.peekNat e.leafPa 8) 28 36 = bits e.leaf.toNat 28 36 then
      s.pokeRaw e.leafPa (leBytes 8 (s.peekNat e.leafPa 8 ||| adBits e.ga.isSome e.gd.isSome))
    else s := by
  refine (if_neg (mt (adBits_eq_zero_iff e).1 (not_not.2 h))).trans ((if_pos hq).trans ?_)
  unfold orBits
  simp only [Bool.and_eq_true, beq_iff_eq]
  by_cases hc : s.peekNat e.leafPa 8 % 4 = 3 ∧ bits (s.peekNat e.leafPa 8) 28 36 = bits e.leaf.toNat 28 36
  · simp only [if_pos hc]
    rfl
  · simp only [if_neg hc]
end

/-- A write-back leaves memory, or sets bits of its entry. -/
theorem State.writeBackAD_cases (s : State) (e : Tlb) : (s.writeBackAD e).mem = s.mem ∨
    e.gathers ∧ s.writeBackAD e = s.pokeRaw e.leafPa (leBytes 8 (s.peekNat e.leafPa 8 ||| adBits e.ga.isSome e.gd.isSome)) := by
  by_cases h : e.gathers
  · cases hq : s.lineQuiet e.leafPa with
    | false =>
      rw [State.writeBackAD_of_busy h hq]
      exact .inl rfl
    | true =>
      rw [State.writeBackAD_of_quiet h hq]
      split
      · exact .inr ⟨h, rfl⟩
      · exact .inl rfl
  · rw [State.writeBackAD_of_none h]
    exact .inl rfl

/-- Where the line is quiet, a write-back leaves what is not memory or its tags. -/
theorem State.writeBackAD_quiet (hq : e.gathers → s.lineQuiet e.leafPa = true) :
    ∃ m q c, s.writeBackAD e = { s with mem := m, poison := q, cells := c } := by
  by_cases h : e.gathers
  · rw [State.writeBackAD_of_quiet h (hq h)]
    split
    · exact s.pokeRaw_eq _ _
    · exact ⟨_, _, _, rfl⟩
  · rw [State.writeBackAD_of_none h]
    exact ⟨_, _, _, rfl⟩

/-- Requests are added to those on their way, and none is taken away. -/
theorem State.writeBackAD_pend (s : State) (e : Tlb) : ∃ l, (s.writeBackAD e).pend = s.pend ++ l := by
  by_cases h : e.gathers ∧ s.lineQuiet e.leafPa = false
  · rw [State.writeBackAD_of_busy h.1 h.2]
    exact ⟨_, rfl⟩
  · obtain ⟨m, q, c, he⟩ := State.writeBackAD_quiet fun hg => by simpa using not_and.1 h hg
    rw [he]
    exact ⟨[], (List.append_nil _).symm⟩

/-- Bits whose line is not quiet are on their way. -/
theorem State.gathering_writeBackAD (h : e.gathers) (hq : s.lineQuiet e.leafPa = false) : (s.writeBackAD e).gathering e.ctx = true := by
  rw [State.writeBackAD_of_busy h hq]
  simp [State.gathering, State.sendOwn]

theorem State.pokeRaw_marked (hs : s.Canon) {pa : Nat} (hpa : pa % 8 = 0) (a d : Bool) :
    s.Marked (s.pokeRaw pa (leBytes 8 (s.peekNat pa 8 ||| adBits a d))) := fun b hb => by
  by_cases h : b = pa
  · subst h
    refine ⟨a, d, (State.peekNat_pokeRaw hs _ _ _).trans (Nat.mod_eq_of_lt ?_)⟩
    exact Nat.or_lt_two_pow (s.peekNat_lt b) ((adBits_lt a d).trans (by decide))
  · refine ⟨false, false, (State.peekNat_of_bytes fun i hi => ?_).trans (Nat.or_zero _).symm⟩
    exact State.memGet_pokeRaw_outside hs (by rw [length_leBytes]; omega)

theorem State.writeBackAD_marked (hs : s.Canon) (ha : e.leafPa % 8 = 0) : s.Marked (s.writeBackAD e) := by
  obtain hm | ⟨-, he⟩ := s.writeBackAD_cases e
  · exact .of_mem hm
  · rw [he]
    exact State.pokeRaw_marked hs ha _ _

/-- The only byte that a write-back changes is the lowest of its entry. -/
theorem State.writeBackAD_byte (hs : s.Canon) {i : Nat} (hi : ¬ (e.leafPa = i ∧ e.gathers)) :
    memGet (s.writeBackAD e).mem i = memGet s.mem i := by
  obtain hm | ⟨hg, he⟩ := s.writeBackAD_cases e
  · rw [hm]
  · rw [he]
    have hne : e.leafPa ≠ i := fun h => hi ⟨h, hg⟩
    by_cases hin : e.leafPa ≤ i ∧ i < e.leafPa + 8
    · obtain ⟨j, rfl⟩ := Nat.exists_eq_add_of_le hin.1
      have hj : j < 8 := by omega
      rw [State.pokeRaw_mem, poke_inside hs _ _ _ (by rwa [length_leBytes]), getElem_leBytes, ← byte_peekNat _ _ 8 _ hj]
      rw [show (256 : Nat) ^ j = 2 ^ (8 * j) by rw [Nat.pow_mul], Nat.or_div_two_pow,
        Nat.div_eq_of_lt ((adBits_lt _ _).trans_le (Nat.pow_le_pow_right (n := 2) (i := 6) (by decide) (by omega))), Nat.or_zero]
    · exact State.memGet_pokeRaw_outside hs (by rw [length_leBytes]; omega)

/-! ### Lines that are not quiet stay so while bits are written back -/

/-- Requests that are added make no line quiet. -/
theorem State.lineQuiet_of_more {t : State} {pa : Nat} (h : s.OnlyOwn t) {l : List Pend} (hl : t.pend = s.pend ++ l)
    (hq : s.lineQuiet pa = false) : t.lineQuiet pa = false := by
  have hhomes := congrArg State.homes h
  have hbase := congrArg State.timeBase h
  have hclk := congrArg State.clk h
  have hdirs := congrArg State.dirs h
  have hinvals := congrArg State.invals h
  have hsnoops := congrArg State.snoops h
  dsimp only at hhomes hbase hclk hdirs hinvals hsnoops
  unfold State.lineQuiet State.now at hq ⊢
  rw [hl, hhomes, hbase, hclk, hdirs, hinvals, hsnoops]
  simp only [List.any_append, Bool.not_or, Bool.or_eq_false_iff, Bool.and_eq_false_iff] at hq ⊢
  tauto

theorem State.gathering_of_more {t : State} {ctx : Nat} {l : List Pend} (hl : t.pend = s.pend ++ l) (hg : s.gathering ctx = true) :
    t.gathering ctx = true := by
  unfold State.gathering at hg ⊢
  rw [hl, List.any_append, hg, Bool.true_or]
end

/-! ### The write-backs of all entries of a context -/

/-- The gathered bits of each entry written back, in their order. -/
def State.writtenBack (s : State) (l : List Tlb) : State := l.foldl State.writeBackAD s

theorem State.writtenBack_cons (s : State) (e : Tlb) (l : List Tlb) : s.writtenBack (e :: l) = (s.writeBackAD e).writtenBack l := rfl

theorem State.writtenBack_append (s : State) (l l' : List Tlb) : s.writtenBack (l ++ l') = (s.writtenBack l).writtenBack l' :=
  List.foldl_append

theorem State.writtenBack_onlyOwn (s : State) (l : List Tlb) : s.OnlyOwn (s.writtenBack l) := .foldl (fun s e => s.writeBackAD_only e) l s

theorem State.writtenBack_pend (s : State) (l : List Tlb) : ∃ r, (s.writtenBack l).pend = s.pend ++ r := by
  induction l generalizing s with
  | nil => exact ⟨[], (List.append_nil _).symm⟩
  | cons e l ih =>
    obtain ⟨r, hr⟩ := s.writeBackAD_pend e
    obtain ⟨r', hr'⟩ := ih (s.writeBackAD e)
    exact ⟨r ++ r', by rw [State.writtenBack_cons, hr', hr, List.append_assoc]⟩

section
variable {s : State} {l : List Tlb}

theorem State.writtenBack_wf (hs : s.Canon) (l : List Tlb) : (s.writtenBack l).Canon :=
  foldl_canon (fun _ e h => State.writeBackAD_wf h e) hs l

theorem State.writtenBack_marked (hs : s.Canon) (hl : ∀ e ∈ l, e.leafPa % 8 = 0) : s.Marked (s.writtenBack l) := by
  induction l generalizing s with
  | nil => exact .of_mem rfl
  | cons e l ih =>
    obtain ⟨he, hl⟩ := List.forall_mem_cons.1 hl
    exact (State.writeBackAD_marked hs he).trans (ih (State.writeBackAD_wf hs e) hl)

theorem State.writtenBack_sameButAD (hs : s.Canon) (l : List Tlb) : s.SameButAD (s.writtenBack l) := by
  induction l generalizing s with
  | nil => exact .of_mem rfl
  | cons e l ih => exact (State.writeBackAD_sameButAD hs e).trans (ih (State.writeBackAD_wf hs e))

theorem State.writtenBack_byte (hs : s.Canon) {i : Nat} (hi : ∀ e ∈ l, ¬ (e.leafPa = i ∧ e.gathers)) :
    memGet (s.writtenBack l).mem i = memGet s.mem i := by
  induction l generalizing s with
  | nil => rfl
  | cons e l ih =>
    obtain ⟨he, hl⟩ := List.forall_mem_cons.1 hi
    exact (ih (State.writeBackAD_wf hs e) hl).trans (State.writeBackAD_byte hs he)

/-- Whether a line is quiet does not depend on memory. -/
theorem State.writtenBack_quiet (hq : ∀ e ∈ l, e.gathers → s.lineQuiet e.leafPa = true) :
    ∃ m q c, s.writtenBack l = { s with mem := m, poison := q, cells := c } := by
  induction l generalizing s with
  | nil => exact ⟨_, _, _, rfl⟩
  | cons e l ih =>
    obtain ⟨he, hl⟩ := List.forall_mem_cons.1 hq
    obtain ⟨m, q, c, h⟩ := State.writeBackAD_quiet he
    rw [State.writtenBack_cons, h]
    obtain ⟨m', q', c', h'⟩ := ih (s := { s with mem := m, poison := q, cells := c }) hl
    exact ⟨m', q', c', h'⟩

/-- The bits of a line that is not quiet are on their way afterwards. -/
theorem State.gathering_writtenBack {e : Tlb} (he : e ∈ l) (hg : e.gathers) (hq : s.lineQuiet e.leafPa = false) :
    (s.writtenBack l).gathering e.ctx = true := by
  obtain ⟨l₁, l₂, rfl⟩ := List.append_of_mem he
  rw [State.writtenBack_append, State.writtenBack_cons]
  obtain ⟨r, hr⟩ := s.writtenBack_pend l₁
  have hbusy := State.lineQuiet_of_more (s.writtenBack_onlyOwn l₁) hr hq
  obtain ⟨r', hr'⟩ := ((s.writtenBack l₁).writeBackAD e).writtenBack_pend l₂
  exact State.gathering_of_more hr' (State.gathering_writeBackAD hg hbusy)

/-- The word of an entry whose leaf still stands, after its write-back. -/
theorem State.peekNat_writeBackAD (hs : s.Canon) {e : Tlb} (hg : e.gathers) (hq : s.lineQuiet e.leafPa = true)
    (hleaf : s.peekNat e.leafPa 8 % 4 = 3 ∧ bits (s.peekNat e.leafPa 8) 28 36 = bits e.leaf.toNat 28 36) :
    (s.writeBackAD e).peekNat e.leafPa 8 = s.peekNat e.leafPa 8 ||| adBits e.ga.isSome e.gd.isSome := by
  rw [State.writeBackAD_of_quiet hg hq, if_pos hleaf, State.peekNat_pokeRaw hs]
  exact Nat.mod_eq_of_lt (Nat.or_lt_two_pow (s.peekNat_lt _) ((adBits_lt _ _).trans (by decide)))

/-- The gathered bits of an entry whose leaf still stands are set, whatever else is written back. -/
theorem State.writtenBack_sets (hs : s.Canon) (hl : ∀ e ∈ l, e.leafPa % 8 = 0) (hq : ∀ e ∈ l, e.gathers → s.lineQuiet e.leafPa = true)
    {e : Tlb} (he : e ∈ l) (hg : e.gathers)
    (hleaf : s.peekNat e.leafPa 8 % 4 = 3 ∧ bits (s.peekNat e.leafPa 8) 28 36 = bits e.leaf.toNat 28 36) :
    ∃ x, (s.writtenBack l).peekNat e.leafPa 8 = x ||| adBits e.ga.isSome e.gd.isSome := by
  have hpa := hl e he
  have hquiet := hq e he hg
  obtain ⟨l₁, l₂, rfl⟩ := List.append_of_mem he
  obtain ⟨hl₁, hl₂⟩ := List.forall_mem_append.1 hl
  obtain ⟨m, q, c, heq⟩ := State.writtenBack_quiet (List.forall_mem_append.1 hq).1
  have hs₁ := State.writtenBack_wf hs l₁
  obtain ⟨a, d, h₁⟩ := State.writtenBack_marked hs hl₁ _ hpa
  have hword : (s.writtenBack l₁).peekNat e.leafPa 8 % 4 = 3 ∧
      bits ((s.writtenBack l₁).peekNat e.leafPa 8) 28 36 = bits e.leaf.toNat 28 36 := by
    unfold bits at hleaf ⊢
    rwa [h₁, or_adBits_mod, or_adBits_div]
  have h₂ := State.peekNat_writeBackAD hs₁ hg (by rw [heq]; exact hquiet) hword
  obtain ⟨a', d', h₃⟩ := State.writtenBack_marked (State.writeBackAD_wf hs₁ e) (List.forall_mem_cons.1 hl₂).2 _ hpa
  refine ⟨(s.writtenBack l₁).peekNat e.leafPa 8 ||| adBits a' d', ?_⟩
  rw [State.writtenBack_append, State.writtenBack_cons, h₃, h₂, Nat.or_right_comm]
end

end Sys2Proof.Machine
end

section
/-! # The privileged instructions, case by case (R54, R119–R122) -/

namespace Sys2Proof.Machine

section
variable {s : State} {k : Nat} {g : Group}

/-- R54: a handler runs, or the context is privileged. -/
theorem State.privileged_iff : s.privileged g = true ↔ g.hnd.isSome = true ∨ (tabD s.ctxs g.ctx {}).priv = true := by
  simp [State.privileged]

/-- The other groups stand where one is put into a state that has the same groups. -/
theorem State.grp_setG_of_groups {u : State} (hu : u.groups = s.groups) (g' : Group) : ∀ j, j ≠ k → (u.setG k g').grp j = s.grp j :=
  fun j hj => (u.grp_setG_other k j g' hj).trans (congrArg (tabGet · j) hu)

section
variable (h : s.stokerAt k g)
include h

theorem privileged_traps (hp : s.privileged g = false) (sd sa sb : BitVec 6) :
    ∀ i ∈ ([.ptake sd, .pmap sa sb, .aharv, .swrd sd sa] : List Instr), s.trapsS s i k g trapPrivilege 4 := by
  have hn : (!s.privileged g) = true := by rw [hp]; rfl
  simp only [List.forall_mem_cons, List.not_mem_nil, false_imp_iff, implies_true, and_true]
  refine ⟨?_, ?_, ?_, ?_⟩ <;> exact (onStoker_next h.1 h.2 _).trans (congrArg _ (if_pos hn))

/-! ### `ptake` (R119) -/

section
variable (hp : s.privileged g = true) {sd : BitVec 6}
include hp

theorem ptake_full (hf : 4 ≤ g.frames.length) : s.trapsS s (.ptake sd) k g (trapOperand 0) 4 := by
  refine (onStoker_next h.1 h.2 _).trans ?_
  rw [if_neg (by simp [hp]), if_pos hf]

variable (hf : g.frames.length < 4)
include hf

theorem ptake_takes {f : BitVec 52} (hpf : s.poolFrame (k / 128 / 36) = some f) : exec (.ptake sd) s = .next
    ((s.poolTake (k / 128 / 36)).setG k ({ g with frames := g.frames ++ [(f, g.hnd.isSome)] }.result sd (f.setWidth 64) false 4)) := by
  refine (onStoker_next h.1 h.2 _).trans ?_
  rw [if_neg (by simp [hp]), if_neg (by omega), dieOf, hearthOf, hpf]

theorem ptake_traps (hpf : s.poolFrame (k / 128 / 36) = none) (hn : g.hnd = none) :
    s.trapsS s (.ptake sd) k g { code := 0x06, pool := true } 4 := by
  refine (onStoker_next h.1 h.2 _).trans ?_
  rw [if_neg (by simp [hp]), if_neg (by omega), dieOf, hearthOf, hpf, hn]

theorem ptake_waits (hpf : s.poolFrame (k / 128 / 36) = none) (hn : g.hnd ≠ none) (hw : s.inFlight g.name = true) :
    s.waitsS s (.ptake sd) k g := by
  obtain ⟨x, hx⟩ := Option.ne_none_iff_exists'.1 hn
  refine State.waitsS_of h.2 ((onStoker_next h.1 h.2 _).trans ?_)
  rw [if_neg (by simp [hp]), if_neg (by omega), dieOf, hearthOf, hpf, hx]
  exact congrArg _ (if_pos hw)
end

/-! ### `swrd` (R122) -/

section
variable (hp : s.privileged g = true) {sd sa : BitVec 6}
include hp

theorem swrd_poison (ha : (g.sGet sa.toNat).pz = true) : s.trapsS s (.swrd sd sa) k g (trapPoison 0 0) 4 := by
  refine (onStoker_next h.1 h.2 _).trans ?_
  dsimp only
  rw [if_neg (by simp [hp]), if_pos ha]

variable (ha : (g.sGet sa.toNat).pz = false)
include ha

theorem swrd_outside (ho : (g.sGet sa.toNat).val.toNat % 8 ≠ 0 ∨ 0x20000000 ≤ (g.sGet sa.toNat).val.toNat) :
    s.trapsS s (.swrd sd sa) k g (trapOperand (g.sGet sa.toNat).val) 4 := by
  refine (onStoker_next h.1 h.2 _).trans ?_
  dsimp only
  rw [if_neg (by simp [hp]), if_neg (by simp [ha]), if_pos (by simpa using ho)]

variable (hw : (g.sGet sa.toNat).val.toNat % 8 = 0 ∧ (g.sGet sa.toNat).val.toNat < 0x20000000)
include hw

theorem swrd_reads {x : Nat} (hx : s.windowWord (g.sGet sa.toNat).val.toNat = some x) :
    s.putsS s (.swrd sd sa) k g sd ⟨BitVec.ofNat 64 x, false⟩ 4 := by
  refine State.putsS_of ((onStoker_next h.1 h.2 _).trans ?_)
  dsimp only
  rw [if_neg (by simp [hp]), if_neg (by simp [ha]), if_neg (by simpa using hw), hx]

theorem swrd_free (hx : s.windowWord (g.sGet sa.toNat).val.toNat = none) :
    exec (.swrd sd sa) s = .next (s.stamp.setG k (g.result sd (Config.freeBits s.free) false 4)) := by
  refine (onStoker_next h.1 h.2 _).trans ?_
  dsimp only
  rw [if_neg (by simp [hp]), if_neg (by simp [ha]), if_neg (by simpa using hw), hx]
end

/-! ### `aharv` (R121) -/

theorem aharv_eq (hp : s.privileged g = true) : exec .aharv s =
    .next (if (s.harvest g.ctx).gathering g.ctx then (s.harvest g.ctx).waitS k else (s.harvest g.ctx).setG k (g.adv 4)) := by
  refine (onStoker_next h.1 h.2 _).trans ?_
  rw [if_neg (by simp [hp])]

/-! ### `pmap` (R120) -/

omit h in
theorem bits_zero_one (e : Nat) : bits e 0 1 = e % 2 := by
  rw [bits, Nat.pow_zero, Nat.div_one, Nat.pow_one]

omit h in
theorem bits_six_one (e : Nat) : bits e 6 1 = e / 64 % 2 := rfl

section
variable (hp : s.privileged g = true) {sa sb : BitVec 6}
include hp

theorem pmap_poison (hc : ¬ ((g.sGet sa.toNat).pz = false ∧ (g.sGet sb.toNat).pz = false)) :
    s.trapsS s (.pmap sa sb) k g (trapPoison 0 0) 4 := by
  refine (onStoker_next h.1 h.2 _).trans ?_
  dsimp only
  rw [if_neg (by simp [hp]), if_pos]
  by_contra hn
  exact hc (by simpa using hn)

variable (hc : (g.sGet sa.toNat).pz = false ∧ (g.sGet sb.toNat).pz = false)
include hc

theorem pmap_not_held (hf : ∀ x ∈ g.frames, (g.sGet sb.toNat).val ≠ x.1.setWidth 64) :
    s.trapsS s (.pmap sa sb) k g (trapOperand (g.sGet sb.toNat).val) 4 := by
  refine (onStoker_next h.1 h.2 _).trans ?_
  dsimp only
  rw [if_neg (by simp [hp]), if_neg (by simp [hc.1, hc.2]), if_pos]
  by_contra hn
  simp only [Bool.not_eq_true, Bool.or_eq_false_iff, Bool.not_eq_false', List.any_eq_true, beq_iff_eq, bne_eq_false_iff_eq] at hn
  obtain ⟨⟨x, hx, hxe⟩, hz⟩ := hn
  exact hf x hx (by rw [hxe]; exact hz.symm)

variable {f : BitVec 52} (hb : (g.sGet sb.toNat).val = f.setWidth 64) (hf : ∃ x ∈ g.frames, x.1 = f)
include hb hf

/-- A frame that the group holds is looked for in the tables. -/
theorem pmap_held : exec (.pmap sa sb) s = .next
    (if !canonical (g.sGet sa.toNat).val then s.trapS k g (trapOperand (g.sGet sa.toNat).val)
    else if s.walkCut (k / 128 / 36) (tabD s.ctxs g.ctx {}) (g.sGet sa.toNat).val f.toNat then
      s.trapS k g { code := 0x06, addr := (g.sGet sa.toNat).val }
    else
      match entryFrom s (va57 (g.sGet sa.toNat).val) walkLevels 4 (tabD s.ctxs g.ctx {}).ptroot with
      | some (e, pa) =>
        if bits e 0 1 = 1 then (s.poolReturn (k / 128 / 36) f).setG k ((g.dropFrame f).adv 4)
        else if bits e 6 1 = 1 && !s.lineQuiet pa then (s.clearWay [pa]).waitS k
        else if bits e 6 1 = 1 then (s.install pa f.toNat).setG k ((g.dropFrame f).adv 4)
        else s.trapS k g (trapOperand (g.sGet sa.toNat).val)
      | none => s.trapS k g (trapOperand (g.sGet sa.toNat).val)) := by
  have hfr : (g.sGet sb.toNat).val.setWidth 52 = f := by
    rw [hb, BitVec.setWidth_setWidth_of_le _ (by decide), BitVec.setWidth_eq]
  obtain ⟨x, hx, hxf⟩ := hf
  have hany : (g.frames.any fun y => y.1 == f) = true := List.any_eq_true.2 ⟨x, hx, beq_iff_eq.2 hxf⟩
  refine (onStoker_next h.1 h.2 _).trans ?_
  dsimp only
  rw [if_neg (by simp [hp]), if_neg (by simp [hc.1, hc.2]), hfr, if_neg (by simp [hany, hb])]
  rfl

theorem pmap_no_entry (hn : canonical (g.sGet sa.toNat).val = false ∨ (s.walkCut (k / 128 / 36) (tabD s.ctxs g.ctx {}) (g.sGet sa.toNat).val f.toNat = false ∧
      entryFrom s (va57 (g.sGet sa.toNat).val) walkLevels 4 (tabD s.ctxs g.ctx {}).ptroot = none)) :
    s.trapsS s (.pmap sa sb) k g (trapOperand (g.sGet sa.toNat).val) 4 := by
  refine (pmap_held h hp hc hb hf).trans (congrArg _ ?_)
  by_cases hcan : canonical (g.sGet sa.toNat).val = true
  · obtain ⟨hcut, he⟩ := hn.resolve_left (by simp [hcan])
    rw [if_neg (by simp [hcan]), if_neg (Bool.eq_false_iff.1 hcut), he]
  · exact if_pos (by simp [hcan])

variable (hcan : canonical (g.sGet sa.toNat).val = true)
include hcan

theorem pmap_cut (hcut : s.walkCut (k / 128 / 36) (tabD s.ctxs g.ctx {}) (g.sGet sa.toNat).val f.toNat = true) :
    s.trapsS s (.pmap sa sb) k g { code := 0x06, addr := (g.sGet sa.toNat).val } 4 := by
  refine (pmap_held h hp hc hb hf).trans ?_
  rw [if_neg (by simp [hcan]), if_pos hcut]

variable (hcut : s.walkCut (k / 128 / 36) (tabD s.ctxs g.ctx {}) (g.sGet sa.toNat).val f.toNat = false) {e pa : Nat}
  (he : entryFrom s (va57 (g.sGet sa.toNat).val) walkLevels 4 (tabD s.ctxs g.ctx {}).ptroot = some (e, pa))
include hcut he

/-- What becomes of the entry that is found: P is bit 0, first touch bit 6. -/
theorem pmap_entry : exec (.pmap sa sb) s = .next
    (if e % 2 = 1 then (s.poolReturn (k / 128 / 36) f).setG k ((g.dropFrame f).adv 4)
    else if (e / 64 % 2 = 1 && !s.lineQuiet pa) = true then (s.clearWay [pa]).waitS k
    else if e / 64 % 2 = 1 then (s.install pa f.toNat).setG k ((g.dropFrame f).adv 4)
    else s.trapS k g (trapOperand (g.sGet sa.toNat).val)) := by
  refine (pmap_held h hp hc hb hf).trans ?_
  rw [if_neg (by simp [hcan]), if_neg (Bool.eq_false_iff.1 hcut), he]
  simp only [bits_zero_one, bits_six_one]
  rfl

theorem pmap_present (h0 : e % 2 = 1) :
    exec (.pmap sa sb) s = .next ((s.poolReturn (k / 128 / 36) f).setG k ((g.dropFrame f).adv 4)) :=
  (pmap_entry h hp hc hb hf hcan hcut he).trans (congrArg _ (if_pos h0))

variable (h0 : e % 2 = 0)
include h0

theorem pmap_absent (h6 : e / 64 % 2 = 0) : s.trapsS s (.pmap sa sb) k g (trapOperand (g.sGet sa.toNat).val) 4 := by
  refine (pmap_entry h hp hc hb hf hcan hcut he).trans ?_
  rw [if_neg (by omega), if_neg (by simp [h6]), if_neg (by omega)]

variable (h6 : e / 64 % 2 = 1)
include h6

theorem pmap_waits (hq : s.lineQuiet pa = false) : exec (.pmap sa sb) s = .next ((s.clearWay [pa]).waitS k) := by
  refine (pmap_entry h hp hc hb hf hcan hcut he).trans ?_
  rw [if_neg (by omega), if_pos (by simp [h6, hq])]

theorem pmap_installs (hq : s.lineQuiet pa = true) :
    exec (.pmap sa sb) s = .next ((s.install pa f.toNat).setG k ((g.dropFrame f).adv 4)) := by
  refine (pmap_entry h hp hc hb hf hcan hcut he).trans ?_
  rw [if_neg (by omega), if_neg (by simp [hq]), if_pos h6]
end
end
end

/-! ### The gathered bits of a context written back (R121, R242) -/

section
variable {s : State} {ctx : Nat}

/-- The context's entries have no bits on their way, and the lines of those that have gathered one are quiet. -/
def State.harvestQuiet (s : State) (ctx : Nat) : Prop :=
  s.gathering ctx = false ∧ ∀ y ∈ s.tlb.filter (·.ctx == ctx), y.gathers → s.lineQuiet y.leafPa = true

theorem State.harvest_mem (s : State) (ctx : Nat) : (s.harvest ctx).mem = (s.writtenBack (s.tlb.filter (·.ctx == ctx))).mem := rfl

theorem State.harvest_gathering (s : State) (ctx : Nat) :
    (s.harvest ctx).gathering ctx = (s.writtenBack (s.tlb.filter (·.ctx == ctx))).gathering ctx := rfl

/-- Unless all is quiet, bits are on their way afterwards. -/
theorem State.gathering_harvest (h : ¬ s.harvestQuiet ctx) : (s.harvest ctx).gathering ctx = true := by
  rw [State.harvest_gathering]
  cases hg : s.gathering ctx with
  | true =>
    obtain ⟨r, hr⟩ := s.writtenBack_pend (s.tlb.filter (·.ctx == ctx))
    exact State.gathering_of_more hr hg
  | false =>
    have hbusy := not_and.1 h hg
    push Not at hbusy
    obtain ⟨y, hy, hyg, hyq⟩ := hbusy
    have hctx : y.ctx = ctx := beq_iff_eq.1 (List.mem_filter.1 hy).2
    exact (congrArg _ hctx.symm).trans (State.gathering_writtenBack hy hyg (Bool.eq_false_iff.2 hyq))

section
variable (hq : s.harvestQuiet ctx)
include hq

theorem State.harvest_quiet_gathering : (s.harvest ctx).gathering ctx = false := by
  obtain ⟨m, q, c, h⟩ := State.writtenBack_quiet hq.2
  rw [State.harvest_gathering, h]
  exact hq.1

theorem State.harvest_quiet_rest :
    { s.harvest ctx with tlb := s.tlb, mem := s.mem, poison := s.poison, cells := s.cells } = s := by
  obtain ⟨m, q, c, h⟩ := State.writtenBack_quiet hq.2
  unfold State.harvest
  rw [State.writtenBack] at h
  rw [h]

/-- The A and D bits of an entry whose leaf still stands are set where it has gathered them. -/
theorem State.harvest_sets (hs : s.Canon) (ha : ∀ y ∈ s.tlb.filter (·.ctx == ctx), y.leafPa % 8 = 0) {y : Tlb}
    (hy : y ∈ s.tlb.filter (·.ctx == ctx)) (h3 : s.peekNat y.leafPa 8 % 4 = 3)
    (hl : s.peekNat y.leafPa 8 / 2 ^ 28 = y.leaf.toNat / 2 ^ 28) :
    (y.ga ≠ none → ((s.harvest ctx).peekNat y.leafPa 8).testBit 4 = true) ∧
      (y.gd ≠ none → ((s.harvest ctx).peekNat y.leafPa 8).testBit 5 = true) := by
  have hsets := fun hg => State.writtenBack_sets hs ha hq.2 hy hg ⟨h3, congrArg (· % 2 ^ 36) hl⟩
  refine ⟨fun hga => ?_, fun hgd => ?_⟩
  · obtain ⟨x, hx⟩ := hsets (.inl hga)
    rw [State.peekNat, State.peek, State.harvest_mem]
    refine (congrArg (Nat.testBit · 4) hx).trans ?_
    rw [Nat.testBit_or, testBit_adBits_four, Option.isSome_iff_ne_none.2 hga, Bool.or_true]
  · obtain ⟨x, hx⟩ := hsets (.inr hgd)
    rw [State.peekNat, State.peek, State.harvest_mem]
    refine (congrArg (Nat.testBit · 5) hx).trans ?_
    rw [Nat.testBit_or, testBit_adBits_five, Option.isSome_iff_ne_none.2 hgd, Bool.or_true]
end

/-- A byte of memory that changes is the lowest of an entry that has gathered a bit, and changes in its A and D bits alone. -/
theorem State.harvest_byte (hs : s.Canon) (ctx i : Nat) : memGet (s.harvest ctx).mem i = memGet s.mem i ∨
    (memGet (s.harvest ctx).mem i ||| 0x30 = memGet s.mem i ||| 0x30 ∧
      ∃ y ∈ s.tlb.filter (·.ctx == ctx), y.leafPa = i ∧ y.gathers) := by
  rw [State.harvest_mem]
  by_cases h : ∃ y ∈ s.tlb.filter (·.ctx == ctx), y.leafPa = i ∧ y.gathers
  · exact .inr ⟨State.writtenBack_sameButAD hs _ i, h⟩
  · exact .inl (State.writtenBack_byte hs fun y hy hi => h ⟨y, hy, hi⟩)
end

end Sys2Proof.Machine
end

section
/-! # The privileged instructions (O28): what each does, and what it leaves -/

namespace Sys2Proof.Machine

/-- A result of a group that holds other frames. -/
theorem Group.result_withFrames (g : Group) (l : List (BitVec 52 × Bool)) (sd : BitVec 6) (x : W64) :
    ({ g with frames := l }.result sd x false 4).frames = l ∧ ({ g with frames := l }.result sd x false 4).spc = g.spc + 4 ∧
      { ({ g with frames := l }.result sd x false 4) with s := g.s, spc := g.spc, frames := g.frames } = g ∧
      ∀ n, ({ g with frames := l }.result sd x false 4).sGet n = if n = sd.toNat ∧ n ≠ 0 then ⟨x, false⟩ else g.sGet n := by
  refine ⟨?_, Group.spc_result _ _ _ _ _, ?_, fun n => Group.sGet_result _ _ _ _ _ n⟩ <;>
  · unfold Group.result Group.adv Group.sSet
    split <;> rfl

/-- Settles O28: each instruction's checks in their order, then the frame pool, the tables and the window as their own lemmas say. -/
theorem privileged : Obligations.Privileged := by
  unfold Obligations.Privileged
  intro s k g sd sa sb f x0 rest e pa x h a b c d p size may others clears held entry cut finds past same free word tlb quiet
  have hmay : may → s.privileged g = true := State.privileged_iff.2
  refine ⟨fun hn i hi => ?_, fun hp hf => ?_, fun hfree hpf => ?_, fun hfree hpf hn => ?_, fun hfree hpf hn hw => ?_,
    fun hp hc => ?_, fun hp hc hn => ?_, fun hh hn => ?_, fun hh hcan hcut => ?_, fun hh h0 h6 => ?_, fun hh h0 h6 hq => ?_,
    fun hh h0 h6 hq hs => ?_, fun hh h0 => ?_, fun hp hn => ?_, fun hp hq hs ha => ?_,
    fun hp ha => ?_, fun hp ha ho => ?_, fun hw hx => ?_, fun hw hx => ?_⟩
  · exact privileged_traps h (Bool.eq_false_iff.2 (mt State.privileged_iff.1 hn)) sd sa sb i hi
  · exact ptake_full h (hmay hp) hf
  · obtain ⟨hp, hf⟩ := hfree
    obtain ⟨honly, hpools, hpool⟩ := s.poolTake_rest d
    exact ⟨_, ptake_takes h (hmay hp) hf hpf, congrArg (fun u : State => { u with groups := s.groups }) honly,
      State.grp_setG_of_groups honly.groups _, ⟨_, State.grp_setG_same _ _ _, Group.result_withFrames _ _ _ _⟩, hpools, hpool,
      State.poolTake_mem_idle, fun hx hs hh => State.poolTake_mem_held hs hx hh⟩
  · exact ptake_traps h (hmay hfree.1) hfree.2 hpf hn
  · exact ptake_waits h (hmay hfree.1) hfree.2 hpf hn hw
  · exact pmap_poison h (hmay hp) hc
  · exact pmap_not_held h (hmay hp) hc hn
  · obtain ⟨hp, hc, hb, hf⟩ := hh
    exact pmap_no_entry h (hmay hp) hc hb hf hn
  · obtain ⟨hp, hc, hb, hf⟩ := hh
    exact pmap_cut h (hmay hp) hc hb hf hcan hcut
  · obtain ⟨⟨hp, hc, hb, hf⟩, hcan, hcut, he⟩ := hh
    exact pmap_absent h (hmay hp) hc hb hf hcan hcut he h0 h6
  · obtain ⟨⟨hp, hc, hb, hf⟩, hcan, hcut, he⟩ := hh
    exact pmap_waits h (hmay hp) hc hb hf hcan hcut he h0 h6 hq
  · obtain ⟨⟨hp, hc, hb, hf⟩, hcan, hcut, he⟩ := hh
    have hrest := s.install_rest pa f
    refine ⟨_, pmap_installs h (hmay hp) hc hb hf hcan hcut he h0 h6 hq, State.grp_setG_same _ _ _,
      State.grp_setG_of_groups (congrArg State.groups hrest) _, congrArg (fun u : State => { u with groups := s.groups }) hrest,
      fun i _ => ?_, fun i hi => State.memGet_install hs pa f hi, fun n => s.poison_install pa f n⟩
    rw [entryFrom_eq_peekNat he, ← testBit_installLeaf, ← State.peekNat_install hs pa f]
    rfl
  · obtain ⟨⟨hp, hc, hb, hf⟩, hcan, hcut, he⟩ := hh
    exact ⟨_, pmap_present h (hmay hp) hc hb hf hcan hcut he h0, State.grp_setG_same _ _ _,
      State.grp_setG_of_groups (s.poolReturn_onlyPool d f).groups _, fun j hj => s.poolReturn_pool_other f hj,
      State.poolReturn_mem_full, fun hr hs => State.poolReturn_mem_room hs hr⟩
  · rw [aharv_eq h (hmay hp), if_pos (State.gathering_harvest hn)]
  · have hrest := State.harvest_quiet_rest hq
    refine ⟨(s.harvest g.ctx).setG k (g.adv 4), ?_, State.grp_setG_same _ _ _, State.grp_setG_of_groups (congrArg State.groups hrest) _,
      congrArg (fun u : State => { u with groups := s.groups }) hrest, ?_, s.harvest_tlb g.ctx,
      fun y hy => State.harvest_sets hq hs ha hy, State.harvest_byte hs g.ctx⟩
    · rw [aharv_eq h (hmay hp), if_neg (Bool.eq_false_iff.1 (State.harvest_quiet_gathering hq))]
    · exact List.length_map _
  · exact swrd_poison h (hmay hp) ha
  · exact swrd_outside h (hmay hp) ha ho
  · obtain ⟨hp, ha, hin⟩ := hw
    exact swrd_reads h (hmay hp) ha hin hx
  · obtain ⟨hp, ha, hin⟩ := hw
    exact ⟨_, swrd_free h (hmay hp) ha hin hx, _, State.grp_setG_same _ _ _, Group.spc_result _ _ _ _ _,
      Group.sameButS_result _ _ _ _ _, State.grp_setG_of_groups rfl _, rfl, fun n => Group.sGet_result _ _ _ _ _ n⟩

end Sys2Proof.Machine
end

section
/-! # Shifts, bit counts and `csel` (O2, O3, O4) -/

namespace Sys2Proof.Machine

/-- A shift by a register whose count is not poisoned puts its value with the tag of what is shifted (R87, R90). -/
theorem State.putsS.of_shiftR {s : State} {i : Instr} {k : Nat} {g : Group} {sd sa sb : BitVec 6} {f : W64 → W64 → W64} {x : W64}
    (h : s.stokerAt k g) (hb : (g.sGet sb.toNat).pz = false) (hi : exec i s = shiftR s sd sa sb f)
    (hx : f (g.sGet sa.toNat).val (g.sGet sb.toNat).val = x) : s.putsS s i k g sd ⟨x, (g.sGet sa.toNat).pz⟩ 4 :=
  State.putsS_of (by rw [hi, shiftR_next h _ _ _ _ hb, hx])

/-- Settles O2: every form shifts by the same function of its amount. -/
theorem shifts : Obligations.Shifts := by
  unfold Obligations.Shifts
  intro s k g sd sa sb imm v h a n m shl shr sar
  refine ⟨?_, ?_, fun hb => ?_⟩ <;> simp only [List.forall_mem_cons]
  · exact ⟨.of_aluI h rfl (shlq_eq _ _), .of_aluI h rfl (shrq_eq _ _), .of_aluI h rfl (sarq_eq _ _), List.forall_mem_nil _⟩
  · exact ⟨.of_slit h rfl (shlq_eq _ _), .of_slit h rfl (shrq_eq _ _), .of_slit h rfl (sarq_eq _ _), List.forall_mem_nil _⟩
  · exact ⟨.of_shiftR h hb rfl (shlq_eq _ _), .of_shiftR h hb rfl (shrq_eq _ _), .of_shiftR h hb rfl (sarq_eq _ _), List.forall_mem_nil _⟩

/-! ### Counts and `bswap` (R92) -/

theorem popcount_eq (a : W64) : popcount 64 a.toNat = ((List.range 64).filter a.getLsbD).length := by
  unfold popcount
  rfl

/-- An instruction that makes a number of its source puts it with the source's tag (R87, R92). -/
theorem State.putsS.of_count {s : State} {i : Instr} {k n : Nat} {g : Group} {sd sa : BitVec 6} {f : Nat → Nat}
    (h : s.stokerAt k g) (hi : exec i s = aluI s sd sa 0 4 fun a _ => BitVec.ofNat 64 (f a.toNat)) (hn : f (g.sGet sa.toNat).val.toNat = n) :
    s.putsS s i k g sd ⟨BitVec.ofNat 64 n, (g.sGet sa.toNat).pz⟩ 4 :=
  .of_aluI h hi (by rw [hn])

/-- The byte of a number read from its little-endian bytes. -/
theorem leNat_div_pow (l : List Byte) (i : Nat) : leNat l / 256 ^ i % 256 = (l.getD i 0).toNat := by
  induction l generalizing i with
  | nil => simp [leNat]
  | cons b l ih =>
    have hb := b.isLt
    cases i with
    | zero => simp [leNat]; omega
    | succ i =>
      rw [List.getD_cons_succ, ← ih i, Nat.pow_succ', ← Nat.div_div_eq_div_mul]
      congr 2
      show (b.toNat + 256 * leNat l) / 256 = leNat l
      omega

theorem extractLsb'_eq_byte (x : W64) (i : Nat) : x.extractLsb' (8 * i) 8 = BitVec.ofNat 8 (x.toNat / 256 ^ i) := by
  apply BitVec.eq_of_toNat_eq
  rw [BitVec.extractLsb'_toNat, BitVec.toNat_ofNat, Nat.shiftRight_eq_div_pow, Nat.pow_mul]

/-- Byte i of the reversed value is byte 7 − i of the value. -/
theorem bswapN_byte (a : W64) (i : Nat) (hi : i < 8) :
    (BitVec.ofNat 64 (bswapN 64 a.toNat)).extractLsb' (8 * i) 8 = a.extractLsb' (8 * (7 - i)) 8 := by
  have hlt : bswapN 64 a.toNat < 2 ^ 64 := by
    have := leNat_lt (leBytes 8 a.toNat).reverse
    rwa [List.length_reverse, length_leBytes] at this
  rw [extractLsb'_eq_byte, extractLsb'_eq_byte, BitVec.toNat_ofNat, Nat.mod_eq_of_lt hlt]
  apply BitVec.eq_of_toNat_eq
  rw [BitVec.toNat_ofNat]
  show leNat (leBytes 8 a.toNat).reverse / 256 ^ i % 256 = _
  have hlen := length_leBytes 8 a.toNat
  rw [leNat_div_pow, List.getD_eq_getElem _ _ (by simp [hlen, hi]), List.getElem_reverse, getElem_leBytes]
  simp only [hlen]

/-! ### Words with a reserved field (R50, R55) -/

/-- The words of the four counts with an sb field that is not zero. -/
theorem decodeStoker_counts {sd sa : BitVec 6} {fn sb w : Nat} (hw : sd.toNat * 2 ^ 19 + sa.toNat * 2 ^ 13 + sb * 2 ^ 7 + fn = w)
    (hlo : 0x14 ≤ fn) (hhi : fn ≤ 0x17) (hsb : 0 < sb) (hsb' : sb < 64) (i : Instr) : decodeStoker w 0 0 ≠ .ok i := by
  have hd := sd.isLt
  have ha := sa.isLt
  have hop : bits w 25 7 = 0 := by rw [bits]; omega
  have hfn : bits w 0 7 = fn := by rw [bits]; omega
  have hfd : fld w 19 6 = sd := fld_eq_iff.2 (by omega)
  have hfa : fld w 13 6 = sa := fld_eq_iff.2 (by omega)
  rw [decodeStoker, if_neg (by rw [hop]; decide), candidateStoker, hop, candidateAlu, hfn, hfd, hfa]
  intro hok
  obtain ⟨hc, he, -⟩ := accept_eq_ok.1 hok
  obtain rfl | rfl | rfl | rfl : fn = 20 ∨ fn = 21 ∨ fn = 22 ∨ fn = 23 := by omega
  all_goals
    cases hc
    have he : [encF 0 _ [(sd.toNat, 19), (sa.toNat, 13)]] = [w] := he
    simp only [encF_cons, encF_nil, List.cons.injEq, and_true] at he
    omega

/-- Settles O3: the counts by their specifications, `bswap` byte by byte, and a word with an sb field by what it would encode to. -/
theorem bitCounts : Obligations.BitCounts := by
  unfold Obligations.BitCounts
  intro s k g sd sa h a pz
  obtain ⟨hclz, hclz0, hclz1⟩ := clzN_spec a
  obtain ⟨hctz, hctz0, hctz1⟩ := ctzN_spec a
  exact ⟨.of_count h rfl (popcount_eq a), ⟨_, hclz, hclz0, hclz1, .of_count h rfl rfl⟩, ⟨_, hctz, hctz0, hctz1, .of_count h rfl rfl⟩,
    ⟨_, bswapN_byte a, .of_count h rfl rfl⟩,
    fun fn sb hlo hhi hsb hsb' => ⟨decodeStoker_counts rfl hlo hhi hsb hsb', onStoker_next h.1 h.2 _⟩⟩

/-! ### `csel` (R94) -/

/-- Settles O4: the selected register is put as it is, and a word with one of fn's upper bits is not what it encodes to. -/
theorem csel : Obligations.Csel := by
  unfold Obligations.Csel
  intro s k g sd sa sb cn h
  have hd := sd.isLt
  have ha := sa.isLt
  have hb := sb.isLt
  have hc := cn.isLt
  refine ⟨State.putsS_of (onStoker_next h.1 h.2 _), decodeStoker_of_encode 0 0 rfl ?_ ?_, fun hi hlo hhi i hok => ?_⟩
  · show some (encF _ _ _) = _
    simp only [encF_cons, encF_nil, Option.some.injEq]
    omega
  · show [encF _ _ _] = _
    simp only [encF_cons, encF_nil, List.cons.injEq, and_true]
    omega
  · generalize hw : 0x02 * 2 ^ 25 + sd.toNat * 2 ^ 19 + sa.toNat * 2 ^ 13 + sb.toNat * 2 ^ 7 + hi * 2 ^ 3 + cn.toNat = w at hok
    have hop : bits w 25 7 = 2 := by rw [bits]; omega
    rw [decodeStoker, if_neg (by rw [hop]; decide), candidateStoker, hop] at hok
    obtain ⟨hcand, he, -⟩ := accept_eq_ok.1 hok
    cases hcand
    have he : [encF 2 0 [((fld w 19 6).toNat, 19), ((fld w 13 6).toNat, 13), ((fld w 7 6).toNat, 7), ((fld w 0 3).toNat, 0)]] = [w] := he
    simp only [encF_cons, encF_nil, List.cons.injEq, and_true, BitVec.toNat_ofNat] at he
    omega

end Sys2Proof.Machine
end

section
/-! # Branches and jumps (O7) -/

namespace Sys2Proof.Machine

/-- What R95 says of an instruction that transfers to a target: it goes there inside the scalar code, and traps beyond it. -/
theorem transfer_goes {s : State} {i : Instr} {k : Nat} {g g' : Group} {target : W64} (hi : exec i s = .next (s.transfer k g g' target)) :
    (g.inCode target → s.becomes i k { g' with spc := target }) ∧ (¬ g.inCode target → s.trapsS s i k g (trapOperand target) 4) :=
  ⟨fun h => State.becomes_of (by rw [hi, State.transfer_in _ _ _ _ _ h]),
    fun h => by unfold State.trapsS; rw [hi, State.transfer_out _ _ _ _ _ h]⟩

section
variable {s : State} {k : Nat} {g : Group} {sa : BitVec 6} {off : BitVec 19} (h : s.stokerAt k g)
include h

theorem branchOn_next (onZero : Bool) (ha : (g.sGet sa.toNat).pz = false) : branchOn s sa off onZero =
    .next (if ((g.sGet sa.toNat).val == 0) = onZero then s.transfer k g g (g.rel off) else s.setG k (g.adv 4)) := by
  unfold branchOn
  rw [onStoker_next h.1 h.2]
  simp only [ha, Bool.false_eq_true, if_false, beq_iff_eq]

theorem branchC_next (cn : BitVec 3) (want : Bool) : branchC s cn off want =
    .next (if g.cGet cn.toNat = want then s.transfer k g g (g.rel off) else s.setG k (g.adv 4)) := by
  unfold branchC
  rw [onStoker_next h.1 h.2]
  simp only [beq_iff_eq]

theorem jr_next (ha : (g.sGet sa.toNat).pz = false) : exec (.jr sa) s = .next (s.transfer k g g (g.sGet sa.toNat).val) := by
  refine (onStoker_next h.1 h.2 _).trans ?_
  simp only [ha, Bool.false_eq_true, if_false]
end

/-- Settles O7: each form is `transfer` to its target where its condition holds, and goes on past the word where it does not. -/
theorem transfers : Obligations.Transfers := by
  unfold Obligations.Transfers
  intro s k g sa cn far near h a go farT nearT
  have hn := onStoker_next h.1 h.2
  refine ⟨transfer_goes (hn _), transfer_goes (hn _), fun ha => ⟨transfer_goes (jr_next h ha), fun hz => ?_, fun hz => ?_⟩,
    fun hc => ?_, fun hc => ?_⟩
  · have hz : (a.val == 0) = true := beq_iff_eq.2 hz
    exact ⟨transfer_goes ((branchOn_next h true ha).trans (by rw [if_pos hz]; rfl)),
      State.becomes_of ((branchOn_next h false ha).trans (by rw [if_neg (by rw [hz]; decide)]))⟩
  · have hz : (a.val == 0) = false := beq_false_of_ne hz
    exact ⟨transfer_goes ((branchOn_next h false ha).trans (by rw [if_pos hz]; rfl)),
      State.becomes_of ((branchOn_next h true ha).trans (by rw [if_neg (by rw [hz]; decide)]))⟩
  · exact ⟨transfer_goes ((branchC_next h cn true).trans (by rw [if_pos hc]; rfl)),
      State.becomes_of ((branchC_next h cn false).trans (by rw [if_neg (by rw [hc]; decide)]))⟩
  · exact ⟨transfer_goes ((branchC_next h cn false).trans (by rw [if_pos hc]; rfl)),
      State.becomes_of ((branchC_next h cn true).trans (by rw [if_neg (by rw [hc]; decide)]))⟩

end Sys2Proof.Machine
end

section
/-! # The checks of a scalar access (O8), and a misaligned one (O12) -/

namespace Sys2Proof.Machine

/-! ### Checks 4 to 7 of R98, on a translated address -/

/-- The page may be reached: its permissions, no dead link to its home, and host memory in a mode that takes the access (R98, R311, R321). -/
def State.Reaches (s : State) (k : Nat) (g : Group) (a : AccK) (t : Tr) : Prop :=
  (a.rd = true → t.rd = true) ∧ (a.wr = true → t.wr = true) ∧ s.fenced (dieOf (hearthOf k)) (s.keyOfTr (tabD s.ctxs g.ctx {}) t) = false ∧
    ¬ (isHost t.pa = true ∧ t.creg = none ∧ s.cxl = false ∧ a.pcieOk = false)

theorem State.reaches_iff {s : State} {k : Nat} {g : Group} {a : AccK} {t : Tr} : s.Reaches k g a t ↔
    ((a.rd && !t.rd) || (a.wr && !t.wr) || s.fenced (dieOf (hearthOf k)) (s.keyOfTr (tabD s.ctxs g.ctx {}) t) ||
      (isHost t.pa && t.creg.isNone && !s.cxl && !a.pcieOk)) = false := by
  simp only [State.Reaches, Bool.or_eq_false_iff, Bool.and_eq_false_iff, Bool.not_eq_false', Option.isNone_eq_false_iff,
    ← Option.ne_none_iff_isSome]
  cases a.rd <;> cases a.wr <;> simp [and_assoc, imp_iff_not_or, or_assoc]

section
variable {s : State} {k : Nat} {g : Group} {a : AccK} {va : W64} {size : Nat} {t : Tr}

theorem State.chkTr_unreached (h : ¬ s.Reaches k g a t) : s.chkTr k g a va size t = .trap (accTrap 0x06 a va size) := by
  rw [reaches_iff, Bool.not_eq_false] at h
  unfold State.chkTr
  rw [if_pos h]

theorem State.chkTr_reached (h : s.Reaches k g a t) : s.chkTr k g a va size t = (chkRegion a va size t).getD
    (if s.conflict (hearthOf k) g.ctx g.wg g.gidx .glob (va57 va) size a.wr then .trap (accTrap 0x0A a va size) else .ok t) := by
  rw [reaches_iff] at h
  unfold State.chkTr
  simp only [h, Bool.false_eq_true, if_false, Bool.true_and]
  cases chkRegion a va size t <;> rfl

theorem chkRegion_frozen (hw : a.wr = true) (hf : t.fst = 1 ∨ t.fst = 3) : chkRegion a va size t = some (.trap (accTrap 0x08 a va size)) := by
  unfold chkRegion
  rw [if_pos (by simpa [hw] using hf)]

theorem chkRegion_thawing (hw : a.wr = true) (hf : t.fst = 2) : chkRegion a va size t = some .wait := by
  unfold chkRegion
  simp [hw, hf]

theorem chkRegion_codec (hf : a.wr = true → t.fst = 0) (hc : t.creg ≠ none) (hk : a.codecOk = false) :
    chkRegion a va size t = some (.trap (accTrap 0x09 a va size)) := by
  unfold chkRegion
  rw [Option.ne_none_iff_isSome] at hc
  cases hw : a.wr <;> simp [hf, hw, hc, hk]

theorem chkRegion_none (hf : a.wr = true → t.fst = 0) (hc : t.creg = none ∨ a.codecOk = true) : chkRegion a va size t = none := by
  unfold chkRegion
  cases hw : a.wr <;> rcases hc with hc | hc <;> simp [hf, hw, hc]
end

/-! ### Checks 1 to 3 -/

section
variable {s s1 : State} {k : Nat} {g : Group} {a : AccK} {va : W64} {size : Nat}

theorem State.chkScalar_misaligned (h : va.toNat % size ≠ 0) : s.chkScalar k g a va size = (s, .trap (accTrap 0x07 a va size)) := by
  unfold State.chkScalar
  rw [if_pos (bne_iff_ne.2 h)]

theorem State.chkScalar_aligned (h : va.toNat % size = 0) : s.chkScalar k g a va size = s.chkTlb k g a va size := by
  unfold State.chkScalar
  rw [h]
  rfl

theorem State.chkTlb_not_canonical (h : canonical va = false) : s.chkTlb k g a va size = (s, .trap (accTrap 0x06 a va size)) := by
  unfold State.chkTlb
  rw [h]
  rfl

variable (h : canonical va = true)
include h

theorem State.chkTlb_absent {e : W64} (ht : s.translate (hearthOf k) g.ctx va = (s1, .absent e)) :
    s.chkTlb k g a va size = (s1, .trap { accTrap 0x05 a va size with s3 := e }) := by
  unfold State.chkTlb
  rw [if_pos h, ht]

theorem State.chkTlb_illegal {m : Bool} (ht : s.translate (hearthOf k) g.ctx va = (s1, .illegal m)) :
    s.chkTlb k g a va size = (s1, .trap { accTrap 0x06 a va size with malf := m }) := by
  unfold State.chkTlb
  rw [if_pos h, ht]

theorem State.chkTlb_ok {t : Tr} (ht : s.translate (hearthOf k) g.ctx va = (s1, .ok t)) :
    s.chkTlb k g a va size = (s1, s1.chkTr k g a va size t) := by
  unfold State.chkTlb
  rw [if_pos h, ht]
end

/-- Settles O8: each check by its own equation. -/
theorem scalarChecks : Obligations.ScalarChecks := by
  unfold Obligations.ScalarChecks
  intro s s1 k g a va size r
  refine ⟨State.chkScalar_misaligned, fun hal hcan => ?_, fun hal hcan ht => ?_⟩
  · rw [State.chkScalar_aligned hal, State.chkTlb_not_canonical hcan]
  have hdrift : Memory.wf s.mem = true → s.drift s1 := fun hs => by
    have := State.translate_sameButAD hs (hearthOf k) g.ctx va
    rw [ht] at this
    exact this.drift
  have hc := State.chkScalar_aligned (s := s) (k := k) (g := g) (a := a) hal
  cases r with
  | absent e =>
    have hc := hc.trans (State.chkTlb_absent hcan ht)
    exact ⟨congrArg Prod.fst hc, hdrift, congrArg Prod.snd hc⟩
  | illegal m =>
    have hc := hc.trans (State.chkTlb_illegal hcan ht)
    exact ⟨congrArg Prod.fst hc, hdrift, congrArg Prod.snd hc⟩
  | ok t =>
    have hc := hc.trans (State.chkTlb_ok hcan ht)
    have hout := congrArg Prod.snd hc
    refine ⟨congrArg Prod.fst hc, hdrift, fun hr => ?_, fun hr hw hf => ?_, fun hr hw hf => ?_, fun hr hf hcr hk => ?_, fun hr hf hcr => ?_⟩
    · exact hout.trans (State.chkTr_unreached hr)
    · rw [hout, State.chkTr_reached hr, chkRegion_frozen hw hf]; rfl
    · rw [hout, State.chkTr_reached hr, chkRegion_thawing hw hf]; rfl
    · rw [hout, State.chkTr_reached hr, chkRegion_codec hf hcr hk]; rfl
    · rw [hout, State.chkTr_reached hr, chkRegion_none hf hcr]; rfl

/-! ### A misaligned access -/

/-- The size of an atomic of R102. -/
abbrev atomicSize (w : BitVec 1) : Nat := if w = 0 then 4 else 8

/-- The type code of an atomic of R102. -/
abbrev atomicTy (w : BitVec 1) (signed : Bool) : Nat := (if w = 0 then 4 else 6) + (if signed then 0 else 1)

theorem not_poisoned_comparand {op : Nat} {x : SReg} (h : op = 7 → x.pz = false) : (op == 7 && x.pz) = false := by
  by_cases hop : op = 7
  · rw [h hop, Bool.and_false]
  · rw [beq_false_of_ne hop, Bool.false_and]

section
variable {s s1 : State} {k : Nat} {g : Group} {sd sa sb : BitVec 6} {off : W64} {size scope len : Nat} {signed acq : Bool}
  (h : s.stokerAt k g)
include h

theorem loadS_trapsS {i : Instr} {x : Trap} (hi : exec i s = loadS s sd sa off size signed len acq) (hp : (g.sGet sa.toNat).pz = false)
    (hc : s.chkScalar k g accLoad ((g.sGet sa.toNat).val + off) size = (s1, .trap x)) : s.trapsS s1 i k g x len :=
  hi.trans (loadS_trap h hp hc)

theorem storeS_trapsS {i : Instr} {x : Trap} (hi : exec i s = storeS s sd sa off size scope len) (hp : (g.sGet sa.toNat).pz = false)
    (hc : s.chkScalar k g (accStore (size == 8)) ((g.sGet sa.toNat).val + off) size = (s1, .trap x)) : s.trapsS s1 i k g x len :=
  hi.trans (storeS_trap h hp hc)

section
variable {w : BitVec 1} {op : Nat} {ar : Option Nat} (ha : (g.sGet sa.toNat).pz = false) (hb : (g.sGet sb.toNat).pz = false)
  (hd : op = 7 → (g.sGet sd.toNat).pz = false)
include ha hb hd

/-- An atomic none of whose operands is poisoned goes to its checks, and one whose checks end it does as they say. -/
theorem atomicS_trap {x : Trap}
    (hc : s.chkScalar k g (accAtomic false (pcieAtomic op (atomicTy w signed))) (g.sGet sa.toNat).val (atomicSize w) = (s1, .trap x)) :
    atomicS s w sd sa sb op signed ar = .next (s1.trapS k g x) := by
  unfold atomicS
  rw [onStoker_next h.1 h.2]
  simp only [ha, hb, not_poisoned_comparand hd, Bool.or_self, Bool.false_eq_true, if_false, hc]

end

theorem atomicS_trapsS {i : Instr} {w : BitVec 1} {op : Nat} {ar : Option Nat} {x : Trap} (hi : exec i s = atomicS s w sd sa sb op signed ar)
    (ha : (g.sGet sa.toNat).pz = false) (hb : (g.sGet sb.toNat).pz = false) (hd : op = 7 → (g.sGet sd.toNat).pz = false)
    (hc : s.chkScalar k g (accAtomic false (pcieAtomic op (atomicTy w signed))) (g.sGet sa.toNat).val (atomicSize w) = (s1, .trap x)) :
    s.trapsS s1 i k g x 4 :=
  hi.trans (atomicS_trap h ha hb hd hc)
end

/-! ### The instructions that load, store and operate -/

/-- Every row of `scalarLoads` is a load with the offset, size and signedness of its row. -/
theorem exec_scalarLoads (s : State) (sd sa : BitVec 6) (imm : BitVec 13) (v : W64) (scope : BitVec 3) :
    ∀ p ∈ scalarLoads sd sa imm v scope, ∃ acq, exec p.1 s = loadS s sd sa p.2.1 p.2.2.1 p.2.2.2.1 p.2.2.2.2 acq := by
  simp only [scalarLoads, List.forall_mem_cons]
  exact ⟨⟨_, rfl⟩, ⟨_, rfl⟩, ⟨_, rfl⟩, ⟨_, rfl⟩, ⟨_, rfl⟩, ⟨_, rfl⟩, ⟨_, rfl⟩, ⟨_, rfl⟩, ⟨_, rfl⟩, ⟨_, rfl⟩, ⟨_, rfl⟩, ⟨_, rfl⟩, ⟨_, rfl⟩, ⟨_, rfl⟩,
    ⟨_, rfl⟩, ⟨_, rfl⟩, List.forall_mem_nil _⟩

/-- Every row of `scalarStores` is a store with the offset, size and scope of its row. -/
theorem exec_scalarStores (s : State) (sd sa : BitVec 6) (imm : BitVec 13) (v : W64) (scope : BitVec 3) :
    ∀ p ∈ scalarStores sd sa imm v scope, exec p.1 s = storeS s sd sa p.2.1 p.2.2.1 p.2.2.2.1 p.2.2.2.2 := by
  simp only [scalarStores, List.forall_mem_cons]
  exact ⟨rfl, rfl, rfl, rfl, rfl, rfl, rfl, rfl, rfl, rfl, List.forall_mem_nil _⟩

/-- Every row of `scalarAtomics` is an atomic with the operation, signedness and scope of its row. -/
theorem exec_scalarAtomics (s : State) (w : BitVec 1) (sd sa sb : BitVec 6) (scope : BitVec 3) :
    ∀ p ∈ scalarAtomics w sd sa sb scope,
      ∃ ar : Option Nat, ar.getD 0 = p.2.2.2 ∧ exec p.1 s = atomicS s w sd sa sb p.2.1 p.2.2.1 ar := by
  simp only [scalarAtomics, List.forall_mem_cons]
  exact ⟨⟨none, rfl, rfl⟩, ⟨some _, rfl, rfl⟩, ⟨none, rfl, rfl⟩, ⟨some _, rfl, rfl⟩, ⟨none, rfl, rfl⟩, ⟨some _, rfl, rfl⟩, ⟨none, rfl, rfl⟩,
    ⟨some _, rfl, rfl⟩, ⟨none, rfl, rfl⟩, ⟨some _, rfl, rfl⟩, ⟨none, rfl, rfl⟩, ⟨some _, rfl, rfl⟩, ⟨none, rfl, rfl⟩, ⟨some _, rfl, rfl⟩,
    ⟨none, rfl, rfl⟩, ⟨some _, rfl, rfl⟩, ⟨none, rfl, rfl⟩, ⟨some _, rfl, rfl⟩, ⟨none, rfl, rfl⟩, ⟨some _, rfl, rfl⟩, List.forall_mem_nil _⟩

/-- Settles O12: every access asks for its alignment first. -/
theorem alignmentFaults : Obligations.AlignmentFaults := by
  unfold Obligations.AlignmentFaults
  intro s k g w sd sa sb imm v scope h ha a
  refine ⟨fun p hp hmis => ?_, fun p hp hmis => ?_, fun hb hd hmis p hp => ?_⟩
  · obtain ⟨acq, hi⟩ := exec_scalarLoads s sd sa imm v scope p hp
    exact loadS_trapsS h hi ha (State.chkScalar_misaligned hmis)
  · exact storeS_trapsS h (exec_scalarStores s sd sa imm v scope p hp) ha (State.chkScalar_misaligned hmis)
  · obtain ⟨ar, -, hi⟩ := exec_scalarAtomics s w sd sa sb scope p hp
    exact atomicS_trapsS h hi ha hb (fun _ => hd) (State.chkScalar_misaligned hmis)

end Sys2Proof.Machine
end

section
/-! # Translation registers (O14) and the words the manual writes out (O57) -/

namespace Sys2Proof.Machine

/-! ### The words of a translation register (R39) -/

theorem TReg.word_zero (r : TReg) : r.word 0 = r.base := rfl

theorem toNat_append_eq {m n : Nat} (x : BitVec m) (y : BitVec n) : (x ++ y).toNat = x.toNat * 2 ^ n + y.toNat := by
  rw [BitVec.toNat_append, ← Nat.shiftLeft_add_eq_or_of_lt y.isLt, Nat.shiftLeft_eq]

theorem TReg.word_one (r : TReg) : r.word 1 = (0 : BitVec 7) ++ r.creg ++ r.frame := by
  apply BitVec.eq_of_toNat_eq
  have hf := r.frame.isLt
  have hc := r.creg.isLt
  simp only [TReg.word, toNat_append_eq, BitVec.ofNat_eq_ofNat, BitVec.toNat_ofNat]
  omega

theorem two_pow_of_bool (b : Bool) (n : Nat) : (if b then 2 ^ n else 0) = b.toNat * 2 ^ n := by
  cases b <;> simp

theorem TReg.word_two (r : TReg) : r.word 2 = (0 : BitVec 23) ++ r.pgsz ++ BitVec.ofBool r.cmpr ++ BitVec.ofBool r.frozen ++
    BitVec.ofBool r.codec ++ BitVec.ofBool r.wr ++ BitVec.ofBool r.rd ++ BitVec.ofBool r.stale ++ BitVec.ofBool r.valid ++ r.limit := by
  apply BitVec.eq_of_toNat_eq
  have hl := r.limit.isLt
  have hp := r.pgsz.isLt
  have hb (b : Bool) : b.toNat < 2 := by cases b <;> decide
  have h := And.intro (And.intro (hb r.valid) (hb r.stale)) (And.intro (And.intro (hb r.rd) (hb r.wr)) (And.intro (And.intro (hb r.codec)
    (hb r.frozen)) (hb r.cmpr)))
  simp only [TReg.word, toNat_append_eq, BitVec.toNat_ofBool, BitVec.ofNat_eq_ofNat, BitVec.toNat_ofNat, two_pow_of_bool]
  omega

theorem xrd_word_le {n : BitVec 2} (hn : n ≠ 3) : n.toNat ≤ 2 := by
  have hlt := n.isLt
  have h3 : n.toNat ≠ 3 := fun h => hn (BitVec.eq_of_toNat_eq h)
  omega

theorem exec_xrd {s : State} {k : Nat} {g : Group} {sd : BitVec 6} {bn : BitVec 4} {n : BitVec 2} (h : s.stokerAt k g) (hn : n ≠ 3) :
    exec (.xrd sd bn n) s = .next (s.setG k (g.result sd ((tabD g.b bn.toNat {}).word n.toNat) false 4)) := by
  refine (onStoker_next h.1 h.2 _).trans ?_
  rw [if_neg hn]

theorem encode_xrd (sd : BitVec 6) (bn : BitVec 4) (n : BitVec 2) :
    encode (.xrd sd bn n) = [0x3A * 2 ^ 25 + sd.toNat * 2 ^ 19 + bn.toNat * 2 ^ 13 + n.toNat] := by
  show [encF 0x3A 0 [(sd.toNat, 19), (bn.toNat, 13), (n.toNat, 0)]] = _
  simp only [encF_cons, encF_nil, List.cons.injEq, and_true]
  omega

/-- The word that names word 3 is that of an `xrd` which is not well formed. -/
theorem decodeStoker_xrd_three (sd : BitVec 6) (bn : BitVec 4) (i : Instr) :
    decodeStoker (0x3A * 2 ^ 25 + sd.toNat * 2 ^ 19 + bn.toNat * 2 ^ 13 + 3) 0 0 ≠ .ok i := by
  have hw := encode_xrd sd bn 3
  rw [show (3 : BitVec 2).toNat = 3 from rfl] at hw
  have hd := sd.isLt
  have hb := bn.isLt
  generalize 0x3A * 2 ^ 25 + sd.toNat * 2 ^ 19 + bn.toNat * 2 ^ 13 + 3 = w at hw ⊢
  intro hok
  have hs : encodeStoker (.xrd sd bn 3) = some w := by
    rw [show encode (.xrd sd bn 3) = (encodeStoker (.xrd sd bn 3)).toList from rfl] at hw
    exact Option.toList_eq_singleton_iff.1 hw
  have hc := candidateStoker_encodeStoker hs
  rw [decodeStoker] at hok
  split_ifs at hok with hm
  · rw [candidateStoker, hm] at hc
    cases hc
  · obtain ⟨hc', -, hwf⟩ := accept_eq_ok.1 hok
    cases hc.symm.trans hc'
    exact absurd hwf Bool.false_ne_true

/-- Settles O14: `xinv` writes the reset values, and the words of bN are its fields side by side. -/
theorem translationReads : Obligations.TranslationReads := by
  unfold Obligations.TranslationReads
  intro s k g bn sd h word
  have hn := onStoker_next h.1 h.2
  refine ⟨State.becomes_of (hn _), fun n hk => ⟨?_, ?_⟩, ?_, decodeStoker_xrd_three sd bn, hn _, hn _⟩
  · have hword : (tabD g.b bn.toNat {}).word n.toNat = word n.toNat := by
      obtain h | h | h : n.toNat = 0 ∨ n.toNat = 1 ∨ n.toNat = 2 := by have := xrd_word_le hk; omega
      · rw [h]; exact TReg.word_zero _
      · rw [h]; exact TReg.word_one _
      · rw [h]; exact TReg.word_two _
    exact State.putsS_of ((exec_xrd h hk).trans (by rw [hword]))
  · exact decodeStoker_of_encode 0 0 (decide_eq_true (xrd_word_le hk)) (Option.toList_eq_singleton_iff.1 (encode_xrd sd bn n))
      (encode_xrd sd bn n)
  · have hw : encode (.xinv bn) = [0x39 * 2 ^ 25 + bn.toNat * 2 ^ 19] := by
      show [encF 0x39 0 [(bn.toNat, 19)]] = _
      simp only [encF_cons, encF_nil, List.cons.injEq, and_true]
      omega
    exact decodeStoker_of_encode 0 0 rfl (Option.toList_eq_singleton_iff.1 hw) hw

/-- Settles O57: each word is the one its instruction encodes to. -/
theorem decodeWords : Obligations.DecodeWords := by
  unfold Obligations.DecodeWords
  refine ⟨?_, ?_, ?_, ?_, ?_, ?_⟩
  · simp only [List.forall_mem_cons]
    exact ⟨decodeStoker_of_encode 0 0 rfl rfl rfl, decodeStoker_of_encode 0 0 rfl rfl rfl, decodeStoker_of_encode 0 0 rfl rfl rfl,
      decodeStoker_of_encode 0 0 rfl rfl rfl, decodeStoker_of_encode 0 0 rfl rfl rfl, decodeStoker_of_encode 0 0 rfl rfl rfl,
      decodeStoker_of_encode 0 0 rfl rfl rfl, decodeStoker_of_encode 0 0 rfl rfl rfl, decodeStoker_of_encode 0 0 rfl rfl rfl,
      decodeStoker_of_encode 0 0 rfl rfl rfl, decodeStoker_of_encode 0 0 rfl rfl rfl, decodeStoker_of_encode 0 0 rfl rfl rfl,
      List.forall_mem_nil _⟩
  · exact decodeLane_of_encode rfl (by decide) rfl
  · exact decodeLane_of_encode rfl (by decide) rfl
  · exact decodeLane_of_encode rfl (by decide) rfl
  · exact decodeLane_of_encode rfl (by decide) rfl
  · exact decodeLane_of_encode rfl (by decide) rfl

end Sys2Proof.Machine
end

section
/-! # A read of no byte (O9)

`ScalarLoads` says what a plain read gives for every number of bytes, also for none. The model's own test of a range (`State.poisoned`) is
met by an empty one that lies inside a poisoned granule, while the statement asks only that no granule of the bytes read is poisoned. -/

namespace Sys2Proof.Machine

/-- A plain line of memory, one byte into it. -/
def insideGranule : Tr :=
  { pa := 1, rd := true, wr := false, fst := 0, lcls := 0, cmpr := false, frzr := false, pgsz := 0, page := 0, left := 0, leafPa := 0 }

/-- Hearth 0 holds a copy of the first line of memory, and the first granule of it is poisoned. -/
def poisonedGranule : State := { State.reset with poison := [0], l1 := [(0, [{ kind := .leased, key := 0 }])] }

theorem readBytes_nothing : poisonedGranule.readBytes 0 {} (0, 0) insideGranule 0 = (poisonedGranule, some ([], true)) := by
  rfl

/-- Refutes O9: a read of no byte, inside a poisoned granule, is poisoned. -/
theorem not_scalarLoads : ¬ Obligations.ScalarLoads := by
  intro h
  obtain ⟨-, h, -⟩ := h
  obtain ⟨-, hpz⟩ := h poisonedGranule poisonedGranule 0 0 {} (0, 0) insideGranule [] true readBytes_nothing rfl (by decide) (by decide) rfl
    (by decide) (by decide)
  cases hpz

end Sys2Proof.Machine
end

section
/-! # A host line that another slice holds (O49)

`HomeEvents` lets a line's bytes be lost under a reserved metadata code only where L2 does not hold the line. The model also brings a line in
anew where L2 holds it at another place than its home (`State.useLine`, R275). A line of HBM gets a code of its own as it leaves; the code of a
host line is left as it stands, so that one under a reserved code is lost as it comes back. -/

namespace Sys2Proof.Machine

/-- The first line of host memory. -/
def hostLine : Nat := physKey (2 ^ 50)

/-- A store of one byte to it that has arrived. -/
def hostStore : Pend :=
  { id := 0, key := hostLine, ctx := 0, owner := none, arrived := true, issued := 0, va := 0, blk := 0, acq := false,
    kind := .store (2 ^ 50) [1] false }

/-- Under CXL.cache a slice that is not its home holds that line, whose metadata code is reserved. Its second byte is 7. -/
def misplaced : State :=
  { State.reset with
    ev := { a := hostLine }, cxl := true, mem := [(2 ^ 50 + 1, 7)], cells := [(2 ^ 50 / 128, 8)], l2 := [(2 ^ 50, { place := some (1, 1) })],
    pend := [hostStore] }

theorem exec_writePerformed_misplaced : exec .writePerformed misplaced = .next (misplaced.performFirst hostLine false) := rfl

theorem misplaced_loses : memGet (misplaced.performFirst hostLine false).mem (2 ^ 50 + 1) = 0 := by decide +kernel

theorem misplaced_underLines : misplaced.underLines hostLine = [] := rfl

/-- Refutes O49: the store of the first byte loses the second. -/
theorem not_homeEvents : ¬ Obligations.HomeEvents := by
  intro h
  obtain ⟨h, -⟩ := h misplaced hostLine 0 0 0 0 0 hostStore { h := 0, len := 0, cmpr := false, who := none } (strayGroup 0 0 none) 0 (strayWg 0) {} {}
  obtain ⟨-, -, -, -, -, -, h, -⟩ := h rfl
  obtain ⟨h, -⟩ := h ⟨⟨List.mem_singleton.2 rfl, rfl, rfl⟩, fun z hz => .inl (List.mem_singleton.1 hz.1)⟩
    ⟨Nat.le_refl 0, List.forall_mem_nil _, rfl, rfl, rfl, rfl, misplaced_underLines ▸ List.forall_mem_nil _⟩ rfl rfl rfl rfl
  obtain ⟨t, ht, -, -, hmem⟩ := h _ _ rfl
  rw [exec_writePerformed_misplaced] at ht
  cases ht
  have := hmem (2 ^ 50 + 1)
  rw [misplaced_loses] at this
  revert this
  decide

end Sys2Proof.Machine
end

section
/-! # Return from a handler (R118, R119, R267)

What a retired block leaves of its group, which entries of a table a restored frame gives, where the streams go on, and what the frames that
go back to the pool leave. -/

namespace Sys2Proof.Machine

/-! ### Blocks retired -/

/-- Two groups agree in everything but their blocks, scalar registers and condition bits. -/
def Group.OnlyRetired (g g' : Group) : Prop := ∃ b x c, g' = { g with blocks := b, s := x, c := c }

theorem Group.OnlyRetired.refl (g : Group) : g.OnlyRetired g := ⟨g.blocks, g.s, g.c, rfl⟩

theorem Group.OnlyRetired.trans {g g' g'' : Group} : g.OnlyRetired g' → g'.OnlyRetired g'' → g.OnlyRetired g'' := by
  rintro ⟨b, x, c, rfl⟩ ⟨b', x', c', rfl⟩
  exact ⟨b', x', c', rfl⟩

theorem Group.sSet_onlyRetired (g : Group) (n : Nat) (x : SReg) : g.OnlyRetired (g.sSet n x) := by
  unfold sSet
  split
  · exact .refl g
  · exact ⟨g.blocks, _, g.c, rfl⟩

theorem Group.landPend_onlyRetired (l : List PendW) (g : Group) : g.OnlyRetired (g.landPend l) := by
  unfold landPend
  induction l generalizing g with
  | nil => exact .refl g
  | cons p l ih =>
    refine .trans ?_ (ih _)
    cases p with
    | scalar n v => exact g.sSet_onlyRetired n v
    | cond n v => exact ⟨g.blocks, g.s, _, rfl⟩

theorem State.retireOldest_onlyRetired {s : State} {g g' : Group} (h : s.retireOldest g = some g') : g.OnlyRetired g' := by
  cases hb : g.blocks with
  | nil =>
    cases (State.retireOldest_of_none hb).symm.trans h
    exact .refl g
  | cons b rest =>
    unfold State.retireOldest at h
    rw [hb] at h
    dsimp only at h
    split at h
    · cases h
      exact .trans ⟨rest, g.s, g.c, rfl⟩ (Group.landPend_onlyRetired _ _)
    · cases h

/-- Retiring every block leaves all else but scalar registers and condition bits. -/
theorem State.retireAll_onlyRetired {s : State} {g g' : Group} (h : s.retireAll g = some g') : g.OnlyRetired g' := by
  unfold State.retireAll at h
  split at h
  · cases h
  · next g1 h1 =>
    split at h
    · cases h
    · next g2 h2 =>
      exact (retireOldest_onlyRetired h1).trans ((retireOldest_onlyRetired h2).trans (retireOldest_onlyRetired h))

/-! ### Tables restored from a frame -/

theorem tabGet_none_of_key {α : Type} {t : Tab α} {n : Nat} (h : ∀ p ∈ t, p.1 ≠ n) : tabGet t n = none := by
  cases hx : tabGet t n with
  | none => rfl
  | some x => exact absurd rfl (h _ (tabGet_mem hx))

/-- Writing the entries of a table whose keys differ into another: its own entries are found first. -/
theorem tabGet_foldl_tabSet {α : Type} (l t : Tab α) (n : Nat) (h : (l.map (·.1)).Nodup) :
    tabGet (l.foldl (fun t p => tabSet t p.1 p.2) t) n = (tabGet l n).or (tabGet t n) := by
  induction l generalizing t with
  | nil => rfl
  | cons p l ih =>
    obtain ⟨hp, hl⟩ := List.nodup_cons.1 h
    rw [List.foldl_cons, ih _ hl, tabGet_tabSet]
    obtain ⟨m, x⟩ := p
    by_cases hm : m = n
    · have hn : tabGet l n = none := tabGet_none_of_key fun q hq he => hp (List.mem_map.2 ⟨q, hq, he.trans hm.symm⟩)
      simp [tabGet, hm, hn]
    · simp [tabGet, hm]

theorem tabD_restoreLow {α : Type} {low : Nat → Prop} [DecidablePred low] {saved : Tab α} (now : Tab α) (h : keyed saved low) (n : Nat)
    (d : α) : tabD (restoreLow (fun n => decide (low n)) saved now) n d = if low n then tabD saved n d else tabD now n d := by
  obtain ⟨hnd, hlow⟩ := h
  unfold tabD restoreLow
  rw [tabGet_foldl_tabSet _ _ _ hnd, tabGet_filter_key now (fun m => !decide (low m)) n]
  by_cases hn : low n
  · simp [hn]
  · rw [tabGet_none_of_key (t := saved) (n := n) fun p hp he => hn (he ▸ hlow p hp)]
    simp [hn]

/-! ### Where the streams go on -/

section
variable (g : Group) (f : HFrame)

/-- The handler left S[6][0] = 1 and the cause allows skipping. -/
def Group.skips : Bool := (g.sGet 6).val.getLsbD 0 && !resumesAfter f.cause.code

/-- A split of the frame as it enters its PC slot, past the faulting instruction where `mine` says that it is this slot's. -/
def HFrame.enters (mine : Bool) (x : Split) : Split :=
  let y := x.enter
  if mine then (if f.cause.len = 0 then y.skipAgain else y.skip) else y

@[simp] theorem HFrame.enters_other : f.enters false = Split.enter := rfl

theorem HFrame.enters_again (hl : f.cause.len = 0) : f.enters true = fun x => x.enter.skipAgain := by
  unfold enters
  simp [hl]

theorem HFrame.enters_past (hl : f.cause.len ≠ 0) : f.enters true = fun x => x.enter.skip := by
  unfold enters
  simp [hl]

/-- The faulting instruction to be skipped is that of PC slot 0 or 1. -/
def Group.skipsSlot (n : Nat) : Bool := g.skips f && !f.cause.stoker && decide (f.cause.slot = 0 ↔ n = 0)

/-- A return changes the restored frame where a stream goes on. -/
theorem Group.returnTrap_eq : g.returnTrap f =
    { g.restoreFrame f with
      spc := if g.skips f && f.cause.stoker then f.spc + BitVec.ofNat 64 f.cause.len else f.spc
      redo := if g.skips f && f.cause.stoker && decide (f.cause.len = 0) then f.redo.drop 1 else f.redo
      slot0 := f.slot0.map (f.enters (g.skipsSlot f 0))
      slot1 := f.slot1.map (f.enters (g.skipsSlot f 1)) } := by
  unfold returnTrap skipsSlot
  rw [show ((g.sGet 6).val.getLsbD 0 && !resumesAfter f.cause.code) = g.skips f from rfl]
  cases g.skips f with
  | false => simp [restoreFrame]
  | true =>
    unfold skipFault
    cases f.cause.stoker with
    | true => by_cases hl : f.cause.len = 0 <;> simp [restoreFrame, hl, adv]
    | false =>
      by_cases hl : f.cause.len = 0
      · by_cases hs : f.cause.slot = 0 <;> simp [restoreFrame, Function.comp_def, f.enters_again hl, hl, hs, setSplit, split]
      · by_cases hs : f.cause.slot = 0 <;> simp [restoreFrame, Function.comp_def, f.enters_past hl, hl, hs, setSplit, split]
end

/-! ### Frames that go back to the pool -/

theorem State.returnFrames_groups (s : State) (k : Nat) (g : Group) (handler : Bool) : (s.returnFrames k g handler).groups = s.groups := by
  unfold State.returnFrames
  induction g.frames generalizing s with
  | nil => rfl
  | cons p l ih =>
    refine (ih _).trans ?_
    dsimp only
    split
    · exact (s.poolReturn_onlyPool (dieOf (hearthOf k)) p.1).groups
    · rfl

/-- A handler that took no frames gives none back. -/
theorem State.returnFrames_none {g : Group} (h : ∀ x ∈ g.frames, x.2 = false) (s : State) (k : Nat) :
    s.returnFrames k g true = s := by
  unfold State.returnFrames
  generalize g.frames = l at h
  induction l with
  | nil => rfl
  | cons p l ih =>
    have hp : (p.2 || !true) = false := by rw [h p List.mem_cons_self]; rfl
    rw [List.foldl_cons, hp]
    exact ih fun x hx => h x (List.mem_cons_of_mem _ hx)

/-! ### An abandoned handler -/

theorem State.coalesce_groups (s : State) (k ctx : Nat) (cause : BitVec 16) (t : Trap) (cont : List (List Byte)) :
    (s.coalesce k ctx cause t cont).groups = s.groups := by
  unfold State.coalesce
  dsimp only
  split
  · rfl
  · split <;> rfl

theorem State.grp_escalate_same (s : State) (k : Nat) (g : Group) (t : Trap) (inh noh : Bool) :
    (s.escalate k g t inh noh).grp k = some { g with susp := some t } :=
  (congrArg (tabGet · k) (State.coalesce_groups ..)).trans (s.grp_setG_same k _)

/-! ### `tret` and an empty pool -/

section
variable {s : State} {k : Nat} {g : Group} (h : s.stokerAt k g)
include h

theorem tret_outside (hn : g.hnd = none) : s.trapsS s .tret k g trapPrivilege 4 := by
  refine (onStoker_next h.1 h.2 _).trans ?_
  simp only [hn]

theorem tret_waits (hn : g.hnd ≠ none) (hw : s.retireAll g = none ∨ (∃ g1, s.retireAll g = some g1) ∧ s.pending g.name = true) :
    s.waitsS s .tret k g := by
  obtain ⟨f, hf⟩ := Option.ne_none_iff_exists'.1 hn
  refine State.waitsS_of h.2 ((onStoker_next h.1 h.2 _).trans ?_)
  rcases hw with hw | ⟨⟨g1, hw⟩, hp⟩
  · simp only [hf, hw]
  · obtain ⟨b, x, c, rfl⟩ := State.retireAll_onlyRetired hw
    simp only [hf, hw]
    exact congrArg _ (if_pos hp)

theorem tret_returns {g1 : Group} {f : HFrame} (hf : g.hnd = some f) (hr : s.retireAll g = some g1) (hp : s.pending g.name = false) :
    exec .tret s = .next ((s.returnFrames k g true).setG k (g1.returnTrap f)) := by
  refine (onStoker_next h.1 h.2 _).trans ?_
  obtain ⟨b, x, c, rfl⟩ := State.retireAll_onlyRetired hr
  simp only [hf, hr]
  exact congrArg _ (if_neg (ne_true_of_eq_false hp))

theorem ptake_abandons {f : HFrame} (hf : g.hnd = some f) (hl : g.frames.length < 4) (hpf : s.poolFrame (dieOf (hearthOf k)) = none)
    (hi : s.inFlight g.name = false) (sd : BitVec 6) : exec (.ptake sd) s = .next (s.abandon k g f) := by
  refine (onStoker_next h.1 h.2 _).trans ?_
  have hp : s.privileged g = true := by simp [State.privileged, hf]
  rw [if_neg (by simp [hp]), if_neg (by omega), hpf, hf]
  exact congrArg _ (if_neg (ne_true_of_eq_false hi))
end

/-- The codes after which a group resumes past the point of the trap. -/
theorem resumesAfter_iff (c : Nat) : resumesAfter c = true ↔ c = 0x04 ∨ c = 0x14 ∨ c = 0x15 := by
  simp [resumesAfter, or_assoc]

end Sys2Proof.Machine

open Sys2Proof.Machine in
/-- Settles O32: the cases of `tret` in turn; the returned group is `Group.returnTrap_eq`'s, its registers those of `tabD_restoreLow`. -/
theorem trapReturn : Obligations.TrapReturn := by
  unfold Obligations.TrapReturn
  intro s k g g1 f sd h resumes skip mine enter
  refine ⟨tret_outside h, fun hn hr => tret_waits h hn (.inl hr), fun hn hr hp => tret_waits h hn (.inr ⟨⟨g1, hr⟩, hp⟩), ?_, ?_⟩
  · intro hf hr hp hs hb hv
    have hskip : g1.skips f = true ↔ skip := by
      simp only [Group.skips, Bool.and_eq_true, Bool.not_eq_true', ← Bool.not_eq_true, resumesAfter_iff, skip, resumes]
    have hmine : ∀ n, g1.skipsSlot f n = true ↔ mine n := fun n => by
      simp only [Group.skipsSlot, Bool.and_eq_true, hskip, Bool.not_eq_true', decide_eq_true_eq, mine, and_assoc]
    have henter : ∀ n, f.enters (g1.skipsSlot f n) = enter n := fun n => funext fun x => by
      by_cases hm : mine n
      · rw [(hmine n).2 hm]
        by_cases hl : f.cause.len = 0
        · rw [f.enters_again hl]
          simp [enter, hm, hl, Split.skipAgain, Split.enter]
        · rw [f.enters_past hl]
          simp [enter, hm, hl, Split.skip, Split.enter]
      · rw [Bool.eq_false_iff.2 (mt (hmine n).1 hm)]
        simp [enter, hm, Split.enter]
    obtain ⟨bl, x, c, rfl⟩ := State.retireAll_onlyRetired hr
    refine ⟨_, tret_returns h hf hr hp, _, State.grp_setG_same _ k _,
      State.grp_setG_of_groups (s.returnFrames_groups k g true) _, fun hfr a => ?_, ?_⟩
    · rw [State.returnFrames_none hfr]
      rfl
    · rw [Group.returnTrap_eq, henter, henter]
      refine ⟨rfl, rfl, rfl, rfl, rfl, rfl, rfl, rfl, fun n => ?_, fun n => ?_, fun n => ?_, fun th r hr => ?_, ?_, ?_, rfl, rfl⟩
      · by_cases h0 : n = 0
        · simp only [Group.sGet, h0, if_true]
        · simp only [Group.sGet, h0, if_false]
          exact tabD_restoreLow _ hs n {}
      · exact tabD_restoreLow _ hb n {}
      · by_cases h0 : n = 0
        · simp [Group.mGet, h0]
          rfl
        · by_cases h1 : n = 1 <;> simp [Group.mGet, Group.restoreFrame, tabD_tabSet, h0, h1, eq_comm]
      · have hk : (th * 256 + r) % 256 = r := by omega
        refine (tabD_restoreLow _ hv (th * 256 + r) {}).trans ?_
        rw [hk]
        simp [Group.vGet]
      · simp only [Bool.and_eq_true, hskip]
      · simp only [Bool.and_eq_true, hskip, decide_eq_true_eq, and_assoc]
  · intro hf hl hpf hi
    exact ⟨_, ptake_abandons h hf hl hpf hi sd, _, State.grp_escalate_same .., rfl, rfl, rfl, rfl, rfl, rfl, rfl⟩
end

section
/-! # Traps handed to the coalescer (R257, R260, R263, R264)

What a kernel entry is read from, what a trap gives up before it is delivered, and what the coalescer does with a record. -/

namespace Sys2Proof.Machine

/-! ### Reads of page tables and kernel entries depend on memory and dead links -/

section
variable {s t : State} (hm : t.mem = s.mem) (hf : t.fences = s.fences)
include hm

theorem State.peekNat_congr (pa n : Nat) : t.peekNat pa n = s.peekNat pa n := by
  unfold State.peekNat State.peek
  rw [hm]

theorem State.region_congr (c : Ctx) (n : Nat) : t.region c n = s.region c n := by
  unfold State.region
  simp only [State.peekNat_congr hm]

theorem leafOk_congr (c : Ctx) (e va pgsz : Nat) : leafOk t c e va pgsz = leafOk s c e va pgsz := by
  unfold leafOk
  simp only [State.region_congr hm]

theorem walkFrom_congr (c : Ctx) (va : Nat) (ls : List (Nat × Nat × Nat)) (lvl table : Nat) :
    walkFrom t c va ls lvl table = walkFrom s c va ls lvl table := by
  induction ls generalizing lvl table with
  | nil => rfl
  | cons l ls ih =>
    obtain ⟨lo, n, align⟩ := l
    simp only [walkFrom, State.peekNat_congr hm, leafOk_congr hm, ih]

theorem walkPas_congr (va : Nat) (ls : List (Nat × Nat × Nat)) (lvl table : Nat) :
    walkPas t va ls lvl table = walkPas s va ls lvl table := by
  induction ls generalizing lvl table with
  | nil => rfl
  | cons l ls ih =>
    obtain ⟨lo, n, align⟩ := l
    simp only [walkPas, State.peekNat_congr hm, ih]

theorem State.trOf_congr (c : Ctx) (leaf : W64) (leafPa pgsz : Nat) (va : W64) :
    trOf t c leaf leafPa pgsz va = trOf s c leaf leafPa pgsz va := by
  unfold trOf
  simp only [State.region_congr hm]

include hf

omit hm in
theorem State.cutOff_congr (d : Nat) : t.cutOff d = s.cutOff d := by
  funext pa
  unfold State.cutOff
  rw [hf]

theorem State.farByte_congr (d : Nat) (c : Ctx) (va : W64) (pa : Nat) : t.farByte d c va pa = s.farByte d c va pa := by
  unfold State.farByte
  rw [hf, State.cutOff_congr hf, walkPas_congr hm]

theorem State.vread_congr (d : Nat) (c : Ctx) (va : W64) (n : Nat) : t.vread d c va n = s.vread d c va n := by
  induction n generalizing va with
  | zero => rfl
  | succ n ih =>
    simp only [State.vread, State.walk, walkFrom_congr hm, State.trOf_congr hm, State.farByte_congr hm hf, ih, hm]

theorem State.imageHeader_congr (d : Nat) (c : Ctx) (ib : W64) : t.imageHeader d c ib = s.imageHeader d c ib := by
  unfold State.imageHeader
  rw [State.vread_congr hm hf]

theorem State.findImage_congr (d : Nat) (c : Ctx) (kaddr : W64) (fuel : Nat) (ib : W64) :
    t.findImage d c kaddr fuel ib = s.findImage d c kaddr fuel ib := by
  induction fuel generalizing ib with
  | zero => rfl
  | succ fuel ih => simp only [State.findImage, State.imageHeader_congr hm hf, State.vread_congr hm hf, ih]

/-- The handler kernel is read through the page tables alone. -/
theorem State.handlerKern_congr (d : Nat) (c : Ctx) : t.handlerKern d c = s.handlerKern d c := by
  unfold State.handlerKern State.kernelAt
  rw [State.findImage_congr hm hf, State.vread_congr hm hf]
end

/-! ### What a trap gives up -/

/-- The group as a trap leaves it before it is delivered: no instruction waits and no arrival stands (R212, R263). -/
def Group.quit (g : Group) : Group :=
  { g with
    sWait := false, launching := none, got := none, arrived := none,
    wgbars := if g.arrived = some false then g.wgbars - 1 else g.wgbars,
    gbars := if g.arrived = some true then g.gbars - 1 else g.gbars, yielded := none, raised := none }

theorem Group.leaveBarrier_eq (g : Group) : g.leaveBarrier =
    { g with
      arrived := none, wgbars := if g.arrived = some false then g.wgbars - 1 else g.wgbars,
      gbars := if g.arrived = some true then g.gbars - 1 else g.gbars } := by
  unfold leaveBarrier
  rcases ha : g.arrived with _ | _ | _
  · cases g
    cases ha
    rfl
  · rfl
  · rfl

theorem Group.giveUp_eq (g : Group) : { g.giveUp with yielded := none, raised := none } = g.quit := by
  unfold giveUp
  rw [leaveBarrier_eq]
  rfl

theorem Group.foldl_writeOut_quit (l : List Out) (g : Group) : l.foldl writeOut g.quit = (l.foldl writeOut g).quit := by
  have hv : ∀ (o : Out) (g : Group), g.quit.writeOut o = (g.writeOut o).quit := fun o g => by
    unfold writeOut
    induction o.vals generalizing g with
    | nil => rfl
    | cons v vs ih =>
      simp only [List.foldl_cons]
      cases v.val with
      | none => exact ih g
      | some x => exact ih (g.vSet v.t v.r x)
  induction l generalizing g with
  | nil => rfl
  | cons o l ih => rw [List.foldl_cons, List.foldl_cons, hv, ih]

theorem Group.landSplit_quit (g : Group) (slot : Nat) : g.quit.landSplit slot = (g.landSplit slot).quit := by
  unfold landSplit
  rw [show g.quit.split slot = g.split slot from rfl]
  cases g.split slot with
  | none => rfl
  | some sp =>
    dsimp only
    rw [foldl_writeOut_quit]
    unfold setSplit
    split <;> rfl

/-- Results in flight are written alike before and after. -/
theorem Group.landAll_quit (g : Group) : g.quit.landAll = g.landAll.quit := by
  unfold landAll
  dsimp only
  rw [landSplit_quit, landSplit_quit, show ((g.landSplit 0).landSplit 1).quit.spilled = ((g.landSplit 0).landSplit 1).spilled from rfl,
    foldl_writeOut_quit]
  rfl

theorem Pend.brings_forget (p : Pend) (f : Nat × Nat → Bool) : (p.forget f).brings = p.brings := by
  unfold forget
  split
  · next hk =>
    split
    · unfold brings
      rw [hk]
      rfl
    · rfl
  · rfl

theorem State.inFlight_forgetGroup (s : State) (k : Nat) (n : Nat × Nat) : (s.forgetGroup k).inFlight n = s.inFlight n := by
  simp [inFlight, forgetGroup, forgetAll, List.any_map, Function.comp_def, Pend.forget_owner, Pend.brings_forget]

/-- The machine as a trap of a group leaves it before it is delivered. -/
def State.gaveUp (s : State) (k : Nat) (g : Group) : State := (s.forgetGroup k).withdraw g.quit

/-- A trap whose group has no result on its way is delivered at once. -/
theorem takeTrap_delivers {s : State} (k : Nat) {g : Group} (t : Trap) (hi : s.inFlight g.name = false) (ha : g.awaits = false) :
    takeTrap s k g t = (s.gaveUp k g).deliverTrap k g.landAll.quit t := by
  unfold takeTrap
  rw [Group.giveUp_eq]
  dsimp only
  have hw : ((s.forgetGroup k).withdraw g.quit).inFlight g.quit.name = false := (State.inFlight_forgetGroup s k g.name).trans hi
  rw [if_neg (by simp [hw, show g.quit.awaits = false from ha]), Group.landAll_quit]
  rfl

/-- Queue delivery, with INH where the trap was raised in a handler and NOH where the context has no usable one. -/
theorem State.deliverTrap_queued {s : State} (k : Nat) {g : Group} {t : Trap}
    (hq : g.hnd.isSome ∨ toHandler (tabD s.ctxs g.ctx {}) t.code = false ∨ s.handlerKern (dieOf (hearthOf k)) (tabD s.ctxs g.ctx {}) = none) :
    s.deliverTrap k g t = s.escalate k g t g.hnd.isSome (g.hnd.isNone && toHandler (tabD s.ctxs g.ctx {}) t.code) := by
  unfold State.deliverTrap
  dsimp only
  generalize tabD s.ctxs g.ctx {} = c at *
  cases hh : g.hnd with
  | some f => rfl
  | none =>
    rw [hh] at hq
    cases ht : toHandler c t.code with
    | false => rfl
    | true =>
      have hk : s.handlerKern (dieOf (hearthOf k)) c = none := by simpa [ht] using hq
      rw [hk]
      rfl

/-- A group that escalates is suspended, and the coalescer has its trap. -/
theorem State.escalate_eq (s : State) (k : Nat) {g : Group} {c : Nat} (hc : g.ctx = c) (t : Trap) (inh noh : Bool) :
    ∃ cont, s.escalate k g t inh noh = (s.setG k { g with susp := some t }).coalesce k c (causeWord t inh noh false) t cont := by
  subst hc
  exact ⟨_, rfl⟩

/-! ### The coalescer (R260) -/

/-- An open record that a trap's would merge into. -/
def Rec.merges (k ctx : Nat) (cause : BitVec 16) (t : Trap) (r : Rec) : Prop :=
  r.hearth = hearthOf k ∧ r.closed = false ∧ r.held = false ∧ r.ctx = ctx ∧ r.cause = cause ∧
    r.addr.toNat / 65536 = t.addr.toNat / 65536 ∧ t.code ∉ [0x0E, 0x0F, 0x16, 0x17]

theorem neverMerged_iff (code : Nat) : neverMerged code = true ↔ code ∈ [0x0E, 0x0F, 0x16, 0x17] := by
  simp [neverMerged, or_assoc]

/-- The record with the trap of group k merged into it: the lowest slot gives the place. -/
def Rec.merged (k : Nat) (t : Trap) (r : Rec) : Rec :=
  let r' := { r with gslots := setBit r.gslots (k % 128) true }
  if k % 128 < r.low then
    { r' with addr := t.addr, tmask := t.tmask, lpc := t.pc, size := t.size, stoker := t.stoker, low := k % 128 }
  else r'

/-- The record a trap opens. -/
def Rec.opens (s : State) (k ctx : Nat) (cause : BitVec 16) (t : Trap) (cont : List (List Byte)) (held : Bool) : Rec :=
  { hearth := hearthOf k, ctx := ctx, cause := cause, addr := t.addr, time := t.time.getD s.now, gslots := setBit 0 (k % 128) true,
    tmask := t.tmask, lpc := t.pc, size := t.size, stoker := t.stoker, opened := s.now, cont := cont, low := k % 128, held := held }

/-- The records of hearth h that have one of its sixteen places. -/
def State.placed (s : State) (h : Nat) : List Rec := s.recs.filter fun r => r.hearth == h && !r.held && !r.kept

section
variable (s : State) (k ctx : Nat) (cause : BitVec 16) (t : Trap) (cont : List (List Byte))

/-- The model's test of a record is `Rec.merges`. -/
theorem Rec.merges_iff (r : Rec) : (r.hearth == hearthOf k && !r.closed && !r.held && r.ctx == ctx && r.cause == cause &&
    r.addr.toNat / 65536 == t.addr.toNat / 65536 && !neverMerged t.code) = true ↔ r.merges k ctx cause t := by
  simp only [Bool.and_eq_true, beq_iff_eq, Bool.not_eq_true', Rec.merges, ← neverMerged_iff, Bool.not_eq_true, and_assoc]

theorem State.coalesce_merges {s : State} {l : List Rec} (hl : s.recs = l) (h : ∃ r ∈ l, r.merges k ctx cause t) (i : Nat) (r : Rec)
    (hr : l[i]? = some r) :
    (s.coalesce k ctx cause t cont).recs.length = l.length ∧
    (¬ r.merges k ctx cause t → (s.coalesce k ctx cause t cont).recs[i]? = some r) ∧
    (r.merges k ctx cause t → (s.coalesce k ctx cause t cont).recs[i]? = some (r.merged k t)) := by
  subst hl
  unfold State.coalesce
  dsimp only
  rw [if_pos (by simpa only [List.any_eq_true, Rec.merges_iff] using h)]
  dsimp only
  refine ⟨List.length_map .., fun hn => ?_, fun hm => ?_⟩
  · rw [List.getElem?_map, hr, Option.map_some, if_neg (by rwa [Rec.merges_iff])]
  · rw [List.getElem?_map, hr, Option.map_some, if_pos (by rwa [Rec.merges_iff])]
    rfl

theorem State.coalesce_opens {s : State} (h : ∀ r ∈ s.recs, ¬ r.merges k ctx cause t) :
    let full := decide (16 ≤ (s.placed (hearthOf k)).length)
    (s.coalesce k ctx cause t cont).recs =
      (if full then
          s.recs.map fun x => if (s.placed (hearthOf k)).find? (fun r : Rec => !r.closed) = some x then { x with closed := true } else x
        else s.recs) ++ [Rec.opens s k ctx cause t cont full] := by
  intro full
  unfold State.coalesce
  dsimp only
  rw [if_neg (by simpa only [List.any_eq_true, Rec.merges_iff, not_exists, not_and] using h)]
  change (match (if full then (s.placed (hearthOf k)).find? (fun r : Rec => !r.closed) else none) with
    | some old => ({ s with recs := s.recs.map (fun x => if x == old then { x with closed := true } else x) ++
        [Rec.opens s k ctx cause t cont full] } : State)
    | none => { s with recs := s.recs ++ [Rec.opens s k ctx cause t cont full] }).recs = _
  cases full with
  | false => rfl
  | true =>
    simp only [if_true]
    cases (s.placed (hearthOf k)).find? (fun r : Rec => !r.closed) with
    | none => simp only [reduceCtorEq, if_false, List.map_id']
    | some old => simp only [beq_iff_eq, Option.some.injEq, eq_comm (a := old)]

/-- The coalescer changes the records alone. -/
theorem State.coalesce_rest : ∃ l, s.coalesce k ctx cause t cont = { s with recs := l } := by
  unfold State.coalesce
  dsimp only
  split
  · exact ⟨_, rfl⟩
  · split <;> exact ⟨_, rfl⟩
end

/-! ### A trap that goes to the queue -/

/-- The machine with group k suspended on a trap that the coalescer is to have. -/
def State.suspended (s : State) (k : Nat) (g : Group) (t : Trap) : State := (s.gaveUp k g).setG k { g.landAll.quit with susp := some t }

theorem State.suspended_eq (s : State) (k : Nat) (g : Group) (t : Trap) : ∃ gs ws sv p hs,
    s.suspended k g t = { s with groups := gs, wgs := ws, served := sv, pend := p, homes := hs } := ⟨_, _, _, _, _, rfl⟩

theorem State.suspended_recs (s : State) (k : Nat) (g : Group) (t : Trap) : (s.suspended k g t).recs = s.recs := rfl

theorem takeTrap_queued {s : State} {k : Nat} {g : Group} {t : Trap} (hi : s.inFlight g.name = false) (ha : g.awaits = false)
    (hq : g.hnd.isSome ∨ toHandler (tabD s.ctxs g.ctx {}) t.code = false ∨
      s.handlerKern (k / 128 / 36) (tabD s.ctxs g.ctx {}) = none) :
    ∃ cont, takeTrap s k g t = (s.suspended k g t).coalesce k g.ctx
      (causeWord t g.hnd.isSome (g.hnd.isNone && toHandler (tabD s.ctxs g.ctx {}) t.code) false) t cont := by
  obtain ⟨v, a, b, l, hl⟩ := g.landAll_eq
  have hh : g.landAll.quit.hnd = g.hnd := by rw [hl]; rfl
  have hc : g.landAll.quit.ctx = g.ctx := by rw [hl]; rfl
  have hd : takeTrap s k g t = (s.gaveUp k g).escalate k g.landAll.quit t g.hnd.isSome
      (g.hnd.isNone && toHandler (tabD s.ctxs g.ctx {}) t.code) := by
    refine (takeTrap_delivers k t hi ha).trans ((State.deliverTrap_queued k ?_).trans ?_)
    · rw [hh, hc, State.handlerKern_congr (s := s) (t := s.gaveUp k g) rfl rfl]
      exact hq
    · rw [hh, hc]
      rfl
  obtain ⟨cont, hesc⟩ := (s.gaveUp k g).escalate_eq k hc t g.hnd.isSome (g.hnd.isNone && toHandler (tabD s.ctxs g.ctx {}) t.code)
  exact ⟨cont, hd.trans hesc⟩

theorem Group.landAll_quit_eq (g : Group) : g.landAll.quit = { g.landAll with
    sWait := false, launching := none, got := none, arrived := none,
    wgbars := if g.arrived = some false then g.wgbars - 1 else g.wgbars,
    gbars := if g.arrived = some true then g.gbars - 1 else g.gbars, yielded := none, raised := none } := by
  obtain ⟨v, a, b, l, hl⟩ := g.landAll_eq
  rw [hl]
  rfl

/-- A merged record has the group's slot besides, and the place of the lowest slot. -/
theorem Rec.merged_gslots (k : Nat) (t : Trap) (r : Rec) (j : Nat) (hj : j < 128) :
    (r.merged k t).gslots.getLsbD j = (r.gslots.getLsbD j || decide (j = k % 128)) := by
  have hs : (r.merged k t).gslots = setBit r.gslots (k % 128) true := by
    unfold merged
    dsimp only
    split <;> rfl
  rw [hs, getLsbD_setBit _ _ _ _ hj]
  by_cases h : j = k % 128 <;> simp [h]

theorem Rec.merged_lower {k : Nat} (t : Trap) {r : Rec} (h : k % 128 < r.low) : r.merged k t = { r with
    gslots := setBit r.gslots (k % 128) true, addr := t.addr, tmask := t.tmask, lpc := t.pc, size := t.size, stoker := t.stoker,
    low := k % 128 } := if_pos h

theorem Rec.merged_higher {k : Nat} (t : Trap) {r : Rec} (h : ¬ k % 128 < r.low) :
    r.merged k t = { r with gslots := setBit r.gslots (k % 128) true } := if_neg h

/-! ### Which causes run the handler (R257) -/

theorem toHandler_iff (c : Ctx) (code : Nat) : toHandler c code = true ↔ code = 0x04 ∨ code = 0x05 ∨
    (code ∉ [0x06, 0x0C, 0x0D, 0x0E, 0x0F, 0x16, 0x17, 0x18] ∧ c.hmask.getLsbD code = true) := by
  unfold toHandler fixedDelivery
  split <;> simp_all

end Sys2Proof.Machine

open Sys2Proof.Machine in
/-- Settles O30: the trap is delivered at once (`takeTrap_delivers`), to the queue (`State.deliverTrap_queued`), where `coalesce` either
opens a record or merges. -/
theorem escalation : Obligations.Escalation := by
  unfold Obligations.Escalation
  refine ⟨?_, toHandler_iff⟩
  intro s k g t c noh hi ha hq u h slot cause left hit mine old
  obtain ⟨cont, hu⟩ := takeTrap_queued hi ha hq
  change u = (s.suspended k g t).coalesce k g.ctx cause t cont at hu
  clear_value u
  have hgroups : u.groups = (s.suspended k g t).groups := hu ▸ State.coalesce_groups ..
  have hmerges := State.coalesce_merges k g.ctx cause t cont (s.suspended_recs k g t)
  refine ⟨?_, fun j hj => ?_, ?_, fun hn => ?_, fun he => ⟨?_, fun i r hr => ⟨fun hn => ?_, fun hm => ?_⟩⟩⟩
  · refine (congrArg (tabGet · k) hgroups).trans ((State.grp_setG_same _ k _).trans ?_)
    rw [Group.landAll_quit_eq]
  · exact (congrArg (tabGet · j) hgroups).trans ((s.gaveUp k g).grp_setG_other k j _ hj)
  · obtain ⟨l, hl⟩ := (s.suspended k g t).coalesce_rest k g.ctx cause t cont
    obtain ⟨gs, ws, sv, p, hs, hsus⟩ := s.suspended_eq k g t
    rw [hu, hl, hsus]
  · have ho := State.coalesce_opens k g.ctx cause t cont (s := s.suspended k g t) hn
    rw [← hu] at ho
    refine ⟨Rec.opens (s.suspended k g t) k g.ctx cause t cont (decide (16 ≤ mine.length)), ho.trans ?_, rfl, rfl, rfl, rfl, rfl,
      rfl, rfl, rfl, rfl, rfl, rfl, rfl, rfl, fun i hi => ?_⟩
    · simp only [decide_eq_true_eq]
      rfl
    · refine (getLsbD_setBit 0 slot i true hi).trans ?_
      simp
  · obtain ⟨r, hr, hm⟩ := he
    obtain ⟨i, hi⟩ := List.mem_iff_getElem?.1 hr
    rw [hu]
    exact (hmerges ⟨r, hr, hm⟩ i r hi).1
  · rw [hu]
    exact (hmerges he i r hr).2.1 hn
  · refine ⟨r.merged k t, ?_, r.merged_gslots k t, ?_⟩
    · rw [hu]
      exact (hmerges he i r hr).2.2 hm
    · split
      · next hl =>
        rw [Rec.merged_lower t hl]
        exact ⟨rfl, rfl, rfl, rfl, rfl, rfl, rfl⟩
      · next hl =>
        rw [Rec.merged_higher t hl]
end

section
/-! # What using a line does to memory (R313, R314, R317)

A line that enters L2 under a reserved metadata code is poisoned whole; nothing else that a use of a line does reaches memory. -/

namespace Sys2Proof.Machine

/-! ### A poisoned write -/

theorem mem_granules {pa n g : Nat} (hn : 0 < n) : g ∈ granules pa n ↔ pa / 32 ≤ g ∧ g ≤ (pa + n - 1) / 32 := by
  unfold granules
  rw [if_neg (by omega)]
  simp only [List.mem_map, List.mem_range]
  constructor
  · rintro ⟨i, hi, rfl⟩
    omega
  · rintro ⟨h1, h2⟩
    exact ⟨g - pa / 32, by omega, by omega⟩

theorem mem_addOnce {l : List Nat} {x y : Nat} : y ∈ addOnce l x ↔ y ∈ l ∨ y = x := by
  unfold addOnce
  split
  · next h =>
    have hx : x ∈ l := by simpa using h
    constructor
    · exact .inl
    · rintro (h' | rfl)
      · exact h'
      · exact hx
  · simp

theorem mem_foldl_addOnce {gs l : List Nat} {y : Nat} : y ∈ gs.foldl addOnce l ↔ y ∈ l ∨ y ∈ gs := by
  induction gs generalizing l with
  | nil => simp
  | cons g gs ih => rw [List.foldl_cons, ih, mem_addOnce, List.mem_cons, or_assoc]

/-- The bytes outside the granules that are filled read as before. -/
theorem memGet_fill_outside {m : List Host.Cell} (h : Memory.wf m = true) (gs : List Nat) {a : Nat} (ha : a / 32 ∉ gs) :
    memGet (gs.foldl (fun m g => memSetBytes m (32 * g) (List.replicate 32 0)) m) a = memGet m a := by
  induction gs generalizing m with
  | nil => rfl
  | cons g gs ih =>
    obtain ⟨hg, hgs⟩ : a / 32 ≠ g ∧ a / 32 ∉ gs := by simpa using ha
    rw [List.foldl_cons, ih (memSetBytes_wf h _ _) hgs]
    refine memGet_memSetBytes_outside h _ _ _ ?_
    rw [List.length_replicate]
    omega

/-- A poisoned write leaves every byte whose granule it does not touch. -/
theorem memGet_poke_poisoned {s : State} (h : s.Canon) {pa a : Nat} {data : List Byte}
    (ha : a / 32 < pa / 32 ∨ (pa + data.length - 1) / 32 < a / 32) : memGet (s.poke pa data true).mem a = memGet s.mem a := by
  refine memGet_fill_outside h _ fun hm => ?_
  rcases Nat.eq_zero_or_pos data.length with h0 | hl
  · rw [h0] at hm
    simp [granules] at hm
  · have := (mem_granules hl).1 hm
    omega

/-- The granules of a poisoned write are poisoned. -/
theorem poison_poke_poisoned (s : State) (pa : Nat) {data : List Byte} {i : Nat} (hi : i < data.length) :
    (s.poke pa data true).poison.contains ((pa + i) / 32) = true := by
  refine List.contains_iff_mem.2 (mem_foldl_addOnce.2 (.inr ((mem_granules (by omega)).2 ?_)))
  omega

/-! ### Lines that move -/

/-- Memory and poison are the same, and no line has got a reserved metadata code. -/
def State.SameStore (s t : State) : Prop :=
  t.mem = s.mem ∧ t.poison = s.poison ∧ ∀ n, 8 ≤ (tabD t.cells n 0).toNat → 8 ≤ (tabD s.cells n 0).toNat

theorem State.SameStore.refl (s : State) : s.SameStore s := ⟨rfl, rfl, fun _ h => h⟩

theorem State.SameStore.of_eq {s t : State} (hm : t.mem = s.mem) (hp : t.poison = s.poison) (hc : t.cells = s.cells) : s.SameStore t :=
  ⟨hm, hp, fun n h => by rwa [hc] at h⟩

theorem State.SameStore.trans {s t u : State} : s.SameStore t → t.SameStore u → s.SameStore u := by
  rintro ⟨hm, hp, hc⟩ ⟨hm', hp', hc'⟩
  exact ⟨hm'.trans hm, hp'.trans hp, fun n h => hc n (hc' n h)⟩

theorem lineCode_lt (b : List Byte) : lineCode b < 8 := by
  unfold lineCode
  dsimp only
  repeat' split
  all_goals omega

theorem State.returnLine_sameStore (s : State) (key : Nat) : s.SameStore (s.returnLine key) := by
  unfold State.returnLine
  split
  · exact .of_eq rfl rfl rfl
  · exact .refl s

theorem State.touchMeta_sameStore (s : State) (pa : Nat) (u : Nat × Nat) : s.SameStore (s.touchMeta pa u) := by
  unfold State.touchMeta
  split
  · exact .of_eq rfl rfl rfl
  · exact .refl s

/-- A line that leaves L2 has a code that is not reserved. -/
theorem State.lineOut_sameStore (s : State) (pa : Nat) : s.SameStore (s.lineOut pa) := by
  unfold State.lineOut
  split
  · exact .refl s
  · next l _ =>
    refine (s.returnLine_sameStore (physKey pa)).trans ((State.touchMeta_sameStore _ pa (l.at_ pa)).trans ?_)
    generalize State.touchMeta _ pa (l.at_ pa) = u
    dsimp only
    split
    · exact .of_eq rfl rfl rfl
    · refine ⟨rfl, rfl, fun n hn => ?_⟩
      generalize hcode : (if (!l.cmpr || (State.backingOf _ pa).isSome || State.poisoned _ pa 128) = true then 0 else _ : Nat) = code at hn
      have hlt : code < 8 := by
        rw [← hcode]
        split
        · omega
        · exact lineCode_lt _
      dsimp only at hn
      by_cases h : pa / 128 = n
      · subst h
        split at hn
        · simp [tabD, tabGet_tabDel] at hn
        · rw [tabD_tabSet_same, BitVec.toNat_ofNat] at hn
          omega
      · split at hn
        · rwa [tabD, tabGet_tabDel, if_neg h] at hn
        · rwa [tabD_tabSet, if_neg h] at hn

theorem State.takeBack_sameStore (s : State) (d key : Nat) : s.SameStore (s.takeBack d key) := by
  unfold State.takeBack
  dsimp only
  split
  · exact .of_eq rfl rfl rfl
  · exact .refl s

theorem State.l2Drop_sameStore (s : State) (o : L2Occ) : s.SameStore (s.l2Drop o) := by
  cases o with
  | line pa => exact s.lineOut_sameStore pa
  | sector n => exact .of_eq rfl rfl rfl
  | remote n =>
    unfold State.l2Drop State.dropRemote
    dsimp only
    split
    · exact (s.takeBack_sameStore (n % 4) (n / 4)).trans (.of_eq rfl rfl rfl)
    · exact .refl s
  | replica n => exact .of_eq rfl rfl rfl

theorem State.l2Fit_sameStore (s : State) (u : Nat × Nat) (set n fuel : Nat) : s.SameStore (s.l2Fit u set n fuel) := by
  induction fuel generalizing s with
  | zero => exact .refl s
  | succ fuel ih =>
    unfold State.l2Fit
    dsimp only
    split
    · exact .refl s
    · split
      · exact (s.l2Drop_sameStore _).trans (ih _)
      · exact .refl s

theorem State.cacheHalves_sameStore (s : State) (pa : Nat) : s.SameStore (s.cacheHalves pa) := by
  unfold State.cacheHalves
  refine List.foldlRecOn (motive := fun t : State => s.SameStore t) _ _ (.refl s) fun t ht i _ => ht.trans ?_
  dsimp only
  split
  · exact .of_eq rfl rfl rfl
  · exact .refl t

/-- Memory and poison are the same, but for a line that enters L2 under a reserved code, which is poisoned whole (R314). -/
def State.Used (s : State) (line : Nat) (t : State) : Prop :=
  ((tabD s.cells (line / 128) 0).toNat < 8 → t.mem = s.mem ∧ t.poison = s.poison) ∧
    (s.Canon → ∀ a, memGet t.mem a = memGet s.mem a ∨ (a / 128 = line / 128 ∧ 8 ≤ (tabD s.cells (line / 128) 0).toNat))

theorem State.SameStore.used {s t : State} (line : Nat) : s.SameStore t → s.Used line t := by
  rintro ⟨hm, hp, -⟩
  exact ⟨fun _ => ⟨hm, hp⟩, fun _ a => .inl (by rw [hm])⟩

theorem State.SameStore.trans_used {s t u : State} {line : Nat} : s.SameStore t → t.Used line u → s.Used line u := by
  rintro ⟨hm, hp, hc⟩ ⟨h1, h2⟩
  refine ⟨fun hlt => ?_, fun hs a => ?_⟩
  · rw [← hm, ← hp]
    exact h1 (Nat.lt_of_not_le fun h => absurd (hc _ h) (by omega))
  · rw [← hm]
    exact (h2 (by rwa [State.Canon, hm]) a).imp id (.imp id (hc _))

theorem State.bringIn_used (s : State) {pa : Nat} (ha : pa % 128 = 0) (l : L2Line) : s.Used pa (s.bringIn pa l) := by
  unfold State.bringIn
  refine ((s.l2Fit_sameStore (l.at_ pa) (l2Set pa) (s.l2Limit (l.at_ pa).1 (l2Set pa) - 1) 16).trans
    (State.touchMeta_sameStore _ pa (l.at_ pa))).trans_used ?_
  unfold State.l2Room
  generalize State.touchMeta _ pa (l.at_ pa) = u
  dsimp only
  refine State.SameStore.trans_used (t := { u with l2 := tabSet u.l2 pa l }) (.of_eq rfl rfl rfl) ?_
  split
  · next h =>
    refine ⟨fun hlt => absurd h (by simpa using hlt), fun hs a => ?_⟩
    by_cases hl : a / 128 = pa / 128
    · exact .inr ⟨hl, h⟩
    · refine .inl (memGet_poke_poisoned hs ?_)
      rw [List.length_replicate]
      omega
  · exact (State.SameStore.refl _).used pa

theorem State.useLine_used (s : State) {pa : Nat} (ha : pa % 128 = 0) (dirty cmpr : Bool) (place : Option (Nat × Nat)) :
    s.Used pa (s.useLine pa dirty cmpr place) := by
  unfold State.useLine
  split
  · exact (State.SameStore.refl s).used pa
  · refine State.SameStore.trans_used (t := if isHost pa then s.cacheHalves pa else s)
      (by split; exacts [s.cacheHalves_sameStore pa, .refl s]) ?_
    generalize (if isHost pa = true then s.cacheHalves pa else s) = u
    dsimp only
    split
    · split
      · exact (u.lineOut_sameStore pa).trans_used (State.bringIn_used _ ha _)
      · split
        · exact (State.SameStore.refl u).used pa
        · exact State.SameStore.used pa (.of_eq rfl rfl rfl)
    · exact u.bringIn_used ha _

/-- A home line used. -/
theorem State.touchL2_used (s : State) (pa : Nat) (dirty cmpr : Bool) :
    s.Used (pa / 128 * 128) (s.touchL2 (physKey pa) dirty cmpr) := by
  unfold State.touchL2
  rw [isCodecKey_physKey, keyPa_physKey]
  exact s.useLine_used (by omega) dirty cmpr none

end Sys2Proof.Machine
end

section
/-! # Writes and atomics of a group on their way (R98, R228, R233, R242)

An access that passed its checks finds its translation cached, so that it changes no more than a D bit as it gathers; then it is sent, or in a
line lent to the hearth performed at once. -/

namespace Sys2Proof.Machine

/-! ### A translation that is cached -/

/-- The first-level translation cache of hearth h covers an address. -/
def State.Cached (s : State) (h ctx : Nat) (va : W64) : Prop := ∃ e ∈ s.tlb, e.last = false ∧ e.unit = h ∧ e.covers ctx va = true

theorem State.mem_tlbFill (s : State) (e : Tlb) : e ∈ (s.tlbFill e).tlb := by
  unfold State.tlbFill
  dsimp only
  have hm : ∀ l : List Tlb, e ∈ l ++ [e] := fun l => List.mem_append_right l (List.mem_singleton.2 rfl)
  generalize (if e.last = true then 12 else 8) = ways
  split
  · exact hm _
  · split
    · exact hm _
    · exact hm _

section
variable {s s1 : State} {h ctx k : Nat} {va : W64}

theorem State.cached_of_found {p : Tlb → Bool} {e : Tlb} (hf : s.tlb.find? p = some e) : e ∈ s.tlb ∧ p e = true :=
  ⟨List.mem_of_find?_eq_some hf, List.find?_some hf⟩

/-- A translation leaves itself in the first-level cache. -/
theorem State.cached_of_translate {t : Tr} (ht : s.translate h ctx va = (s1, .ok t)) : s1.Cached h ctx va := by
  unfold State.translate at ht
  dsimp only at ht
  split at ht
  · next e he =>
    obtain ⟨hm, hp⟩ := State.cached_of_found he
    obtain ⟨rfl, -⟩ := Prod.mk.inj ht
    exact ⟨e, hm, by simpa [and_assoc] using hp⟩
  · split at ht
    · next e he =>
      obtain ⟨-, hp⟩ := State.cached_of_found he
      obtain ⟨rfl, -⟩ := Prod.mk.inj ht
      exact ⟨_, State.mem_tlbFill _ _, rfl, rfl, (Bool.and_eq_true_iff.1 hp).2⟩
    · split at ht
      · obtain ⟨rfl, -⟩ := Prod.mk.inj ht
        exact ⟨_, State.mem_tlbFill _ _, rfl, rfl, by rw [Tlb.covers, BEq.rfl, BEq.rfl]; rfl⟩
      · cases (Prod.mk.inj ht).2
      · cases (Prod.mk.inj ht).2
      · cases (Prod.mk.inj ht).2

theorem State.translate_cached (hc : s.Cached h ctx va) : (s.translate h ctx va).1 = s := by
  obtain ⟨e, he, h1, h2, h3⟩ := hc
  unfold State.translate
  dsimp only
  split
  · rfl
  · next hn => exact absurd (List.find?_eq_none.1 hn e he) (by simp [h1, h2, h3])

/-- An access that passed its checks has its translation cached. -/
theorem State.cached_of_chkScalar {g : Group} {a : AccK} {size : Nat} {t : Tr} (hk : s.chkScalar k g a va size = (s1, .ok t)) :
    s1.Cached (hearthOf k) g.ctx va := by
  unfold State.chkScalar State.chkTlb at hk
  split at hk
  · cases hk
  · split at hk
    · split at hk
      · next ht =>
        obtain ⟨rfl, -⟩ := Prod.mk.inj hk
        exact State.cached_of_translate ht
      · cases hk
      · cases hk
    · cases hk

theorem State.gatherD_cached (hc : s.Cached h ctx va) : ∃ l, s.gatherD h ctx va = { s with tlb := l } := by
  unfold State.gatherD
  rw [State.translate_cached hc]
  exact ⟨_, rfl⟩
end

/-! ### Sent, or performed at once -/

/-- The machine with group k as given, but for D bits, tags of L1 and rows being formed, and identifiers used. -/
def State.Issuing (s : State) (k : Nat) (g' : Group) (v : State) : Prop :=
  ∃ l l1 pr n, v = { s.setG k g' with tlb := l, l1 := l1, projs := pr, nextId := n }

/-- What an access on its way says of itself. -/
def Pend.IsOf (p : Pend) (id key : Nat) (h ctx : Nat) (name : Nat × Nat) (acq : Bool) (kind : PKind) : Prop :=
  p.id = id ∧ p.key = key ∧ p.hearth = h ∧ p.ctx = ctx ∧ p.owner = some name ∧ p.blk = 0 ∧ p.arrived = false ∧
    p.acq = acq ∧ p.kind = kind

/-- The access of a group on its way as the machine s issues it. -/
def State.wayOf (s : State) (h ctx : Nat) (name : Nat × Nat) (va : W64) (key : Nat) (acq : Bool) (kind : PKind) : Pend :=
  { id := s.nextId, key := key, ctx := ctx, owner := some name, arrived := false, issued := s.clk, va := va, blk := 0, acq := acq,
    cmpr := s.pageCmpr h ctx va, kind := kind, hearth := h }

theorem State.wayOf_isOf (s : State) (h ctx : Nat) (name : Nat × Nat) (va : W64) (key : Nat) (acq : Bool) (kind : PKind) :
    (s.wayOf h ctx name va key acq kind).IsOf s.nextId key h ctx name acq kind := ⟨rfl, rfl, rfl, rfl, rfl, rfl, rfl, rfl, rfl⟩

theorem State.dropOwn_eq (s : State) (h key : Nat) : ∃ l1 pr, s.dropOwn h key = { s with l1 := l1, projs := pr } := ⟨_, _, rfl⟩

theorem State.writeLent_eq (s : State) (h key : Nat) : ∃ l1, s.writeLent h key = { s with l1 := l1 } := by
  unfold State.writeLent
  split
  · exact ⟨_, rfl⟩
  · exact ⟨_, rfl⟩

section
variable {s : State} {h key : Nat} (ctx : Nat) (name : Nat × Nat) (va : W64) (acq : Bool) (kind : PKind)

theorem State.issueWrite_away (hl : s.lentTo h key = false) : ∃ l1 pr, s.issueWrite h ctx (some name) va key 0 acq kind =
    { s with l1 := l1, projs := pr, nextId := s.nextId + 1, pend := s.pend ++ [s.wayOf h ctx name va key acq kind] } := by
  have hn : s.newId.lentTo h key = false := hl
  obtain ⟨l1, pr, hd⟩ := s.newId.dropOwn_eq h key
  unfold State.issueWrite
  simp only [hn, Bool.false_eq_true, if_false, Option.isSome_some, if_true, hd]
  exact ⟨l1, pr, rfl⟩

theorem State.issueWrite_here (hl : s.lentTo h key = true) : ∃ l1 pr l1', s.issueWrite h ctx (some name) va key 0 acq kind =
    { State.perform { s with l1 := l1, projs := pr, nextId := s.nextId + 1 } (s.wayOf h ctx name va key acq kind) with l1 := l1' } := by
  have hn : s.newId.lentTo h key = true := hl
  obtain ⟨l1', hw⟩ := State.writeLent_eq ((s.newId.killViews h key).perform (s.wayOf h ctx name va key acq kind)) h key
  unfold State.issueWrite
  dsimp only
  rw [if_pos hn]
  exact ⟨_, _, l1', hw⟩
end

section
variable {s : State} {k h ctx : Nat} {va : W64} (hc : s.Cached h ctx va) (g' : Group) (name : Nat × Nat) (key : Nat) (acq : Bool)
  (kind : PKind)
include hc

/-- The access sent towards its home. -/
theorem State.issueWrite_sent (hl : s.lentTo h key = false) : ∃ v q, s.Issuing k g' v ∧ q.IsOf s.nextId key h ctx name acq kind ∧
    ((s.setG k g').gatherD h ctx va).issueWrite h ctx (some name) va key 0 acq kind = { v with pend := s.pend ++ [q] } := by
  obtain ⟨l, hg⟩ := State.gatherD_cached (s := s.setG k g') hc
  rw [hg]
  obtain ⟨l1, pr, he⟩ := State.issueWrite_away (s := { s.setG k g' with tlb := l }) ctx name va acq kind hl
  rw [he]
  exact ⟨{ s.setG k g' with tlb := l, l1 := l1, projs := pr, nextId := s.nextId + 1 }, _, ⟨l, l1, pr, _, rfl⟩,
    State.wayOf_isOf { s.setG k g' with tlb := l } .., rfl⟩

/-- The access performed in the line that is lent to its hearth. -/
theorem State.issueWrite_lent (hl : s.lentTo h key = true) : ∃ v q l1, s.Issuing k g' v ∧ q.IsOf s.nextId key h ctx name acq kind ∧
    ((s.setG k g').gatherD h ctx va).issueWrite h ctx (some name) va key 0 acq kind = { v.perform q with l1 := l1 } := by
  obtain ⟨l, hg⟩ := State.gatherD_cached (s := s.setG k g') hc
  rw [hg]
  obtain ⟨l1, pr, l1', he⟩ := State.issueWrite_here (s := { s.setG k g' with tlb := l }) ctx name va acq kind hl
  rw [he]
  exact ⟨{ s.setG k g' with tlb := l, l1 := l1, projs := pr, nextId := s.nextId + 1 }, _, l1', ⟨l, l1, pr, _, rfl⟩,
    State.wayOf_isOf { s.setG k g' with tlb := l } .., rfl⟩
end

/-! ### What is performed -/

theorem State.traceDatum_eq (s : State) (die pa : Nat) (data : List Byte) : ∃ r, s.traceDatum die pa data = { s with recd := r } := by
  have ht : ∀ (ctx ty : Nat) (b : List Byte), ∃ r, s.trace ctx ty die b = { s with recd := r } := fun ctx ty b => by
    unfold State.trace
    split
    · exact ⟨_, rfl⟩
    · exact ⟨s.recd, rfl⟩
  unfold State.traceDatum
  dsimp only
  obtain ⟨r, hr⟩ := ht s.recd.ctx 2 (datumHead pa data)
  rw [hr]
  split
  · exact ⟨_, rfl⟩
  · exact ⟨s.recd, rfl⟩

section
variable {v : State} {q : Pend} {name : Nat × Nat} (ho : q.owner = some name) {pa : Nat}
include ho

theorem State.perform_store {data : List Byte} {pz : Bool} (hk : q.kind = .store pa data pz) :
    ∃ c, v.perform q = (v.touchL2 q.key true c).poke pa data pz := by
  unfold State.perform
  rw [hk, ho]
  exact ⟨_, rfl⟩

/-- The record of a run apart, an atomic of a context that is not recorded is its line used and `doAtomic`. -/
theorem State.perform_atomic {w op ty : Nat} {x cmp : W64} {d : Dst} (hk : q.kind = .atomic pa w op ty x cmp d)
    (hr : v.recording q.ctx = false) :
    ∃ c r, v.perform q = { (v.touchL2 q.key true c).doAtomic (some name) pa w op ty x cmp d with recd := r } := by
  have hl : ∀ c, (v.touchL2 q.key true c).oldLogged q pa w d = (v.touchL2 q.key true c, none) := fun c => by
    have hr' : (v.touchL2 q.key true c).recording q.ctx = false := by
      unfold State.recording
      rw [(v.touchL2_only q.key true c).recd]
      exact hr
    unfold State.oldLogged
    rw [hr', Bool.not_false, Bool.or_true, if_pos rfl]
  have hn : (q.owner.isNone && q.blk != 0) = false := by rw [ho]; rfl
  unfold State.perform
  simp only [hk, hn, Bool.false_eq_true, if_false, hl]
  rw [ho]
  split
  · obtain ⟨r, hr⟩ := State.traceDatum_eq ((v.touchL2 q.key true (v.pendCmpr q)).doAtomic (some name) pa w op ty x cmp d)
      (homeOf q.key).1 pa (((v.touchL2 q.key true (v.pendCmpr q)).doAtomic (some name) pa w op ty x cmp d).peek pa w)
    exact ⟨v.pendCmpr q, r, hr⟩
  · exact ⟨v.pendCmpr q, ((v.touchL2 q.key true (v.pendCmpr q)).doAtomic (some name) pa w op ty x cmp d).recd, rfl⟩
end

section
variable {s v : State} {k : Nat} {g' : Group} (hv : s.Issuing k g' v) {q : Pend} {h ctx pa : Nat} {name : Nat × Nat} {acq : Bool}
include hv

/-- A store performed in a line lent to its hearth. -/
theorem State.Issuing.store (hs : s.Canon) {data : List Byte} {pz : Bool}
    (hq : q.IsOf s.nextId (physKey pa) h ctx name acq (.store pa data pz)) :
    s.wroteHere (v.perform q) pa data pz ∧ (v.perform q).groups = (s.setG k g').groups := by
  obtain ⟨l, l1, pr, n, rfl⟩ := hv
  obtain ⟨-, hkey, -, -, ho, -, -, -, hk⟩ := hq
  obtain ⟨c, hp⟩ := State.perform_store (v := { s.setG k g' with tlb := l, l1 := l1, projs := pr, nextId := n }) ho hk
  rw [hp, hkey]
  generalize hu : ({ s.setG k g' with tlb := l, l1 := l1, projs := pr, nextId := n } : State) = u
  have hus : u.Canon := hu ▸ hs
  have hmem : u.mem = s.mem := hu ▸ rfl
  have hcells : u.cells = s.cells := hu ▸ rfl
  have hpend : u.pend = s.pend := hu ▸ rfl
  have hgroups : u.groups = (s.setG k g').groups := hu ▸ rfl
  have honly := (u.touchL2_only (physKey pa) true c).trans (State.poke_only _ pa data pz)
  have hused := u.touchL2_used pa true c
  have hcanon := State.touchL2_wf hus (physKey pa) true c
  refine ⟨⟨(congrArg State.pend honly).trans hpend, ?_, ?_, ?_⟩, honly.groups.trans hgroups⟩
  · rintro rfl i hi
    rw [memGet_poke hcanon, if_pos (by omega), Nat.add_sub_cancel_left]
  · rintro rfl i hi
    exact poison_poke_poisoned _ pa hi
  · intro a ha
    have htouch := hused.2 hus a
    rw [show pa / 128 * 128 / 128 = pa / 128 by omega, hmem, hcells] at htouch
    cases pz with
    | false =>
      rw [memGet_poke hcanon, if_neg (by simp at ha; omega)]
      exact htouch
    | true =>
      rw [memGet_poke_poisoned hcanon (by simpa using ha)]
      exact htouch
end

/-- The bytes an atomic leaves at its place: the new value's, or the old ones. -/
theorem State.wroteHere_pokeNat {s u : State} (hpend : u.pend = s.pend) (hmem : u.mem = s.mem) (hs : s.Canon) (pa size : Nat)
    (new : Option Nat) : s.wroteHere (match new with | some x => u.pokeNat pa size x | none => u) pa
      (leBytes size (new.getD (s.peekNat pa size))) false := by
  have hu : u.Canon := by rwa [State.Canon, hmem]
  cases new with
  | none =>
    refine ⟨hpend, fun _ i hi => ?_, fun h => (Bool.false_ne_true h).elim, fun a _ => .inl (by rw [hmem])⟩
    rw [Option.getD_none] at hi ⊢
    rw [hmem, List.getD_eq_getElem _ _ hi, getElem_leBytes, byte_peekNat]
    rwa [length_leBytes] at hi
  | some x =>
    refine ⟨(congrArg State.pend (u.poke_only pa (leBytes size x) false)).trans hpend, fun _ i hi => ?_,
      fun h => (Bool.false_ne_true h).elim, fun a ha => .inl ?_⟩
    · exact (memGet_poke hu _ _ _).trans (by rw [if_pos (by simp at hi ⊢; omega), Nat.add_sub_cancel_left]; rfl)
    · refine (memGet_poke hu _ _ _).trans ?_
      rw [if_neg (by simp at ha ⊢; omega), hmem]

/-- An atomic performed in a line lent to its hearth, on unpoisoned bytes: memory has the new value, and the old one is delivered. -/
theorem State.Issuing.atomic {s v : State} {k : Nat} {g' : Group} (hv : s.Issuing k g' v) (hs : s.Canon) {q : Pend}
    {h ctx pa size op ty : Nat} {name : Nat × Nat} {acq : Bool} {x cmp : W64} {d : Dst} (hr : s.recording ctx = false) (hpz : s.poisoned pa size = false)
    (hcode : (tabD s.cells (pa / 128) 0).toNat < 8)
    (hq : q.IsOf s.nextId (physKey pa) h ctx name acq (.atomic pa size op ty x cmp d)) :
    ∃ t r, v.perform q = { t.deliver (some name) d size (s.peekNat pa size) false with recd := r } ∧
      t.groups = (s.setG k g').groups ∧
      s.wroteHere t pa (leBytes size ((atomicNew op ty size (s.peekNat pa size) x.toNat cmp.toNat).getD (s.peekNat pa size))) false := by
  obtain ⟨l, l1, pr, n, rfl⟩ := hv
  obtain ⟨-, hkey, -, hctx, ho, -, -, -, hk⟩ := hq
  obtain ⟨c, r, hp⟩ := State.perform_atomic (v := { s.setG k g' with tlb := l, l1 := l1, projs := pr, nextId := n }) ho hk
    (by rw [hctx]; exact hr)
  rw [hp, hkey]
  generalize hu : ({ s.setG k g' with tlb := l, l1 := l1, projs := pr, nextId := n } : State) = u
  have hmem : u.mem = s.mem := hu ▸ rfl
  have hpoison : u.poison = s.poison := hu ▸ rfl
  have hcells : u.cells = s.cells := hu ▸ rfl
  have hpend : u.pend = s.pend := hu ▸ rfl
  have hgroups : u.groups = (s.setG k g').groups := hu ▸ rfl
  have honly := u.touchL2_only (physKey pa) true c
  obtain ⟨htm, htp⟩ := (u.touchL2_used pa true c).1 (by rwa [show pa / 128 * 128 / 128 = pa / 128 by omega, hcells])
  generalize u.touchL2 (physKey pa) true c = t at *
  have hold : t.peekNat pa size = s.peekNat pa size := by
    unfold State.peekNat State.peek
    rw [htm, hmem]
  have hun : t.poisoned pa size = false := by
    unfold State.poisoned at *
    rwa [htp, hpoison]
  refine ⟨_, r, ?_, ?_, State.wroteHere_pokeNat (u := t) ((congrArg State.pend honly).trans hpend) (htm.trans hmem) hs pa size _⟩
  · unfold State.doAtomic
    rw [if_neg (ne_true_of_eq_false hun)]
    dsimp only
    rw [hold] <;> rfl
  · split
    · exact (State.poke_only _ _ _ _).groups.trans (honly.groups.trans hgroups)
    · exact honly.groups.trans hgroups

theorem State.keyOf_setG {s : State} {k : Nat} {g' : Group} {n : Nat × Nat} (hn : s.keyOf n = some k) (hg : g'.name = n) :
    (s.setG k g').keyOf n = some k := by
  unfold State.keyOf State.setG at *
  dsimp only
  generalize s.groups = l at hn
  induction l with
  | nil => cases hn
  | cons p l ih =>
    obtain ⟨m, y⟩ := p
    unfold tabSet
    by_cases hy : y.name = n
    · have hm : m = k := by simpa [hy] using hn
      simp [hm, hg]
    · have hl : (List.find? (fun p => p.2.name == n) l).map (·.1) = some k := by simpa [hy] using hn
      split
      · simp [hg]
      · split
        · simp [hg]
        · simpa [hy] using ih hl

end Sys2Proof.Machine
end

section
/-! # Scalar stores and atomics (O10, O11) -/

namespace Sys2Proof.Machine

/-! ### Stores -/

theorem leBytes_eq_extract (size : Nat) (x : W64) : (List.range size).map (fun i => x.extractLsb' (8 * i) 8) = leBytes size x.toNat := by
  refine List.ext_getElem (by simp [length_leBytes]) fun i _ _ => ?_
  rw [List.getElem_map, List.getElem_range, extractLsb'_eq_byte, getElem_leBytes]

/-- An access at group scope waits for nothing. -/
theorem State.stokerPending_zero (s : State) (n : Nat × Nat) : s.stokerPending n 0 = false := by
  simp [State.stokerPending, Pend.heldBy]

section
variable {s s1 : State} {k : Nat} {g : Group} {sd sa : BitVec 6} {off : W64} {size scope len : Nat} (h : s.stokerAt k g)
include h

theorem storeS_poison (hp : (g.sGet sa.toNat).pz = true) :
    storeS s sd sa off size scope len = .next (s.trapS k g (trapPoison ((g.sGet sa.toNat).val + off) size true) len) := by
  unfold storeS
  rw [onStoker_next h.1 h.2]
  simp only [hp, if_true]

variable (hp : (g.sGet sa.toNat).pz = false)
include hp

theorem storeS_thaws (hc : s.chkScalar k g (accStore (size == 8)) ((g.sGet sa.toNat).val + off) size = (s1, .wait)) :
    storeS s sd sa off size scope len = .next (s1.waitS k) := by
  unfold storeS
  rw [onStoker_next h.1 h.2]
  simp only [hp, hc, Bool.false_eq_true, if_false]

variable {t : Tr} (hc : s.chkScalar k g (accStore (size == 8)) ((g.sGet sa.toNat).val + off) size = (s1, .ok t))
include hc

theorem storeS_releases (hw : s1.stokerPending g.name scope = true) : storeS s sd sa off size scope len = .next (s1.waitS k) := by
  unfold storeS
  rw [onStoker_next h.1 h.2]
  simp only [hp, hc, hw, Bool.false_eq_true, if_false, if_true]

variable (hw : s1.stokerPending g.name scope = false)
include hw

/-- A store that goes on is its translation's use of the D bit and `issueWrite`. -/
theorem storeS_issues : storeS s sd sa off size scope len = .next (
    ((s1.setG k (g.adv len)).gatherD (hearthOf k) g.ctx ((g.sGet sa.toNat).val + off)).issueWrite (hearthOf k) g.ctx (some g.name)
      ((g.sGet sa.toNat).val + off) (s1.keyOfTr (tabD s1.ctxs g.ctx {}) t) 0 false
      (match t.creg with
        | some r => .codecStore g.ctx r ((enumFrom t.pa (leBytes size (g.sGet sd.toNat).val.toNat)).map fun x =>
            (x.1, x.2, (g.sGet sd.toNat).pz))
        | none => .store t.pa (leBytes size (g.sGet sd.toNat).val.toNat) (g.sGet sd.toNat).pz)) := by
  refine (storeS_next h hp hc hw).trans (congrArg Host.Outcome.next ?_)
  unfold State.storeAt
  have hcached : s1.Cached (hearthOf k) g.ctx ((g.sGet sa.toNat).val + off) := State.cached_of_chkScalar hc
  obtain ⟨l, hg⟩ := State.gatherD_cached (s := s1.setG k (g.adv len)) hcached
  dsimp only
  rw [hg]
  rfl
end

/-! ### Atomics -/

section
variable {s s1 : State} {k : Nat} {g : Group} {w : BitVec 1} {sd sa sb : BitVec 6} {op : Nat} {signed : Bool} {ar : Option Nat}
  (h : s.stokerAt k g)
include h

theorem atomicS_poison (hbad : (g.sGet sa.toNat).pz = true ∨ (g.sGet sb.toNat).pz = true ∨ (op = 7 ∧ (g.sGet sd.toNat).pz = true)) :
    atomicS s w sd sa sb op signed ar = .next (s.trapS k g (trapPoison (g.sGet sa.toNat).val (atomicSize w) true true)) := by
  unfold atomicS
  rw [onStoker_next h.1 h.2]
  exact congrArg _ (if_pos (by simpa [or_assoc] using hbad))

variable (ha : (g.sGet sa.toNat).pz = false) (hb : (g.sGet sb.toNat).pz = false) (hd : op = 7 → (g.sGet sd.toNat).pz = false)
include ha hb hd

theorem atomicS_thaws
    (hc : s.chkScalar k g (accAtomic false (pcieAtomic op (atomicTy w signed))) (g.sGet sa.toNat).val (atomicSize w) = (s1, .wait)) :
    atomicS s w sd sa sb op signed ar = .next (s1.waitS k) := by
  unfold atomicS
  rw [onStoker_next h.1 h.2]
  simp only [ha, hb, not_poisoned_comparand hd, Bool.or_self, Bool.false_eq_true, if_false, hc]

variable {t : Tr}
  (hc : s.chkScalar k g (accAtomic false (pcieAtomic op (atomicTy w signed))) (g.sGet sa.toNat).val (atomicSize w) = (s1, .ok t))
include hc

theorem atomicS_waits (hw : s1.stokerPending g.name (ar.getD 0) = true ∨ (ar.getD 0 ≠ 0 ∧ s1.stokerReading g.name = true)) :
    atomicS s w sd sa sb op signed ar = .next (s1.waitS k) := by
  unfold atomicS
  rw [onStoker_next h.1 h.2]
  simp only [ha, hb, not_poisoned_comparand hd, Bool.or_self, Bool.false_eq_true, if_false, hc]
  exact congrArg _ (if_pos (by simpa using hw))

/-- The group as its atomic leaves it, the result pending. -/
def Group.asked (g : Group) (sd : BitVec 6) : Group :=
  { g with spc := g.spc + 4, sPend := if sd = 0 then g.sPend else g.sPend ++ [sd.toNat] }

/-- An atomic that goes on is its translation's use of the D bit and `issueWrite`. -/
theorem atomicS_issues (hw : ¬ (s1.stokerPending g.name (ar.getD 0) = true ∨ (ar.getD 0 ≠ 0 ∧ s1.stokerReading g.name = true))) :
    atomicS s w sd sa sb op signed ar = .next (
      ((s1.setG k (g.asked sd)).gatherD (hearthOf k) g.ctx (g.sGet sa.toNat).val).issueWrite (hearthOf k) g.ctx (some g.name)
        (g.sGet sa.toNat).val (s1.keyOfTr (tabD s1.ctxs g.ctx {}) t) 0 (decide (ar.getD 0 ≠ 0))
        (.atomic t.pa (atomicSize w) op (atomicTy w signed) (g.sGet sb.toNat).val (g.sGet sd.toNat).val
          (if sd = 0 then .none else .scalar sd.toNat (signed && w == 0)))) := by
  have hcached : s1.Cached (hearthOf k) g.ctx (g.sGet sa.toNat).val := State.cached_of_chkScalar hc
  obtain ⟨l, hg⟩ := State.gatherD_cached (s := s1.setG k (g.asked sd)) hcached
  have hord : (ar.getD 0 != 0) = decide (ar.getD 0 ≠ 0) := by simp [bne, beq_eq_decide]
  unfold atomicS
  rw [onStoker_next h.1 h.2]
  simp only [ha, hb, not_poisoned_comparand hd, Bool.or_self, Bool.false_eq_true, if_false, hc]
  refine congrArg _ ((if_neg (by simpa using hw)).trans ?_)
  rw [hord]
  have hga : ({ g with sPend := if sd = 0 then g.sPend else g.sPend ++ [sd.toNat] } : Group).adv 4 = g.asked sd := rfl
  rw [hga, hg]
  rfl
end

/-- The old value of a word of 32 bits is extended by its sign where the operation is signed (R102). -/
theorem atomic_old_value (w : BitVec 1) (signed : Bool) (old : Nat) :
    (if signed && w == 0 then (BitVec.ofNat (8 * atomicSize w) old).signExtend 64 else BitVec.ofNat 64 old) =
      if signed ∧ w = 0 then (BitVec.ofNat 32 old).signExtend 64 else BitVec.ofNat 64 old := by
  by_cases hw : w = 0
  · subst hw
    cases signed <;> rfl
  · have hw' : w ≠ 0#1 := hw
    simp [hw']

/-- The group with an atomic's old value brought to its register. -/
def Group.brought (g : Group) (sd : BitVec 6) (x : SReg) : Group :=
  if sd = 0 then g else { g.sSet sd.toNat x with sPend := removeOne g.sPend sd.toNat }

/-- A scalar result comes to the group of that name, which is in no handler. -/
theorem State.deliver_scalar {s t : State} {k : Nat} {g' : Group} (hgroups : t.groups = (s.setG k g').groups)
    (hkey : s.keyOf g'.name = some k) (hn : g'.hnd = none) (sd : BitVec 6) (signed : Bool) (w old : Nat) :
    ∃ l, t.deliver (some g'.name) (if sd = 0 then .none else .scalar sd.toNat signed) w old false = { t with groups := l } ∧
      tabGet l k = some (g'.brought sd ⟨if signed then (BitVec.ofNat (8 * w) old).signExtend 64 else BitVec.ofNat 64 old, false⟩) ∧
      ∀ j, j ≠ k → tabGet l j = s.grp j := by
  have hgrp : tabGet t.groups k = some g' := (congrArg (tabGet · k) hgroups).trans (s.grp_setG_same k g')
  have hother : ∀ j, j ≠ k → tabGet t.groups j = s.grp j := fun j hj =>
    (congrArg (tabGet · j) hgroups).trans (s.grp_setG_other k j g' hj)
  unfold Group.brought
  by_cases hz : sd = 0
  · rw [if_pos hz, if_pos hz]
    exact ⟨t.groups, rfl, hgrp, hother⟩
  · have hk : t.keyOf g'.name = some k := by
      unfold State.keyOf
      rw [hgroups]
      exact State.keyOf_setG hkey rfl
    rw [if_neg hz, if_neg hz]
    unfold State.deliver State.modOwner
    dsimp only
    rw [hk]
    refine ⟨_, rfl, ?_, fun j hj => ?_⟩
    · rw [tabMod_some _ _ _ _ hgrp, tabGet_tabSet_same]
      unfold Group.deliverS
      rw [hn]
    · rw [tabMod_some _ _ _ _ hgrp, tabGet_tabSet_other _ _ _ _ hj.symm]
      exact hother j hj

/-- The register of an atomic has the old value, and no result of it is pending any more but those before it. -/
theorem Group.sGet_brought (g : Group) (sd : BitVec 6) (x : SReg) (n : Nat) :
    (g.brought sd x).sGet n = if n = sd.toNat ∧ n ≠ 0 then x else g.sGet n := by
  unfold brought
  by_cases hz : sd = 0
  · subst hz
    simp
  · rw [if_neg hz]
    exact g.sGet_sSet sd.toNat n x

theorem Group.brought_rest (g : Group) (sd : BitVec 6) (x : SReg) : ∃ r l, g.brought sd x = { g with s := r, sPend := l } := by
  unfold brought sSet
  split
  · exact ⟨g.s, g.sPend, rfl⟩
  · split
    · exact ⟨g.s, _, rfl⟩
    · exact ⟨_, _, rfl⟩

end Sys2Proof.Machine

namespace Sys2Proof

open Machine in
/-- Settles O10: a store that goes on is sent (`State.issueWrite_sent`), or performed at once in a lent line (`State.Issuing.store`). -/
theorem scalarStores : Obligations.ScalarStores := by
  unfold Obligations.ScalarStores
  intro s s1 k g sd sa imm v scope t tr h p hp va size data key chk
  have hexec := exec_scalarStores s sd sa imm v scope p hp
  have hdata : data = leBytes size (g.sGet sd.toNat).val.toNat := leBytes_eq_extract _ _
  refine ⟨fun ha => hexec.trans (storeS_poison h ha), fun ha => ⟨fun hc => hexec.trans (storeS_thaws h ha hc), fun hc hw hl => ?_,
    fun hc hw hl hcreg hs => ?_, fun hc hw => hexec.trans (storeS_releases h ha hc hw), fun h0 => ?_,
    fun hc => storeS_trapsS h hexec ha hc⟩⟩
  · obtain ⟨u, q, ⟨l, l1, pr, n, rfl⟩, ⟨hid, hkey, -, -, ho, hb, har, -, hk⟩, he⟩ :=
      State.issueWrite_sent (State.cached_of_chkScalar hc) (g.adv p.2.2.2.2) g.name key false _ hl
    refine ⟨_, q, hexec.trans ((storeS_issues h ha hc hw).trans (congrArg _ he)), s1.grp_setG_same k _,
      fun j hj => s1.grp_setG_other k j _ hj, ⟨rfl, fun a => rfl⟩, hid, hkey, ho, hb, har, ?_⟩
    rw [hk, hdata] <;> rfl
  · have hkey : key = physKey t.pa := by simp only [key, State.keyOfTr, hcreg]
    obtain ⟨u, q, l1, hv, hq, he⟩ :=
      State.issueWrite_lent (State.cached_of_chkScalar hc) (g.adv p.2.2.2.2) g.name key false _ hl
    rw [hkey] at hq
    obtain ⟨hwrote, hgroups⟩ := hv.store hs hq
    have hi := storeS_issues (sd := sd) (len := p.2.2.2.2) h ha hc hw
    simp only [hcreg] at hi
    refine ⟨_, hexec.trans (hi.trans (congrArg _ he)), ?_, fun j hj => ?_, ?_⟩
    · exact (congrArg (tabGet · k) hgroups).trans (s1.grp_setG_same k _)
    · exact (congrArg (tabGet · j) hgroups).trans (s1.grp_setG_other k j _ hj)
    · rw [hdata]
      exact hwrote
  · rw [h0]
    exact s1.stokerPending_zero _

open Machine in
/-- Settles O11: an atomic that goes on is sent (`State.issueWrite_sent`), or performed at once in a lent line (`State.Issuing.atomic`). -/
theorem scalarAtomics : Obligations.ScalarAtomics := by
  unfold Obligations.ScalarAtomics
  intro s s1 k g w sd sa sb scope t tr h p hp size ty va chk bad waits key
  obtain ⟨ar, har, hexec⟩ := exec_scalarAtomics s w sd sa sb scope p hp
  have hty : ty = atomicTy w p.2.2.1 := by
    simp only [ty, atomicTy]
    split
    · split <;> rfl
    · split <;> rfl
  have hchk : chk = s.chkScalar k g (accAtomic false (pcieAtomic p.2.1 (atomicTy w p.2.2.1))) va size := by rw [← hty]
  have hgood : ¬ bad → (g.sGet sa.toNat).pz = false ∧ (g.sGet sb.toNat).pz = false ∧ (p.2.1 = 7 → (g.sGet sd.toNat).pz = false) := by
    intro hb
    simpa [bad] using hb
  refine ⟨fun hb => hexec.trans (atomicS_poison h hb), fun hb hc => ?_, fun hb hc => ?_, fun hb hc hw => ?_, fun h0 => ?_,
    fun hb hc hw hl => ?_, fun hb hc hw hl hcreg hrec hs hkey hgrp hhnd hpz hcode => ?_⟩
  · obtain ⟨ha, hb, hd⟩ := hgood hb
    rw [hchk] at hc
    exact atomicS_trapsS h hexec ha hb hd hc
  · obtain ⟨ha, hb, hd⟩ := hgood hb
    rw [hchk] at hc
    exact hexec.trans (atomicS_thaws h ha hb hd hc)
  · obtain ⟨ha, hb, hd⟩ := hgood hb
    rw [hchk] at hc
    exact hexec.trans (atomicS_waits h ha hb hd hc (by rw [har]; exact hw))
  · simp only [waits, h0, s1.stokerPending_zero, Bool.false_eq_true, ne_eq, not_true_eq_false, false_and, or_self, not_false_eq_true]
  · obtain ⟨ha, hb, hd⟩ := hgood hb
    rw [hchk] at hc
    obtain ⟨u, q, ⟨l, l1, pr, n, rfl⟩, ⟨hid, hkey, -, -, ho, hblk, -, hacq, hk⟩, he⟩ :=
      State.issueWrite_sent (State.cached_of_chkScalar hc) (g.asked sd) g.name key (decide (ar.getD 0 ≠ 0)) _ hl
    refine ⟨_, q, hexec.trans ((atomicS_issues h ha hb hd hc (by rw [har]; exact hw)).trans (congrArg _ he)), ⟨rfl, fun a => rfl⟩, hid,
      hkey, ho, hblk, ?_, s1.grp_setG_same k _, fun j hj => s1.grp_setG_other k j _ hj, ?_⟩
    · rw [hacq, har]
    · rw [hk, hty]
  · obtain ⟨ha, hb, hd⟩ := hgood hb
    rw [hchk] at hc
    have hkeyeq : key = physKey t.pa := by simp only [key, State.keyOfTr, hcreg]
    intro old new
    have hi := atomicS_issues h ha hb hd hc (by rw [har]; exact hw)
    obtain ⟨u, q, l1, hv, hq, he⟩ := State.issueWrite_lent (k := k) (State.cached_of_chkScalar hc) (g.asked sd) g.name key
      (decide (ar.getD 0 ≠ 0)) (.atomic t.pa (atomicSize w) p.2.1 (atomicTy w p.2.2.1) (g.sGet sb.toNat).val (g.sGet sd.toNat).val
        (if sd = 0 then .none else .scalar sd.toNat (p.2.2.1 && w == 0))) hl
    rw [hkeyeq] at hq
    obtain ⟨x, r, hperf, hgroups, hwrote⟩ := hv.atomic hs hrec hpz hcode hq
    obtain ⟨l, hdel, hgrp', hother⟩ := State.deliver_scalar hgroups hkey hhnd sd (p.2.2.1 && w == 0) (atomicSize w) old
    have hper : u.perform q = { x with groups := l, recd := r } := hperf.trans (by
      rw [show (g.asked sd).name = g.name from rfl] at hdel
      rw [hdel])
    rw [hper] at he
    obtain ⟨rs, ps, hb'⟩ := (g.asked sd).brought_rest sd
      ⟨if p.2.2.1 && w == 0 then (BitVec.ofNat (8 * atomicSize w) old).signExtend 64 else BitVec.ofNat 64 old, false⟩
    refine ⟨_, hexec.trans (hi.trans (congrArg _ he)), ?_, hother, _, hgrp', ?_, ?_, fun n => ?_⟩
    · have hnew : new = (atomicNew p.2.1 (atomicTy w p.2.2.1) size old (g.sGet sb.toNat).val.toNat
          (g.sGet sd.toNat).val.toNat).getD old := by
        rw [← hty]
      rw [hnew]
      exact hwrote
    · rw [hb']
      rfl
    · rw [hb']
      rfl
    · rw [Group.sGet_brought]
      rw [atomic_old_value]
      rfl

end Sys2Proof
end

section
/-! # What a save takes with it (R88, R179, R198, R219, R233, R269)

The groups beside the one that is saved change only by loads to be issued again and by private lines that leave L1; workgroups, operations
and contexts stay as they are. -/

namespace Sys2Proof.Machine

/-! ### A group but for retries and lines -/

theorem Out.retry_retry (o : Out) : o.retry.retry = o.retry := by
  simp [Out.retry]

/-- Results left as they are, or given up to be issued again. -/
def Retries (f : Out → Out) : Prop := ∀ o, f o = o ∨ f o = o.retry

theorem Retries.id : Retries fun o => o := fun _ => .inl rfl

theorem Retries.comp {f f' : Out → Out} (h : Retries f) (h' : Retries f') : Retries fun o => f' (f o) := fun o => by
  dsimp only
  rcases h o with ho | ho
  · rw [ho]
    exact h' o
  · rw [ho]
    rcases h' o.retry with hr | hr
    · exact .inr hr
    · exact .inr (hr.trans o.retry_retry)

theorem Split.mapOuts_id (sp : Split) : sp.mapOuts (fun o => o) = sp := by simp [mapOuts]

theorem Split.mapOuts_mapOuts (sp : Split) (f f' : Out → Out) : (sp.mapOuts f).mapOuts f' = sp.mapOuts fun o => f' (f o) := by
  simp [mapOuts, Function.comp_def]

theorem Group.mapOuts_id (g : Group) : g.mapOuts (fun o => o) = g := by
  have hs : ∀ x : Option Split, x.map (·.mapOuts fun o => o) = x := fun x => by cases x <;> simp [Split.mapOuts_id]
  have hl : ∀ l : List (Nat × Split), (l.map fun p => (p.1, p.2.mapOuts fun o => o)) = l := fun l => by simp [Split.mapOuts_id]
  unfold mapOuts
  simp only [hs, hl, Option.map_id']

theorem Group.mapOuts_mapOuts (g : Group) (f f' : Out → Out) : (g.mapOuts f).mapOuts f' = g.mapOuts fun o => f' (f o) := by
  unfold mapOuts
  simp only [Option.map_map, List.map_map, Function.comp_def, Split.mapOuts_mapOuts]

/-- The group of which only the lines in L1 are as given. -/
theorem Group.sameButL1_iff {g g' : Group} : g.sameButL1 g' ↔ ∃ a b c, g' = { g with priv := a, privPz := b, privBack := c } := by
  constructor
  · intro h
    unfold sameButL1 at h
    refine ⟨g'.priv, g'.privPz, g'.privBack, ?_⟩
    rw [← h]
  · rintro ⟨a, b, c, rfl⟩
    rfl

theorem Group.sameButRetries_iff {g g' : Group} : g.sameButRetries g' ↔
    ∃ f a b c, Retries f ∧ g' = { g.mapOuts f with priv := a, privPz := b, privBack := c } := by
  constructor
  · rintro ⟨f, hf, h⟩
    obtain ⟨a, b, c, h⟩ := sameButL1_iff.1 h
    exact ⟨f, a, b, c, hf, h⟩
  · rintro ⟨f, a, b, c, hf, h⟩
    exact ⟨f, hf, sameButL1_iff.2 ⟨a, b, c, h⟩⟩

theorem Group.sameButRetries_mapOuts (g : Group) {f : Out → Out} (hf : Retries f) : g.sameButRetries (g.mapOuts f) :=
  ⟨f, hf, rfl⟩

theorem Group.sameButRetries_lines (g : Group) (a : Tab Byte) (b c : List Nat) :
    g.sameButRetries { g with priv := a, privPz := b, privBack := c } :=
  sameButRetries_iff.2 ⟨_, a, b, c, .id, by rw [mapOuts_id]⟩

theorem Group.sameButRetries_refl (g : Group) : g.sameButRetries g := g.sameButRetries_lines _ _ _

theorem Group.sameButRetries_trans {g g' g'' : Group} (h : g.sameButRetries g') (h' : g'.sameButRetries g'') : g.sameButRetries g'' := by
  obtain ⟨f, a, b, c, hf, rfl⟩ := sameButRetries_iff.1 h
  obtain ⟨f', a', b', c', hf', rfl⟩ := sameButRetries_iff.1 h'
  refine sameButRetries_iff.2 ⟨_, a', b', c', hf.comp hf', ?_⟩
  rw [← mapOuts_mapOuts g f f']
  rfl

/-! ### A table of groups, each changed so -/

theorem mem_tabSet_self {α : Type} (t : Tab α) (n : Nat) (x : α) : (n, x) ∈ tabSet t n x := tabGet_mem (tabGet_tabSet_same t n x)

/-- An entry stays where another is set, but the one that is replaced. -/
theorem mem_tabSet_of_mem {α : Type} {t : Tab α} {n : Nat} {x : α} {p : Nat × α} (hp : p ∈ t) :
    p ∈ tabSet t n x ∨ (p.1 = n ∧ tabGet t n = some p.2) := by
  induction t with
  | nil => cases hp
  | cons q t ih =>
    obtain ⟨m, y⟩ := q
    unfold tabSet tabGet
    rcases List.mem_cons.1 hp with rfl | hp
    · by_cases hm : m = n
      · exact .inr ⟨hm, if_pos hm⟩
      · refine .inl ?_
        rw [if_neg (Ne.symm hm)]
        split <;> simp
    · by_cases hm : m = n
      · subst hm
        simp [hp]
      · rw [if_neg (Ne.symm hm), if_neg hm]
        split
        · exact .inl (by simp [hp])
        · rcases ih hp with h | h
          · exact .inl (List.mem_cons_of_mem _ h)
          · exact .inr h

/-- Keys in rising order. -/
def Sorted {α : Type} (t : Tab α) : Prop := (t.map (·.1)).Pairwise (· < ·)

theorem keys_tabSet {α : Type} {t : Tab α} (ht : Sorted t) {n : Nat} {y : α} (hn : tabGet t n = some y) (x : α) :
    (tabSet t n x).map (·.1) = t.map (·.1) := by
  induction t with
  | nil => cases hn
  | cons q t ih =>
    obtain ⟨m, z⟩ := q
    obtain ⟨hlt, ht'⟩ := List.pairwise_cons.1 ht
    unfold tabSet
    unfold tabGet at hn
    by_cases hm : m = n
    · subst hm
      simp
    · rw [if_neg hm] at hn
      have hlt' : m < n := hlt n (List.mem_map.2 ⟨_, tabGet_mem hn, rfl⟩)
      rw [if_neg (by omega), if_neg (by omega), List.map_cons, List.map_cons, ih ht' hn]

/-- In a table in rising order an entry is the one that its key finds. -/
theorem tabGet_of_mem {α : Type} {t : Tab α} (ht : Sorted t) {p : Nat × α} (hp : p ∈ t) : tabGet t p.1 = some p.2 := by
  induction t with
  | nil => cases hp
  | cons q t ih =>
    obtain ⟨m, z⟩ := q
    obtain ⟨hlt, ht'⟩ := List.pairwise_cons.1 ht
    rcases List.mem_cons.1 hp with rfl | hp
    · exact if_pos rfl
    · have : m < p.1 := hlt p.1 (List.mem_map.2 ⟨_, hp, rfl⟩)
      exact (if_neg (by omega)).trans (ih ht' hp)

/-- Every group of a table is still there, but for retries and lines. -/
structure Regrouped (t t' : Tab Group) : Prop where
  get : ∀ j g, tabGet t j = some g → ∃ g', tabGet t' j = some g' ∧ g.sameButRetries g'
  mem : ∀ p ∈ t, ∃ p' ∈ t', p'.1 = p.1 ∧ p.2.sameButRetries p'.2
  keys : Sorted t → t'.map (·.1) = t.map (·.1)

theorem Regrouped.refl (t : Tab Group) : Regrouped t t :=
  ⟨fun _ g h => ⟨g, h, g.sameButRetries_refl⟩, fun p h => ⟨p, h, rfl, p.2.sameButRetries_refl⟩, fun _ => rfl⟩

theorem Regrouped.trans {t t' t'' : Tab Group} (h : Regrouped t t') (h' : Regrouped t' t'') : Regrouped t t'' where
  get j g hg := by
    obtain ⟨g', hg', hs⟩ := h.get j g hg
    obtain ⟨g'', hg'', hs'⟩ := h'.get j g' hg'
    exact ⟨g'', hg'', Group.sameButRetries_trans hs hs'⟩
  mem p hp := by
    obtain ⟨p', hp', hk, hs⟩ := h.mem p hp
    obtain ⟨p'', hp'', hk', hs'⟩ := h'.mem p' hp'
    exact ⟨p'', hp'', hk'.trans hk, Group.sameButRetries_trans hs hs'⟩
  keys ht := by
    have hk := h.keys ht
    exact (h'.keys (by unfold Sorted; rw [hk]; exact ht)).trans hk

theorem Regrouped.tabMod (t : Tab Group) (n : Nat) {f : Group → Group} (hf : ∀ g : Group, g.sameButRetries (f g)) : Regrouped t (tabMod t n f) := by
  cases hn : tabGet t n with
  | none =>
    have : Machine.tabMod t n f = t := by unfold Machine.tabMod; rw [hn]
    rw [this]
    exact .refl t
  | some y =>
    rw [tabMod_some t n f y hn]
    refine ⟨fun j g hg => ?_, fun p hp => ?_, fun ht => keys_tabSet ht hn _⟩
    · rw [tabGet_tabSet]
      by_cases hj : n = j
      · subst hj
        cases hn.symm.trans hg
        exact ⟨f y, if_pos rfl, hf y⟩
      · exact ⟨g, (if_neg hj).trans hg, g.sameButRetries_refl⟩
    · rcases mem_tabSet_of_mem (n := n) (x := f y) hp with h | ⟨hk, hg⟩
      · exact ⟨p, h, rfl, p.2.sameButRetries_refl⟩
      · cases hn.symm.trans hg
        exact ⟨(n, f p.2), mem_tabSet_self t n _, hk.symm, hf p.2⟩

/-! ### What is flushed for a save -/

/-- Two states agree but for lines, what is on its way, projections and their locks, records, and the groups' loads and lines. -/
structure State.Flushes (s t : State) : Prop where
  groups : Regrouped s.groups t.groups
  rest : { t with
    mem := s.mem, poison := s.poison, cells := s.cells, l2 := s.l2, metas := s.metas, homes := s.homes, sectors := s.sectors,
    fsectors := s.fsectors, remotes := s.remotes, dropexp := s.dropexp, filters := s.filters, l1 := s.l1, replicas := s.replicas,
    halves := s.halves, groups := s.groups, saved := s.saved, served := s.served, pend := s.pend, projs := s.projs, locks := s.locks,
    recs := s.recs } = s
  module : ∀ op, t.awaitsModule op = true → s.awaitsModule op = true
  recs : ∀ r ∈ t.recs, ∃ q ∈ s.recs, r.hearth = q.hearth ∧ r.ctx = q.ctx

namespace State.Flushes
variable {s t u : State}

theorem refl (s : State) : s.Flushes s := ⟨.refl _, rfl, fun _ h => h, fun r h => ⟨r, h, rfl, rfl⟩⟩

theorem trans (h : s.Flushes t) (h' : t.Flushes u) : s.Flushes u where
  groups := h.groups.trans h'.groups
  rest := by
    have h1 := h.rest
    rw [← h'.rest] at h1
    exact h1
  module op ho := h.module op (h'.module op ho)
  recs r hr := by
    obtain ⟨q, hq, h1, h2⟩ := h'.recs r hr
    obtain ⟨q', hq', h1', h2'⟩ := h.recs q hq
    exact ⟨q', hq', h1.trans h1', h2.trans h2'⟩

theorem foldl {α : Type} {f : State → α → State} (hf : ∀ (s : State) x, s.Flushes (f s x)) (l : List α) (s : State) :
    s.Flushes (l.foldl f s) :=
  List.foldlRecOn (motive := fun t : State => s.Flushes t) l f (refl s) fun _ ht x _ => ht.trans (hf _ x)

theorem ctxs (h : s.Flushes t) : t.ctxs = s.ctxs := (congrArg State.ctxs h.rest :)

theorem wgs (h : s.Flushes t) : t.wgs = s.wgs := (congrArg State.wgs h.rest :)

theorem mats (h : s.Flushes t) : t.mats = s.mats := (congrArg State.mats h.rest :)

theorem copies (h : s.Flushes t) : t.copies = s.copies := (congrArg State.copies h.rest :)

end State.Flushes

theorem State.OnlyLines.flushes {s t : State} (h : s.OnlyLines t) : s.Flushes t where
  groups := by
    rw [h.groups]
    exact .refl _
  rest := by
    have hg := h.groups
    have hr : t.recs = s.recs := (congrArg State.recs h :)
    have hs : t.saved = s.saved := (congrArg State.saved h :)
    have hv : t.served = s.served := (congrArg State.served h :)
    have hp : t.pend = s.pend := (congrArg State.pend h :)
    have hj : t.projs = s.projs := (congrArg State.projs h :)
    have hl : t.locks = s.locks := (congrArg State.locks h :)
    rw [← hg, ← hr, ← hs, ← hv, ← hp, ← hj, ← hl]
    exact h
  module op ho := by
    have hp : t.pend = s.pend := (congrArg State.pend h :)
    unfold State.awaitsModule at *
    rwa [hp] at ho
  recs r hr := by
    have hrec : t.recs = s.recs := (congrArg State.recs h :)
    exact ⟨r, hrec ▸ hr, rfl, rfl⟩

theorem State.modG_flushes (s : State) (k : Nat) {f : Group → Group} (hf : ∀ g : Group, g.sameButRetries (f g)) : s.Flushes (s.modG k f) :=
  ⟨.tabMod _ k hf, rfl, fun _ h => h, fun r h => ⟨r, h, rfl, rfl⟩⟩

theorem State.modOwner_flushes (s : State) (n : Nat × Nat) {f : Group → Group} (hf : ∀ g : Group, g.sameButRetries (f g)) :
    s.Flushes (s.modOwner n f) := by
  unfold State.modOwner
  split
  · exact s.modG_flushes _ hf
  · exact ⟨.refl _, rfl, fun _ h => h, fun r h => ⟨r, h, rfl, rfl⟩⟩

theorem Pend.forget_key (p : Pend) (f : Nat × Nat → Bool) : (p.forget f).key = p.key := by
  unfold forget; split <;> [split <;> rfl; rfl]

theorem Pend.forget_isLost (p : Pend) (f : Nat × Nat → Bool) : (p.forget f).isLost = p.isLost := by
  unfold forget
  split
  · next hk =>
    split
    · unfold isLost
      rw [hk]
    · rfl
  · rfl

theorem State.forgetAll_flushes (s : State) (f : Nat × Nat → Bool) : s.Flushes (s.forgetAll f) := by
  refine ⟨.refl _, rfl, fun op ho => ?_, fun r h => ⟨r, h, rfl, rfl⟩⟩
  unfold State.awaitsModule State.forgetAll at *
  simpa [List.any_map, Function.comp_def, Pend.forget_owner, Pend.forget_blk, Pend.forget_key, Pend.forget_isLost] using ho

theorem State.unlost_flushes (s : State) (n : Nat × Nat) : s.Flushes (s.unlost n) := by
  refine ⟨.refl _, rfl, fun op ho => ?_, fun r h => ⟨r, h, rfl, rfl⟩⟩
  unfold State.awaitsModule State.unlost at *
  obtain ⟨p, hp, h⟩ := List.any_eq_true.1 ho
  exact List.any_eq_true.2 ⟨p, (List.mem_filter.1 hp).1, h⟩

theorem State.dropProjs_flushes (s : State) (gone : Proj → Bool) : s.Flushes (s.dropProjs gone) := by
  unfold State.dropProjs
  dsimp only
  have hdrop : s.Flushes { s with
      projs := s.projs.filter fun p => !gone p,
      locks := s.locks.filter fun p => !(p.2.kind == lockProj && (s.projs.filter gone).any fun x => x.id == p.2.op) } :=
    ⟨.refl _, rfl, fun _ h => h, fun r h => ⟨r, h, rfl, rfl⟩⟩
  have hretry : ∀ w : LdvWait, Retries fun o => if o.id = w.out then o.retry else o := fun w o => by
    dsimp only
    split
    · exact .inr rfl
    · exact .inl rfl
  exact (hdrop.trans (State.forgetAll_flushes _ _)).trans
    (.foldl (fun s w => s.modOwner_flushes _ fun g => g.sameButRetries_mapOuts (hretry w)) _ _)

theorem State.returnLent_flushes (s : State) (h : Nat) : s.Flushes (s.returnLent h) := by
  unfold State.returnLent
  refine .foldl (fun s p => ?_) _ _
  split
  · exact (s.returnLine_only _).flushes
  · exact .refl s

theorem State.closeRecs_flushes (s : State) (h ctx : Nat) : s.Flushes (s.closeRecs h ctx) := by
  refine ⟨.refl _, rfl, fun _ h => h, fun r hr => ?_⟩
  obtain ⟨q, hq, rfl⟩ := List.mem_map.1 hr
  refine ⟨q, hq, ?_⟩
  split
  · exact ⟨rfl, rfl⟩
  · exact ⟨rfl, rfl⟩

theorem Group.dropPriv_sameButRetries (g : Group) (line : Nat) : g.sameButRetries (g.dropPriv line) := g.sameButRetries_lines _ _ _

theorem State.writeBackPriv_flushes (s : State) (k : Nat) (g : Group) (line : Nat) : s.Flushes (s.writeBackPriv k g line) := by
  unfold State.writeBackPriv
  dsimp only
  refine .trans ?_ (State.modG_flushes _ k fun g => g.dropPriv_sameButRetries line)
  exact ((s.touchL2_only _ _ _).trans (.foldl (fun s j => s.poke_only _ _ _) _ _)).flushes

theorem State.l1Evicted_flushes (s : State) (h : Nat) (l : L1Line) : s.Flushes (s.l1Evicted h l) := by
  unfold State.l1Evicted
  split
  · exact State.OnlyLines.flushes rfl
  · split
    · dsimp only
      split
      · exact s.writeBackPriv_flushes _ _ _
      · split
        · exact s.modG_flushes _ fun g => g.dropPriv_sameButRetries _
        · exact s.modG_flushes _ fun g => g.sameButRetries_lines _ _ _
    · exact .refl s
  · exact .refl s

theorem State.flushPriv_flushes (s : State) (k : Nat) (g : Group) : s.Flushes (s.flushPriv k g) := by
  unfold State.flushPriv
  dsimp only
  exact (State.Flushes.foldl (fun s l => s.l1Evicted_flushes _ l) _ s).trans (State.OnlyLines.flushes rfl)

/-- The machine as a save has flushed it, before the group stops. -/
def State.flushed (s : State) (k : Nat) (g : Group) : State :=
  (((((((s.setG k g).forgetGroup k).withdraw g).unlost g.name).abandonProjs (hearthOf k) g.ctx).returnLent (hearthOf k)).closeRecs (hearthOf k)
    g.ctx).flushPriv k g

/-- The group stops in a machine that has been flushed. -/
theorem State.saveGroup_eq (s : State) (k : Nat) (g : Group) :
    ∃ clk, s.saveGroup k g = (s.flushed k g).modG k fun g' => g'.stop (s.lostLoads g.name) clk := ⟨_, rfl⟩

theorem State.flushed_flushes (s : State) (k : Nat) (g : Group) : (((s.setG k g).forgetGroup k).withdraw g).Flushes (s.flushed k g) :=
  (State.unlost_flushes _ _).trans ((State.dropProjs_flushes _ _).trans ((State.returnLent_flushes _ _).trans
    ((State.closeRecs_flushes _ _ _).trans (State.flushPriv_flushes _ _ _))))

end Sys2Proof.Machine
end

section
/-! # A group that a save stops (R88, R179, R198, R269, R377) -/

namespace Sys2Proof.Machine

/-! ### Splits but for their results -/

/-- A split without its results, waits and bindings: what a save leaves of it as it stands. -/
def Split.still (sp : Split) : Split := { sp with outs := [], waiting := false, bound := none }

/-- Three places of splits are the same, but for results, waits and bindings. -/
def Group.SameSplits (g g' : Group) : Prop :=
  g'.slot0.map Split.still = g.slot0.map Split.still ∧ g'.slot1.map Split.still = g.slot1.map Split.still ∧
    g'.spilled.map (fun p => (p.1, p.2.still)) = g.spilled.map (fun p => (p.1, p.2.still))

theorem Group.SameSplits.refl (g : Group) : g.SameSplits g := ⟨rfl, rfl, rfl⟩

theorem Group.SameSplits.trans {g g' g'' : Group} : g.SameSplits g' → g'.SameSplits g'' → g.SameSplits g'' := by
  rintro ⟨h0, h1, hl⟩ ⟨h0', h1', hl'⟩
  exact ⟨h0'.trans h0, h1'.trans h1, hl'.trans hl⟩

theorem Group.SameSplits.of_splits {g g' g'' : Group} (h : g.SameSplits g') (h0 : g''.slot0 = g'.slot0) (h1 : g''.slot1 = g'.slot1)
    (hl : g''.spilled = g'.spilled) : g.SameSplits g'' := by
  obtain ⟨a, b, c⟩ := h
  exact ⟨by rw [h0, a], by rw [h1, b], by rw [hl, c]⟩

/-- A function of a split that looks at none of these is the same of both. -/
theorem Group.SameSplits.shape {g g' : Group} (h : g.SameSplits g') {α : Type} {f : Split → α} (hf : ∀ sp, f sp = f sp.still) :
    g'.slot0.map f = g.slot0.map f ∧ g'.slot1.map f = g.slot1.map f ∧
      g'.spilled.map (fun p => (p.1, f p.2)) = g.spilled.map (fun p => (p.1, f p.2)) := by
  obtain ⟨h0, h1, hl⟩ := h
  have ho : ∀ x : Option Split, x.map f = (x.map Split.still).map f := fun x => by
    rw [Option.map_map]
    exact congrArg (x.map ·) (funext hf)
  have hs : ∀ l : List (Nat × Split), l.map (fun p => (p.1, f p.2)) = (l.map fun p => (p.1, p.2.still)).map fun p => (p.1, f p.2) := fun l => by
    rw [List.map_map]
    exact List.map_congr_left fun p _ => by rw [Function.comp_apply, ← hf]
  exact ⟨by rw [ho, h0, ← ho], by rw [ho, h1, ← ho], by rw [hs, hl, ← hs]⟩

/-- Splits changed by a function that leaves them but for results. -/
theorem Group.SameSplits.map (g : Group) {f : Split → Split} (hf : ∀ sp, (f sp).still = sp.still) {g' : Group} (h0 : g'.slot0 = g.slot0.map f)
    (h1 : g'.slot1 = g.slot1.map f) (hl : g'.spilled = g.spilled.map fun p => (p.1, f p.2)) : g.SameSplits g' := by
  refine ⟨?_, ?_, ?_⟩
  · rw [h0, Option.map_map]
    exact congrArg (g.slot0.map ·) (funext hf)
  · rw [h1, Option.map_map]
    exact congrArg (g.slot1.map ·) (funext hf)
  · rw [hl, List.map_map]
    exact List.map_congr_left fun p _ => by simp only [Function.comp_apply, hf]

theorem Group.mapOuts_sameSplits (g : Group) (f : Out → Out) : g.SameSplits (g.mapOuts f) :=
  .map g (f := (·.mapOuts f)) (fun _ => rfl) rfl rfl rfl

/-- Results written change lane registers, and splits by their results alone. -/
theorem Group.landSplit_sameSplits (g : Group) (slot : Nat) : g.SameSplits (g.landSplit slot) := by
  unfold landSplit
  cases hsp : g.split slot with
  | none => exact .refl g
  | some sp =>
    obtain ⟨v, hv⟩ := OnlyV.foldl writeOut_onlyV (sp.outs.filter (·.complete)) g
    dsimp only
    rw [hv]
    unfold split at hsp
    unfold setSplit
    split at hsp
    · next h => exact ⟨by rw [if_pos h, hsp]; rfl, by rw [if_pos h], by rw [if_pos h]⟩
    · next h => exact ⟨by rw [if_neg h], by rw [if_neg h, hsp]; rfl, by rw [if_neg h]⟩

theorem Group.landAll_sameSplits (g : Group) : g.SameSplits g.landAll := by
  have h := (g.landSplit_sameSplits 0).trans ((g.landSplit 0).landSplit_sameSplits 1)
  refine h.trans ?_
  unfold landAll
  dsimp only
  obtain ⟨v, hv⟩ := OnlyV.foldl writeOut_onlyV
    (((g.landSplit 0).landSplit 1).spilled.foldr (fun p acc => (p.2.outs.filter (·.complete)) ++ acc) []) ((g.landSplit 0).landSplit 1)
  rw [hv]
  refine ⟨rfl, rfl, ?_⟩
  rw [List.map_map]
  rfl

/-! ### The group that stops -/

/-- Where a group stands once a raised trap is discarded: before a software trap. -/
def Group.stopPc (g : Group) : W64 :=
  match g.raised with
  | some t => if t.code = 0x04 then g.spc - 4 else g.spc
  | none => g.spc

/-- The traps that wait once a raised one is discarded: those of no instruction stay. -/
def Group.stopTraps (g : Group) : List Trap :=
  match g.raised with
  | some t => if t.code = 0x14 || t.code = 0x15 then t :: g.pendTraps else g.pendTraps
  | none => g.pendTraps

theorem Group.dropRaised_eq (g : Group) : g.dropRaised = { g with raised := none, spc := g.stopPc, pendTraps := g.stopTraps } := by
  unfold dropRaised stopPc stopTraps
  cases hr : g.raised with
  | some t => rfl
  | none =>
    cases g
    cases hr
    rfl

/-- What is issued again after a save: loads of another module, unfinished `vset` instructions, and what waited to be already. -/
def Group.stopRedo (g : Group) (lost : List Redo) : List Redo := lost ++ (g.wBusy.map fun p => Redo.vset p.1 p.2.addr p.2.pc) ++ g.redo

/-- The group that a save has stopped. -/
theorem Group.stop_eq (g : Group) (lost : List Redo) (clk : Nat) : ∃ v a b l, g.stop lost clk =
    { g with
      saved := true, sWait := false, raised := none, launching := none, got := none, wBusy := [], redo := g.stopRedo lost,
      spc := g.stopPc, pendTraps := g.stopTraps, v := v, slot0 := a, slot1 := b, spilled := l } := by
  unfold stop
  dsimp only
  rw [dropRaised_eq]
  obtain ⟨v, a, b, l, h⟩ := Group.landAll_eq
    { g with
      raised := none, spc := g.stopPc, pendTraps := g.stopTraps, slot0 := g.slot0.map (·.discard clk), slot1 := g.slot1.map (·.discard clk),
      spilled := g.spilled.map fun p => (p.1, p.2.discard clk) }
  rw [h]
  exact ⟨v, a, b, l, rfl⟩

theorem Group.stop_sameSplits (g : Group) (lost : List Redo) (clk : Nat) : g.SameSplits (g.stop lost clk) := by
  unfold stop
  dsimp only
  rw [dropRaised_eq]
  refine Group.SameSplits.of_splits (g' := Group.landAll _) (.trans ?_ (Group.landAll_sameSplits _)) rfl rfl rfl
  exact .map g (f := (·.discard clk)) (fun _ => rfl) rfl rfl rfl

/-- The registers of a group that a save has stopped, but its lane registers, are as they were. -/
theorem Group.stop_regs (g : Group) (lost : List Redo) (clk : Nat) : (g.stop lost clk).saved = true ∧ (g.stop lost clk).spc = g.stopPc ∧
    (g.stop lost clk).s = g.s ∧ (g.stop lost clk).c = g.c ∧ (g.stop lost clk).m = g.m ∧ (g.stop lost clk).b = g.b ∧
    (g.stop lost clk).w = g.w ∧ (g.stop lost clk).mode = g.mode ∧ (g.stop lost clk).blocks = g.blocks := by
  obtain ⟨v, a, b, l, h⟩ := g.stop_eq lost clk
  rw [h]
  exact ⟨rfl, rfl, rfl, rfl, rfl, rfl, rfl, rfl, rfl⟩

/-! ### The save of a group -/

section
variable (s : State) (k : Nat) (g : Group)

/-- The group is stopped as its retries and lines were left. -/
theorem State.saveGroup_same : ∃ g1 clk, g.sameButRetries g1 ∧ (s.saveGroup k g).grp k = some (g1.stop (s.lostLoads g.name) clk) := by
  obtain ⟨clk, he⟩ := s.saveGroup_eq k g
  obtain ⟨g1, hg1, hs⟩ := (s.flushed_flushes k g).groups.get k g (s.grp_setG_same k g)
  refine ⟨g1, clk, hs, ?_⟩
  rw [he, State.modG_of _ _ _ _ hg1]
  exact State.grp_setG_same _ k _

theorem State.saveGroup_other {j : Nat} (hj : j ≠ k) {y : Group} (hy : s.grp j = some y) :
    ∃ y', (s.saveGroup k g).grp j = some y' ∧ y.sameButRetries y' := by
  obtain ⟨clk, he⟩ := s.saveGroup_eq k g
  obtain ⟨y', hy', hs⟩ := (s.flushed_flushes k g).groups.get j y ((s.grp_setG_other k j g hj).trans hy)
  refine ⟨y', ?_, hs⟩
  rw [he]
  exact ((tabGet_tabMod _ _ _ _).trans (if_neg hj.symm)).trans hy'

/-- The other groups of the table, wherever they stand in it. -/
theorem State.saveGroup_mem {p : Nat × Group} (hp : p ∈ s.groups) (hk : p.1 ≠ k) :
    ∃ p' ∈ (s.saveGroup k g).groups, p'.1 = p.1 ∧ p.2.sameButRetries p'.2 := by
  obtain ⟨clk, he⟩ := s.saveGroup_eq k g
  have hset : p ∈ (s.setG k g).groups := (mem_tabSet_of_mem hp).resolve_right fun h => hk h.1
  obtain ⟨p', hp', hk', hs⟩ := (s.flushed_flushes k g).groups.mem p hset
  refine ⟨p', ?_, hk', hs⟩
  rw [he]
  unfold State.modG
  cases hg : tabGet (s.flushed k g).groups k with
  | none =>
    unfold tabMod
    rw [hg]
    exact hp'
  | some y =>
    rw [tabMod_some _ _ _ _ hg]
    exact (mem_tabSet_of_mem hp').resolve_right fun h => hk (hk'.symm.trans h.1)

theorem State.saveGroup_keys (hs : Sorted s.groups) {y : Group} (hk : s.grp k = some y) :
    (s.saveGroup k g).groups.map (·.1) = s.groups.map (·.1) := by
  obtain ⟨clk, he⟩ := s.saveGroup_eq k g
  have hset : (s.setG k g).groups.map (·.1) = s.groups.map (·.1) := keys_tabSet hs hk g
  have hsort : Sorted (s.setG k g).groups := by
    unfold Sorted
    rw [hset]
    exact hs
  have hfl := (s.flushed_flushes k g).groups
  obtain ⟨g1, hg1, -⟩ := hfl.get k g (s.grp_setG_same k g)
  have hkeys := hfl.keys hsort
  have hsort' : Sorted (s.flushed k g).groups := by
    unfold Sorted
    rw [hkeys]
    exact hsort
  rw [he]
  unfold State.modG
  rw [tabMod_some _ _ _ _ hg1, keys_tabSet hsort' hg1]
  exact hkeys.trans hset
end

/-! ### What follows the save of a group -/

/-- A workgroup does not leave while a group of it is not saved. -/
theorem State.mayLeave_of_unsaved {s : State} {n : Nat} {p : Nat × Group} (hp : p ∈ s.groups) (hn : p.2.wg = n) (hs : p.2.saved = false) :
    s.mayLeave n = false := by
  have hall : (s.groups.all fun (p : Nat × Group) => p.2.wg != n || p.2.saved) = false := by
    rw [List.all_eq_false]
    exact ⟨p, hp, by simp [hn, hs]⟩
  unfold State.mayLeave
  dsimp only
  rw [hall]
  rfl

theorem State.damperDone_groups (s : State) (ctx : Nat) : (s.damperDone ctx).groups = s.groups := by
  unfold State.damperDone State.cmdEnd
  split
  · split <;> rfl
  · rfl

theorem State.settle_groups_of_unsaved {s : State} {n : Nat} {p : Nat × Group} (hp : p ∈ s.groups) (hn : p.2.wg = n)
    (hs : p.2.saved = false) (ctx : Nat) : (s.settle n ctx).groups = s.groups := by
  have hstay : s.saveWg n = s := by
    unfold State.saveWg
    dsimp only
    rw [if_pos (by rw [State.mayLeave_of_unsaved hp hn hs]; simp)]
  unfold State.settle
  rw [hstay]
  exact s.damperDone_groups ctx

end Sys2Proof.Machine
end

section
/-! # The stoker's `spause`, `yield` and `exit` (O19) -/

namespace Sys2Proof.Machine

/-! ### Blocks retired in turn -/

theorem Group.landPend_blocks (l : List PendW) (g : Group) : (g.landPend l).blocks = g.blocks := by
  unfold landPend
  induction l generalizing g with
  | nil => rfl
  | cons p l ih =>
    refine (ih _).trans ?_
    cases p with
    | scalar n v =>
      dsimp only
      unfold sSet
      split <;> rfl
    | cond n v => rfl

theorem State.retireOldest_blocks {s : State} {g g' : Group} (h : s.retireOldest g = some g') : g'.blocks = g.blocks.tail := by
  cases hb : g.blocks with
  | nil =>
    cases (State.retireOldest_of_none hb).symm.trans h
    exact hb
  | cons b rest =>
    unfold State.retireOldest at h
    rw [hb] at h
    dsimp only at h
    split at h
    · cases h
      exact Group.landPend_blocks _ _
    · cases h

/-- Three blocks at most are retired in turn. -/
theorem State.retireAll_blocks {s : State} {g g' : Group} (h : s.retireAll g = some g') : g'.blocks = g.blocks.drop 3 := by
  unfold State.retireAll at h
  split at h
  · cases h
  · next g1 h1 =>
    split at h
    · cases h
    · next g2 h2 =>
      rw [retireOldest_blocks h, retireOldest_blocks h2, retireOldest_blocks h1]
      simp only [← List.drop_one, List.drop_drop]

/-! ### A trap leaves the other groups in their places -/

theorem State.grp_escalate_other (s : State) {k j : Nat} (hj : j ≠ k) (g : Group) (t : Trap) (inh noh : Bool) :
    (s.escalate k g t inh noh).grp j = s.grp j :=
  (congrArg (tabGet · j) (State.coalesce_groups ..)).trans (s.grp_setG_other k j _ hj)

theorem State.grp_deliverTrap_other (s : State) {k j : Nat} (hj : j ≠ k) (g : Group) (t : Trap) : (s.deliverTrap k g t).grp j = s.grp j := by
  unfold State.deliverTrap
  split
  · exact s.grp_escalate_other hj g t _ _
  · dsimp only
    split
    · split
      · exact State.grp_setG_other _ k j _ hj
      · exact s.grp_escalate_other hj g t _ _
    · exact s.grp_escalate_other hj g t _ _

theorem takeTrap_other (s : State) {k j : Nat} (hj : j ≠ k) (g : Group) (t : Trap) : (takeTrap s k g t).grp j = s.grp j := by
  unfold takeTrap
  dsimp only
  split
  · exact State.grp_setG_other _ k j _ hj
  · exact State.grp_deliverTrap_other _ hj _ t

/-! ### A group that retires -/

theorem State.grp_teamFaults_none {s : State} {k : Nat} (hk : s.grp k = none) (g : Group) : (s.teamFaults g).grp k = none := by
  unfold State.teamFaults
  split
  · exact hk
  · split
    · refine List.foldlRecOn (motive := fun t : State => t.grp k = none) _ _ hk fun t ht m _ => ?_
      split
      · next j _ =>
        split
        · next x hx =>
          have hj : k ≠ j := fun h => by
            rw [← h, ht] at hx
            cases hx
          exact (takeTrap_other t hj x _).trans ht
        · exact ht
      · exact ht
    · exact hk

/-- Groups changed in their places: one that is not there is not there. -/
theorem tabGet_map_none {α β : Type} {t : Tab α} {n : Nat} (h : tabGet t n = none) {f : Nat × α → Nat × β} (hf : ∀ p, (f p).1 = p.1) :
    tabGet (t.map f) n = none := by
  refine tabGet_none_of_key fun p hp => ?_
  obtain ⟨q, hq, rfl⟩ := List.mem_map.1 hp
  rw [hf]
  exact tabGet_none_of_ne h hq

theorem State.grp_openBarrier_none {s : State} {k : Nat} (hk : s.grp k = none) (g : Group) (grid : Bool) : (s.openBarrier g grid).grp k = none :=
  tabGet_map_none hk fun _ => (apply_ite Prod.fst _ _ _).trans (ite_self _)

theorem State.endWg_groups (s : State) (n : Nat) : (s.endWg n).groups = s.groups := by
  unfold State.endWg
  dsimp only
  split <;> rfl

theorem State.endWg_wg {s : State} {n : Nat} {w : Wg} (h : tabGet (s.endWg n).wgs n = some w) : tabGet s.wgs n = some w := by
  unfold State.endWg at h
  dsimp only at h
  split at h
  · rw [tabGet_tabDel_same] at h
    cases h
  · exact h

section
variable (s : State) (k : Nat) (g : Group)

/-- The machine with a group's place empty, before its workgroup learns of it. -/
def State.vacated : State :=
  let s := (s.returnFrames k g false).forgetGroup k
  let s := s.l1Drop (hearthOf k) fun l => l.kind == .priv && g.pb ≤ keyPa l.key && keyPa l.key < g.pb + g.areaBytes
  ((({ s with groups := tabDel s.groups k } : State).teamFaults g).openBarrier g false).openBarrier g true

theorem State.retire_eq : s.retire k g =
    (((s.vacated k g).lastClock g.ctx).modWg g.wg fun w => { w with retired := addOnce w.retired g.gidx }).endWg g.wg := rfl

theorem State.grp_retire : (s.retire k g).grp k = none := by
  have hv : (s.vacated k g).grp k = none := by
    refine State.grp_openBarrier_none (State.grp_openBarrier_none (State.grp_teamFaults_none ?_ g) g false) g true
    exact tabGet_tabDel_same _ k
  rw [State.retire_eq]
  exact (congrArg (tabGet · k) (State.endWg_groups _ _)).trans hv

theorem State.retire_retired {w : Wg} (h : tabGet (s.retire k g).wgs g.wg = some w) : g.gidx ∈ w.retired := by
  rw [State.retire_eq] at h
  have hm := State.endWg_wg h
  unfold State.modWg at hm
  rw [tabGet_tabMod, if_pos rfl] at hm
  obtain ⟨w', -, rfl⟩ := Option.map_eq_some_iff.1 hm
  show g.gidx ∈ addOnce w'.retired g.gidx
  unfold addOnce
  split
  · next hc => simpa using hc
  · simp

/-- A group of no team that took no frames leaves memory as it is. -/
theorem State.retire_mem (hf : g.frames = []) (ht : g.base.team = 0) : s.sameMem (s.retire k g) := by
  have hteam : ∀ u : State, u.teamFaults g = u := fun u => if_pos ht
  have hframes : s.returnFrames k g false = s := by
    unfold State.returnFrames
    rw [hf]
    rfl
  have hv : (s.vacated k g).mem = s.mem := by
    unfold State.vacated
    dsimp only
    rw [hteam, hframes]
    rfl
  intro a
  rw [State.retire_eq, State.endWg_mem]
  exact congrArg (memGet · a) hv
end

/-! ### The instructions -/

/-- What a group keeps of itself while it is flushed. -/
theorem Group.sameButRetries_regs {g g' : Group} (h : g.sameButRetries g') : g'.s = g.s ∧ g'.c = g.c ∧ g'.m = g.m ∧ g'.b = g.b ∧
    g'.w = g.w ∧ g'.mode = g.mode ∧ g'.blocks = g.blocks ∧ g'.wg = g.wg ∧ g'.saved = g.saved ∧ g'.stopPc = g.stopPc := by
  obtain ⟨f, a, b, c, -, rfl⟩ := sameButRetries_iff.1 h
  exact ⟨rfl, rfl, rfl, rfl, rfl, rfl, rfl, rfl, rfl, rfl⟩

section
variable {s : State} {k : Nat} {g : Group} (h : s.stokerAt k g)
include h

theorem yield_handler (hn : g.hnd ≠ none) : s.trapsS s .yield k g (trapOperand 0) 4 ∧ s.trapsS s .exit k g (trapOperand 0) 4 := by
  have hs : g.hnd.isSome = true := Option.isSome_iff_ne_none.2 hn
  exact ⟨(onStoker_next h.1 h.2 _).trans (congrArg _ (if_pos hs)), (onStoker_next h.1 h.2 _).trans (congrArg _ (if_pos hs))⟩

variable (hn : g.hnd = none)
include hn

theorem yield_waits (hr : s.retireAll g = none) : s.waitsS s .yield k g := by
  refine State.waitsS_of h.2 ((onStoker_next h.1 h.2 _).trans ?_)
  rw [if_neg (by simp [hn]), hr]

theorem exit_waits (hb : (∃ b ∈ g.blocks, b.st ≠ .stopped) ∨ s.pending g.name = true ∨ s.engaged g = true) : s.waitsS s .exit k g := by
  refine State.waitsS_of h.2 ((onStoker_next h.1 h.2 _).trans ?_)
  rw [if_neg (by simp [hn]), if_pos (by simpa [or_assoc] using hb)]

theorem exit_retires (hb : ¬ ((∃ b ∈ g.blocks, b.st ≠ .stopped) ∨ s.pending g.name = true ∨ s.engaged g = true)) :
    exec .exit s = .next (s.retire k g) := by
  refine (onStoker_next h.1 h.2 _).trans ?_
  rw [if_neg (by simp [hn]), if_neg (by simpa [or_assoc] using hb)]

variable {g1 : Group} (hr : s.retireAll g = some g1)
include hr

/-- Without a damper, or for a group that is not pre-emptible, `yield` retires the blocks alone. -/
theorem yield_goes (hd : ¬ ((tabD s.ctxs g1.ctx {}).damper = true ∧ s.preemptible g1 = true)) : s.becomes .yield k (g1.adv 4) := by
  refine State.becomes_of ((onStoker_next h.1 h.2 _).trans ?_)
  rw [if_neg (by simp [hn]), hr]
  exact congrArg _ (if_neg (by simpa [Group.adv, State.preemptible, State.gridOf] using hd))

theorem yield_saves (hd : (tabD s.ctxs g1.ctx {}).damper = true ∧ s.preemptible g1 = true) : exec .yield s =
    .next (((s.lastClock g1.ctx).saveGroup k { g1.adv 4 with gtime := g1.gtime + 1 }).settle g1.wg g1.ctx) := by
  refine (onStoker_next h.1 h.2 _).trans ?_
  rw [if_neg (by simp [hn]), hr]
  exact congrArg _ (if_pos (by simpa [Group.adv, State.preemptible, State.gridOf] using hd))
end

/-- A group saved while another of its workgroup is not stays where it is, stopped. -/
theorem State.grp_saved_settle {s : State} {k : Nat} (g : Group) {n : Nat} {p : Nat × Group} (hp : p ∈ s.groups) (hk : p.1 ≠ k)
    (hn : p.2.wg = n) (hs : p.2.saved = false) (ctx : Nat) :
    ((s.saveGroup k g).settle n ctx).groups = (s.saveGroup k g).groups := by
  obtain ⟨p', hp', -, hr⟩ := s.saveGroup_mem k g hp hk
  obtain ⟨-, -, -, -, -, -, -, hw, hsv, -⟩ := Group.sameButRetries_regs hr
  exact State.settle_groups_of_unsaved hp' (hw.trans hn) (hsv.trans hs) ctx

theorem pauseDem_eq (n : Nat) : pauseDem n = if 2 ≤ n ∧ n ≠ 18 then 19 else 18 := by simp [pauseDem]

/-- Settles O19: a saved group is `State.saveGroup_same`'s while another of its workgroup remains, and one that exits `State.retire`'s. -/
theorem groupFlow : Obligations.GroupFlow := by
  unfold Obligations.GroupFlow
  intro s k g g1 h hraised up damped busy
  refine ⟨?_, yield_handler h, fun hn hr => ⟨fun hd => ?_, fun hd hex => ?_⟩, yield_waits h, fun hl hr => ?_, exit_waits h, fun hn hb => ?_⟩
  · refine State.becomes_of ((onStoker_next h.1 h.2 _).trans ?_)
    unfold Group.demote
    rw [pauseDem_eq, pauseDem_eq]
    rfl
  · obtain ⟨bl, x, c, rfl⟩ := State.retireAll_onlyRetired hr
    exact yield_goes h hn hr hd
  · obtain ⟨p, hp, hk, hw, hs⟩ := hex
    obtain ⟨bl, x, c, rfl⟩ := State.retireAll_onlyRetired hr
    have he := yield_saves h hn hr hd
    generalize hg1 : ({ g with blocks := bl, s := x, c := c } : Group) = g1 at *
    have hraised1 : g1.raised = none := hg1 ▸ hraised
    obtain ⟨g2, clk, hsame, hgrp⟩ := (s.lastClock g1.ctx).saveGroup_same k { g1.adv 4 with gtime := g1.gtime + 1 }
    obtain ⟨hs2, hc2, hm2, hb2, hw2, hmode2, hbl2, -, -, hpc2⟩ := Group.sameButRetries_regs hsame
    obtain ⟨h1, h2, h3, h4, h5, h6, h7, h8, h9⟩ := g2.stop_regs ((s.lastClock g1.ctx).lostLoads g1.name) clk
    have hset := State.grp_saved_settle (s := s.lastClock g1.ctx) { g1.adv 4 with gtime := g1.gtime + 1 } hp hk
      (n := g1.wg) (by rw [hw, ← hg1]) hs g1.ctx
    refine ⟨_, he, _, (congrArg (tabGet · k) hset).trans hgrp, h1, h2.trans (hpc2.trans ?_), h3.trans hs2, h4.trans hc2, h5.trans hm2,
      h6.trans hb2, h7.trans hw2, h8.trans hmode2, h9.trans hbl2⟩
    show Group.stopPc { g1.adv 4 with gtime := g1.gtime + 1 } = g1.spc + 4
    have hr' : Group.raised { g1.adv 4 with gtime := g1.gtime + 1 } = none := hraised1
    unfold Group.stopPc
    rw [hr']
    rfl
  · rw [State.retireAll_blocks hr]
    exact List.drop_eq_nil_of_le hl
  · exact ⟨_, exit_retires h hn hb, s.grp_retire k g, s.retire_mem k g, fun w hw => s.retire_retired k g hw⟩

end Sys2Proof.Machine
end

section
/-! # Results that come (R143, R144, R179, R249) -/

namespace Sys2Proof.Machine

/-! ### Which results have come -/

/-- The results that have not come, after `old` that have not. -/
def missedOf (clk : Nat) : List Out → List Out → List Out
  | old, [] => old
  | old, o :: r => if o.arrived clk && !old.any o.shares then missedOf clk old r else missedOf clk (old ++ [o]) r

theorem cameOf_cons (clk : Nat) (old : List Out) (o : Out) (r : List Out) : cameOf clk old (o :: r) =
    if o.arrived clk && !old.any o.shares then o :: cameOf clk old r else cameOf clk (old ++ [o]) r := rfl

/-- One more result has come when its values have and it shares no bytes with an older one that has not. -/
theorem cameOf_append (clk : Nat) (old l : List Out) (o : Out) : cameOf clk old (l ++ [o]) = cameOf clk old l ++
    if o.arrived clk && !(missedOf clk old l).any o.shares then [o] else [] := by
  induction l generalizing old with
  | nil =>
    rw [List.nil_append, cameOf_cons]
    unfold missedOf
    split <;> rfl
  | cons a l ih =>
    rw [List.cons_append, cameOf_cons, cameOf_cons]
    unfold missedOf
    split
    · rw [ih, List.cons_append]
    · rw [ih]

theorem cameOf_sublist (clk : Nat) (old l : List Out) : ∀ y ∈ cameOf clk old l, y ∈ l := by
  induction l generalizing old with
  | nil => simp [cameOf]
  | cons a l ih =>
    intro y hy
    rw [cameOf_cons] at hy
    split at hy
    · rcases List.mem_cons.1 hy with rfl | hy
      · exact List.mem_cons_self
      · exact List.mem_cons_of_mem _ (ih _ y hy)
    · exact List.mem_cons_of_mem _ (ih _ y hy)

theorem mem_missedOf {clk : Nat} {old l : List Out} (hl : l.Nodup) {y : Out} :
    y ∈ missedOf clk old l ↔ y ∈ old ∨ (y ∈ l ∧ y ∉ cameOf clk old l) := by
  induction l generalizing old with
  | nil => simp [missedOf]
  | cons a l ih =>
    obtain ⟨ha, hl⟩ := List.nodup_cons.1 hl
    rw [cameOf_cons]
    unfold missedOf
    split
    · rw [ih hl]
      by_cases hya : y = a
      · subst hya
        simp [ha]
      · simp [hya]
    · rw [ih hl]
      have hn : a ∉ cameOf clk (old ++ [a]) l := fun h => ha (cameOf_sublist clk _ l a h)
      by_cases hya : y = a
      · subst hya
        simp [hn]
      · simp [hya]

/-! ### Results written -/

/-- Values in the order in which they are written, each with the number of its register. -/
def Out.writes (o : Out) : List (Nat × LReg) := o.vals.filterMap fun v => v.val.map fun x => (v.t * 256 + v.r, x)

theorem Group.writeOut_v (g : Group) (o : Out) : (g.writeOut o).v = o.writes.foldl (fun t p => tabSet t p.1 p.2) g.v := by
  unfold writeOut Out.writes
  induction o.vals generalizing g with
  | nil => rfl
  | cons v vs ih =>
    rw [List.foldl_cons, List.filterMap_cons]
    cases v.val with
    | none => exact ih g
    | some x => exact ih (g.vSet v.t v.r x)

theorem Group.foldl_writeOut_v (g : Group) (l : List Out) :
    (l.foldl writeOut g).v = (l.flatMap Out.writes).foldl (fun t p => tabSet t p.1 p.2) g.v := by
  induction l generalizing g with
  | nil => rfl
  | cons o l ih => rw [List.foldl_cons, ih, writeOut_v, List.flatMap_cons, List.foldl_append]

/-- A register that no write names keeps its value. -/
theorem tabGet_foldl_tabSet_other {α : Type} {l : List (Nat × α)} {n : Nat} (h : ∀ p ∈ l, p.1 ≠ n) (t : Tab α) :
    tabGet (l.foldl (fun t p => tabSet t p.1 p.2) t) n = tabGet t n := by
  induction l generalizing t with
  | nil => rfl
  | cons p l ih =>
    rw [List.foldl_cons, ih fun q hq => h q (List.mem_cons_of_mem _ hq)]
    exact tabGet_tabSet_other _ _ _ _ (h p List.mem_cons_self)

/-- A register that some write names, and every one with the same value, has that value. -/
theorem tabGet_foldl_tabSet_all {α : Type} {l : List (Nat × α)} {n : Nat} {x : α} (hx : (n, x) ∈ l) (h : ∀ p ∈ l, p.1 = n → p.2 = x)
    (t : Tab α) : tabGet (l.foldl (fun t p => tabSet t p.1 p.2) t) n = some x := by
  induction l generalizing t with
  | nil => cases hx
  | cons p l ih =>
    rw [List.foldl_cons]
    by_cases hl : (n, x) ∈ l
    · exact ih hl (fun q hq => h q (List.mem_cons_of_mem _ hq)) _
    · have hp : p = (n, x) := by
        rcases List.mem_cons.1 hx with h | h
        · exact h.symm
        · exact absurd h hl
      subst hp
      rw [tabGet_foldl_tabSet_other fun q hq he => hl ?_, tabGet_tabSet_same]
      have hv := h q (List.mem_cons_of_mem _ hq) he
      rwa [← he, ← hv]

/-- Registers that no result in a list names are as they were. -/
theorem Group.vGet_foldl_writeOut_other (g : Group) {l : List Out} {t r : Nat} (hr : r < 256)
    (h : ∀ o ∈ l, ∀ v ∈ o.vals, v.r < 256 ∧ (v.t ≠ t ∨ v.r ≠ r)) : (l.foldl writeOut g).vGet t r = g.vGet t r := by
  unfold vGet tabD
  rw [foldl_writeOut_v, tabGet_foldl_tabSet_other]
  intro p hp
  obtain ⟨o, ho, hp⟩ := List.mem_flatMap.1 hp
  obtain ⟨v, hv, hp⟩ := List.mem_filterMap.1 hp
  obtain ⟨x, -, rfl⟩ := Option.map_eq_some_iff.1 hp
  obtain ⟨hvr, hne⟩ := h o ho v hv
  dsimp only
  omega

/-- A register takes the value that came for it, where every result that names it brings the same. -/
theorem Group.vGet_foldl_writeOut (g : Group) {l : List Out} {o : Out} (ho : o ∈ l) {v : OutV} (hv : v ∈ o.vals) {y : LReg}
    (hy : v.val = some y) (h : ∀ o' ∈ l, ∀ v' ∈ o'.vals, v'.t * 256 + v'.r = v.t * 256 + v.r → v'.val = v.val) :
    (l.foldl writeOut g).vGet v.t v.r = y := by
  unfold vGet tabD
  rw [foldl_writeOut_v, tabGet_foldl_tabSet_all (x := y)]
  · rfl
  · exact List.mem_flatMap.2 ⟨o, ho, List.mem_filterMap.2 ⟨v, hv, by rw [hy]; rfl⟩⟩
  · intro p hp he
    obtain ⟨o', ho', hp⟩ := List.mem_flatMap.1 hp
    obtain ⟨v', hv', hp⟩ := List.mem_filterMap.1 hp
    obtain ⟨x, hx, rfl⟩ := Option.map_eq_some_iff.1 hp
    have := (h o' ho' v' hv' he).trans hy
    rw [hx] at this
    exact Option.some.inj this

end Sys2Proof.Machine
end

section
/-! # The events of one group (O47) -/

namespace Sys2Proof.Machine

/-! ### Results -/

/-- The next result has come when it is complete, its time has, and each older one of its bytes has come. -/
theorem cameOf_next (clk : Nat) {l : List Out} (hl : l.Nodup) (o : Out) : cameOf clk [] (l ++ [o]) = cameOf clk [] l ++
    if o.complete = true ∧ o.ready ≤ clk ∧ ∀ y ∈ l, y ∈ cameOf clk [] l ∨ o.shares y = false then [o] else [] := by
  have hmiss : (!(missedOf clk [] l).any o.shares) = true ↔ ∀ y ∈ l, y ∈ cameOf clk [] l ∨ o.shares y = false := by
    simp only [Bool.not_eq_true', List.any_eq_false, mem_missedOf hl, List.not_mem_nil, false_or, Bool.not_eq_true]
    exact ⟨fun h y hy => or_iff_not_imp_left.2 fun hn => h y ⟨hy, hn⟩, fun h y hy => (h y hy.1).resolve_left hy.2⟩
  rw [cameOf_append]
  refine congrArg (cameOf clk [] l ++ ·) (if_congr ?_ rfl rfl)
  rw [Bool.and_eq_true, hmiss, and_assoc.symm]
  simp [Out.arrived]

/-- The results of a split that are written at a clock: those that have come and whose window has ended. -/
theorem Split.mem_ripe {sp : Split} {clk : Nat} {o : Out} : o ∈ sp.ripe clk ↔ o ∈ cameOf clk [] sp.outs ∧ o.left = 0 := by
  simp [ripe]

theorem Group.vGet_setSplit (g : Group) (slot : Nat) (x : Option Split) (t r : Nat) : (g.setSplit slot x).vGet t r = g.vGet t r := by
  unfold vGet setSplit
  split <;> rfl

/-- A result that is written leaves the split; nothing else of the group changes but lane registers. -/
theorem Group.landRipe_frame {g : Group} {slot : Nat} {sp : Split} (hsp : g.split slot = some sp) (clk : Nat) :
    { g.landRipe slot clk with v := g.v } = g.setSplit slot (some { sp with
      outs := sp.outs.filter fun o => !(o.left == 0 && (cameOf clk [] sp.outs).contains o) }) := by
  have hfilter : (sp.outs.filter fun o => !(sp.ripe clk).contains o) =
      sp.outs.filter fun o => !(o.left == 0 && (cameOf clk [] sp.outs).contains o) :=
    List.filter_congr fun o _ => congrArg (! ·) (Bool.eq_iff_iff.2 (by simp [Split.mem_ripe, and_comm]))
  unfold landRipe
  rw [hsp]
  dsimp only
  obtain ⟨v, hv⟩ := OnlyV.foldl writeOut_onlyV (sp.ripe clk) g
  rw [hv, hfilter]
  unfold setSplit
  split <;> rfl

theorem Group.vGet_landRipe {g : Group} {slot : Nat} {sp : Split} (hsp : g.split slot = some sp) (clk t r : Nat) :
    (g.landRipe slot clk).vGet t r = ((sp.ripe clk).foldl writeOut g).vGet t r := by
  unfold landRipe
  rw [hsp]
  exact vGet_setSplit _ _ _ _ _

section
variable {s : State} {k : Nat} {g : Group} (ha : s.ev.a = k) (hg : s.grp k = some g)
include ha hg

theorem State.event_of {i : Instr} {f : Group → State} {t : State} (hi : exec i s = .next (s.onGroup s.ev.a f)) (hf : f g = t) :
    exec i s = .next t := by
  rw [hi]
  unfold State.onGroup
  rw [ha, hg, ← hf]

theorem longLatencyResult_saved (hs : g.saved = true) : exec .longLatencyResult s = .next s :=
  State.event_of ha hg rfl (if_pos hs)

theorem longLatencyResult_lands (hs : g.saved = false) : exec .longLatencyResult s = .next (s.setG k (g.landRipe s.ev.b s.clk)) := by
  refine State.event_of ha hg rfl ?_
  rw [ha]
  exact if_neg (ne_true_of_eq_false hs)

/-! ### Passed over, demoted, rotated -/

theorem escalation_raises (hp : 64 ≤ g.lpass) (he : g.lesc = none) :
    exec .escalation s = .next (({ s with nextId := s.nextId + 1 } : State).setG k { g with lesc := some s.nextId }) := by
  refine State.event_of ha hg rfl ?_
  rw [if_pos (by simp [hp, he]), ha]
  rfl

theorem escalation_keeps (h : g.lpass < 64 ∨ g.lesc ≠ none) : exec .escalation s = .next s :=
  State.event_of ha hg rfl (if_neg (by
    rw [Bool.and_eq_true, decide_eq_true_iff, Option.isNone_iff_eq_none, not_and_or, Nat.not_le]
    exact h))

theorem stokerEscalation_raises (hp : 64 ≤ g.spass) (he : g.sesc = none) :
    exec .stokerEscalation s = .next (({ s with nextId := s.nextId + 1 } : State).setG k { g with sesc := some s.nextId }) := by
  refine State.event_of ha hg rfl ?_
  rw [if_pos (by simp [hp, he]), ha]
  rfl

theorem stokerEscalation_keeps (h : g.spass < 64 ∨ g.sesc ≠ none) : exec .stokerEscalation s = .next s :=
  State.event_of ha hg rfl (if_neg (by
    rw [Bool.and_eq_true, decide_eq_true_iff, Option.isNone_iff_eq_none, not_and_or, Nat.not_le]
    exact h))

theorem demotionEnd_ends : exec .demotionEnd s =
    .next (s.setG k { g with ldem := if g.ldem = 1 then 0 else g.ldem, sdem := if g.sdem = 1 then 0 else g.sdem }) := by
  refine State.event_of ha hg rfl ?_
  rw [ha]

theorem splitRotation_rotates : exec .splitRotation s = .next (s.setStack k g (g.rotate s.ev.b)) := by
  refine State.event_of ha hg rfl ?_
  rw [ha]
end

/-- A group none of whose splits has moved touches no entry of the stack. -/
theorem State.setStack_self (s : State) (k : Nat) (g : Group) : s.setStack k g g = s.setG k g := by
  have hnone : (g.spilled.filter fun p => !g.spilled.contains p) = [] :=
    List.filter_eq_nil_iff.2 fun p hp => by simpa using hp
  unfold State.setStack
  rw [hnone]
  rfl

/-- The split that is brought in is ready, whether it was or was rotated. -/
theorem Split.enter_of_able {x : Split} (h : x.able = true) : x.enter = { x with st := .ready, rot := 0, waiting := false } := by
  unfold enter
  unfold able at h
  rcases Bool.or_eq_true_iff.1 h with h | h
  · rw [eq_of_beq h]
    rfl
  · rw [eq_of_beq h]
    rfl

theorem Group.rotate_due {g : Group} {slot : Nat} {sp : Split} (hsp : g.split slot = some sp) (hr : 64 ≤ sp.rot) (hst : sp.st = .ready)
    {n : Nat} {x : Split} (hx : g.oldestAble = some (n, x)) : g.rotate slot =
    ((({ g with spilled := g.spilled.filter (fun p => p.1 != n) } : Group).setSplit slot
      (some { x with st := .ready, rot := 0, waiting := false })).spill n { sp with st := .rotated, rot := 0 }) := by
  have hable : x.able = true := by
    unfold oldestAble at hx
    exact List.find?_some (p := fun p : Nat × Split => p.2.able) hx
  unfold rotate
  rw [hsp]
  dsimp only
  rw [if_pos (by simp [hr, hst, hx])]
  unfold swapOut
  rw [hx]
  dsimp only
  rw [Split.enter_of_able hable]
  rfl

theorem Group.rotate_early {g : Group} {slot : Nat} {sp : Split} (hsp : g.split slot = some sp) (hr : sp.rot < 64) : g.rotate slot = g := by
  unfold rotate
  rw [hsp]
  exact if_neg (by simp [Nat.not_le.2 hr])

end Sys2Proof.Machine
end

section
/-! # Traps, the timer and the forced save of one group (O47) -/

namespace Sys2Proof.Machine

section
variable {s : State} {k : Nat} {g : Group} (ha : s.ev.a = k) (hg : s.grp k = some g)
include ha hg

/-! ### Traps -/

theorem trapTake_none (h : g.saved = true ∨ g.susp ≠ none ∨ (g.raised = none ∧ g.pendTraps = [])) : exec .trapTake s = .next s := by
  refine State.event_of ha hg rfl ?_
  by_cases hs : (g.saved || g.susp.isSome) = true
  · rw [if_pos hs]
  · rw [if_neg hs]
    simp only [Bool.or_eq_true, Option.isSome_iff_ne_none, not_or] at hs
    obtain ⟨hr, hp⟩ := (h.resolve_left hs.1).resolve_left hs.2
    rw [hr, hp]

variable (hs : g.saved = false) (hu : g.susp = none)
include hs hu

theorem trapTake_raised {t : Trap} (hr : g.raised = some t) : exec .trapTake s = .next (takeTrap s k g t) := by
  refine State.event_of ha hg rfl ?_
  rw [if_neg (by simp [hs, hu]), hr, ha]

variable (hr : g.raised = none) {t : Trap} {r : List Trap} (hp : g.pendTraps = t :: r)
include hr hp

theorem trapTake_pending (ht : imprecise t.code = false) :
    exec .trapTake s = .next (takeTrap s k { g with pendTraps := r } { t with pc := g.spc.setWidth 32 }) := by
  refine State.event_of ha hg rfl ?_
  rw [if_neg (by simp [hs, hu]), hr, hp, ha]
  exact if_neg (ne_true_of_eq_false ht)

theorem trapTake_imprecise (ht : imprecise t.code = true) : exec .trapTake s = .next (s.suspend k { g with pendTraps := r } t) := by
  refine State.event_of ha hg rfl ?_
  rw [if_neg (by simp [hs, hu]), hr, hp, ha]
  exact if_pos ht
end

theorem imprecise_iff (n : Nat) : imprecise n = true ↔ n ∈ [0x16, 0x17, 0x18] := by simp [imprecise, or_assoc]

theorem State.suspend_eq (s : State) (k : Nat) (g : Group) (t : Trap) : ∃ gs ws sv pd hm,
    s.suspend k g t = { s with groups := gs, wgs := ws, served := sv, pend := pd, homes := hm } := ⟨_, _, _, _, _, rfl⟩

/-- A plain suspension changes the group, and what the machine holds of its waiting instructions. -/
theorem State.suspend_frame (s : State) (k : Nat) (g : Group) (t : Trap) :
    (s.suspend k g t).grp k = some { g.landAll.giveUp with yielded := none, susp := some t } ∧
      (∀ j, j ≠ k → (s.suspend k g t).grp j = s.grp j) ∧
      { s.suspend k g t with groups := s.groups, wgs := s.wgs, served := s.served, pend := s.pend, homes := s.homes } = s := by
  refine ⟨State.grp_setG_same _ k _, fun j hj => State.grp_setG_other _ k j _ hj, ?_⟩
  obtain ⟨gs, ws, sv, pd, hm, h⟩ := s.suspend_eq k g t
  rw [h]

section
variable {s : State} {k : Nat} {g : Group} (ha : s.ev.a = k) (hg : s.grp k = some g)
include ha hg

/-! ### The timer -/

theorem groupTimerTrap_raises (hs : g.saved = false) (ht : g.timerTaken = false) (h0 : (s.gridOf g).gtimer ≠ 0)
    (hd : (s.gridOf g).gtimer ≤ g.gtime) : exec .groupTimerTrap s = .next (s.setG k { g with
      pendTraps := g.pendTraps ++ [{ code := 0x14, tmask := fullMask g.width, time := some s.now }], timerTaken := true }) := by
  refine State.event_of ha hg (f := fun g => if s.timerOut g then s.setG s.ev.a { g.raiseLater 0x14 s.now with timerTaken := true } else s)
    rfl ?_
  rw [if_pos (by simp [State.timerOut, hs, ht, h0, hd]), ha]
  rfl

theorem groupTimerTrap_waits (h : g.saved = true ∨ g.timerTaken = true ∨ (s.gridOf g).gtimer = 0 ∨ g.gtime < (s.gridOf g).gtimer) :
    exec .groupTimerTrap s = .next s :=
  State.event_of ha hg (f := fun g => if s.timerOut g then s.setG s.ev.a { g.raiseLater 0x14 s.now with timerTaken := true } else s)
    rfl (if_neg (by
      simp only [State.timerOut, Bool.and_eq_true, Bool.not_eq_true', bne_iff_ne, decide_eq_true_iff]
      rintro ⟨⟨⟨hs, ht⟩, h0⟩, hd⟩
      rw [hs, ht] at h
      simp only [Bool.false_eq_true, false_or] at h
      omega))

/-! ### The forced save -/

theorem forcedSave_keeps (hs : g.saved = false) (hd : (tabD s.ctxs g.ctx {}).damper = false) : exec .forcedSave s = .next s := by
  refine State.event_of ha hg (f := fun g =>
    if s.mustSave g then (s.saveGroup s.ev.a g).settle g.wg g.ctx else if g.saved then s.settle g.wg g.ctx else s) rfl ?_
  have hm : s.mustSave g = false := by
    unfold State.mustSave
    dsimp only
    rw [hd, Bool.and_false]
    rfl
  rw [if_neg (ne_true_of_eq_false hm), if_neg (ne_true_of_eq_false hs)]

theorem forcedSave_saves (hm : s.mustSave g = true) : exec .forcedSave s = .next ((s.saveGroup k g).settle g.wg g.ctx) := by
  refine State.event_of ha hg (f := fun g =>
    if s.mustSave g then (s.saveGroup s.ev.a g).settle g.wg g.ctx else if g.saved then s.settle g.wg g.ctx else s) rfl ?_
  rw [if_pos hm, ha]
end

theorem State.mustSave_of {s : State} {g : Group} (hs : g.saved = false) (hd : (tabD s.ctxs g.ctx {}).damper = true)
    (hp : (s.gridOf g).kern.preempt = true)
    (h : (∃ d, (tabD s.ctxs g.ctx {}).deadline = some d ∧ d ≤ (tabD s.ctxs g.ctx {}).run) ∨ s.partSaved g = true) :
    s.mustSave g = true := by
  have hdue : ((tabD s.ctxs g.ctx {}).deadline.any fun d => d ≤ (tabD s.ctxs g.ctx {}).run) = true ∨ s.partSaved g = true :=
    h.imp_left fun ⟨d, hd, hle⟩ => by rw [hd]; simpa using hle
  unfold State.mustSave State.preemptible
  dsimp only
  rw [hs, hd, hp]
  simpa using hdue

end Sys2Proof.Machine
end

section
/-! # A forced save: the group that stops, and the workgroup that leaves (O47) -/

namespace Sys2Proof.Machine

/-! ### The group that stops -/

/-- A group saved by force as R88, R179, R198, R269, R377 and R382 have it stopped. -/
def Group.StoppedAs (g : Group) (lost : List Redo) (g' : Group) : Prop :=
  let shape := fun (y : Split) => (y.pc, y.mask, y.st, y.j)
  g'.saved = true ∧ g'.sWait = false ∧ g'.raised = none ∧ g'.launching = none ∧ g'.got = none ∧ g'.wBusy = [] ∧
    g'.redo = g.stopRedo lost ∧
    (g.raised = none → g'.spc = g.spc ∧ g'.pendTraps = g.pendTraps) ∧
    (∀ u, g.raised = some u → g'.spc = (if u.code = 0x04 then g.spc - 4 else g.spc) ∧
      g'.pendTraps = if u.code = 0x14 ∨ u.code = 0x15 then u :: g.pendTraps else g.pendTraps) ∧
    g.sameButL1 { g' with
      saved := g.saved, sWait := g.sWait, raised := g.raised, launching := g.launching, got := g.got, wBusy := g.wBusy, redo := g.redo,
      spc := g.spc, pendTraps := g.pendTraps, v := g.v, slot0 := g.slot0, slot1 := g.slot1, spilled := g.spilled, hnd := g.hnd } ∧
    (∃ f : Out → Out, Retries f ∧ g'.hnd = (g.mapOuts f).hnd) ∧
    g'.slot0.map shape = g.slot0.map shape ∧ g'.slot1.map shape = g.slot1.map shape ∧
    g'.spilled.map (fun p => (p.1, shape p.2)) = g.spilled.map (fun p => (p.1, shape p.2))

theorem Group.stopPc_of_raised {g : Group} {u : Trap} (h : g.raised = some u) :
    g.stopPc = (if u.code = 0x04 then g.spc - 4 else g.spc) ∧
      g.stopTraps = if u.code = 0x14 ∨ u.code = 0x15 then u :: g.pendTraps else g.pendTraps := by
  unfold stopPc stopTraps
  rw [h]
  simp

theorem Group.stopPc_of_none {g : Group} (h : g.raised = none) : g.stopPc = g.spc ∧ g.stopTraps = g.pendTraps := by
  unfold stopPc stopTraps
  rw [h]
  exact ⟨rfl, rfl⟩

/-- The group stops as it should although results were given up and lines flushed before. -/
theorem Group.stop_stoppedAs {g g1 : Group} (h : g.sameButRetries g1) (lost : List Redo) (clk : Nat) :
    g.StoppedAs lost (g1.stop lost clk) := by
  obtain ⟨f, a, b, c, hf, rfl⟩ := sameButRetries_iff.1 h
  have hsplits : g.SameSplits (Group.stop { g.mapOuts f with priv := a, privPz := b, privBack := c } lost clk) :=
    (g.mapOuts_sameSplits f).trans (.trans (.of_splits (.refl _) rfl rfl rfl) (stop_sameSplits _ lost clk))
  have hshape := hsplits.shape (f := fun y => (y.pc, y.mask, y.st, y.j)) fun _ => rfl
  generalize hg' : Group.stop { g.mapOuts f with priv := a, privPz := b, privBack := c } lost clk = g' at *
  obtain ⟨v, s0, s1, l, he⟩ := Group.stop_eq { g.mapOuts f with priv := a, privPz := b, privBack := c } lost clk
  have hpc : g'.spc = g.stopPc := by rw [← hg', he]; rfl
  have htraps : g'.pendTraps = g.stopTraps := by rw [← hg', he]; rfl
  refine ⟨?_, ?_, ?_, ?_, ?_, ?_, ?_, fun hr => ?_, fun u hr => ?_, ?_, ⟨f, hf, ?_⟩, hshape⟩
  · rw [← hg', he]
  · rw [← hg', he]
  · rw [← hg', he]
  · rw [← hg', he]
  · rw [← hg', he]
  · rw [← hg', he]
  · rw [← hg', he]
    rfl
  · rw [hpc, htraps]
    exact stopPc_of_none hr
  · rw [hpc, htraps]
    exact stopPc_of_raised hr
  · rw [← hg', he]
    rfl
  · rw [← hg', he]

/-! ### The machine once a group is saved -/

theorem State.withdraw_wgOf (s : State) (g : Group) (n : Nat) :
    ((s.withdraw g).wgOf n).hearth = (s.wgOf n).hearth ∧ ((s.withdraw g).wgOf n).ctx = (s.wgOf n).ctx := by
  unfold State.withdraw State.wgOf tabD
  dsimp only
  rw [tabGet_tabMod]
  split
  · cases tabGet s.wgs n with
    | none => exact ⟨rfl, rfl⟩
    | some w => exact ⟨rfl, rfl⟩
  · exact ⟨rfl, rfl⟩

section
variable (s : State) (k : Nat) (g : Group)

theorem State.saveGroup_rest : ∃ t gs, (((s.setG k g).forgetGroup k).withdraw g).Flushes t ∧ s.saveGroup k g = { t with groups := gs } :=
  ⟨s.flushed k g, _, s.flushed_flushes k g, rfl⟩

theorem State.saveGroup_ctxs : (s.saveGroup k g).ctxs = s.ctxs := by
  obtain ⟨t, gs, h, he⟩ := s.saveGroup_rest k g
  rw [he]
  exact h.ctxs

theorem State.saveGroup_mats : (s.saveGroup k g).mats = s.mats := by
  obtain ⟨t, gs, h, he⟩ := s.saveGroup_rest k g
  rw [he]
  exact h.mats

theorem State.saveGroup_copies : (s.saveGroup k g).copies = s.copies := by
  obtain ⟨t, gs, h, he⟩ := s.saveGroup_rest k g
  rw [he]
  exact h.copies

theorem State.saveGroup_module {op : Nat} (ho : (s.saveGroup k g).awaitsModule op = true) : s.awaitsModule op = true := by
  obtain ⟨t, gs, h, he⟩ := s.saveGroup_rest k g
  rw [he] at ho
  have := h.module op ho
  exact (State.forgetAll_flushes (s.setG k g) _).module op this

theorem State.saveGroup_recs {r : Rec} (hr : r ∈ (s.saveGroup k g).recs) : ∃ q ∈ s.recs, r.hearth = q.hearth ∧ r.ctx = q.ctx := by
  obtain ⟨t, gs, h, he⟩ := s.saveGroup_rest k g
  rw [he] at hr
  exact h.recs r hr

/-- A workgroup keeps its place and its context where an arrival is withdrawn. -/
theorem State.saveGroup_wgOf (n : Nat) :
    ((s.saveGroup k g).wgOf n).hearth = (s.wgOf n).hearth ∧ ((s.saveGroup k g).wgOf n).ctx = (s.wgOf n).ctx := by
  obtain ⟨t, gs, h, he⟩ := s.saveGroup_rest k g
  have hw : (s.saveGroup k g).wgOf n = (((s.setG k g).forgetGroup k).withdraw g).wgOf n := by
    rw [he]
    exact congrArg (tabD · n _) h.wgs
  rw [hw]
  exact ((s.setG k g).forgetGroup k).withdraw_wgOf g n
end

/-! ### The workgroup that leaves -/

theorem State.mayLeave_of {s : State} {n : Nat} (hg : ∀ p ∈ s.groups, p.2.wg = n → p.2.saved = true)
    (hr : (tabD s.ctxs (s.wgOf n).ctx {}).restoring = false)
    (hm : ∀ m ∈ s.mats, m.wg = n → m.going = false ∧ s.awaitsModule m.id = false) (hc : ∀ q ∈ s.copies, q.wg = n → s.awaitsModule q.id = false)
    (hrec : ∀ q ∈ s.recs, q.hearth = (s.wgOf n).hearth → q.ctx ≠ (s.wgOf n).ctx) : s.mayLeave n = true := by
  have h1 : (s.groups.all fun (p : Nat × Group) => p.2.wg != n || p.2.saved) = true :=
    List.all_eq_true.2 fun p hp => by
      by_cases hn : p.2.wg = n
      · simp [hg p hp hn]
      · simp [hn]
  have h3 : (s.mats.any fun m => m.wg == n && (m.going || s.awaitsModule m.id)) = false :=
    List.any_eq_false.2 fun m hmem => by
      by_cases hn : m.wg = n
      · obtain ⟨ha, hb⟩ := hm m hmem hn
        simp [ha, hb]
      · simp [hn]
  have h4 : (s.copies.any fun c => c.wg == n && s.awaitsModule c.id) = false :=
    List.any_eq_false.2 fun q hmem => by
      by_cases hn : q.wg = n
      · simp [hc q hmem hn]
      · simp [hn]
  have h5 : (s.recs.any fun r => r.hearth == (s.wgOf n).hearth && r.ctx == (s.wgOf n).ctx && r.closed && !r.held) = false :=
    List.any_eq_false.2 fun r hmem => by
      by_cases hh : r.hearth = (s.wgOf n).hearth
      · simp [hrec r hmem hh]
      · simp [hh]
  unfold State.mayLeave
  dsimp only
  rw [h1, hr, h3, h4, h5]
  rfl

/-- The groups and engine operations of a machine. -/
def State.work (s : State) : Tab Group × List Copy × List MatOp := (s.groups, s.copies, s.mats)

theorem State.OnlyLines.work {s t : State} (h : s.OnlyLines t) : t.work = s.work := (congrArg State.work h :)

theorem State.retain_only (s : State) (pa : Nat) : s.OnlyLines (s.retain pa) := rfl

theorem State.backUpPage_only (s : State) (w : Wg) (page : Nat) (x : SpPage) : s.OnlyLines (s.backUpPage w page x) := by
  unfold State.backUpPage
  exact .trans (.foldl (fun s i => (s.touchL2_only _ _ _).trans (State.retain_only _ _)) _ _) (.foldl (fun s i => s.poke_only _ _ _) _ _)

theorem State.backUp_work (s : State) (w : Wg) : (s.backUp w).work = s.work := by
  unfold State.backUp
  refine State.OnlyLines.work (.foldl (fun s p => ?_) _ _)
  split
  · exact s.backUpPage_only _ _ _
  · exact .refl s

theorem State.pokeRaw_work (s : State) (pa : Nat) (data : List Byte) : (s.pokeRaw pa data).work = s.work :=
  ((s.poke_only pa data false).work :)

theorem State.work_saved (s : State) (l : List Saved) : ({ s with saved := l } : State).work = s.work := rfl

theorem State.work_stamp (s : State) : s.stamp.work = s.work := rfl

theorem State.moveOut_work (s : State) (h ctx : Nat) : (s.moveOut h ctx).work = s.work := by
  unfold State.moveOut
  dsimp only
  rw [State.work_saved]
  exact List.foldlRecOn (motive := fun t : State => t.work = s.work) _ _ rfl fun t ht c _ =>
    (t.stamp.pokeRaw_work _ _).trans (t.work_stamp.trans ht)

/-- A workgroup that may leave takes its groups and operations with it. -/
theorem State.saveWg_leaves {s : State} {n : Nat} (hl : s.mayLeave n = true) {p : Nat × Group} (hp : p ∈ s.groups) (hn : p.2.wg = n) :
    (s.saveWg n).work = (s.groups.filter (fun p => p.2.wg != n), s.copies.filter (·.wg != n), s.mats.filter (·.wg != n)) ∧
      tabGet (s.saveWg n).wgs n = none ∧
      ∃ v ∈ (s.saveWg n).saved, v.wgid = n ∧ v.back = false ∧ v.copies = s.copies.filter (·.wg == n) ∧
        v.crecs = v.copies.map Copy.record ∧ v.mats = s.mats.filter (·.wg == n) ∧ v.groups = s.groups.filter (fun p => p.2.wg == n) := by
  have hgs : (s.groups.filter fun (p : Nat × Group) => p.2.wg == n).isEmpty = false :=
    List.isEmpty_eq_false_iff.2 (List.ne_nil_of_mem (List.mem_filter.2 ⟨hp, by simp [hn]⟩))
  have hwork := ((s.backUp (s.wgOf n)).moveOut_work (s.wgOf n).hearth (s.wgOf n).ctx).trans (s.backUp_work (s.wgOf n))
  unfold State.saveWg
  dsimp only
  rw [if_neg (by rw [hgs, hl]; simp)]
  generalize (s.backUp (s.wgOf n)).moveOut (s.wgOf n).hearth (s.wgOf n).ctx = t at *
  obtain ⟨hg, hwork⟩ := Prod.mk.inj hwork
  obtain ⟨hc, hm⟩ := Prod.mk.inj hwork
  refine ⟨?_, tabGet_tabDel_same _ n, _, List.mem_append_right _ List.mem_cons_self, rfl, rfl, ?_, rfl, ?_, rfl⟩
  · unfold State.work
    dsimp only
    rw [hg, hc, hm]
  · dsimp only
    rw [hc]
  · dsimp only
    rw [hm]

theorem State.damperDone_rest (s : State) (ctx : Nat) : (s.damperDone ctx).work = s.work ∧ (s.damperDone ctx).wgs = s.wgs ∧
    (s.damperDone ctx).saved = s.saved := by
  unfold State.damperDone State.cmdEnd
  split
  · split
    · exact ⟨rfl, rfl, rfl⟩
    · exact ⟨rfl, rfl, rfl⟩
  · exact ⟨rfl, rfl, rfl⟩

end Sys2Proof.Machine
end

section
/-! # The events of one group settled (O47) -/

namespace Sys2Proof.Machine

section
variable {s : State} {k : Nat} {g : Group} (hg : s.grp k = some g)

/-- While another group of its workgroup is not saved, the group stops in its place and the others stay in theirs. -/
theorem State.saveGroup_stays {j : Nat} {g2 : Group} (hj : j ≠ k) (hg2 : s.grp j = some g2) (hw : g2.wg = g.wg) (hs : g2.saved = false) :
    (∃ g', ((s.saveGroup k g).settle g.wg g.ctx).grp k = some g' ∧ g.StoppedAs (s.lostLoads g.name) g') ∧
      ∀ j y, j ≠ k → s.grp j = some y → ∃ y', ((s.saveGroup k g).settle g.wg g.ctx).grp j = some y' ∧ y.sameButRetries y' := by
  have hset := State.grp_saved_settle (s := s) (k := k) g (tabGet_mem hg2) hj hw hs g.ctx
  obtain ⟨g1, clk, hsame, hgrp⟩ := s.saveGroup_same k g
  refine ⟨⟨_, (congrArg (tabGet · k) hset).trans hgrp, Group.stop_stoppedAs hsame _ clk⟩, fun j y hj hy => ?_⟩
  obtain ⟨y', hy', hr⟩ := s.saveGroup_other k g hj hy
  exact ⟨y', (congrArg (tabGet · j) hset).trans hy', hr⟩

variable (hsort : Sorted s.groups)
include hg hsort

/-- An entry of the table once a group is saved is that of a group that was there. -/
theorem State.saveGroup_entry {p : Nat × Group} (hp : p ∈ (s.saveGroup k g).groups) :
    ∃ y, (p.1, y) ∈ s.groups ∧ p.2.wg = y.wg ∧ (p.1 ≠ k → p.2.saved = y.saved) ∧ (p.1 = k → p.2.saved = true) := by
  have hkeys := s.saveGroup_keys k g hsort hg
  have hget : (s.saveGroup k g).grp p.1 = some p.2 := tabGet_of_mem (by unfold Sorted; rw [hkeys]; exact hsort) hp
  obtain ⟨q, hq, hqp⟩ := List.mem_map.1 (hkeys ▸ List.mem_map.2 ⟨p, hp, rfl⟩ : p.1 ∈ s.groups.map (·.1))
  have hqg : s.grp p.1 = some q.2 := hqp ▸ tabGet_of_mem hsort hq
  refine ⟨q.2, hqp ▸ hq, ?_⟩
  by_cases hk : p.1 = k
  · obtain ⟨g1, clk, hsame, hgrp⟩ := s.saveGroup_same k g
    rw [hk] at hget hqg
    have hp2 : p.2 = g1.stop (s.lostLoads g.name) clk := Option.some.inj (hget.symm.trans hgrp)
    have hq2 : q.2 = g := Option.some.inj (hqg.symm.trans hg)
    obtain ⟨v, a, b, l, he⟩ := g1.stop_eq (s.lostLoads g.name) clk
    obtain ⟨-, -, -, -, -, -, -, hwg, -, -⟩ := Group.sameButRetries_regs hsame
    rw [hp2, hq2, he]
    exact ⟨hwg, fun h => absurd hk h, fun _ => rfl⟩
  · obtain ⟨y', hy', hr⟩ := s.saveGroup_other k g hk hqg
    rw [Option.some.inj (hget.symm.trans hy')]
    obtain ⟨-, -, -, -, -, -, -, hwg, hsv, -⟩ := Group.sameButRetries_regs hr
    exact ⟨hwg, fun _ => hsv, fun h => absurd h hk⟩

/-- A workgroup whose last group is saved may leave, where nothing of it is under way elsewhere. -/
theorem State.saveGroup_mayLeave (hall : ∀ p ∈ s.groups, p.1 ≠ k → p.2.wg = g.wg → p.2.saved = true)
    (hr : (tabD s.ctxs (s.wgOf g.wg).ctx {}).restoring = false)
    (hm : ∀ m ∈ s.mats, m.wg = g.wg → m.going = false ∧ s.awaitsModule m.id = false)
    (hc : ∀ q ∈ s.copies, q.wg = g.wg → s.awaitsModule q.id = false)
    (hrec : ∀ q ∈ s.recs, q.hearth = (s.wgOf g.wg).hearth → q.ctx ≠ (s.wgOf g.wg).ctx) : (s.saveGroup k g).mayLeave g.wg = true := by
  obtain ⟨hh, hctx⟩ := s.saveGroup_wgOf k g g.wg
  have hmod : ∀ op, s.awaitsModule op = false → (s.saveGroup k g).awaitsModule op = false := fun op h =>
    Bool.eq_false_iff.2 fun ht => Bool.eq_false_iff.1 h (s.saveGroup_module k g ht)
  refine State.mayLeave_of (fun p hp hw => ?_) ?_ (fun m hmem hw => ?_) (fun q hmem hw => ?_) fun r hmem hrh => ?_
  · obtain ⟨y, hy, hwg, hne, heq⟩ := State.saveGroup_entry hg hsort hp
    by_cases hk : p.1 = k
    · exact heq hk
    · exact (hne hk).trans (hall _ hy hk (hwg.symm.trans hw))
  · rw [hctx, s.saveGroup_ctxs k g]
    exact hr
  · rw [s.saveGroup_mats k g] at hmem
    obtain ⟨h1, h2⟩ := hm m hmem hw
    exact ⟨h1, hmod _ h2⟩
  · rw [s.saveGroup_copies k g] at hmem
    exact hmod _ (hc q hmem hw)
  · obtain ⟨q, hq, h1, h2⟩ := s.saveGroup_recs k g hmem
    rw [h2, hctx]
    exact hrec q hq (by rw [← h1, hrh, hh])

/-- A workgroup whose last group is saved leaves with its groups and operations. -/
theorem State.saveGroup_leaves (hl : (s.saveGroup k g).mayLeave g.wg = true) :
    let u := (s.saveGroup k g).settle g.wg g.ctx
    (∀ p ∈ u.groups, p.2.wg ≠ g.wg) ∧ tabGet u.wgs g.wg = none ∧ (∀ q ∈ u.copies, q.wg ≠ g.wg) ∧
      (∀ m ∈ u.mats, m.wg ≠ g.wg) ∧ ∃ v ∈ u.saved, v.wgid = g.wg ∧ v.back = false ∧ v.copies = s.copies.filter (·.wg == g.wg) ∧
        v.crecs = v.copies.map Copy.record ∧ v.mats = s.mats.filter (·.wg == g.wg) ∧
        (∃ g', g.StoppedAs (s.lostLoads g.name) g' ∧ (k, g') ∈ v.groups) ∧
        (∀ p ∈ s.groups, p.1 ≠ k → p.2.wg = g.wg → ∃ y, (p.1, y) ∈ v.groups ∧ p.2.sameButRetries y) ∧
        ∀ p ∈ v.groups, p.1 = k ∨ ∃ q ∈ s.groups, q.1 = p.1 ∧ q.2.wg = g.wg := by
  intro u
  obtain ⟨g1, clk, hsame, hgrp⟩ := s.saveGroup_same k g
  have hstop := Group.stop_stoppedAs hsame (s.lostLoads g.name) clk
  have hmem := tabGet_mem hgrp
  obtain ⟨y, hy, hwg, -, -⟩ := State.saveGroup_entry hg hsort hmem
  have hyg : y = g := Option.some.inj ((tabGet_of_mem hsort hy).symm.trans hg)
  have hwk : (g1.stop (s.lostLoads g.name) clk).wg = g.wg := hwg.trans (congrArg Group.wg hyg)
  obtain ⟨hwork, hwgs, v, hv, hid, hback, hvc, hcr, hvm, hvg⟩ := State.saveWg_leaves hl hmem hwk
  obtain ⟨hdw, hdg, hds⟩ := ((s.saveGroup k g).saveWg g.wg).damperDone_rest g.ctx
  obtain ⟨hug, huo⟩ := Prod.mk.inj (hdw.trans hwork)
  obtain ⟨huc, hum⟩ := Prod.mk.inj huo
  rw [s.saveGroup_copies k g] at hvc
  rw [s.saveGroup_mats k g] at hvm
  refine ⟨fun p hp => ?_, (congrArg (tabGet · g.wg) hdg).trans hwgs, fun q hq => ?_, fun m hm => ?_, v, hds.symm ▸ hv, hid, hback, hvc, hcr, hvm,
    ⟨_, hstop, ?_⟩, fun p hp hk hw => ?_, fun p hp => .inr ?_⟩
  · have := hug ▸ hp
    simpa using (List.mem_filter.1 this).2
  · have := huc ▸ hq
    simpa using (List.mem_filter.1 this).2
  · have := hum ▸ hm
    simpa using (List.mem_filter.1 this).2
  · rw [hvg]
    exact List.mem_filter.2 ⟨hmem, by simp [hwk]⟩
  · obtain ⟨p', hp', hk', hr⟩ := s.saveGroup_mem k g hp hk
    obtain ⟨-, -, -, -, -, -, -, hwg', -, -⟩ := Group.sameButRetries_regs hr
    refine ⟨p'.2, ?_, hr⟩
    rw [hvg, ← hk']
    exact List.mem_filter.2 ⟨hp', by simp [hwg', hw]⟩
  · rw [hvg] at hp
    obtain ⟨hp, hw⟩ := List.mem_filter.1 hp
    obtain ⟨y, hy, hwg, -, -⟩ := State.saveGroup_entry hg hsort hp
    exact ⟨_, hy, rfl, hwg.symm.trans (eq_of_beq hw)⟩
end

/-- Settles O47: each event by the lemma of its name; a save by what it leaves of the group that stops and of those beside it. -/
theorem groupEvents : Obligations.GroupEvents := by
  unfold Obligations.GroupEvents
  intro s k g sp n x t r ha hg becomes came ripe timer c forced shape stopped keeps
  have hmust : forced → s.mustSave g = true := fun ⟨hs, hd, hp, h⟩ => State.mustSave_of hs hd hp h
  refine ⟨fun l o hl => cameOf_next s.clk hl o, longLatencyResult_saved ha hg, fun hs hsp => ?_, escalation_raises ha hg, escalation_keeps ha hg,
    stokerEscalation_raises ha hg, stokerEscalation_keeps ha hg, demotionEnd_ends ha hg, fun hsp hr hst hx => ?_, fun hsp hr => ?_,
    trapTake_none ha hg, fun hs hu hr => trapTake_raised ha hg hs hu hr, fun hr hp hs hu => ⟨fun ht => ?_, fun ht => ?_⟩, groupTimerTrap_raises ha hg,
    groupTimerTrap_waits ha hg, forcedSave_keeps ha hg, fun hf hex => ?_, fun hf hsort hall hr hm hc hrec => ?_⟩
  · refine ⟨_, longLatencyResult_lands ha hg hs, _, rfl, Group.landRipe_frame hsp s.clk, fun th r hr h => ?_, fun o ho hrp v hv y hy h => ?_⟩
    · rw [Group.vGet_landRipe hsp]
      exact g.vGet_foldl_writeOut_other hr fun o ho =>
        h o (cameOf_sublist s.clk [] sp.outs o (Split.mem_ripe.1 ho).1) (Split.mem_ripe.1 ho)
    · rw [Group.vGet_landRipe hsp]
      exact g.vGet_foldl_writeOut (Split.mem_ripe.2 hrp) hv hy fun o' ho' =>
        h o' (cameOf_sublist s.clk [] sp.outs o' (Split.mem_ripe.1 ho').1) (Split.mem_ripe.1 ho')
  · rw [splitRotation_rotates ha hg, Group.rotate_due hsp hr hst hx]
  · exact (splitRotation_rotates ha hg).trans (by rw [Group.rotate_early hsp hr, State.setStack_self])
  · exact trapTake_pending ha hg hs hu hr hp (Bool.eq_false_iff.2 fun h => ht ((imprecise_iff _).1 h))
  · exact ⟨_, trapTake_imprecise ha hg hs hu hr hp ((imprecise_iff _).2 ht), s.suspend_frame k _ t⟩
  · obtain ⟨j, g2, hj, hg2, hw, hs⟩ := hex
    exact ⟨_, forcedSave_saves ha hg (hmust hf), State.saveGroup_stays hj hg2 hw hs⟩
  · exact ⟨_, forcedSave_saves ha hg (hmust hf),
      State.saveGroup_leaves hg hsort (State.saveGroup_mayLeave hg hsort hall hr hm hc hrec)⟩

end Sys2Proof.Machine
end

section
/-! # The lane compares (O35) -/

namespace Sys2Proof.Machine

/-! ### The relations of R51 on integer codes -/

/-- Two codes of a width stand for one signed number exactly where their low bits agree. -/
theorem sintOf_inj_iff (w x y : Nat) : sintOf w x = sintOf w y ↔ x % 2 ^ w = y % 2 ^ w := by
  have hx : ((x % 2 ^ w : Nat) : Int) < 2 ^ w := by exact_mod_cast Nat.mod_lt x (Nat.two_pow_pos w)
  have hy : ((y % 2 ^ w : Nat) : Int) < 2 ^ w := by exact_mod_cast Nat.mod_lt y (Nat.two_pow_pos w)
  refine ⟨fun h => ?_, fun h => by unfold sintOf; rw [h]⟩
  unfold sintOf at h
  dsimp only at h
  split at h <;> split at h <;> omega

/-- A compare of integer codes is the relation on the integers that they stand for. -/
theorem intRel_eq_relation (cc ty x y : Nat) :
    intRel cc (tySigned ty) (tyBits ty) x y = relation cc (intOf ty x) (intOf ty y) := by
  have hlt : ∀ a b, (if tySigned ty then decide (sintOf (tyBits ty) a < sintOf (tyBits ty) b)
      else decide (a % 2 ^ tyBits ty < b % 2 ^ tyBits ty)) = decide (intVal ty a < intVal ty b) := fun a b => by
    unfold intVal
    split
    · rfl
    · exact decide_eq_decide.2 Int.ofNat_lt.symm
  have heq : (x % 2 ^ tyBits ty == y % 2 ^ tyBits ty) = decide (intVal ty x = intVal ty y) := by
    unfold intVal
    rw [beq_eq_decide]
    split
    · exact decide_eq_decide.2 (sintOf_inj_iff _ _ _).symm
    · exact decide_eq_decide.2 Int.ofNat_inj.symm
  rw [← intVal_eq_intOf, ← intVal_eq_intOf]
  match cc with
  | 0 => exact heq
  | 1 => exact (congrArg (!·) heq).trans decide_not.symm
  | 2 => exact hlt x y
  | 3 => exact (congrArg (!·) (hlt y x)).trans (not_decide_lt _ _)
  | 4 => exact hlt y x
  | n + 5 => exact (congrArg (!·) (hlt x y)).trans (not_decide_lt _ _)

/-! ### The relations of R151 on values -/

theorem Num.lt_nan (a : Num) : a.lt .nan = false := by cases a <;> rfl

theorem Num.nan_lt (b : Num) : Num.nan.lt b = false := rfl

/-- No value is below another where one of them is a NaN. -/
theorem Num.lt_of_nan {a b : Num} (h : a = .nan ∨ b = .nan) : a.lt b = false := by
  rcases h with rfl | rfl
  · exact Num.nan_lt b
  · exact Num.lt_nan a

theorem Num.ordered_of_lt {a b : Num} (h : a.lt b = true) : ¬ (a = .nan ∨ b = .nan) := fun hn => by
  rw [Num.lt_of_nan hn] at h
  cases h

theorem Num.eq_iff (a b : Num) : a.eq b = true ↔ ¬ (a = .nan ∨ b = .nan) ∧ a.lt b = false ∧ b.lt a = false := by
  unfold Num.eq
  simp [not_or, and_assoc]

theorem Num.unordered_iff (a b : Num) : (a == .nan || b == .nan) = true ↔ a = .nan ∨ b = .nan := by simp

/-- The floating relations: a NaN is equal to nothing, unordered, and in no order. -/
theorem Num.rel_iff (cc : Nat) (a b : Num) : Num.rel cc a b = true ↔
    match cc with
    | 0 => ¬ (a = .nan ∨ b = .nan) ∧ a.lt b = false ∧ b.lt a = false
    | 1 => (a = .nan ∨ b = .nan) ∨ a.lt b = true ∨ b.lt a = true
    | 2 => ¬ (a = .nan ∨ b = .nan) ∧ a.lt b = true
    | 3 => ¬ (a = .nan ∨ b = .nan) ∧ b.lt a = false
    | 4 => ¬ (a = .nan ∨ b = .nan) ∧ b.lt a = true
    | 5 => ¬ (a = .nan ∨ b = .nan) ∧ a.lt b = false
    | 6 => a = .nan ∨ b = .nan
    | _ => ¬ (a = .nan ∨ b = .nan) := by
  have hord : (!(a == .nan || b == .nan)) = true ↔ ¬ (a = .nan ∨ b = .nan) := by
    rw [Bool.not_eq_true', ← Bool.not_eq_true, Num.unordered_iff]
  have hle : ∀ c : Bool, (!(a == .nan || b == .nan) && !c) = true ↔ ¬ (a = .nan ∨ b = .nan) ∧ c = false := fun c => by
    rw [Bool.and_eq_true, hord, Bool.not_eq_true']
  have hne : (!a.eq b) = true ↔ (a = .nan ∨ b = .nan) ∨ a.lt b = true ∨ b.lt a = true := by
    rw [Bool.not_eq_true', ← Bool.not_eq_true, Num.eq_iff]
    simp only [not_and_or, not_not, Bool.not_eq_false]
  match cc with
  | 0 => exact Num.eq_iff a b
  | 1 => exact hne
  | 2 => exact ⟨fun h => ⟨Num.ordered_of_lt h, h⟩, And.right⟩
  | 3 => exact hle _
  | 4 => exact ⟨fun h => ⟨fun hn => Num.ordered_of_lt h hn.symm, h⟩, And.right⟩
  | 5 => exact hle _
  | 6 => exact Num.unordered_iff a b
  | n + 7 => exact hord

/-! ### What a compare leaves (R146) -/

section
variable (s : State) (f : LaneF)

theorem exec_laneCmp : exec (.laneCmp f) s = laneRun s f fun e => e.compare (intRel f.vc.toNat (tySigned e.ty) (tyBits e.ty)) := rfl
theorem exec_laneCmpF32 : exec (.laneCmpF32 f) s = laneRun s f fun e => e.compare (e.fenv.rel f.vc.toNat) := rfl
theorem exec_laneCmpF64 : exec (.laneCmpF64 f) s = laneRun s f fun e => e.compare (e.fenv.rel f.vc.toNat) := rfl
theorem exec_laneCmpPacked : exec (.laneCmpPacked f) s = laneRun s f fun e => e.compare fun a b =>
    e.fenv.rel f.vc.toNat (a % 2 ^ 16) (b % 2 ^ 16) && e.fenv.rel f.vc.toNat (a / 2 ^ 16 % 2 ^ 16) (b / 2 ^ 16 % 2 ^ 16) := rfl
end

section
variable {s : State} {e : LEnv} {i : Instr} {rel : LEnv → Nat → Nat → Bool}

/-- A compare of sources that are not poisoned writes its relation. -/
theorem LEnv.putsM_of_compare (hi : e.issues s) (hc : e.clean fun t => (e.opA t).pz || (e.opB t).pz)
    (hx : exec i s = laneRun s e.f fun e => e.compare (rel e)) :
    e.putsM s i e.f.vd.toNat fun t => rel e (e.opA t).x (e.opB t).x :=
  putsM_of_writeMask hi ((hx.trans (laneRun_eq hi _)).trans (congrArg _ (guard_clean hc _)))

/-- A compare that an acting thread would give poison to traps for such threads. -/
theorem LEnv.traps_of_compare (hi : e.issues s) (hc : ¬ e.clean fun t => (e.opA t).pz || (e.opB t).pz)
    (hx : exec i s = laneRun s e.f fun e => e.compare (rel e)) :
    e.traps s i { code := 0x0B } (maskOf (e.ts.filter fun t => (e.opA t).pz || (e.opB t).pz)) :=
  (hx.trans (laneRun_eq hi _)).trans (congrArg _ (guard_poisoned hc _))
end

/-- Settles O35: a compare writes its relation or traps, and the relations are those of the values that the codes stand for. -/
theorem laneCompare : Obligations.LaneCompare := by
  unfold Obligations.LaneCompare
  intro s e hi cc N rel bad
  have hrel : ∀ a b, e.fenv.rel cc a b = true ↔ rel a b := fun a b => Num.rel_iff cc (N a) (N b)
  refine ⟨fun hc => ⟨fun _ _ _ => ?_, ?_, fun _ _ => ?_⟩, fun hc => ?_⟩
  · simp only [← intRel_eq_relation]
    exact LEnv.putsM_of_compare hi hc (exec_laneCmp s e.f)
  · simp only [List.forall_mem_cons]
    exact ⟨fun _ _ => ⟨_, fun t => hrel _ _, LEnv.putsM_of_compare hi hc (exec_laneCmpF32 s e.f)⟩,
      fun _ _ => ⟨_, fun t => hrel _ _, LEnv.putsM_of_compare hi hc (exec_laneCmpF64 s e.f)⟩, fun _ h => nomatch h⟩
  · exact ⟨_, fun t => Bool.and_eq_true_iff.trans (and_congr (hrel _ _) (hrel _ _)),
      LEnv.putsM_of_compare hi hc (exec_laneCmpPacked s e.f)⟩
  · simp only [List.forall_mem_cons]
    exact ⟨LEnv.traps_of_compare hi hc (exec_laneCmp s e.f), LEnv.traps_of_compare hi hc (exec_laneCmpF32 s e.f),
      LEnv.traps_of_compare hi hc (exec_laneCmpF64 s e.f), LEnv.traps_of_compare hi hc (exec_laneCmpPacked s e.f), fun _ h => nomatch h⟩

end Sys2Proof.Machine
end

section
/-! # The floating lane instructions and the approximations (O36, O37) -/

namespace Sys2Proof.Machine

/-! ### Results of one, two and three sources (R146) -/

section
variable {s : State} {e : LEnv} {i : Instr} (hi : e.issues s) (hf : e.free (tyRegs e.ty))
include hi hf

theorem LEnv.puts_of_map1 {op : LEnv → Nat → Nat} (hx : exec i s = laneRun s e.f fun e => e.write (e.map1 (op e))) :
    e.puts s i (tyRegs e.ty) fun t => ⟨op e (e.opA t).x, (e.opA t).pz⟩ :=
  puts_of_write hi hf (hx.trans (laneRun_eq hi _))

theorem LEnv.puts_of_map2 {op : LEnv → Nat → Nat → Nat} (hx : exec i s = laneRun s e.f fun e => e.write (e.map2 (op e))) :
    e.puts s i (tyRegs e.ty) fun t => ⟨op e (e.opA t).x (e.opB t).x, (e.opA t).pz || (e.opB t).pz⟩ :=
  puts_of_write hi hf (hx.trans (laneRun_eq hi _))

theorem LEnv.puts_of_map3 {op : LEnv → Nat → Nat → Nat → Nat} (hx : exec i s = laneRun s e.f fun e => e.write (e.map3 (op e))) :
    e.puts s i (tyRegs e.ty) fun t => ⟨op e (e.opA t).x (e.opB t).x (e.opC t).x, (e.opA t).pz || (e.opB t).pz || (e.opC t).pz⟩ :=
  puts_of_write hi hf (hx.trans (laneRun_eq hi _))

theorem LEnv.putsLong_of_map1 {op : LEnv → Nat → Nat} (hx : exec i s = laneRun s e.f fun e => e.writeLong (e.map1 (op e))) :
    e.putsLong s i (tyRegs e.ty) fun t => ⟨op e (e.opA t).x, (e.opA t).pz⟩ :=
  putsLong_of hi hf (hx.trans (laneRun_eq hi _))

theorem LEnv.putsLong_of_map2 {op : LEnv → Nat → Nat → Nat} (hx : exec i s = laneRun s e.f fun e => e.writeLong (e.map2 (op e))) :
    e.putsLong s i (tyRegs e.ty) fun t => ⟨op e (e.opA t).x (e.opB t).x, (e.opA t).pz || (e.opB t).pz⟩ :=
  putsLong_of hi hf (hx.trans (laneRun_eq hi _))
end

/-! ### The forms of a floating operation (R150) -/

theorem effDir_eq (mode : BitVec 32) (rnd : BitVec 3) : effDir mode rnd.toNat = if rnd = 0 then mode.toNat % 8 else rnd.toNat := by
  unfold effDir
  simp only [BitVec.toNat_eq]
  rfl

/-- The floating environment of an instruction: its format, whether MODE flushes it, and EffDir (R130, R133). -/
theorem LEnv.fenv_eq (e : LEnv) :
    e.fenv = ⟨fmtD e.ty, flushOn e.snap.mode e.ty, if e.f.rnd = 0 then e.snap.mode.toNat % 8 else e.f.rnd.toNat⟩ := by
  unfold fenv
  rw [effDir_eq]

section
variable {s : State} {e : LEnv} {single double packed : Instr}

/-- The three forms of an operation: `.f32` and `.f64` on the value, the packed types on both halves. -/
theorem LEnv.puts_forms {out halves : Nat → Opd} (h32 : e.puts s single (tyRegs e.ty) out)
    (h64 : e.puts s double (tyRegs e.ty) out) (hp : e.puts s packed (tyRegs e.ty) halves) :
    (e.ty = 10 → e.puts s single 1 out) ∧ (e.ty = 11 → e.puts s double 2 out) ∧
      (e.ty = 8 ∨ e.ty = 9 → e.puts s packed 1 halves) := by
  refine ⟨fun h => ?_, fun h => ?_, fun h => ?_⟩
  · rwa [h] at h32
  · rwa [h] at h64
  · rcases h with h | h <;> rwa [h] at hp

variable {q : FEnv} (hi : e.issues s) (hf : e.free (tyRegs e.ty)) (hq : e.fenv = q)
include hi hf hq

theorem LEnv.puts_float1 (op : FEnv → Nat → Nat)
    (h32 : exec single s = laneRun s e.f fun e => e.write (e.map1 (op e.fenv)))
    (h64 : exec double s = laneRun s e.f fun e => e.write (e.map1 (op e.fenv)))
    (hp : exec packed s = laneRun s e.f fun e => e.write (e.map1 (halves1 (op e.fenv)))) :
    let out := fun (op : Nat → Nat) t => (⟨op (e.opA t).x, (e.opA t).pz⟩ : Opd)
    (e.ty = 10 → e.puts s single 1 (out (op q))) ∧ (e.ty = 11 → e.puts s double 2 (out (op q))) ∧
      (e.ty = 8 ∨ e.ty = 9 → e.puts s packed 1 (out (halves1 (op q)))) :=
  hq ▸ puts_forms (puts_of_map1 hi hf h32) (puts_of_map1 hi hf h64) (puts_of_map1 hi hf hp)

theorem LEnv.puts_float2 (op : FEnv → Nat → Nat → Nat)
    (h32 : exec single s = laneRun s e.f fun e => e.write (e.map2 (op e.fenv)))
    (h64 : exec double s = laneRun s e.f fun e => e.write (e.map2 (op e.fenv)))
    (hp : exec packed s = laneRun s e.f fun e => e.write (e.map2 (halves2 (op e.fenv)))) :
    let out := fun (op : Nat → Nat → Nat) t => (⟨op (e.opA t).x (e.opB t).x, (e.opA t).pz || (e.opB t).pz⟩ : Opd)
    (e.ty = 10 → e.puts s single 1 (out (op q))) ∧ (e.ty = 11 → e.puts s double 2 (out (op q))) ∧
      (e.ty = 8 ∨ e.ty = 9 → e.puts s packed 1 (out (halves2 (op q)))) :=
  hq ▸ puts_forms (puts_of_map2 hi hf h32) (puts_of_map2 hi hf h64) (puts_of_map2 hi hf hp)

theorem LEnv.puts_float3 (op : FEnv → Nat → Nat → Nat → Nat)
    (h32 : exec single s = laneRun s e.f fun e => e.write (e.map3 (op e.fenv)))
    (h64 : exec double s = laneRun s e.f fun e => e.write (e.map3 (op e.fenv)))
    (hp : exec packed s = laneRun s e.f fun e => e.write (e.map3 (halves3 (op e.fenv)))) :
    let out := fun (op : Nat → Nat → Nat → Nat) t =>
      (⟨op (e.opA t).x (e.opB t).x (e.opC t).x, (e.opA t).pz || (e.opB t).pz || (e.opC t).pz⟩ : Opd)
    (e.ty = 10 → e.puts s single 1 (out (op q))) ∧ (e.ty = 11 → e.puts s double 2 (out (op q))) ∧
      (e.ty = 8 ∨ e.ty = 9 → e.puts s packed 1 (out (halves3 (op q)))) :=
  hq ▸ puts_forms (puts_of_map3 hi hf h32) (puts_of_map3 hi hf h64) (puts_of_map3 hi hf hp)
end

/-- Settles O36: each instruction is its operation on codes in the floating environment that MODE and its rounding field give. -/
theorem laneFloat : Obligations.LaneFloat := by
  unfold Obligations.LaneFloat
  intro s e hi hf m d fl V R sign A B C
  have hq : e.fenv = ⟨m, flushOn e.snap.mode e.ty, d⟩ := e.fenv_eq
  have hdiv {i : Instr} (hx : exec i s = laneRun s e.f fun e => e.writeLong (e.map2 e.fenv.div)) :
      e.putsLong s i (tyRegs e.ty) fun t => ⟨R ((V (A t).x).div (V (B t).x)), (A t).pz || (B t).pz⟩ := by
    have := LEnv.putsLong_of_map2 (op := fun e => e.fenv.div) hi hf hx
    rwa [hq] at this
  have hsqrt : e.putsLong s (.laneSqrtF64 e.f) (tyRegs e.ty) fun t => ⟨R (V (A t).x).sqrt, (A t).pz⟩ := by
    have := LEnv.putsLong_of_map1 (op := fun e => e.fenv.sqrt) (i := .laneSqrtF64 e.f) hi hf rfl
    rwa [hq] at this
  simp only [List.forall_mem_cons]
  refine ⟨⟨?_, ?_, ?_, ?_, ?_, ?_, fun _ h => nomatch h⟩, ⟨?_, ?_, ?_, fun _ h => nomatch h⟩, ?_, fun h => ?_, fun h => ?_⟩
  case refine_1 => exact LEnv.puts_float2 hi hf hq FEnv.add rfl rfl rfl
  case refine_2 => exact LEnv.puts_float2 hi hf hq FEnv.sub rfl rfl rfl
  case refine_3 => exact LEnv.puts_float2 hi hf hq FEnv.mul rfl rfl rfl
  case refine_4 => exact LEnv.puts_float2 hi hf hq FEnv.min rfl rfl rfl
  case refine_5 => exact LEnv.puts_float2 hi hf hq FEnv.max rfl rfl rfl
  case refine_6 => exact LEnv.puts_float2 hi hf hq FEnv.copysign rfl rfl rfl
  case refine_7 => exact LEnv.puts_float1 hi hf hq FEnv.abs rfl rfl rfl
  case refine_8 => exact LEnv.puts_float1 hi hf hq FEnv.neg rfl rfl rfl
  case refine_9 => exact LEnv.puts_float1 hi hf hq FEnv.rint rfl rfl rfl
  case refine_10 => exact LEnv.puts_float3 hi hf hq FEnv.fma rfl rfl rfl
  case refine_11 =>
    rw [h] at hdiv hsqrt
    exact ⟨hdiv rfl, hsqrt⟩
  case refine_12 =>
    rw [h] at hdiv
    exact hdiv rfl

/-! ### The approximations (R140, R141, R157) -/

/-- An approximation is the special value where there is one, `sqrt` the rounded root, and each other the rounded value or a
value within the bound. -/
theorem approxOp_spec (f : Fmt) (ty op dir x : Nat) :
    match approxSpecial f op (f.decode x) with
    | some y => approxOp f ty op dir x = y
    | none =>
      if op = 2 then approxOp f ty op dir x = roundTo f (f.decode x).sqrt dir false
      else
        let y := approxVal op (f.decode x)
        approxOp f ty op dir x = roundTo f y 1 false ∨ f.within (approxOp f ty op dir x) y (approxTol f op (f.decode x) y) = true := by
  unfold approxOp
  cases h : approxSpecial f op (f.decode x) with
  | some y => simp only [h]
  | none =>
    by_cases hop : op = 2
    · subst hop
      simp only [h, if_true]
    · simp only [h, hop, if_false]
      split
      · exact .inl rfl
      · split
        · next hw => exact .inr hw
        · exact .inl rfl

theorem exec_approximations (s : State) (f : LaneF) :
    ∀ p ∈ ([(.rcp f, 0), (.rsqrt f, 1), (.laneSqrt f, 2), (.exp2 f, 3), (.log2 f, 4), (.sin f, 5), (.cos f, 6), (.tanh f, 7)] :
      List (Instr × Nat)), exec p.1 s = laneRun s f fun e => e.approx p.2 := by
  simp only [List.forall_mem_cons]
  exact ⟨rfl, rfl, rfl, rfl, rfl, rfl, rfl, rfl, fun _ h => nomatch h⟩

/-- An approximation of a register: one `.f32` value, or both `.f16` halves. -/
theorem LEnv.putsLong_of_approx {s : State} {e : LEnv} {q : FEnv} {i : Instr} {op : Nat} (hi : e.issues s) (hf : e.free 1)
    (hty : e.ty = 8 ∨ e.ty = 10) (hq : e.fenv = q) (hx : exec i s = laneRun s e.f fun e => e.approx op) :
    e.putsLong s i 1 fun t =>
      ⟨if e.ty = 8 then halves1 (q.approx e.ty op) (e.opA t).x else q.approx e.ty op (e.opA t).x, (e.opA t).pz⟩ := by
  subst hq
  have hregs : tyRegs e.ty = 1 := by rcases hty with h | h <;> rw [h] <;> rfl
  rw [← hregs] at hf ⊢
  simp only [← ite_apply]
  exact putsLong_of_map1 (op := fun e => if e.ty = 8 then halves1 (e.fenv.approx e.ty op) else e.fenv.approx e.ty op) hi hf hx

/-- Settles O37: each approximation is `approxOp` on flushed codes, and its result is one that R140 and R141 permit. -/
theorem approximations : Obligations.Approximations := by
  unfold Obligations.Approximations
  intro s e hi hf hty m d fl p hp
  have hq : e.fenv = ⟨m, flushOn e.snap.mode e.ty, d⟩ := e.fenv_eq
  have hputs := LEnv.putsLong_of_approx hi hf hty hq (exec_approximations s e.f p hp)
  exact ⟨approxOp m e.ty p.2 d, hputs, approxOp_spec m e.ty p.2 d⟩

end Sys2Proof.Machine
end

section
/-! # Conversions, packing and packed dot products (O38) -/

namespace Sys2Proof.Machine

/-! ### The codes that a conversion gives lie in their width -/

/-- A code of a floating type is a sign and a magnitude below its weight. -/
theorem fmtOf_width {ty : Nat} {f : Fmt} (h : fmtOf ty = some f) : 2 ^ tyBits ty = 2 * f.signBit := by
  unfold fmtOf at h
  split at h <;> cases h <;> rfl

/-- The magnitudes that rounding can give have no sign bit. -/
theorem fmtOf_magnitudes {ty : Nat} {f : Fmt} (h : fmtOf ty = some f) :
    f.maxMag < f.signBit ∧ f.infMag < f.signBit ∧ f.canonNaN < f.signBit ∧ (f.kind = .e4m3 → 0x7F < f.signBit) := by
  unfold fmtOf at h
  split at h <;> cases h <;> decide +kernel

theorem sign_add_lt {f : Fmt} {mag : Nat} (h : mag < f.signBit) (neg : Bool) : (if neg then f.signBit else 0) + mag < 2 * f.signBit := by
  split <;> omega

theorem Fmt.overflow_lt {ty : Nat} {f : Fmt} (h : fmtOf ty = some f) (neg : Bool) (dir : Nat) (sat isInf : Bool) :
    f.overflow neg dir sat isInf < 2 * f.signBit := by
  obtain ⟨hmax, hinf, -, h7F⟩ := fmtOf_magnitudes h
  have hsign {mag : Nat} (hm : mag < f.signBit) := sign_add_lt hm neg
  unfold Fmt.overflow
  generalize (if neg then f.signBit else 0) = sg at hsign ⊢
  cases hk : f.kind with
  | ieee =>
    simp only
    split
    · exact hsign hmax
    · split
      · exact hsign hinf
      · exact hsign hmax
  | e4m3 =>
    simp only
    split
    · exact hsign hmax
    · split
      · exact hsign (h7F hk)
      · exact hsign hmax
  | e2m1 => exact hsign hmax

/-- Every result of rounding is a code of its format. -/
theorem roundTo_lt {ty : Nat} {f : Fmt} (h : fmtOf ty = some f) (x : Num) (dir : Nat) (sat : Bool) :
    roundTo f x dir sat < 2 * f.signBit := by
  obtain ⟨hmax, -, hnan, -⟩ := fmtOf_magnitudes h
  cases x with
  | nan =>
    show f.canonNaN < _
    omega
  | inf neg => exact Fmt.overflow_lt h neg dir sat true
  | fin neg m d e =>
    have hcut (mag : Nat) :
        (if f.maxMag < mag then f.overflow neg dir sat false else (if neg then f.signBit else 0) + mag) < 2 * f.signBit := by
      split
      · exact Fmt.overflow_lt h neg dir sat false
      · next hle => exact sign_add_lt (lt_of_le_of_lt (Nat.le_of_not_lt hle) hmax) neg
    have hzero := hcut 0
    rw [if_neg (Nat.not_lt_zero _), Nat.add_zero] at hzero
    unfold roundTo
    dsimp only
    by_cases hm : m = 0
    · rwa [if_pos hm]
    · rw [if_neg hm]
      exact hcut _

theorem Fmt.flush_le (f : Fmt) (on : Bool) (x : Nat) : f.flush on x ≤ x := by
  unfold Fmt.flush
  split
  · exact Nat.div_mul_le_self _ _
  · exact le_refl _

theorem wrap_lt (w : Nat) (z : Int) : wrap w z < 2 ^ w := by
  unfold wrap
  have h0 : (0 : Int) < 2 ^ w := by positivity
  have h1 := Int.emod_lt_of_pos z h0
  have h2 := Int.emod_nonneg z h0.ne'
  exact_mod_cast (Int.toNat_lt h2).2 (by exact_mod_cast h1)

/-- A converted value is a code of its type. -/
theorem convert_lt (mode : BitVec 32) (dir : Nat) (sat : Bool) (dt st x : Nat) : convert mode dir sat dt st x < 2 ^ tyBits dt := by
  have hinto {b : Fmt} (hb : fmtOf dt = some b) (on : Bool) (v : Num) (sat : Bool) : b.flush on (roundTo b v dir sat) < 2 ^ tyBits dt := by
    rw [fmtOf_width hb]
    exact lt_of_le_of_lt (b.flush_le _ _) (roundTo_lt hb _ _ _)
  unfold convert
  dsimp only
  split
  · next hb => exact hinto hb _ _ _
  · exact wrap_lt _ _
  · next hb => exact hinto hb _ _ _
  · exact wrap_lt _ _

/-! ### Packed elements (R128) -/

theorem packElems_cons (ty x : Nat) (l : List Nat) : packElems ty (x :: l) = x + 2 ^ tyBits ty * packElems ty l := rfl

theorem element_zero {ty x : Nat} (h : x < 2 ^ tyBits ty) (y : Nat) : element ty (x + 2 ^ tyBits ty * y) 0 = x := by
  unfold element
  rw [Nat.mul_zero, pow_zero, Nat.div_one, Nat.add_mul_mod_self_left, Nat.mod_eq_of_lt h]

theorem element_succ {ty x : Nat} (h : x < 2 ^ tyBits ty) (y j : Nat) : element ty (x + 2 ^ tyBits ty * y) (j + 1) = element ty y j := by
  unfold element
  rw [Nat.mul_succ, Nat.add_comm (_ * j), pow_add, ← Nat.div_div_eq_div_mul, Nat.add_mul_div_left _ _ (Nat.two_pow_pos _),
    Nat.div_eq_of_lt h, Nat.zero_add]

/-- Element j of packed codes is the j-th of them. -/
theorem element_packElems {ty : Nat} {l : List Nat} (h : ∀ x ∈ l, x < 2 ^ tyBits ty) {j x : Nat} (hj : l[j]? = some x) :
    element ty (packElems ty l) j = x := by
  induction l generalizing j with
  | nil => cases hj
  | cons y l ih =>
    have hy := h y (List.mem_cons_self ..)
    rw [packElems_cons]
    cases j with
    | zero =>
      cases hj
      exact element_zero hy _
    | succ j =>
      rw [element_succ hy]
      exact ih (fun z hz => h z (List.mem_cons_of_mem _ hz)) hj

/-- Element j of converted codes packed together is the j-th of them converted. -/
theorem LEnv.element_packed (e : LEnv) (dt st : Nat) {l : List Nat} {j x : Nat} (hj : l[j]? = some x) :
    element dt (packElems dt (l.map (e.conv dt st))) j = e.conv dt st x := by
  refine element_packElems (fun y hy => ?_) (by rw [List.getElem?_map, hj, Option.map_some])
  obtain ⟨z, -, rfl⟩ := List.mem_map.1 hy
  exact convert_lt _ _ _ _ _ _

/-- Place j of blocks of n in a row is place j mod n of block j / n. -/
theorem getElem?_blocks {α : Type} {n : Nat} (hn : 0 < n) (f : α → Nat → Nat) (l : List α) (j : Nat) :
    (l.foldr (fun r acc => (List.range n).map (f r) ++ acc) [])[j]? = l[j / n]?.map fun r => f r (j % n) := by
  induction l generalizing j with
  | nil => rfl
  | cons r l ih =>
    rw [List.foldr_cons]
    by_cases hj : j < n
    · rw [List.getElem?_append_left (by simpa using hj), Nat.div_eq_of_lt hj, Nat.mod_eq_of_lt hj]
      simp [hj]
    · obtain ⟨i, rfl⟩ := Nat.exists_eq_add_of_le (Nat.le_of_not_lt hj)
      rw [List.getElem?_append_right (by simp), Nat.add_div_left _ hn, Nat.add_mod_left, List.getElem?_cons_succ]
      simpa using ih i

/-- Place j of two blocks of n in a row. -/
theorem getElem?_two_blocks {n j : Nat} (hj : j < 2 * n) (f g : Nat → Nat) :
    ((List.range n).map f ++ (List.range n).map g)[j]? = some (if j < n then f j else g (j - n)) := by
  by_cases h : j < n
  · rw [List.getElem?_append_left (by simpa using h), if_pos h]
    simp [h]
  · rw [List.getElem?_append_right (by simpa using Nat.le_of_not_lt h), if_neg h, List.length_map, List.length_range]
    simp [show j - n < n by omega]

/-! ### Conversions of one value (R132, R152) -/

theorem tySigned_iff (ty : Nat) : tySigned ty = true ↔ ty ∈ [0, 2, 4, 6, 15] := by
  simp [tySigned, or_assoc]

theorem intMin_eq (ty : Nat) : intMin ty = if ty ∈ [0, 2, 4, 6, 15] then -(2 ^ (tyBits ty - 1)) else 0 :=
  if_congr (tySigned_iff ty) rfl rfl

theorem intMax_eq (ty : Nat) : intMax ty = if ty ∈ [0, 2, 4, 6, 15] then 2 ^ (tyBits ty - 1) - 1 else 2 ^ tyBits ty - 1 :=
  if_congr (tySigned_iff ty) rfl rfl

theorem intFit_eq_fitTo (ty : Nat) (sat : Bool) (z : Int) : intFit ty sat z = fitTo ty sat z := by
  unfold intFit
  rw [intMin_eq, intMax_eq]
  rfl

theorem narrowSigned_iff (ty : Nat) : narrowSigned ty = true ↔ ty = 0 ∨ ty = 2 ∨ ty = 15 := by
  unfold narrowSigned
  rw [Bool.and_eq_true, tySigned_iff, decide_eq_true_iff]
  constructor
  · rintro ⟨hty, hbits⟩
    simp only [List.mem_cons, List.not_mem_nil, or_false] at hty
    rcases hty with rfl | rfl | rfl | rfl | rfl <;> simp_all [tyBits]
  · rintro (rfl | rfl | rfl) <;> decide

/-- A narrow signed integer is extended to 32 bits, and every other code is placed as it is. -/
theorem placeCvt_eq (dt x : Nat) : placeCvt dt x = if dt = 0 ∨ dt = 2 ∨ dt = 15 then modPow 32 (intOf dt x) else x := by
  unfold placeCvt
  by_cases h : narrowSigned dt = true
  · have hsigned : tySigned dt = true := by
      unfold narrowSigned at h
      exact (Bool.and_eq_true_iff.1 h).1
    rw [if_pos h, if_pos ((narrowSigned_iff dt).1 h), ← intVal_eq_intOf]
    unfold intVal
    rw [if_pos hsigned]
    rfl
  · rw [if_neg h, if_neg fun hty => h ((narrowSigned_iff dt).2 hty)]

/-! ### Packed dot products (R137, R156) -/

/-- The exact product of element j of two packed values. -/
def dotLeaf (ty a b j : Nat) : Num := ((fmtD ty).decode (element ty a j)).mul ((fmtD ty).decode (element ty b j))

theorem packedDot_float {ty : Nat} {f : Fmt} (h : fmtOf ty = some f) {n : Nat} (hn : 32 / tyBits ty = n) (a b c : Nat) :
    packedDot ty a b c = roundTo f32 ((f32.decode c).add (treeSum f32 n ((List.range n).map (dotLeaf ty a b))) 1) 1 false := by
  have hleaves : (List.zipWith Num.mul (((List.range n).map (element ty a)).map f.decode) (((List.range n).map (element ty b)).map f.decode)) =
      (List.range n).map (dotLeaf ty a b) := by
    unfold dotLeaf fmtD
    rw [h, List.map_map, List.map_map, List.zipWith_map, List.zipWith_self]
    rfl
  unfold packedDot
  rw [← hleaves, ← hn]
  simp only [h]

theorem packedDot_int {ty : Nat} (h : fmtOf ty = none) {n : Nat} (hn : 32 / tyBits ty = n) (a b c : Nat) :
    packedDot ty a b c =
      modPow 32 ((List.range n).foldl (fun z j => z + intOf ty (element ty a j) * intOf ty (element ty b j)) (c : Int)) := by
  unfold packedDot
  rw [hn]
  simp only [h, List.zipWith_map, List.zipWith_self, List.foldl_map, intVal_eq_intOf]
  rfl

/-! ### What each instruction runs -/

/-- A destination of `pack` has one source type, and fills one register. -/
theorem packSrc_of_mem {ty st : Nat} (h : st ∈ (match ty with
    | 8 | 9 => [10]
    | 2 => [4]
    | 3 => [5]
    | 12 | 13 => [8]
    | 0 => [2]
    | 1 => [3]
    | 14 => [12]
    | 15 => [0]
    | _ => [] : List Nat)) : packSrc ty = some st ∧ tyRegs ty = 1 := by
  split at h <;> simp_all [packSrc, tyRegs, tyIs64]

section
variable {s : State} {e : LEnv} (hi : e.issues s)
include hi

theorem LEnv.exec_pack {st : Nat} (hst : packSrc e.ty = some st) : exec (.pack e.f) s =
    .next (e.write (e.map2 fun a b => packElems e.ty (((List.range (32 / tyBits st)).map (element st a) ++
      (List.range (32 / tyBits st)).map (element st b)).map (e.conv e.ty st)))) := by
  show execPack e.f s = _
  unfold execPack
  rw [laneRun_eq hi]
  simp only [hst]

theorem LEnv.exec_cvt : exec (.cvt e.f) s = .next (e.write (e.map (tyRegs e.ty) fun t =>
    let a := e.reg64 t e.f.va.toNat (tyIs64 e.f.vc.toNat)
    ⟨placeCvt e.ty (e.conv e.ty e.f.vc.toNat a.x), a.pz⟩)) :=
  laneRun_eq hi fun e' => e'.write (e'.map (tyRegs e'.ty) fun t =>
    let a := e'.reg64 t e.f.va.toNat (tyIs64 e.f.vc.toNat)
    ⟨placeCvt e'.ty (e'.conv e'.ty e.f.vc.toNat a.x), a.pz⟩)

theorem LEnv.exec_unpack : exec (.unpack e.f) s = .next (e.write (e.map (tyRegs e.ty) fun t =>
    let a := e.reg64 t e.f.va.toNat false
    let b := e.src e.f.bsel e.f.vb t 5
    ⟨placeCvt e.ty (e.conv e.ty e.f.vc.toNat (element e.f.vc.toNat a.x (b.x % (32 / tyBits e.f.vc.toNat)))), a.pz || b.pz⟩)) :=
  laneRun_eq hi fun e' => e'.write (e'.map (tyRegs e'.ty) fun t =>
    let a := e'.reg64 t e.f.va.toNat false
    let b := e'.src e.f.bsel e.f.vb t 5
    ⟨placeCvt e'.ty (e'.conv e'.ty e.f.vc.toNat (element e.f.vc.toNat a.x (b.x % (32 / tyBits e.f.vc.toNat)))), a.pz || b.pz⟩)

/-- The four registers that `qpack` reads in a thread. -/
def LEnv.quad (e : LEnv) (t : Nat) : List Opd := (List.range 4).map fun i => e.reg64 t (e.f.va.toNat + i) false

theorem LEnv.exec_qpack : exec (.qpack e.f) s = .next (e.write (e.map 1 fun t =>
    ⟨packElems e.ty (((e.quad t).foldr (fun r acc => (List.range (32 / tyBits e.f.vc.toNat)).map (element e.f.vc.toNat r.x) ++ acc) []).map
      (e.conv e.ty e.f.vc.toNat)), (e.quad t).any (·.pz)⟩)) := by
  show execQpack e.f s = _
  unfold execQpack
  rw [laneRun_eq hi]
  rfl

theorem LEnv.puts_of_dot {i : Instr} {op : Nat → Nat → Nat → Nat} (hf : e.free (tyRegs e.ty)) (hr : tyRegs e.ty = 1)
    (hop : ∀ a b c, packedDot e.ty a b c = op a b c) (hx : exec i s = laneRun s e.f fun e => e.write (e.map3 (packedDot e.ty))) :
    e.puts s i 1 fun t => ⟨op (e.opA t).x (e.opB t).x (e.opC t).x, (e.opA t).pz || (e.opB t).pz || (e.opC t).pz⟩ := by
  have hputs := puts_of_map3 (op := fun e => packedDot e.ty) hi hf hx
  simp only [hop] at hputs
  rwa [hr] at hputs
end

theorem LEnv.quad_pz (e : LEnv) (t : Nat) : (e.quad t).any (·.pz) =
    ((e.reg64 t e.f.va.toNat false).pz || (e.reg64 t (e.f.va.toNat + 1) false).pz || (e.reg64 t (e.f.va.toNat + 2) false).pz ||
      (e.reg64 t (e.f.va.toNat + 3) false).pz) := by
  simp [quad, List.range_succ, Bool.or_assoc]

theorem LEnv.getElem?_quad (e : LEnv) (t : Nat) {i : Nat} (h : i < 4) : (e.quad t)[i]? = some (e.reg64 t (e.f.va.toNat + i) false) := by
  simp [quad, h]

/-- Settles O38: each conversion is `convert`, whose results fit their elements; a dot product sums its leaves by the tree of R137. -/
theorem laneConvert : Obligations.LaneConvert := by
  unfold Obligations.LaneConvert
  intro s e hi hf mode d conv placed el st A B C
  have hconv (dt st x : Nat) : e.conv dt st x = conv dt st x := by
    unfold LEnv.conv convert
    simp only [effDir_eq, intMin_eq, intMax_eq, intFit_eq_fitTo, intVal_eq_intOf]
    rfl
  refine ⟨fun _ => ⟨?_, ?_, fun hr => ?_⟩, fun st' hst' => ?_, ?_⟩
  · simp only [← hconv, placed, ← placeCvt_eq]
    exact LEnv.puts_of_write hi hf (LEnv.exec_cvt hi)
  · simp only [← hconv, placed, ← placeCvt_eq]
    exact LEnv.puts_of_write hi hf (LEnv.exec_unpack hi)
  · refine ⟨_, LEnv.puts_of_write hi (hr ▸ hf) (LEnv.exec_qpack hi), fun t => ⟨e.quad_pz t, fun j hj => ?_⟩⟩
    have hn : 0 < 32 / tyBits st := by omega
    have hj4 : j / (32 / tyBits st) < 4 := (Nat.div_lt_iff_lt_mul hn).2 hj
    refine (e.element_packed e.ty st ?_).trans (hconv _ _ _)
    rw [getElem?_blocks hn, e.getElem?_quad t hj4]
    rfl
  · obtain ⟨hsrc, hr⟩ := packSrc_of_mem hst'
    have hputs := LEnv.puts_of_write hi hf (LEnv.exec_pack hi hsrc)
    rw [hr] at hputs
    exact ⟨_, hputs, fun t => ⟨rfl, fun j hj => (e.element_packed e.ty st' (getElem?_two_blocks hj _ _)).trans (hconv _ _ _)⟩⟩
  · intro add out ints prod four rounded
    refine ⟨fun h => ?_, fun h => ?_, fun h => ?_, fun h => ?_, fun h => ?_⟩
    · rcases h with h | h <;>
        exact LEnv.puts_of_dot hi hf (by rw [h]; rfl) (packedDot_int (by rw [h]; rfl) (by rw [h]; rfl)) rfl
    · exact LEnv.puts_of_dot hi hf (by rw [h]; rfl) (packedDot_int (by rw [h]; rfl) (by rw [h]; rfl)) rfl
    · rcases h with h | h <;>
        exact LEnv.puts_of_dot hi hf (by rw [h]; rfl) (fun a b c => packedDot_float (n := 4) (by rw [h]; rfl) (by rw [h]; rfl) a b c) rfl
    · exact LEnv.puts_of_dot hi hf (by rw [h]; rfl) (fun a b c => packedDot_float (n := 8) (by rw [h]; rfl) (by rw [h]; rfl) a b c) rfl
    · rcases h with h | h <;>
        exact LEnv.puts_of_dot hi hf (by rw [h]; rfl) (fun a b c => packedDot_float (n := 2) (by rw [h]; rfl) (by rw [h]; rfl) a b c) rfl

end Sys2Proof.Machine
end
